-- ==== Sys2Proof/Word.lean ====
section
/-! DEFINITION. The word types of the Xokar and the plainest arithmetic on them (R4, R19). -/

namespace Sys2Proof

/-- A 64-bit x register, address or control-register value (R19). -/
abbrev Word := BitVec 64
/-- A byte of memory (R241). -/
abbrev Byte := BitVec 8
/-- A 32-bit instruction word or vector lane (R19, R67). -/
abbrev Word32 := BitVec 32
/-- A core id, formed as die, y and x of six bits each (R13). -/
abbrev CoreId := BitVec 18
/-- A context slot number (R15). -/
abbrev SlotNo := BitVec 4
/-- A byte offset in a core's local memory or code (R18, R35). -/
abbrev Off := BitVec 20
/-- A compute die number (R13). -/
abbrev Die := BitVec 6
/-- A vault of the module: die and vault number in the die (R14). -/
abbrev VaultId := BitVec 14
/-- An x register number (R68). -/
abbrev XReg := BitVec 5
/-- A v register number (R68). -/
abbrev VReg := BitVec 4
/-- A p register number (R68). -/
abbrev PReg := BitVec 3
/-- The sixteen 32-bit lanes of a v register (R19, R151). -/
abbrev VVal := Vector Word32 16

end Sys2Proof
end

