-- ==== Sys2Proof/Syntax.lean ====
section
/-! DEFINITION. The instructions and events of the Xokar: one constructor of Instr for every row of the opcode table.
An encoded instruction carries the fields of its word (R67-R92); an event (95_what_each_step_holds) names the unit and the
item it acts on. -/

namespace Sys2Proof

/-- Operands of R form with d, a and b (R67, R71). -/
structure R3 where
  d : XReg
  a : XReg
  b : XReg
  wa : Bool
  wb : Bool
  deriving DecidableEq, Repr

/-- Operands of R form with d and a. -/
structure R2 where
  d : XReg
  a : XReg
  wa : Bool
  deriving DecidableEq, Repr

/-- Operands of R form with a and b. -/
structure RAB where
  a : XReg
  b : XReg
  wa : Bool
  wb : Bool
  deriving DecidableEq, Repr

/-- Operands of R form with a. -/
structure RA where
  a : XReg
  wa : Bool
  deriving DecidableEq, Repr

/-- Operands of R form with d. -/
structure RD where
  d : XReg
  deriving DecidableEq, Repr

/-- Operands of a word with no operand. -/
structure R0 where
  deriving DecidableEq, Repr

/-- Operands of I form: d, a and imm13. -/
structure IOp where
  d : XReg
  a : XReg
  imm : BitVec 13
  wa : Bool
  deriving DecidableEq, Repr

/-- Operands of I form with a shift amount 0-63 (R77). -/
structure ShOp where
  d : XReg
  a : XReg
  n : BitVec 6
  wa : Bool
  deriving DecidableEq, Repr

/-- Operands of `bfx`: pos, len - 1 and s (R77). -/
structure BfxOp where
  d : XReg
  a : XReg
  pos : BitVec 6
  len1 : BitVec 6
  s : Bool
  wa : Bool
  deriving DecidableEq, Repr

/-- Operands of `bfi`: pos and len - 1 (R77). -/
structure BfiOp where
  d : XReg
  a : XReg
  pos : BitVec 6
  len1 : BitVec 6
  wa : Bool
  deriving DecidableEq, Repr

/-- Operands of U form. -/
structure UOp where
  d : XReg
  imm : BitVec 20
  deriving DecidableEq, Repr

/-- Operands of B form: a, b and off13. -/
structure BOp where
  a : XReg
  b : XReg
  off : BitVec 13
  wa : Bool
  wb : Bool
  deriving DecidableEq, Repr

/-- Operands of J form. -/
structure JOp where
  d : XReg
  off : BitVec 20
  deriving DecidableEq, Repr

/-- Operands of `loop`: a and off13 (R78). -/
structure LoopOp where
  a : XReg
  off : BitVec 13
  wa : Bool
  deriving DecidableEq, Repr

/-- Operands of `lix`: d (R78). -/
structure LixOp where
  d : XReg
  lit : BitVec 32
  deriving DecidableEq, Repr

/-- Operands of acquire load: scope and signed offset (R79). -/
structure AcqOp where
  d : XReg
  a : XReg
  scope : BitVec 3
  off : BitVec 10
  wa : Bool
  deriving DecidableEq, Repr

/-- Operands of release store: scope and signed offset (R79). -/
structure RelOp where
  b : XReg
  a : XReg
  scope : BitVec 3
  off : BitVec 10
  wa : Bool
  wb : Bool
  deriving DecidableEq, Repr

/-- Operands of S form: b the data, a the base. -/
structure SOp where
  b : XReg
  a : XReg
  imm : BitVec 13
  wa : Bool
  wb : Bool
  deriving DecidableEq, Repr

/-- Operands of VM form of `vld` (R80). -/
structure VldOp where
  v : VReg
  a : XReg
  p : PReg
  imm : BitVec 11
  wa : Bool
  deriving DecidableEq, Repr

/-- Operands of VM form of `vst` (R80). -/
structure VstOp where
  v : VReg
  a : XReg
  p : PReg
  imm : BitVec 11
  wa : Bool
  wb : Bool
  deriving DecidableEq, Repr

/-- Operands of VX form of `vldx` and `vstx` (R80). -/
structure VxmOp where
  v : VReg
  x : XReg
  w : VReg
  p : PReg
  scale : BitVec 2
  wa : Bool
  wb : Bool
  deriving DecidableEq, Repr

/-- Operands of `amo`: size bit and order field (R81). -/
structure AmoOp where
  d : XReg
  a : XReg
  b : XReg
  size : Bool
  order : BitVec 2
  wa : Bool
  wb : Bool
  deriving DecidableEq, Repr

/-- Operands of `red`: size bit (R82). -/
structure RedOp where
  a : XReg
  b : XReg
  size : Bool
  wa : Bool
  wb : Bool
  deriving DecidableEq, Repr

/-- Operands of `fence`: scope (R83). -/
structure FenceOp where
  scope : BitVec 3
  deriving DecidableEq, Repr

/-- Operands of `vfence` (R83). -/
structure VfenceOp where
  deriving DecidableEq, Repr

/-- Operands of `postv` (R85). -/
structure PostvOp where
  d : XReg
  m : Bool
  a : XReg
  b : XReg
  wa : Bool
  wb : Bool
  deriving DecidableEq, Repr

/-- Operands of `nbinit` (R85). -/
structure NbinitOp where
  a : XReg
  b : XReg
  wa : Bool
  wb : Bool
  deriving DecidableEq, Repr

/-- Operands of `nbread` (R85). -/
structure NbreadOp where
  m : Bool
  a : XReg
  wa : Bool
  deriving DecidableEq, Repr

/-- Operands of `vtest` (R85). -/
structure VtestOp where
  d : XReg
  m : Bool
  a : XReg
  wa : Bool
  deriving DecidableEq, Repr

/-- Operands of `vcount` (R85). -/
structure VcountOp where
  d : XReg
  m : Bool
  deriving DecidableEq, Repr

/-- Operands of V form with three sources (R86). -/
structure V3 where
  vd : VReg
  va : VReg
  vb : VReg
  vc : VReg
  p : PReg
  wa : Bool
  wb : Bool
  deriving DecidableEq, Repr

/-- Operands of V form with two sources (R86). -/
structure V2 where
  vd : VReg
  va : VReg
  vb : VReg
  p : PReg
  wa : Bool
  wb : Bool
  deriving DecidableEq, Repr

/-- Operands of V form with one source (R86). -/
structure V1 where
  vd : VReg
  va : VReg
  p : PReg
  wa : Bool
  deriving DecidableEq, Repr

/-- Operands of V form with no source (R86). -/
structure V0 where
  vd : VReg
  p : PReg
  deriving DecidableEq, Repr

/-- Operands of V form with a p destination (R86). -/
structure VcmpOp where
  pd : PReg
  va : VReg
  vb : VReg
  p : PReg
  wa : Bool
  wb : Bool
  deriving DecidableEq, Repr

/-- Operands of `vslide`: vc is the immediate n (R86). -/
structure VslideOp where
  vd : VReg
  va : VReg
  vb : VReg
  n : BitVec 4
  p : PReg
  wa : Bool
  wb : Bool
  deriving DecidableEq, Repr

/-- Operands of conversion with a rounding code (R88). -/
structure VcvtOp where
  vd : VReg
  va : VReg
  rnd : BitVec 2
  p : PReg
  wa : Bool
  deriving DecidableEq, Repr

/-- Operands of exact conversion (R88). -/
structure VcvtXOp where
  vd : VReg
  va : VReg
  p : PReg
  wa : Bool
  deriving DecidableEq, Repr

/-- Operands of `vbcast` (R87). -/
structure VbcastOp where
  v : VReg
  x : XReg
  p : PReg
  wb : Bool
  deriving DecidableEq, Repr

/-- Operands of `vext` (R87). -/
structure VextOp where
  v : VReg
  x : XReg
  w : BitVec 4
  wa : Bool
  deriving DecidableEq, Repr

/-- Operands of `vins` (R87). -/
structure VinsOp where
  v : VReg
  x : XReg
  w : BitVec 4
  wb : Bool
  deriving DecidableEq, Repr

/-- Operands of lane reduction (R87). -/
structure VredOp where
  v : VReg
  x : XReg
  p : PReg
  wa : Bool
  deriving DecidableEq, Repr

/-- Operands of `vpcnt` (R87). -/
structure VpcntOp where
  x : XReg
  p : PReg
  deriving DecidableEq, Repr

/-- Operands of `mma`: tile and block base (R89). -/
structure MmaOp where
  tileHi : Bool
  tileLo : BitVec 5
  a : XReg
  wa : Bool
  lit : BitVec 32
  deriving DecidableEq, Repr

/-- Operands of `accld`, `accst`: tile, address and stride (R89). -/
structure AccOp where
  tileHi : Bool
  tileLo : BitVec 5
  a : XReg
  b : XReg
  wa : Bool
  wb : Bool
  deriving DecidableEq, Repr

/-- Operands of `acczero` (R89). -/
structure AccZOp where
  tileHi : Bool
  tileLo : BitVec 5
  deriving DecidableEq, Repr

/-- Operands of `mmresume` (R89). -/
structure MmresOp where
  tileHi : Bool
  tileLo : BitVec 5
  a : XReg
  wa : Bool
  deriving DecidableEq, Repr

/-- Operands of `mmwait` (R89). -/
structure MmwaitOp where
  deriving DecidableEq, Repr

/-- Operands of `vgemv` (R90). -/
structure VgemvOp where
  a : XReg
  wa : Bool
  lit : BitVec 32
  deriving DecidableEq, Repr

/-- Operands of `scfg`: stream and descriptor (R90). -/
structure ScfgOp where
  s : BitVec 2
  a : XReg
  wa : Bool
  deriving DecidableEq, Repr

/-- Operands of `sstop`, `sflush`: stream (R90). -/
structure StrmOp where
  s : BitVec 2
  deriving DecidableEq, Repr

/-- Operands of `spawn`, `migrate`: release flag, a and b (R89). -/
structure SpawnOp where
  rel : Bool
  a : XReg
  b : XReg
  wa : Bool
  wb : Bool
  deriving DecidableEq, Repr

/-- Operands of `spawnd`, `fork`: release flag and a (R89). -/
structure Send1Op where
  rel : Bool
  a : XReg
  wa : Bool
  deriving DecidableEq, Repr

/-- Operands of `callat` (R89). -/
structure CallatOp where
  rel : Bool
  d : XReg
  a : XReg
  b : XReg
  wa : Bool
  wb : Bool
  deriving DecidableEq, Repr

/-- Operands of `reply` (R89). -/
structure ReplyOp where
  a : XReg
  b : XReg
  wa : Bool
  wb : Bool
  deriving DecidableEq, Repr

/-- Operands of `done`, `trigger` (R89). -/
structure TaskEndOp where
  deriving DecidableEq, Repr

/-- Operands of `tsetv` (R91). -/
structure TsetvOp where
  a : XReg
  vb : VReg
  wa : Bool
  wb : Bool
  deriving DecidableEq, Repr

/-- Operands of `tsetx` (R91). -/
structure TsetxOp where
  d : XReg
  a : XReg
  vb : VReg
  wa : Bool
  wb : Bool
  deriving DecidableEq, Repr

/-- Operands of `trap`, `brk`: the 10-bit immediate (R92). -/
structure TrapOp where
  imm : BitVec 10
  deriving DecidableEq, Repr

/-- Operands of `crr` (R92). -/
structure CrrOp where
  d : XReg
  n : BitVec 13
  deriving DecidableEq, Repr

/-- Operands of `crw`, `crs`, `crc` (R92). -/
structure CrwOp where
  a : XReg
  n : BitVec 13
  wa : Bool
  deriving DecidableEq, Repr

/-- A context slot of a core (R15). -/
structure SlotId where
  core : CoreId
  slot : SlotNo
  deriving DecidableEq, Repr

/-- `COX_PLACEMENT`: the die whose cox places its oldest task, and the core it chooses (R328). -/
structure PlaceArg where
  die : Die
  core : CoreId
  deriving DecidableEq, Repr

/-- `COX_STEAL`: the idle cox, the victim cox or core, and the core the task is placed on (R329). -/
structure StealArg where
  die : Die
  fromFork : Bool
  victim : CoreId
  target : CoreId
  deriving DecidableEq, Repr

/-- A stream of a slot (R193). -/
structure StreamArg where
  ctx : SlotId
  s : BitVec 2
  deriving DecidableEq, Repr

/-- Why a launch is pre-empted (R334). -/
inductive PreemptReason where
  | slice | stalemate | leaving | failure
  deriving DecidableEq, Repr

/-- `PREEMPTION`: the accepted launch, the reason, and the core whose budget expired (R334). -/
structure PreemptArg where
  launch : Nat
  reason : PreemptReason
  core : CoreId
  deriving DecidableEq, Repr

/-- The traffic applied to a save image (R336): a request, a task message, a reply, a spawn acknowledgement, boundary traffic, a
wire-barrier completion, or what the copy engine, the matrix engine or a stream of another core, or a vault unit, does next there. -/
inductive ArrivalKind where
  | request | task | reply | spawnAck | boundary | wbDone | copyRun | matrixStep | stream | gemvRow
  deriving DecidableEq, Repr

/-- `SAVE_IMAGE_ARRIVAL`: the kind, and the number of the item in flight, of the core or vault whose unit acts, or 64 times the core
plus four times the slot plus the stream (R336). -/
structure ArrivalArg where
  kind : ArrivalKind
  n : Nat
  deriving DecidableEq, Repr

/-- What a patrol read finds in a granule's check bits (R306, R307). -/
inductive EccState where
  | clean | single | uncorrectable
  deriving DecidableEq, Repr

/-- `PATROL_READ`: the granule (memory key divided by 8) and what its check bits say (R309). -/
structure PatrolArg where
  granule : Nat
  ecc : EccState
  deriving DecidableEq, Repr

/-- The operations of a host access (R381). -/
inductive HostOp where
  | read (n : Nat)
  | write (bytes : List Byte)
  | fetchAdd (wide : Bool) (v : Word)
  | swap (wide : Bool) (v : Word)
  | cas (wide : Bool) (expect v : Word)
  deriving DecidableEq, Repr

/-- `HOST_MEMORY_ACCESS`: an access of a host link to a physical address of BAR2 (R381). -/
structure HostAccess where
  linkB : Bool
  pa : BitVec 42
  op : HostOp
  deriving DecidableEq, Repr

/-- `MCAST_TABLE_WRITE`: a write of a die's multicast entry (R368, R384). -/
structure McastWrite where
  die : Die
  entry : BitVec 8
  val : Word
  deriving DecidableEq, Repr

/-- `BAR0_REGISTER_WRITE`: a 64-bit write of the control space (R383). -/
structure Bar0Write where
  off : Off
  val : Word
  deriving DecidableEq, Repr

/-- A compute die or an I/O die (R388). -/
inductive DieId where
  | compute (d : Die)
  | io (i : BitVec 3)
  deriving DecidableEq, Repr

/-- `DIE_AUTHENTICATION`: the die, and what it returns: its certificate, its nonce Nd, its measurement Md and its signature (R387). -/
structure AuthArg where
  die : DieId
  cert : List Byte
  nonce : BitVec 384
  measure : BitVec 384
  sign : BitVec 768
  deriving DecidableEq, Repr

/-- The read-modify-write operations of `amo` and `red` (R132). -/
inductive AmoFn where
  | add | and | or | xor | min | max | minz | maxz | swap | cas | fadd | fmin | fmax
  deriving DecidableEq, Repr

/-- What a Synelm frame carries (R377, R378): a peer's request to this module, a peer's reply to or refusal of request `req` of
this module, or this module's reply with data, acknowledgement or refusal to a peer. -/
inductive FrameBody where
  | read (pa : BitVec 48) (n : Nat)
  | write (pa : BitVec 48) (bytes : List Byte)
  | amo (pa : BitVec 48) (wide : Bool) (fn : AmoFn) (b : Word) (expect : Word)
  | red (pa : BitVec 48) (wide : Bool) (fn : AmoFn) (b : Word)
  | reply (req : Nat)
  | refusal (req : Nat)
  | data (bytes : List Byte) (poison : Bool)
  | ack
  | refused (pa : BitVec 48)
  deriving DecidableEq, Repr

/-- `SYNELM_FRAME_ARRIVAL`: the window through which this module knows the peer, the module id and the incarnation of the sender, and
the body (R378). -/
structure SynelmFrame where
  window : BitVec 8
  sender : BitVec 16
  inc : BitVec 8
  body : FrameBody
  deriving DecidableEq, Repr

/-- `EN_PASSANT_MERGE`: the router and the two requests in flight that meet there (R366). -/
structure MergeArg where
  router : CoreId
  first : Nat
  second : Nat
  deriving DecidableEq, Repr

/-- `HOST_LINK_TRAINING`: the link and whether it trains as CXL (R381). -/
structure LinkArg where
  linkB : Bool
  cxl : Bool
  deriving DecidableEq, Repr

/-- The instructions and events of the machine, one per row of the opcode table. -/
inductive Instr where
  | add (o : R3)
  | sub (o : R3)
  | mul (o : R3)
  | mulh (o : R3)
  | mulhz (o : R3)
  | div (o : R3)
  | divz (o : R3)
  | rem (o : R3)
  | remz (o : R3)
  | and_ (o : R3)
  | or_ (o : R3)
  | xor_ (o : R3)
  | andn (o : R3)
  | orn (o : R3)
  | shl (o : R3)
  | shr (o : R3)
  | sra (o : R3)
  | rotl (o : R3)
  | rotr (o : R3)
  | min_ (o : R3)
  | max_ (o : R3)
  | minz (o : R3)
  | maxz (o : R3)
  | seq (o : R3)
  | sne (o : R3)
  | slt (o : R3)
  | sltz (o : R3)
  | sle (o : R3)
  | slez (o : R3)
  | clz (o : R2)
  | ctz (o : R2)
  | popc (o : R2)
  | bswap (o : R2)
  | addw (o : R3)
  | subw (o : R3)
  | mulw (o : R3)
  | addi (o : IOp)
  | andi (o : IOp)
  | ori (o : IOp)
  | xori (o : IOp)
  | shli (o : ShOp)
  | shri (o : ShOp)
  | srai (o : ShOp)
  | slti (o : IOp)
  | sltzi (o : IOp)
  | muli (o : IOp)
  | bfx (o : BfxOp)
  | bfi (o : BfiOp)
  | lui (o : UOp)
  | auipc (o : UOp)
  | beq (o : BOp)
  | bne (o : BOp)
  | blt (o : BOp)
  | bge (o : BOp)
  | bltz (o : BOp)
  | bgez (o : BOp)
  | jal (o : JOp)
  | jalr (o : IOp)
  | loop (o : LoopOp)
  | lix (o : LixOp)
  | csel (o : R3)
  | ldb (o : IOp)
  | ldzb (o : IOp)
  | ldh (o : IOp)
  | ldzh (o : IOp)
  | ldw (o : IOp)
  | ldzw (o : IOp)
  | ldd (o : IOp)
  | ldaw (o : AcqOp)
  | ldad (o : AcqOp)
  | stb (o : SOp)
  | sth (o : SOp)
  | stw (o : SOp)
  | std (o : SOp)
  | strw (o : RelOp)
  | strd (o : RelOp)
  | jst (o : SOp)
  | vld (o : VldOp)
  | vst (o : VstOp)
  | vldx (o : VxmOp)
  | vstx (o : VxmOp)
  | amoadd (o : AmoOp)
  | amoand (o : AmoOp)
  | amoor (o : AmoOp)
  | amoxor (o : AmoOp)
  | amomin (o : AmoOp)
  | amomax (o : AmoOp)
  | amominz (o : AmoOp)
  | amomaxz (o : AmoOp)
  | amoswap (o : AmoOp)
  | amocas (o : AmoOp)
  | amofadd (o : AmoOp)
  | amofmin (o : AmoOp)
  | amofmax (o : AmoOp)
  | redadd (o : RedOp)
  | redand (o : RedOp)
  | redor (o : RedOp)
  | redxor (o : RedOp)
  | redmin (o : RedOp)
  | redmax (o : RedOp)
  | redminz (o : RedOp)
  | redmaxz (o : RedOp)
  | redfadd (o : RedOp)
  | redfmin (o : RedOp)
  | redfmax (o : RedOp)
  | joinc (o : R2)
  | fenceAcq (o : FenceOp)
  | fenceRel (o : FenceOp)
  | fenceFull (o : FenceOp)
  | vfence (o : VfenceOp)
  | cbinit (o : RAB)
  | cbarrive (o : RA)
  | cbexpect (o : RAB)
  | cbwait (o : RAB)
  | cbtwait (o : R3)
  | cbtest (o : R3)
  | wbjoin (o : RAB)
  | wbleave (o : RA)
  | wbarrive (o : R3)
  | wbwait (o : RAB)
  | wbtwait (o : R3)
  | wbget (o : R3)
  | ctrg (o : RAB)
  | nbinit (o : NbinitOp)
  | postv (o : PostvOp)
  | nbread (o : NbreadOp)
  | vtest (o : VtestOp)
  | vcount (o : VcountOp)
  | vadd (o : V2)
  | vsub (o : V2)
  | vmul (o : V2)
  | vfma (o : V3)
  | vfms (o : V3)
  | vmin (o : V2)
  | vmax (o : V2)
  | vabs (o : V1)
  | vneg (o : V1)
  | vdiv (o : V2)
  | vsqrt (o : V1)
  | vexp2 (o : V1)
  | vlog2 (o : V1)
  | vfloor (o : V1)
  | dadd (o : V2)
  | dsub (o : V2)
  | dmul (o : V2)
  | dfma (o : V3)
  | dmin (o : V2)
  | dmax (o : V2)
  | ddiv (o : V2)
  | dsqrt (o : V1)
  | dln (o : V1)
  | dexp (o : V1)
  | viadd (o : V2)
  | visub (o : V2)
  | vimul (o : V2)
  | viand (o : V2)
  | vior (o : V2)
  | vixor (o : V2)
  | vishl (o : V2)
  | vishr (o : V2)
  | visra (o : V2)
  | vimin (o : V2)
  | vimax (o : V2)
  | viminz (o : V2)
  | vimaxz (o : V2)
  | vfeq (o : VcmpOp)
  | vflt (o : VcmpOp)
  | vfle (o : VcmpOp)
  | vfne (o : VcmpOp)
  | vieq (o : VcmpOp)
  | vilt (o : VcmpOp)
  | vile (o : VcmpOp)
  | viltz (o : VcmpOp)
  | vsel (o : V2)
  | vperm (o : V2)
  | vslide (o : VslideOp)
  | vmov (o : V1)
  | viota (o : V0)
  | vbcast (o : VbcastOp)
  | vext (o : VextOp)
  | vins (o : VinsOp)
  | vsum (o : VredOp)
  | vmaxr (o : VredOp)
  | vminr (o : VredOp)
  | visum (o : VredOp)
  | vdsum (o : VredOp)
  | vpcnt (o : VpcntOp)
  | vcvtE4m3F32 (o : VcvtOp)
  | vcvtE5m2F32 (o : VcvtOp)
  | vcvtBf16F32 (o : VcvtOp)
  | vcvtF16F32 (o : VcvtOp)
  | vcvtF32E4m3 (o : VcvtXOp)
  | vcvtF32E5m2 (o : VcvtXOp)
  | vcvtF32Bf16 (o : VcvtXOp)
  | vcvtF32F16 (o : VcvtXOp)
  | vcvtI32F32 (o : VcvtOp)
  | vcvtF32I32 (o : VcvtOp)
  | vcvtF64F32 (o : VcvtXOp)
  | vcvtF32F64 (o : VcvtOp)
  | vcvtI32F64 (o : VcvtOp)
  | vcvtF64I32 (o : VcvtXOp)
  | vcvtI8I32 (o : VcvtXOp)
  | vcvtI32I8 (o : VcvtXOp)
  | vrand (o : V0)
  | vunif (o : V0)
  | mmaBf16 (o : MmaOp)
  | mmaE4m3 (o : MmaOp)
  | mmaE5m2 (o : MmaOp)
  | mmaXf8 (o : MmaOp)
  | accld (o : AccOp)
  | accst (o : AccOp)
  | acczero (o : AccZOp)
  | mmresume (o : MmresOp)
  | mmwait (o : MmwaitOp)
  | vgemv (o : VgemvOp)
  | vcodes (o : RAB)
  | copy (o : R2)
  | gather (o : R2)
  | scatter (o : R2)
  | mcast (o : R2)
  | ata (o : R2)
  | castle (o : RA)
  | scfg (o : ScfgOp)
  | sstop (o : StrmOp)
  | sflush (o : StrmOp)
  | spawn (o : SpawnOp)
  | spawnd (o : Send1Op)
  | fork (o : Send1Op)
  | migrate (o : SpawnOp)
  | callat (o : CallatOp)
  | reply (o : ReplyOp)
  | done (o : TaskEndOp)
  | trigger (o : TaskEndOp)
  | tcfg (o : RAB)
  | tset (o : RAB)
  | tsetv (o : TsetvOp)
  | tsetx (o : TsetxOp)
  | tget (o : R2)
  | troot (o : RD)
  | tbuild (o : R0)
  | tnext (o : RD)
  | tdraw (o : RD)
  | tdesc (o : R2)
  | tthr (o : R3)
  | tcut (o : RA)
  | bsend (o : RAB)
  | tmsg (o : R2)
  | jundo (o : RA)
  | jtrim (o : RA)
  | jmark (o : R0)
  | rand (o : RD)
  | unif (o : RD)
  | nop (o : R0)
  | trap (o : TrapOp)
  | brk (o : TrapOp)
  | rfe (o : R0)
  | yield (o : R0)
  | ifence (o : R0)
  | halt (o : R0)
  | fe (o : RAB)
  | tlbinv (o : RA)
  | tlbprobe (o : R2)
  | time (o : RD)
  | ctrr (o : R2)
  | crr (o : CrrOp)
  | crw (o : CrwOp)
  | crs (o : CrwOp)
  | crc (o : CrwOp)
  | asyncSupervisorCause (o : SlotId)
  | copydone (o : SlotId)
  | returningOperationComplete (n : Nat)
  | storeAcknowledgement (n : Nat)
  | homeAccess (n : Nat)
  | pageWalkComplete (n : Nat)
  | cbHomeOperation (n : Nat)
  | cbtwaitExpiry (o : SlotId)
  | wbJoinAck (n : Nat)
  | wbPhaseCompletion (n : Nat)
  | wbtwaitExpiry (o : SlotId)
  | boardPostAtHome (n : Nat)
  | boardViewReturn (n : Nat)
  | boardLevelAdvanceReport (n : Nat)
  | mergedReplySplit (n : Nat)
  | mcastAnchorSnapshot (c : CoreId)
  | taskMessageArrival (n : Nat)
  | badhandlerReport (n : Nat)
  | taskDispatch (c : CoreId)
  | messageResend (n : Nat)
  | spawnAcknowledgement (n : Nat)
  | replyArrival (n : Nat)
  | coxPlacement (a : PlaceArg)
  | coxSteal (a : StealArg)
  | matrixCommandStart (c : CoreId)
  | matrixStep (c : CoreId)
  | copyCommandStart (c : CoreId)
  | copyRunDelivered (c : CoreId)
  | vcodesArrival (c : CoreId)
  | vgemvStart (u : VaultId)
  | vgemvRow (u : VaultId)
  | streamPrefetch (a : StreamArg)
  | treeCommandRun (c : CoreId)
  | boundaryMessageArrival (n : Nat)
  | cancelArrival (n : Nat)
  | boundaryAckArrival (n : Nat)
  | sliceExpiry (c : CoreId)
  | waitBudgetExpiry (c : CoreId)
  | launchRecordAccept (q : BitVec 3)
  | launchStart (n : Nat)
  | initialMessages (n : Nat)
  | launchTriggered (n : Nat)
  | launchCompletion (n : Nat)
  | replayNodeDispatch (n : Nat)
  | preemption (a : PreemptArg)
  | coreSave (c : CoreId)
  | saveImageArrival (a : ArrivalArg)
  | launchSavedReport (n : Nat)
  | failureReport (n : Nat)
  | launchResume (n : Nat)
  | tenancyMove
  | clusterScrub (k : BitVec 10)
  | patrolRead (a : PatrolArg)
  | timebaseReference (d : Die)
  | supplyDroop (c : CoreId)
  | hostMemoryAccess (a : HostAccess)
  | ctlRun
  | attgo
  | mcastTableWrite (a : McastWrite)
  | mcastWriteDrained (d : Die)
  | bar0RegisterWrite (a : Bar0Write)
  | errorLogReport
  | moduleReset
  | dieAuthentication (a : AuthArg)
  | authenticationTimeout (d : DieId)
  | synelmFrameArrival (a : SynelmFrame)
  | peerIncarnationChange (p : BitVec 16)
  | illegal (w : BitVec 32)
  | enPassantMerge (a : MergeArg)
  | wbRootArrival (n : Nat)
  | railRecovery (c : CoreId)
  | bootInitialisationComplete
  | hostLinkTraining (a : LinkArg)
  deriving DecidableEq, Repr

end Sys2Proof
end

