-- ==== Sys2Proof/WellFormed.lean ====
section
/-! DEFINITION. The instructions that a word can hold: the operand checks that R93 item 5 makes beyond the widths of the
fields, which the operand types already give. -/

namespace Sys2Proof

/-- `bfx` and `bfi`: pos + len is at most 64 (R77). -/
def bitFieldFits (pos len1 : BitVec 6) : Bool := decide (pos.toNat + (len1.toNat + 1) ≤ 64)

/-- The rounding code 3 is reserved (R88). -/
def roundingListed (rnd : BitVec 2) : Bool := rnd != 3#2

/-- `tnext` names an even register from x2 to x30 (R91, R93). -/
def pairRegister (d : XReg) : Bool := d.toNat % 2 == 0 && d != 0#5

/-- The operand checks of an instruction; an instruction without one, and an event, is well-formed. -/
def Instr.wellFormed (i : Instr) : Bool :=
  match i with
  | .bfx o => bitFieldFits o.pos o.len1
  | .bfi o => bitFieldFits o.pos o.len1
  | .vcvtE4m3F32 o => roundingListed o.rnd
  | .vcvtE5m2F32 o => roundingListed o.rnd
  | .vcvtBf16F32 o => roundingListed o.rnd
  | .vcvtF16F32 o => roundingListed o.rnd
  | .vcvtI32F32 o => roundingListed o.rnd
  | .vcvtF32I32 o => roundingListed o.rnd
  | .vcvtF32F64 o => roundingListed o.rnd
  | .vcvtI32F64 o => roundingListed o.rnd
  | .tnext o => pairRegister o.d
  | _ => true

/-- An instruction that a word can hold. -/
abbrev Instr.WellFormed (i : Instr) : Prop := i.wellFormed = true

end Sys2Proof
end

