-- ==== Sys2Proof/Decode.lean ====
section
/-! DEFINITION. The decoder of instruction words, total on every word and rejecting by name (R67-R93), and the encoder
written from the same tables. Lean's compiler makes no code for a constructor with fields past the 245th of an inductive
type, so the definitions that build such a constructor are marked noncomputable; Lean's kernel evaluates them all. -/

namespace Sys2Proof

/-- The field of `n` bits at bit `lo` of a word. -/
def fld (w lo n : Nat) : Nat := w / 2 ^ lo % 2 ^ n

/-- Why a word is not an instruction (R93 items 1 to 5). -/
inductive Reject where
  | reservedMajor | unlistedFunc | nonZeroField | badRegister | badImmediate
  deriving DecidableEq, Repr

/-- The answer of the decoder. -/
abbrev Decoded := Except Reject Instr

/-- An x register field (R68). -/
def xf (w lo : Nat) : XReg := BitVec.ofNat 5 (fld w lo 5)
/-- A v register field (R68). -/
def vf (w lo : Nat) : VReg := BitVec.ofNat 4 (fld w lo 4)
/-- A p register field (R68). -/
def pf (w lo : Nat) : PReg := BitVec.ofNat 3 (fld w lo 3)
/-- A flag bit. -/
def bf (w lo : Nat) : Bool := fld w lo 1 == 1

/-- Reject unless the check holds. -/
def need (c : Bool) (r : Reject) (k : Decoded) : Decoded := if c then k else .error r

/-- The fields of R3 (R67, R70). -/
def getR3 (w : Nat) (mk : R3 → Instr) : Decoded :=
  .ok (mk { d := xf w 20, a := xf w 15, b := xf w 10, wa := bf w 1, wb := bf w 0 })

/-- The fields of R2 (R67, R70). -/
def getR2 (w : Nat) (mk : R2 → Instr) : Decoded :=
  need (fld w 10 5 == 0 && fld w 0 1 == 0) .nonZeroField <|
  .ok (mk { d := xf w 20, a := xf w 15, wa := bf w 1 })

/-- The fields of RAB (R67, R70). -/
def getRAB (w : Nat) (mk : RAB → Instr) : Decoded :=
  need (fld w 20 5 == 0) .nonZeroField <|
  .ok (mk { a := xf w 15, b := xf w 10, wa := bf w 1, wb := bf w 0 })

/-- The fields of RA (R67, R70). -/
def getRA (w : Nat) (mk : RA → Instr) : Decoded :=
  need (fld w 20 5 == 0 && fld w 10 5 == 0 && fld w 0 1 == 0) .nonZeroField <|
  .ok (mk { a := xf w 15, wa := bf w 1 })

/-- The fields of RD (R67, R70). -/
def getRD (w : Nat) (mk : RD → Instr) : Decoded :=
  need (fld w 15 5 == 0 && fld w 10 5 == 0 && fld w 1 1 == 0 && fld w 0 1 == 0) .nonZeroField <|
  .ok (mk { d := xf w 20 })

/-- The fields of R0 (R67, R70). -/
def getR0 (w : Nat) (mk : R0 → Instr) : Decoded :=
  need (fld w 20 5 == 0 && fld w 15 5 == 0 && fld w 10 5 == 0 && fld w 1 1 == 0 && fld w 0 1 == 0) .nonZeroField <|
  .ok (mk {})

/-- The fields of IOp (R67, R70). -/
def getIOp (w : Nat) (mk : IOp → Instr) : Decoded :=
  need (fld w 0 1 == 0) .nonZeroField <|
  .ok (mk { d := xf w 20, a := xf w 15, imm := BitVec.ofNat 13 (fld w 2 13), wa := bf w 1 })

/-- The fields of ShOp (R67, R70). -/
def getShOp (w : Nat) (mk : ShOp → Instr) : Decoded :=
  need (fld w 0 1 == 0) .nonZeroField <|
  need (fld w 8 7 == 0) .badImmediate <|
  .ok (mk { d := xf w 20, a := xf w 15, n := BitVec.ofNat 6 (fld w 2 6), wa := bf w 1 })

/-- The fields of BfxOp (R67, R70). -/
def getBfxOp (w : Nat) (mk : BfxOp → Instr) : Decoded :=
  need (fld w 0 1 == 0) .nonZeroField <|
  need (decide (fld w 9 6 + fld w 3 6 + 1 ≤ 64)) .badImmediate <|
  .ok (mk { d := xf w 20, a := xf w 15, pos := BitVec.ofNat 6 (fld w 9 6), len1 := BitVec.ofNat 6 (fld w 3 6), s := bf w 2, wa := bf w 1 })

/-- The fields of BfiOp (R67, R70). -/
def getBfiOp (w : Nat) (mk : BfiOp → Instr) : Decoded :=
  need (fld w 2 1 == 0 && fld w 0 1 == 0) .nonZeroField <|
  need (decide (fld w 9 6 + fld w 3 6 + 1 ≤ 64)) .badImmediate <|
  .ok (mk { d := xf w 20, a := xf w 15, pos := BitVec.ofNat 6 (fld w 9 6), len1 := BitVec.ofNat 6 (fld w 3 6), wa := bf w 1 })

/-- The fields of UOp (R67, R70). -/
def getUOp (w : Nat) (mk : UOp → Instr) : Decoded :=
  .ok (mk { d := xf w 20, imm := BitVec.ofNat 20 (fld w 0 20) })

/-- The fields of BOp (R67, R70). -/
def getBOp (w : Nat) (mk : BOp → Instr) : Decoded :=
  .ok (mk { a := xf w 15, b := xf w 20, off := BitVec.ofNat 13 (fld w 2 13), wa := bf w 1, wb := bf w 0 })

/-- The fields of JOp (R67, R70). -/
def getJOp (w : Nat) (mk : JOp → Instr) : Decoded :=
  .ok (mk { d := xf w 20, off := BitVec.ofNat 20 (fld w 0 20) })

/-- The fields of LoopOp (R67, R70). -/
def getLoopOp (w : Nat) (mk : LoopOp → Instr) : Decoded :=
  need (fld w 20 5 == 0 && fld w 0 1 == 0) .nonZeroField <|
  .ok (mk { a := xf w 15, off := BitVec.ofNat 13 (fld w 2 13), wa := bf w 1 })

/-- The fields of LixOp (R67, R70). -/
def getLixOp (w : Nat) (lit : Word32) (mk : LixOp → Instr) : Decoded :=
  need (fld w 15 5 == 0 && fld w 10 5 == 0 && fld w 2 8 == 0 && fld w 1 1 == 0 && fld w 0 1 == 0) .nonZeroField <|
  .ok (mk { d := xf w 20, lit := lit })

/-- The fields of AcqOp (R67, R70). -/
def getAcqOp (w : Nat) (mk : AcqOp → Instr) : Decoded :=
  need (fld w 0 1 == 0) .nonZeroField <|
  .ok (mk { d := xf w 20, a := xf w 15, scope := BitVec.ofNat 3 (fld w 12 3), off := BitVec.ofNat 10 (fld w 2 10), wa := bf w 1 })

/-- The fields of RelOp (R67, R70). -/
def getRelOp (w : Nat) (mk : RelOp → Instr) : Decoded :=
  .ok (mk { b := xf w 20, a := xf w 15, scope := BitVec.ofNat 3 (fld w 12 3), off := BitVec.ofNat 10 (fld w 2 10), wa := bf w 1, wb := bf w 0 })

/-- The fields of SOp (R67, R70). -/
def getSOp (w : Nat) (mk : SOp → Instr) : Decoded :=
  .ok (mk { b := xf w 20, a := xf w 15, imm := BitVec.ofNat 13 (fld w 2 13), wa := bf w 1, wb := bf w 0 })

/-- The fields of VldOp (R67, R70). -/
def getVldOp (w : Nat) (mk : VldOp → Instr) : Decoded :=
  need (fld w 0 1 == 0) .nonZeroField <|
  .ok (mk { v := vf w 21, a := xf w 16, p := pf w 13, imm := BitVec.ofNat 11 (fld w 2 11), wa := bf w 1 })

/-- The fields of VstOp (R67, R70). -/
def getVstOp (w : Nat) (mk : VstOp → Instr) : Decoded :=
  .ok (mk { v := vf w 21, a := xf w 16, p := pf w 13, imm := BitVec.ofNat 11 (fld w 2 11), wa := bf w 1, wb := bf w 0 })

/-- The fields of VxmOp (R67, R70). -/
def getVxmOp (w : Nat) (mk : VxmOp → Instr) : Decoded :=
  need (fld w 4 5 == 0) .nonZeroField <|
  .ok (mk { v := vf w 21, x := xf w 16, w := vf w 12, p := pf w 9, scale := BitVec.ofNat 2 (fld w 2 2), wa := bf w 1, wb := bf w 0 })

/-- The fields of AmoOp (R67, R70). -/
def getAmoOp (w : Nat) (mk : AmoOp → Instr) : Decoded :=
  need (fld w 2 1 == 0) .nonZeroField <|
  .ok (mk { d := xf w 20, a := xf w 15, b := xf w 10, size := bf w 5, order := BitVec.ofNat 2 (fld w 3 2), wa := bf w 1, wb := bf w 0 })

/-- The fields of RedOp (R67, R70). -/
def getRedOp (w : Nat) (mk : RedOp → Instr) : Decoded :=
  need (fld w 20 5 == 0 && fld w 2 3 == 0) .nonZeroField <|
  .ok (mk { a := xf w 15, b := xf w 10, size := bf w 5, wa := bf w 1, wb := bf w 0 })

/-- The fields of FenceOp (R67, R70). -/
def getFenceOp (w : Nat) (mk : FenceOp → Instr) : Decoded :=
  need (fld w 20 5 == 0 && fld w 15 5 == 0 && fld w 10 5 == 0 && fld w 2 3 == 0 && fld w 1 1 == 0 && fld w 0 1 == 0) .nonZeroField <|
  .ok (mk { scope := BitVec.ofNat 3 (fld w 5 3) })

/-- The fields of VfenceOp (R67, R70). -/
def getVfenceOp (w : Nat) (mk : VfenceOp → Instr) : Decoded :=
  need (fld w 20 5 == 0 && fld w 15 5 == 0 && fld w 10 5 == 0 && fld w 5 3 == 0 && fld w 2 3 == 0 && fld w 1 1 == 0 && fld w 0 1 == 0) .nonZeroField <|
  .ok (mk {})

/-- The fields of PostvOp (R67, R70). -/
def getPostvOp (w : Nat) (mk : PostvOp → Instr) : Decoded :=
  need (fld w 5 4 == 0) .nonZeroField <|
  .ok (mk { d := xf w 20, m := bf w 9, a := xf w 15, b := xf w 10, wa := bf w 1, wb := bf w 0 })

/-- The fields of NbinitOp (R67, R70). -/
def getNbinitOp (w : Nat) (mk : NbinitOp → Instr) : Decoded :=
  need (fld w 20 5 == 0 && fld w 9 1 == 0 && fld w 5 4 == 0) .nonZeroField <|
  .ok (mk { a := xf w 15, b := xf w 10, wa := bf w 1, wb := bf w 0 })

/-- The fields of NbreadOp (R67, R70). -/
def getNbreadOp (w : Nat) (mk : NbreadOp → Instr) : Decoded :=
  need (fld w 20 5 == 0 && fld w 10 5 == 0 && fld w 5 4 == 0 && fld w 0 1 == 0) .nonZeroField <|
  .ok (mk { m := bf w 9, a := xf w 15, wa := bf w 1 })

/-- The fields of VtestOp (R67, R70). -/
def getVtestOp (w : Nat) (mk : VtestOp → Instr) : Decoded :=
  need (fld w 10 5 == 0 && fld w 5 4 == 0 && fld w 0 1 == 0) .nonZeroField <|
  .ok (mk { d := xf w 20, m := bf w 9, a := xf w 15, wa := bf w 1 })

/-- The fields of VcountOp (R67, R70). -/
def getVcountOp (w : Nat) (mk : VcountOp → Instr) : Decoded :=
  need (fld w 15 5 == 0 && fld w 10 5 == 0 && fld w 5 4 == 0 && fld w 1 1 == 0 && fld w 0 1 == 0) .nonZeroField <|
  .ok (mk { d := xf w 20, m := bf w 9 })

/-- The fields of V3 (R67, R70). -/
def getV3 (w : Nat) (mk : V3 → Instr) : Decoded :=
  .ok (mk { vd := vf w 21, va := vf w 17, vb := vf w 13, vc := vf w 9, p := pf w 6, wa := bf w 1, wb := bf w 0 })

/-- The fields of V2 (R67, R70). -/
def getV2 (w : Nat) (mk : V2 → Instr) : Decoded :=
  need (fld w 9 4 == 0) .nonZeroField <|
  .ok (mk { vd := vf w 21, va := vf w 17, vb := vf w 13, p := pf w 6, wa := bf w 1, wb := bf w 0 })

/-- The fields of V1 (R67, R70). -/
def getV1 (w : Nat) (mk : V1 → Instr) : Decoded :=
  need (fld w 13 4 == 0 && fld w 9 4 == 0 && fld w 0 1 == 0) .nonZeroField <|
  .ok (mk { vd := vf w 21, va := vf w 17, p := pf w 6, wa := bf w 1 })

/-- The fields of V0 (R67, R70). -/
def getV0 (w : Nat) (mk : V0 → Instr) : Decoded :=
  need (fld w 17 4 == 0 && fld w 13 4 == 0 && fld w 9 4 == 0 && fld w 1 1 == 0 && fld w 0 1 == 0) .nonZeroField <|
  .ok (mk { vd := vf w 21, p := pf w 6 })

/-- The fields of VcmpOp (R67, R70). -/
def getVcmpOp (w : Nat) (mk : VcmpOp → Instr) : Decoded :=
  need (fld w 9 4 == 0) .nonZeroField <|
  need (fld w 24 1 == 0) .badRegister <|
  .ok (mk { pd := pf w 21, va := vf w 17, vb := vf w 13, p := pf w 6, wa := bf w 1, wb := bf w 0 })

/-- The fields of VslideOp (R67, R70). -/
def getVslideOp (w : Nat) (mk : VslideOp → Instr) : Decoded :=
  .ok (mk { vd := vf w 21, va := vf w 17, vb := vf w 13, n := BitVec.ofNat 4 (fld w 9 4), p := pf w 6, wa := bf w 1, wb := bf w 0 })

/-- The fields of VcvtOp (R67, R70). -/
def getVcvtOp (w : Nat) (mk : VcvtOp → Instr) : Decoded :=
  need (fld w 13 4 == 0 && fld w 9 2 == 0 && fld w 0 1 == 0) .nonZeroField <|
  need (fld w 11 2 != 3) .badImmediate <|
  .ok (mk { vd := vf w 21, va := vf w 17, rnd := BitVec.ofNat 2 (fld w 11 2), p := pf w 6, wa := bf w 1 })

/-- The fields of VcvtXOp (R67, R70). -/
def getVcvtXOp (w : Nat) (mk : VcvtXOp → Instr) : Decoded :=
  need (fld w 13 4 == 0 && fld w 9 2 == 0 && fld w 0 1 == 0) .nonZeroField <|
  need (fld w 11 2 == 0) .badImmediate <|
  .ok (mk { vd := vf w 21, va := vf w 17, p := pf w 6, wa := bf w 1 })

/-- The fields of VbcastOp (R67, R70). -/
def getVbcastOp (w : Nat) (mk : VbcastOp → Instr) : Decoded :=
  need (fld w 12 4 == 0 && fld w 1 1 == 0) .nonZeroField <|
  .ok (mk { v := vf w 21, x := xf w 16, p := pf w 9, wb := bf w 0 })

/-- The fields of VextOp (R67, R70). -/
def getVextOp (w : Nat) (mk : VextOp → Instr) : Decoded :=
  need (fld w 9 3 == 0 && fld w 0 1 == 0) .nonZeroField <|
  .ok (mk { v := vf w 21, x := xf w 16, w := BitVec.ofNat 4 (fld w 12 4), wa := bf w 1 })

/-- The fields of VinsOp (R67, R70). -/
def getVinsOp (w : Nat) (mk : VinsOp → Instr) : Decoded :=
  need (fld w 9 3 == 0 && fld w 1 1 == 0) .nonZeroField <|
  .ok (mk { v := vf w 21, x := xf w 16, w := BitVec.ofNat 4 (fld w 12 4), wb := bf w 0 })

/-- The fields of VredOp (R67, R70). -/
def getVredOp (w : Nat) (mk : VredOp → Instr) : Decoded :=
  need (fld w 12 4 == 0 && fld w 0 1 == 0) .nonZeroField <|
  .ok (mk { v := vf w 21, x := xf w 16, p := pf w 9, wa := bf w 1 })

/-- The fields of VpcntOp (R67, R70). -/
def getVpcntOp (w : Nat) (mk : VpcntOp → Instr) : Decoded :=
  need (fld w 21 4 == 0 && fld w 12 4 == 0 && fld w 1 1 == 0 && fld w 0 1 == 0) .nonZeroField <|
  .ok (mk { x := xf w 16, p := pf w 9 })

/-- The fields of MmaOp (R67, R70). -/
def getMmaOp (w : Nat) (lit : Word32) (mk : MmaOp → Instr) : Decoded :=
  need (fld w 10 5 == 0 && fld w 5 4 == 0 && fld w 0 1 == 0) .nonZeroField <|
  .ok (mk { tileHi := bf w 9, tileLo := BitVec.ofNat 5 (fld w 20 5), a := xf w 15, wa := bf w 1, lit := lit })

/-- The fields of AccOp (R67, R70). -/
def getAccOp (w : Nat) (mk : AccOp → Instr) : Decoded :=
  need (fld w 5 4 == 0) .nonZeroField <|
  .ok (mk { tileHi := bf w 9, tileLo := BitVec.ofNat 5 (fld w 20 5), a := xf w 15, b := xf w 10, wa := bf w 1, wb := bf w 0 })

/-- The fields of AccZOp (R67, R70). -/
def getAccZOp (w : Nat) (mk : AccZOp → Instr) : Decoded :=
  need (fld w 15 5 == 0 && fld w 10 5 == 0 && fld w 5 4 == 0 && fld w 1 1 == 0 && fld w 0 1 == 0) .nonZeroField <|
  .ok (mk { tileHi := bf w 9, tileLo := BitVec.ofNat 5 (fld w 20 5) })

/-- The fields of MmresOp (R67, R70). -/
def getMmresOp (w : Nat) (mk : MmresOp → Instr) : Decoded :=
  need (fld w 10 5 == 0 && fld w 5 4 == 0 && fld w 0 1 == 0) .nonZeroField <|
  .ok (mk { tileHi := bf w 9, tileLo := BitVec.ofNat 5 (fld w 20 5), a := xf w 15, wa := bf w 1 })

/-- The fields of MmwaitOp (R67, R70). -/
def getMmwaitOp (w : Nat) (mk : MmwaitOp → Instr) : Decoded :=
  need (fld w 20 5 == 0 && fld w 15 5 == 0 && fld w 10 5 == 0 && fld w 5 4 == 0 && fld w 9 1 == 0 && fld w 1 1 == 0 && fld w 0 1 == 0) .nonZeroField <|
  .ok (mk {})

/-- The fields of VgemvOp (R67, R70). -/
def getVgemvOp (w : Nat) (lit : Word32) (mk : VgemvOp → Instr) : Decoded :=
  need (fld w 20 5 == 0 && fld w 10 5 == 0 && fld w 0 1 == 0) .nonZeroField <|
  .ok (mk { a := xf w 15, wa := bf w 1, lit := lit })

/-- The fields of ScfgOp (R67, R70). -/
def getScfgOp (w : Nat) (mk : ScfgOp → Instr) : Decoded :=
  need (fld w 22 3 == 0 && fld w 10 5 == 0 && fld w 0 1 == 0) .nonZeroField <|
  .ok (mk { s := BitVec.ofNat 2 (fld w 20 2), a := xf w 15, wa := bf w 1 })

/-- The fields of StrmOp (R67, R70). -/
def getStrmOp (w : Nat) (mk : StrmOp → Instr) : Decoded :=
  need (fld w 22 3 == 0 && fld w 15 5 == 0 && fld w 10 5 == 0 && fld w 1 1 == 0 && fld w 0 1 == 0) .nonZeroField <|
  .ok (mk { s := BitVec.ofNat 2 (fld w 20 2) })

/-- The fields of SpawnOp (R67, R70). -/
def getSpawnOp (w : Nat) (mk : SpawnOp → Instr) : Decoded :=
  need (fld w 20 5 == 0 && fld w 5 4 == 0) .nonZeroField <|
  .ok (mk { rel := bf w 9, a := xf w 15, b := xf w 10, wa := bf w 1, wb := bf w 0 })

/-- The fields of Send1Op (R67, R70). -/
def getSend1Op (w : Nat) (mk : Send1Op → Instr) : Decoded :=
  need (fld w 20 5 == 0 && fld w 10 5 == 0 && fld w 5 4 == 0 && fld w 0 1 == 0) .nonZeroField <|
  .ok (mk { rel := bf w 9, a := xf w 15, wa := bf w 1 })

/-- The fields of CallatOp (R67, R70). -/
def getCallatOp (w : Nat) (mk : CallatOp → Instr) : Decoded :=
  need (fld w 5 4 == 0) .nonZeroField <|
  .ok (mk { rel := bf w 9, d := xf w 20, a := xf w 15, b := xf w 10, wa := bf w 1, wb := bf w 0 })

/-- The fields of ReplyOp (R67, R70). -/
def getReplyOp (w : Nat) (mk : ReplyOp → Instr) : Decoded :=
  need (fld w 20 5 == 0 && fld w 9 1 == 0 && fld w 5 4 == 0) .nonZeroField <|
  .ok (mk { a := xf w 15, b := xf w 10, wa := bf w 1, wb := bf w 0 })

/-- The fields of TaskEndOp (R67, R70). -/
def getTaskEndOp (w : Nat) (mk : TaskEndOp → Instr) : Decoded :=
  need (fld w 20 5 == 0 && fld w 15 5 == 0 && fld w 10 5 == 0 && fld w 9 1 == 0 && fld w 5 4 == 0 && fld w 1 1 == 0 && fld w 0 1 == 0) .nonZeroField <|
  .ok (mk {})

/-- The fields of TsetvOp (R67, R70). -/
def getTsetvOp (w : Nat) (mk : TsetvOp → Instr) : Decoded :=
  need (fld w 20 5 == 0) .nonZeroField <|
  need (fld w 14 1 == 0) .badRegister <|
  .ok (mk { a := xf w 15, vb := vf w 10, wa := bf w 1, wb := bf w 0 })

/-- The fields of TsetxOp (R67, R70). -/
def getTsetxOp (w : Nat) (mk : TsetxOp → Instr) : Decoded :=
  need (fld w 14 1 == 0) .badRegister <|
  .ok (mk { d := xf w 20, a := xf w 15, vb := vf w 10, wa := bf w 1, wb := bf w 0 })

/-- The fields of TrapOp (R67, R70). -/
def getTrapOp (w : Nat) (mk : TrapOp → Instr) : Decoded :=
  need (fld w 20 5 == 0 && fld w 1 1 == 0 && fld w 0 1 == 0) .nonZeroField <|
  .ok (mk { imm := BitVec.ofNat 10 (fld w 10 10) })

/-- The fields of CrrOp (R67, R70). -/
def getCrrOp (w : Nat) (mk : CrrOp → Instr) : Decoded :=
  need (fld w 15 5 == 0 && fld w 1 1 == 0 && fld w 0 1 == 0) .nonZeroField <|
  .ok (mk { d := xf w 20, n := BitVec.ofNat 13 (fld w 2 13) })

/-- The fields of CrwOp (R67, R70). -/
def getCrwOp (w : Nat) (mk : CrwOp → Instr) : Decoded :=
  need (fld w 20 5 == 0 && fld w 0 1 == 0) .nonZeroField <|
  .ok (mk { a := xf w 15, n := BitVec.ofNat 13 (fld w 2 13), wa := bf w 1 })

/-- Major 0x01: the func value picks the operation (R75). -/
def decodeMajor01 (w : Nat) : Decoded :=
  match fld w 2 8 with
  | 0x00 => getR3 w .add
  | 0x01 => getR3 w .sub
  | 0x02 => getR3 w .mul
  | 0x03 => getR3 w .mulh
  | 0x04 => getR3 w .mulhz
  | 0x05 => getR3 w .div
  | 0x06 => getR3 w .divz
  | 0x07 => getR3 w .rem
  | 0x08 => getR3 w .remz
  | 0x09 => getR3 w .and_
  | 0x0A => getR3 w .or_
  | 0x0B => getR3 w .xor_
  | 0x0C => getR3 w .andn
  | 0x0D => getR3 w .orn
  | 0x0E => getR3 w .shl
  | 0x0F => getR3 w .shr
  | 0x10 => getR3 w .sra
  | 0x11 => getR3 w .rotl
  | 0x12 => getR3 w .rotr
  | 0x13 => getR3 w .min_
  | 0x14 => getR3 w .max_
  | 0x15 => getR3 w .minz
  | 0x16 => getR3 w .maxz
  | 0x17 => getR3 w .seq
  | 0x18 => getR3 w .sne
  | 0x19 => getR3 w .slt
  | 0x1A => getR3 w .sltz
  | 0x1B => getR3 w .sle
  | 0x1C => getR3 w .slez
  | 0x1D => getR2 w .clz
  | 0x1E => getR2 w .ctz
  | 0x1F => getR2 w .popc
  | 0x20 => getR2 w .bswap
  | 0x21 => getR3 w .addw
  | 0x22 => getR3 w .subw
  | 0x23 => getR3 w .mulw
  | _ => .error .unlistedFunc

/-- Major 0x1A: the func value picks the operation (R75). -/
def decodeMajor1A (w : Nat) : Decoded :=
  match fld w 2 8 with
  | 0x00 => getR3 w .csel
  | _ => .error .unlistedFunc

/-- Major 0x34: the func value picks the operation (R75). -/
def decodeMajor34 (w : Nat) : Decoded :=
  match fld w 6 4 with
  | 0x00 => getAmoOp w .amoadd
  | 0x01 => getAmoOp w .amoand
  | 0x02 => getAmoOp w .amoor
  | 0x03 => getAmoOp w .amoxor
  | 0x04 => getAmoOp w .amomin
  | 0x05 => getAmoOp w .amomax
  | 0x06 => getAmoOp w .amominz
  | 0x07 => getAmoOp w .amomaxz
  | 0x08 => getAmoOp w .amoswap
  | 0x09 => getAmoOp w .amocas
  | 0x0A => getAmoOp w .amofadd
  | 0x0B => getAmoOp w .amofmin
  | 0x0C => getAmoOp w .amofmax
  | _ => .error .unlistedFunc

/-- Major 0x35: the func value picks the operation (R75). -/
def decodeMajor35 (w : Nat) : Decoded :=
  match fld w 6 4 with
  | 0x00 => getRedOp w .redadd
  | 0x01 => getRedOp w .redand
  | 0x02 => getRedOp w .redor
  | 0x03 => getRedOp w .redxor
  | 0x04 => getRedOp w .redmin
  | 0x05 => getRedOp w .redmax
  | 0x06 => getRedOp w .redminz
  | 0x07 => getRedOp w .redmaxz
  | 0x08 => getRedOp w .redfadd
  | 0x09 => getRedOp w .redfmin
  | 0x0A => getRedOp w .redfmax
  | _ => .error .unlistedFunc

/-- Major 0x36: the func value picks the operation (R75). -/
def decodeMajor36 (w : Nat) : Decoded :=
  match fld w 2 8 with
  | 0x00 => getR2 w .joinc
  | _ => .error .unlistedFunc

/-- Major 0x37: the func value picks the operation (R75). -/
def decodeMajor37 (w : Nat) : Decoded :=
  match fld w 8 2 with
  | 0x00 => getFenceOp w .fenceAcq
  | 0x01 => getFenceOp w .fenceRel
  | 0x02 => getFenceOp w .fenceFull
  | 0x03 => getVfenceOp w .vfence
  | _ => .error .unlistedFunc

/-- Major 0x38: the func value picks the operation (R75). -/
def decodeMajor38 (w : Nat) : Decoded :=
  match fld w 2 8 with
  | 0x00 => getRAB w .cbinit
  | 0x01 => getRA w .cbarrive
  | 0x02 => getRAB w .cbexpect
  | 0x03 => getRAB w .cbwait
  | 0x04 => getR3 w .cbtwait
  | 0x05 => getR3 w .cbtest
  | _ => .error .unlistedFunc

/-- Major 0x39: the func value picks the operation (R75). -/
def decodeMajor39 (w : Nat) : Decoded :=
  match fld w 2 8 with
  | 0x00 => getRAB w .wbjoin
  | 0x01 => getRA w .wbleave
  | 0x02 => getR3 w .wbarrive
  | 0x03 => getRAB w .wbwait
  | 0x04 => getR3 w .wbtwait
  | 0x05 => getR3 w .wbget
  | 0x06 => getRAB w .ctrg
  | _ => .error .unlistedFunc

/-- Major 0x3A: the func value picks the operation (R75). -/
def decodeMajor3A (w : Nat) : Decoded :=
  match fld w 2 3 with
  | 0x00 => getNbinitOp w .nbinit
  | 0x01 => getPostvOp w .postv
  | 0x02 => getNbreadOp w .nbread
  | 0x03 => getVtestOp w .vtest
  | 0x04 => getVcountOp w .vcount
  | _ => .error .unlistedFunc

/-- Major 0x40: the func value picks the operation (R75). -/
def decodeMajor40 (w : Nat) : Decoded :=
  match fld w 2 4 with
  | 0x00 => getV2 w .vadd
  | 0x01 => getV2 w .vsub
  | 0x02 => getV2 w .vmul
  | 0x03 => getV3 w .vfma
  | 0x04 => getV3 w .vfms
  | 0x05 => getV2 w .vmin
  | 0x06 => getV2 w .vmax
  | 0x07 => getV1 w .vabs
  | 0x08 => getV1 w .vneg
  | 0x09 => getV2 w .vdiv
  | 0x0A => getV1 w .vsqrt
  | 0x0B => getV1 w .vexp2
  | 0x0C => getV1 w .vlog2
  | 0x0D => getV1 w .vfloor
  | _ => .error .unlistedFunc

/-- Major 0x41: the func value picks the operation (R75). -/
def decodeMajor41 (w : Nat) : Decoded :=
  match fld w 2 4 with
  | 0x00 => getV2 w .dadd
  | 0x01 => getV2 w .dsub
  | 0x02 => getV2 w .dmul
  | 0x03 => getV3 w .dfma
  | 0x04 => getV2 w .dmin
  | 0x05 => getV2 w .dmax
  | 0x06 => getV2 w .ddiv
  | 0x07 => getV1 w .dsqrt
  | 0x08 => getV1 w .dln
  | 0x09 => getV1 w .dexp
  | _ => .error .unlistedFunc

/-- Major 0x42: the func value picks the operation (R75). -/
def decodeMajor42 (w : Nat) : Decoded :=
  match fld w 2 4 with
  | 0x00 => getV2 w .viadd
  | 0x01 => getV2 w .visub
  | 0x02 => getV2 w .vimul
  | 0x03 => getV2 w .viand
  | 0x04 => getV2 w .vior
  | 0x05 => getV2 w .vixor
  | 0x06 => getV2 w .vishl
  | 0x07 => getV2 w .vishr
  | 0x08 => getV2 w .visra
  | 0x09 => getV2 w .vimin
  | 0x0A => getV2 w .vimax
  | 0x0B => getV2 w .viminz
  | 0x0C => getV2 w .vimaxz
  | _ => .error .unlistedFunc

/-- Major 0x43: the func value picks the operation (R75). -/
def decodeMajor43 (w : Nat) : Decoded :=
  match fld w 2 4 with
  | 0x00 => getVcmpOp w .vfeq
  | 0x01 => getVcmpOp w .vflt
  | 0x02 => getVcmpOp w .vfle
  | 0x03 => getVcmpOp w .vfne
  | 0x04 => getVcmpOp w .vieq
  | 0x05 => getVcmpOp w .vilt
  | 0x06 => getVcmpOp w .vile
  | 0x07 => getVcmpOp w .viltz
  | _ => .error .unlistedFunc

/-- Major 0x44: the func value picks the operation (R75). -/
def decodeMajor44 (w : Nat) : Decoded :=
  match fld w 2 4 with
  | 0x00 => getV2 w .vsel
  | 0x01 => getV2 w .vperm
  | 0x02 => getVslideOp w .vslide
  | 0x03 => getV1 w .vmov
  | 0x04 => getV0 w .viota
  | _ => .error .unlistedFunc

/-- Major 0x45: the func value picks the operation (R75). -/
def decodeMajor45 (w : Nat) : Decoded :=
  match fld w 2 7 with
  | 0x00 => getVbcastOp w .vbcast
  | 0x01 => getVextOp w .vext
  | 0x02 => getVinsOp w .vins
  | 0x03 => getVredOp w .vsum
  | 0x04 => getVredOp w .vmaxr
  | 0x05 => getVredOp w .vminr
  | 0x06 => getVredOp w .visum
  | 0x07 => getVredOp w .vdsum
  | 0x08 => getVpcntOp w .vpcnt
  | _ => .error .unlistedFunc

/-- Major 0x46: the func value picks the operation (R75). -/
def decodeMajor46 (w : Nat) : Decoded :=
  match fld w 2 4 with
  | 0x00 => getVcvtOp w .vcvtE4m3F32
  | 0x01 => getVcvtOp w .vcvtE5m2F32
  | 0x02 => getVcvtOp w .vcvtBf16F32
  | 0x03 => getVcvtOp w .vcvtF16F32
  | 0x04 => getVcvtXOp w .vcvtF32E4m3
  | 0x05 => getVcvtXOp w .vcvtF32E5m2
  | 0x06 => getVcvtXOp w .vcvtF32Bf16
  | 0x07 => getVcvtXOp w .vcvtF32F16
  | 0x08 => getVcvtOp w .vcvtI32F32
  | 0x09 => getVcvtOp w .vcvtF32I32
  | 0x0A => getVcvtXOp w .vcvtF64F32
  | 0x0B => getVcvtOp w .vcvtF32F64
  | 0x0C => getVcvtOp w .vcvtI32F64
  | 0x0D => getVcvtXOp w .vcvtF64I32
  | 0x0E => getVcvtXOp w .vcvtI8I32
  | 0x0F => getVcvtXOp w .vcvtI32I8
  | _ => .error .unlistedFunc

/-- Major 0x47: the func value picks the operation (R75). -/
def decodeMajor47 (w : Nat) : Decoded :=
  match fld w 2 4 with
  | 0x00 => getV0 w .vrand
  | 0x01 => getV0 w .vunif
  | _ => .error .unlistedFunc

/-- Major 0x50: the func value picks the operation (R75). -/
def decodeMajor50 (w : Nat) (lit : Word32) : Decoded :=
  match fld w 2 3 with
  | 0x00 => getMmaOp w lit .mmaBf16
  | 0x01 => getMmaOp w lit .mmaE4m3
  | 0x02 => getMmaOp w lit .mmaE5m2
  | 0x03 => getMmaOp w lit .mmaXf8
  | _ => .error .unlistedFunc

/-- Major 0x51: the func value picks the operation (R75). -/
def decodeMajor51 (w : Nat) : Decoded :=
  match fld w 2 3 with
  | 0x00 => getAccOp w .accld
  | 0x01 => getAccOp w .accst
  | 0x02 => getAccZOp w .acczero
  | 0x03 => getMmresOp w .mmresume
  | 0x04 => getMmwaitOp w .mmwait
  | _ => .error .unlistedFunc

/-- Major 0x52: the func value picks the operation (R75). -/
def decodeMajor52 (w : Nat) (lit : Word32) : Decoded :=
  match fld w 2 8 with
  | 0x00 => getVgemvOp w lit .vgemv
  | 0x01 => getRAB w .vcodes
  | _ => .error .unlistedFunc

/-- Major 0x54: the func value picks the operation (R75). -/
def decodeMajor54 (w : Nat) : Decoded :=
  match fld w 2 8 with
  | 0x00 => getR2 w .copy
  | 0x01 => getR2 w .gather
  | 0x02 => getR2 w .scatter
  | 0x03 => getR2 w .mcast
  | 0x04 => getR2 w .ata
  | 0x05 => getRA w .castle
  | _ => .error .unlistedFunc

/-- Major 0x55: the func value picks the operation (R75). -/
def decodeMajor55 (w : Nat) : Decoded :=
  match fld w 2 8 with
  | 0x00 => getScfgOp w .scfg
  | 0x01 => getStrmOp w .sstop
  | 0x02 => getStrmOp w .sflush
  | _ => .error .unlistedFunc

/-- Major 0x58: the func value picks the operation (R75). -/
def decodeMajor58 (w : Nat) : Decoded :=
  match fld w 2 3 with
  | 0x00 => getSpawnOp w .spawn
  | 0x01 => getSend1Op w .spawnd
  | 0x02 => getSend1Op w .fork
  | 0x03 => getSpawnOp w .migrate
  | 0x04 => getCallatOp w .callat
  | 0x05 => getReplyOp w .reply
  | 0x06 => getTaskEndOp w .done
  | 0x07 => getTaskEndOp w .trigger
  | _ => .error .unlistedFunc

/-- Major 0x60: the func value picks the operation (R75). -/
noncomputable def decodeMajor60 (w : Nat) : Decoded :=
  match fld w 2 8 with
  | 0x00 => getRAB w .tcfg
  | 0x01 => getRAB w .tset
  | 0x02 => getTsetvOp w .tsetv
  | 0x03 => getTsetxOp w .tsetx
  | 0x04 => getR2 w .tget
  | 0x05 => getRD w .troot
  | 0x06 => getR0 w .tbuild
  | 0x07 => need (fld w 20 1 == 0 && fld w 20 5 != 0) .badImmediate (getRD w .tnext)
  | 0x08 => getRD w .tdraw
  | 0x09 => getR2 w .tdesc
  | 0x0A => getR3 w .tthr
  | 0x0B => getRA w .tcut
  | _ => .error .unlistedFunc

/-- Major 0x61: the func value picks the operation (R75). -/
noncomputable def decodeMajor61 (w : Nat) : Decoded :=
  match fld w 2 8 with
  | 0x00 => getRAB w .bsend
  | 0x01 => getR2 w .tmsg
  | 0x02 => getRA w .jundo
  | 0x03 => getRA w .jtrim
  | 0x04 => getR0 w .jmark
  | _ => .error .unlistedFunc

/-- Major 0x62: the func value picks the operation (R75). -/
noncomputable def decodeMajor62 (w : Nat) : Decoded :=
  match fld w 2 8 with
  | 0x00 => getRD w .rand
  | 0x01 => getRD w .unif
  | _ => .error .unlistedFunc

/-- Major 0x70: the func value picks the operation (R75). -/
noncomputable def decodeMajor70 (w : Nat) : Decoded :=
  match fld w 2 8 with
  | 0x00 => getR0 w .nop
  | 0x01 => getTrapOp w .trap
  | 0x02 => getTrapOp w .brk
  | 0x03 => getR0 w .rfe
  | 0x04 => getR0 w .yield
  | 0x05 => getR0 w .ifence
  | 0x06 => getR0 w .halt
  | 0x07 => getRAB w .fe
  | 0x08 => getRA w .tlbinv
  | 0x09 => getR2 w .tlbprobe
  | 0x0A => getRD w .time
  | 0x0B => getR2 w .ctrr
  | _ => .error .unlistedFunc

/-- An instruction from its first word and the word after it (R73, R74). -/
noncomputable def decodeNat (w : Nat) (lit : Word32) : Decoded :=
  match fld w 25 7 with
  | 0x01 => decodeMajor01 w
  | 0x02 => getIOp w .addi
  | 0x03 => getIOp w .andi
  | 0x04 => getIOp w .ori
  | 0x05 => getIOp w .xori
  | 0x06 => getShOp w .shli
  | 0x07 => getShOp w .shri
  | 0x08 => getShOp w .srai
  | 0x09 => getIOp w .slti
  | 0x0A => getIOp w .sltzi
  | 0x0B => getIOp w .muli
  | 0x0C => getBfxOp w .bfx
  | 0x0D => getBfiOp w .bfi
  | 0x0E => getUOp w .lui
  | 0x0F => getUOp w .auipc
  | 0x10 => getBOp w .beq
  | 0x11 => getBOp w .bne
  | 0x12 => getBOp w .blt
  | 0x13 => getBOp w .bge
  | 0x14 => getBOp w .bltz
  | 0x15 => getBOp w .bgez
  | 0x16 => getJOp w .jal
  | 0x17 => getIOp w .jalr
  | 0x18 => getLoopOp w .loop
  | 0x19 => getLixOp w lit .lix
  | 0x1A => decodeMajor1A w
  | 0x20 => getIOp w .ldb
  | 0x21 => getIOp w .ldzb
  | 0x22 => getIOp w .ldh
  | 0x23 => getIOp w .ldzh
  | 0x24 => getIOp w .ldw
  | 0x25 => getIOp w .ldzw
  | 0x26 => getIOp w .ldd
  | 0x27 => getAcqOp w .ldaw
  | 0x28 => getAcqOp w .ldad
  | 0x29 => getSOp w .stb
  | 0x2A => getSOp w .sth
  | 0x2B => getSOp w .stw
  | 0x2C => getSOp w .std
  | 0x2D => getRelOp w .strw
  | 0x2E => getRelOp w .strd
  | 0x2F => getSOp w .jst
  | 0x30 => getVldOp w .vld
  | 0x31 => getVstOp w .vst
  | 0x32 => getVxmOp w .vldx
  | 0x33 => getVxmOp w .vstx
  | 0x34 => decodeMajor34 w
  | 0x35 => decodeMajor35 w
  | 0x36 => decodeMajor36 w
  | 0x37 => decodeMajor37 w
  | 0x38 => decodeMajor38 w
  | 0x39 => decodeMajor39 w
  | 0x3A => decodeMajor3A w
  | 0x40 => decodeMajor40 w
  | 0x41 => decodeMajor41 w
  | 0x42 => decodeMajor42 w
  | 0x43 => decodeMajor43 w
  | 0x44 => decodeMajor44 w
  | 0x45 => decodeMajor45 w
  | 0x46 => decodeMajor46 w
  | 0x47 => decodeMajor47 w
  | 0x50 => decodeMajor50 w lit
  | 0x51 => decodeMajor51 w
  | 0x52 => decodeMajor52 w lit
  | 0x54 => decodeMajor54 w
  | 0x55 => decodeMajor55 w
  | 0x58 => decodeMajor58 w
  | 0x60 => decodeMajor60 w
  | 0x61 => decodeMajor61 w
  | 0x62 => decodeMajor62 w
  | 0x70 => decodeMajor70 w
  | 0x71 => getCrrOp w .crr
  | 0x72 => getCrwOp w .crw
  | 0x73 => getCrwOp w .crs
  | 0x74 => getCrwOp w .crc
  | _ => .error .reservedMajor

/-- The decoder: the word the program counter names, and the word at its address plus 4 (R73) (DEDUCED, log 5). -/
noncomputable def decode (w lit : Word32) : Decoded := decodeNat w.toNat lit

/-- Whether a first word takes a second word; every func of major 0x50 does, the unlisted ones among them, which are ILLEGAL only once both
words are there (R73; DESIGN CHOICE, log 58). -/
def twoWord (w : Word32) : Bool :=
  match fld w.toNat 25 7 with
  | 0x19 => true
  | 0x50 => true
  | 0x52 => fld w.toNat 2 8 == 0
  | _ => false

/-- The little-endian word of up to four bytes (R4). -/
def leWord : List Byte → Nat
  | [] => 0
  | b :: bs => b.toNat + 256 * leWord bs

/-- The decoder on bytes in memory order; bytes missing at the end count as zero. -/
noncomputable def decodeBytes (bs : List Byte) : Decoded :=
  decode (BitVec.ofNat 32 (leWord (bs.take 4))) (BitVec.ofNat 32 (leWord ((bs.drop 4).take 4)))

/-- The bytes of a number in memory order (R4). -/
def leBytes : Nat → Nat → List Byte
  | 0, _ => []
  | n + 1, v => BitVec.ofNat 8 v :: leBytes n (v / 256)

/-- What the decoder reads from an instruction whose bits, numbered from the first word's bit 0, are `w`. -/
noncomputable def decodeTableWord (nbits w : Nat) : Option Instr :=
  match decodeBytes (leBytes 8 (w % 2 ^ nbits)) with
  | .ok i => some i
  | .error _ => none

/-- The bit of a flag. -/
def bn (b : Bool) : Nat := if b then 1 else 0

/-- The operand bits of R3 (R67). -/
def putR3 (o : R3) : Nat := o.d.toNat * 1048576 + o.a.toNat * 32768 + o.b.toNat * 1024 + bn o.wa * 2 + bn o.wb * 1
/-- The operand bits of R2 (R67). -/
def putR2 (o : R2) : Nat := o.d.toNat * 1048576 + o.a.toNat * 32768 + bn o.wa * 2
/-- The operand bits of RAB (R67). -/
def putRAB (o : RAB) : Nat := o.a.toNat * 32768 + o.b.toNat * 1024 + bn o.wa * 2 + bn o.wb * 1
/-- The operand bits of RA (R67). -/
def putRA (o : RA) : Nat := o.a.toNat * 32768 + bn o.wa * 2
/-- The operand bits of RD (R67). -/
def putRD (o : RD) : Nat := o.d.toNat * 1048576
/-- The operand bits of R0 (R67). -/
def putR0 (_o : R0) : Nat := 0
/-- The operand bits of IOp (R67). -/
def putIOp (o : IOp) : Nat := o.d.toNat * 1048576 + o.a.toNat * 32768 + o.imm.toNat * 4 + bn o.wa * 2
/-- The operand bits of ShOp (R67). -/
def putShOp (o : ShOp) : Nat := o.d.toNat * 1048576 + o.a.toNat * 32768 + o.n.toNat * 4 + bn o.wa * 2
/-- The operand bits of BfxOp (R67). -/
def putBfxOp (o : BfxOp) : Nat := o.d.toNat * 1048576 + o.a.toNat * 32768 + o.pos.toNat * 512 + o.len1.toNat * 8 + bn o.s * 4 + bn o.wa * 2
/-- The operand bits of BfiOp (R67). -/
def putBfiOp (o : BfiOp) : Nat := o.d.toNat * 1048576 + o.a.toNat * 32768 + o.pos.toNat * 512 + o.len1.toNat * 8 + bn o.wa * 2
/-- The operand bits of UOp (R67). -/
def putUOp (o : UOp) : Nat := o.d.toNat * 1048576 + o.imm.toNat * 1
/-- The operand bits of BOp (R67). -/
def putBOp (o : BOp) : Nat := o.b.toNat * 1048576 + o.a.toNat * 32768 + o.off.toNat * 4 + bn o.wa * 2 + bn o.wb * 1
/-- The operand bits of JOp (R67). -/
def putJOp (o : JOp) : Nat := o.d.toNat * 1048576 + o.off.toNat * 1
/-- The operand bits of LoopOp (R67). -/
def putLoopOp (o : LoopOp) : Nat := o.a.toNat * 32768 + o.off.toNat * 4 + bn o.wa * 2
/-- The operand bits of LixOp (R67). -/
def putLixOp (o : LixOp) : Nat := o.d.toNat * 1048576
/-- The operand bits of AcqOp (R67). -/
def putAcqOp (o : AcqOp) : Nat := o.d.toNat * 1048576 + o.a.toNat * 32768 + o.scope.toNat * 4096 + o.off.toNat * 4 + bn o.wa * 2
/-- The operand bits of RelOp (R67). -/
def putRelOp (o : RelOp) : Nat := o.b.toNat * 1048576 + o.a.toNat * 32768 + o.scope.toNat * 4096 + o.off.toNat * 4 + bn o.wa * 2 + bn o.wb * 1
/-- The operand bits of SOp (R67). -/
def putSOp (o : SOp) : Nat := o.b.toNat * 1048576 + o.a.toNat * 32768 + o.imm.toNat * 4 + bn o.wa * 2 + bn o.wb * 1
/-- The operand bits of VldOp (R67). -/
def putVldOp (o : VldOp) : Nat := o.v.toNat * 2097152 + o.a.toNat * 65536 + o.p.toNat * 8192 + o.imm.toNat * 4 + bn o.wa * 2
/-- The operand bits of VstOp (R67). -/
def putVstOp (o : VstOp) : Nat := o.v.toNat * 2097152 + o.a.toNat * 65536 + o.p.toNat * 8192 + o.imm.toNat * 4 + bn o.wa * 2 + bn o.wb * 1
/-- The operand bits of VxmOp (R67). -/
def putVxmOp (o : VxmOp) : Nat := o.v.toNat * 2097152 + o.x.toNat * 65536 + o.w.toNat * 4096 + o.p.toNat * 512 + o.scale.toNat * 4 + bn o.wa * 2 + bn o.wb * 1
/-- The operand bits of AmoOp (R67). -/
def putAmoOp (o : AmoOp) : Nat := o.d.toNat * 1048576 + o.a.toNat * 32768 + o.b.toNat * 1024 + bn o.size * 32 + o.order.toNat * 8 + bn o.wa * 2 + bn o.wb * 1
/-- The operand bits of RedOp (R67). -/
def putRedOp (o : RedOp) : Nat := o.a.toNat * 32768 + o.b.toNat * 1024 + bn o.size * 32 + bn o.wa * 2 + bn o.wb * 1
/-- The operand bits of FenceOp (R67). -/
def putFenceOp (o : FenceOp) : Nat := o.scope.toNat * 32
/-- The operand bits of VfenceOp (R67). -/
def putVfenceOp (_o : VfenceOp) : Nat := 0
/-- The operand bits of PostvOp (R67). -/
def putPostvOp (o : PostvOp) : Nat := o.d.toNat * 1048576 + o.a.toNat * 32768 + o.b.toNat * 1024 + bn o.m * 512 + bn o.wa * 2 + bn o.wb * 1
/-- The operand bits of NbinitOp (R67). -/
def putNbinitOp (o : NbinitOp) : Nat := o.a.toNat * 32768 + o.b.toNat * 1024 + bn o.wa * 2 + bn o.wb * 1
/-- The operand bits of NbreadOp (R67). -/
def putNbreadOp (o : NbreadOp) : Nat := o.a.toNat * 32768 + bn o.m * 512 + bn o.wa * 2
/-- The operand bits of VtestOp (R67). -/
def putVtestOp (o : VtestOp) : Nat := o.d.toNat * 1048576 + o.a.toNat * 32768 + bn o.m * 512 + bn o.wa * 2
/-- The operand bits of VcountOp (R67). -/
def putVcountOp (o : VcountOp) : Nat := o.d.toNat * 1048576 + bn o.m * 512
/-- The operand bits of V3 (R67). -/
def putV3 (o : V3) : Nat := o.vd.toNat * 2097152 + o.va.toNat * 131072 + o.vb.toNat * 8192 + o.vc.toNat * 512 + o.p.toNat * 64 + bn o.wa * 2 + bn o.wb * 1
/-- The operand bits of V2 (R67). -/
def putV2 (o : V2) : Nat := o.vd.toNat * 2097152 + o.va.toNat * 131072 + o.vb.toNat * 8192 + o.p.toNat * 64 + bn o.wa * 2 + bn o.wb * 1
/-- The operand bits of V1 (R67). -/
def putV1 (o : V1) : Nat := o.vd.toNat * 2097152 + o.va.toNat * 131072 + o.p.toNat * 64 + bn o.wa * 2
/-- The operand bits of V0 (R67). -/
def putV0 (o : V0) : Nat := o.vd.toNat * 2097152 + o.p.toNat * 64
/-- The operand bits of VcmpOp (R67). -/
def putVcmpOp (o : VcmpOp) : Nat := o.pd.toNat * 2097152 + o.va.toNat * 131072 + o.vb.toNat * 8192 + o.p.toNat * 64 + bn o.wa * 2 + bn o.wb * 1
/-- The operand bits of VslideOp (R67). -/
def putVslideOp (o : VslideOp) : Nat := o.vd.toNat * 2097152 + o.va.toNat * 131072 + o.vb.toNat * 8192 + o.n.toNat * 512 + o.p.toNat * 64 + bn o.wa * 2 + bn o.wb * 1
/-- The operand bits of VcvtOp (R67). -/
def putVcvtOp (o : VcvtOp) : Nat := o.vd.toNat * 2097152 + o.va.toNat * 131072 + o.rnd.toNat * 2048 + o.p.toNat * 64 + bn o.wa * 2
/-- The operand bits of VcvtXOp (R67). -/
def putVcvtXOp (o : VcvtXOp) : Nat := o.vd.toNat * 2097152 + o.va.toNat * 131072 + o.p.toNat * 64 + bn o.wa * 2
/-- The operand bits of VbcastOp (R67). -/
def putVbcastOp (o : VbcastOp) : Nat := o.v.toNat * 2097152 + o.x.toNat * 65536 + o.p.toNat * 512 + bn o.wb * 1
/-- The operand bits of VextOp (R67). -/
def putVextOp (o : VextOp) : Nat := o.v.toNat * 2097152 + o.x.toNat * 65536 + o.w.toNat * 4096 + bn o.wa * 2
/-- The operand bits of VinsOp (R67). -/
def putVinsOp (o : VinsOp) : Nat := o.v.toNat * 2097152 + o.x.toNat * 65536 + o.w.toNat * 4096 + bn o.wb * 1
/-- The operand bits of VredOp (R67). -/
def putVredOp (o : VredOp) : Nat := o.v.toNat * 2097152 + o.x.toNat * 65536 + o.p.toNat * 512 + bn o.wa * 2
/-- The operand bits of VpcntOp (R67). -/
def putVpcntOp (o : VpcntOp) : Nat := o.x.toNat * 65536 + o.p.toNat * 512
/-- The operand bits of MmaOp (R67). -/
def putMmaOp (o : MmaOp) : Nat := o.tileLo.toNat * 1048576 + o.a.toNat * 32768 + bn o.tileHi * 512 + bn o.wa * 2
/-- The operand bits of AccOp (R67). -/
def putAccOp (o : AccOp) : Nat := o.tileLo.toNat * 1048576 + o.a.toNat * 32768 + o.b.toNat * 1024 + bn o.tileHi * 512 + bn o.wa * 2 + bn o.wb * 1
/-- The operand bits of AccZOp (R67). -/
def putAccZOp (o : AccZOp) : Nat := o.tileLo.toNat * 1048576 + bn o.tileHi * 512
/-- The operand bits of MmresOp (R67). -/
def putMmresOp (o : MmresOp) : Nat := o.tileLo.toNat * 1048576 + o.a.toNat * 32768 + bn o.tileHi * 512 + bn o.wa * 2
/-- The operand bits of MmwaitOp (R67). -/
def putMmwaitOp (_o : MmwaitOp) : Nat := 0
/-- The operand bits of VgemvOp (R67). -/
def putVgemvOp (o : VgemvOp) : Nat := o.a.toNat * 32768 + bn o.wa * 2
/-- The operand bits of ScfgOp (R67). -/
def putScfgOp (o : ScfgOp) : Nat := o.s.toNat * 1048576 + o.a.toNat * 32768 + bn o.wa * 2
/-- The operand bits of StrmOp (R67). -/
def putStrmOp (o : StrmOp) : Nat := o.s.toNat * 1048576
/-- The operand bits of SpawnOp (R67). -/
def putSpawnOp (o : SpawnOp) : Nat := o.a.toNat * 32768 + o.b.toNat * 1024 + bn o.rel * 512 + bn o.wa * 2 + bn o.wb * 1
/-- The operand bits of Send1Op (R67). -/
def putSend1Op (o : Send1Op) : Nat := o.a.toNat * 32768 + bn o.rel * 512 + bn o.wa * 2
/-- The operand bits of CallatOp (R67). -/
def putCallatOp (o : CallatOp) : Nat := o.d.toNat * 1048576 + o.a.toNat * 32768 + o.b.toNat * 1024 + bn o.rel * 512 + bn o.wa * 2 + bn o.wb * 1
/-- The operand bits of ReplyOp (R67). -/
def putReplyOp (o : ReplyOp) : Nat := o.a.toNat * 32768 + o.b.toNat * 1024 + bn o.wa * 2 + bn o.wb * 1
/-- The operand bits of TaskEndOp (R67). -/
def putTaskEndOp (_o : TaskEndOp) : Nat := 0
/-- The operand bits of TsetvOp (R67). -/
def putTsetvOp (o : TsetvOp) : Nat := o.a.toNat * 32768 + o.vb.toNat * 1024 + bn o.wa * 2 + bn o.wb * 1
/-- The operand bits of TsetxOp (R67). -/
def putTsetxOp (o : TsetxOp) : Nat := o.d.toNat * 1048576 + o.a.toNat * 32768 + o.vb.toNat * 1024 + bn o.wa * 2 + bn o.wb * 1
/-- The operand bits of TrapOp (R67). -/
def putTrapOp (o : TrapOp) : Nat := o.imm.toNat * 1024
/-- The operand bits of CrrOp (R67). -/
def putCrrOp (o : CrrOp) : Nat := o.d.toNat * 1048576 + o.n.toNat * 4
/-- The operand bits of CrwOp (R67). -/
def putCrwOp (o : CrwOp) : Nat := o.a.toNat * 32768 + o.n.toNat * 4 + bn o.wa * 2

/-- One word. -/
def word1 (n : Nat) : List Word32 := [BitVec.ofNat 32 n]
/-- Two words (R73). -/
def word2 (n : Nat) (lit : Word32) : List Word32 := [BitVec.ofNat 32 n, lit]

/-- The words of an instruction, written from R67-R92; an event has no words. -/
def encode : Instr → List Word32
  | .add o => word1 (0x02000000 + putR3 o)
  | .sub o => word1 (0x02000004 + putR3 o)
  | .mul o => word1 (0x02000008 + putR3 o)
  | .mulh o => word1 (0x0200000C + putR3 o)
  | .mulhz o => word1 (0x02000010 + putR3 o)
  | .div o => word1 (0x02000014 + putR3 o)
  | .divz o => word1 (0x02000018 + putR3 o)
  | .rem o => word1 (0x0200001C + putR3 o)
  | .remz o => word1 (0x02000020 + putR3 o)
  | .and_ o => word1 (0x02000024 + putR3 o)
  | .or_ o => word1 (0x02000028 + putR3 o)
  | .xor_ o => word1 (0x0200002C + putR3 o)
  | .andn o => word1 (0x02000030 + putR3 o)
  | .orn o => word1 (0x02000034 + putR3 o)
  | .shl o => word1 (0x02000038 + putR3 o)
  | .shr o => word1 (0x0200003C + putR3 o)
  | .sra o => word1 (0x02000040 + putR3 o)
  | .rotl o => word1 (0x02000044 + putR3 o)
  | .rotr o => word1 (0x02000048 + putR3 o)
  | .min_ o => word1 (0x0200004C + putR3 o)
  | .max_ o => word1 (0x02000050 + putR3 o)
  | .minz o => word1 (0x02000054 + putR3 o)
  | .maxz o => word1 (0x02000058 + putR3 o)
  | .seq o => word1 (0x0200005C + putR3 o)
  | .sne o => word1 (0x02000060 + putR3 o)
  | .slt o => word1 (0x02000064 + putR3 o)
  | .sltz o => word1 (0x02000068 + putR3 o)
  | .sle o => word1 (0x0200006C + putR3 o)
  | .slez o => word1 (0x02000070 + putR3 o)
  | .clz o => word1 (0x02000074 + putR2 o)
  | .ctz o => word1 (0x02000078 + putR2 o)
  | .popc o => word1 (0x0200007C + putR2 o)
  | .bswap o => word1 (0x02000080 + putR2 o)
  | .addw o => word1 (0x02000084 + putR3 o)
  | .subw o => word1 (0x02000088 + putR3 o)
  | .mulw o => word1 (0x0200008C + putR3 o)
  | .addi o => word1 (0x04000000 + putIOp o)
  | .andi o => word1 (0x06000000 + putIOp o)
  | .ori o => word1 (0x08000000 + putIOp o)
  | .xori o => word1 (0x0A000000 + putIOp o)
  | .shli o => word1 (0x0C000000 + putShOp o)
  | .shri o => word1 (0x0E000000 + putShOp o)
  | .srai o => word1 (0x10000000 + putShOp o)
  | .slti o => word1 (0x12000000 + putIOp o)
  | .sltzi o => word1 (0x14000000 + putIOp o)
  | .muli o => word1 (0x16000000 + putIOp o)
  | .bfx o => word1 (0x18000000 + putBfxOp o)
  | .bfi o => word1 (0x1A000000 + putBfiOp o)
  | .lui o => word1 (0x1C000000 + putUOp o)
  | .auipc o => word1 (0x1E000000 + putUOp o)
  | .beq o => word1 (0x20000000 + putBOp o)
  | .bne o => word1 (0x22000000 + putBOp o)
  | .blt o => word1 (0x24000000 + putBOp o)
  | .bge o => word1 (0x26000000 + putBOp o)
  | .bltz o => word1 (0x28000000 + putBOp o)
  | .bgez o => word1 (0x2A000000 + putBOp o)
  | .jal o => word1 (0x2C000000 + putJOp o)
  | .jalr o => word1 (0x2E000000 + putIOp o)
  | .loop o => word1 (0x30000000 + putLoopOp o)
  | .lix o => word2 (0x32000000 + putLixOp o) o.lit
  | .csel o => word1 (0x34000000 + putR3 o)
  | .ldb o => word1 (0x40000000 + putIOp o)
  | .ldzb o => word1 (0x42000000 + putIOp o)
  | .ldh o => word1 (0x44000000 + putIOp o)
  | .ldzh o => word1 (0x46000000 + putIOp o)
  | .ldw o => word1 (0x48000000 + putIOp o)
  | .ldzw o => word1 (0x4A000000 + putIOp o)
  | .ldd o => word1 (0x4C000000 + putIOp o)
  | .ldaw o => word1 (0x4E000000 + putAcqOp o)
  | .ldad o => word1 (0x50000000 + putAcqOp o)
  | .stb o => word1 (0x52000000 + putSOp o)
  | .sth o => word1 (0x54000000 + putSOp o)
  | .stw o => word1 (0x56000000 + putSOp o)
  | .std o => word1 (0x58000000 + putSOp o)
  | .strw o => word1 (0x5A000000 + putRelOp o)
  | .strd o => word1 (0x5C000000 + putRelOp o)
  | .jst o => word1 (0x5E000000 + putSOp o)
  | .vld o => word1 (0x60000000 + putVldOp o)
  | .vst o => word1 (0x62000000 + putVstOp o)
  | .vldx o => word1 (0x64000000 + putVxmOp o)
  | .vstx o => word1 (0x66000000 + putVxmOp o)
  | .amoadd o => word1 (0x68000000 + putAmoOp o)
  | .amoand o => word1 (0x68000040 + putAmoOp o)
  | .amoor o => word1 (0x68000080 + putAmoOp o)
  | .amoxor o => word1 (0x680000C0 + putAmoOp o)
  | .amomin o => word1 (0x68000100 + putAmoOp o)
  | .amomax o => word1 (0x68000140 + putAmoOp o)
  | .amominz o => word1 (0x68000180 + putAmoOp o)
  | .amomaxz o => word1 (0x680001C0 + putAmoOp o)
  | .amoswap o => word1 (0x68000200 + putAmoOp o)
  | .amocas o => word1 (0x68000240 + putAmoOp o)
  | .amofadd o => word1 (0x68000280 + putAmoOp o)
  | .amofmin o => word1 (0x680002C0 + putAmoOp o)
  | .amofmax o => word1 (0x68000300 + putAmoOp o)
  | .redadd o => word1 (0x6A000000 + putRedOp o)
  | .redand o => word1 (0x6A000040 + putRedOp o)
  | .redor o => word1 (0x6A000080 + putRedOp o)
  | .redxor o => word1 (0x6A0000C0 + putRedOp o)
  | .redmin o => word1 (0x6A000100 + putRedOp o)
  | .redmax o => word1 (0x6A000140 + putRedOp o)
  | .redminz o => word1 (0x6A000180 + putRedOp o)
  | .redmaxz o => word1 (0x6A0001C0 + putRedOp o)
  | .redfadd o => word1 (0x6A000200 + putRedOp o)
  | .redfmin o => word1 (0x6A000240 + putRedOp o)
  | .redfmax o => word1 (0x6A000280 + putRedOp o)
  | .joinc o => word1 (0x6C000000 + putR2 o)
  | .fenceAcq o => word1 (0x6E000000 + putFenceOp o)
  | .fenceRel o => word1 (0x6E000100 + putFenceOp o)
  | .fenceFull o => word1 (0x6E000200 + putFenceOp o)
  | .vfence o => word1 (0x6E000300 + putVfenceOp o)
  | .cbinit o => word1 (0x70000000 + putRAB o)
  | .cbarrive o => word1 (0x70000004 + putRA o)
  | .cbexpect o => word1 (0x70000008 + putRAB o)
  | .cbwait o => word1 (0x7000000C + putRAB o)
  | .cbtwait o => word1 (0x70000010 + putR3 o)
  | .cbtest o => word1 (0x70000014 + putR3 o)
  | .wbjoin o => word1 (0x72000000 + putRAB o)
  | .wbleave o => word1 (0x72000004 + putRA o)
  | .wbarrive o => word1 (0x72000008 + putR3 o)
  | .wbwait o => word1 (0x7200000C + putRAB o)
  | .wbtwait o => word1 (0x72000010 + putR3 o)
  | .wbget o => word1 (0x72000014 + putR3 o)
  | .ctrg o => word1 (0x72000018 + putRAB o)
  | .nbinit o => word1 (0x74000000 + putNbinitOp o)
  | .postv o => word1 (0x74000004 + putPostvOp o)
  | .nbread o => word1 (0x74000008 + putNbreadOp o)
  | .vtest o => word1 (0x7400000C + putVtestOp o)
  | .vcount o => word1 (0x74000010 + putVcountOp o)
  | .vadd o => word1 (0x80000000 + putV2 o)
  | .vsub o => word1 (0x80000004 + putV2 o)
  | .vmul o => word1 (0x80000008 + putV2 o)
  | .vfma o => word1 (0x8000000C + putV3 o)
  | .vfms o => word1 (0x80000010 + putV3 o)
  | .vmin o => word1 (0x80000014 + putV2 o)
  | .vmax o => word1 (0x80000018 + putV2 o)
  | .vabs o => word1 (0x8000001C + putV1 o)
  | .vneg o => word1 (0x80000020 + putV1 o)
  | .vdiv o => word1 (0x80000024 + putV2 o)
  | .vsqrt o => word1 (0x80000028 + putV1 o)
  | .vexp2 o => word1 (0x8000002C + putV1 o)
  | .vlog2 o => word1 (0x80000030 + putV1 o)
  | .vfloor o => word1 (0x80000034 + putV1 o)
  | .dadd o => word1 (0x82000000 + putV2 o)
  | .dsub o => word1 (0x82000004 + putV2 o)
  | .dmul o => word1 (0x82000008 + putV2 o)
  | .dfma o => word1 (0x8200000C + putV3 o)
  | .dmin o => word1 (0x82000010 + putV2 o)
  | .dmax o => word1 (0x82000014 + putV2 o)
  | .ddiv o => word1 (0x82000018 + putV2 o)
  | .dsqrt o => word1 (0x8200001C + putV1 o)
  | .dln o => word1 (0x82000020 + putV1 o)
  | .dexp o => word1 (0x82000024 + putV1 o)
  | .viadd o => word1 (0x84000000 + putV2 o)
  | .visub o => word1 (0x84000004 + putV2 o)
  | .vimul o => word1 (0x84000008 + putV2 o)
  | .viand o => word1 (0x8400000C + putV2 o)
  | .vior o => word1 (0x84000010 + putV2 o)
  | .vixor o => word1 (0x84000014 + putV2 o)
  | .vishl o => word1 (0x84000018 + putV2 o)
  | .vishr o => word1 (0x8400001C + putV2 o)
  | .visra o => word1 (0x84000020 + putV2 o)
  | .vimin o => word1 (0x84000024 + putV2 o)
  | .vimax o => word1 (0x84000028 + putV2 o)
  | .viminz o => word1 (0x8400002C + putV2 o)
  | .vimaxz o => word1 (0x84000030 + putV2 o)
  | .vfeq o => word1 (0x86000000 + putVcmpOp o)
  | .vflt o => word1 (0x86000004 + putVcmpOp o)
  | .vfle o => word1 (0x86000008 + putVcmpOp o)
  | .vfne o => word1 (0x8600000C + putVcmpOp o)
  | .vieq o => word1 (0x86000010 + putVcmpOp o)
  | .vilt o => word1 (0x86000014 + putVcmpOp o)
  | .vile o => word1 (0x86000018 + putVcmpOp o)
  | .viltz o => word1 (0x8600001C + putVcmpOp o)
  | .vsel o => word1 (0x88000000 + putV2 o)
  | .vperm o => word1 (0x88000004 + putV2 o)
  | .vslide o => word1 (0x88000008 + putVslideOp o)
  | .vmov o => word1 (0x8800000C + putV1 o)
  | .viota o => word1 (0x88000010 + putV0 o)
  | .vbcast o => word1 (0x8A000000 + putVbcastOp o)
  | .vext o => word1 (0x8A000004 + putVextOp o)
  | .vins o => word1 (0x8A000008 + putVinsOp o)
  | .vsum o => word1 (0x8A00000C + putVredOp o)
  | .vmaxr o => word1 (0x8A000010 + putVredOp o)
  | .vminr o => word1 (0x8A000014 + putVredOp o)
  | .visum o => word1 (0x8A000018 + putVredOp o)
  | .vdsum o => word1 (0x8A00001C + putVredOp o)
  | .vpcnt o => word1 (0x8A000020 + putVpcntOp o)
  | .vcvtE4m3F32 o => word1 (0x8C000000 + putVcvtOp o)
  | .vcvtE5m2F32 o => word1 (0x8C000004 + putVcvtOp o)
  | .vcvtBf16F32 o => word1 (0x8C000008 + putVcvtOp o)
  | .vcvtF16F32 o => word1 (0x8C00000C + putVcvtOp o)
  | .vcvtF32E4m3 o => word1 (0x8C000010 + putVcvtXOp o)
  | .vcvtF32E5m2 o => word1 (0x8C000014 + putVcvtXOp o)
  | .vcvtF32Bf16 o => word1 (0x8C000018 + putVcvtXOp o)
  | .vcvtF32F16 o => word1 (0x8C00001C + putVcvtXOp o)
  | .vcvtI32F32 o => word1 (0x8C000020 + putVcvtOp o)
  | .vcvtF32I32 o => word1 (0x8C000024 + putVcvtOp o)
  | .vcvtF64F32 o => word1 (0x8C000028 + putVcvtXOp o)
  | .vcvtF32F64 o => word1 (0x8C00002C + putVcvtOp o)
  | .vcvtI32F64 o => word1 (0x8C000030 + putVcvtOp o)
  | .vcvtF64I32 o => word1 (0x8C000034 + putVcvtXOp o)
  | .vcvtI8I32 o => word1 (0x8C000038 + putVcvtXOp o)
  | .vcvtI32I8 o => word1 (0x8C00003C + putVcvtXOp o)
  | .vrand o => word1 (0x8E000000 + putV0 o)
  | .vunif o => word1 (0x8E000004 + putV0 o)
  | .mmaBf16 o => word2 (0xA0000000 + putMmaOp o) o.lit
  | .mmaE4m3 o => word2 (0xA0000004 + putMmaOp o) o.lit
  | .mmaE5m2 o => word2 (0xA0000008 + putMmaOp o) o.lit
  | .mmaXf8 o => word2 (0xA000000C + putMmaOp o) o.lit
  | .accld o => word1 (0xA2000000 + putAccOp o)
  | .accst o => word1 (0xA2000004 + putAccOp o)
  | .acczero o => word1 (0xA2000008 + putAccZOp o)
  | .mmresume o => word1 (0xA200000C + putMmresOp o)
  | .mmwait o => word1 (0xA2000010 + putMmwaitOp o)
  | .vgemv o => word2 (0xA4000000 + putVgemvOp o) o.lit
  | .vcodes o => word1 (0xA4000004 + putRAB o)
  | .copy o => word1 (0xA8000000 + putR2 o)
  | .gather o => word1 (0xA8000004 + putR2 o)
  | .scatter o => word1 (0xA8000008 + putR2 o)
  | .mcast o => word1 (0xA800000C + putR2 o)
  | .ata o => word1 (0xA8000010 + putR2 o)
  | .castle o => word1 (0xA8000014 + putRA o)
  | .scfg o => word1 (0xAA000000 + putScfgOp o)
  | .sstop o => word1 (0xAA000004 + putStrmOp o)
  | .sflush o => word1 (0xAA000008 + putStrmOp o)
  | .spawn o => word1 (0xB0000000 + putSpawnOp o)
  | .spawnd o => word1 (0xB0000004 + putSend1Op o)
  | .fork o => word1 (0xB0000008 + putSend1Op o)
  | .migrate o => word1 (0xB000000C + putSpawnOp o)
  | .callat o => word1 (0xB0000010 + putCallatOp o)
  | .reply o => word1 (0xB0000014 + putReplyOp o)
  | .done o => word1 (0xB0000018 + putTaskEndOp o)
  | .trigger o => word1 (0xB000001C + putTaskEndOp o)
  | .tcfg o => word1 (0xC0000000 + putRAB o)
  | .tset o => word1 (0xC0000004 + putRAB o)
  | .tsetv o => word1 (0xC0000008 + putTsetvOp o)
  | .tsetx o => word1 (0xC000000C + putTsetxOp o)
  | .tget o => word1 (0xC0000010 + putR2 o)
  | .troot o => word1 (0xC0000014 + putRD o)
  | .tbuild o => word1 (0xC0000018 + putR0 o)
  | .tnext o => word1 (0xC000001C + putRD o)
  | .tdraw o => word1 (0xC0000020 + putRD o)
  | .tdesc o => word1 (0xC0000024 + putR2 o)
  | .tthr o => word1 (0xC0000028 + putR3 o)
  | .tcut o => word1 (0xC000002C + putRA o)
  | .bsend o => word1 (0xC2000000 + putRAB o)
  | .tmsg o => word1 (0xC2000004 + putR2 o)
  | .jundo o => word1 (0xC2000008 + putRA o)
  | .jtrim o => word1 (0xC200000C + putRA o)
  | .jmark o => word1 (0xC2000010 + putR0 o)
  | .rand o => word1 (0xC4000000 + putRD o)
  | .unif o => word1 (0xC4000004 + putRD o)
  | .nop o => word1 (0xE0000000 + putR0 o)
  | .trap o => word1 (0xE0000004 + putTrapOp o)
  | .brk o => word1 (0xE0000008 + putTrapOp o)
  | .rfe o => word1 (0xE000000C + putR0 o)
  | .yield o => word1 (0xE0000010 + putR0 o)
  | .ifence o => word1 (0xE0000014 + putR0 o)
  | .halt o => word1 (0xE0000018 + putR0 o)
  | .fe o => word1 (0xE000001C + putRAB o)
  | .tlbinv o => word1 (0xE0000020 + putRA o)
  | .tlbprobe o => word1 (0xE0000024 + putR2 o)
  | .time o => word1 (0xE0000028 + putRD o)
  | .ctrr o => word1 (0xE000002C + putR2 o)
  | .crr o => word1 (0xE2000000 + putCrrOp o)
  | .crw o => word1 (0xE4000000 + putCrwOp o)
  | .crs o => word1 (0xE6000000 + putCrwOp o)
  | .crc o => word1 (0xE8000000 + putCrwOp o)
  | .asyncSupervisorCause _ => []
  | .copydone _ => []
  | .returningOperationComplete _ => []
  | .storeAcknowledgement _ => []
  | .homeAccess _ => []
  | .pageWalkComplete _ => []
  | .cbHomeOperation _ => []
  | .cbtwaitExpiry _ => []
  | .wbJoinAck _ => []
  | .wbPhaseCompletion _ => []
  | .wbtwaitExpiry _ => []
  | .boardPostAtHome _ => []
  | .boardViewReturn _ => []
  | .boardLevelAdvanceReport _ => []
  | .mergedReplySplit _ => []
  | .mcastAnchorSnapshot _ => []
  | .taskMessageArrival _ => []
  | .badhandlerReport _ => []
  | .taskDispatch _ => []
  | .messageResend _ => []
  | .spawnAcknowledgement _ => []
  | .replyArrival _ => []
  | .coxPlacement _ => []
  | .coxSteal _ => []
  | .matrixCommandStart _ => []
  | .matrixStep _ => []
  | .copyCommandStart _ => []
  | .copyRunDelivered _ => []
  | .vcodesArrival _ => []
  | .vgemvStart _ => []
  | .vgemvRow _ => []
  | .streamPrefetch _ => []
  | .treeCommandRun _ => []
  | .boundaryMessageArrival _ => []
  | .cancelArrival _ => []
  | .boundaryAckArrival _ => []
  | .sliceExpiry _ => []
  | .waitBudgetExpiry _ => []
  | .launchRecordAccept _ => []
  | .launchStart _ => []
  | .initialMessages _ => []
  | .launchTriggered _ => []
  | .launchCompletion _ => []
  | .replayNodeDispatch _ => []
  | .preemption _ => []
  | .coreSave _ => []
  | .saveImageArrival _ => []
  | .launchSavedReport _ => []
  | .failureReport _ => []
  | .launchResume _ => []
  | .tenancyMove => []
  | .clusterScrub _ => []
  | .patrolRead _ => []
  | .timebaseReference _ => []
  | .supplyDroop _ => []
  | .hostMemoryAccess _ => []
  | .ctlRun => []
  | .attgo => []
  | .mcastTableWrite _ => []
  | .mcastWriteDrained _ => []
  | .bar0RegisterWrite _ => []
  | .errorLogReport => []
  | .moduleReset => []
  | .dieAuthentication _ => []
  | .authenticationTimeout _ => []
  | .synelmFrameArrival _ => []
  | .peerIncarnationChange _ => []
  | .illegal _ => []
  | .enPassantMerge _ => []
  | .wbRootArrival _ => []
  | .railRecovery _ => []
  | .bootInitialisationComplete => []
  | .hostLinkTraining _ => []

end Sys2Proof
end

