-- ==== Sys2Proof/Config.lean ====
section
/-! DEFINITION. The values that the spec leaves open: constants without a body, of which nothing can be proved but that they
are the same for the same arguments. The first argument is the count of steps taken (State.tick), so that each use is fresh
(DESIGN CHOICE, log 4). -/

namespace Sys2Proof.Config

/-- How far activity counter 0, 3 or 4 has moved on when a step reads it (R122): the spec fixes no cycle count (DESIGN
CHOICE, log 4). -/
opaque cycleAdvance : Nat → Word
/-- How far the module reference time has moved on at a step (R121, R380; DESIGN CHOICE, log 4). -/
opaque timeAdvance : Nat → Nat
/-- How far a die timebase stands from the reference at a step, of the 64 units that R380 allows (DESIGN CHOICE, log 4). -/
opaque timeSkew : Nat → Nat
/-- Slice cycles used since the value was loaded (CR.SLICE, R332; DESIGN CHOICE, log 4). -/
opaque sliceUsed : Nat → Word32
/-- Wait-budget cycles used since the value was loaded (CR.WAITBUD, R333; DESIGN CHOICE, log 4). -/
opaque waitbudUsed : Nat → Word32
/-- A sample in cycles taken by a monitor, by the number of the sample in its step (R393; DESIGN CHOICE, log 4). -/
opaque sampleCycles : Nat → Nat → Word
/-- How many class-0 flits a message took, or bank accesses an event made, at most 64 (R290, R362, R393; DESIGN CHOICE, log 4). -/
opaque sampleCount : Nat → Nat
/-- The page-table root that the launcher reads a tenant's task graphs with: a replay record gives none (R314, R326; DESIGN CHOICE, log 19). -/
opaque graphRoot : BitVec 12 → Word
/-- A byte that the launcher reads at an address its tables do not map (R314, R320; DESIGN CHOICE, log 20). -/
opaque unmappedByte : Nat → Word → Byte
/-- The bytes of the core-state region of a save area, which only the launcher reads (R337; DESIGN CHOICE, log 12). -/
opaque coreStateByte : Nat → Nat → Byte
/-- What an undefined barrier, board, tree or inbox reads as, by the memory key read (R137, R145, R216, R230; DESIGN CHOICE, log 10). -/
opaque undefinedObject : Nat → Nat → Nat
/-- How much energy a die has drawn since its count last moved, in microjoules (DIESTAT, R383; DESIGN CHOICE, log 4). -/
opaque energyDrawn : Nat → Word
/-- The private identity key of the root, I/O die 0 (R387, R390; DESIGN CHOICE, log 13). -/
opaque rootSecret : Nat
/-- The number that the root draws for a signature (R387; DESIGN CHOICE, log 13). -/
opaque signNonce : Nat → Nat
/-- The public key of the Valtas device CA, which the root's ROM holds (R387; DESIGN CHOICE, log 13). -/
opaque caKey : Option (Nat × Nat)
/-- The public key that the root's own firmware is signed with (R386; DESIGN CHOICE, log 13). -/
opaque firmwareKey : Option (Nat × Nat)
/-- The root's nonce Nr of an authentication (R387; DESIGN CHOICE, log 13). -/
opaque rootNonce : Nat → BitVec 384
/-- What an attestation report holds as the measurement of a die that never sent one (R387, R390; DESIGN CHOICE, log 13). -/
opaque unknownMeasure : Nat → BitVec 384
/-- The root's certificate chain in DER (R390; DESIGN CHOICE, log 13). -/
opaque certificateChain : List Byte
/-- The number of the first phase of a wire barrier that no crew has used before (R140, R142; DESIGN CHOICE, log 17). -/
opaque firstPhase : Nat → Word
/-- The target of the local event of a `tnext` whose root is not a number above zero (R224; DESIGN CHOICE, log 55). -/
opaque noTarget : Nat → Nat
/-- Whether the tenancy controller asks for the resume of a saved launch on a leaving cluster (R344; DESIGN CHOICE, log 44). -/
opaque asksResume : Nat → Bool
/-- Whether this module's host has granted a peer the range of a request (R376; DESIGN CHOICE, log 14). -/
opaque peerGranted : Nat → Bool
/-- Whether a peer has changed its incarnation, or refuses, when an engine or a stream reads or writes it (R379; DESIGN CHOICE, log 45). -/
opaque peerFails : Nat → Bool
/-- Whether a peer that fails an access of an engine or a stream refuses it (R376; DESIGN CHOICE, log 45). -/
opaque peerRefuses : Nat → Bool

end Sys2Proof.Config
end

