-- ==== Sys2Proof/Machine/State.lean ====
section
/-! DEFINITION. The state of a Xokar module as plain data: what the spec gives the cores, their contexts and engines, the
vaults, the dies, the launcher, the host interface and the traffic in flight, and State.reset (the module at power-on). -/

namespace Sys2Proof.Machine

open Sys2Proof

/-- The reasons a step can stop with. There is none: every fault and trap of the spec is taken as a next state (R110, R111),
and every item a step can name exists, so the type has no constructor. Safe. -/
inductive Fault where
  deriving DecidableEq, Repr

/-- The reasons a step is refused. -/
inductive Refusal where
  /-- Raised only by an arm of `exec` for an instruction that has no meaning yet, named by its mnemonic. Safe: such an
  instruction has no next state at all. -/
  | notModelled (mnemonic : String)
  deriving DecidableEq, Repr

/-- The two modes of a context (R95). -/
inductive Mode where
  | user | supervisor
  deriving DecidableEq, Repr

/-- The states of a context slot (R15). A slot that is Waiting is Ready or Held here with a wait recorded; stopped is the
slot after a runtime failure or a halt (R97, R117, R338). -/
inductive SlotState where
  | free | ready | held | saved | stopped
  deriving DecidableEq, Repr

/-- What a Waiting slot waits for: WKIND, WOBJ and WPH of the stalemate snapshot (R340), and the register that a `wbtwait`
writes at its expiry (R143). -/
structure WaitRec where
  kind : Nat
  obj : Word
  ph : Word
  dest : Option XReg := none
  deriving DecidableEq, Repr

/-- Which engine holds a parked command for a fault (R170). -/
inductive Engine where
  | matrix | copy
  deriving DecidableEq, Repr

/-- A pending asynchronous supervisor cause (R112): CR.SCAUSE, CR.SVAL, and the engine whose parked command it belongs to. -/
structure AsyncCause where
  scause : BitVec 16
  val : Word
  engine : Option Engine
  deriving DecidableEq, Repr

/-- A context of a task: its slot and the slot's generation. -/
abbrev Party := SlotId × BitVec 16

/-- What happens before a point, as the model's own record of R250: the requests of a context below a number, and the writes that no
request makes, by number (log 60). -/
structure Clock where
  below : List (Party × Nat)
  writes : List Nat
  deriving DecidableEq, Repr

/-- The clock of a point that nothing happens before. -/
def Clock.zero : Clock := { below := [], writes := [] }

/-- A release side: the context that releases, its scope, and what happens before it (R247; log 60). -/
structure Side where
  by_ : Party
  scope : BitVec 3
  clk : Clock
  deriving DecidableEq, Repr

/-- A queued COPYDONE delivery, with what happens before its entry (R186, R257). -/
structure CopyDone where
  xfer : BitVec 16
  handler : Word
  clk : Clock := Clock.zero
  deriving DecidableEq, Repr

/-- A prefetched stream element, or the fault its address gave (R193, R194). -/
inductive StreamElem where
  | ok (v : VVal) (poison : Option Word)
  | fault (scause : BitVec 16) (val : Word)
  deriving DecidableEq, Repr

/-- The configuration and position of one stream (R193). `clk` is what happened before its `scfg` or last `sflush`, and `met` the release sides
that each prefetched element's read has met (R247, R259; log 60). -/
structure StreamCfg where
  base : Word
  c0 : Nat
  c1 : Nat
  c2 : Nat
  s1 : Int
  s2 : Int
  tbl : BitVec 3
  pos : Nat
  pre : List StreamElem
  clk : Clock := Clock.zero
  met : List (List Side) := []
  deriving DecidableEq, Repr

/-- The answer that a wire-barrier root has returned to a waiting `wbjoin` (R141). -/
structure JoinAnswer where
  bar : BitVec 4
  ok : Bool
  deriving DecidableEq, Repr

/-- A context slot: its state, its registers with their full/empty bits, its control registers, its streams (R15-R30). `clk`,
`fences`, `heard` and `castled` are the model's own, for the values that R251 allows a plain read: what happens before the task's next event by
the acquires that it has made, the release fences that it has passed, the release sides that its plain reads have met, and the engine writes
that its `castle` orders before its later writes (R189, R247; log 60). -/
structure Slot where
  st : SlotState
  mode : Mode
  pc : Off
  x : Vector Word 32
  v : Vector VVal 16
  p : Vector (BitVec 16) 8
  m : Vector (BitVec 256) 2
  xfull : BitVec 32
  vfull : BitVec 16
  gen : BitVec 16
  intrap : Bool
  sm : BitVec 4
  sd : BitVec 4
  cdq : List CopyDone
  prio : BitVec 2
  tvec : Off
  tepc : Off
  tcause : BitVec 8
  tval : Word
  xferid : BitVec 16
  cdlost : Word32
  spnlim : BitVec 8
  rmode : Bool
  axen : Word
  rctr : Word
  rsrc : Bool
  rtbase : Off
  rtlen : BitVec 16
  rtidx : BitVec 16
  sepc : Off
  scause : BitVec 16
  sval : Word
  sscratch : Word
  asyncs : List AsyncCause
  callp : BitVec 32
  callp0 : Nat
  spawns : Nat
  triggered : Bool
  wait : Option WaitRec
  joinAns : Option JoinAnswer
  streams : Vector StreamCfg 4
  issued : Word
  waited : Word
  age : Nat
  prefetched : List (Off × Word32)
  clk : Clock
  fences : List Side
  heard : List Side
  castled : Clock
  deriving DecidableEq, Repr

/-- How many events of counters 0 to 5 and 8 were produced (R56). -/
structure Events where
  nan : Nat
  ovf : Nat
  unf : Nat
  e4m3 : Nat
  e5m2 : Nat
  divz : Nat
  int8 : Nat
  deriving DecidableEq, Repr

/-- A command that carries its owner: slot, generation and the request count at its issue, and what happens before it (R168, R169, R257;
log 60). -/
structure Owner where
  slot : SlotNo
  gen : BitVec 16
  pc : Off
  after : Nat
  clk : Clock := Clock.zero
  deriving DecidableEq, Repr

/-- The formats of `mma` (R171). -/
inductive MmaFmt where
  | bf16 | e4m3 | e5m2 | xf8
  deriving DecidableEq, Repr

/-- The matrix-engine commands (R171, R175). -/
inductive MatOp where
  | mma (fmt : MmaFmt) (blk : Word)
  | accld (addr : Word) (stride : Word)
  | accst (addr : Word) (stride : Word)
  | acczero
  deriving DecidableEq, Repr

/-- The parameter block of an `mma` as read at its start (R171). -/
structure MmaBlock where
  aaddr : Word
  baddr : Word
  astr : Nat
  bstr : Nat
  k : Nat
  tbl : BitVec 3
  aoff : Nat
  boff : Nat
  deriving DecidableEq, Repr

/-- A matrix-engine command: its owner, the context whose stores its start waits for (that of the `mmresume` for one that
resumes), operation, tile, progress in k values or rows, the block read at its start and its code table, whether it resumes, so
that CLR is ignored, and the events it has produced (R108, R173, R174). -/
structure MatCmd where
  own : Owner
  gate : Owner
  op : MatOp
  tile : BitVec 6
  done : Nat
  resumed : Bool
  block : Option MmaBlock
  codes : Word
  taken : Bool
  ev : Events
  deriving DecidableEq, Repr

/-- The matrix engine of a core (R167, R174). -/
structure MatEngine where
  queue : List MatCmd
  run : Option MatCmd
  parked : Option MatCmd
  deriving DecidableEq, Repr

/-- The transfers (R181). -/
inductive XferKind where
  | copy | gather | scatter | mcast | ata
  deriving DecidableEq, Repr

/-- A transfer with what its block gave at the start: the bytes of the block, the arrival-task message and the COPYDONE handler,
its progress in elements, the shadow pairs of its core when it was issued (R29), the multicast snapshot of the message under
way with the step that took it (R182-R192, R369, R370), the address of an element that could not land (R188), and the cores that its bytes have
reached and that have had no arrival task yet (R182). -/
structure XferCmd where
  own : Owner
  kind : XferKind
  blk : Word
  xfer : BitVec 16
  block : List Byte
  msg : List Byte
  handler : Option Word
  prog : Nat
  started : Bool
  opMade : Bool
  shp : Vector Word 16
  snapshot : Option Word
  snapAt : Nat
  taken : Bool
  badDst : Option Word := none
  due : List CoreId := []
  deriving DecidableEq, Repr

/-- Bytes of a transfer bound for a place: the element that they are of, the memory key of the first, before shadow pairs redirect it, its
address, and the bytes (R183, R188). -/
structure RunPart where
  elem : Nat
  key : Nat
  addr : Word
  bytes : List Byte
  deriving DecidableEq, Repr

/-- A run that the copy engine has sent and that has not landed: its number, its transfer, how many elements it carries, its parts,
and the barriers that it counts on (R182, R257). -/
structure Flight where
  id : Nat
  x : XferCmd
  n : Nat
  parts : List RunPart
  bars : List Nat
  deriving DecidableEq, Repr

/-- The copy engine of a core, with the runs in flight and the transfers that have only runs in flight left (R167, R181, R187,
R257). -/
structure CopyEngine where
  queue : List XferCmd
  run : Option XferCmd
  parked : Option XferCmd
  count : BitVec 12
  flights : List Flight
  landing : List XferCmd
  deriving DecidableEq, Repr

/-- A `vgemv` command on its way or at a vault unit: issuing core, the block as read at issue, the physical address of every
64 KiB of W by number, translated at issue, whether a unit has read the block again at its start, and at the unit the loaded x, the
code table it reads, and the events it has produced (R108, R168, R178, R179). `wrote` numbers the writes that it has made (log 60). -/
structure GemvCmd where
  core : CoreId
  own : Owner
  blk : Word
  block : List Byte
  pages : List (Nat × Nat)
  prog : Nat
  prog0 : Nat
  started : Bool
  xbuf : List Word32
  codes : Word
  ev : Events
  wrote : List Nat := []
  deriving DecidableEq, Repr

/-- The entries of a vault channel (R167, R177). -/
inductive VaultCmd where
  | gemv (c : GemvCmd)
  | codes (own : Owner) (id : BitVec 3) (w : Word)
  deriving DecidableEq, Repr

/-- A matrix-vector unit of a vault (R177, R304). -/
structure VaultUnit where
  codes : Vector Word 8
  queue : List GemvCmd
  run : Option GemvCmd
  deriving DecidableEq, Repr

/-- The tree configuration a command took at its checks (R219). -/
structure TreeCfg where
  n : Nat
  node : Nat
  leaf : Nat
  deriving DecidableEq, Repr

/-- The queued commands of the tree unit; a `bsend` keeps the memory key of the inbox that CR.IBCTL named at its issue (R29, R218). -/
inductive TreeOp where
  | write (leaves : List (Nat × Word32))
  | build
  | get (leaf : Nat) (d : XReg)
  | root (d : XReg)
  | draw (d : XReg) (v : Word)
  | desc (d : XReg) (t : Word)
  | thr (d : XReg) (mass : Bool) (b : Word)
  | cut (t : Word32)
  | bsend (dst : CoreId) (rec : List Word) (nw : Nat) (ib : Nat)
  deriving DecidableEq, Repr

/-- A command in the tree unit's queue (R218). -/
structure TreeCmd where
  own : Owner
  cfg : TreeCfg
  op : TreeOp
  deriving DecidableEq, Repr

/-- A member core's own record of one arrival: phase, slot, value, and the `ctrg` record address (R142, R144). -/
structure WbArrival where
  phase : Nat
  slot : SlotNo
  val : Word
  dest : Option Word
  deriving DecidableEq, Repr

/-- The state that a member core keeps for a wire barrier, with the launch whose crew it is of (R140, R371). -/
structure WbMember where
  launch : Word32
  op : BitVec 2
  joined : BitVec 16
  next : Nat
  ctxNext : Vector Nat 16
  arrivals : List WbArrival
  lead : Nat
  done : Nat
  values : List (Nat × Word)
  recs : List (Nat × Word)
  deriving DecidableEq, Repr

/-- A line of the remote line buffer: its tag as a memory key, its bytes and the poison marks of its granules (R291). `at_` is how many writes
had been applied when it was fetched (log 60). -/
structure RlbLine where
  key : Nat
  bytes : List Byte
  poison : BitVec 8
  at_ : Nat := 0
  deriving DecidableEq, Repr

/-- A TLB entry: the first virtual address and size of its page and the leaf entry held (R298). -/
structure TlbEntry where
  va : Nat
  size : Nat
  leaf : Word
  deriving DecidableEq, Repr

/-- A task message or an arrival-queue entry: handler, flags, sender, caller generation and arguments (R197-R199). `clk` is what its send
orders before its start, which no byte of it holds (R248; log 60). -/
structure TaskEntry where
  handler : Off
  flags : Byte
  sender : CoreId
  cgen : BitVec 16
  args : Vector Word 8
  clk : Clock := Clock.zero
  deriving DecidableEq, Repr

/-- A task with the slot that sent it, for its acknowledgement and its BADHANDLER report (R134, R201, R205). -/
structure HeldTask where
  launch : Word32
  origin : CoreId
  slot : SlotNo
  gen : BitVec 16
  counted : Bool
  task : TaskEntry
  deriving DecidableEq, Repr

/-- A count barrier or notice board that `cbinit` or `nbinit` made in a core's local memory: its bytes, and whether a plain store has
left it undefined since (R137, R145, log 10). -/
structure SyncObj where
  off : Nat
  len : Nat
  spoiled : Bool
  deriving DecidableEq, Repr

/-- What a core's objects and queues keep a clock of (log 60): the present phase of a count barrier, its last completion, a board, the count
of a join object, by its offset; an entry of the arrival queue or of the spill area, by its number; and a block whose command has stopped on its
way. -/
inductive MarkKey where
  | phase (off : Nat)
  | completed (off : Nat)
  | board (off : Nat)
  | count (off : Nat)
  | queued (n : Nat)
  | spilled (n : Nat)
  | progress (off : Nat)
  deriving DecidableEq, Repr

/-- A core: its context slots, per-core control registers, engines, queues and buffers (R28, R32, R167, R218, R298). `saveSeq`
is the model's own: the number under which the bytes of its core-state region were written (R337, log 12). `objs` and `treeSpoiled`
are the model's own too: the objects and the tree that a plain store leaves undefined (R137, R145, R216, log 10); `base` is
what the launch's start orders before its tasks, and `marks` what happens before the events of objects and queue entries there (R248, R261;
log 60). -/
structure Core where
  id : CoreId
  slots : Vector Slot 16
  tenant : BitVec 12
  launch : Word32
  hbase : Off
  hlim : Off
  aqDepth : BitVec 16
  aqBase : Off
  aqHead : Nat
  aqTail : Nat
  spillptr : Word
  spillHead : Nat
  spillTail : Nat
  spillStopped : Bool
  seed : Word
  mmprog : Word
  ibBase : Off
  ibCap : Byte
  tcfg : BitVec 4
  tnode : Off
  tleaf : Off
  rclk : Word
  regid : Word32
  eseq : Word
  jbase : Off
  jptr : Off
  jlim : Off
  sentmin : Word
  jmode : Bool
  shp : Vector Word 16
  xcnt : Vector Word32 16
  monsel : Vector Word 4
  monmin : Vector Word 4
  monmax : Vector Word 4
  mbin : Vector Word32 64
  svec : Off
  ptroot : Word
  saveptr : Word
  slice : Word32
  waitbud : Word32
  acc : Vector (Vector Word32 64) 64
  mat : MatEngine
  copy : CopyEngine
  vch : List VaultCmd
  gemvs : List Owner
  codes : Vector Word 8
  tree : List TreeCmd
  forks : List HeldTask
  unacked : List (Nat × Word)
  cancels : Nat
  cancelMin : Word
  wb : Vector (Option WbMember) 16
  tlb : List TlbEntry
  rlb : List RlbLine
  rr : Vector (BitVec 4) 5
  coxFree : Bool
  halted : Bool
  saved : Bool
  saving : Bool
  saveSeq : Nat
  objs : List SyncObj
  treeSpoiled : Bool
  droop : Bool
  issued : Word
  cycles : Word
  idle : Word
  base : Clock
  marks : List (MarkKey × Clock)
  deriving DecidableEq, Repr

/-- A piece of an access: where its bytes lie (a memory key), and how many (R241). -/
structure Piece where
  key : Nat
  len : Nat
  deriving DecidableEq, Repr

/-- The widening of a window (R36), applied to the bytes of one element. -/
inductive Window where
  | raw | e4m3 | e5m2 | bf16 | fp16 | int8
  deriving DecidableEq, Repr

/-- One lane of a vector load: its number, its bytes and the address that a poisoned one reports (R124, R130, R131). -/
structure LaneRead where
  lane : BitVec 4
  piece : Piece
  ea : Word
  deriving DecidableEq, Repr

/-- How a request asks for a phase: it waits for its completion, or tests it for `cbtest`, or for a `cbtwait` whose limit is 0 (R139, R393). -/
inductive CbHow where
  | wait | test | poll
  deriving DecidableEq, Repr

/-- What a request asks of its home (R126-R149). A vector load into an output stream keeps the index stream that it pops when its element is
pushed (R25, R131). -/
inductive ReqOp where
  | load (p : Piece) (win : Window) (signed : Bool) (d : XReg)
  | vload (lanes : List LaneRead) (win : Window) (v : VReg) (push : Bool) (pops : List (Fin 4))
  | store (ps : List (Nat × List Byte)) (rel : Option (BitVec 3))
  | jst (key : Nat) (val : Word) (journal : Option (Off × Word × Word))
  | acq (p : Piece) (scope : BitVec 3) (d : XReg)
  | amo (p : Piece) (fn : AmoFn) (b : Word) (dOld : Word) (order : BitVec 2) (d : XReg)
  | red (p : Piece) (fn : AmoFn) (b : Word)
  | joinc (key : Nat) (d : XReg)
  | cbinit (key : Nat) (b : Word)
  | cbarrive (key : Nat)
  | cbexpect (key : Nat) (delta : Int)
  | cbwait (key : Nat) (phase : Bool) (d : Option XReg) (how : CbHow)
  | nbinit (key : Nat) (n : Nat)
  | postv (key : Nat) (slot : Nat) (b : Word) (d : XReg) (m : Bool) (wa : Bool)
  | nbread (key : Nat) (m : Bool)
  | rand (v : Option VReg) (d : XReg) (active : BitVec 16) (val : VVal) (ev : Events)
  deriving DecidableEq, Repr

/-- What the home, or the core before it, has answered (R124, R242). -/
inductive ReqRes where
  | none
  | word (w : Word) (poison : Bool)
  | lanes (ws : List (BitVec 4 × Word32)) (poison : Option Word)
  | fail (scause : BitVec 16)
  | view (refused : Bool) (level : Word) (mask : BitVec 256) (seq : Word)
  | badSlot
  deriving DecidableEq, Repr

/-- A request in flight: its number, its context and instruction, the address it names, and its stage (R242). A request with
`merged` set travels inside another one (R366). `peers` lists the modules whose replies have still to come (R378). `clk` is
what happens before it, `sides` the release fences before it, `got` what its acquire has learned, and `met` the release sides that a plain read
has met (log 60). -/
structure Req where
  id : Nat
  core : CoreId
  slot : SlotNo
  gen : BitVec 16
  pc : Off
  ea : Word
  op : ReqOp
  applied : Bool
  registered : Bool
  merged : Option Nat
  res : ReqRes
  fpEvents : BitVec 3
  peers : List (BitVec 16)
  clk : Clock
  sides : List Side
  got : Clock
  met : List Side
  deriving DecidableEq, Repr

/-- The units that write memory for a context (R241). -/
inductive UnitKind where
  | matrix | copy | vault
  deriving DecidableEq, Repr

/-- What made a write: a request of a context, by its number; a command of a unit for a context, the transfers of a copy engine by their
number; the host or a peer module; or the machine (R241; log 60). -/
inductive Maker where
  | ctx (p : Party) (req : Nat)
  | unit (u : UnitKind) (p : Party) (n : Nat)
  | host
  | peer
  | machine
  deriving DecidableEq, Repr

/-- A write that a home has applied, as later plain reads may still leave it out (R251): its number, the bytes it replaced, the granules whose
poison it cleared, what made it, what happens before it, the release sides that it carries, whether an `amo`, `red` or `joinc` made it, and the
contexts that have read it (R247, R253; log 60). -/
structure Past where
  num : Nat
  old : List (Nat × List Byte)
  cleared : List Nat
  by_ : Maker
  clk : Clock
  sides : List Side
  rmw : Bool
  readers : List Party
  deriving DecidableEq, Repr

/-- A pointer entry in the walk cache of a die: the CR.PTROOT that tags it, its level, the virtual address above that level's index,
the physical address of the entry, and the table that it points to (R298). -/
structure WalkEntry where
  root : Word
  level : Nat
  tag : Nat
  at_ : Nat
  next : Nat
  deriving DecidableEq, Repr

/-- A page walk in flight (R298). -/
structure Walk where
  id : Nat
  core : CoreId
  va : Nat
  deriving DecidableEq, Repr

/-- A return-split entry of a router (R367). -/
structure Split where
  id : Nat
  router : CoreId
  first : Nat
  second : Nat
  fn : AmoFn
  a1 : Word
  deriving DecidableEq, Repr

/-- A context waiting for a board to advance after a refused post (R147). -/
structure RefusedPost where
  id : Nat
  core : CoreId
  slot : SlotNo
  gen : BitVec 16
  board : Nat
  level : Word
  deriving DecidableEq, Repr

/-- Where a task message is bound: a core, or the cox of a die (R207, R208). -/
inductive TaskDest where
  | core (c : CoreId)
  | cox (d : Die)
  deriving DecidableEq, Repr

/-- A task message in flight (R201-R203); a refused one waits to be resent. -/
structure TaskMsg where
  id : Nat
  dst : TaskDest
  held : HeldTask
  initial : Option Nat
  refused : Bool
  deriving DecidableEq, Repr

/-- An acknowledgement for the spawn count of a slot (R205). -/
structure SpawnAck where
  id : Nat
  core : CoreId
  slot : SlotNo
  gen : BitVec 16
  deriving DecidableEq, Repr

/-- A BADHANDLER report on its way to the sending core (R201). -/
structure BadReport where
  id : Nat
  core : CoreId
  slot : SlotNo
  gen : BitVec 16
  launch : Word32
  sender : CoreId
  val : Word
  deriving DecidableEq, Repr

/-- A reply in flight, with what happens before it (R212, R248). -/
structure Reply where
  id : Nat
  token : Word
  val : Word
  launch : Word32
  sender : CoreId
  clk : Clock := Clock.zero
  deriving DecidableEq, Repr

/-- An event key of a region (R229). -/
structure Key where
  time : Word
  region : Word32
  seq : Word
  deriving DecidableEq, Repr

/-- A boundary message or cancel in flight (R231, R236). -/
structure BoundMsg where
  id : Nat
  src : CoreId
  dst : CoreId
  launch : Word32
  cancel : Bool
  key : Key
  nw : Nat
  payload : Vector Word 4
  refused : Bool
  deriving DecidableEq, Repr

/-- The acknowledgement of a boundary message or cancel, bound for its sender (R239). -/
structure BoundAck where
  id : Nat
  core : CoreId
  msg : Nat
  cancel : Bool
  deriving DecidableEq, Repr

/-- What travels to the root of a wire barrier (R141, R142). -/
inductive WbKind where
  | join (op : BitVec 2) (slot : SlotNo) (gen : BitVec 16) (pc : Off)
  | arrive (phase : Nat) (val : Word) (counters : List Nat) (ctrg : Bool)
  | leave
  deriving DecidableEq, Repr

/-- A message to a wire-barrier root (R371). -/
structure WbMsg where
  id : Nat
  core : CoreId
  tenant : BitVec 12
  launch : Word32
  bar : BitVec 4
  kind : WbKind
  deriving DecidableEq, Repr

/-- A join acknowledgement on its way to a core (R141). -/
structure WbJoinAck where
  id : Nat
  core : CoreId
  bar : BitVec 4
  slot : SlotNo
  gen : BitVec 16
  pc : Off
  ok : Bool
  op : BitVec 2
  first : Nat
  done : Nat
  values : List (Nat × Word)
  deriving DecidableEq, Repr

/-- A completion on its way to a member core of a launch (R142, R144). -/
structure WbDone where
  id : Nat
  core : CoreId
  launch : Word32
  bar : BitVec 4
  phase : Nat
  val : Word
  counters : List Nat
  deriving DecidableEq, Repr

/-- A member at a root, and the first phase it takes part in (R141). -/
structure WbRootMember where
  core : CoreId
  first : Nat
  deriving DecidableEq, Repr

/-- An arrival at a root (R142, R144). -/
structure WbRootArrival where
  core : CoreId
  phase : Nat
  val : Word
  counters : List Nat
  deriving DecidableEq, Repr

/-- The root of a wire barrier of a partition (R371). -/
structure WbRoot where
  tenant : BitVec 12
  bar : BitVec 4
  launch : Word32
  op : BitVec 2
  phase : Nat
  members : List WbRootMember
  arrivals : List WbRootArrival
  values : List (Nat × Word)
  deriving DecidableEq, Repr

/-- An error report on its way to the collector, with the die timebase at the report (R385). -/
structure ErrReport where
  kind : Byte
  core : CoreId
  launch : Word32
  time : Word
  word1 : Word
  word3 : Word
  deriving DecidableEq, Repr

/-- A failure or halt report on its way to the launcher (R97, R117, R342). A halt keeps the words of its report to the host, which is made
once what the core has issued is complete (R117, R385). -/
structure FailReport where
  id : Nat
  core : CoreId
  launch : Word32
  halt : Option (Word × Word)
  deriving DecidableEq, Repr

/-- A memory range that a launch declares (R314). -/
structure MemRange where
  base : Nat
  len : Nat
  deriving DecidableEq, Repr

/-- The fields of an accepted launch record (R314). -/
structure LaunchRec where
  id : Word32
  early : Bool
  note : Bool
  prio : BitVec 2
  spnlim : BitVec 8
  tenant : BitVec 12
  nclus : Nat
  image : Word
  isize : Nat
  zsize : Nat
  aqd : Nat
  ibc : Nat
  entry : Off
  tvec : Off
  hbase : Off
  hlim : Off
  slice : Word32
  waitbud : Word32
  seed : Word
  ptroot : Word
  save : Word
  spill : Word
  spcap : Word32
  levels : List (BitVec 3 × BitVec 3)
  shp : Vector Word 16
  init : Word
  ninit : Nat
  preds : Word
  reads : List MemRange
  writes : List MemRange
  deriving DecidableEq, Repr

/-- Why a launch was saved (R334, R340, R342). -/
inductive SaveReason where
  | slice | stalemate | leaving | failure
  deriving DecidableEq, Repr

/-- The stages of an accepted launch (R322-R342). -/
inductive Stage where
  | accepted | running | saving | saved | awaitHost
  deriving DecidableEq, Repr

/-- The parent replay of a graph node: the replay's position in acceptance order and the node number (R326, R327). -/
structure NodeOf where
  replay : Nat
  node : Nat
  deriving DecidableEq, Repr

/-- A launch that the launcher has accepted and that has not completed (R313-R342). A node of a replay is one from the replay's
acceptance on. `report` is the reason and core rank for which it is to be pre-empted (R332-R334, R342), `asked` that the
tenancy controller has asked for its resume (R344), `saved` the core state of its saved cores, whose region of the save areas
only the launcher reads (R337), and `refused` the boundary messages that its saved cores have still to send again (R231, R354). `base` is
what happens before its start, `pub` what happens before its contexts' triggers, `fin` before their ends, and `since` how many writes had been
applied when it started (R261; log 60). -/
structure Launch where
  num : Nat
  queue : BitVec 3
  record : LaunchRec
  node : Option NodeOf
  stage : Stage
  clusters : List (BitVec 10)
  initialSent : Bool
  triggered : Bool
  report : Option (SaveReason × Nat)
  resume : Bool
  asked : Bool
  saved : List Core
  refused : List BoundMsg
  deps : List Nat
  startTime : Option Word
  base : Clock := Clock.zero
  pub : Clock := Clock.zero
  fin : Clock := Clock.zero
  since : Nat := 0
  deriving DecidableEq, Repr

/-- A replay in progress: its position in acceptance order, the fields of its record, its node count, and the nodes completed and
triggered (R314, R327). -/
structure Replay where
  num : Nat
  queue : BitVec 3
  id : Word32
  early : Bool
  note : Bool
  prio : BitVec 2
  tenant : BitVec 12
  nnode : Nat
  completed : List Nat
  triggered : List Nat
  startTime : Option Word
  deriving DecidableEq, Repr

/-- The launcher in I/O die 0: accepted launches in acceptance order, replays, and the count of acceptances (R313). -/
structure Launcher where
  launches : List Launch
  replays : List Replay
  count : Nat
  nextQueue : BitVec 3
  savedOrder : List Nat
  deriving DecidableEq, Repr

/-- The tenancy of the module: the owners of clusters, and the cluster in a move, marked leaving, with its recipient (R343, R344). -/
structure Tenancy where
  owner : List (BitVec 10 × BitVec 12)
  moving : Option (BitVec 10 × BitVec 12)
  deriving DecidableEq, Repr

/-- The attestation report (R390): for each die its measurement and presence, the signature, and the chain. -/
structure AttReport where
  entries : List (BitVec 384 × Bool)
  sign : BitVec 768
  chain : List Byte
  deriving DecidableEq, Repr

/-- The outcomes of a die's authentication (R387, R388). -/
inductive AuthState where
  | ok | fenced
  deriving DecidableEq, Repr

/-- The control space of the host (R383), sparse tables keyed by their entry number. `mcastStale` lists the multicast entries whose
last write is not acknowledged, with the step of that write (R370). -/
structure Bar0 where
  modid : BitVec 16
  inc : Byte
  bootst : BitVec 3
  run : Bool
  diemap : BitVec 64
  iomap : Byte
  qbase : Word
  elbase : Word
  elctl : Word
  elidx : Word
  elhidx : Word
  ellost : Word
  attn : BitVec 384
  attgo : Bool
  attrep : Option AttReport
  tgt : List (BitVec 12 × BitVec 16)
  mcast : List (Nat × Word)
  mcastStale : List (Nat × Nat)
  vcmap : List (BitVec 12 × Byte)
  vcw : List (Nat × Byte)
  peerwin : List (Byte × BitVec 128)
  ecc : List (Die × Word)
  energy : List (Die × Word)
  deriving DecidableEq, Repr

/-- What a host link does: untrained, PCIe, or CXL (R381). -/
inductive LinkState where
  | untrained | pcie | cxl
  deriving DecidableEq, Repr

/-- The result of a host read: its bytes, or Unsupported Request (R381). -/
structure HostResult where
  linkB : Bool
  pa : BitVec 42
  data : Option (List Byte)
  deriving DecidableEq, Repr

/-- A Synelm frame that this module has sent, the scale-out port that carried it, and the core and the request of this module that it
serves, if any (R375, R378). -/
structure SentFrame where
  port : BitVec 5
  core : Option CoreId
  req : Option Nat
  frame : SynelmFrame
  deriving DecidableEq, Repr

/-- What the environment and the units do next: a cycle of a core's issue arbitration, and one in which a single slot can issue
(R330), a prefetch of up to `n` code words by a slot (R116), a write that the host or a peer module makes to memory of its own, a
copy engine's sending of its next run and the landing of one sent (R182, R257), what a read finds in the check bits of a granule of
memory or of a held line (R306, R307), the walk cache of a die emptied (R298), a plain load or the prefetch of a stream's element performed
without the writes that `skip` numbers from the newest on (R251, R259), or an event. -/
inductive Move where
  | cycle (c : CoreId)
  | issue (o : SlotId)
  | prefetch (o : SlotId) (n : Nat)
  | outside (k : Nat) (bs : List Byte)
  | send (c : CoreId)
  | land (c : CoreId) (id : Nat)
  | bitError (granule : Nat) (e : EccState)
  | lineError (c : CoreId) (line granule : Nat) (e : EccState)
  | dropWalks (d : Die)
  | stale (n : Nat) (skip : List Nat)
  | stalePrefetch (a : StreamArg) (skip : List Nat)
  | event (e : Instr)
  deriving DecidableEq, Repr

/-- The state of the module. `agenda`, `cur`, `focus`, `tick` and `nextId` are the model's own: what the units do next, the
context that acts, the core the default schedule visits, the steps taken, and the number of the next item in flight (DESIGN CHOICE, log 3).
`now` is the module reference time, and `times` what the timebase of each die has shown (R380). `past` lists the writes applied, the newest
first, `writes` counts them, `fulls` lists the full fences in the order of their completion, `wires` gives what happens before the completion of
each phase of a wire barrier of a partition, and `host` what happens before the host's last advance of a write index (R248, R249, R251, R261;
log 60). -/
structure State where
  cur : SlotId
  agenda : List Move
  focus : Nat
  tick : Nat
  nextId : Nat
  cores : List (CoreId × Core)
  units : List (VaultId × VaultUnit)
  cox : List (Die × List HeldTask)
  mem : List Host.Cell
  poison : List Nat
  past : List Past
  writes : Nat
  fulls : List Side
  wires : List ((BitVec 12 × BitVec 4 × Nat) × Clock)
  host : Clock
  now : Nat
  times : List (DieId × Nat)
  reqs : List Req
  walks : List Walk
  walkCache : List (Die × List WalkEntry)
  splits : List Split
  refused : List RefusedPost
  tmsgs : List TaskMsg
  sacks : List SpawnAck
  bads : List BadReport
  replies : List Reply
  bmsgs : List BoundMsg
  backs : List BoundAck
  wbmsgs : List WbMsg
  wbacks : List WbJoinAck
  wbdones : List WbDone
  wbroots : List WbRoot
  errors : List ErrReport
  fails : List FailReport
  launcher : Launcher
  tenancy : Tenancy
  bar0 : Bar0
  auth : List (DieId × AuthState × BitVec 384)
  linkA : LinkState
  linkB : LinkState
  hostReads : List HostResult
  msix : List Nat
  peerFrames : List SentFrame
  deriving DecidableEq, Repr

/-- A vector register of sixteen zero lanes. -/
def VVal.zero : VVal := Vector.replicate 16 0

/-- A stream that is not configured. -/
def StreamCfg.off : StreamCfg :=
  { base := 0, c0 := 0, c1 := 0, c2 := 0, s1 := 0, s2 := 0, tbl := 0, pos := 0, pre := [] }

/-- A slot after power-on or a scrub (R28, R310, R319): Free, registers zero and full; the registers that a launch or a task
start loads are zero (DESIGN CHOICE, log 2). -/
def Slot.reset : Slot :=
  { st := .free, mode := .user, pc := 0,
    x := Vector.replicate 32 0, v := Vector.replicate 16 VVal.zero, p := Vector.replicate 8 0, m := Vector.replicate 2 0,
    xfull := BitVec.allOnes 32, vfull := BitVec.allOnes 16,
    gen := 0, intrap := false, sm := 0, sd := 0, cdq := [], prio := 0, tvec := 0, tepc := 0, tcause := 0, tval := 0,
    xferid := 0, cdlost := 0, spnlim := 0, rmode := false, axen := 0, rctr := 0, rsrc := false, rtbase := 0, rtlen := 0,
    rtidx := 0, sepc := 0, scause := 0, sval := 0, sscratch := 0, asyncs := [], callp := 0, callp0 := 0, spawns := 0,
    triggered := false, wait := none, joinAns := none, streams := Vector.replicate 4 StreamCfg.off, issued := 0, waited := 0, age := 0,
    prefetched := [], clk := Clock.zero, fences := [], heard := [], castled := Clock.zero }

/-- The FP64 pattern of +∞ (R41). -/
def infBits : Word := 0x7FF0_0000_0000_0000

/-- A core after power-on or a scrub (R28, R310). -/
def Core.reset (id : CoreId) : Core :=
  { id := id, slots := Vector.replicate 16 Slot.reset, tenant := 0, launch := 0, hbase := 0, hlim := 0, aqDepth := 0,
    aqBase := 0, aqHead := 0, aqTail := 0, spillptr := 0, spillHead := 0, spillTail := 0, spillStopped := false, seed := 0,
    mmprog := 0, ibBase := 0, ibCap := 0, tcfg := 0, tnode := 0, tleaf := 0, rclk := 0, regid := 0, eseq := 0, jbase := 0,
    jptr := 0, jlim := 0, sentmin := infBits, jmode := false, shp := Vector.replicate 16 0, xcnt := Vector.replicate 16 0,
    monsel := Vector.replicate 4 0, monmin := Vector.replicate 4 (BitVec.allOnes 64), monmax := Vector.replicate 4 0,
    mbin := Vector.replicate 64 0, svec := 0, ptroot := 0, saveptr := 0, slice := 0, waitbud := 0,
    acc := Vector.replicate 64 (Vector.replicate 64 0), mat := { queue := [], run := none, parked := none },
    copy := { queue := [], run := none, parked := none, count := 0, flights := [], landing := [] }, vch := [], gemvs := [], codes := Vector.replicate 8 0,
    tree := [], forks := [], unacked := [], cancels := 0, cancelMin := infBits, wb := Vector.replicate 16 none, tlb := [],
    rlb := [], rr := Vector.replicate 5 15, coxFree := true, halted := false, saved := false, saving := false, saveSeq := 0,
    objs := [], treeSpoiled := false, droop := false, issued := 0, cycles := 0, idle := 0, base := Clock.zero, marks := [] }

/-- A vault unit after power-on or a scrub (R310). -/
def VaultUnit.reset : VaultUnit := { codes := Vector.replicate 8 0, queue := [], run := none }

/-- The control space after reset (R383). -/
def Bar0.reset : Bar0 :=
  { modid := 0, inc := 0, bootst := 0, run := false, diemap := 0, iomap := 0, qbase := 0, elbase := 0, elctl := 0, elidx := 0,
    elhidx := 0, ellost := 0, attn := 0, attgo := false, attrep := none, tgt := [], mcast := [], mcastStale := [], vcmap := [],
    vcw := [], peerwin := [], ecc := [], energy := [] }

/-- The module right after reset: BOOTST.STATE 0, every core as after a scrub, memory with nothing listed and nothing in
flight (R28, R310, R383, R386). -/
def State.reset : State :=
  { cur := { core := 0, slot := 0 }, agenda := [], focus := 0, tick := 0, nextId := 0, cores := [], units := [], cox := [],
    mem := [], poison := [], past := [], writes := 0, fulls := [], wires := [], host := Clock.zero, now := 0, times := [], reqs := [], walks := [], walkCache := [], splits := [], refused := [], tmsgs := [], sacks := [],
    bads := [], replies := [], bmsgs := [], backs := [], wbmsgs := [], wbacks := [], wbdones := [], wbroots := [],
    errors := [], fails := [], launcher := { launches := [], replays := [], count := 0, nextQueue := 0, savedOrder := [] },
    tenancy := { owner := [], moving := none }, bar0 := Bar0.reset, auth := [],
    linkA := .untrained, linkB := .untrained, hostReads := [], msix := [], peerFrames := [] }

end Sys2Proof.Machine
end

