-- ==== Sys2Proof/Machine/Memory.lean ====
section
/-! DEFINITION. Memory: one canonical list of (key, byte) cells for every home. A key below 2^48 is a physical address
(R293); the byte at offset o of core c's local memory has key 2^48 + c * 2^20 + o; the byte at physical address p of peer module m
has key 2^64 + m * 2^50 + p (R376). A byte that is not listed reads zero (DESIGN CHOICE, log 1).
Poison marks are kept per aligned 8-byte granule (R307). -/

namespace Sys2Proof.Machine

open Sys2Proof

/-- The key of a byte of a core's local memory. -/
def localKey (c : CoreId) (off : Nat) : Nat := 2 ^ 48 + c.toNat * 2 ^ 20 + off

/-- The key of a byte of a peer module (R376). -/
def peerKey (m : BitVec 16) (pa : Nat) : Nat := 2 ^ 64 + m.toNat * 2 ^ 50 + pa

/-- The module that a key of a peer's memory names. -/
def peerOf (k : Nat) : Option (BitVec 16) := if k < 2 ^ 64 then none else some (BitVec.ofNat 16 ((k - 2 ^ 64) / 2 ^ 50))

/-- The core whose local memory a key lies in. -/
def homeCore (k : Nat) : Option CoreId :=
  if k < 2 ^ 48 || 2 ^ 64 ≤ k then none else some (BitVec.ofNat 18 ((k - 2 ^ 48) / 2 ^ 20))

/-- The bytes of local memory (R2, R35). -/
def localSize : Nat := 0x60000

/-- The byte at a key. -/
def memRead : List Host.Cell → Nat → Byte
  | [], _ => 0
  | (a, b) :: m, k => if a = k then b else if k < a then 0 else memRead m k

/-- The memory with one byte written, in canonical form. -/
def memWrite : List Host.Cell → Nat → Byte → List Host.Cell
  | [], k, v => if v = 0 then [] else [(k, v)]
  | (a, b) :: m, k, v =>
    if k < a then (if v = 0 then (a, b) :: m else (k, v) :: (a, b) :: m)
    else if k = a then (if v = 0 then m else (k, v) :: m)
    else (a, b) :: memWrite m k v

/-- The canonical form: keys strictly rising from `lo`, no byte zero. -/
def memWfFrom : Nat → List Host.Cell → Bool
  | _, [] => true
  | lo, (a, b) :: m => decide (lo ≤ a) && b != 0 && memWfFrom (a + 1) m

/-- The canonical form of memory. -/
def memWf (m : List Host.Cell) : Bool := memWfFrom 0 m

/-- `n` bytes from a key, in address order. -/
def memReads (m : List Host.Cell) (k : Nat) : Nat → List Byte
  | 0 => []
  | n + 1 => memRead m k :: memReads m (k + 1) n

/-- The memory with bytes written from a key. -/
def memWrites (m : List Host.Cell) (k : Nat) : List Byte → List Host.Cell
  | [] => m
  | b :: bs => memWrites (memWrite m k b) (k + 1) bs

/-- The cells of a range of keys. -/
def memSlice (m : List Host.Cell) (k n : Nat) : List Host.Cell := m.filter fun c => k ≤ c.1 && c.1 < k + n

/-- Memory with a range replaced by another range moved there (the image, save and scrub moves of R310, R319, R337). -/
def memMove (m : List Host.Cell) (src dst n : Nat) : List Host.Cell :=
  (m.filter fun c => c.1 < dst) ++ ((memSlice m src n).map fun c => (c.1 - src + dst, c.2)) ++
    (m.filter fun c => dst + n ≤ c.1)

/-- Memory with a range set to zero. -/
def memZero (m : List Host.Cell) (k n : Nat) : List Host.Cell := m.filter fun c => c.1 < k || k + n ≤ c.1

/-- The value of bytes in memory order (R4). -/
def leNat : List Byte → Nat
  | [] => 0
  | b :: bs => b.toNat + 256 * leNat bs

/-- The `n` low bytes of a value, in memory order (R4). -/
def natBytes : Nat → Nat → List Byte
  | 0, _ => []
  | n + 1, v => BitVec.ofNat 8 v :: natBytes n (v / 256)

/-- The value of `n` bytes at a key. -/
def State.rd (s : State) (k n : Nat) : Nat := leNat (memReads s.mem k n)

/-- The doubleword at a key. -/
def State.rd64 (s : State) (k : Nat) : Word := BitVec.ofNat 64 (s.rd k 8)

/-- The word at a key. -/
def State.rd32 (s : State) (k : Nat) : Word32 := BitVec.ofNat 32 (s.rd k 4)

/-- Whether one of the written pieces replaces all eight bytes of granule `g` (R307). -/
def covers (ps : List (Nat × List Byte)) (g : Nat) : Bool := ps.any fun p => p.1 ≤ 8 * g && 8 * g + 8 ≤ p.1 + p.2.length

/-- The pieces of one access with neighbours joined: a vector store, a pushed element and an engine's run replace a granule as a
whole, the lanes of a scatter do not (R307). -/
def joinPieces : List (Nat × List Byte) → List (Nat × List Byte)
  | [] => []
  | p :: ps =>
    match joinPieces ps with
    | [] => [p]
    | q :: qs => if p.1 + p.2.length = q.1 then (p.1, p.2 ++ q.2) :: qs else p :: q :: qs

/-- A write about to be applied, as the list of past writes will hold it, its maker not yet put down (log 60). -/
def State.pastOf (s : State) (ps : List (Nat × List Byte)) : Past :=
  { num := s.writes, old := ps.map fun p => (p.1, memReads s.mem p.1 p.2.length), cleared := s.poison.filter (covers ps),
    by_ := .machine, clk := Clock.zero, sides := [], rmw := false, readers := [] }

/-- The bytes of a write, in piece order, and the poison marks of the granules that it replaces whole (R307). -/
def State.wrBytes (s : State) (ps : List (Nat × List Byte)) : State :=
  { s with
    mem := ps.foldl (fun m p => memWrites m p.1 p.2) s.mem
    poison := s.poison.filter fun g => !covers ps g
    past := if ps.isEmpty then s.past else s.pastOf ps :: s.past
    writes := if ps.isEmpty then s.writes else s.writes + 1 }

/-- The entries that walk caches hold from the lines of a write invalidated on every die (R299). -/
def State.dropWalks (s : State) (ps : List (Nat × Nat)) : State :=
  { s with walkCache := s.walkCache.map fun d =>
      (d.1, d.2.filter fun e => !ps.any fun p => e.at_ / 64 ≤ (p.1 + p.2 - 1) / 64 && p.1 / 64 ≤ e.at_ / 64) }

/-- One write made of pieces, applied at its home and acknowledged (R299, R307). -/
def State.wrPieces (s : State) (ps : List (Nat × List Byte)) : State :=
  (s.wrBytes ps).dropWalks (ps.map fun p => (p.1, p.2.length))

/-- A write of `n` bytes of a value at a key. -/
def State.wr (s : State) (k n v : Nat) : State := s.wrPieces [(k, natBytes n v)]

/-- A doubleword write. -/
def State.wr64 (s : State) (k : Nat) (v : Word) : State := s.wr k 8 v.toNat

/-- The first poisoned granule among `n` bytes at a key, as its granule number (R307). -/
def State.poisonAt (s : State) (k n : Nat) : Option Nat := s.poison.find? fun g => k < 8 * g + 8 && 8 * g < k + n

/-- Insert a granule in the rising list of poisoned granules. -/
def insertGranule : List Nat → Nat → List Nat
  | [], g => [g]
  | a :: l, g => if g < a then g :: a :: l else if g = a then a :: l else a :: insertGranule l g

/-- The bytes of pieces that lie outside a range. -/
def outside (k n : Nat) (ps : List (Nat × List Byte)) : List (Nat × List Byte) :=
  ps.flatMap fun p =>
    if p.1 < k + n && k < p.1 + p.2.length then
      (List.range p.2.length).filterMap fun i => if k ≤ p.1 + i && p.1 + i < k + n then none else some (p.1 + i, [p.2.getD i 0])
    else [p]

/-- The past writes with a range left out, whose bytes are new to every reader: a scrub or a move is its initial write (R242). -/
def State.pastOutside (s : State) (k n : Nat) : List Past :=
  (s.past.map fun w => { w with old := outside k n w.old }).filter fun w => !w.old.isEmpty

/-- What a range holds is its initial write: no older write of it is a candidate (R242). -/
def State.initial (s : State) (k n : Nat) : State := { s with past := s.pastOutside k n }

/-- A range set to zero with fresh check bits (R310, R386). -/
def State.zeroRange (s : State) (k n : Nat) : State :=
  { s with
    mem := memZero s.mem k n
    poison := s.poison.filter fun g => 8 * g + 8 ≤ k || k + n ≤ 8 * g
    past := s.pastOutside k n }

/-- A range moved to another, its poison marks with it; walk caches hold nothing more from the lines written (R299). -/
def State.moveRange (s : State) (src dst n : Nat) : State :=
  State.dropWalks { s with
    mem := memMove s.mem src dst n
    poison := ((s.poison.filter fun g => src ≤ 8 * g && 8 * g < src + n).map fun g => g - src / 8 + dst / 8).foldl
      insertGranule (s.poison.filter fun g => 8 * g + 8 ≤ dst || dst + n ≤ 8 * g)
    past := s.pastOutside dst n } [(dst, n)]

end Sys2Proof.Machine
end

