-- ==== Sys2Proof/Machine/Ops.lean ====
section
/-! DEFINITION. The named operations on cores, context slots and registers; how an instruction ends (it completes, waits or
traps, R9, R94); taking a user or supervisor cause and returning from one (R97, R110-R113). -/

namespace Sys2Proof.Machine

open Sys2Proof

/-- The outcome of a step of this machine. -/
abbrev Res := Host.Outcome State Fault Refusal

/-! ### Cores, slots and other sparse tables -/

/-- The entry of a key, if one is listed. -/
def tabGet? {κ α : Type} [DecidableEq κ] : List (κ × α) → κ → Option α
  | [], _ => none
  | (k, v) :: t, q => if k = q then some v else tabGet? t q

/-- The table with the entry of a key set. -/
def tabPut {κ α : Type} [DecidableEq κ] : List (κ × α) → κ → α → List (κ × α)
  | [], q, v => [(q, v)]
  | (k, w) :: t, q, v => if k = q then (k, v) :: t else (k, w) :: tabPut t q v

/-- A core; one that is not listed is as after a scrub. -/
def State.getCore (s : State) (c : CoreId) : Core := (tabGet? s.cores c).getD (Core.reset c)

/-- The state with a core set. -/
def State.putCore (s : State) (c : CoreId) (k : Core) : State := { s with cores := tabPut s.cores c k }

/-- The state with a core changed. -/
def State.onCore (s : State) (c : CoreId) (f : Core → Core) : State := s.putCore c (f (s.getCore c))

/-- A slot of a core. -/
def Core.getSlot (c : Core) (k : SlotNo) : Slot := c.slots[k.toNat]

/-- The core with a slot changed. -/
def Core.onSlot (c : Core) (k : SlotNo) (f : Slot → Slot) : Core :=
  { c with slots := c.slots.set k.toNat (f (c.slots[k.toNat])) }

/-- The slot a SlotId names. -/
def State.getSlot (s : State) (o : SlotId) : Slot := (s.getCore o.core).getSlot o.slot

/-- The state with a slot changed. -/
def State.onSlot (s : State) (o : SlotId) (f : Slot → Slot) : State := s.onCore o.core fun c => c.onSlot o.slot f

/-- The core that acts. -/
def State.core (s : State) : Core := s.getCore s.cur.core

/-- The slot that acts. -/
def State.slot (s : State) : Slot := s.getSlot s.cur

/-- The state with the acting core changed. -/
def State.modCore (s : State) (f : Core → Core) : State := s.onCore s.cur.core f

/-- The state with the acting slot changed. -/
def State.modSlot (s : State) (f : Slot → Slot) : State := s.onSlot s.cur f

/-- A vault unit; one that is not listed is as after a scrub. -/
def State.getUnit (s : State) (u : VaultId) : VaultUnit := (tabGet? s.units u).getD VaultUnit.reset

/-- The state with a vault unit changed. -/
def State.onUnit (s : State) (u : VaultId) (f : VaultUnit → VaultUnit) : State :=
  { s with units := tabPut s.units u (f (s.getUnit u)) }

/-- A fresh number for an item in flight. -/
def State.fresh (s : State) : State := { s with nextId := s.nextId + 1 }

/-- Whether a die was fenced at boot (R388). -/
def State.fenced (s : State) (d : Die) : Bool :=
  match tabGet? s.auth (DieId.compute d) with
  | some (.fenced, _) => true
  | _ => false

/-- The die of a core (R13). -/
def dieOf (c : CoreId) : Die := BitVec.ofNat 6 (c.toNat / 4096)

/-- The row of a core in its die (R13). -/
def yOf (c : CoreId) : Nat := c.toNat / 64 % 64

/-- The column of a core in its die (R13). -/
def xOf (c : CoreId) : Nat := c.toNat % 64

/-- The core at a place of a die (R13). -/
def coreAt (d : Die) (y x : Nat) : CoreId := BitVec.ofNat 18 (d.toNat * 4096 + y % 64 * 64 + x % 64)

/-- The vault of a core's vault group (R14). -/
def vaultOf (c : CoreId) : VaultId := BitVec.ofNat 14 ((dieOf c).toNat * 256 + 16 * (yOf c / 4) + xOf c / 4)

/-- The cluster of a core (R14). -/
def clusterOf (c : CoreId) : BitVec 10 := BitVec.ofNat 10 (16 * (dieOf c).toNat + 4 * (yOf c / 16) + xOf c / 16)

/-- The cores of a cluster in increasing core id (R14, R317). -/
def clusterCores (k : BitVec 10) : List CoreId :=
  let d := BitVec.ofNat 6 (k.toNat / 16)
  (List.range 16).flatMap fun y => (List.range 16).map fun x =>
    coreAt d (k.toNat / 4 % 4 * 16 + y) (k.toNat % 4 * 16 + x)

/-! ### Monitors (R393, R394) -/

/-- The histogram bin of a sample (R394). -/
def monBin (v : Word) (shift : Nat) : Nat :=
  let q := v.toNat / 2 ^ shift
  if q = 0 then 0 else min 15 (q.log2 + 1)

/-- A sample applied to monitor `n` (R394). -/
def Core.sampleOne (c : Core) (n : Fin 4) (v : Word) : Core :=
  let i := 16 * n.val + monBin v (c.monsel[n].toNat / 256 % 16)
  { c with
    monmin := c.monmin.set n.val (if v.ult c.monmin[n] then v else c.monmin[n])
    monmax := c.monmax.set n.val (if c.monmax[n].ult v then v else c.monmax[n])
    mbin := c.mbin.setIfInBounds i (BitVec.ofNat 32 (min ((c.mbin.getD i 0).toNat + 1) 0xFFFFFFFF)) }

/-- A sample of a source applied to every monitor that selects it (R393). -/
def Core.sample (c : Core) (src : Nat) (v : Word) : Core :=
  (List.finRange 4).foldl (fun c n => if c.monsel[n].toNat % 16 = src then c.sampleOne n v else c) c

/-- The number of the samples that a step takes at a core from a source, for their free values. -/
def State.sampleIx (s : State) (c : CoreId) (src : Nat) : Nat := (s.tick * 2 ^ 18 + c.toNat) * 16 + src

/-- A sample of a core in cycles: a free value (R393; DESIGN CHOICE, log 4). -/
def State.sampleCycles (s : State) (c : CoreId) (src : Nat) : State :=
  s.onCore c fun k => k.sample src (Config.sampleCycles (s.sampleIx c src) 0)

/-- Samples of a source whose number is open: the flits of a class-0 message, the bank accesses of an event (R393; DESIGN CHOICE, log 4). -/
def State.sampleMany (s : State) (c : CoreId) (src : Nat) : State :=
  s.onCore c fun k =>
    if k.monsel.all fun m => m.toNat % 16 ≠ src then k
    else (List.range (Config.sampleCount (s.sampleIx c src) % 65)).foldl
      (fun k i => k.sample src (Config.sampleCycles (s.sampleIx c src) (i + 1))) k

/-- The bank accesses of an event at a core's local memory, each with the cycles that it lost (R289, R290, R393; DESIGN CHOICE, log 4). -/
def State.banked (s : State) (c : CoreId) : State := s.sampleMany c 15

/-! ### Registers -/

/-- x register `n`; x0 reads zero (R19). -/
def Slot.getX (l : Slot) (n : XReg) : Word := if n = 0 then 0 else l.x[n.toNat]

/-- The slot with x register `n` written; x0 ignores writes (R19). -/
def Slot.setX (l : Slot) (n : XReg) (w : Word) : Slot := if n = 0 then l else { l with x := l.x.set n.toNat w }

/-- Whether x register `n` is full; x0 always is (R19). -/
def Slot.xIsFull (l : Slot) (n : XReg) : Bool := n = 0 || l.xfull.getLsbD n.toNat

/-- A bit vector with one bit set to a value. -/
def setBit {w : Nat} (b : BitVec w) (i : Nat) (v : Bool) : BitVec w :=
  if v then b ||| BitVec.ofNat w (2 ^ i) else b &&& ~~~ BitVec.ofNat w (2 ^ i)

/-- The slot with x register `n` marked full or empty; x0 stays full (R22). -/
def Slot.markX (l : Slot) (n : XReg) (full : Bool) : Slot :=
  if n = 0 then l else { l with xfull := setBit l.xfull n.toNat full }

/-- v register `n`'s own contents (R19, R25). -/
def Slot.getV (l : Slot) (n : VReg) : VVal := l.v[n.toNat]

/-- The slot with v register `n`'s own contents written. -/
def Slot.setV (l : Slot) (n : VReg) (w : VVal) : Slot := { l with v := l.v.set n.toNat w }

/-- Whether v register `n`'s full bit is set. -/
def Slot.vIsFull (l : Slot) (n : VReg) : Bool := l.vfull.getLsbD n.toNat

/-- The slot with v register `n` marked full or empty. -/
def Slot.markV (l : Slot) (n : VReg) (full : Bool) : Slot := { l with vfull := setBit l.vfull n.toNat full }

/-- p register `n`; p0 reads all ones (R19). -/
def Slot.getP (l : Slot) (n : PReg) : BitVec 16 := if n = 0 then BitVec.allOnes 16 else l.p[n.toNat]

/-- The slot with p register `n` written; p0 ignores writes (R19). -/
def Slot.setP (l : Slot) (n : PReg) (w : BitVec 16) : Slot := if n = 0 then l else { l with p := l.p.set n.toNat w }

/-- m register m0 or m1 (R19). -/
def Slot.getM (l : Slot) (n : Bool) : BitVec 256 := if n then l.m[1] else l.m[0]

/-- The slot with an m register written. -/
def Slot.setM (l : Slot) (n : Bool) (w : BitVec 256) : Slot :=
  { l with m := if n then l.m.set 1 w else l.m.set 0 w }

/-- The stream number of a v register that is in stream mode (R25). -/
def Slot.streamOf (l : Slot) (n : VReg) : Option (Fin 4) :=
  if 12 ≤ n.toNat && l.sm.getLsbD (n.toNat - 12) then some (Fin.ofNat 4 (n.toNat - 12)) else none

/-- The x register written by a non-returning write (R21). -/
def State.putX (s : State) (n : XReg) (w : Word) : State := s.modSlot fun l => l.setX n w

/-- The value of an x register of the acting slot. -/
def State.xv (s : State) (n : XReg) : Word := s.slot.getX n

/-! ### How an instruction ends -/

/-- What keeps an instruction from completing (R9): it waits, and its slot keeps nothing of what it did; it is under
way, and its context issues nothing more until its answer comes (R123, R128); a user-level cause with CR.TEPC at the
instruction or after it; a supervisor cause; or a supervisor cause whose entry names assignments that survive (R224, R236). -/
inductive Stop where
  | wait (s : State) (w : WaitRec)
  | held (s : State)
  | user (cause : BitVec 8) (val : Word)
  | userNext (cause : BitVec 8) (val : Word)
  | sup (scause : BitVec 16) (val : Word)
  | walked (scause : BitVec 16) (val : Word)
  | keep (s : State) (scause : BitVec 16) (val : Word)

/-- The body of an instruction: the state it leaves, or what stopped it. -/
abbrev Body (α : Type) := Except Stop α

/-! Cause codes of R33, R61, R129, R170. -/
def cEMPTY : BitVec 8 := 0x01
def cSTRAGGLE : BitVec 8 := 0x02
def cCOPYDONE : BitVec 8 := 0x03
def cARITH : BitVec 8 := 0x04
def cTREEVAL : BitVec 8 := 0x05
def cNBAHEAD : BitVec 8 := 0x06
def cSOFT : BitVec 8 := 0x07
def cILLEGAL : BitVec 16 := 0x10
def cPOISON : BitVec 16 := 0x12
def cBADHANDLER : BitVec 16 := 0x13
def cJFULL : BitVec 16 := 0x14
def cINBOXFULL : BitVec 16 := 0x15
def cPREEMPT : BitVec 16 := 0x16
def cBREAK : BitVec 16 := 0x17
def cDOUBLE : BitVec 16 := 0x18

/-- The fault kinds (R33, R61, R129, R170). -/
inductive FKind where
  | noncanon | rsvd | range | window | align | absent | perm | tenant | fetch | layout | frame | place | block
  deriving DecidableEq, Repr

/-- CR.SCAUSE of FAULT with a kind (R33). -/
def FKind.scause : FKind → BitVec 16
  | .noncanon => 0x0111
  | .rsvd => 0x0211
  | .range => 0x0311
  | .window => 0x0411
  | .align => 0x0511
  | .absent => 0x0611
  | .perm => 0x0711
  | .tenant => 0x0811
  | .fetch => 0x0911
  | .layout => 0x0A11
  | .frame => 0x0B11
  | .place => 0x0C11
  | .block => 0x0D11

/-- TRAP(FAULT) of a kind. -/
def trapFault {α : Type} (k : FKind) (val : Word) : Body α := .error (.sup k.scause val)

/-- TRAP(POISON). -/
def trapPoison {α : Type} (val : Word) : Body α := .error (.sup cPOISON val)

/-- Whether an offset may be the PC: word aligned, 0 to 0x5FFFC (R18). -/
def codeOk (t : Nat) : Bool := t % 4 == 0 && t ≤ 0x5FFFC

/-- An exception counter increment, saturating (R34). -/
def satAdd32 (c : Word32) (n : Nat) : Word32 := BitVec.ofNat 32 (min (c.toNat + n) 0xFFFFFFFF)

/-- The core with counter `i` raised by `n` (R34). -/
def Core.count (c : Core) (i : Fin 16) (n : Nat) : Core := { c with xcnt := c.xcnt.set i.val (satAdd32 c.xcnt[i.val] n) }

/-! ### Time (R121, R380) -/

/-- What the timebase of a die has shown. -/
def State.dieTime (s : State) (d : DieId) : Nat := (tabGet? s.times d).getD 0

/-- The timebase of a die read: within 2 ns, 32 units, of the module reference, and never less than it has shown (R121, R380; DESIGN
CHOICE, log 4). -/
def State.readTime (s : State) (d : DieId) : State × Word :=
  let now := s.now + Config.timeAdvance s.tick
  let t := max (s.dieTime d) (now + Config.timeSkew s.tick % 65 - 32)
  ({ s with now := now, times := tabPut s.times d t }, BitVec.ofNat 64 t)

/-- The timebase of a die after an acquire: what it acquires took at least 8 ns to cross from another die, so it shows no less than
any die has shown (R263, R380). -/
def State.syncTime (s : State) (d : DieId) : State :=
  { s with times := tabPut s.times d (s.times.foldl (fun m e => max m e.2) (s.dieTime d)) }

/-- An error report sent to the collector from a die, with its timebase (R385). -/
def State.reportAt (s : State) (d : DieId) (kind : Byte) (c : CoreId) (launch : Word32) (w1 w3 : Word) : State :=
  let r := s.readTime d
  { r.1 with errors := s.errors ++ [{ kind := kind, core := c, launch := launch, time := r.2, word1 := w1, word3 := w3 }] }

/-- An error report of a core. -/
def State.report (s : State) (kind : Byte) (c : CoreId) (launch : Word32) (w1 w3 : Word) : State :=
  s.reportAt (.compute (dieOf c)) kind c launch w1 w3

/-- An error report of I/O die 0, which names no core and no launch. -/
def State.reportIo (s : State) (kind : Byte) (w1 w3 : Word) : State := s.reportAt (.io 0) kind 0 0 w1 w3

/-- A runtime failure: the slot stops, and the host and the launcher are told (R97). -/
def State.runtimeFailure (s : State) (o : SlotId) : State :=
  let l := s.getSlot o
  let c := s.getCore o.core
  let s := s.onSlot o fun l => { l with st := .stopped, wait := none }
  let s := s.report 1 o.core c.launch (l.sepc.setWidth 64) (BitVec.ofNat 64 (l.scause.toNat * 16 + o.slot.toNat))
  State.fresh { s with fails := s.fails ++ [{ id := s.nextId, core := o.core, launch := c.launch, halt := none }] }

/-- Taking a supervisor cause in a slot (R111): CR.SEPC, CR.SCAUSE and CR.SVAL, then supervisor mode, Held, and the PC at
CR.SVEC. In supervisor mode, and where CR.SVEC is no code offset, it is a runtime failure (R97, R111). -/
def State.takeSup (s : State) (o : SlotId) (scause : BitVec 16) (val : Word) (epc : Off) : State :=
  let l := s.getSlot o
  let svec := (s.getCore o.core).svec
  if l.mode = .supervisor then
    (s.onSlot o fun l => { l with sepc := epc, scause := scause, sval := val }).runtimeFailure o
  else if codeOk svec.toNat then
    s.onSlot o fun l =>
      { l with sepc := epc, scause := scause, sval := val, mode := .supervisor, st := .held, pc := svec, wait := none,
               joinAns := none }
  else
    (s.onSlot o fun l =>
      { l with sepc := epc, scause := FKind.fetch.scause, sval := svec.setWidth 64 }).runtimeFailure o

/-- The counter a user cause counts in when it is raised: EMPTY in 10, TREEVAL in 9 (R34, R110). -/
def State.countRaised (s : State) (o : SlotId) (cause : BitVec 8) : State :=
  if cause = cEMPTY then s.onCore o.core (·.count 10 1)
  else if cause = cTREEVAL then s.onCore o.core (·.count 9 1)
  else s

/-- Entering a user handler (R110): CR.TEPC, CR.TCAUSE, CR.TVAL and INTRAP, then the PC at the target; a target that is no
code offset is the supervisor cause FETCH, with those four kept. -/
def State.enterUser (s : State) (o : SlotId) (cause : BitVec 8) (val : Word) (epc : Off) (target : Word) : State :=
  let s := s.onSlot o fun l => { l with tepc := epc, tcause := cause, tval := val, intrap := true, wait := none, joinAns := none }
  if codeOk target.toNat then s.onSlot o fun l => { l with pc := target.setWidth 20 }
  else s.takeSup o FKind.fetch.scause target (target.setWidth 20)

/-- Taking a user-level cause (R110): in supervisor mode a runtime failure (R97), with INTRAP set the supervisor cause DOUBLE
(R111), else the user handler at CR.TVEC. `epc` goes to CR.TEPC, `sepc` to CR.SEPC (DEDUCED, log 23). -/
def State.takeUser (s : State) (o : SlotId) (cause : BitVec 8) (val : Word) (epc sepc : Off) : State :=
  let l := s.getSlot o
  let s := s.countRaised o cause
  if l.mode = .supervisor then s.takeSup o (cause.setWidth 16) val sepc
  else if l.intrap then s.takeSup o cDOUBLE (cause.setWidth 64) sepc
  else s.enterUser o cause val epc (l.tvec.setWidth 64)

/-- The acting slot's wait recorded (R9, R340). -/
def State.setWait (s : State) (w : WaitRec) : State := s.modSlot fun l => { l with wait := some w }

/-- The state `t` with the acting slot as it stood in `s`: what an instruction that waits has done to its registers, its streams
and its generator is undone; walks and requests sent for it stay (R9, R194, R298). -/
def State.undoSlot (s t : State) : State := t.onSlot s.cur fun _ => s.slot

/-- How a stopped instruction leaves the machine; `s` is the state it began in (R9, R94, R110, R111). -/
def State.stop (s : State) : Stop → State
  | .wait t w => (s.undoSlot t).setWait w
  | .held t => t
  | .user cause val => s.takeUser s.cur cause val s.slot.pc s.slot.pc
  | .userNext cause val => s.takeUser s.cur cause val (s.slot.pc + 4) s.slot.pc
  | .sup scause val => s.takeSup s.cur scause val s.slot.pc
  | .walked scause val => (s.sampleCycles s.cur.core 11).takeSup s.cur scause val s.slot.pc
  | .keep t scause val => t.takeSup t.cur scause val s.slot.pc

/-- An instruction of a slot that has taken effect counts in activity counters 1 and 2; one that is abandoned does not (R9,
R122). -/
def State.noteIssuedAt (s : State) (o : SlotId) : State :=
  s.onCore o.core fun c => { c.onSlot o.slot (fun l => { l with issued := l.issued + 1 }) with issued := c.issued + 1 }

/-- The same for the acting slot (DEDUCED, log 22). -/
def State.noteIssued (s : State) : State := s.noteIssuedAt s.cur

/-- An instruction whose context was held until its answer came has completed: it counts, and the PC moves on. -/
def State.complete (s : State) (o : SlotId) : State :=
  (s.onSlot o fun l => { l with pc := l.pc + 4, wait := none }).noteIssuedAt o

/-- The outcome of an instruction's body begun in `s`. -/
def finish (s : State) : Body State → Res
  | .ok t => .next t.noteIssued
  | .error (.userNext cause val) => .next (s.noteIssued.stop (.userNext cause val))
  | .error e => .next (s.stop e)

/-- The PC moved to the next instruction in sequence. -/
def State.advance (s : State) (n : Off) : State := s.modSlot fun l => { l with pc := l.pc + n }

/-- A wait for a kind and object of R340. -/
def waitFor {α : Type} (s : State) (kind : Nat) (obj ph : Word) : Body α := .error (.wait s { kind := kind, obj := obj, ph := ph })

/-- A wait whose object is the address of the instruction (R340). -/
def waitHere {α : Type} (s : State) (kind : Nat) (ph : Word := 0) : Body α := waitFor s kind (s.slot.pc.setWidth 64) ph

/-- The words a context fetches: a prefetched word if one is held, else local memory (R17, R116). -/
def State.fetchWord (s : State) (pc : Off) : Word32 :=
  match tabGet? s.slot.prefetched pc with
  | some w => w
  | none => s.rd32 (localKey s.cur.core pc.toNat)

/-- The word of the instruction that acts, for CR.SVAL of ILLEGAL (R94). -/
def State.instrWord (s : State) : Word := (s.fetchWord s.slot.pc).setWidth 64

/-- TRAP(ILLEGAL) with CR.SVAL the instruction word (R94). -/
def trapIllegal {α : Type} (s : State) : Body α := .error (.sup cILLEGAL s.instrWord)

/-- A branch, jump or return to a target: the PC there, or FETCH (R18). -/
def State.goto (s : State) (t : Word) : Body State :=
  if codeOk t.toNat then .ok (s.modSlot fun l => { l with pc := t.setWidth 20 }) else trapFault .fetch t

/-- A user-level cause owed at the boundary after an instruction of one word (R57, R217): CR.TEPC holds the next instruction, and
CR.SEPC, where the cause is DOUBLE or a runtime failure, the instruction that raised it (R111). -/
def State.owe (s : State) (owed : Option (BitVec 8 × Word)) : State :=
  match owed with
  | none => s
  | some (cause, val) => s.takeUser s.cur cause val s.slot.pc (s.slot.pc - 4)

/-- A pending asynchronous supervisor cause (R112). -/
def State.addAsync (s : State) (o : SlotId) (a : AsyncCause) : State :=
  s.onSlot o fun l => { l with asyncs := l.asyncs ++ [a] }

/-- An asynchronous POISON (R124). -/
def State.addPoison (s : State) (o : SlotId) (addr : Word) : State :=
  s.addAsync o { scause := cPOISON, val := addr, engine := none }

/-- A supervisor cause that comes before those already pending (R339). -/
def State.addFirst (s : State) (o : SlotId) (a : AsyncCause) : State := s.onSlot o fun l => { l with asyncs := a :: l.asyncs }

/-- Empty the remote line buffer of a core. -/
def State.flushRlb (s : State) (c : CoreId) : State := s.onCore c fun c => { c with rlb := [] }

/-- An acquire of a core at scope 2 or more: its remote line buffer is emptied, and its die's timebase follows what it acquires (R256,
R263). -/
def State.acquired (s : State) (c : CoreId) : State := (s.flushRlb c).syncTime (.compute (dieOf c))

/-- A conditional trap in a body. -/
def guardB (c : Bool) (e : Body Unit) : Body Unit := if c then .ok () else e

end Sys2Proof.Machine
end

