-- ==== Sys2Proof/Machine/Flags.lean ====
section
/-! DEFINITION. The machine's flags are the exception counters (R34, R56): the events an instruction or an engine produces,
their counting, and the ARITH trap owed for them (R57). -/

namespace Sys2Proof.Machine

open Sys2Proof

/-- No event. -/
def Events.zero : Events := { nan := 0, ovf := 0, unf := 0, e4m3 := 0, e5m2 := 0, divz := 0, int8 := 0 }

/-- The events of two operations together. -/
def Events.plus (a b : Events) : Events :=
  { nan := a.nan + b.nan, ovf := a.ovf + b.ovf, unf := a.unf + b.unf, e4m3 := a.e4m3 + b.e4m3, e5m2 := a.e5m2 + b.e5m2,
    divz := a.divz + b.divz, int8 := a.int8 + b.int8 }

/-- The events of a list of operations. -/
def Events.sum (l : List Events) : Events := l.foldl Events.plus Events.zero

/-- One NaN produced from operands that are not NaN (R56). -/
def evNan : Events := { Events.zero with nan := 1 }
/-- One overflow to infinity (R44). -/
def evOvf : Events := { Events.zero with ovf := 1 }
/-- One non-zero result rounded to zero (R44). -/
def evUnf : Events := { Events.zero with unf := 1 }
/-- One E4M3 saturation (R44). -/
def evE4m3 : Events := { Events.zero with e4m3 := 1 }
/-- One E5M2 overflow (R44). -/
def evE5m2 : Events := { Events.zero with e5m2 := 1 }
/-- One division by zero (R100). -/
def evDivz : Events := { Events.zero with divz := 1 }
/-- One INT8 saturation (R48). -/
def evInt8 : Events := { Events.zero with int8 := 1 }

/-- The events counted in a core, each counter saturating (R34, R56). -/
def Core.countEvents (c : Core) (e : Events) : Core :=
  ((((((c.count 0 e.nan).count 1 e.ovf).count 2 e.unf).count 3 e.e4m3).count 4 e.e5m2).count 5 e.divz).count 8 e.int8

/-- The events counted in the acting core. -/
def State.countEvents (s : State) (e : Events) : State := s.modCore (·.countEvents e)

/-- The counters 0 to 5 that an instruction raised, lowest first (R57). -/
def Events.raised (e : Events) : List Nat :=
  (if e.nan = 0 then [] else [0]) ++ (if e.ovf = 0 then [] else [1]) ++ (if e.unf = 0 then [] else [2]) ++
    (if e.e4m3 = 0 then [] else [3]) ++ (if e.e5m2 = 0 then [] else [4]) ++ (if e.divz = 0 then [] else [5])

/-- ARITH owed by an instruction: in user mode, the lowest counter it raised whose CR.AXEN bit is set; an event of a counter that stands
at 0xFFFF_FFFF, and so no longer increments, counts as one (R57, R97; DESIGN CHOICE, log 57). -/
def Slot.arith (l : Slot) (e : Events) : Option (BitVec 8 × Word) :=
  if l.mode = .supervisor then none
  else (e.raised.find? fun n => l.axen.getLsbD n).map fun n => (cARITH, BitVec.ofNat 64 n)

/-- An instruction of the acting context that produced events: they are counted, then ARITH is taken at the boundary if it is
owed (R57). -/
def State.withEvents (s : State) (e : Events) : State := (s.countEvents e).owe (s.slot.arith e)

end Sys2Proof.Machine
end

