-- ==== Sys2Proof/Machine/Float.lean ====
section
/-! DEFINITION. Number formats and rounding (R39-R47), the exact operations of R49-R51, sums in the orders of R52-R54, and the
correctly rounded functions of R50. A finite value is a sign, a natural mantissa and a power of two, so every operation is exact
until it is rounded once. -/

namespace Sys2Proof.Machine

open Sys2Proof

/-- A binary format: exponent bits, fraction bits, bias, and the E4M3 rule that has no infinity (R39, R40). -/
structure Fmt where
  ebits : Nat
  fbits : Nat
  bias : Nat
  e4m3 : Bool
  deriving DecidableEq, Repr

def fp64 : Fmt := { ebits := 11, fbits := 52, bias := 1023, e4m3 := false }
def fp32 : Fmt := { ebits := 8, fbits := 23, bias := 127, e4m3 := false }
def fmtFp16 : Fmt := { ebits := 5, fbits := 10, bias := 15, e4m3 := false }
def fmtBf16 : Fmt := { ebits := 8, fbits := 7, bias := 127, e4m3 := false }
def fmtE5m2 : Fmt := { ebits := 5, fbits := 2, bias := 15, e4m3 := false }
def fmtE4m3 : Fmt := { ebits := 4, fbits := 3, bias := 7, e4m3 := true }

/-- A value: NaN, an infinity, or (-1)^neg * m * 2^e. -/
inductive FVal where
  | nan
  | inf (neg : Bool)
  | fin (neg : Bool) (m : Nat) (e : Int)
  deriving DecidableEq, Repr

/-- The all-ones exponent of a format. -/
def Fmt.emax (f : Fmt) : Nat := 2 ^ f.ebits - 1

/-- The bit of the sign. -/
def Fmt.signBit (f : Fmt) : Nat := 2 ^ (f.ebits + f.fbits)

/-- A pattern's value (R40). -/
def Fmt.decode (f : Fmt) (w : Nat) : FVal :=
  let neg := w / f.signBit % 2 = 1
  let ex := w / 2 ^ f.fbits % 2 ^ f.ebits
  let fr := w % 2 ^ f.fbits
  if ex = f.emax && (if f.e4m3 then fr = 2 ^ f.fbits - 1 else true) then
    (if f.e4m3 || fr ≠ 0 then .nan else .inf neg)
  else if ex = 0 then .fin neg fr (1 - (f.bias : Int) - f.fbits)
  else .fin neg (2 ^ f.fbits + fr) ((ex : Int) - f.bias - f.fbits)

/-- The positive canonical NaN (R41). -/
def Fmt.nan (f : Fmt) : Nat :=
  if f.e4m3 then 0x7F else f.emax * 2 ^ f.fbits + 2 ^ (f.fbits - 1)

/-- An infinity's pattern. -/
def Fmt.inf (f : Fmt) (neg : Bool) : Nat := f.emax * 2 ^ f.fbits + (if neg then f.signBit else 0)

/-- The largest finite pattern, without its sign (R39). -/
def Fmt.maxFinite (f : Fmt) : Nat := if f.e4m3 then 0x7E else f.emax * 2 ^ f.fbits - 1

/-- A zero's pattern. -/
def Fmt.zero (f : Fmt) (neg : Bool) : Nat := if neg then f.signBit else 0

/-- The rounding modes (R43); SR carries its eight random bits (R45). -/
inductive RMode where
  | rne | rz | sr (r : Nat)
  deriving DecidableEq, Repr

/-- A rounded pattern with the events of the rounding. -/
structure Rounded where
  bits : Nat
  ev : Events
  deriving DecidableEq, Repr

/-- The number of bits of a natural number, by bisection on its size. -/
def bitLen (m : Nat) : Nat := if m = 0 then 0 else m.log2 + 1

/-- A mantissa shifted right by `sh` bits with the mode's rounding (R44, R45). -/
def shiftRound (mode : RMode) (m sh : Nat) : Nat :=
  let t := m / 2 ^ sh
  let rem := m % 2 ^ sh
  match mode with
  | .rne => if 2 ^ sh < 2 * rem || (2 ^ sh = 2 * rem && t % 2 = 1) then t + 1 else t
  | .rz => t
  | .sr r => if 512 * 2 ^ sh ≤ 512 * rem + (2 * r + 1) * 2 ^ sh then t + 1 else t

/-- The event of an overflow in a format (R44). -/
def Fmt.ovfEvent (f : Fmt) : Events := if f.e4m3 then evE4m3 else if f = fmtE5m2 then evE5m2 else evOvf

/-- The result of an overflow (R44). -/
def Fmt.overflow (f : Fmt) (mode : RMode) (neg : Bool) : Rounded :=
  { bits := (if f.e4m3 || mode = .rz then f.maxFinite else f.inf false) + f.zero neg, ev := f.ovfEvent }

/-- The value (-1)^neg * m * 2^e, m non-zero, rounded once to a format (R44, R45). -/
def Fmt.round (f : Fmt) (mode : RMode) (neg : Bool) (m : Nat) (e : Int) : Rounded :=
  let emin : Int := 1 - f.bias
  let q := max ((bitLen m : Int) - 1 + e) emin - f.fbits
  let n := if q ≤ e then m * 2 ^ (e - q).toNat else shiftRound mode m (q - e).toNat
  let qmax : Int := (if f.e4m3 then (f.emax : Int) else (f.emax : Int) - 1) - f.bias - f.fbits
  let nmax := if f.e4m3 then 2 ^ (f.fbits + 1) - 2 else 2 ^ (f.fbits + 1) - 1
  if n = 0 then { bits := f.zero neg, ev := evUnf }
  else if qmax ≤ q && nmax < n * 2 ^ (q - qmax).toNat then f.overflow mode neg
  else if n < 2 ^ f.fbits then { bits := n + f.zero neg, ev := Events.zero }
  else
    let n' := if n = 2 ^ (f.fbits + 1) then 2 ^ f.fbits else n
    let q' := if n = 2 ^ (f.fbits + 1) then q + 1 else q
    { bits := (q' + f.fbits + f.bias).toNat * 2 ^ f.fbits + (n' - 2 ^ f.fbits) + f.zero neg, ev := Events.zero }

/-- A value put into a format (R44-R47). -/
def Fmt.convert (f : Fmt) (mode : RMode) : FVal → Rounded
  | .nan => { bits := f.nan, ev := Events.zero }
  | .inf neg => if f.e4m3 then { bits := f.maxFinite + f.zero neg, ev := evE4m3 } else { bits := f.inf neg, ev := Events.zero }
  | .fin neg m e => if m = 0 then { bits := f.zero neg, ev := Events.zero } else f.round mode neg m e

/-- The signed mantissa of a finite term at exponent `e0`. -/
def termAt (e0 : Int) (neg : Bool) (m : Nat) (e : Int) : Int :=
  (if neg then -1 else 1) * (m * 2 ^ (e - e0).toNat : Nat)

/-- The least exponent of the finite terms. -/
def minExp : List FVal → Int → Int
  | [], e => e
  | .fin _ _ e' :: l, e => minExp l (min e e')
  | _ :: l, e => minExp l e

/-- The exact sum of the finite terms at an exponent. -/
def sumAt (e0 : Int) : List FVal → Int
  | [] => 0
  | .fin neg m e :: l => termAt e0 neg m e + sumAt e0 l
  | _ :: l => sumAt e0 l

/-- The NaN an invalid operation produces, counted (R49). -/
def Fmt.invalid (f : Fmt) : Rounded := { bits := f.nan, ev := evNan }

/-- A NaN that comes from a NaN operand, not counted (R56). -/
def Fmt.quiet (f : Fmt) : Rounded := { bits := f.nan, ev := Events.zero }

/-- The exact sum of terms, rounded once (R49, R53): opposite infinities are invalid; an exact zero is +0 unless every term is
-0. With a NaN among the terms, opposite infinities besides are not counted (DESIGN CHOICE, log 67). -/
def Fmt.sum (f : Fmt) (mode : RMode) (l : List FVal) : Rounded :=
  if l.any (· = .nan) then f.quiet
  else if l.any (· = .inf true) && l.any (· = .inf false) then f.invalid
  else if l.any (· = .inf true) then { bits := f.inf true, ev := Events.zero }
  else if l.any (· = .inf false) then { bits := f.inf false, ev := Events.zero }
  else
    let e0 := minExp l 0
    let t := sumAt e0 l
    if t = 0 then
      { bits := f.zero (l.all fun x => match x with | .fin true 0 _ => true | _ => false), ev := Events.zero }
    else f.round mode (t < 0) t.natAbs e0

/-- The negation of a value. -/
def FVal.neg : FVal → FVal
  | .nan => .nan
  | .inf n => .inf !n
  | .fin n m e => .fin (!n) m e

/-- Whether a value is negative (its sign bit), NaN apart. -/
def FVal.isNeg : FVal → Bool
  | .nan => false
  | .inf n => n
  | .fin n _ _ => n

/-- Whether a value is a zero. -/
def FVal.isZero : FVal → Bool
  | .fin _ 0 _ => true
  | _ => false

/-- Whether a value is an infinity. -/
def FVal.isInf : FVal → Bool
  | .inf _ => true
  | _ => false

/-- Whether a product is the invalid 0 * ∞ (R49). -/
def mulInvalid (a b : FVal) : Bool := (a.isZero && b.isInf) || (a.isInf && b.isZero)

/-- The exact product (NaN for an invalid one). -/
def mulExact (a b : FVal) : FVal :=
  match a, b with
  | .nan, _ => .nan
  | _, .nan => .nan
  | .fin s m e, .fin t n g => .fin (s != t) (m * n) (e + g)
  | a, b => if a.isZero || b.isZero then .nan else .inf (a.isNeg != b.isNeg)

/-- The sum of products and further terms, rounded once; an invalid product counts even where another operand is NaN (R53,
R156). -/
def Fmt.dot (f : Fmt) (ps : List (FVal × FVal)) (l : List FVal) : Rounded :=
  if ps.any fun p => mulInvalid p.1 p.2 then f.invalid
  else f.sum .rne (l ++ ps.map fun p => mulExact p.1 p.2)

/-- A + B rounded (R49). -/
def Fmt.add (f : Fmt) (a b : Nat) : Rounded := f.sum .rne [f.decode a, f.decode b]

/-- A - B rounded (R49). -/
def Fmt.sub (f : Fmt) (a b : Nat) : Rounded := f.sum .rne [f.decode a, (f.decode b).neg]

/-- A * B rounded (R49). -/
def Fmt.mul (f : Fmt) (a b : Nat) : Rounded :=
  if mulInvalid (f.decode a) (f.decode b) then f.invalid else f.convert .rne (mulExact (f.decode a) (f.decode b))

/-- A * B + C with one rounding (R49). -/
def Fmt.fma (f : Fmt) (a b : Nat) (c : FVal) : Rounded := f.dot [(f.decode a, f.decode b)] [c]

/-- The quotient of two non-zero mantissas with at least `prec` bits, and one bit more that is set when the division leaves a
remainder. -/
def divMant (prec m n : Nat) : Nat × Int :=
  let k := prec + bitLen n - bitLen m
  let q := m * 2 ^ k / n
  (2 * q + (if m * 2 ^ k % n = 0 then 0 else 1), -(k : Int) - 1)

/-- A / B rounded (R49, R50). -/
def Fmt.div (f : Fmt) (a b : Nat) : Rounded :=
  match f.decode a, f.decode b with
  | .nan, _ => f.quiet
  | _, .nan => f.quiet
  | .inf _, .inf _ => f.invalid
  | .inf s, y => { bits := f.inf (s != y.isNeg), ev := Events.zero }
  | x, .inf t => { bits := f.zero (x.isNeg != t), ev := Events.zero }
  | .fin s m e, .fin t n g =>
    if n = 0 then (if m = 0 then f.invalid else { bits := f.inf (s != t), ev := Events.zero })
    else if m = 0 then { bits := f.zero (s != t), ev := Events.zero }
    else
      let q := divMant (f.fbits + 4) m n
      f.round .rne (s != t) q.1 (e - g + q.2)

/-- The integer square root, one bit at a time from bit `i - 1` down. -/
def isqrt (n : Nat) : Nat → Nat → Nat
  | 0, r => r
  | i + 1, r => if (r + 2 ^ i) * (r + 2 ^ i) ≤ n then isqrt n i (r + 2 ^ i) else isqrt n i r

/-- √A rounded (R50). -/
def Fmt.sqrt (f : Fmt) (a : Nat) : Rounded :=
  match f.decode a with
  | .nan => f.quiet
  | .inf false => { bits := f.inf false, ev := Events.zero }
  | .inf true => f.invalid
  | .fin s m e =>
    if m = 0 then { bits := f.zero s, ev := Events.zero }
    else if s then f.invalid
    else
      let k := 2 * (f.fbits + 4) + (if e % 2 = 0 then 0 else 1)
      let n := m * 2 ^ k
      let r := isqrt n (bitLen n / 2 + 1) 0
      f.round .rne false (2 * r + (if r * r = n then 0 else 1)) ((e - k) / 2 - 1)

/-- The order of two values that are not NaN, -0 below +0 where `signedZero` (R51, R159). -/
def FVal.lt (signedZero : Bool) (a b : FVal) : Bool :=
  match a, b with
  | .nan, _ => false
  | _, .nan => false
  | .inf s, .inf t => s && !t
  | .inf s, _ => s
  | _, .inf t => !t
  | .fin s m e, .fin t n g =>
    let e0 := min e g
    let x := termAt e0 s m e
    let y := termAt e0 t n g
    x < y || (signedZero && x = y && m = 0 && s && !t)

/-- Equality as values: +0 = -0, NaN equal to nothing (R159). -/
def FVal.feq (a b : FVal) : Bool := a ≠ .nan && b ≠ .nan && !FVal.lt false a b && !FVal.lt false b a

/-- The minimum or maximum of R51 on patterns. -/
def Fmt.minmax (f : Fmt) (isMax : Bool) (a b : Nat) : Nat :=
  match f.decode a, f.decode b with
  | .nan, .nan => f.nan
  | .nan, _ => b
  | _, .nan => a
  | x, y => if FVal.lt true x y then (if isMax then b else a) else (if isMax then a else b)

/-- The largest integer not above a value, as a value (R50, R156). -/
def Fmt.floor (f : Fmt) (a : Nat) : Nat :=
  match f.decode a with
  | .nan => f.nan
  | .inf s => f.inf s
  | .fin s m e =>
    if m = 0 then f.zero s
    else if 0 ≤ e then a
    else
      let k := (-e).toNat
      let t := if s then (m + 2 ^ k - 1) / 2 ^ k else m / 2 ^ k
      if t = 0 then f.zero s else (f.round .rz s t 0).bits

/-- A value rounded to an integer in a mode and saturated to `lo` … `hi`; NaN gives 0 (R48). -/
def FVal.toInt (mode : RMode) (lo hi : Int) : FVal → Int
  | .nan => 0
  | .inf s => if s then lo else hi
  | .fin s m e =>
    let t := if 0 ≤ e then m * 2 ^ (min e 4096).toNat else shiftRound mode m (-e).toNat
    max lo (min hi ((if s then -1 else 1) * (t : Int)))

/-- An integer rounded to a format (R48). -/
def Fmt.ofInt (f : Fmt) (mode : RMode) (i : Int) : Rounded :=
  if i = 0 then { bits := 0, ev := Events.zero } else f.round mode (i < 0) i.natAbs 0

/-! ### Correctly rounded functions: fixed-point enclosures of growing precision (R50; DESIGN CHOICE, log 8) -/

/-- A signed fixed-point number n * 2^-p rounded. -/
def Fmt.roundFix (f : Fmt) (n : Int) (e : Int) : Rounded :=
  if n = 0 then { bits := f.zero false, ev := evUnf } else f.round .rne (n < 0) n.natAbs e

/-- Σ z^(2k+1)/(2k+1) in fixed point with `p` fraction bits, for z^2 = `z2`, from the term `t` and the divisor `d` on. -/
def atanhSum (p z2 : Nat) : Nat → Nat → Nat → Nat
  | 0, _, _ => 0
  | k + 1, t, d => t / d + atanhSum p z2 k (t * z2 / 2 ^ p) (d + 2)

/-- 2 * atanh(z) in fixed point. -/
def atanh2 (p z : Nat) : Nat := 2 * atanhSum p (z * z / 2 ^ p) (p / 3 + 4) z 1

/-- ln 2 in fixed point: 2 * atanh(1/3). -/
def ln2Fix (p : Nat) : Nat := atanh2 p (2 ^ p / 3)

/-- Σ y^k/k! in fixed point from term `t` of index `k` on. -/
def expSum (p y : Nat) : Nat → Nat → Nat → Nat
  | 0, _, _ => 0
  | i + 1, t, k => t + expSum p y i (t * y / 2 ^ p / (k + 1)) (k + 1)

/-- e^y for 0 ≤ y < 1 in fixed point. -/
def expFix (p y : Nat) : Nat := expSum p y (p / 4 + 16) (2 ^ p) 0

/-- The bound on the error of the enclosures, in units of the last place. -/
def encErr : Nat := 2 ^ 16

/-- The precisions tried, in order (DESIGN CHOICE, log 8). -/
def precisions : List Nat := [128, 256, 512, 1024, 2048]

/-- The first precision at which both ends of the enclosure round alike decides (DESIGN CHOICE, log 8). -/
def decideRound (f : Fmt) (enc : Nat → Int × Int) : List Nat → Rounded
  | [] => f.quiet
  | p :: ps =>
    let c := enc p
    let lo := f.roundFix (c.1 - encErr) c.2
    let hi := f.roundFix (c.1 + encErr) c.2
    if lo = hi || ps = [] then lo else decideRound f enc ps

/-- A dyadic number s*m*2^e in fixed point, rounded down. -/
def toFix (p : Nat) (neg : Bool) (m : Nat) (e : Int) : Int :=
  let x : Int := if neg then -(m : Int) else m
  if 0 ≤ e + p then x * 2 ^ (e + p).toNat else x / 2 ^ (-(e + p)).toNat

/-- 2^(s*m*2^e) rounded, for a non-zero exponent (R50, R220). -/
def Fmt.exp2Of (f : Fmt) (neg : Bool) (m : Nat) (e : Int) : Rounded :=
  if 13 ≤ (bitLen m : Int) + e then
    (if neg then { bits := 0, ev := evUnf } else { bits := f.inf false, ev := f.ovfEvent })
  else if 0 ≤ e || m % 2 ^ (-e).toNat = 0 then
    f.round .rne false 1 (toFix 0 neg m e)
  else
    decideRound f (fun p =>
      let x := toFix p neg m e
      let n := x / 2 ^ p
      let y := (x % 2 ^ p).toNat * ln2Fix p / 2 ^ p
      ((expFix p y : Int), n - p)) precisions

/-- e^(s*m*2^e) rounded, for a non-zero exponent (R50). -/
def Fmt.expOf (f : Fmt) (neg : Bool) (m : Nat) (e : Int) : Rounded :=
  if 12 ≤ (bitLen m : Int) + e then
    (if neg then { bits := 0, ev := evUnf } else { bits := f.inf false, ev := f.ovfEvent })
  else
    decideRound f (fun p =>
      let x := toFix p neg m e
      let l : Int := ln2Fix p
      let n := x / l
      ((expFix p (x - n * l).toNat : Int), n - p)) precisions

/-- The exponent e' and the fixed-point ln t of m * 2^e = t * 2^e', 1 ≤ t < 2. -/
def lnParts (p m : Nat) (e : Int) : Int × Nat :=
  let k := bitLen m - 1
  let z := (m - 2 ^ k) * 2 ^ p / (m + 2 ^ k)
  (e + k, atanh2 p z)

/-- ln of a positive value other than 1, rounded (R50). -/
def Fmt.lnOf (f : Fmt) (m : Nat) (e : Int) : Rounded :=
  decideRound f (fun p =>
    let r := lnParts p m e
    (r.1 * ln2Fix p + r.2, -(p : Int))) precisions

/-- log2 of a positive value, rounded; a power of two is exact (R50). -/
def Fmt.log2Of (f : Fmt) (m : Nat) (e : Int) : Rounded :=
  if m = 2 ^ (bitLen m - 1) then f.ofInt .rne (e + (bitLen m - 1 : Nat))
  else
    decideRound f (fun p =>
      let r := lnParts p m e
      (r.1 * 2 ^ p + (r.2 * 2 ^ p / ln2Fix p : Nat), -(p : Int))) precisions

/-- The exponential functions with their special cases (R50). -/
def Fmt.expLike (f : Fmt) (g : Bool → Nat → Int → Rounded) (a : Nat) : Rounded :=
  match f.decode a with
  | .nan => f.quiet
  | .inf true => { bits := 0, ev := Events.zero }
  | .inf false => { bits := f.inf false, ev := Events.zero }
  | .fin s m e => if m = 0 then (f.ofInt .rne 1) else g s m e

/-- The logarithms with their special cases (R49, R50). -/
def Fmt.logLike (f : Fmt) (g : Nat → Int → Rounded) (a : Nat) : Rounded :=
  match f.decode a with
  | .nan => f.quiet
  | .inf true => f.invalid
  | .inf false => { bits := f.inf false, ev := Events.zero }
  | .fin s m e =>
    if m = 0 then { bits := f.inf true, ev := Events.zero }
    else if s then f.invalid
    else if f.decode a = f.decode (f.ofInt .rne 1).bits then { bits := 0, ev := Events.zero }
    else g m e

/-- 2^A, e^A, log2 A, ln A rounded (R50). -/
def Fmt.exp2 (f : Fmt) (a : Nat) : Rounded := f.expLike f.exp2Of a
def Fmt.exp (f : Fmt) (a : Nat) : Rounded := f.expLike f.expOf a
def Fmt.log2 (f : Fmt) (a : Nat) : Rounded := f.logLike f.log2Of a
def Fmt.ln (f : Fmt) (a : Nat) : Rounded := f.logLike f.lnOf a

/-- The pairwise tree over a list of leaves (R52): each level joins adjacent pairs; `n` levels. -/
def pairTree (g : Nat → Nat → Rounded) : Nat → List Nat → Rounded
  | 0, l => { bits := l.headD 0, ev := Events.zero }
  | n + 1, l =>
    let a := pairTree g n (l.take (2 ^ n))
    let b := pairTree g n (l.drop (2 ^ n))
    let r := g a.bits b.bits
    { bits := r.bits, ev := (a.ev.plus b.ev).plus r.ev }

end Sys2Proof.Machine
end

