-- ==== Sys2Proof/Machine/Past.lean ====
section
/-! DEFINITION. Which write a plain read may return (R250-R253): happens-before as clocks, its scopes and release sides (R243-R249), the past
writes that a plain read may leave out, and the reads that a context has made of them (DESIGN CHOICE, log 60). -/

namespace Sys2Proof.Machine

open Sys2Proof

/-! ### Clocks -/

/-- The entry of a context in a clock raised to a number. -/
def raiseBelow : List (Party × Nat) → Party → Nat → List (Party × Nat)
  | [], p, n => [(p, n)]
  | (q, m) :: l, p, n => if q = p then (q, max m n) :: l else (q, m) :: raiseBelow l p n

/-- A clock with the requests of a context below a number. -/
def Clock.upTo (c : Clock) (p : Party) (n : Nat) : Clock := { c with below := raiseBelow c.below p n }

/-- A clock with writes that no request makes. -/
def Clock.withWrites (c : Clock) (l : List Nat) : Clock := { c with writes := c.writes ++ l.filter fun n => !c.writes.contains n }

/-- What happens before either of two points. -/
def Clock.join (a b : Clock) : Clock :=
  ({ a with below := b.below.foldl (fun l e => raiseBelow l e.1 e.2) a.below } : Clock).withWrites b.writes

/-- Whether a write is among what a clock holds (R250). -/
def Clock.holds (c : Clock) (w : Past) : Bool :=
  match w.by_ with
  | .ctx p r => c.below.any fun e => e.1 = p && r < e.2
  | _ => c.writes.contains w.num

/-! ### Scopes and sides -/

/-- The die quad of a core: four dies, two by two (R14). -/
def quadOf (c : CoreId) : Nat := (dieOf c).toNat / 16 * 4 + (dieOf c).toNat % 8 / 2

/-- Whether a scope covers two contexts of this module (R243). -/
def scopeCovers (sc : BitVec 3) (a b : Party) : Bool :=
  match sc.toNat with
  | 0 => a = b
  | 1 => a.1.core = b.1.core
  | 2 => vaultOf a.1.core = vaultOf b.1.core
  | 3 => clusterOf a.1.core = clusterOf b.1.core
  | 4 => dieOf a.1.core = dieOf b.1.core
  | 5 => quadOf a.1.core = quadOf b.1.core
  | _ => true

/-- What an acquire of a context at a scope learns from the release sides that its reads have met: each whose scope, like the acquire's, covers
both contexts (R247). -/
def learn (p : Party) (sc : BitVec 3) (l : List Side) : Clock :=
  l.foldl (fun c x => if scopeCovers x.scope x.by_ p && scopeCovers sc x.by_ p then c.join x.clk else c) Clock.zero

/-- The party that a slot's present task is. -/
def State.party (s : State) (o : SlotId) : Party := (o, (s.getSlot o).gen)

/-- The party that sent a request. -/
def Req.party (r : Req) : Party := ({ core := r.core, slot := r.slot }, r.gen)

/-- What happens before a release that the acting context performs now: its requests so far, and what its acquires have learned (R244). -/
def State.relClock (s : State) : Clock := s.slot.clk.upTo (s.party s.cur) s.nextId

/-- An acquire of a slot's task that learns a clock (R247, R248). -/
def State.acquires (s : State) (o : SlotId) (c : Clock) : State := s.onSlot o fun l => { l with clk := l.clk.join c }

/-! ### The clocks of objects -/

/-- The clock that a core keeps for an object or a queue entry. -/
def Core.markOf (c : Core) (k : MarkKey) : Clock := (tabGet? c.marks k).getD Clock.zero

/-- The core with such a clock set. -/
def Core.setMark (c : Core) (k : MarkKey) (v : Clock) : Core := { c with marks := tabPut c.marks k v }

/-- The clock kept for an object at a memory key. -/
def State.markOf (s : State) (f : Nat → MarkKey) (key : Nat) : Clock :=
  (homeCore key).elim Clock.zero fun c => (s.getCore c).markOf (f (key % 2 ^ 20))

/-- The state with the clock kept for an object set. -/
def State.setMark (s : State) (f : Nat → MarkKey) (key : Nat) (v : Clock) : State :=
  (homeCore key).elim s fun c => s.onCore c (·.setMark (f (key % 2 ^ 20)) v)

/-! ### Past writes -/

/-- The byte that a past write replaced at a key, where it wrote one. -/
def Past.byteAt (w : Past) (k : Nat) : Option Byte :=
  (w.old.find? fun p => p.1 ≤ k && k < p.1 + p.2.length).map fun p => p.2.getD (k - p.1) 0

/-- Whether write `v` happens before a later write `w` of the location: it is among what happens before `w`, or the same context, or the same
transfer, made it earlier (R183, R244, R250). -/
def Past.precedes (v w : Past) : Bool :=
  w.clk.holds v ||
    match v.by_, w.by_ with
    | .ctx p r, .ctx q t => p = q && r < t
    | .unit .copy p n, .unit .copy q m => p = q && n = m
    | _, _ => false

/-- Whether a read of context `p` happens after write `w`, or after a read of the context that returned `w` (R251, R253); `c` is what happens
before the read. -/
def Past.knownTo (w : Past) (p : Party) (c : Clock) : Bool :=
  c.holds w || w.readers.contains p ||
    match w.by_ with
    | .ctx q _ => q = p
    | _ => false

/-- The write that a read of the byte at a key returns without the writes that `out` leaves out, by their number from the newest on: the
byte, the write, the writes left out and the older ones; `b` is the byte above them. -/
def readPast (k : Nat) (out : Nat → Past → Bool) : List Past → Nat → Byte → Byte × Option Past × List Past × List Past
  | [], _, b => (b, none, [], [])
  | w :: ws, i, b =>
    match w.byteAt k with
    | none => readPast k out ws (i + 1) b
    | some old =>
      if out i w then
        let r := readPast k out ws (i + 1) old
        (r.1, r.2.1, w :: r.2.2.1, r.2.2.2)
      else (b, some w, [], ws)

/-- The byte that a plain read of a context may return without the writes of `skip`, and whether it is poisoned; nothing where R251 or R253
forbids the write that it would return: one that happens before a write left out, which the read comes after. -/
def State.staleByte (s : State) (p : Party) (c : Clock) (skip : List Nat) (k : Nat) : Option (Byte × Bool) :=
  let r := readPast k (fun i _ => skip.contains i) s.past 0 (memRead s.mem k)
  if r.2.2.1.all fun w => !w.knownTo p c || r.2.1.any fun v => !v.precedes w then
    some (r.1, s.poison.contains (k / 8) || r.2.2.1.any fun w => w.cleared.contains (k / 8))
  else none

/-- Whether a core's stores, or its matrix engine's, made a write: they update the line that it holds (R125, R176). -/
def Maker.updates (m : Maker) (c : CoreId) : Bool :=
  match m with
  | .ctx p _ => p.1.core = c
  | .unit .matrix p _ => p.1.core = c
  | _ => false

/-- Whether a plain read of the byte at a key by a core leaves out a write: one that `skip` numbers, or one applied since the core fetched the
line that it holds, which only its own stores update (R125, R256). -/
def State.leftOut (s : State) (c : CoreId) (skip : List Nat) (k i : Nat) (w : Past) : Bool :=
  skip.contains i || (homeCore k ≠ some c &&
    ((s.getCore c).rlb.find? (·.key = k / 64 * 64)).any fun l => l.at_ ≤ w.num && !w.by_.updates c)

/-- The past writes with the one that a read of the byte at a key returns marked as read by a context. -/
def markRead (p : Party) (out : Nat → Past → Bool) (k : Nat) : List Past → Nat → List Past
  | [], _ => []
  | w :: ws, i =>
    if (w.byteAt k).isNone || out i w then w :: markRead p out k ws (i + 1)
    else (if w.readers.contains p then w else { w with readers := p :: w.readers }) :: ws

/-- The keys of the bytes of pieces. -/
def pieceKeys (ps : List Piece) : List Nat := ps.flatMap fun q => (List.range q.len).map (q.key + ·)

/-- The writes that a read of pieces by a context returns, noted for its later reads (R253). -/
def State.noteReads (s : State) (p : Party) (out : Nat → Nat → Past → Bool) (ps : List Piece) : State :=
  { s with past := (pieceKeys ps).foldl (fun l k => markRead p (out k) k l 0) s.past }

/-- The release sides that a read of pieces meets: those of the write that it returns and, where an `amo`, `red` or `joinc` made it, those of
the older writes (R247). -/
def State.meets (s : State) (out : Nat → Nat → Past → Bool) (ps : List Piece) : List Side :=
  ((pieceKeys ps).flatMap fun k =>
    let r := readPast k (out k) s.past 0 0
    (r.2.1.elim [] fun w => w.sides ++ if w.rmw then (r.2.2.2.filter fun v => (v.byteAt k).isSome).flatMap (·.sides) else [])).eraseDups

/-- A read of own local memory that no request makes, noted (R253). -/
def State.noteOwn (s : State) (ps : List Piece) : State := s.noteReads (s.party s.cur) (fun _ _ _ => false) ps

/-- What made the writes from number `n` on, and what happens before them. -/
def State.madeBy (s : State) (n : Nat) (m : Maker) (c : Clock) (sides : List Side) (rmw : Bool) : State :=
  { s with past := s.past.map fun w => if n ≤ w.num then { w with by_ := m, clk := c, sides := sides, rmw := rmw } else w }

/-- The writes that the commands of a unit have made for a context so far; of a copy engine, those of one transfer. -/
def State.unitWrites (s : State) (u : UnitKind) (p : Party) (n : Option Nat) : List Nat :=
  s.past.filterMap fun w => match w.by_ with
    | .unit v q m => if v = u && q = p && (n.isNone || n = some m) then some w.num else none
    | _ => none

/-- The context that a command acts for (R241). -/
def Owner.party (w : Owner) (c : CoreId) : Party := ({ core := c, slot := w.slot }, w.gen)

/-- The state `t` with the writes that it has over `s` put down to a command of a unit, whose issue happens before them (R257). -/
def State.unitMade (s t : State) (u : UnitKind) (w : Owner) (c : CoreId) (n : Nat) : State :=
  t.madeBy s.writes (.unit u (w.party c) n) w.clk [] false

/-- The acting context's commands of a unit have returned to it: their writes happen before its later events (R257). -/
def State.joinsUnit (s : State) (u : UnitKind) : State :=
  s.modSlot fun l => { l with clk := l.clk.withWrites (s.unitWrites u (s.party s.cur) none) }

/-- The writes that `t` has over `s`. -/
def State.newWrites (s t : State) : List Nat := (List.range (t.writes - s.writes)).map (s.writes + ·)

end Sys2Proof.Machine
end

