-- ==== Sys2Proof/Machine/Translate.lean ====
section
/-! DEFINITION. Global addresses (R35), physical addresses and peer windows (R293, R376), the page tables and their walk
(R294-R297), the TLB (R298), and the checks of an access to translated space. -/

namespace Sys2Proof.Machine

open Sys2Proof

/-- The field of `n` bits at bit `lo` of a number. -/
def bits (w lo n : Nat) : Nat := w / 2 ^ lo % 2 ^ n

/-- What a global address names: a byte of a core's local memory through a window, or a virtual address (R35). -/
inductive Target where
  | loc (core : CoreId) (win : Nat) (off : Nat)
  | virt (va : Nat)
  deriving DecidableEq, Repr

/-- The bytes that an access of `n` bytes covers through a window: its element in windows 1 to 5 (R36). -/
def windowSpan (win n : Nat) : Nat := if win = 0 then n else if win = 3 || win = 4 then 2 else 1

/-- What a global address names, by its form alone: NONCANON for bits above 47, RSVD for a reserved space or window (R35). -/
def addrForm (me : CoreId) (ea : Word) : Except FKind Target :=
  let a := ea.toNat
  let space := bits a 44 4
  let win := bits a 20 4
  if bits a 48 16 ≠ 0 then .error .noncanon
  else if 8 ≤ space then .ok (.virt (bits a 0 47))
  else if 2 ≤ space then .error .rsvd
  else if space = 0 then
    if bits a 24 20 ≠ 0 || 7 ≤ win then .error .rsvd else .ok (.loc me win (bits a 0 20))
  else if bits a 42 2 ≠ 0 || 7 ≤ win then .error .rsvd
  else .ok (.loc (BitVec.ofNat 18 (bits a 24 18)) win (bits a 0 20))

/-- The checks that only need an address: NONCANON, RSVD, RANGE and ABSENT, in that order, with RANGE where one of the bytes that
`span` gives for its window lies at 0x60000 or above (R35). -/
def State.targetSpan (s : State) (me : CoreId) (ea : Word) (span : Nat → Nat) : Except FKind Target :=
  match addrForm me ea with
  | .error k => .error k
  | .ok (.virt va) => .ok (.virt va)
  | .ok (.loc c win off) =>
    if localSize < off + span win then .error .range
    else if c ≠ me && s.fenced (dieOf c) then .error .absent
    else .ok (.loc c win off)

/-- The checks that only need the address of `n` bytes; RANGE where any byte lies at 0x60000 or above (R35; DEDUCED, log 15). -/
def State.target (s : State) (me : CoreId) (ea : Word) (n : Nat := 1) : Except FKind Target :=
  s.targetSpan me ea fun win => windowSpan win n

/-- A peer window of the host's table (R376). -/
def State.peerWindow (s : State) (w : Nat) : Nat := ((tabGet? s.bar0.peerwin (BitVec.ofNat 8 w)).getD 0).toNat

/-- Whether a physical address exists, and whether the tenant may use the peer window it names (R293, R376). -/
def State.paCheck (s : State) (tenant : BitVec 12) (pa : Nat) : Option FKind :=
  match bits pa 46 2 with
  | 0 => if bits pa 42 4 ≠ 0 || s.fenced (BitVec.ofNat 6 (bits pa 36 6)) then some .absent else none
  | 1 => none
  | 2 =>
    let e := s.peerWindow (bits pa 38 8)
    if bits e 63 1 = 0 || (bits e 96 22 + 1) * 65536 ≤ bits pa 0 38 then some .absent
    else if bits e 0 12 ≠ tenant.toNat then some .tenant
    else none
  | _ => some .absent

/-- The memory key of a physical address that exists: one in a peer window is a place of the peer, so that windows on one range name
the same bytes (R376). -/
def State.paKey (s : State) (pa : Nat) : Nat :=
  if bits pa 46 2 = 2 then
    let e := s.peerWindow (bits pa 38 8)
    peerKey (BitVec.ofNat 16 (bits e 32 16)) (bits e 64 32 * 65536 + bits pa 0 38)
  else pa

/-- Whether a physical address is DRAM of this module that is present (R293, R294). -/
def State.isDram (s : State) (pa : Nat) : Bool :=
  pa < 2 ^ 48 && bits pa 42 6 == 0 && !s.fenced (BitVec.ofNat 6 (bits pa 36 6))

/-- Why a walk fails (R297, R308). -/
inductive WalkFail where
  | absent | poison
  deriving DecidableEq, Repr

/-- A page-table entry, poison met (R308). -/
def State.ptEntry (s : State) (pa : Nat) : Except WalkFail Nat :=
  match s.poisonAt pa 8 with
  | some _ => .error .poison
  | none => .ok (s.rd pa 8)

/-- The next table of a pointer entry whose next table has `align` bytes (R295). -/
def State.ptPointer (s : State) (e align : Nat) : Except WalkFail Nat :=
  let next := bits e 8 40 * 256
  if bits e 0 1 = 1 && bits e 1 1 = 0 && bits e 2 6 = 0 && bits e 48 16 = 0 && next % align = 0 && s.isDram next then .ok next
  else .error .absent

/-- Whether a leaf entry passes step 2 of R297 for a page of `size` bytes. -/
def leafOk (e size : Nat) : Bool :=
  bits e 0 1 == 1 && bits e 1 1 == 1 && bits e 10 6 == 0 && bits e 60 4 == 0 && bits e 6 3 < 6 &&
    (size == 65536 || bits e 16 5 == 0)

/-- The physical address a leaf gives (R296). -/
def leafPa (leaf : Word) (size va : Nat) : Nat := bits leaf.toNat 16 32 * 65536 / size * size + va % size

/-- A leaf entry as a TLB entry, its frame checked by R293. -/
def State.ptLeaf (s : State) (e size va : Nat) : Except WalkFail TlbEntry :=
  let leaf := BitVec.ofNat 64 e
  if leafOk e size && s.paCheck (BitVec.ofNat 12 (bits e 48 12)) (leafPa leaf size va) ≠ some .absent then
    .ok { va := va / size * size, size := size, leaf := leaf }
  else .error .absent

/-- The bit of a virtual address at which the index of a level begins (R294). -/
def levelShift : Nat → Nat
  | 1 => 39
  | 2 => 30
  | _ => 21

/-- The bytes of the table that a pointer of a level names (R294). -/
def nextSize : Nat → Nat
  | 3 => 256
  | _ => 4096

/-- The table that the walk cache of a die holds for a level of a virtual address (R298). -/
def State.cachedTable (s : State) (d : Option Die) (root : Word) (level va : Nat) : Option Nat :=
  d.bind fun d =>
    (((tabGet? s.walkCache d).getD []).find? fun e =>
      e.root = root && e.level = level && e.tag = va / 2 ^ levelShift level).map (·.next)

/-- The pointer entry of a level in a table, as the walk cache will hold it. -/
def State.pointerAt (s : State) (root : Word) (level va table : Nat) : Except WalkFail WalkEntry := do
  let a := table + 8 * bits va (levelShift level) (if level = 1 then 8 else 9)
  let e ← s.ptEntry a
  let next ← s.ptPointer e (nextSize level)
  .ok { root := root, level := level, tag := va / 2 ^ levelShift level, at_ := a, next := next }

/-- The table that follows a number of levels of a walk, from the walk cache as far as it holds it, with the entries read (R298). -/
def State.tableAfter (s : State) (d : Option Die) (root : Word) (va : Nat) : Nat → Except WalkFail (Nat × List WalkEntry)
  | 0 => .ok (root.toNat, [])
  | l + 1 =>
    match s.cachedTable d root (l + 1) va with
    | some t => .ok (t, [])
    | none => do
      let (t, es) ← s.tableAfter d root va l
      let e ← s.pointerAt root (l + 1) va t
      .ok (e.next, e :: es)

/-- The walk of a tenant's page tables for a virtual address by a walker of a die, with the pointer entries that it read; a walk
without a die, as the launcher's, uses no walk cache (R294, R297 step 2, R298). -/
def State.walk (s : State) (d : Option Die) (ptroot : Word) (va : Nat) : Except WalkFail (TlbEntry × List WalkEntry) := do
  let root := ptroot.toNat
  if root % 2048 ≠ 0 || !s.isDram root then .error .absent
  else
    let leaf := fun (t4 : Nat) (es : List WalkEntry) => do
      let e4 ← s.ptEntry (t4 + 8 * bits va 16 5)
      let t ← s.ptLeaf e4 65536 va
      .ok (t, es)
    match s.cachedTable d ptroot 3 va with
    | some t4 => leaf t4 []
    | none =>
      let (t3, es) ← s.tableAfter d ptroot va 2
      let e3 ← s.ptEntry (t3 + 8 * bits va 21 9)
      if bits e3 0 2 = 3 then do
        let t ← s.ptLeaf e3 (2 ^ 21) va
        .ok (t, es)
      else
        let e ← s.pointerAt ptroot 3 va t3
        leaf e.next (e :: es)

/-- The pointer entries that a walk has read put into the walk cache of its die, which holds 128 (R298) (DESIGN CHOICE, log 46). -/
def State.cacheWalk (s : State) (d : Die) (es : List WalkEntry) : State :=
  if es.isEmpty then s
  else { s with walkCache := tabPut s.walkCache d ((es ++ ((tabGet? s.walkCache d).getD []).filter fun e => !es.contains e).take 128) }

/-- The TLB entry that maps a virtual address (R298). -/
def Core.tlbFind (c : Core) (va : Nat) : Option TlbEntry := c.tlb.find? fun e => e.va ≤ va && va < e.va + e.size

/-- The TLB with an entry as its most recently used one, at most 64 held (R298). -/
def Core.tlbUse (c : Core) (e : TlbEntry) : Core := { c with tlb := (e :: c.tlb.filter (· ≠ e)).take 64 }

/-- The permissions an access needs; X is the launcher's when it loads a code image (R296, R297). -/
inductive Perm where
  | r | w | rw | vc | x
  deriving DecidableEq, Repr

/-- Whether a leaf grants a permission: R, W, both, R and VC, or R and X (R296, R297). -/
def permOk (leaf : Word) : Perm → Bool
  | .r => leaf.getLsbD 2
  | .w => leaf.getLsbD 3
  | .rw => leaf.getLsbD 2 && leaf.getLsbD 3
  | .vc => leaf.getLsbD 2 && leaf.getLsbD 5
  | .x => leaf.getLsbD 2 && leaf.getLsbD 4

/-- Steps 2 (the peer window), 3 and 4 of R297 on a held entry: its tenant and permissions are checked at every use (R298). The
memory key of the byte. -/
def State.useEntry (s : State) (c : Core) (e : TlbEntry) (va : Nat) (p : Perm) : Except FKind Nat :=
  let pa := leafPa e.leaf e.size va
  match s.paCheck c.tenant pa with
  | some k => .error k
  | none =>
    if bits e.leaf.toNat 48 12 ≠ c.tenant.toNat then .error .tenant
    else if permOk e.leaf p then .ok (s.paKey pa) else .error .perm

/-- A walk sent for a page of `size` bytes, unless one for it or four of the core are outstanding (R298). -/
def State.sendWalk (s : State) (c : CoreId) (va size : Nat) : State :=
  let mine := s.walks.filter (·.core = c)
  if mine.any (fun w => w.va / size = va / size) || 4 ≤ mine.length then s
  else State.fresh { s with walks := s.walks ++ [{ id := s.nextId, core := c, va := va }] }

/-- Whether a walker serves a walk: it is one of the sixteen oldest of its die (R298). -/
def State.walkServed (s : State) (w : Walk) : Bool :=
  ((s.walks.filter fun v => dieOf v.core = dieOf w.core).take 16).contains w

/-- The translation of an address by the acting context: a TLB hit is checked and used; a miss whose walk fails faults; any
other miss waits for the walk (R123, R297, R298). -/
def State.translate (s : State) (ea : Word) (va : Nat) (p : Perm) : Body (State × Nat × Word) :=
  match s.core.tlbFind va with
  | some e =>
    match s.useEntry s.core e va p with
    | .ok pa => .ok (s.modCore (·.tlbUse e), pa, e.leaf)
    | .error k => trapFault k ea
  | none =>
    match s.walk (some (dieOf s.cur.core)) s.core.ptroot va with
    | .error .absent => .error (.walked FKind.absent.scause ea)
    | .error .poison => .error (.walked cPOISON (BitVec.ofNat 64 va))
    | .ok (e, _) => waitHere (s.sendWalk s.cur.core va e.size) 6

/-- What an engine access of a core finds for a virtual address: the TLB entry, held or walked for at once, and the pointer entries
that the walk read (R298). -/
def State.engineEntry (s : State) (c : Core) (va : Nat) : Except (BitVec 16) (TlbEntry × List WalkEntry) :=
  match c.tlbFind va with
  | some e => .ok (e, [])
  | none =>
    match s.walk (some (dieOf c.id)) c.ptroot va with
    | .ok r => .ok r
    | .error .absent => .error FKind.absent.scause
    | .error .poison => .error cPOISON

/-! ### Frames to peers -/

/-- V, INC and PEER of a peer window (R376). -/
def State.windowOn (s : State) (w : BitVec 8) : Bool := bits (s.peerWindow w.toNat) 63 1 = 1
def State.windowInc (s : State) (w : BitVec 8) : BitVec 8 := BitVec.ofNat 8 (bits (s.peerWindow w.toNat) 48 8)
def State.windowPeer (s : State) (w : BitVec 8) : BitVec 16 := BitVec.ofNat 16 (bits (s.peerWindow w.toNat) 32 16)

/-- The scale-out ports of the I/O dies that are not fenced, four of each (R375, R388). -/
def State.synelmPorts (s : State) : List (BitVec 5) :=
  ((List.range 32).map (BitVec.ofNat 5)).filter fun p =>
    match tabGet? s.auth (DieId.io (BitVec.ofNat 3 (p.toNat / 4))) with
    | some (.fenced, _) => false
    | _ => true

/-- The port that carries a request for a physical address: chosen from PA[13:6] among the ports present (R375, R388; DESIGN CHOICE,
log 14). -/
def State.synelmPort (s : State) (pa : Nat) : BitVec 5 := s.synelmPorts.getD (bits pa 6 8 % max 1 s.synelmPorts.length) 0

/-- A frame sent to a peer for a physical address, with this module's id and incarnation, and the core and the request that it serves
(R378). -/
def State.sendFrame (s : State) (w : BitVec 8) (pa : Nat) (b : FrameBody) (core : Option CoreId := none) (req : Option Nat := none) :
    State :=
  { s with peerFrames := s.peerFrames ++
      [{ port := s.synelmPort pa, core := core, req := req,
         frame := { window := w, sender := s.bar0.modid, inc := s.bar0.inc, body := b } }] }

/-- The window through which this module knows a physical address of a peer (R376). -/
def State.windowTo (s : State) (m : BitVec 16) (pa : Nat) : BitVec 8 :=
  ((((List.range 256).map (BitVec.ofNat 8)).find? fun w =>
    let e := s.peerWindow w.toNat
    s.windowOn w && s.windowPeer w = m && bits e 64 32 * 65536 ≤ pa && pa < (bits e 64 32 + bits e 96 22 + 1) * 65536)).getD 0

/-- The physical address of a peer that a key of its memory names (R376). -/
def peerPa (k : Nat) : Nat := (k - 2 ^ 64) % 2 ^ 50

/-- A request for the byte at a key of a peer's memory sent in a frame, on the port and through the window of its own address, under the
number of the request that it serves or one of its own; nothing is sent for a key of this module (R375-R378). -/
def State.sendPeer (s : State) (core : CoreId) (req : Option Nat) (k : Nat) (b : BitVec 48 → FrameBody) : State :=
  match peerOf k with
  | none => s
  | some m =>
    let t := s.sendFrame (s.windowTo m (peerPa k)) (peerPa k) (b (BitVec.ofNat 48 (peerPa k))) (some core) (some (req.getD s.nextId))
    if req.isNone then State.fresh t else t

/-- The frames of an engine's or a stream's reads of `n` bytes at each of some keys (R377). -/
def State.framesRead (s : State) (core : CoreId) (ks : List (Nat × Nat)) : State :=
  ks.foldl (fun s k => s.sendPeer core none k.1 fun pa => .read pa k.2) s

/-- The frames of an engine's writes (R377). -/
def State.framesWrite (s : State) (core : CoreId) (ps : List (Nat × List Byte)) : State :=
  ps.foldl (fun s p => s.sendPeer core none p.1 fun pa => .write pa p.2) s

end Sys2Proof.Machine
end

