-- ==== Sys2Proof/Machine/Requests.lean ====
section
/-! DEFINITION. Requests in flight (R242): sending one, the stores of a context that its home has not applied yet (R245), the
windows' codecs (R36, R38), and the place an access names after its checks (R35, R37, R123). -/

namespace Sys2Proof.Machine

open Sys2Proof

/-- The slot of a request. -/
def Req.slotId (r : Req) : SlotId := { core := r.core, slot := r.slot }

/-- Whether a request belongs to a slot's present task. -/
def Req.ofSlot (r : Req) (o : SlotId) : Bool := r.core = o.core && r.slot = o.slot

/-- The pieces that a request writes at its home. -/
def Req.writes (r : Req) : List Piece :=
  match r.op with
  | .store ps _ => ps.map fun p => { key := p.1, len := p.2.length }
  | .jst k _ j =>
    { key := k, len := 8 } ::
      (match j with
       | some (off, _, _) => [{ key := localKey r.core off.toNat, len := 32 }]
       | none => [])
  | .amo p _ _ _ _ _ => [p]
  | .red p _ _ => [p]
  | .joinc k _ => [{ key := k, len := 8 }]
  | .cbinit k _ => [{ key := k, len := 16 }]
  | .cbarrive k => [{ key := k, len := 16 }]
  | .cbexpect k _ => [{ key := k, len := 16 }]
  | .nbinit k n => [{ key := k, len := 128 + 16 * n }]
  | .postv k i _ _ _ _ => [{ key := k, len := 128 }, { key := k + 128 + 16 * i, len := 16 }]
  | _ => []

/-- The pieces that a request reads at its home. -/
def Req.reads (r : Req) : List Piece :=
  match r.op with
  | .load p _ _ _ => [p]
  | .vload ls _ _ _ _ => ls.map (·.piece)
  | .acq p _ _ => [p]
  | .amo p _ _ _ _ _ => [p]
  | .red p _ _ => [p]
  | .joinc k _ => [{ key := k, len := 8 }]
  | .jst k _ _ => [{ key := k, len := 8 }]
  | .cbwait k _ _ _ => [{ key := k, len := 16 }]
  | .postv k _ _ _ _ _ => [{ key := k, len := 128 }]
  | .nbread k _ => [{ key := k, len := 128 }]
  | _ => []

/-- Whether two pieces share a byte. -/
def Piece.meets (a b : Piece) : Bool := a.key < b.key + b.len && b.key < a.key + a.len

/-- Whether two lists of pieces share a byte. -/
def piecesMeet (a b : List Piece) : Bool := a.any fun x => b.any fun y => x.meets y

/-- Whether a request is a store, `amo`, `red` or `joinc`, which releases, fences and engine starts wait for (R128, R168). -/
def Req.isStoreLike (r : Req) : Bool :=
  match r.op with
  | .store _ _ => true
  | .jst _ _ _ => true
  | .amo _ _ _ _ _ _ => true
  | .red _ _ _ => true
  | .joinc _ _ => true
  | _ => false

/-- Whether a request is a load that must complete before a release (R128). -/
def Req.isLoadLike (r : Req) : Bool :=
  match r.op with
  | .load _ _ _ _ => true
  | .vload _ _ _ _ _ => true
  | .acq _ _ _ => true
  | .nbread _ _ => true
  | .cbwait _ _ _ _ => true
  | .postv _ _ _ _ _ _ => true
  | _ => false

/-- Whether its context issues nothing until the request completes (R123, R128, R132, R165), as it does until the element of a load into
an output stream is pushed (R25). -/
def Req.blocks (r : Req) : Bool :=
  match r.op with
  | .vload _ _ _ push _ => push
  | .acq _ _ _ => true
  | .amo _ _ _ _ _ _ => true
  | .joinc _ _ => true
  | .cbinit _ _ => true
  | .cbwait _ _ _ _ => true
  | .nbinit _ _ => true
  | .postv _ _ _ _ _ _ => true
  | .nbread _ _ => true
  | .rand _ _ _ _ _ => true
  | _ => false

/-- Whether the wait for a request is a `wait until` of R9, in which a pending cause is taken (R150). A `cbinit` or `nbinit` that its home
has applied takes none until its acknowledgement: R150 would have the cause taken at once in that wait too, and R9 then no part of the
instruction performed (DESIGN CHOICE, log 74). -/
def Req.interruptible (r : Req) : Bool :=
  match r.op with
  | .cbinit _ _ => !r.applied
  | .cbwait _ _ _ _ => true
  | .nbinit _ _ => !r.applied
  | _ => false

/-- The requests of a slot's present task. -/
def State.reqsOf (s : State) (o : SlotId) : List Req := s.reqs.filter fun r => r.ofSlot o && r.gen = (s.getSlot o).gen

/-- Whether a piece lies in the local memory of the core that sent the request. -/
def Req.ownPiece (r : Req) (p : Piece) : Bool := localKey r.core 0 ≤ p.key && p.key < localKey r.core localSize

/-- Whether a request is a `cbarrive` or `cbexpect`, which its context issues past (R139). -/
def Req.isBarrierSend (r : Req) : Bool :=
  match r.op with
  | .cbarrive _ => true
  | .cbexpect _ _ => true
  | _ => false

/-- Whether a store, atomic, reduction or barrier operation has been performed at scope `sc`: acknowledged by the own local memory for
scope 0 or 1 and an own-local access (R128, R135). -/
def Req.performedAt (r : Req) (sc : BitVec 3) : Bool :=
  (r.isStoreLike || r.isBarrierSend) && r.applied && sc ≤ 1 && r.writes.all r.ownPiece

/-- Whether every load of the context before request number `n` has completed, and every store, `amo`, `red` and `joinc` before
it has been performed at scope `sc` (R128). -/
def State.releasedBefore (s : State) (o : SlotId) (n : Nat) (sc : BitVec 3) : Bool :=
  (s.reqsOf o).all fun r => n ≤ r.id || !(r.isStoreLike || r.isLoadLike) || r.performedAt sc

/-- Whether the context may perform a release at module scope now (R128, R139). -/
def State.released (s : State) (o : SlotId) : Bool := s.releasedBefore o s.nextId 6

/-- Whether every memory event of the context so far is done: its loads have completed, and its stores, atomics, reductions, `joinc` and
barrier operations have been performed at scope `sc` (R135, and the release-fence row of R244). -/
def State.eventsDone (s : State) (o : SlotId) (sc : BitVec 3) : Bool := (s.reqsOf o).all fun r => r.performedAt sc

/-- Whether every earlier load, atomic and barrier or board read of the context has completed (R135). -/
def State.loadsDone (s : State) (o : SlotId) : Bool := (s.reqsOf o).all fun r => !r.isLoadLike && !r.blocks

/-- The wait of an instruction that is a release (R128, R139, R142, R214). -/
def needReleased (s : State) : Body Unit := if s.released s.cur then .ok () else waitHere s 6

/-- A request of the acting context, with the clocks that go with it (log 60). -/
def State.newReq (s : State) (ea : Word) (op : ReqOp) (applied : Bool) (res : ReqRes) : Req :=
  let r : Req :=
    { id := s.nextId, core := s.cur.core, slot := s.cur.slot, gen := s.slot.gen, pc := s.slot.pc, ea := ea, op := op, applied := applied,
      registered := false, merged := none, res := res, fpEvents := 0, peers := [], clk := s.slot.clk, sides := s.slot.fences,
      got := Clock.zero, met := [] }
  if r.isStoreLike then { r with clk := r.clk.join s.slot.castled } else r

/-- Send a request for the acting context (DESIGN CHOICE, log 6). -/
def State.send (s : State) (ea : Word) (op : ReqOp) : State :=
  State.fresh { s with reqs := s.reqs ++ [s.newReq ea op false .none] }

/-- Send a request that needs no home, its answer with it (R165, R240). -/
def State.sendAnswered (s : State) (ea : Word) (op : ReqOp) (res : ReqRes) : State :=
  State.fresh { s with reqs := s.reqs ++ [s.newReq ea op true res] }

/-- Bytes overlaid with the written bytes of a piece list. -/
def overlay (k : Nat) (bs : List Byte) (ps : List (Nat × List Byte)) : List Byte :=
  (List.range bs.length).map fun i =>
    ps.foldl (fun b p => if p.1 ≤ k + i && k + i < p.1 + p.2.length then p.2.getD (k + i - p.1) b else b) (bs.getD i 0)

/-- The written bytes of a store that its home has not applied. -/
def Req.pendingBytes (r : Req) : List (Nat × List Byte) :=
  match r.op with
  | .store ps _ => if r.applied then [] else ps
  | .jst k v _ => if r.applied then [] else [(k, natBytes 8 v.toNat)]
  | _ => []

/-- Bytes of memory as a context's own earlier stores leave them (R245). -/
def State.ctxRead (s : State) (o : SlotId) (k n : Nat) : List Byte :=
  overlay k (memReads s.mem k n) ((s.reqsOf o).flatMap Req.pendingBytes)

/-- The first granule among `n` bytes at a key that a read of the context finds poisoned: not one that an earlier store of it, still on its
way, replaces whole (R244, R307). -/
def State.ctxPoison (s : State) (o : SlotId) (k n : Nat) : Option Nat :=
  s.poison.find? fun g => k < 8 * g + 8 && 8 * g < k + n && !covers ((s.reqsOf o).flatMap Req.pendingBytes) g

/-- Whether a request is a plain store, whose bytes its own context sees before the home has applied it (R245). -/
def Req.isStore (r : Req) : Bool :=
  match r.op with
  | .store _ _ => true
  | _ => false

/-- Whether a read of a piece must wait for a request of the same context that its home has not applied: an earlier read of a
byte of it, or an earlier write that is no plain store (R244, R245, R253). -/
def Req.delays (r : Req) (p : Piece) : Bool :=
  !r.applied && (piecesMeet r.reads [p] || (!r.isStore && piecesMeet r.writes [p]))

/-- A synchronous read of the acting context's own local memory, for messages, blocks and draw tables (R65, R168, R206):
poison traps, and an access of the context still on its way to these bytes is waited for. -/
def readOwn (s : State) (off n : Nat) : Body (List Byte) :=
  let k := localKey s.cur.core off
  if (s.reqsOf s.cur).any (·.delays { key := k, len := n }) then waitHere s 6
  else match s.ctxPoison s.cur k n with
    | some g => trapPoison (BitVec.ofNat 64 (8 * g - localKey s.cur.core 0))
    | none => .ok (s.ctxRead s.cur k n)

/-- A little-endian value of such a read. -/
def readOwnNat (s : State) (off n : Nat) : Body Nat := do
  let bs ← readOwn s off n
  .ok (leNat bs)

/-! ### Windows -/

/-- The window of a number 0 to 5 (R36). -/
def windowOf : Nat → Window
  | 1 => .e4m3
  | 2 => .e5m2
  | 3 => .bf16
  | 4 => .fp16
  | 5 => .int8
  | _ => .raw

/-- The memory width per element: 4 in window 0 (R36, R130). -/
def Window.width : Window → Nat
  | .raw => 4
  | .e4m3 => 1
  | .e5m2 => 1
  | .bf16 => 2
  | .fp16 => 2
  | .int8 => 1

/-- An element widened exactly to 32 bits (R36, R46). -/
def Window.widen (w : Window) (v : Nat) : Word32 :=
  match w with
  | .raw => BitVec.ofNat 32 v
  | .e4m3 => BitVec.ofNat 32 (fp32.convert .rne (fmtE4m3.decode v)).bits
  | .e5m2 => BitVec.ofNat 32 (fp32.convert .rne (fmtE5m2.decode v)).bits
  | .bf16 => BitVec.ofNat 32 (fp32.convert .rne (fmtBf16.decode v)).bits
  | .fp16 => BitVec.ofNat 32 (fp32.convert .rne (fmtFp16.decode v)).bits
  | .int8 => (BitVec.ofNat 8 v).signExtend 32

/-- Saturation to −128 … 127 (R48). -/
def satInt8 (v : Word32) : Int := max (-128) (min 127 v.toInt)

/-- An element narrowed for a store: its value and its events (R36, R38, R48). -/
def Window.narrow (w : Window) (mode : RMode) (v : Word32) : Rounded :=
  match w with
  | .raw => { bits := v.toNat, ev := Events.zero }
  | .e4m3 => fmtE4m3.convert mode (fp32.decode v.toNat)
  | .e5m2 => fmtE5m2.convert mode (fp32.decode v.toNat)
  | .bf16 => fmtBf16.convert mode (fp32.decode v.toNat)
  | .fp16 => fmtFp16.convert mode (fp32.decode v.toNat)
  | .int8 => { bits := (BitVec.ofInt 8 (satInt8 v)).toNat, ev := if satInt8 v = v.toInt then Events.zero else evInt8 }

/-- Whether a narrowing store through the window rounds, and so draws in SR mode (R38, R63). -/
def Window.rounds : Window → Bool
  | .raw => false
  | .int8 => false
  | _ => true

/-! ### Random draws (R63-R66) -/

/-- One round of Philox4x32 (R64). -/
def philoxRound (k0 k1 c0 c1 c2 c3 : Nat) : Nat × Nat × Nat × Nat :=
  let p := 0xD2511F53 * c0
  let q := 0xCD9E8D57 * c2
  ((q / 2 ^ 32) ^^^ c1 ^^^ k0, q % 2 ^ 32, (p / 2 ^ 32) ^^^ c3 ^^^ k1, p % 2 ^ 32)

/-- `n` rounds of Philox (R64). -/
def philox : Nat → Nat → Nat → Nat × Nat × Nat × Nat → Nat × Nat × Nat × Nat
  | 0, _, _, c => c
  | n + 1, k0, k1, (c0, c1, c2, c3) =>
    philox n ((k0 + 0x9E3779B9) % 2 ^ 32) ((k1 + 0xBB67AE85) % 2 ^ 32) (philoxRound k0 k1 c0 c1 c2 c3)

/-- The Philox draw of a key, a counter word, a core and a slot (R64). -/
def philoxDraw (seed ctr : Word) (core : CoreId) (slot : SlotNo) : Word :=
  let r := philox 10 (seed.toNat % 2 ^ 32) (seed.toNat / 2 ^ 32)
    (ctr.toNat % 2 ^ 32, ctr.toNat / 2 ^ 32, core.toNat * 16 + slot.toNat, 0)
  BitVec.ofNat 64 (r.2.1 * 2 ^ 32 + r.1)

/-- One draw of the acting context's generator, which advances (R63-R65). -/
def draw (s : State) : Body (State × Word) :=
  let l := s.slot
  if l.rsrc then
    if l.rtlen = 0 then trapFault .range (l.rtbase.setWidth 64)
    else if l.rtbase.toNat % 8 ≠ 0 then trapFault .align (l.rtbase.setWidth 64)
    else
      let off := l.rtbase.toNat + 8 * l.rtidx.toNat
      if localSize ≤ off then trapFault .range (BitVec.ofNat 64 off)
      else do
        let v ← readOwnNat s off 8
        let s := s.noteOwn [{ key := localKey s.cur.core off, len := 8 }]
        .ok (s.modSlot fun l => { l with rtidx := BitVec.ofNat 16 ((l.rtidx.toNat + 1) % l.rtlen.toNat) }, BitVec.ofNat 64 v)
  else .ok (s.modSlot fun l => { l with rctr := l.rctr + 1 }, philoxDraw s.core.seed l.rctr s.cur.core s.cur.slot)

/-- `n` draws in order. -/
def draws (s : State) : Nat → Body (State × List Word)
  | 0 => .ok (s, [])
  | n + 1 => do
    let (s, w) ← draw s
    let (s, ws) ← draws s n
    .ok (s, w :: ws)

/-- The rounding mode that draw `w` gives (R45). -/
def srMode (w : Word) : RMode := .sr (w.toNat / 2 ^ 56)

/-- The rounding modes of `n` elements: draws in SR mode, RNE else (R38, R63). -/
def modes (s : State) (sr : Bool) (n : Nat) : Body (State × List RMode) :=
  if sr then do
    let (s, ws) ← draws s n
    .ok (s, ws.map srMode)
  else .ok (s, List.replicate n .rne)

/-! ### Places -/

/-- Where an access lies after its checks: the memory key of its first byte, and its window (R35). -/
structure Place where
  key : Nat
  win : Window
  deriving DecidableEq, Repr

/-- The place of a scalar access of `n` bytes; `ld`, `st` of 32 bits may use windows 1 to 5 (R37, R123). -/
def scalarPlace (s : State) (ea : Word) (n : Nat) (p : Perm) (windows : Bool) : Body (State × Place) :=
  match s.target s.cur.core ea n with
  | .error k => trapFault k ea
  | .ok (.loc c win off) =>
    if win = 6 || (win ≠ 0 && !windows) then trapFault .window ea
    else
      let w := windowOf win
      let width := if win = 0 then n else w.width
      if off % width ≠ 0 then trapFault .align ea
      else .ok (s, { key := localKey c off, win := w })
  | .ok (.virt va) =>
    if va % n ≠ 0 then trapFault .align ea
    else do
      let (s, pa, _) ← s.translate ea va p
      .ok (s, { key := pa, win := .raw })

/-- The bytes a scalar place covers for an access of `n` bytes. -/
def Place.piece (p : Place) (n : Nat) : Piece := { key := p.key, len := if p.win = .raw then n else p.win.width }

/-- The own-local offset that a block, message or record operand names: the forms of R35, then own local memory and window 0, else
PLACE, whatever the window (DEDUCED, log 50), then ALIGN (R144, R168, R206). -/
def ownOffset (s : State) (a : Word) (align : Nat) (size : Nat := 1) : Body Nat :=
  match s.target s.cur.core a size with
  | .error k => trapFault k a
  | .ok (.loc c win off) =>
    if c ≠ s.cur.core then trapFault .place a
    else if win ≠ 0 then trapFault .place a
    else if off % align ≠ 0 then trapFault .align a
    else .ok off
  | .ok (.virt _) => trapFault .place a

/-- The own-local offset of a `jst`: PLACE before the checks of R35 for 8 bytes (R129) (DEDUCED, log 50). -/
def jstOffset (s : State) (ea : Word) : Body Nat :=
  let a := ea.toNat
  if a / 2 ^ 20 ≠ 0 && a / 2 ^ 20 ≠ 2 ^ 24 + s.cur.core.toNat * 16 then trapFault .place ea
  else if localSize < a % 2 ^ 20 + 8 then trapFault .range ea
  else if a % 8 ≠ 0 then trapFault .align ea
  else .ok (a % 2 ^ 20)

/-- The key of an object in own or remote local memory through window 0: PLACE for another space, and WINDOW through windows 1 to 6
(R134, R137) (DEDUCED, log 50). -/
def localObject (s : State) (a : Word) (align size : Nat) : Body Nat :=
  match s.target s.cur.core a size with
  | .error k => trapFault k a
  | .ok (.loc c win off) =>
    if win ≠ 0 then trapFault .window a
    else if off % align ≠ 0 then trapFault .align a
    else .ok (localKey c off)
  | .ok (.virt _) => trapFault .place a

end Sys2Proof.Machine
end

