-- ==== Sys2Proof/Machine/Operands.lean ====
section
/-! DEFINITION. Operand forms: the issue rule (R21, R23), stream registers as sources and destinations (R25, R155, R194), the
results that a context leaves in its registers, and the immediates of R69. -/

namespace Sys2Proof.Machine

open Sys2Proof

/-- A register that the issue rule looks at (R21). -/
inductive Reg where
  | x (n : XReg)
  | v (n : VReg)
  deriving DecidableEq, Repr

/-- The register number of R23. -/
def Reg.number : Reg → Nat
  | .x n => n.toNat
  | .v n => 32 + n.toNat

/-- Whether a source register is empty: its bit, or an input stream with no element ready (R21, R25). -/
def Slot.srcEmpty (l : Slot) : Reg → Bool
  | .x n => !l.xIsFull n
  | .v n =>
    match l.streamOf n with
    | some i => !l.sd.getLsbD i.val && (l.streams[i]).pre.isEmpty
    | none => !l.vIsFull n

/-- How many pushed elements of an output stream may be on their way (DESIGN CHOICE, log 16). -/
def pushLimit : Nat := 4

/-- The pushed elements of a stream still unacknowledged: the stores of the slot whose request names the stream's base. -/
def State.pushesOut (s : State) (o : SlotId) (i : Fin 4) : Nat :=
  ((s.reqsOf o).filter fun r =>
    match r.op with
    | .store _ _ => decide (r.ea = ((s.getSlot o).streams[i]).base) && r.registered
    | _ => false).length

/-- The wait of an empty register (R21, R340). -/
def waitReg {α : Type} (s : State) (r : Reg) : Body α := waitFor s 4 (BitVec.ofNat 64 r.number) 0

/-- The sources of the issue rule, in slot order, each with its wait bit (R21, R23). -/
def checkSrcs (s : State) : List (Reg × Bool) → Body Unit
  | [] => .ok ()
  | (r, w) :: l =>
    if s.slot.srcEmpty r then
      (if w then .error (.user cEMPTY (BitVec.ofNat 64 r.number)) else waitReg s r)
    else checkSrcs s l

/-- The destinations of the issue rule; a full output stream holds a push (R21, R25). A destination that is an input stream is not waited for,
ready or not: the instruction is ILLEGAL by its direction at once (DESIGN CHOICE, log 76). -/
def checkDsts (s : State) : List Reg → Body Unit
  | [] => .ok ()
  | .x n :: l => if s.slot.xIsFull n then checkDsts s l else waitReg s (.x n)
  | .v n :: l =>
    match s.slot.streamOf n with
    | some i =>
      if s.slot.sd.getLsbD i.val && pushLimit ≤ s.pushesOut s.cur i then waitFor s 13 (BitVec.ofNat 64 i.val) 0
      else checkDsts s l
    | none => if s.slot.vIsFull n then checkDsts s l else waitReg s (.v n)

/-- Whether a stream register is used against its direction (R25). -/
def Slot.wrongWay (l : Slot) (output : Bool) : Reg → Bool
  | .x _ => false
  | .v n =>
    match l.streamOf n with
    | some i => l.sd.getLsbD i.val != output
    | none => false

/-- The issue rule of R21 with its waits and EMPTY, then the stream directions of R25. -/
def issueRule (s : State) (srcs : List (Reg × Bool)) (dsts : List Reg) : Body Unit := do
  checkSrcs s srcs
  checkDsts s dsts
  if srcs.any (fun r => s.slot.wrongWay false r.1) || dsts.any (s.slot.wrongWay true) then trapIllegal s else .ok ()

/-- The distinct streams among source v registers, in slot order (R25, R155). -/
def Slot.popsOf (l : Slot) (vs : List VReg) : List (Fin 4) := (vs.filterMap l.streamOf).eraseDups

/-- Whether the elements that an instruction is to pop have come without an address fault. A fault is taken before anything is
popped, and its element is fetched again after the handler (R194). -/
def popsReady (s : State) : List (Fin 4) → Body Unit
  | [] => .ok ()
  | i :: l =>
    let st := s.slot.streams[i]
    match st.pre with
    | [] => waitFor s 4 (BitVec.ofNat 64 (44 + i.val)) 0
    | .fault sc a :: _ =>
      .error (.keep (s.modSlot fun l => { l with streams := l.streams.set i.val { st with pre := [], met := [] } }) sc a)
    | .ok _ _ :: _ => popsReady s l

/-- Release sides that a plain read of the acting context has met, for an acquire fence after it (R247). -/
def State.hears (s : State) (l : List Side) : State :=
  if l.isEmpty then s else s.modSlot fun k => { k with heard := k.heard ++ l.filter fun x => !k.heard.contains x }

/-- The next element of a stream popped; a poisoned one fills as read and POISON follows (R124, R154). An acquire fence after the pop learns
what its read has met (R247, R259). -/
def popStream (s : State) (i : Fin 4) : State :=
  let st := s.slot.streams[i]
  let next : StreamCfg := { st with pos := st.pos + 1, pre := st.pre.drop 1, met := st.met.drop 1 }
  let t := (s.modSlot fun l => { l with streams := l.streams.set i.val next }).hears (st.met.headD [])
  match st.pre with
  | .ok _ (some a) :: _ => t.addPoison s.cur a
  | _ => t

/-- Pop every stream that the sources name, once each (R25). -/
def popStreams (s : State) (is : List (Fin 4)) : Body State := do
  popsReady s is
  .ok (is.foldl popStream s)

/-- The value of a v register as a source: the next element of its stream, or its own contents (R25). -/
def Slot.srcV (l : Slot) (n : VReg) : VVal :=
  match l.streamOf n with
  | some i =>
    match (l.streams[i]).pre with
    | .ok v _ :: _ => v
    | _ => VVal.zero
  | none => l.getV n

/-- The lanes of a function on lane numbers. -/
def lanes (f : Nat → Word32) : VVal := Vector.ofFn fun i => f i.val

/-- Lane `i` of a value. -/
def laneOf (v : VVal) (i : Nat) : Word32 := v.getD i 0

/-- FP64 lane `j`: lanes 2j and 2j + 1, the low half first (R19, R152). -/
def laneOf64 (v : VVal) (j : Nat) : Nat := (laneOf v (2 * j)).toNat + (laneOf v (2 * j + 1)).toNat * 2 ^ 32

/-- A value of eight FP64 lanes. -/
def lanes64 (f : Nat → Nat) : VVal :=
  lanes fun i => BitVec.ofNat 32 (if i % 2 = 0 then f (i / 2) % 2 ^ 32 else f (i / 2) / 2 ^ 32)

/-- The lanes of `new` where the mask is set, of `old` elsewhere (R151). -/
def mergeLanes (mask : BitVec 16) (new old : VVal) : VVal := lanes fun i => if mask.getLsbD i then laneOf new i else laneOf old i

/-- The mask of FP64 lanes, both halves: bit 2j of p (R152). -/
def mask64 (p : BitVec 16) : BitVec 16 :=
  BitVec.ofNat 16 ((List.range 8).foldl (fun m j => m + if p.getLsbD (2 * j) then 3 * 4 ^ j else 0) 0)

/-! ### Stream elements -/

/-- The element width and window that a stream's base names, or the page format in translated space (R193, R301). -/
structure ElemForm where
  win : Window
  width : Nat
  xf8 : Bool
  deriving DecidableEq, Repr

/-- The total of elements of a stream. -/
def StreamCfg.total (c : StreamCfg) : Nat := c.c0 * c.c1 * c.c2

/-- The loop indices of element `n`, innermost first (R193). -/
def StreamCfg.index (c : StreamCfg) (n : Nat) : Nat × Nat × Nat := (n % c.c0, n / c.c0 % c.c1, n / (c.c0 * c.c1))

/-- The byte address of element `n` for a memory width (R193). -/
def StreamCfg.addr (c : StreamCfg) (n width : Nat) : Word :=
  let (i0, i1, i2) := c.index n
  c.base + BitVec.ofInt 64 (16 * width * i0 + c.s1 * i1 + c.s2 * i2)

/-- The form of a page's format: raw 4 bytes, E4M3 and E5M2 1, BF16 and FP16 2, XF8 by element (R301). -/
def pageForm (leaf : Word) : ElemForm :=
  match bits leaf.toNat 6 3 with
  | 1 => { win := .e4m3, width := 1, xf8 := false }
  | 2 => { win := .e5m2, width := 1, xf8 := false }
  | 3 => { win := .bf16, width := 2, xf8 := false }
  | 4 => { win := .fp16, width := 2, xf8 := false }
  | 5 => { win := .raw, width := 4, xf8 := true }
  | _ => { win := .raw, width := 4, xf8 := false }

/-- The keys of sixteen consecutive elements of a width from a key (R193). -/
def elemKeys (key width : Nat) : List Nat := (List.range 16).map fun i => key + i * width

/-- The keys of sixteen elements of translated space, those on the next 64 KiB page from that page's key (R193, R296). -/
def pageKeys (va pa next width : Nat) : List Nat :=
  (List.range 16).map fun i =>
    if va % 65536 + i * width < 65536 then pa + i * width else next + (va % 65536 + i * width - 65536)

/-- Whether a page serves a stream of a form: linear, and of the format of the base's page (R301). -/
def pageServes (leaf : Word) (f : ElemForm) : Bool := !leaf.getLsbD 9 && pageForm leaf = f

/-- The alignment of an element of a stream: its memory width, or the 64 bytes of an element of raw words (R37) (DEDUCED, log 35). -/
def ElemForm.align (f : ElemForm) : Nat := if f.win = .raw then 64 else f.width

/-- The form of an element of `span` bytes of a stream at an address, then its window: `win`, or translated space where the base lies there
(R35, R193). RANGE and NONCANON come before ABSENT and WINDOW, whichever lane has them. -/
def State.elemTarget (s : State) (c : CoreId) (ea : Word) (span : Nat) (win : Option Nat) : Except FKind Target :=
  match s.targetSpan c ea fun _ => span with
  | .error k => .error k
  | .ok (.loc cc w off) => if win = some w then .ok (.loc cc w off) else .error .window
  | .ok (.virt va) => if 2 ^ 48 < ea.toNat + span then .error .noncanon else if win.isNone then .ok (.virt va) else .error .window

/-- Where an element of an output stream lies: the keys of its lanes and its form, checked as the push takes its faults, all of which report
the element's address (R35, R194, R301; log 21). -/
def pushPlace (s : State) (c : StreamCfg) : Body (State × List Nat × ElemForm) := do
  if c.total ≤ c.pos then trapFault .range c.base
  else
    let form := fun (s : State) (f : ElemForm) (win : Option Nat) => match s.elemTarget s.cur.core (c.addr c.pos f.width) (16 * f.width) win with
      | .error k => (trapFault k (c.addr c.pos f.width) : Body Target)
      | .ok t => .ok t
    let (s, f, win) ← (match addrForm s.cur.core c.base with
      | .error k => trapFault k c.base
      | .ok (.loc _ win _) => .ok (s, { win := windowOf win, width := (windowOf win).width, xf8 := false }, some win)
      | .ok (.virt va) => do
        let (s, _, leaf) ← s.translate c.base va .w
        .ok (s, pageForm leaf, none) : Body (State × ElemForm × Option Nat))
    let ea := c.addr c.pos f.width
    match ← form s f win with
    | .loc core _ off =>
      if off % f.align ≠ 0 then trapFault .align ea else .ok (s, elemKeys (localKey core off) f.width, f)
    | .virt va =>
      if va % f.align ≠ 0 then trapFault .align ea
      else do
        let (s, pa, leaf) ← s.translate ea va .w
        let last := va + 16 * f.width - 1
        let (s, next, leaf2) ← (if last / 65536 = va / 65536 then .ok (s, pa, leaf) else s.translate ea (last / 65536 * 65536) .w)
        if f.xf8 || !pageServes leaf f || !pageServes leaf2 f then trapFault .layout ea
        else .ok (s, pageKeys va pa next f.width, f)

/-- The remote line buffer of a core with the bytes of a write put into its held lines (R125). -/
def Core.rlbStore (c : Core) (ps : List (Nat × List Byte)) : Core :=
  { c with rlb := c.rlb.map fun ln =>
      { ln with
        bytes := overlay ln.key ln.bytes ps
        poison := (List.range 8).foldl (fun m g => setBit m g (m.getLsbD g && !covers ps (ln.key / 8 + g))) ln.poison } }

/-- Send a store of the acting context; its home applies it later (R127). -/
def State.sendStore (s : State) (ea : Word) (ps : List (Nat × List Byte)) (rel : Option (BitVec 3)) : State :=
  s.send ea (.store ps rel)

/-- The request last sent marked as a pushed element of a stream (R194). -/
def State.markPush (s : State) : State :=
  { s with reqs := s.reqs.map fun r => if r.id + 1 = s.nextId then { r with registered := true } else r }

/-- Push one element to output stream `i`: narrowed by CR.RMODE, stored as a store of the context (R25, R194). A push that rounds in SR mode from
a draw table can take the faults of R65, as an SR conversion can (DEDUCED, log 51). -/
def pushStream (s : State) (i : Fin 4) (v : VVal) : Body (State × Events) := do
  let c := s.slot.streams[i]
  let (s, keys, f) ← pushPlace s c
  let (s, ms) ← modes s (s.slot.rmode && f.win.rounds) 16
  let rs := (List.range 16).map fun k => f.win.narrow (ms.getD k .rne) (laneOf v k)
  let s := (s.sendStore c.base (joinPieces (keys.zip (rs.map fun r => natBytes f.width r.bits))) none).markPush
  let s := s.modSlot fun l => { l with streams := l.streams.set i.val { c with pos := c.pos + 1 } }
  .ok (s, Events.sum (rs.map (·.ev)))

/-- A v destination written by a non-returning write: the active lanes of the register, or one element pushed with zero in its
inactive lanes (R151, R155). -/
def writeV (s : State) (n : VReg) (mask : BitVec 16) (v : VVal) : Body (State × Events) :=
  match s.slot.streamOf n with
  | some i => pushStream s i (mergeLanes mask v VVal.zero)
  | none => .ok (s.modSlot fun l => l.setV n (mergeLanes mask v (l.getV n)), Events.zero)

/-! ### Immediates (R69) -/

/-- A signed immediate. -/
def sx {w : Nat} (i : BitVec w) : Word := i.signExtend 64

/-- The 32-bit upper immediate of U form (R69). -/
def upper (i : BitVec 20) : Word := sx (i ++ 0#12)

/-- A branch or jump target: the address of the word plus four times the signed offset (R69). -/
def branchTarget {w : Nat} (pc : Off) (off : BitVec w) : Word := pc.setWidth 64 + 4 * sx off

end Sys2Proof.Machine
end

