-- ==== Sys2Proof/Machine/CReg.lean ====
section
/-! DEFINITION. The control registers: their catalogue, fields and access (R27-R34, R437), and `crr`, `crw`, `crs`, `crc` (R107,
R108). -/

namespace Sys2Proof.Machine

open Sys2Proof

/-- Access of a mode to a control register (R28). -/
inductive CrAccess where
  | none | ro | rw
  deriving DecidableEq, Repr

/-- The access that user mode has to a control register; `none` for a number that is not listed (R28). -/
def crUser (n : Nat) : CrAccess :=
  if n ≤ 0x003 then .ro
  else if n ≤ 0x005 then .rw
  else if n ≤ 0x008 then .ro
  else if n = 0x009 then .rw
  else if n = 0x00A then .ro
  else if n ≤ 0x011 then .rw
  else if n < 0x040 then .none
  else if n ≤ 0x04C then .ro
  else if n < 0x050 then .none
  else if n ≤ 0x055 then .rw
  else if n = 0x056 then .ro
  else if n = 0x057 then .rw
  else if n < 0x060 then .none
  else if n ≤ 0x08B then .rw
  else if n < 0x090 then .none
  else if n ≤ 0x0CF then .rw
  else .none

/-- The access that the on-core runtime has (R28). -/
def crSup (n : Nat) : CrAccess :=
  if n ≤ 0x001 then .ro
  else if n ≤ 0x011 then .rw
  else if n = 0x040 then .ro
  else if 0x200 ≤ n && n ≤ 0x208 then .rw
  else if crUser n = .none then .none
  else .rw

/-- The access of a mode (R27, R28). -/
def crAccess (m : Mode) (n : Nat) : CrAccess :=
  match m with
  | .user => crUser n
  | .supervisor => crSup n

/-- CR.STAT (R30). -/
def Slot.stat (l : Slot) : Word :=
  BitVec.ofNat 64 (l.cdq.length % 16 * 2 ^ 28 + l.sd.toNat * 2 ^ 24 + l.sm.toNat * 2 ^ 20 + (if l.intrap then 1 else 0))

/-- CR.AQCTL; ESZ always reads 6 (R32). -/
def Core.aqctl (c : Core) : Word := BitVec.ofNat 64 (6 * 2 ^ 48 + c.aqDepth.toNat * 2 ^ 32 + c.aqBase.toNat)

/-- CR.IBCTL (R28). -/
def Core.ibctl (c : Core) : Word := BitVec.ofNat 64 (c.ibCap.toNat * 2 ^ 24 + c.ibBase.toNat)

/-- The value of a per-context control register (R28). -/
def State.crSlot (s : State) (n : Nat) : Word :=
  let l := s.slot
  match n with
  | 0x000 => s.cur.slot.setWidth 64
  | 0x001 => l.gen.setWidth 64
  | 0x002 => l.stat
  | 0x003 => l.prio.setWidth 64
  | 0x004 => l.tvec.setWidth 64
  | 0x005 => l.tepc.setWidth 64
  | 0x006 => l.tcause.setWidth 64
  | 0x007 => l.tval
  | 0x008 => l.xferid.setWidth 64
  | 0x009 => l.cdlost.setWidth 64
  | 0x00A => l.spnlim.setWidth 64
  | 0x00B => if l.rmode then 1 else 0
  | 0x00C => l.axen
  | 0x00D => l.rctr
  | 0x00E => if l.rsrc then 1 else 0
  | 0x00F => l.rtbase.setWidth 64
  | 0x010 => l.rtlen.setWidth 64
  | 0x011 => l.rtidx.setWidth 64
  | 0x200 => l.sepc.setWidth 64
  | 0x201 => l.scause.setWidth 64
  | 0x202 => l.sval
  | 0x203 => l.sscratch
  | _ => 0

/-- The value of a per-core control register (R28); CR.SLICE and CR.WAITBUD count cycles (DESIGN CHOICE, log 4). -/
def State.crCore (s : State) (n : Nat) : Word :=
  let c := s.core
  match n with
  | 0x040 => s.cur.core.setWidth 64
  | 0x041 => c.tenant.setWidth 64
  | 0x042 => c.launch.setWidth 64
  | 0x043 => c.hbase.setWidth 64
  | 0x044 => c.hlim.setWidth 64
  | 0x045 => c.aqctl
  | 0x046 => c.spillptr
  | 0x047 => c.seed
  | 0x048 => c.mmprog
  | 0x049 => c.ibctl
  | 0x04A => c.tcfg.setWidth 64
  | 0x04B => c.tnode.setWidth 64
  | 0x04C => c.tleaf.setWidth 64
  | 0x050 => c.rclk
  | 0x051 => c.regid.setWidth 64
  | 0x052 => c.eseq
  | 0x053 => c.jbase.setWidth 64
  | 0x054 => c.jptr.setWidth 64
  | 0x055 => c.jlim.setWidth 64
  | 0x056 => c.sentmin
  | 0x057 => if c.jmode then 1 else 0
  | 0x204 => c.svec.setWidth 64
  | 0x205 => c.ptroot
  | 0x206 => c.saveptr
  | 0x207 => BitVec.ofNat 64 (c.slice.toNat - (Config.sliceUsed s.tick).toNat)
  | 0x208 => BitVec.ofNat 64 (c.waitbud.toNat - (Config.waitbudUsed s.tick).toNat)
  | _ => 0

/-- The value that `crr` returns (R28, R437). -/
def State.crRead (s : State) (n : Nat) : Word :=
  if n < 0x040 || (0x200 ≤ n && n ≤ 0x203) then s.crSlot n
  else if 0x060 ≤ n && n < 0x070 then s.core.shp.getD (n - 0x060) 0
  else if 0x070 ≤ n && n < 0x080 then (s.core.xcnt.getD (n - 0x070) 0).setWidth 64
  else if 0x080 ≤ n && n < 0x084 then s.core.monsel.getD (n - 0x080) 0
  else if 0x084 ≤ n && n < 0x088 then s.core.monmin.getD (n - 0x084) 0
  else if 0x088 ≤ n && n < 0x08C then s.core.monmax.getD (n - 0x088) 0
  else if 0x090 ≤ n && n < 0x0D0 then (s.core.mbin.getD (n - 0x090) 0).setWidth 64
  else s.crCore n

/-- A per-context register written; fields that are read-only keep their values (R6, R30). -/
def Slot.crWrite (l : Slot) (n : Nat) (w : Word) : Slot :=
  match n with
  | 0x003 => { l with prio := w.setWidth 2 }
  | 0x004 => { l with tvec := w.setWidth 20 }
  | 0x005 => { l with tepc := w.setWidth 20 }
  | 0x006 => { l with tcause := w.setWidth 8 }
  | 0x007 => { l with tval := w }
  | 0x008 => { l with xferid := w.setWidth 16 }
  | 0x009 => { l with cdlost := w.setWidth 32 }
  | 0x00A => { l with spnlim := w.setWidth 8 }
  | 0x00B => { l with rmode := w.getLsbD 0 }
  | 0x00C => { l with axen := w }
  | 0x00D => { l with rctr := w }
  | 0x00E => { l with rsrc := w.getLsbD 0 }
  | 0x00F => { l with rtbase := w.setWidth 20 }
  | 0x010 => { l with rtlen := w.setWidth 16 }
  | 0x011 => { l with rtidx := w.setWidth 16 }
  | 0x200 => { l with sepc := w.setWidth 20 }
  | 0x201 => { l with scause := w.setWidth 16 }
  | 0x202 => { l with sval := w }
  | 0x203 => { l with sscratch := w }
  | _ => l

/-- CR.SHPn written: SEL keeps its value, [63:61] stay zero (R29, R31). -/
def shpWrite (old w : Word) : Word := (w &&& 0x0FFF_FFFF_FFFF_FFFF) ||| (old &&& 0x1000_0000_0000_0000)

/-- CR.MMPROG written: V = 0 abandons the parked command, a write of V = 1 is ignored (R174). -/
def Core.mmprogWrite (c : Core) (w : Word) : Core :=
  if w.getLsbD 63 then c
  else { c with mmprog := c.mmprog &&& 0x7FFF_FFFF_FFFF_FFFF, mat := { c.mat with parked := none } }

/-- A per-core register written (R28, R107). A write of CR.RCLK leaves the current key in the inbox header as it was (R230; DESIGN CHOICE,
log 78). -/
def Core.crWrite (c : Core) (n : Nat) (w : Word) : Core :=
  if 0x060 ≤ n && n < 0x070 then { c with shp := c.shp.setIfInBounds (n - 0x060) (shpWrite (c.shp.getD (n - 0x060) 0) w) }
  else if 0x070 ≤ n && n < 0x080 then { c with xcnt := c.xcnt.setIfInBounds (n - 0x070) (w.setWidth 32) }
  else if 0x080 ≤ n && n < 0x084 then { c with monsel := c.monsel.setIfInBounds (n - 0x080) (w &&& 0xF0F) }
  else if 0x084 ≤ n && n < 0x088 then { c with monmin := c.monmin.setIfInBounds (n - 0x084) w }
  else if 0x088 ≤ n && n < 0x08C then { c with monmax := c.monmax.setIfInBounds (n - 0x088) w }
  else if 0x090 ≤ n && n < 0x0D0 then { c with mbin := c.mbin.setIfInBounds (n - 0x090) (w.setWidth 32) }
  else match n with
  | 0x041 => { c with tenant := w.setWidth 12 }
  | 0x042 => { c with launch := w.setWidth 32 }
  | 0x043 => { c with hbase := w.setWidth 20 }
  | 0x044 => { c with hlim := w.setWidth 20 }
  | 0x045 => { c with aqDepth := BitVec.ofNat 16 (bits w.toNat 32 16), aqBase := w.setWidth 20 }
  | 0x046 => { c with spillptr := w }
  | 0x047 => { c with seed := w }
  | 0x048 => c.mmprogWrite w
  | 0x049 => { c with ibBase := w.setWidth 20, ibCap := BitVec.ofNat 8 (bits w.toNat 24 8) }
  | 0x04A => { c with tcfg := w.setWidth 4 }
  | 0x04B => { c with tnode := w.setWidth 20 }
  | 0x04C => { c with tleaf := w.setWidth 20 }
  | 0x050 => { c with rclk := w }
  | 0x051 => { c with regid := w.setWidth 32 }
  | 0x052 => { c with eseq := w }
  | 0x053 => { c with jbase := w.setWidth 20 }
  | 0x054 => { c with jptr := w.setWidth 20 }
  | 0x055 => { c with jlim := w.setWidth 20 }
  | 0x056 => { c with sentmin := w }
  | 0x057 => { c with jmode := w.getLsbD 0 }
  | 0x204 => { c with svec := w.setWidth 20 }
  | 0x205 => { c with ptroot := w }
  | 0x206 => { c with saveptr := w }
  | 0x207 => { c with slice := w.setWidth 32 }
  | 0x208 => { c with waitbud := w.setWidth 32 }
  | _ => c

/-- A control register written by the acting context (R107). -/
def State.crWrite (s : State) (n : Nat) (w : Word) : State :=
  if n < 0x040 || (0x200 ≤ n && n ≤ 0x203) then s.modSlot (·.crWrite n w) else s.modCore (·.crWrite n w)

/-- Whether the tree, region, matrix and copy commands of the core have completed, are parked, or are queued behind a parked
command (R108). -/
def Core.commandsSettled (c : Core) : Bool :=
  c.tree.isEmpty && c.mat.run.isNone && (c.mat.queue.isEmpty || c.mat.parked.isSome) &&
    c.copy.run.isNone && c.copy.landing.isEmpty && (c.copy.queue.isEmpty || c.copy.parked.isSome)

/-- The registers that units write while commands run (R108). -/
def crHeld (n : Nat) : Bool := n = 0x050 || n = 0x052 || n = 0x054 || n = 0x056 || n = 0x048 || n = 0x009 || n = 0x008

/-- The access check of R27, then the wait of R108. -/
def crCheck (s : State) (n : Nat) (write : Bool) : Body Unit :=
  match crAccess s.slot.mode n with
  | .none => trapIllegal s
  | .ro =>
    if write then trapIllegal s
    else if crHeld n && !s.core.commandsSettled then waitHere s 10 (BitVec.ofNat 64 n) else .ok ()
  | .rw => if crHeld n && !s.core.commandsSettled then waitHere s 10 (BitVec.ofNat 64 n) else .ok ()

/-- `crr`: d ← CR[n] (R107). -/
def execCrr (o : CrrOp) (s : State) : Res :=
  finish s do
    issueRule s [] [.x o.d]
    crCheck s o.n.toNat false
    .ok ((s.putX o.d (s.crRead o.n.toNat)).advance 4)

/-- A control-register write of the value that `f` forms from the old value and A; AQCTL refuses an ESZ other than 6 (R32,
R107). -/
def crModify (o : CrwOp) (f : Word → Word → Word) (s : State) : Res :=
  finish s do
    issueRule s [(.x o.a, o.wa)] []
    crCheck s o.n.toNat true
    let w := f (s.crRead o.n.toNat) (s.xv o.a)
    if o.n = 0x045 && bits w.toNat 48 4 ≠ 6 then trapIllegal s
    else .ok ((s.crWrite o.n.toNat w).advance 4)

/-- `crw`: CR[n] ← A (R107). -/
def execCrw (o : CrwOp) (s : State) : Res := crModify o (fun _ a => a) s

/-- `crs`: CR[n] ← CR[n] or A (R107). -/
def execCrs (o : CrwOp) (s : State) : Res := crModify o (fun c a => c ||| a) s

/-- `crc`: CR[n] ← CR[n] and not A (R107). -/
def execCrc (o : CrwOp) (s : State) : Res := crModify o (fun c a => c &&& ~~~a) s

end Sys2Proof.Machine
end

