-- ==== Sys2Proof/Machine/Control.lean ====
section
/-! DEFINITION. Branches, jumps, `loop`, `lix`, `csel` (R103-R106) and the system instructions (R113-R122), with the ILLEGAL
event of words that are no instruction (R93). -/

namespace Sys2Proof.Machine

open Sys2Proof

/-- A conditional branch (R103). -/
def branch (o : BOp) (taken : Word → Word → Bool) (s : State) : Res :=
  finish s do
    issueRule s [(.x o.a, o.wa), (.x o.b, o.wb)] []
    if taken (s.xv o.a) (s.xv o.b) then s.goto (branchTarget s.slot.pc o.off) else .ok (s.advance 4)

/-- `beq` (R103). -/
def execBeq (o : BOp) (s : State) : Res := branch o (fun a b => a == b) s
/-- `bne` (R103). -/
def execBne (o : BOp) (s : State) : Res := branch o (fun a b => a != b) s
/-- `blt`, signed (R103). -/
def execBlt (o : BOp) (s : State) : Res := branch o (fun a b => a.slt b) s
/-- `bge`, signed (R103). -/
def execBge (o : BOp) (s : State) : Res := branch o (fun a b => b.sle a) s
/-- `bltz`, unsigned (R103). -/
def execBltz (o : BOp) (s : State) : Res := branch o (fun a b => a.ult b) s
/-- `bgez`, unsigned (R103). -/
def execBgez (o : BOp) (s : State) : Res := branch o (fun a b => b.ule a) s

/-- The own-local address of the next word, window 0 (R18, R104). -/
def State.link (s : State) : Word := s.slot.pc.setWidth 64 + 4

/-- `jal`: d ← the link, PC ← P + 4 * SEXT(off20) (R104). -/
def execJal (o : JOp) (s : State) : Res :=
  finish s do
    issueRule s [] [.x o.d]
    (s.putX o.d s.link).goto (branchTarget s.slot.pc o.off)

/-- Whether a jump target is an own-local code address: [63:20] zero, or the 0x1 form that names the core, window 0 (R104). -/
def ownCode (c : CoreId) (t : Word) : Bool :=
  t.toNat / 2 ^ 20 == 0 || t.toNat / 2 ^ 20 == 2 ^ 24 + c.toNat * 16

/-- `jalr`: T ← A + SEXT(imm13); d ← the link, PC ← T[19:0] (R104). -/
def execJalr (o : IOp) (s : State) : Res :=
  finish s do
    issueRule s [(.x o.a, o.wa)] [.x o.d]
    let t := s.xv o.a + sx o.imm
    if ownCode s.cur.core t && codeOk (t.toNat % 2 ^ 20) then
      .ok ((s.putX o.d s.link).modSlot fun l => { l with pc := t.setWidth 20 })
    else trapFault .fetch t

/-- `loop`: a ← A - 1, and branch unless it is zero (R105). -/
def execLoop (o : LoopOp) (s : State) : Res :=
  finish s do
    issueRule s [(.x o.a, o.wa)] [.x o.a]
    let n := s.xv o.a - 1
    if n = 0 then .ok ((s.putX o.a n).advance 4) else (s.putX o.a n).goto (branchTarget s.slot.pc o.off)

/-- `lix`: d ← SEXT(L), two words (R73, R106). -/
def execLix (o : LixOp) (s : State) : Res :=
  finish s do
    issueRule s [] [.x o.d]
    .ok ((s.putX o.d (sx o.lit)).advance 8)

/-- `csel`: d ← A if D is not zero, else B (R106). -/
def execCsel (o : R3) (s : State) : Res :=
  finish s do
    issueRule s [(.x o.a, o.wa), (.x o.b, o.wb)] [.x o.d]
    .ok ((s.putX o.d (if s.xv o.d ≠ 0 then s.xv o.a else s.xv o.b)).advance 4)

/-- `nop` (R115). -/
def execNop (_o : R0) (s : State) : Res := finish s (.ok (s.advance 4))

/-- `trap`: the user cause SOFT (R114). -/
def execTrap (o : TrapOp) (s : State) : Res := finish s (.error (.userNext cSOFT (o.imm.setWidth 64)))

/-- `brk`: the supervisor cause BREAK (R114). -/
def execBrk (o : TrapOp) (s : State) : Res := finish s (.error (.sup cBREAK (o.imm.setWidth 64)))

/-- A parked transfer whose fault its owner has taken continues when the owner returns from the runtime: its block is read again, the
message of COMP 3 is not (R182, R187). Where a later transfer still runs, it does so as the next one of the queue. -/
def Core.resumeXfer (c : Core) (k : SlotNo) (gen : BitVec 16) : Core :=
  match c.copy.parked with
  | some x =>
    if x.own.slot = k && x.own.gen = gen && x.taken then
      let x : XferCmd := { x with started := false, taken := false, block := [] }
      { c with copy := if c.copy.run.isNone then { c.copy with parked := none, run := some x }
                       else { c.copy with parked := none, queue := x :: c.copy.queue } }
    else c
  | none => c

/-- `rfe`: return from the runtime or from a user handler (R113). -/
def execRfe (_o : R0) (s : State) : Res :=
  finish s do
    if s.slot.mode = .supervisor then
      let t ← s.goto (s.slot.sepc.setWidth 64)
      let t := t.modSlot fun l => { l with mode := .user, st := .ready }
      .ok (t.modCore fun c => c.resumeXfer s.cur.slot s.slot.gen)
    else if s.slot.intrap then
      let t ← s.goto (s.slot.tepc.setWidth 64)
      .ok (t.modSlot fun l => { l with intrap := false })
    else trapIllegal s

/-- The issue level of a slot: 4 in supervisor mode, else CR.PRIO (R330). -/
def Slot.level (l : Slot) : Fin 5 := if l.mode = .supervisor then 4 else Fin.ofNat 5 l.prio.toNat

/-- `yield`: the slot comes last at its level (R115, R330). -/
def execYield (_o : R0) (s : State) : Res :=
  finish s (.ok ((s.modCore fun c => { c with rr := c.rr.set s.slot.level.val s.cur.slot }).advance 4))

/-- Whether every earlier store of the context has been performed at its home (R116). -/
def State.storesPerformed (s : State) (o : SlotId) : Bool := (s.reqsOf o).all fun r => r.pendingBytes.isEmpty

/-- `ifence`: wait for the stores, then drop the prefetched words (R116). -/
def execIfence (_o : R0) (s : State) : Res :=
  finish s do
    if s.storesPerformed s.cur then .ok ((s.modSlot fun l => { l with prefetched := [] }).advance 4) else waitHere s 6

/-- `halt`: supervisor only; the core stops issue, and reports once what it has issued is complete (R117). -/
def execHalt (_o : R0) (s : State) : Res :=
  finish s do
    if s.slot.mode = .user then trapIllegal s
    else
      let t := s.modCore fun c => { c with halted := true }
      .ok ((State.fresh { t with
        fails := t.fails ++ [{ id := t.nextId, core := s.cur.core, launch := s.core.launch,
                               halt := some (s.slot.sepc.setWidth 64, s.cur.slot.setWidth 64) }] }).advance 4)

/-- The register that a request fills when it completes (R21). -/
def Req.dest (r : Req) : Option Reg :=
  match r.op with
  | .load _ _ _ d => some (.x d)
  | .vload _ _ v push _ => if push then none else some (.v v)
  | .acq _ _ d => some (.x d)
  | .amo _ _ _ _ _ d => some (.x d)
  | .joinc _ d => some (.x d)
  | .postv _ _ _ d _ _ => some (.x d)
  | .rand (some v) _ _ _ _ => some (.v v)
  | .rand none d _ _ _ => some (.x d)
  | _ => none

/-- The register that a tree command fills when it completes (R218). -/
def TreeOp.dest : TreeOp → Option Reg
  | .get _ d => some (.x d)
  | .root d => some (.x d)
  | .draw d _ => some (.x d)
  | .desc d _ => some (.x d)
  | .thr d _ _ => some (.x d)
  | _ => none

/-- Whether a returning operation of the context other than `callat` targets a register (R118). -/
def State.returning (s : State) (o : SlotId) (r : Reg) : Bool :=
  ((s.reqsOf o).any fun q => q.dest = some r) ||
    ((s.getCore o.core).tree.any fun t => t.own.slot = o.slot && t.own.gen = (s.getSlot o).gen && t.op.dest = some r)

/-- The register of a number 1 to 47 (R23). -/
def regOfNumber (n : Nat) : Reg := if n < 32 then .x (BitVec.ofNat 5 n) else .v (BitVec.ofNat 4 (n - 32))

/-- `fe`: set a full/empty bit; filling a register detaches its pending reply (R118). -/
def execFe (o : RAB) (s : State) : Res :=
  finish s do
    issueRule s [(.x o.a, o.wa), (.x o.b, o.wb)] []
    let n := (s.xv o.a).toNat
    if 47 < n || (44 ≤ n && s.slot.sm.getLsbD (n - 44)) then trapIllegal s
    else if n = 0 then .ok (s.advance 4)
    else if s.returning s.cur (regOfNumber n) then waitHere s 11 (BitVec.ofNat 64 n)
    else
      let full := (s.xv o.b).getLsbD 0
      let mark := fun (l : Slot) =>
        match regOfNumber n with
        | .x r => { l.markX r full with callp := if full then setBit l.callp r.toNat false else l.callp }
        | .v r => l.markV r full
      .ok ((s.modSlot mark).advance 4)

/-- `tlbinv`: supervisor only; all entries, or those whose page holds A (R119). -/
def execTlbinv (o : RA) (s : State) : Res :=
  finish s do
    if s.slot.mode = .user then trapIllegal s
    else
      issueRule s [(.x o.a, o.wa)] []
      let a := (s.xv o.a).toNat
      let va := bits a 0 47
      let keep := fun (e : TlbEntry) =>
        if a % 2 = 1 then false
        else if 8 ≤ bits a 44 4 then !(e.va ≤ va && va < e.va + e.size) else true
      .ok ((s.modCore fun c => { c with tlb := c.tlb.filter keep }).advance 4)

/-- `tlbprobe`: supervisor only; the held entry, or zero (R120). -/
def execTlbprobe (o : R2) (s : State) : Res :=
  finish s do
    if s.slot.mode = .user then trapIllegal s
    else
      issueRule s [(.x o.a, o.wa)] [.x o.d]
      let a := (s.xv o.a).toNat
      let v := if 8 ≤ bits a 44 4 then ((s.core.tlbFind (bits a 0 47)).map (·.leaf)).getD 0 else 0
      .ok ((s.putX o.d v).advance 4)

/-- `time`: the die timebase, which never decreases (R121; DESIGN CHOICE, log 4). -/
def execTime (o : RD) (s : State) : Res :=
  finish s do
    issueRule s [] [.x o.d]
    let (s, t) := s.readTime (.compute (dieOf s.cur.core))
    .ok ((s.putX o.d t).advance 4)

/-- `ctrr`: an activity counter; those that count cycles move on by a free amount before they are read (R122; DESIGN CHOICE,
log 4). -/
def execCtrr (o : R2) (s : State) : Res :=
  finish s do
    issueRule s [(.x o.a, o.wa)] [.x o.d]
    let more := Config.cycleAdvance s.tick
    match (s.xv o.a).toNat with
    | 0 => .ok (((s.modCore fun c => { c with cycles := c.cycles + more }).putX o.d (s.core.cycles + more)).advance 4)
    | 1 => .ok ((s.putX o.d s.slot.issued).advance 4)
    | 2 => .ok ((s.putX o.d s.core.issued).advance 4)
    | 3 => .ok (((s.modSlot fun l => { l with waited := l.waited + more }).putX o.d (s.slot.waited + more)).advance 4)
    | 4 => .ok (((s.modCore fun c => { c with idle := c.idle + more }).putX o.d (s.core.idle + more)).advance 4)
    | _ => trapIllegal s

/-- A word that is no instruction, or one that user mode may not run: ILLEGAL with CR.SVAL the word, before any wait (R93,
R94). -/
def execIllegal (w : BitVec 32) (s : State) : Res := finish s (.error (.sup cILLEGAL (w.setWidth 64)))

end Sys2Proof.Machine
end

