-- ==== Sys2Proof/Machine/Crypto.lean ====
section
/-! DEFINITION. The signatures by which the dies of a module authenticate each other (R386, R387, R390): SHA-384, ECDSA over
brainpoolP384r1, and the parts of an X.509 certificate that they need. The spec names these standards; their text is taken from outside it
(PRESUMED, log 72). -/

namespace Sys2Proof.Machine

open Sys2Proof

/-- The value of bytes with the most significant first. -/
def beNat (bs : List Byte) : Nat := bs.foldl (fun n b => 256 * n + b.toNat) 0

/-- A value in `n` bytes, the most significant first. -/
def beBytes (n v : Nat) : List Byte := (natBytes n v).reverse

/-! ### SHA-384 (FIPS 180-4) -/

/-- The largest number of at most `n` bits, above those of `r`, whose power `k` does not exceed `v`. -/
def rootBits (k v : Nat) : Nat → Nat → Nat
  | 0, r => r
  | n + 1, r => rootBits k v n (if (r + 2 ^ n) ^ k ≤ v then r + 2 ^ n else r)

/-- The first 64 bits of the fraction of the root `k` of a number below 2^15. -/
def rootFraction (k p : Nat) : Word := BitVec.ofNat 64 (rootBits k (p * 2 ^ (64 * k)) 72 0)

/-- The first eighty primes. -/
def smallPrimes : List Nat :=
  (List.range 410).filter fun n => 2 ≤ n && (List.range (min n 21)).all fun d => d < 2 || n % d ≠ 0

/-- The round constants: of the cube roots of those primes. -/
def roundConstants : List Word := smallPrimes.map (rootFraction 3)

/-- The hash value before the first block: of the square roots of the ninth to the sixteenth prime. -/
def hashStart : List Word := ((smallPrimes.drop 8).take 8).map (rootFraction 2)

/-- Three rotations of a word joined. -/
def rot3 (w : Word) (i j k : Nat) : Word := w.rotateRight i ^^^ w.rotateRight j ^^^ w.rotateRight k

/-- Two rotations of a word joined with a shift of it. -/
def rot2 (w : Word) (i j k : Nat) : Word := w.rotateRight i ^^^ w.rotateRight j ^^^ w >>> k

/-- The working words, the first of them at the head, and the sixteen words of the message that come next. -/
structure HashState where
  vars : List Word
  window : List Word

/-- A round: the words move one place down, two of them with what the round adds, and the window moves on. -/
def HashState.round (c : HashState) (k : Word) : HashState :=
  let v := fun i => c.vars.getD i 0
  let m := fun i => c.window.getD i 0
  let choice := v 6 ^^^ (v 4 &&& (v 5 ^^^ v 6))
  let most := (v 0 &&& (v 1 ||| v 2)) ||| (v 1 &&& v 2)
  let add := v 7 + rot3 (v 4) 14 18 41 + choice + k + m 0
  { vars := (add + rot3 (v 0) 28 34 39 + most) :: (c.vars.take 3 ++ (v 3 + add) :: (c.vars.drop 4).take 3)
    window := c.window.drop 1 ++ [m 0 + rot2 (m 1) 1 8 7 + m 9 + rot2 (m 14) 19 61 6] }

/-- The hash value after a block of 128 bytes. -/
def hashBlock (ks h : List Word) (block : List Byte) : List Word :=
  let first : HashState := { vars := h, window := (List.range 16).map fun i => BitVec.ofNat 64 (beNat ((block.drop (8 * i)).take 8)) }
  (List.range 8).map fun i => h.getD i 0 + (ks.foldl HashState.round first).vars.getD i 0

/-- The padded message: a one bit, zeros, and the length in bits, in whole blocks of 128 bytes. -/
def hashPad (bs : List Byte) : List Byte :=
  bs ++ 0x80 :: List.replicate ((239 - bs.length % 128) % 128) 0 ++ beBytes 16 (8 * bs.length)

/-- The SHA-384 of bytes, as the number that ECDSA takes. -/
def sha384 (bs : List Byte) : Nat :=
  let m := hashPad bs
  let blocks := (List.range (m.length / 128)).map fun i => (m.drop (128 * i)).take 128
  (((blocks.foldl (hashBlock roundConstants) hashStart).take 6).map (·.toNat)).foldl (fun n w => 2 ^ 64 * n + w) 0

/-! ### brainpoolP384r1 (RFC 5639) -/

/-- The prime of the field, the coefficients of the curve, and the order of its base point. -/
def bpP : Nat := 0x8CB91E82A3386D280F5D6F7E50E641DF152F7109ED5456B412B1DA197FB71123ACD3A729901D1A71874700133107EC53
def bpA : Nat := 0x7BC382C63D8C150C3C72080ACE05AFA0C2BEA28E4FB22787139165EFBA91F90F8AA5814A503AD4EB04A8C7DD22CE2826
def bpB : Nat := 0x04A8C7DD22CE28268B39B55416F0447C2FB77DE107DCD2A62E880EA53EEB62D57CB4390295DBC9943AB78696FA504C11
def bpN : Nat := 0x8CB91E82A3386D280F5D6F7E50E641DF152F7109ED5456B31F166E6CAC0425A7CF3AB6AF6B7FC3103B883202E9046565

/-- A point of the curve; none is the point at infinity. -/
abbrev CurvePoint := Option (Nat × Nat)

/-- The base point. -/
def bpG : CurvePoint :=
  some (0x1D1C64F068CF45FFA2A63A81B7C13F6B8847A3E77EF14FE3DB7FCAFE0CBD10E8E826E03436D646AAEF87B2E247D4AF1E,
    0x8ABE1D7520F9C2A45CB1EB8E95CFD55262B70B29FEEC5864E19C054FF99129280E4646217791811142820341263C5315)

/-- A power modulo `m`, for exponents of at most as many bits as the first argument. -/
def powMod (m : Nat) : Nat → Nat → Nat → Nat
  | 0, _, _ => 1 % m
  | n + 1, b, e =>
    let r := powMod m n (b * b % m) (e / 2)
    if e % 2 = 1 then b * r % m else r

/-- The inverse modulo a prime. -/
def invMod (m a : Nat) : Nat := powMod m 384 a (m - 2)

/-- The sum of two points. -/
def curveAdd (p q : CurvePoint) : CurvePoint :=
  match p, q with
  | none, q => q
  | p, none => p
  | some (x1, y1), some (x2, y2) =>
    if x1 = x2 && (y1 + y2) % bpP = 0 then none
    else
      let l := if x1 = x2 then (3 * x1 * x1 + bpA) * invMod bpP (2 * y1 % bpP) % bpP
        else (y2 + bpP - y1) * invMod bpP ((x2 + bpP - x1) % bpP) % bpP
      let x := (l * l + 2 * bpP - x1 - x2) % bpP
      some (x, (l * (x1 + bpP - x) + bpP - y1) % bpP)

/-- A multiple of a point, for factors of at most as many bits as the first argument. -/
def curveMul : Nat → Nat → CurvePoint → CurvePoint
  | 0, _, _ => none
  | n + 1, k, p =>
    let r := curveMul n (k / 2) (curveAdd p p)
    if k % 2 = 1 then curveAdd p r else r

/-- Whether a point may be a public key: one of the curve, not the point at infinity. -/
def keyOk : CurvePoint → Bool
  | none => false
  | some (x, y) => x < bpP && y < bpP && (y * y) % bpP = (x * x * x + bpA * x + bpB) % bpP

/-! ### ECDSA -/

/-- Whether (r, s) is a signature over a digest by the holder of a public key. -/
def ecdsaVerify (key : CurvePoint) (digest r s : Nat) : Bool :=
  keyOk key && 1 ≤ r && r < bpN && 1 ≤ s && s < bpN &&
    (let w := invMod bpN s
     match curveAdd (curveMul 384 (digest * w % bpN) bpG) (curveMul 384 (r * w % bpN) key) with
     | none => false
     | some (x, _) => x % bpN = r)

/-- The signature over a digest with a private key and the number `k` drawn for it. -/
def ecdsaSign (secret k digest : Nat) : Nat × Nat :=
  let r := ((curveMul 384 k bpG).map fun p => p.1 % bpN).getD 0
  (r, invMod bpN (k % bpN) * (digest + r * secret) % bpN)

/-- A signature as a register of 96 bytes holds it: r in the lower half (R390; DESIGN CHOICE, log 13). -/
def packSign (r s : Nat) : BitVec 768 := BitVec.ofNat 768 (r % 2 ^ 384 + s * 2 ^ 384)

/-- Whether a signature over bytes verifies with a public key: ECDSA with SHA-384 (R387). -/
def signatureOk (key : CurvePoint) (bs : List Byte) (sign : BitVec 768) : Bool :=
  ecdsaVerify key (sha384 bs) (sign.toNat % 2 ^ 384) (sign.toNat / 2 ^ 384)

/-! ### Certificates (X.509 in DER) -/

/-- A DER item at the head of bytes: its tag, its whole encoding, its contents, and what follows it. -/
structure DerItem where
  tag : Nat
  whole : List Byte
  body : List Byte
  rest : List Byte

/-- The DER item at the head of bytes, where its length fits. -/
def derItem (bs : List Byte) : Option DerItem :=
  match bs with
  | tag :: l :: more =>
    let k := if l.toNat < 128 then 0 else l.toNat - 128
    let len := if l.toNat < 128 then l.toNat else beNat (more.take k)
    if more.length < k + len then none
    else some { tag := tag.toNat, whole := bs.take (2 + k + len), body := (more.drop k).take len, rest := more.drop (k + len) }
  | _ => none

/-- The first `n` DER items of bytes. -/
def derItems : Nat → List Byte → List DerItem
  | 0, _ => []
  | n + 1, bs =>
    match derItem bs with
    | none => []
    | some i => i :: derItems n i.rest

/-- The three parts of a certificate: what is signed, the algorithm, the signature. -/
def certParts (cert : List Byte) : List DerItem := ((derItem cert).map fun c => derItems 3 c.body).getD []

/-- The signature (r, s) of a certificate. -/
def certSign (cert : List Byte) : Nat × Nat :=
  let ints := do
    let p ← (certParts cert)[2]?
    let q ← derItem (p.body.drop 1)
    some ((derItems 2 q.body).map fun (i : DerItem) => beNat i.body)
  ((ints.getD []).getD 0 0, (ints.getD []).getD 1 0)

/-- The public key of a certificate: an uncompressed point, in the seventh field of what is signed, or the sixth where no version stands
first. -/
def certKey (cert : List Byte) : CurvePoint := do
  let t ← (certParts cert)[0]?
  let fs := derItems 7 t.body
  let k ← fs[if (fs[0]?).any (·.tag = 0xA0) then 6 else 5]?
  let p ← (derItems 2 k.body)[1]?
  if p.body.length = 98 && p.body.getD 1 0 = 4 then
    some (beNat ((p.body.drop 2).take 48), beNat ((p.body.drop 50).take 48))
  else none

/-- Whether a certificate is signed by the holder of a key. -/
def certificateOk (ca : CurvePoint) (cert : List Byte) : Bool :=
  match (certParts cert)[0]? with
  | none => false
  | some t => ecdsaVerify ca (sha384 t.whole) (certSign cert).1 (certSign cert).2

end Sys2Proof.Machine
end

