-- ==== Sys2Proof/Machine/LoadStore.lean ====
section
/-! DEFINITION. The issue of scalar and vector loads and stores, `jst`, atomics, reductions, `joinc` and fences (R123-R136). What
the home does with the requests they send stands in Machine/Homes.lean. -/

namespace Sys2Proof.Machine

open Sys2Proof

/-- A register marked empty by a returning operation (R21). -/
def State.emptyX (s : State) (d : XReg) : State := s.modSlot fun l => l.markX d false

/-- A plain load of `n` bytes (R126). -/
def loadX (o : IOp) (n : Nat) (signed windows : Bool) (s : State) : Res :=
  finish s do
    issueRule s [(.x o.a, o.wa)] [.x o.d]
    let ea := s.xv o.a + sx o.imm
    let (t, p) ← scalarPlace s ea n .r windows
    .ok (((t.emptyX o.d).send ea (.load (p.piece n) p.win signed o.d)).advance 4)

/-- `ldb` (R126). -/
def execLdb (o : IOp) (s : State) : Res := loadX o 1 true false s
/-- `ldzb` (R126). -/
def execLdzb (o : IOp) (s : State) : Res := loadX o 1 false false s
/-- `ldh` (R126). -/
def execLdh (o : IOp) (s : State) : Res := loadX o 2 true false s
/-- `ldzh` (R126). -/
def execLdzh (o : IOp) (s : State) : Res := loadX o 2 false false s
/-- `ldw` (R126). -/
def execLdw (o : IOp) (s : State) : Res := loadX o 4 true true s
/-- `ldzw` (R126). -/
def execLdzw (o : IOp) (s : State) : Res := loadX o 4 false true s
/-- `ldd` (R126). -/
def execLdd (o : IOp) (s : State) : Res := loadX o 8 true false s

/-- A plain store of `n` bytes, `stw` narrowing through windows 1 to 5 (R127, R36, R38). -/
def storeX (o : SOp) (n : Nat) (windows : Bool) (s : State) : Res :=
  finish s do
    issueRule s [(.x o.a, o.wa), (.x o.b, o.wb)] []
    let ea := s.xv o.a + sx o.imm
    let (t, p) ← scalarPlace s ea n .w windows
    if p.win = .raw then .ok ((t.sendStore ea [(p.key, natBytes n (s.xv o.b).toNat)] none).advance 4)
    else
      let (t, ms) ← modes t (s.slot.rmode && p.win.rounds) 1
      let r := p.win.narrow (ms.getD 0 .rne) ((s.xv o.b).setWidth 32)
      .ok (((t.sendStore ea [(p.key, natBytes p.win.width r.bits)] none).advance 4).withEvents r.ev)

/-- `stb` (R127). -/
def execStb (o : SOp) (s : State) : Res := storeX o 1 false s
/-- `sth` (R127). -/
def execSth (o : SOp) (s : State) : Res := storeX o 2 false s
/-- `stw` (R127). -/
def execStw (o : SOp) (s : State) : Res := storeX o 4 true s
/-- `std` (R127). -/
def execStd (o : SOp) (s : State) : Res := storeX o 8 false s

/-- An acquire load: the context is held until its destination is full (R128). -/
def acquireLoad (o : AcqOp) (n : Nat) (s : State) : Res :=
  finish s do
    issueRule s [(.x o.a, o.wa)] [.x o.d]
    let ea := s.xv o.a + sx o.off
    let (t, p) ← scalarPlace s ea n .r false
    .error (.held ((t.emptyX o.d).send ea (.acq (p.piece n) o.scope o.d)))

/-- `ldaw` (R128). -/
def execLdaw (o : AcqOp) (s : State) : Res := acquireLoad o 4 s
/-- `ldad` (R128). -/
def execLdad (o : AcqOp) (s : State) : Res := acquireLoad o 8 s

/-- A release store: held on its way, not its context (R128). -/
def releaseStore (o : RelOp) (n : Nat) (s : State) : Res :=
  finish s do
    issueRule s [(.x o.a, o.wa), (.x o.b, o.wb)] []
    let ea := s.xv o.a + sx o.off
    let (t, p) ← scalarPlace s ea n .w false
    .ok ((t.sendStore ea [(p.key, natBytes n (s.xv o.b).toNat)] (some o.scope)).advance 4)

/-- `strw` (R128). -/
def execStrw (o : RelOp) (s : State) : Res := releaseStore o 4 s
/-- `strd` (R128). -/
def execStrd (o : RelOp) (s : State) : Res := releaseStore o 8 s

/-- The journal's free space for `n` bytes of records: JFULL, then RANGE, then ALIGN, all with CR.SVAL = CR.JPTR (R233); the
offset of the first. -/
def journalRoom (c : Core) (n : Nat) : Body Nat :=
  let p := c.jptr.toNat
  if c.jlim.toNat < p + n then .error (.sup cJFULL (BitVec.ofNat 64 p))
  else if localSize < p + n then trapFault .range (BitVec.ofNat 64 p)
  else if p % 32 ≠ 0 then trapFault .align (BitVec.ofNat 64 p)
  else .ok p

/-- `jst` (R129): the store, and with CR.JMODE set the word record that its home will write with the old value
(DESIGN CHOICE, log 24). -/
def execJst (o : SOp) (s : State) : Res :=
  finish s do
    issueRule s [(.x o.a, o.wa), (.x o.b, o.wb)] []
    let ea := s.xv o.a + sx o.imm
    let off ← jstOffset s ea
    let k := localKey s.cur.core off
    if s.core.jmode then do
      let p ← journalRoom s.core 32
      match s.ctxPoison s.cur k 8 with
      | some g => trapPoison (BitVec.ofNat 64 (8 * g - localKey s.cur.core 0))
      | none =>
        let t := s.modCore fun c => { c with jptr := BitVec.ofNat 20 (p + 32) }
        .ok ((t.send ea (.jst k (s.xv o.b) (some (BitVec.ofNat 20 p, BitVec.ofNat 64 off, s.core.eseq)))).advance 4)
    else .ok ((s.send ea (.jst k (s.xv o.b) none)).advance 4)

/-! ### Vector loads and stores -/

/-- The lanes that a predicate activates. -/
def activeLanes (p : BitVec 16) : List Nat := (List.range 16).filter fun i => p.getLsbD i

/-- The space nibble and the window of a base address; `none` in translated space (R130, R131). -/
def baseSpace (a : Word) : Option (Nat × Nat) :=
  if 8 ≤ bits a.toNat 44 4 then none else some (bits a.toNat 44 4, bits a.toNat 20 4)

/-- The window a base address gives to every lane. -/
def baseWindow (a : Word) : Window :=
  match baseSpace a with
  | none => .raw
  | some (_, win) => windowOf win

/-- The place of one lane against its base's space and window; a fault reports `val` (R131). -/
def lanePlace (s : State) (space : Option (Nat × Nat)) (ea val : Word) (p : Perm) : Body (State × Place) :=
  match s.target s.cur.core ea 4 with
  | .error k => trapFault k val
  | .ok (.loc c win off) =>
    if space ≠ some (bits ea.toNat 44 4, win) || win = 6 then trapFault .window val
    else if off % (windowOf win).width ≠ 0 then trapFault .align val
    else .ok (s, { key := localKey c off, win := windowOf win })
  | .ok (.virt va) =>
    if space.isSome then trapFault .window val
    else if va % 4 ≠ 0 then trapFault .align val
    else do
      let (s, pa, _) ← s.translate val va p
      .ok (s, { key := pa, win := .raw })

/-- The places of the active lanes, the lowest failing lane's fault taken (R131) (DEDUCED, log 21). -/
def lanePlaces (s : State) (space : Option (Nat × Nat)) (p : Perm) (addr val : Nat → Word) :
    List Nat → Body (State × List (Nat × Place))
  | [] => .ok (s, [])
  | i :: l => do
    let (s, q) ← lanePlace s space (addr i) (val i) p
    let (s, qs) ← lanePlaces s space p addr val l
    .ok (s, (i, q) :: qs)

/-- The first fault, in the order of R35, that the form of any of several addresses gives. -/
def formFault (s : State) (addrs : List Word) : Option FKind :=
  [FKind.noncanon, .rsvd, .range, .absent].find? fun k => addrs.any fun a =>
    match s.target s.cur.core a 4 with
    | .error e => e = k
    | .ok _ => false

/-- The checks of the active lanes of `vld` and `vst` (R35, R130): the form of every lane's address and WINDOW first, then the
alignment of the base, to 64 bytes in window 0 and translated space, then the lanes. CR.SVAL is the base address (R123). -/
def blockPlaces (s : State) (ea : Word) (p : Perm) (active : List Nat) : Body (State × List (Nat × Place)) :=
  let w := (baseWindow ea).width
  let addr := fun i => ea + BitVec.ofNat 64 (i * w)
  match active with
  | [] => .ok (s, [])
  | _ :: _ =>
    match formFault s (active.map addr) with
    | some k => trapFault k ea
    | none =>
      if (baseSpace ea).any (·.2 = 6) then trapFault .window ea
      else if ea.toNat % (if baseWindow ea = .raw then 64 else w) ≠ 0 then trapFault .align ea
      else lanePlaces s (baseSpace ea) p addr (fun _ => ea) active

/-- A vector load sent: the lanes that it reads, into a register or, for an output stream, as the element to push, with the streams that it
pops then (R25, R130); `val` is the address that a poisoned lane reports (R124). -/
def State.sendVload (s : State) (ea : Word) (val : Nat → Word) (v : VReg) (qs : List (Nat × Place)) (pops : List (Fin 4)) : State :=
  let push := (s.slot.streamOf v).isSome
  let win := (qs.head?.map (·.2.win)).getD .raw
  let ls := qs.map fun q =>
    { lane := BitVec.ofNat 4 q.1, piece := { key := q.2.key, len := q.2.win.width }, ea := val q.1 : LaneRead }
  let s := if push then s else s.modSlot fun l => l.markV v false
  s.send ea (.vload ls win v push (if push then pops else []))

/-- A vector load begun, with the input streams that it pops: with no active lane it fills its register at once, or pushes an element of
zeros (R130, R155); into an output stream, whose place is checked first (R194), the context is held, and nothing is popped, until the
element is pushed, since the push can still trap or wait (R9). -/
def State.startVload (s : State) (ea : Word) (val : Nat → Word) (v : VReg) (qs : List (Nat × Place)) (pops : List (Fin 4)) :
    Body State := do
  popsReady s pops
  if qs.isEmpty then do
    let (s, ev) ← writeV (pops.foldl popStream s) v 0 VVal.zero
    .ok ((s.advance 4).withEvents ev)
  else
    match s.slot.streamOf v with
    | some i => do
      let (s, _) ← pushPlace s s.slot.streams[i]
      .error (.held (s.sendVload ea val v qs pops))
    | none => .ok (((pops.foldl popStream s).sendVload ea val v qs []).advance 4)

/-- `vld v, imm(a), p` (R130). -/
def execVld (o : VldOp) (s : State) : Res :=
  finish s do
    issueRule s [(.x o.a, o.wa)] [.v o.v]
    let ea := s.xv o.a + 64 * sx o.imm
    let (t, qs) ← blockPlaces s ea .r (activeLanes (s.slot.getP o.p))
    t.startVload ea (fun _ => ea) o.v qs []

/-- The draws and the narrowed lanes of a vector store: sixteen draws in SR mode through windows 1 to 4, whatever the predicate
(R130, R131). -/
def narrowLanes (s : State) (base : Word) (v : VVal) (qs : List (Nat × Place)) :
    Body (State × List (Nat × List Byte) × Events) := do
  let win := baseWindow base
  let (s, ms) ← modes s (s.slot.rmode && win.rounds) 16
  let rs := qs.map fun q => (q.2.key, win.narrow (ms.getD q.1 .rne) (laneOf v q.1))
  .ok (s, rs.map fun r => (r.1, natBytes win.width r.2.bits), Events.sum (rs.map (·.2.ev)))

/-- A vector store sent; with no active lane nothing is stored (R130, R131). -/
def State.sendVstore (s : State) (ea : Word) (ps : List (Nat × List Byte)) : State :=
  if ps.isEmpty then s else s.sendStore ea ps none

/-- `vst v, imm(a), p` (R130). -/
def execVst (o : VstOp) (s : State) : Res :=
  finish s do
    issueRule s [(.x o.a, o.wa), (.v o.v, o.wb)] []
    let ea := s.xv o.a + 64 * sx o.imm
    let (t, qs) ← blockPlaces s ea .w (activeLanes (s.slot.getP o.p))
    let t ← popStreams t (s.slot.popsOf [o.v])
    let (t, ps, ev) ← narrowLanes t ea (s.slot.srcV o.v) qs
    .ok (((t.sendVstore ea (joinPieces ps)).advance 4).withEvents ev)

/-- The address of lane `i` of a gather or scatter (R131). -/
def gatherAddr (x : Word) (w : VVal) (scale : BitVec 2) (i : Nat) : Word :=
  x + (laneOf w i).signExtend 64 * BitVec.ofNat 64 (2 ^ scale.toNat)

/-- The checks of the active lanes of `vldx` and `vstx`; CR.SVAL is the lane's address (R131). -/
def gatherPlaces (s : State) (x : Word) (w : VVal) (scale : BitVec 2) (p : Perm) (active : List Nat) :
    Body (State × List (Nat × Place)) :=
  lanePlaces s (baseSpace x) p (gatherAddr x w scale) (gatherAddr x w scale) active

/-- The address fault of a stream element that an instruction pops comes before what is computed from the element (R131, R194). -/
def indexReady (s : State) (w : VReg) : Body Unit := popsReady s (s.slot.popsOf [w])

/-- `vldx v, x, w, scale` (R131). The index register is checked before x: R21 names no VX field (DESIGN CHOICE, log 61). -/
def execVldx (o : VxmOp) (s : State) : Res :=
  finish s do
    issueRule s [(.v o.w, o.wa), (.x o.x, o.wb)] [.v o.v]
    indexReady s o.w
    let x := s.xv o.x
    let (t, qs) ← gatherPlaces s x (s.slot.srcV o.w) o.scale .r (activeLanes (s.slot.getP o.p))
    t.startVload x (gatherAddr x (s.slot.srcV o.w) o.scale) o.v qs (s.slot.popsOf [o.w])

/-- `vstx v, x, w, scale` (R131). The data and the index register are checked before x (DESIGN CHOICE, log 61). -/
def execVstx (o : VxmOp) (s : State) : Res :=
  finish s do
    issueRule s [(.v o.v, o.wa), (.v o.w, o.wa), (.x o.x, o.wb)] []
    indexReady s o.w
    let x := s.xv o.x
    let (t, qs) ← gatherPlaces s x (s.slot.srcV o.w) o.scale .w (activeLanes (s.slot.getP o.p))
    let t ← popStreams t (s.slot.popsOf [o.v, o.w])
    let (t, ps, ev) ← narrowLanes t x (s.slot.srcV o.v) qs
    .ok (((t.sendVstore x ps).advance 4).withEvents ev)

end Sys2Proof.Machine
end

