-- ==== Sys2Proof/Machine/Sync.lean ====
section
/-! DEFINITION. The issue of atomics, reductions, `joinc` and fences (R132-R136), count barriers (R139), wire barriers
(R140-R144) and notice boards (R145-R149). What homes and roots do stands in Machine/Homes.lean and Machine/Wire.lean. -/

namespace Sys2Proof.Machine

open Sys2Proof

/-! ### Atomics, reductions, joins and fences -/

/-- The size of an atomic (R132). -/
def sizeOf64 (wide : Bool) : Nat := if wide then 8 else 4

/-- An `amo`: its release half waits first; then the request goes to the home and the context is held (R132). -/
def atomic (o : AmoOp) (fn : AmoFn) (s : State) : Res :=
  finish s do
    issueRule s [(.x o.a, o.wa), (.x o.b, o.wb)] [.x o.d]
    let ea := s.xv o.a
    let n := sizeOf64 o.size
    let (t, p) ← scalarPlace s ea n .rw false
    if o.order.getLsbD 1 then needReleased t
    let dOld := s.xv o.d
    .error (.held ((t.emptyX o.d).send ea (.amo (p.piece n) fn (s.xv o.b) dOld o.order o.d)))

/-- `amoadd` (R132). -/
def execAmoadd (o : AmoOp) (s : State) : Res := atomic o .add s
/-- `amoand` (R132). -/
def execAmoand (o : AmoOp) (s : State) : Res := atomic o .and s
/-- `amoor` (R132). -/
def execAmoor (o : AmoOp) (s : State) : Res := atomic o .or s
/-- `amoxor` (R132). -/
def execAmoxor (o : AmoOp) (s : State) : Res := atomic o .xor s
/-- `amomin` (R132). -/
def execAmomin (o : AmoOp) (s : State) : Res := atomic o .min s
/-- `amomax` (R132). -/
def execAmomax (o : AmoOp) (s : State) : Res := atomic o .max s
/-- `amominz` (R132). -/
def execAmominz (o : AmoOp) (s : State) : Res := atomic o .minz s
/-- `amomaxz` (R132). -/
def execAmomaxz (o : AmoOp) (s : State) : Res := atomic o .maxz s
/-- `amoswap` (R132). -/
def execAmoswap (o : AmoOp) (s : State) : Res := atomic o .swap s
/-- `amocas` (R132). -/
def execAmocas (o : AmoOp) (s : State) : Res := atomic o .cas s
/-- `amofadd` (R132). -/
def execAmofadd (o : AmoOp) (s : State) : Res := atomic o .fadd s
/-- `amofmin` (R132). -/
def execAmofmin (o : AmoOp) (s : State) : Res := atomic o .fmin s
/-- `amofmax` (R132). -/
def execAmofmax (o : AmoOp) (s : State) : Res := atomic o .fmax s

/-- A `red`: sent, and the context issues past it (R133). -/
def reduction (o : RedOp) (fn : AmoFn) (s : State) : Res :=
  finish s do
    issueRule s [(.x o.a, o.wa), (.x o.b, o.wb)] []
    let ea := s.xv o.a
    let n := sizeOf64 o.size
    let (t, p) ← scalarPlace s ea n .w false
    .ok ((t.send ea (.red (p.piece n) fn (s.xv o.b))).advance 4)

/-- `redadd` (R133). -/
def execRedadd (o : RedOp) (s : State) : Res := reduction o .add s
/-- `redand` (R133). -/
def execRedand (o : RedOp) (s : State) : Res := reduction o .and s
/-- `redor` (R133). -/
def execRedor (o : RedOp) (s : State) : Res := reduction o .or s
/-- `redxor` (R133). -/
def execRedxor (o : RedOp) (s : State) : Res := reduction o .xor s
/-- `redmin` (R133). -/
def execRedmin (o : RedOp) (s : State) : Res := reduction o .min s
/-- `redmax` (R133). -/
def execRedmax (o : RedOp) (s : State) : Res := reduction o .max s
/-- `redminz` (R133). -/
def execRedminz (o : RedOp) (s : State) : Res := reduction o .minz s
/-- `redmaxz` (R133). -/
def execRedmaxz (o : RedOp) (s : State) : Res := reduction o .maxz s
/-- `redfadd` (R133). -/
def execRedfadd (o : RedOp) (s : State) : Res := reduction o .fadd s
/-- `redfmin` (R133). -/
def execRedfmin (o : RedOp) (s : State) : Res := reduction o .fmin s
/-- `redfmax` (R133). -/
def execRedfmax (o : RedOp) (s : State) : Res := reduction o .fmax s

/-- `joinc`: a release at module scope, sent to the join object's home (R134). -/
def execJoinc (o : R2) (s : State) : Res :=
  finish s do
    issueRule s [(.x o.a, o.wa)] [.x o.d]
    let a := s.xv o.a
    let key ← localObject s a 64 128
    needReleased s
    .error (.held ((s.emptyX o.d).send a (.joinc key o.d)))

/-- An acquire of the acting context at a scope: at 2 and above the remote line buffer is emptied (R135, R256); at any it learns
a clock (R247, R248). -/
def State.acquireAt (s : State) (sc : BitVec 3) (c : Clock) : State :=
  let s := s.acquires s.cur c
  if 2 ≤ sc then s.acquired s.cur.core else s

/-- What an acquire fence of the acting context learns from the plain reads before it (R247). -/
def State.fenceLearns (s : State) (sc : BitVec 3) : Clock := learn (s.party s.cur) sc s.slot.heard

/-- The release side that a fence of the acting context makes now (R247). -/
def State.fenceSide (s : State) (sc : BitVec 3) : Side := { by_ := s.party s.cur, scope := sc, clk := s.relClock }

/-- A release fence of the acting context, for the writes after it (R247). -/
def State.fenceRel (s : State) (sc : BitVec 3) : State :=
  s.modSlot fun l => { l with fences := l.fences.filter (·.scope ≠ sc) ++ [s.fenceSide sc] }

/-- A full fence: it learns the full fences completed before it whose scopes, like its own, cover both contexts, and joins their order
(R249). -/
def State.fullFence (s : State) (sc : BitVec 3) : State :=
  let s := s.acquireAt sc ((s.fenceLearns sc).join (learn (s.party s.cur) sc s.fulls))
  let s := s.fenceRel sc
  { s with fulls := s.fulls ++ [s.fenceSide sc] }

/-- `fence.acq` (R135). -/
def execFenceAcq (o : FenceOp) (s : State) : Res :=
  finish s do
    if s.loadsDone s.cur then .ok ((s.acquireAt o.scope (s.fenceLearns o.scope)).advance 4) else waitHere s 6

/-- `fence.rel` (R135). -/
def execFenceRel (o : FenceOp) (s : State) : Res :=
  finish s do
    if s.eventsDone s.cur o.scope then .ok ((s.fenceRel o.scope).advance 4) else waitHere s 6

/-- `fence.full` (R135). -/
def execFenceFull (o : FenceOp) (s : State) : Res :=
  finish s do
    if s.loadsDone s.cur && s.eventsDone s.cur o.scope then .ok ((s.fullFence o.scope).advance 4)
    else waitHere s 6

/-- Whether a command's owner is the present task of a slot (R169). -/
def Owner.ofSlot (w : Owner) (k : SlotNo) (l : Slot) : Bool := w.slot = k && w.gen = l.gen

/-- `vfence` (R136). -/
def execVfence (_o : VfenceOp) (s : State) : Res :=
  finish s do
    if (s.reqsOf s.cur).any (·.isStoreLike) then waitHere s 6
    else if s.core.gemvs.any fun w => w.ofSlot s.cur.slot s.slot then waitHere s 8
    else .ok (((s.joinsUnit .vault).modCore fun c => { c with rlb := c.rlb.filter fun l => (homeCore l.key).isSome }).advance 4)

/-! ### Count barriers -/

/-- A barrier operation that holds its context in a `wait until`: the wait's kind, object and phase are recorded (R139, R150,
R340). -/
def heldWait {α : Type} (s : State) (kind : Nat) (obj ph : Word) : Body α := .error (.wait s { kind := kind, obj := obj, ph := ph })

/-- `cbinit` (R139). -/
def execCbinit (o : RAB) (s : State) : Res :=
  finish s do
    issueRule s [(.x o.a, o.wa), (.x o.b, o.wb)] []
    let a := s.xv o.a
    let key ← localObject s a 16 16
    heldWait (s.send a (.cbinit key (s.xv o.b))) 6 (s.slot.pc.setWidth 64) 0

/-- `cbarrive`: a release at module scope; the arrival is sent and the context goes on (R139). -/
def execCbarrive (o : RA) (s : State) : Res :=
  finish s do
    issueRule s [(.x o.a, o.wa)] []
    let a := s.xv o.a
    let key ← localObject s a 16 16
    needReleased s
    .ok ((s.send a (.cbarrive key)).advance 4)

/-- `cbexpect`: δ = SEXT(B[31:0]), relaxed (R139). -/
def execCbexpect (o : RAB) (s : State) : Res :=
  finish s do
    issueRule s [(.x o.a, o.wa), (.x o.b, o.wb)] []
    let a := s.xv o.a
    let key ← localObject s a 16 16
    .ok ((s.send a (.cbexpect key ((s.xv o.b).setWidth 32).toInt)).advance 4)

/-- `cbwait` (R139). -/
def execCbwait (o : RAB) (s : State) : Res :=
  finish s do
    issueRule s [(.x o.a, o.wa), (.x o.b, o.wb)] []
    let a := s.xv o.a
    let key ← localObject s a 16 16
    let ph := (s.xv o.b).getLsbD 0
    heldWait (s.send a (.cbwait key ph none .wait)) 1 a (if ph then 1 else 0)

/-- A request that tests a phase at the home and brings the answer back (R139). -/
def testPhase (s : State) (o : R3) (how : CbHow) : Body State := do
  issueRule s [(.x o.a, o.wa), (.x o.b, o.wb)] [.x o.d]
  let a := s.xv o.a
  let key ← localObject s a 16 16
  heldWait (s.send a (.cbwait key ((s.xv o.b).getLsbD 0) (some o.d) how)) 6 (s.slot.pc.setWidth 64) 0

/-- `cbtwait`: as `cbwait` with a limit; with a limit of 0 it asks as `cbtest` does, its wait over with the answer (R139, R393). -/
def execCbtwait (o : R3) (s : State) : Res :=
  finish s do
    issueRule s [(.x o.a, o.wa), (.x o.b, o.wb)] [.x o.d]
    if (s.xv o.b).toNat / 2 ^ 32 = 0 then testPhase s o .poll
    else
      let a := s.xv o.a
      let key ← localObject s a 16 16
      let ph := (s.xv o.b).getLsbD 0
      heldWait (s.send a (.cbwait key ph (some o.d) .wait)) 1 a (if ph then 1 else 0)

/-- `cbtest` (R139). -/
def execCbtest (o : R3) (s : State) : Res := finish s (testPhase s o .test)

/-! ### Wire barriers -/

/-- The barrier number of an instruction of major 0x39 (R140). -/
def barNumber (s : State) (a : XReg) : Body (Fin 16) :=
  if h : (s.xv a).toNat < 16 then .ok ⟨(s.xv a).toNat, h⟩ else trapIllegal s

/-- A barrier number as the four bits that messages carry. -/
def barBits (n : Fin 16) : BitVec 4 := BitVec.ofNat 4 n.val

/-- The combine operations: sum, min and max of signed 64-bit integers (R140). -/
def wbCombine (op : BitVec 2) (a b : Word) : Word :=
  if op = 0 then a + b else if op = 1 then (if b.slt a then b else a) else (if a.slt b then b else a)

/-- The identity of the crew's operation (R144). -/
def wbIdentity (op : BitVec 2) : Word :=
  if op = 0 then 0 else if op = 1 then 0x7FFF_FFFF_FFFF_FFFF else 0x8000_0000_0000_0000

/-- A message of a crew's launch to the root of a wire barrier (R371). -/
def State.sendWb (s : State) (c : CoreId) (launch : Word32) (bar : Fin 16) (kind : WbKind) : State :=
  State.fresh { s with
    wbmsgs := s.wbmsgs ++ [{ id := s.nextId, core := c, tenant := (s.getCore c).tenant, launch := launch, bar := barBits bar,
                             kind := kind }] }

/-- What a core keeps for a barrier as a member of the crew of its present launch (R371). -/
def Core.member (k : Core) (bar : Fin 16) : Option WbMember := k.wb[bar].filter fun m => m.launch = k.launch

/-- The contexts joined to a barrier on a core. -/
def WbMember.joinedSlots (m : WbMember) : List (Fin 16) := (List.finRange 16).filter fun i => m.joined.getLsbD i.val

/-- Whether every joined context has arrived for phase `p` (R142). -/
def WbMember.allArrived (m : WbMember) (p : Nat) : Bool := m.joinedSlots.all fun i => p < m.ctxNext[i]

/-- The combination of the joined contexts' values for phase `p`. -/
def WbMember.value (m : WbMember) (p : Nat) : Word :=
  let vs := (m.arrivals.filter fun a => a.phase = p && m.joined.getLsbD a.slot.toNat).map (·.val)
  match vs with
  | [] => wbIdentity m.op
  | v :: l => l.foldl (wbCombine m.op) v

/-- Send the core's arrivals for which every joined context has arrived, up to a lead of three; one that a `wbleave` completes waits too where
the lead is three (R140-R142, R144; DESIGN CHOICE, log 59). -/
def State.wbSend (s : State) (c : CoreId) (bar : Fin 16) : Nat → State
  | 0 => s
  | n + 1 =>
    match (s.getCore c).wb[bar] with
    | none => s
    | some m =>
      if m.joined = 0 || 3 ≤ m.lead || !m.allArrived m.next then s
      else
        let ctrg := m.arrivals.any fun a => a.phase = m.next && a.dest.isSome
        let recs := (m.arrivals.filter fun a => a.phase = m.next).filterMap fun a => a.dest.map fun d => (m.next, d)
        let counters := if ctrg then (s.getCore c).xcnt.toList.map (·.toNat) else List.replicate 16 0
        let s := s.sendWb c m.launch bar (.arrive m.next (m.value m.next) counters ctrg)
        let m := { m with next := m.next + 1, lead := m.lead + 1, recs := m.recs ++ recs,
                          arrivals := m.arrivals.filter fun a => a.phase ≠ m.next }
        (s.onCore c fun k => { k with wb := k.wb.set bar.val (some m) }).wbSend c bar n

/-- A core with no joined context and no arrival outstanding leaves the crew (R141). -/
def State.wbLeaveCore (s : State) (c : CoreId) (bar : Fin 16) : State :=
  match (s.getCore c).wb[bar] with
  | some m =>
    if m.joined = 0 && m.lead = 0 then
      (s.sendWb c m.launch bar .leave).onCore c fun k => { k with wb := k.wb.set bar.val none }
    else s
  | none => s

/-- A context leaves a barrier (R141): it stops being counted, and the core's arrival is sent if the others have arrived
(DEDUCED, log 25). -/
def State.wbLeave (s : State) (o : SlotId) (bar : Fin 16) : State :=
  match (s.getCore o.core).wb[bar] with
  | some m =>
    let joined := setBit m.joined o.slot.toNat false
    let m := { m with joined := joined, arrivals := if joined = 0 then [] else m.arrivals.filter fun a => a.slot ≠ o.slot }
    let s := s.onCore o.core fun k => { k with wb := k.wb.set bar.val (some m) }
    if joined = 0 then s.wbLeaveCore o.core bar else s.wbSend o.core bar 3
  | none => s

/-- A context leaves every barrier it has joined (R141, R213). -/
def State.wbLeaveAll (s : State) (o : SlotId) : State :=
  (List.finRange 16).foldl (fun s b =>
    match (s.getCore o.core).wb[b] with
    | some m => if m.joined.getLsbD o.slot.toNat then s.wbLeave o b else s
    | none => s) s

/-- A join of this core that is on its way or answered (R141). -/
def State.joinPending (s : State) (c : CoreId) (bar : BitVec 4) : Bool :=
  (s.wbmsgs.any fun m => m.core = c && m.bar = bar &&
    (match m.kind with
     | .join _ _ _ _ => true
     | _ => false)) ||
  s.wbacks.any fun a => a.core = c && a.bar = bar

/-- Whether a barrier number is held by another launch of the partition (R371). -/
def State.wbHeldByOther (s : State) (c : CoreId) (bar : BitVec 4) : Bool :=
  let k := s.getCore c
  s.wbroots.any fun r => r.tenant = k.tenant && r.bar = bar && r.launch ≠ k.launch && !r.members.isEmpty

/-- `wbjoin` (R141). A first join goes to the root, and the context waits for its answer. -/
def execWbjoin (o : RAB) (s : State) : Res :=
  finish s do
    issueRule s [(.x o.a, o.wa), (.x o.b, o.wb)] []
    let bar ← barNumber s o.a
    let op := (s.xv o.b).setWidth 2
    if op = 3 then trapIllegal s
    else match s.core.member bar with
      | some m =>
        if m.op ≠ op then trapIllegal s
        else if m.joined.getLsbD s.cur.slot.toNat then .ok (s.advance 4)
        else
          let m := { m with joined := setBit m.joined s.cur.slot.toNat true,
                            ctxNext := m.ctxNext.setIfInBounds s.cur.slot.toNat m.next }
          .ok ((s.modCore fun k => { k with wb := k.wb.set bar.val (some m) }).advance 4)
      | none =>
        if s.slot.joinAns = some { bar := barBits bar, ok := false } then trapIllegal s
        else if s.joinPending s.cur.core (barBits bar) then
          waitFor s (if s.wbHeldByOther s.cur.core (barBits bar) then 12 else 6)
            (if s.wbHeldByOther s.cur.core (barBits bar) then (barBits bar).setWidth 64 else s.slot.pc.setWidth 64) 0
        else
          let t := s.sendWb s.cur.core s.core.launch bar (.join op s.cur.slot s.slot.gen s.slot.pc)
          waitFor t (if s.wbHeldByOther s.cur.core (barBits bar) then 12 else 6)
            (if s.wbHeldByOther s.cur.core (barBits bar) then (barBits bar).setWidth 64 else s.slot.pc.setWidth 64) 0

/-- `wbleave` (R141). -/
def execWbleave (o : RA) (s : State) : Res :=
  finish s do
    issueRule s [(.x o.a, o.wa)] []
    let bar ← barNumber s o.a
    match s.core.member bar with
    | some m => if m.joined.getLsbD s.cur.slot.toNat then .ok ((s.wbLeave s.cur bar).advance 4) else trapIllegal s
    | none => trapIllegal s

/-- What happens before the completion of a phase of a barrier of the acting core's partition (R248). -/
def State.wireClock (s : State) (bar : Fin 16) (p : Nat) : Clock :=
  (tabGet? s.wires (s.core.tenant, barBits bar, p)).getD Clock.zero

/-- What happens before an arrival counted before the completion of its phase (R248). -/
def State.joinWire (s : State) (bar : Fin 16) (p : Nat) (c : Clock) : State :=
  { s with wires := tabPut s.wires (s.core.tenant, barBits bar, p) ((s.wireClock bar p).join c) }

/-- An arrival of the acting context for its next phase (R142): ILLEGAL when it is not joined, the wait for the lead, counted with the core's
arrivals that are held for it (log 59), the release, then the arrival; the phase is returned. -/
def wbArrive (s : State) (bar : Fin 16) (val : WbMember → Word) (dest : Option Word) : Body (State × Nat) :=
  match s.core.member bar with
  | none => trapIllegal s
  | some m =>
    if !m.joined.getLsbD s.cur.slot.toNat then trapIllegal s
    else
      let p := m.ctxNext.getD s.cur.slot.toNat 0
      let others := m.joinedSlots.all fun i => i.val = s.cur.slot.toNat || p < m.ctxNext[i]
      if others && 3 ≤ m.lead + (p - m.next) then waitFor s 2 ((barBits bar).setWidth 64) (BitVec.ofNat 64 p)
      else do
        needReleased s
        let m := { m with ctxNext := m.ctxNext.setIfInBounds s.cur.slot.toNat (p + 1),
                          arrivals := m.arrivals ++ [{ phase := p, slot := s.cur.slot, val := val m, dest := dest }] }
        let t := s.modCore fun k => { k with wb := k.wb.set bar.val (some m) }
        .ok ((t.wbSend s.cur.core bar 3).joinWire bar p s.relClock, p)

/-- `wbarrive` (R142). -/
def execWbarrive (o : R3) (s : State) : Res :=
  finish s do
    issueRule s [(.x o.a, o.wa), (.x o.b, o.wb)] [.x o.d]
    let bar ← barNumber s o.a
    let (t, p) ← wbArrive s bar (fun _ => s.xv o.b) none
    .ok ((t.putX o.d (BitVec.ofNat 64 p)).advance 4)

/-- The member state that `wbwait`, `wbtwait` and `wbget` read; ILLEGAL on a core that is no member of its launch's crew (R143, R371). -/
def wbMember (s : State) (bar : Fin 16) : Body WbMember :=
  match s.core.member bar with
  | some m => .ok m
  | none => trapIllegal s

/-- `wbwait`: an acquire at module scope (R143). -/
def execWbwait (o : RAB) (s : State) : Res :=
  finish s do
    issueRule s [(.x o.a, o.wa), (.x o.b, o.wb)] []
    let bar ← barNumber s o.a
    let m ← wbMember s bar
    let p := (s.xv o.b).toNat
    if p < m.done then .ok (((s.sampleCycles s.cur.core 5).acquireAt 6 (s.wireClock bar p)).advance 4) else waitFor s 2 ((barBits bar).setWidth 64) (s.xv o.b)

/-- The phase that B[15:0] of `wbtwait` names: the nearest to the core's next arrival phase, the lower of two (R143). -/
def nearestPhase (next low : Nat) : Nat :=
  let d := (low + 65536 - next % 65536) % 65536
  if d < 32768 then next + d else if next + d < 65536 then next + d else next + d - 65536

/-- `wbtwait` (R143); the expiry stands in WBTWAIT_EXPIRY. -/
def execWbtwait (o : R3) (s : State) : Res :=
  finish s do
    issueRule s [(.x o.a, o.wa), (.x o.b, o.wb)] [.x o.d]
    let bar ← barNumber s o.a
    let m ← wbMember s bar
    let p := nearestPhase m.next ((s.xv o.b).toNat % 65536)
    if p < m.done then .ok ((((s.sampleCycles s.cur.core 5).acquireAt 6 (s.wireClock bar p)).putX o.d 1).advance 4)
    else if (s.xv o.b).toNat / 2 ^ 32 = 0 then .ok (((s.sampleCycles s.cur.core 5).putX o.d 0).advance 4)
    else .error (.wait s { kind := 2, obj := (barBits bar).setWidth 64, ph := BitVec.ofNat 64 p, dest := some o.d })

/-- `wbget` (R143). -/
def execWbget (o : R3) (s : State) : Res :=
  finish s do
    issueRule s [(.x o.a, o.wa), (.x o.b, o.wb)] [.x o.d]
    let bar ← barNumber s o.a
    let m ← wbMember s bar
    let p := (s.xv o.b).toNat
    if m.done ≤ p then waitFor s 2 ((barBits bar).setWidth 64) (s.xv o.b)
    else match tabGet? m.values p with
      | some v => .ok ((((s.sampleCycles s.cur.core 5).acquireAt 6 (s.wireClock bar p)).putX o.d v).advance 4)
      | none => trapFault .range (s.xv o.b)

/-- `ctrg`: an arrival with the identity as its value, and a record for the crew's counters (R144). -/
def execCtrg (o : RAB) (s : State) : Res :=
  finish s do
    issueRule s [(.x o.a, o.wa), (.x o.b, o.wb)] []
    let bar ← barNumber s o.a
    let m ← wbMember s bar
    if !m.joined.getLsbD s.cur.slot.toNat then trapIllegal s
    else
      let off ← ownOffset s (s.xv o.b) 64 128
      let (t, _) ← wbArrive s bar (fun m => wbIdentity m.op) (some (BitVec.ofNat 64 off))
      .ok (t.advance 4)

/-! ### Notice boards -/

/-- The home of the board that an operand names, its low bits given (R145): PLACE, RANGE and the rest report the operand; local memory
through windows 1 to 6 is WINDOW (DEDUCED, log 50). -/
def boardAt (s : State) (a : Word) (size : Nat) : Body Nat :=
  match s.target s.cur.core (a - BitVec.ofNat 64 (a.toNat % 512)) size with
  | .error k => trapFault k a
  | .ok (.loc c win off) => if win ≠ 0 then trapFault .window a else .ok (localKey c off)
  | .ok (.virt _) => trapFault .place a

/-- `nbinit` (R146). Address faults and ALIGN come before ILLEGAL for B, as R35 and R37 come before the entry's checks (DESIGN CHOICE, log 62). -/
def execNbinit (o : NbinitOp) (s : State) : Res :=
  finish s do
    issueRule s [(.x o.a, o.wa), (.x o.b, o.wb)] []
    let a := s.xv o.a
    let n := (s.xv o.b).toNat
    let key ← boardAt s a (if n ≤ 256 then 128 + 16 * n else 1)
    if a.toNat % 512 ≠ 0 then trapFault .align a
    else if n = 0 || 256 < n then trapIllegal s
    else heldWait (s.send a (.nbinit key n)) 6 (s.slot.pc.setWidth 64) 0

/-- The board that a refused post of the acting context waits for (R147). -/
def State.refusedOf (s : State) (o : SlotId) : Option RefusedPost :=
  s.refused.find? fun r => r.core = o.core && r.slot = o.slot && r.gen = (s.getSlot o).gen

/-- `postv` (R147): after a refusal it waits until the level has advanced; else, once released, it is sent and the context is
held until the view returns. -/
def execPostv (o : PostvOp) (s : State) : Res :=
  finish s do
    issueRule s [(.x o.a, o.wa), (.x o.b, o.wb)] [.x o.d]
    let a := s.xv o.a
    let key ← boardAt s a 128
    if a.getLsbD 8 then trapFault .align a
    else match s.refusedOf s.cur with
      | some r => waitFor s 3 (a - BitVec.ofNat 64 (a.toNat % 512)) r.level
      | none => do
        needReleased s
        .error (.held ((s.emptyX o.d).send a (.postv key (a.toNat % 256) (s.xv o.b) o.d o.m o.wa)))

/-- `nbread`: an acquire at module scope (R149). -/
def execNbread (o : NbreadOp) (s : State) : Res :=
  finish s do
    issueRule s [(.x o.a, o.wa)] []
    let a := s.xv o.a
    let key ← boardAt s a 128
    if a.toNat % 512 ≠ 0 then trapFault .align a
    else .error (.held (s.send a (.nbread key o.m)))

/-- `vtest` (R149). -/
def execVtest (o : VtestOp) (s : State) : Res :=
  finish s do
    issueRule s [(.x o.a, o.wa)] [.x o.d]
    let a := (s.xv o.a).toNat
    .ok ((s.putX o.d (if a ≤ 255 && (s.slot.getM o.m).getLsbD a then 1 else 0)).advance 4)

/-- `vcount` (R149). -/
def execVcount (o : VcountOp) (s : State) : Res :=
  finish s do
    issueRule s [] [.x o.d]
    let m := s.slot.getM o.m
    .ok ((s.putX o.d (BitVec.ofNat 64 (((List.range 256).filter fun i => m.getLsbD i).length))).advance 4)

end Sys2Proof.Machine
end

