-- ==== Sys2Proof/Machine/Units.lean ====
section
/-! DEFINITION. What the units of a core share: their accesses to global addresses (R168, R298), command ownership (R169), faults
that follow an instruction (R170), and parameter blocks (R168). -/

namespace Sys2Proof.Machine

open Sys2Proof

/-- Where a unit's access lies: the key of its first byte, the window of a local address, the leaf of a translated one. -/
structure UnitPlace where
  key : Nat
  win : Nat
  leaf : Option Word
  deriving DecidableEq, Repr

/-- An access of a unit of core `c` to `n` bytes: the checks of R35, and in translated space the walk and the checks of R297,
whose failure is the cause to report. -/
def State.unitPlace (s : State) (c : CoreId) (ea : Word) (n : Nat) (p : Perm) : Except (BitVec 16) (State × UnitPlace) :=
  match s.target c ea n with
  | .error k => .error k.scause
  | .ok (.loc cc win off) => .ok (s, { key := localKey cc off, win := win, leaf := none })
  | .ok (.virt va) =>
    match s.engineEntry (s.getCore c) va with
    | .error sc => .error sc
    | .ok (e, es) =>
      match s.useEntry (s.getCore c) e va p with
      | .error k => .error k.scause
      | .ok k =>
        let t := if ((s.getCore c).tlbFind va).isNone then s.sampleCycles c 11 else s
        .ok ((t.onCore c (·.tlbUse e)).cacheWalk (dieOf c) es, { key := k, win := 0, leaf := some e.leaf })

/-- Whether the translation that an access of a core came to, if it came to one, misses the TLB, so that a walk was made for it (R298). -/
def State.misses (s : State) (c : CoreId) (a : Option Word) : Bool :=
  a.any fun a => match addrForm c a with
    | .ok (.virt va) => ((s.getCore c).tlbFind va).isNone
    | _ => false

/-- The cycles of the walk of an access that then faulted sampled, whether the walk failed or the page did not allow the access (R393). -/
def State.sampleMiss (s : State) (c : CoreId) (a : Option Word) : State := if s.misses c a then s.sampleCycles c 11 else s

/-- A read of `n` bytes by a unit at a key: poison reports the granule (R308). -/
def State.unitRead (s : State) (k n : Nat) : Except Nat (List Byte) :=
  match s.poisonAt k n with
  | some g => .error (8 * g)
  | none => .ok (memReads s.mem k n)

/-- Whether the home of a key is a core that has saved itself, whose traffic goes to its save image (R336). -/
def State.homeSaved (s : State) (k : Nat) : Bool :=
  match homeCore k with
  | some c => (s.getCore c).saved
  | none => false

/-- Whether a command belongs to the present task of a slot (R169). -/
def Owner.isOf (w : Owner) (k : SlotNo) (gen : BitVec 16) : Bool := w.slot = k && w.gen = gen

/-- Whether the slot owns a command that can still act; a parked one whose fault it has taken does not count (R169). -/
def Core.ownsWork (c : Core) (k : SlotNo) : Bool :=
  let g := (c.getSlot k).gen
  c.mat.queue.any (·.own.isOf k g) || c.mat.run.any (·.own.isOf k g) || c.mat.parked.any (fun m => m.own.isOf k g && !m.taken) ||
    c.copy.queue.any (·.own.isOf k g) || c.copy.run.any (·.own.isOf k g) ||
    c.copy.parked.any (fun m => m.own.isOf k g && !m.taken) || c.copy.landing.any (·.own.isOf k g) ||
    c.gemvs.any (·.isOf k g) || c.tree.any (·.own.isOf k g) ||
    c.vch.any fun v => match v with
      | .codes w _ _ => w.isOf k g
      | .gemv _ => false

/-- The parked commands of a slot abandoned (R169, R174, R187). -/
def Core.abandonParked (c : Core) (k : SlotNo) : Core :=
  let g := (c.getSlot k).gen
  let c := if c.mat.parked.any (·.own.isOf k g) then
      { c with mat := { c.mat with parked := none }, mmprog := c.mmprog &&& 0x7FFF_FFFF_FFFF_FFFF } else c
  if c.copy.parked.any (·.own.isOf k g) then { c with copy := { c.copy with parked := none } } else c

/-- Whether a unit may start a command: every store, `amo`, `red` and `joinc` that its owner issued before it has been
acknowledged by its home (R168). -/
def State.ownerReleased (s : State) (c : CoreId) (w : Owner) : Bool :=
  s.reqs.all fun r => !(r.core = c && r.slot = w.slot && r.gen = w.gen && r.isStoreLike && r.id < w.after)

/-- A command's fault, taken by its owner as an asynchronous supervisor cause (R170); an owner that is gone takes nothing. -/
def State.unitFault (s : State) (c : CoreId) (w : Owner) (scause : BitVec 16) (val : Word) (engine : Option Engine) : State :=
  let o : SlotId := { core := c, slot := w.slot }
  if (s.getSlot o).gen = w.gen && (s.getSlot o).st ≠ .free then s.addAsync o { scause := scause, val := val, engine := engine }
  else s

/-- The owner of a command that the acting slot issues: what the context has done before, and what its acquires have learned, happens before
the command (R168, R244, R257). -/
def State.owner (s : State) : Owner :=
  { slot := s.cur.slot, gen := s.slot.gen, pc := s.slot.pc, after := s.nextId, clk := s.relClock }

/-- The check of a parameter block's address at issue: own local memory, window 0, aligned to 64 bytes (R168). -/
def blockOffset (s : State) (a : Word) (size : Nat) : Body Nat := ownOffset s a 64 size

/-- A little-endian field of bytes. -/
def fieldOf (bs : List Byte) (off n : Nat) : Nat := leNat ((bs.drop off).take n)

/-- A signed 32-bit field of bytes. -/
def intOf (bs : List Byte) (off : Nat) : Int := (BitVec.ofNat 32 (fieldOf bs off 4)).toInt

end Sys2Proof.Machine
end

