-- ==== Sys2Proof/Machine/Tasks.lean ====
section
/-! DEFINITION. Task messages, arrival queues and spill areas, dispatch (R197-R204), spawn counts and reports (R201, R205), the
task instructions (R206-R214), and the cox of a die (R208, R328, R329). -/

namespace Sys2Proof.Machine

open Sys2Proof

/-! ### Entries -/

/-- EHDR of an entry (R198). -/
def TaskEntry.ehdr (t : TaskEntry) : Nat :=
  t.handler.toNat + t.flags.toNat * 2 ^ 20 + t.sender.toNat * 2 ^ 28 + t.cgen.toNat * 2 ^ 46

/-- The 64 bytes of an arrival-queue or spill entry (R198). -/
def TaskEntry.bytes (t : TaskEntry) : List Byte :=
  natBytes 8 t.ehdr ++ ((List.range 6).flatMap fun i => natBytes 8 (t.args.getD i 0).toNat) ++
    natBytes 4 (t.args.getD 6 0).toNat ++ natBytes 4 (t.args.getD 7 0).toNat

/-- The argument words of 64 bytes: six of 64 bits, two of 32 (R197). -/
def argWords (bs : List Byte) : Vector Word 8 :=
  Vector.ofFn fun i => BitVec.ofNat 64 (if i.val < 6 then fieldOf bs (8 + 8 * i.val) 8 else fieldOf bs (56 + 4 * (i.val - 6)) 4)

/-- The entry that 64 bytes hold (R198). -/
def entryOf (bs : List Byte) : TaskEntry :=
  let e := fieldOf bs 0 8
  { handler := BitVec.ofNat 20 e, flags := BitVec.ofNat 8 (bits e 20 8), sender := BitVec.ofNat 18 (bits e 28 18),
    cgen := BitVec.ofNat 16 (bits e 46 16), args := argWords bs }

/-! FLAGS (R199). -/
def flagU : Byte := 0x80
def flagPLACED : Byte := 0x40
def flagXFER : Byte := 0x20
def flagJOIN : Byte := 0x10
def flagFORK : Byte := 0x08
def flagMIG : Byte := 0x04
def flagCALL : Byte := 0x02
def flagREL : Byte := 0x01

/-! ### Dispatch -/

/-- A reply token (R200) (DEDUCED, log 27). -/
def replyToken (t : TaskEntry) : Word :=
  let a := (t.args.getD 7 0).toNat
  BitVec.ofNat 64 (t.cgen.toNat * 2 ^ 32 + bits a 0 5 * 2 ^ 22 + bits a 5 4 * 2 ^ 18 + t.sender.toNat)

/-- x9 at task start (R17). -/
def senderWord (modid : BitVec 16) (t : TaskEntry) : Word :=
  BitVec.ofNat 64 (modid.toNat * 2 ^ 48 + t.flags.toNat * 2 ^ 32 + t.sender.toNat)

/-- The x registers at task start (R17, R197, R200). -/
def taskX (modid : BitVec 16) (t : TaskEntry) : Vector Word 32 :=
  Vector.ofFn fun i =>
    let n := i.val
    if n = 0 || 10 ≤ n then 0
    else if n = 9 then senderWord modid t
    else if n = 8 && t.flags &&& flagCALL ≠ 0 then replyToken t
    else if 7 ≤ n then sx ((t.args.getD (n - 1) 0).setWidth 32)
    else t.args.getD (n - 1) 0

/-- A slot at task start (R17): registers, control registers whose reset is the task, mode user, state Ready. -/
def Slot.start (l : Slot) (modid : BitVec 16) (t : TaskEntry) : Slot :=
  { Slot.reset with
    st := .ready, pc := if codeOk t.handler.toNat then t.handler else l.pc, x := taskX modid t,
    gen := l.gen, prio := l.prio, tvec := l.tvec, spnlim := l.spnlim,
    sepc := l.sepc, scause := l.scause, sval := l.sval, sscratch := l.sscratch }

/-- A task dispatched to a slot: an acquire at module scope (R204), which learns what a releasing send orders before it, and what its launch's
start does (R248, R261); a handler that is no code offset is FETCH (R18). -/
def State.dispatch (s : State) (o : SlotId) (t : TaskEntry) : State :=
  let s := (s.onSlot o fun l => { l.start s.bar0.modid t with clk := (s.getCore o.core).base.join t.clk }).acquired o.core
  if codeOk t.handler.toNat then s
  else s.takeSup o FKind.fetch.scause (t.handler.setWidth 64) (s.getSlot o).pc

/-- The lowest-numbered Free slot of a core. -/
def Core.freeSlot (c : Core) : Option SlotNo :=
  ((List.range 16).find? fun i => (c.getSlot (BitVec.ofNat 4 i)).st = .free).map fun i => BitVec.ofNat 4 i

/-- Whether the core dispatches tasks now: not while halted or saving (R117, R335). -/
def Core.dispatches (c : Core) : Bool := !c.halted && !c.saving && !c.saved

/-- The memory key of entry `n` of the arrival queue's ring (R32). -/
def Core.aqKey (c : Core) (n : Nat) : Nat := localKey c.id (c.aqBase.toNat + 64 * (n % max 1 c.aqDepth.toNat))

/-- The arrival queue's length (DEDUCED, log 28). -/
def Core.aqLen (c : Core) : Nat := c.aqTail - c.aqHead

/-- An entry appended to the arrival queue (R198, R202). -/
def State.aqPush (s : State) (c : CoreId) (t : TaskEntry) : State :=
  ((s.wrPieces [((s.getCore c).aqKey (s.getCore c).aqTail, t.bytes)]).banked c).onCore c fun k =>
    { k.setMark (.queued k.aqTail) t.clk with aqTail := k.aqTail + 1 }

/-- A spill area that faults: the host is told, and spilling stops, with refills, until the next launch start, since R203 does not say when it
goes on (R203, R385) (DESIGN CHOICE, log 64). -/
def State.spillFault (s : State) (c : CoreId) (ea : Word) (sc : BitVec 16) : State :=
  ((s.report 13 c (s.getCore c).launch ea (sc.setWidth 64)).sampleMiss c (some ea)).onCore c fun k => { k with spillStopped := true }

/-- A place in a core's spill area (R203). -/
def State.spillPlace (s : State) (c : CoreId) (off : Nat) (p : Perm) : Except (Word × BitVec 16) (State × Nat) :=
  let ea := (s.getCore c).spillptr + BitVec.ofNat 64 off
  match s.unitPlace c ea 1 p with
  | .error sc => .error (ea, sc)
  | .ok (s, u) => if u.leaf.isNone then .error (ea, FKind.place.scause) else .ok (s, u.key)

/-- An entry appended to the spill area, or refused (R202, R203). -/
def State.spillPush (s : State) (c : CoreId) (t : TaskEntry) : State × Bool :=
  let k := s.getCore c
  if k.spillStopped then (s, false)
  else match s.spillPlace c 0 .rw with
    | .error (ea, sc) => (s.spillFault c ea sc, false)
    | .ok (s, h) =>
      let cap := (s.rd64 h).toNat
      if cap ≤ k.spillTail - k.spillHead then (s, false)
      else match s.spillPlace c (64 + 64 * (k.spillTail % max 1 cap)) .w with
        | .error (ea, sc) => (s.spillFault c ea sc, false)
        | .ok (s, e) =>
          let s := (s.wrPieces [(e, t.bytes)]).wr (h + 16) 8 (k.spillTail + 1)
          (s.onCore c fun k =>
            { ((k.count 7 1).sample 8 (BitVec.ofNat 64 (k.spillTail + 1 - k.spillHead))).setMark (.spilled k.spillTail) t.clk with
              spillTail := k.spillTail + 1 }, true)

/-- The oldest spilled entry moves into a freed queue entry (R202). Poison in the spill header or in the entry does not stop it: the bytes held
are used (DESIGN CHOICE, log 65). -/
def State.spillRefill (s : State) (c : CoreId) : State :=
  let k := s.getCore c
  if k.spillTail ≤ k.spillHead || k.spillStopped || k.aqDepth.toNat ≤ k.aqLen then s
  else match s.spillPlace c 0 .rw with
    | .error (ea, sc) => s.spillFault c ea sc
    | .ok (s, h) =>
      match s.spillPlace c (64 + 64 * (k.spillHead % max 1 (s.rd64 h).toNat)) .r with
      | .error (ea, sc) => s.spillFault c ea sc
      | .ok (s, e) =>
        let t := { entryOf (memReads s.mem e 64) with clk := k.markOf (.spilled k.spillHead) }
        let s := (s.wr (h + 8) 8 (k.spillHead + 1)).onCore c fun k => { k with spillHead := k.spillHead + 1 }
        s.aqPush c t

/-- Whether a core has a task waiting in its queue or spill area. -/
def Core.backlog (c : Core) : Bool := c.aqHead < c.aqTail || c.spillHead < c.spillTail

/-- An accepted message dispatched, queued or spilled; `false` when it is refused (R202, R203). -/
def State.accept (s : State) (c : CoreId) (t : TaskEntry) : State × Bool :=
  let k := s.getCore c
  match k.freeSlot with
  | some i =>
    if k.dispatches && !k.backlog then (s.dispatch { core := c, slot := i } t, true)
    else if k.spillTail ≤ k.spillHead && k.aqLen < k.aqDepth.toNat then (s.aqPush c t, true)
    else s.spillPush c t
  | none =>
    if k.spillTail ≤ k.spillHead && k.aqLen < k.aqDepth.toNat then (s.aqPush c t, true)
    else s.spillPush c t

/-! ### Messages in flight -/

/-- A task message sent. -/
def State.sendTask (s : State) (dst : TaskDest) (h : HeldTask) (initial : Option Nat) : State :=
  State.fresh { s with tmsgs := s.tmsgs ++ [{ id := s.nextId, dst := dst, held := h, initial := initial, refused := false }] }

/-- A message acknowledged to the slot whose spawn count holds it (R205). -/
def State.ackTask (s : State) (h : HeldTask) : State :=
  if h.counted then
    State.fresh { s with sacks := s.sacks ++ [{ id := s.nextId, core := h.origin, slot := h.slot, gen := h.gen }] }
  else s

/-- A BADHANDLER report sent to the core of the slot that answers for a message (R134, R201). -/
def State.reportBad (s : State) (h : HeldTask) (val : Word) : State :=
  State.fresh { s with
    bads := s.bads ++ [{ id := s.nextId, core := h.origin, slot := h.slot, gen := h.gen, launch := h.launch,
                         sender := h.task.sender, val := val }] }

/-- Whether a core accepts a message's launch and handler (R201). -/
def Core.admits (c : Core) (h : HeldTask) : Bool :=
  h.launch = c.launch && h.task.handler.toNat % 4 = 0 && c.hbase.toNat ≤ h.task.handler.toNat &&
    h.task.handler.toNat < c.hlim.toNat

/-- The core whose messages a destination core accepts in sequence: not the launcher, which sends the initial messages, nor a cox,
which places what it holds. -/
def TaskMsg.source (m : TaskMsg) : Option CoreId :=
  if m.initial.isSome || m.held.task.flags &&& flagPLACED ≠ 0 then none else some m.held.task.sender

/-- Whether a message is the next that its destination core accepts from the core that sent it (R205, R363). -/
def State.taskFirst (s : State) (m : TaskMsg) : Bool :=
  !m.refused &&
    (match m.dst with
     | .cox _ => true
     | .core _ => m.source.isNone || s.tmsgs.all fun q => m.id ≤ q.id || q.dst ≠ m.dst || q.source ≠ m.source)

/-- Whether a message may be met by its destination; a saved core's messages go to its image (R336). -/
def State.taskMayArrive (s : State) (m : TaskMsg) : Bool :=
  s.taskFirst m &&
    (match m.dst with
     | .core c => !(s.getCore c).saved
     | .cox _ => true)

/-- A message met by its destination core: rejected, accepted or refused (R201-R203, R320). A core that still has a Free slot after a placement
reports it again (R328). -/
def State.taskAtCore (s : State) (m : TaskMsg) (c : CoreId) : State :=
  let gone := { s with tmsgs := s.tmsgs.filter (·.id ≠ m.id) }
  if (s.getCore c).admits m.held then
    match s.accept c m.held.task with
    | (t, true) =>
      let t := t.onCore c fun k =>
        let k := k.sample 7 (BitVec.ofNat 64 (s.getCore c).aqLen)
        if m.held.task.flags &&& flagPLACED ≠ 0 then { k with coxFree := k.coxFree || k.freeSlot.isSome } else k
      ({ t with tmsgs := t.tmsgs.filter (·.id ≠ m.id) } : State).ackTask m.held
    | (t, false) => { t with tmsgs := t.tmsgs.map fun q => if q.id = m.id then { q with refused := true } else q }
  else
    match m.initial with
    | some i => gone.report 6 c m.held.launch (m.held.task.handler.setWidth 64) (BitVec.ofNat 64 i)
    | none => (gone.ackTask m.held).reportBad m.held (m.held.task.handler.setWidth 64)

/-- The tasks that a cox holds. -/
def State.coxOf (s : State) (d : Die) : List HeldTask := (tabGet? s.cox d).getD []

/-- A message met by a cox: held, or refused while its queue of 256 is full (R208). -/
def State.taskAtCox (s : State) (m : TaskMsg) (d : Die) : State :=
  if (s.coxOf d).length < 256 then
    { s with tmsgs := s.tmsgs.filter (·.id ≠ m.id), cox := tabPut s.cox d (s.coxOf d ++ [m.held]) }
  else { s with tmsgs := s.tmsgs.map fun q => if q.id = m.id then { q with refused := true } else q }

/-- `TASK_MESSAGE_ARRIVAL`: message `n` reaches its destination (R201-R203, R208). -/
def execTaskMessageArrival (n : Nat) (s : State) : Res :=
  .next <|
    match s.tmsgs.find? (·.id = n) with
    | none => s
    | some m =>
      if s.taskMayArrive m then
        match m.dst with
        | .core c => s.taskAtCore m c
        | .cox d => s.taskAtCox m d
      else s

/-- `MESSAGE_RESEND`: a refused task or boundary message is sent again (R203, R231); a boundary message of a core that has saved is not
(R335, R354). -/
def execMessageResend (n : Nat) (s : State) : Res :=
  .next { s with
    tmsgs := s.tmsgs.map fun m => if m.id = n then { m with refused := false } else m
    bmsgs := s.bmsgs.map fun m => if m.id = n && !(s.getCore m.src).saved then { m with refused := false } else m }

/-- `SPAWN_ACKNOWLEDGEMENT`: the slot's count decreases if it still holds the task that sent (R205). -/
def execSpawnAcknowledgement (n : Nat) (s : State) : Res :=
  .next <|
    match s.sacks.find? (·.id = n) with
    | none => s
    | some a =>
      if (s.getCore a.core).saved then s
      else
        let o : SlotId := { core := a.core, slot := a.slot }
        let t := (({ s with sacks := s.sacks.filter (·.id ≠ n) } : State).sampleCycles a.core 13).sampleMany a.core 14
        if (s.getSlot o).gen = a.gen && (s.getSlot o).st ≠ .free then t.onSlot o fun l => { l with spawns := l.spawns - 1 }
        else t

/-- `BADHANDLER_REPORT`: counter 13, then the asynchronous cause in the slot that sent, stopped or not, or the error log where its
generation is gone (R201). -/
def execBadhandlerReport (n : Nat) (s : State) : Res :=
  .next <|
    match s.bads.find? (·.id = n) with
    | none => s
    | some b =>
      let o : SlotId := { core := b.core, slot := b.slot }
      let t := (({ s with bads := s.bads.filter (·.id ≠ n) } : State).onCore b.core (·.count 13 1)).sampleMany b.core 14
      if (s.getSlot o).gen = b.gen && (s.getSlot o).st ≠ .free then
        t.addAsync o { scause := cBADHANDLER, val := b.val, engine := none }
      else t.report 4 b.core b.launch b.val (b.sender.setWidth 64)

/-- `TASK_DISPATCH`: a Free slot is filled from the arrival queue, else from the newest fork (R204); the queue is refilled from
the spill area (R202). A poisoned queue entry is dispatched as its bytes are held (DESIGN CHOICE, log 65). -/
def execTaskDispatch (c : CoreId) (s : State) : Res :=
  .next <|
    let k := s.getCore c
    match k.freeSlot with
    | none => s
    | some i =>
      if !k.dispatches then s
      else
        let s := s.spillRefill c
        let k := s.getCore c
        if k.aqHead < k.aqTail then
          let t := { entryOf (memReads s.mem (k.aqKey k.aqHead) 64) with clk := k.markOf (.queued k.aqHead) }
          ((s.onCore c fun k => { k with aqHead := k.aqHead + 1 }).spillRefill c).dispatch { core := c, slot := i } t
        else match k.forks.getLast? with
          | some h => (s.onCore c fun k => { k with forks := k.forks.dropLast }).dispatch { core := c, slot := i } h.task
          | none => s

/-! ### The task instructions -/

/-- The bytes of the acting context's own local memory as it sees them, poisoned or not; an access of the context still on its way
to them is waited for (R245). -/
def peekOwn (s : State) (off n : Nat) : Body (List Byte) :=
  let k := localKey s.cur.core off
  if (s.reqsOf s.cur).any (·.delays { key := k, len := n }) then waitHere s 6 else .ok (s.ctxRead s.cur k n)

/-- The message that an instruction reads: its header is checked before any poison is met, then HDR and the first NARG arguments are
read, of which an instruction takes at most `most` (R197, R206, R211) (DEDUCED, log 30). -/
def readMessage (s : State) (addr : Word) (most : Nat := 8) : Body (Nat × Vector Word 8) := do
  let off ← ownOffset s addr 8 8
  let head ← peekOwn s off 8
  let hdr := leNat head
  let narg := bits hdr 20 4
  if hdr / 2 ^ 25 ≠ 0 || most < narg then trapFault .block addr
  else
    let len := 8 + 8 * min narg 6 + 4 * (narg - 6)
    if localSize < off + len then trapFault .range addr
    else do
      let bs ← readOwn s off len
      .ok (hdr, argWords bs)

/-- A core id operand: RSVD where [63:18] is not zero, ABSENT on a fenced die (R206). -/
def coreOperand (s : State) (a : Word) : Body CoreId :=
  let c : CoreId := a.setWidth 18
  if a.toNat / 2 ^ 18 ≠ 0 then trapFault .rsvd a
  else if s.fenced (dieOf c) then trapFault .absent a
  else .ok c

/-- The waits before a send: the release, then the spawn limit (R205, R206). -/
def sendGate (s : State) (rel counted : Bool) : Body Unit := do
  if rel then needReleased s
  if counted && max s.slot.spnlim.toNat 1 ≤ s.slot.spawns then waitHere s 7 (BitVec.ofNat 64 s.slot.spawns) else .ok ()

/-- The task of a message as it travels, with what a releasing send orders before its start (R197-R201, R248). -/
def heldTask (s : State) (hdr : Nat) (args : Vector Word 8) (flags : Byte) (cgen : BitVec 16) (counted : Bool) : HeldTask :=
  { launch := s.core.launch, origin := s.cur.core, slot := s.cur.slot, gen := s.slot.gen, counted := counted,
    task := { handler := BitVec.ofNat 20 hdr, flags := flags ||| (if bits hdr 24 1 = 1 then flagU else 0),
              sender := s.cur.core, cgen := cgen, args := args,
              clk := if flags &&& flagREL ≠ 0 then s.relClock else Clock.zero } }

/-- A counted send adds one to the spawns outstanding (R205). -/
def State.countSpawn (s : State) : State := s.modSlot fun l => { l with spawns := l.spawns + 1 }

/-- The REL flag. -/
def relFlag (rel : Bool) : Byte := if rel then flagREL else 0

/-- `spawn`: the message is checked before the core operand (R206, R207) (DEDUCED, log 50). -/
def execSpawn (o : SpawnOp) (s : State) : Res :=
  finish s do
    issueRule s [(.x o.a, o.wa), (.x o.b, o.wb)] []
    let (hdr, args) ← readMessage s (s.xv o.b)
    let c ← coreOperand s (s.xv o.a)
    sendGate s o.rel true
    .ok (((s.sendTask (.core c) (heldTask s hdr args (relFlag o.rel) 0 true) none).countSpawn).advance 4)

/-- `spawnd`: to the cox of the issuing core's die (R207, R208). -/
def execSpawnd (o : Send1Op) (s : State) : Res :=
  finish s do
    issueRule s [(.x o.a, o.wa)] []
    let (hdr, args) ← readMessage s (s.xv o.a)
    sendGate s o.rel true
    let h := heldTask s hdr args (relFlag o.rel ||| flagPLACED) 0 true
    .ok (((s.sendTask (.cox (dieOf s.cur.core)) h none).countSpawn).advance 4)

/-- `fork`: to the core's own fork queue; a full queue sends it by the arrival path. HANDLER is checked once the message has been
read, so that POISON comes before BADHANDLER (R207, R209) (DEDUCED, log 50). -/
def execFork (o : Send1Op) (s : State) : Res :=
  finish s do
    issueRule s [(.x o.a, o.wa)] []
    let (hdr, args) ← readMessage s (s.xv o.a)
    let h := heldTask s hdr args (relFlag o.rel ||| flagFORK) 0 false
    let n := h.task.handler.toNat
    if n % 4 ≠ 0 || n < s.core.hbase.toNat || s.core.hlim.toNat ≤ n then .error (.sup cBADHANDLER (BitVec.ofNat 64 n))
    else do
      sendGate s o.rel false
      if s.core.forks.length < 16 then .ok ((s.modCore fun c => { c with forks := c.forks ++ [h] }).advance 4)
      else .ok ((s.sendTask (.core s.cur.core) h none).advance 4)

/-- A `callat` for register d is pending; x0, which stays full, may have several (R22, R211). -/
def Slot.pendCall (l : Slot) (d : XReg) : Slot :=
  if d = 0 then { l with callp0 := l.callp0 + 1 } else { l with callp := setBit l.callp d.toNat true }

/-- Whether a `callat` is pending for register d (R212). -/
def Slot.callPending (l : Slot) (d : XReg) : Bool := if d = 0 then 0 < l.callp0 else l.callp.getLsbD d.toNat

/-- One pending `callat` of register d answered. -/
def Slot.endCall (l : Slot) (d : XReg) : Slot :=
  if d = 0 then { l with callp0 := l.callp0 - 1 } else { l with callp := setBit l.callp d.toNat false }

/-- `callat`: d is left empty for the reply (R211). -/
def execCallat (o : CallatOp) (s : State) : Res :=
  finish s do
    issueRule s [(.x o.a, o.wa), (.x o.b, o.wb)] [.x o.d]
    let (hdr, args) ← readMessage s (s.xv o.b) 7
    let c ← coreOperand s (s.xv o.a)
    sendGate s o.rel true
    let args := args.set 7 (BitVec.ofNat 64 (s.cur.slot.toNat * 32 + o.d.toNat))
    let h := heldTask s hdr args (relFlag o.rel ||| flagCALL) s.slot.gen true
    let t := (s.sendTask (.core c) h none).countSpawn
    .ok ((t.modSlot fun l => (l.markX o.d false).pendCall o.d).advance 4)

/-- `reply`: a release at module scope; B goes to the register that token A names (R212). -/
def execReply (o : ReplyOp) (s : State) : Res :=
  finish s do
    issueRule s [(.x o.a, o.wa), (.x o.b, o.wb)] []
    let a := s.xv o.a
    if a.toNat / 2 ^ 48 ≠ 0 || bits a.toNat 27 5 ≠ 0 then trapFault .block a
    else if s.fenced (dieOf (a.setWidth 18)) then trapFault .absent a
    else do
      needReleased s
      .ok ((State.fresh { s with
        replies := s.replies ++ [{ id := s.nextId, token := a, val := s.xv o.b, launch := s.core.launch,
                                   sender := s.cur.core, clk := s.relClock }] }).advance 4)

/-- Whether a launch holds its clusters: one saved at a slice expiry or for a leaving cluster lets others use them (R317, R334,
R342) (DESIGN CHOICE, log 38). -/
def Launch.holds (l : Launch) : Bool := l.stage = .running || l.stage = .saving || l.stage = .awaitHost

/-- The id of the launch that holds a core, or 0 (R212). -/
def State.holder (s : State) (c : CoreId) : Word32 :=
  match s.launcher.launches.find? fun l => l.holds && l.clusters.contains (clusterOf c) with
  | some l => l.record.id
  | none => 0

/-- `REPLY_ARRIVAL`: the reply fills its register if its call is still pending, else it is discarded and counted; at a core that another launch
holds, or whose CR.LAUNCH differs, it is only reported (R212). A reply that `fe` detached finds no call pending (R118), unless a later `callat`
to the same register is: it then fills it (DESIGN CHOICE, log 73). -/
def execReplyArrival (n : Nat) (s : State) : Res :=
  .next <|
    match s.replies.find? (·.id = n) with
    | none => s
    | some r =>
      let t := r.token.toNat
      let o : SlotId := { core := r.token.setWidth 18, slot := BitVec.ofNat 4 (bits t 18 4) }
      let d : XReg := BitVec.ofNat 5 (bits t 22 5)
      let l := s.getSlot o
      if (s.getCore o.core).saved then s
      else
        let s := { s with replies := s.replies.filter (·.id ≠ n) }
        if s.holder o.core ≠ r.launch || (s.getCore o.core).launch ≠ r.launch || r.launch = 0 then s.report 15 o.core r.launch r.token (r.sender.setWidth 64)
        else if l.st = .free || l.gen ≠ BitVec.ofNat 16 (bits t 32 16) || !l.callPending d then s.onCore o.core (·.count 6 1)
        else ((s.onSlot o fun l => ((l.setX d r.val).markX d true).endCall d).acquires o r.clk).acquired o.core

/-- Whether an output stream of a slot has a pushed element unacknowledged (R195, R213). -/
def State.pushPending (s : State) (o : SlotId) : Bool :=
  (List.finRange 4).any fun i => (s.getSlot o).sm.getLsbD i.val && (s.getSlot o).sd.getLsbD i.val && 0 < s.pushesOut o i

/-- The waits of the end of a task: owned commands, the trigger's release, pushed elements (R213). -/
def endWaits (s : State) : Body Unit := do
  if s.core.ownsWork s.cur.slot then waitHere s 8
  if !s.slot.triggered then needReleased s
  if s.pushPending s.cur then waitHere s 6 else .ok ()

/-- The end of a task (R213, R16): barriers left, queued COPYDONE deliveries discarded into counter 14, parked commands
abandoned, the slot Free with its generation advanced. -/
def State.endTask (s : State) (o : SlotId) : State :=
  let s := s.wbLeaveAll o
  s.onCore o.core fun c =>
    let c := (c.count 14 (c.getSlot o.slot).cdq.length).abandonParked o.slot
    { c.onSlot o.slot (fun l =>
        { l with
          st := .free, mode := .user, intrap := false, gen := l.gen + 1, cdq := [], sm := 0, sd := 0, asyncs := [], wait := none,
          joinAns := none, callp := 0, callp0 := 0, spawns := 0, triggered := true, streams := Vector.replicate 4 StreamCfg.off,
          prefetched := [] }) with
      coxFree := true }

/-- `done` (R213). -/
def execDone (_o : TaskEndOp) (s : State) : Res :=
  finish s do
    endWaits s
    .ok (s.endTask s.cur)

/-- `trigger`: a release at module scope; only the first is reported (R214). -/
def execTrigger (_o : TaskEndOp) (s : State) : Res :=
  finish s do
    needReleased s
    .ok ((s.modSlot fun l => { l with triggered := true }).advance 4)

/-- The first empty register of x1 to x8. -/
def Slot.emptyArg (l : Slot) : Option Nat := (List.range 8).find? fun i => !l.xIsFull (BitVec.ofNat 5 (i + 1))

/-- The arguments of `migrate`: x1 to x6, and the low halves of x7 and x8 (R210). -/
def Slot.migrateArgs (l : Slot) : Vector Word 8 :=
  Vector.ofFn fun i =>
    let w := l.getX (BitVec.ofNat 5 (i.val + 1))
    if i.val < 6 then w else (w.setWidth 32).setWidth 64

/-- `migrate`: the message is sent, then the task ends as `done` does (R210). -/
def execMigrate (o : SpawnOp) (s : State) : Res :=
  finish s do
    issueRule s [(.x o.a, o.wa), (.x o.b, o.wb)] []
    let b := s.xv o.b
    if b.toNat / 2 ^ 20 ≠ 0 then trapFault .block b
    else do
      let c ← coreOperand s (s.xv o.a)
      if s.core.ownsWork s.cur.slot then waitHere s 8
      else match s.slot.emptyArg with
        | some i => waitReg s (.x (BitVec.ofNat 5 (i + 1)))
        | none => do
          if o.rel then needReleased s
          endWaits s
          let h := heldTask s b.toNat s.slot.migrateArgs (relFlag o.rel ||| flagMIG) 0 false
          .ok ((s.sendTask (.core c) h none).endTask s.cur)

/-! ### The cox -/

/-- Whether a cox may place a task of a launch on a core: on its die, in the partition of the launch, which holds it, with a Free slot reported
since its last placement (R208, R328) (DESIGN CHOICE, log 29). -/
def State.placeable (s : State) (d : Die) (c : CoreId) (launch : Word32) : Bool :=
  let k := s.getCore c
  dieOf c = d && k.launch = launch && s.holder c = launch && k.coxFree && !s.fenced d

/-- A task sent to a core by a cox (R328): PLACED set, the placement taken from the core's report. -/
def State.place (s : State) (c : CoreId) (h : HeldTask) : State :=
  (s.sendTask (.core c) { h with task := { h.task with flags := h.task.flags ||| flagPLACED } } none).onCore c
    fun k => { k with coxFree := false }

/-- `COX_PLACEMENT`: the cox's oldest task that the core can take goes there (R328). -/
def execCoxPlacement (a : PlaceArg) (s : State) : Res :=
  .next <|
    match (s.coxOf a.die).find? fun h => s.placeable a.die a.core h.launch with
    | none => s
    | some h => ({ s with cox := tabPut s.cox a.die ((s.coxOf a.die).erase h) } : State).place a.core h

/-- The distance of two dies on the torus of 8 by 8 (R13, R329). -/
def dieDistance (a b : Die) : Nat :=
  let dist := fun (x y : Nat) => min (max x y - min x y) (8 - (max x y - min x y))
  dist (a.toNat / 8) (b.toNat / 8) + dist (a.toNat % 8) (b.toNat % 8)

/-- The oldest stealable task of a launch at a die: held by its cox (not the thief's own), or in a fork queue there (R329). -/
def State.stealable (s : State) (thief d : Die) (launch : Word32) : Bool :=
  (d ≠ thief && !s.fenced d && (s.coxOf d).any fun h => h.launch = launch) ||
    s.cores.any fun c => dieOf c.1 = d && c.2.forks.any fun h => h.launch = launch

/-- Whether no nearer die, nor a lower one as near, offers a task of the launch (R329). -/
def State.nearest (s : State) (thief d : Die) (launch : Word32) : Bool :=
  (List.range 64).all fun e =>
    let e : Die := BitVec.ofNat 6 e
    !s.stealable thief e launch || dieDistance thief d < dieDistance thief e ||
      (dieDistance thief d = dieDistance thief e && d.toNat ≤ e.toNat)

/-- `COX_STEAL`: an idle cox takes the oldest task of the victim and places it (R329). -/
def execCoxSteal (a : StealArg) (s : State) : Res :=
  .next <|
    let launch := (s.getCore a.target).launch
    if !(s.coxOf a.die).isEmpty || !s.placeable a.die a.target launch || !s.nearest a.die (dieOf a.victim) launch then s
    else if a.fromFork then
      match (s.getCore a.victim).forks.find? fun h => h.launch = launch with
      | none => s
      | some h => (s.onCore a.victim fun k => { k with forks := k.forks.erase h }).place a.target h
    else if dieOf a.victim = a.die then s
    else match (s.coxOf (dieOf a.victim)).find? fun h => h.launch = launch with
      | none => s
      | some h =>
        ({ s with cox := tabPut s.cox (dieOf a.victim) ((s.coxOf (dieOf a.victim)).erase h) } : State).place a.target h

end Sys2Proof.Machine
end

