-- ==== Sys2Proof/Machine/Homes.lean ====
section
/-! DEFINITION. What homes do with requests, and how answers come back: HOME_ACCESS, the acknowledgements and completions
(R124-R134, R242-R245, R291, R292), count barriers at their home (R138, R139), notice boards at theirs (R146, R147), merged
requests (R366, R367) and page walks (R298). -/

namespace Sys2Proof.Machine

open Sys2Proof

/-! ### Order -/

/-- The earlier requests of the same context that are still in flight. -/
def State.before (s : State) (r : Req) : List Req :=
  s.reqs.filter fun q => q.core = r.core && q.slot = r.slot && q.gen = r.gen && q.id < r.id

/-- Whether a request is a plain load, which may be served from the remote line buffer (R125). -/
def Req.isPlainLoad (r : Req) : Bool :=
  match r.op with
  | .load _ _ _ _ => true
  | .vload _ _ _ _ _ => true
  | _ => false

/-- Whether an earlier request of the context must be applied before `r`: they share a byte (R244, R245, R253). A plain load from
elsewhere does not wait for a plain store, whose bytes it sees on their way (R125, R292). -/
def mustPrecede (q r : Req) : Bool :=
  !q.applied &&
    (piecesMeet q.writes r.writes || piecesMeet q.reads r.writes || piecesMeet q.reads r.reads ||
      (piecesMeet q.writes r.reads && (r.reads.any r.ownPiece || !q.isStore || !r.isPlainLoad)))

/-- Whether two lists of pieces touch one 64-byte line. -/
def linesMeet (a b : List Piece) : Bool :=
  a.any fun x => b.any fun y => x.key / 64 ≤ (y.key + y.len - 1) / 64 && y.key / 64 ≤ (x.key + x.len - 1) / 64

/-- Whether the second write of a context to a line waits for the first one's acknowledgement (R245). -/
def lineHeld (q r : Req) : Bool := q.isStoreLike && r.isStoreLike && linesMeet q.writes r.writes

/-- Whether a release store may be performed (R128). -/
def State.releaseReady (s : State) (r : Req) : Bool :=
  match r.op with
  | .store _ (some sc) => (s.before r).all fun q => !(q.isStoreLike || q.isLoadLike) || q.performedAt sc
  | _ => true

/-- Whether the earlier accesses of the context to the bytes of `r` have been applied (R244, R245, R253). -/
def State.inOrder (s : State) (r : Req) : Bool := (s.before r).all fun q => !mustPrecede q r

/-- Whether a store of another context of the core, issued before request number `n` and ready to be performed, has still to reach bytes
elsewhere that plain reads name: they wait for it, so that the core never sees less than its own stores, and nothing that its home has not
applied (R125, R250, R292; DESIGN CHOICE, log 7). -/
def State.mateStore (s : State) (o : SlotId) (n : Nat) (ps : List Piece) : Bool :=
  s.reqs.any fun q => q.core = o.core && q.slot ≠ o.slot && q.id < n && !q.applied && q.isStore && s.releaseReady q &&
    q.writes.any fun w => !q.ownPiece w && piecesMeet [w] ps

/-- Whether the home applies request `r` now (R242, R245, R128); one for a saved core goes to its save image (R336), and one
that travels merged is applied with the request that carries it (R366). -/
def State.homeReady (s : State) (r : Req) : Bool :=
  !r.applied && r.merged.isNone && !((r.reads ++ r.writes).any fun p => s.homeSaved p.key) &&
    s.inOrder r && ((s.before r).all fun q => !lineHeld q r) && s.releaseReady r &&
    !(r.isPlainLoad && s.mateStore r.slotId r.id r.reads)

/-! ### Reads -/

/-- The stores of a context on their way to their homes that a plain read of it sees, oldest first: those issued before request number `n`
(R125, R244, R292). -/
def State.passing (s : State) (o : SlotId) (gen : BitVec 16) (n : Nat) : List (Nat × List Byte) :=
  (s.reqs.filter fun q => q.core = o.core && q.slot = o.slot && q.gen = gen && q.id < n).flatMap Req.pendingBytes

/-- The lines of a buffer with one as the most recently used (R125, R291). -/
def rlbTouch (l : RlbLine) (ls : List RlbLine) : List RlbLine := (l :: ls.filter (·.key ≠ l.key)).take 16

/-- The line at a key as its home holds it. -/
def State.fetchLine (s : State) (k : Nat) : RlbLine :=
  { key := k, bytes := memReads s.mem k 64,
    poison := (List.range 8).foldl (fun m g => setBit m g (s.poison.contains (k / 8 + g))) 0, at_ := s.writes }

/-- A plain read of a piece by a core: own local memory at its home; elsewhere by the remote line buffer, filled on a miss, with
the context's stores `ps` on their way put over the line (R125, R291, R292). The bytes, whether a granule read is poisoned, and
whether the buffer missed. -/
def State.plainRead (s : State) (c : CoreId) (ps : List (Nat × List Byte)) (p : Piece) : State × List Byte × Bool × Bool :=
  if homeCore p.key = some c then (s, memReads s.mem p.key p.len, (s.poisonAt p.key p.len).isSome, false)
  else
    let k := p.key / 64 * 64
    let held := (s.getCore c).rlb.find? (·.key = k)
    let l := held.getD (s.fetchLine k)
    let off := p.key - k
    let bad := (List.range 8).any fun g =>
      l.poison.getLsbD g && !covers ps (k / 8 + g) && off < 8 * g + 8 && 8 * g < off + p.len
    (s.onCore c fun c => { c with rlb := rlbTouch l c.rlb }, ((overlay k l.bytes ps).drop off).take p.len, bad, held.isNone)

/-- Plain reads of several pieces in order: the bytes of each and whether it is poisoned, and the lines that missed the buffer. -/
def State.plainReads (s : State) (c : CoreId) (ps : List (Nat × List Byte)) :
    List Piece → State × List (List Byte × Bool) × List Nat
  | [] => (s, [], [])
  | p :: l =>
    let (s, bs, bad, miss) := s.plainRead c ps p
    let (s, r, m) := s.plainReads c ps l
    (s, (bs, bad) :: r, if miss then p.key / 64 * 64 :: m else m)

/-- The held line of a key dropped, as an `amo`, a `joinc`, an acquire load and a `red` do to their address (R125, R256). -/
def State.dropLine (s : State) (c : CoreId) (k : Nat) : State :=
  s.onCore c fun c => { c with rlb := c.rlb.filter (·.key ≠ k / 64 * 64) }

/-- The held lines of `n` bytes of an object dropped: a barrier or board operation writes at the home, and the context's later loads
see its writes (R245). -/
def State.dropLines (s : State) (c : CoreId) (k n : Nat) : State :=
  s.onCore c fun c => { c with rlb := c.rlb.filter fun l => k + n ≤ l.key || l.key + 64 ≤ k }

/-- The 64-bit value of a scalar load (R126): sign- or zero-extended, or one element widened to 32 bits first. -/
def loadValue (win : Window) (signed : Bool) (bs : List Byte) : Word :=
  let v := leNat bs
  if win = .raw then
    let w := 8 * bs.length
    if signed && w < 64 && v / 2 ^ (w - 1) % 2 = 1 then BitVec.ofInt 64 ((v : Int) - 2 ^ w) else BitVec.ofNat 64 v
  else
    let e := win.widen v
    if signed then e.signExtend 64 else e.setWidth 64

/-! ### Atomics -/

/-- The read-modify-write functions on `n` bytes (R132): the new value, and the events of `fadd`. -/
def amoApply (fn : AmoFn) (n old b : Nat) : Nat × Events :=
  let m := 2 ^ (8 * n)
  let b := b % m
  let sgn := fun (v : Nat) => if v / 2 ^ (8 * n - 1) % 2 = 1 then (v : Int) - m else v
  let f := if n = 4 then fp32 else fp64
  match fn with
  | .add => ((old + b) % m, Events.zero)
  | .and => (old &&& b, Events.zero)
  | .or => (old ||| b, Events.zero)
  | .xor => (old ^^^ b, Events.zero)
  | .min => (if sgn b < sgn old then b else old, Events.zero)
  | .max => (if sgn old < sgn b then b else old, Events.zero)
  | .minz => (Nat.min old b, Events.zero)
  | .maxz => (Nat.max old b, Events.zero)
  | .swap => (b, Events.zero)
  | .cas => (b, Events.zero)
  | .fadd => let r := f.add old b; (r.bits, r.ev)
  | .fmin => (f.minmax false old b, Events.zero)
  | .fmax => (f.minmax true old b, Events.zero)

/-- The three flags of the events that an atomic's answer carries: NaN, overflow, underflow (R132, R133). -/
def eventFlags (e : Events) : BitVec 3 :=
  BitVec.ofNat 3 ((if e.nan = 0 then 0 else 1) + (if e.ovf = 0 then 0 else 2) + (if e.unf = 0 then 0 else 4))

/-- The events of those flags. -/
def flagEvents (b : BitVec 3) : Events :=
  { Events.zero with nan := if b.getLsbD 0 then 1 else 0, ovf := if b.getLsbD 1 then 1 else 0,
                     unf := if b.getLsbD 2 then 1 else 0 }

/-- A value of `n` bytes extended to 64 bits as `amo` returns it (R132). -/
def extendOld (n old : Nat) : Word := if n = 4 then (BitVec.ofNat 32 old).signExtend 64 else BitVec.ofNat 64 old

/-! ### Requests answered -/

/-- A request replaced in the list of those in flight. -/
def State.setReq (s : State) (r : Req) : State := { s with reqs := s.reqs.map fun q => if q.id = r.id then r else q }

/-- A request removed. -/
def State.dropReq (s : State) (n : Nat) : State := { s with reqs := s.reqs.filter (·.id ≠ n) }

/-- A request with its answer recorded. -/
def State.answer (s : State) (r : Req) (res : ReqRes) : State := s.setReq { r with applied := true, res := res }

/-- The dispatch of a join object's task from its home (R134): BADHANDLER to the decrementing slot for a bad DEST or header
(DEDUCED, log 26). Poison in DEST or MSG does not stop it: the bytes held are dispatched (DESIGN CHOICE, log 52). -/
def State.joinDispatch (s : State) (r : Req) (key : Nat) : State :=
  let home := (homeCore key).getD 0
  let dest := (s.rd64 (key + 8)).toNat
  let bs := memReads s.mem (key + 64) 64
  let hdr := fieldOf bs 0 8
  let narg := bits hdr 20 4
  let args : Vector Word 8 := Vector.ofFn fun i => if i.val < narg then (argWords bs)[i] else 0
  let h : HeldTask :=
    { launch := (s.getCore home).launch, origin := r.core, slot := r.slot, gen := r.gen, counted := false,
      task := { handler := BitVec.ofNat 20 hdr,
                flags := flagJOIN ||| flagREL ||| (if bits hdr 24 1 = 1 then flagU else 0), sender := home, cgen := 0,
                args := args, clk := s.markOf .count key } }
  if dest / 2 ^ 19 ≠ 0 || hdr / 2 ^ 25 ≠ 0 || 8 < narg then s.reportBad h r.ea
  else if bits dest 18 1 = 1 then s.sendTask (.cox (dieOf home)) h none
  else s.sendTask (.core (BitVec.ofNat 18 dest)) h none

/-! ### Objects that a plain store leaves undefined (DESIGN CHOICE, log 10) -/

/-- Whether two ranges of offsets meet. -/
def rangesMeet (a n b m : Nat) : Bool := a < b + m && b < a + n

/-- Whether a range meets a barrier or board of a core (R137, R145). -/
def Core.meetsObj (k : Core) (off n : Nat) : Bool := k.objs.any fun o => rangesMeet off n o.off o.len

/-- Whether a range meets the arrays of a core's tree (R216). -/
def Core.meetsTree (k : Core) (off n : Nat) : Bool :=
  k.tcfg ≠ 0 && (rangesMeet off n k.tnode.toNat (8 * 2 ^ k.tcfg.toNat) || rangesMeet off n k.tleaf.toNat (4 * 2 ^ k.tcfg.toNat))

/-- Whether a range meets the inbox of a core that a launch has set up (R230). -/
def Core.meetsInbox (k : Core) (off n : Nat) : Bool :=
  k.launch ≠ 0 && rangesMeet off n k.ibBase.toNat (64 + 64 * (if k.ibCap = 0 then 256 else k.ibCap.toNat))

/-- What a plain store of `n` bytes at a key leaves undefined: the barriers and boards that it meets until their next `cbinit` or
`nbinit`, the tree until the next `tbuild`, and the region, whose inbox then holds free bytes (R137, R145, R216, R230). -/
def State.spoil (s : State) (key n : Nat) : State :=
  match homeCore key with
  | none => s
  | some c =>
    let off := key % 2 ^ 20
    let k := s.getCore c
    let s :=
      if k.meetsInbox off n then
        s.wrPieces [(localKey c k.ibBase.toNat,
          (List.range (64 + 64 * (if k.ibCap = 0 then 256 else k.ibCap.toNat))).map fun i =>
            BitVec.ofNat 8 (Config.undefinedObject s.tick (localKey c (k.ibBase.toNat + i))))]
      else s
    if k.meetsObj off n || k.meetsTree off n then
      s.putCore c { k with
        objs := k.objs.map fun o => if rangesMeet off n o.off o.len then { o with spoiled := true } else o
        treeSpoiled := k.treeSpoiled || k.meetsTree off n }
    else s

/-- Whether the barrier or board at a key is undefined. -/
def State.undefinedAt (s : State) (key : Nat) : Bool :=
  match homeCore key with
  | none => false
  | some c => (s.getCore c).objs.any fun o => o.off = key % 2 ^ 20 && o.spoiled

/-- A barrier or board of `n` bytes made at a key: it is defined, and what it overlies is no object any more (R139, R146). -/
def State.makeObj (s : State) (key n : Nat) : State :=
  match homeCore key with
  | none => s
  | some c => s.onCore c fun k => { k with
      objs := { off := key % 2 ^ 20, len := n, spoiled := false } :: k.objs.filter fun o =>
        o.off ≠ key % 2 ^ 20 && !rangesMeet (key % 2 ^ 20) n o.off o.len }

/-- `n` bytes at an offset of the object at a key: a free value while the object is undefined. -/
def State.objRd (s : State) (key off n : Nat) : Nat :=
  if s.undefinedAt key then Config.undefinedObject s.tick (key + off) % 2 ^ (8 * n) else s.rd (key + off) n

/-- A board set up by `nbinit` (R146). -/
def State.boardInit (s : State) (key n : Nat) : State :=
  (s.wrPieces [(key, natBytes 8 n ++ List.replicate 8 0), (key + 0x20, List.replicate 64 0),
              (key + 0x80, List.replicate (16 * n) 0)]).makeObj key (128 + 16 * n) |>.setMark .board key Clock.zero

/-- The samples of a message at its home: the bank accesses it made, and the flits of a class-0 one (R290, R364, R393). -/
def State.sampleHome (s : State) (key : Nat) (class0 : Bool) : State :=
  (homeCore key).elim s fun c => if class0 then (s.sampleMany c 15).sampleMany c 14 else s.sampleMany c 15

/-- Whether a request is a message of class 0, as its acknowledgement or answer then is (R364). -/
def Req.class0 (r : Req) : Bool :=
  match r.op with
  | .cbinit _ _ => true
  | .cbarrive _ => true
  | .cbexpect _ _ => true
  | .cbwait _ _ _ _ => true
  | .nbinit _ _ => true
  | .nbread _ _ => true
  | .postv _ _ _ _ _ _ => true
  | _ => false

/-- The lines that a plain load fetches for its pieces, which the buffer does not hold (R125, R291). -/
def State.missed (s : State) (r : Req) : List Nat := (s.plainReads r.core (s.passing r.slotId r.gen r.id) r.reads).2.2

/-- Where a request reads and writes: a plain load the lines it fetches and its own core's pieces, any other request its pieces. -/
def State.visitKeys (s : State) (r : Req) : List Nat :=
  if r.isPlainLoad then (r.reads.filter r.ownPiece).map (·.key) ++ s.missed r else (r.reads ++ r.writes).map (·.key)

/-- The samples of a request at each of its home cores. -/
def State.sampleHomes (s : State) (r : Req) : State :=
  ((s.visitKeys r).filterMap homeCore).eraseDups.foldl (fun s c => s.sampleHome (localKey c 0) r.class0) s

/-- What happens before a release that a request makes, its own write included (R244, R247). -/
def Req.relClock (r : Req) : Clock := (r.clk.join r.got).upTo r.party (r.id + 1)

/-- What the home does with a request (R126-R134, R146, R149). The entries that walk caches hold from the lines of a store or atomic
may still be used until its acknowledgement (R299). -/
def State.applyAtHome (s : State) (r : Req) : State :=
  let s := s.sampleHomes r
  match r.op with
  | .load p win signed _ =>
    let (s, bs, bad, miss) := s.plainRead r.core (s.passing r.slotId r.gen r.id) p
    s.setReq { r with applied := true, registered := miss, res := .word (loadValue win signed bs) bad }
  | .vload ls win _ _ _ =>
    let (s, got, miss) := s.plainReads r.core (s.passing r.slotId r.gen r.id) (ls.map (·.piece))
    let ws := (ls.zip got).map fun x => (x.1.lane, win.widen (leNat x.2.1))
    let bad := ((ls.zip got).find? (·.2.2)).map (·.1.ea)
    s.setReq { r with applied := true, registered := !miss.isEmpty, res := .lanes ws bad }
  | .store ps _ =>
    ((ps.foldl (fun s p => s.spoil p.1 p.2.length) (s.wrBytes ps)).onCore r.core (·.rlbStore ps)).answer r .none
  | .jst k v j =>
    let old := s.rd64 k
    let rec? := j.map fun (p, off, seq) =>
      (localKey r.core p.toNat, natBytes 8 (2 + off.toNat * 2 ^ 32) ++ natBytes 8 old.toNat ++ natBytes 8 seq.toNat ++
        List.replicate 8 0)
    ((s.wrPieces (rec?.toList ++ [(k, natBytes 8 v.toNat)])).spoil k 8).answer r .none
  | .acq p _ _ =>
    let bad := (s.poisonAt p.key p.len).isSome
    let v := leNat (memReads s.mem p.key p.len)
    (s.dropLine r.core p.key).answer r (.word (extendOld p.len v) bad)
  | .amo p fn b d _ _ =>
    let s := s.dropLine r.core p.key
    if (s.poisonAt p.key p.len).isSome then s.answer r (.fail cPOISON)
    else
      let old := leNat (memReads s.mem p.key p.len)
      let (v, ev) := amoApply fn p.len old b.toNat
      let s := if fn = .cas && old ≠ d.toNat % 2 ^ (8 * p.len) then s else s.wrBytes [(p.key, natBytes p.len v)]
      s.setReq { r with applied := true, res := .word (extendOld p.len old) false, fpEvents := eventFlags ev }
  | .red p fn b =>
    let s := s.dropLine r.core p.key
    if (s.poisonAt p.key p.len).isSome then
      (s.report 3 ((homeCore p.key).getD r.core) (s.getCore r.core).launch r.ea 0).answer r .none
    else
      let old := leNat (memReads s.mem p.key p.len)
      let (v, ev) := amoApply fn p.len old b.toNat
      (s.wrBytes [(p.key, natBytes p.len v)]).setReq
        { r with applied := true, res := .word (extendOld p.len old) false, fpEvents := eventFlags ev }
  | .joinc key _ =>
    let s := s.dropLine r.core key
    if (s.poisonAt key 8).isSome then s.answer r (.fail cPOISON)
    else
      let c := s.rd64 key - 1
      let s := ((s.wr64 key c).answer r (.word c false)).setMark .count key ((s.markOf .count key).join r.relClock)
      if c = 0 then (s.joinDispatch r key).setMark .count key Clock.zero else s
  | .nbinit key n => ((s.boardInit key n).dropLines r.core key (128 + 16 * n)).answer r (.word 0 false)
  | .nbread key _ =>
    s.answer r (.view false 0 (BitVec.ofNat 256 (s.objRd key 0x20 32)) 0)
  | _ => s

/-- The scope at which a request is a release, if it is one: an ordering store has its own, the others the module (R243, R246). -/
def Req.releases (r : Req) : Option (BitVec 3) :=
  match r.op with
  | .store _ rel => rel
  | .amo _ _ _ _ order _ => if order.getLsbD 1 then some 6 else none
  | .joinc _ _ => some 6
  | .cbarrive _ => some 6
  | .postv _ _ _ _ _ _ => some 6
  | _ => none

/-- The scope at which a request is an acquire that learns from the write it reads (R246, R247). -/
def Req.acquireScope (r : Req) : Option (BitVec 3) :=
  match r.op with
  | .acq _ sc _ => some sc
  | .amo _ _ _ _ order _ => if order.getLsbD 0 then some 6 else none
  | _ => none

/-- Whether an `amo`, `red` or `joinc` makes the write of a request (R247). -/
def Req.isRmw (r : Req) : Bool :=
  match r.op with
  | .amo _ _ _ _ _ _ => true
  | .red _ _ _ => true
  | .joinc _ _ => true
  | _ => false

/-- The release sides that a request's write carries: the release fences before it, and its own release (R247). -/
def Req.carries (r : Req) : List Side :=
  r.sides ++ r.releases.toList.map fun sc => { by_ := r.party, scope := sc, clk := r.relClock }

/-- A request with what its read meets and, where it is an acquire, learns; `out` are the writes that the read leaves out (R247). -/
def State.learning (s : State) (r : Req) (out : Nat → Nat → Past → Bool) : Req :=
  match r.acquireScope with
  | some sc => { r with got := learn r.party sc (s.meets out r.reads) }
  | none =>
    match r.op with
    | .nbread key _ => { r with got := s.markOf .board key }
    | _ => if r.isPlainLoad then { r with met := s.meets out r.reads } else r

/-- The state `t` that a home has made of `s` by applying request `r`, with what it wrote put down to the context that sent `r` (R244,
R247). -/
def State.stamped (s t : State) (r : Req) : State :=
  t.madeBy s.writes (.ctx r.party r.id) (r.clk.join r.got) r.carries r.isRmw

/-! ### Frames to peers -/

/-- What a request asks of the homes of its bytes: for each, its key and the frame that asks it of a peer's; a plain load asks for the lines
that the buffer misses (R125, R377). -/
def State.asks (s : State) (r : Req) : List (Nat × (BitVec 48 → FrameBody)) :=
  match r.op with
  | .load _ _ _ _ => (s.missed r).map fun k => (k, fun pa => .read pa 64)
  | .vload _ _ _ _ _ => (s.missed r).map fun k => (k, fun pa => .read pa 64)
  | .acq p _ _ => [(p.key, fun pa => .read pa p.len)]
  | .store ps _ => ps.map fun p => (p.1, fun pa => .write pa p.2)
  | .amo p fn b d _ _ => [(p.key, fun pa => .amo pa (p.len = 8) fn b d)]
  | .red p fn b => [(p.key, fun pa => .red pa (p.len = 8) fn b)]
  | _ => []

/-- The peer modules that a request asks, whose replies come in frames (R377, R378). -/
def State.asked (s : State) (r : Req) : List (BitVec 16) := ((s.asks r).filterMap fun f => peerOf f.1).eraseDups

/-- The frames that carry a request to its homes in some modules, each on the port and through the window of its own address (R375, R377,
R378). -/
def State.sendRequest (s : State) (r : Req) (ms : List (BitVec 16)) : State :=
  ((s.asks r).filter fun f => (peerOf f.1).any ms.contains).foldl (fun s f => s.sendPeer r.core (some r.id) f.1 f.2) s

/-- Whether HOME_ACCESS serves a request: count-barrier operations and posts have events of their own. -/
def Req.plainHome (r : Req) : Bool :=
  match r.op with
  | .cbinit _ _ => false
  | .cbarrive _ => false
  | .cbexpect _ _ => false
  | .cbwait _ _ _ _ => false
  | .postv _ _ _ _ _ _ => false
  | .rand _ _ _ _ _ => false
  | _ => true

/-- The write of a merged request taken apart: the first requester's operation, then the second's, which reads what the first one wrote
(R366, R367); `t` is the state after the home has applied request `r` to `s`. -/
def State.splitWrite (s : State) (r : Req) (t : State) : State :=
  match t.splits.find? (·.first = r.id), t.past with
  | some p, w :: ws =>
    (match t.reqs.find? (·.id = p.second) with
     | some q =>
       match r.writes, q.merged with
       | [k], some _ =>
         if w.num < s.writes then t
         else
           let old := leNat (memReads s.mem k.key k.len)
           let mid := (amoApply p.fn k.len old p.a1.toNat).1
           let own : Past := { w with num := t.writes, old := [(k.key, natBytes k.len mid)], cleared := [], by_ := .ctx q.party q.id,
                                      clk := q.clk, sides := q.carries, readers := [] }
           { t with
             past := own :: { w with readers := q.party :: w.readers } :: ws
             writes := t.writes + 1 }
       | _, _ => t
     | none => t)
  | _, _ => t

/-- A request served by its homes: those in other modules have it in frames, and their replies are waited for; the writes that it returns,
without those of `skip`, are noted as read, the release sides that it meets are kept, and the bytes that it writes are put down to its context
(R242, R247, R253, R377). -/
def State.serve (s : State) (r : Req) (skip : List Nat) : State :=
  let out := if r.isPlainLoad then s.leftOut r.core skip else fun _ _ _ => false
  let r := s.learning { r with peers := s.asked r } out
  let s := (s.sendRequest r r.peers).noteReads r.party out r.reads
  s.splitWrite r (s.stamped (s.applyAtHome r) r)

/-- `HOME_ACCESS`: a home applies request `n`; a home in another module has had it in a frame (R242, R289, R377) (DESIGN CHOICE, log 7). -/
def execHomeAccess (n : Nat) (s : State) : Res :=
  .next <|
    match s.reqs.find? (·.id = n) with
    | none => s
    | some r => if r.plainHome && s.homeReady r then s.serve r [] else s

/-! ### Plain loads that leave writes out -/

/-- The bytes of a piece that a plain load `r` may return without the writes of `skip`, its context's own stores on their way put over them,
and whether one is poisoned; nothing where R251 or R253 forbids it for some byte. -/
def State.stalePiece (s : State) (r : Req) (skip : List Nat) (p : Piece) : Option (List Byte × Bool) :=
  let own := s.passing r.slotId r.gen r.id
  let covered := fun k => own.any fun q => q.1 ≤ k && k < q.1 + q.2.length
  ((List.range p.len).mapM fun i =>
    if covered (p.key + i) then some (0, false)
    else s.staleByte r.party r.clk skip (p.key + i)).map fun bs =>
      (overlay p.key (bs.map (·.1)) own, bs.any (·.2))

/-- The answer of a plain load that leaves out the writes of `skip` (R251). -/
def State.staleAnswer (s : State) (r : Req) (skip : List Nat) : Option ReqRes :=
  match r.op with
  | .load p win signed _ => (s.stalePiece r skip p).map fun b => .word (loadValue win signed b.1) b.2
  | .vload ls win _ _ _ =>
    (ls.mapM fun l => (s.stalePiece r skip l.piece).map fun b => (l, b)).map fun bs =>
      .lanes (bs.map fun b => (b.1.lane, win.widen (leNat b.2.1))) ((bs.find? (·.2.2)).map (·.1.ea))
  | _ => none

/-- The held lines of a load's pieces dropped: a read that the buffer does not serve fetches them again, so that no later hit returns a write
older than the one read (R253). -/
def State.unheld (s : State) (r : Req) : State := r.reads.foldl (fun s p => s.dropLines r.core p.key p.len) s

/-- Plain load `n` performed without the writes that `skip` numbers from the newest on, where R251 and R253 allow it for each byte: any write
that no other one comes between in happens-before is a candidate (R251, R254; DESIGN CHOICE, log 60). -/
def State.stale (s : State) (n : Nat) (skip : List Nat) : State :=
  match s.reqs.find? (·.id = n) with
  | none => s
  | some r =>
    match s.staleAnswer r skip with
    | none => s
    | some a =>
      if s.homeReady r then
        let t := (s.unheld r).serve r skip
        { t with reqs := t.reqs.map fun q => if q.id = n then { q with res := a } else q }
      else s

/-! ### Count barriers at their home -/

/-- The waiters of a barrier released: those whose request is registered for the phase bit `ph` (R138, R139). -/
def State.cbRelease (s : State) (key : Nat) (ph : Bool) : State :=
  { s with reqs := s.reqs.map fun r =>
      match r.op with
      | .cbwait k p _ _ => if k = key && r.registered && p = ph then { r with registered := false, res := .word 1 false } else r
      | _ => r }

/-- The barrier's 16 bytes as a number: EXP, PEND, BYTES, PHASE, VALID, ERR from bit 0 (R137). Poisoned bytes count as they are stored, and
what a barrier operation writes clears the poison (DESIGN CHOICE, log 63). -/
def State.cbGet (s : State) (key : Nat) : Nat := s.objRd key 0 16

/-- BYTES, signed. -/
def cbBytes (v : Nat) : Int := (BitVec.ofNat 32 (bits v 32 32)).toInt

/-- The barrier with its fields. -/
def cbPack (exp pend : Nat) (bytes : Int) (phase valid err : Nat) : Nat :=
  exp + pend * 2 ^ 16 + (BitVec.ofInt 32 bytes).toNat * 2 ^ 32 + phase * 2 ^ 64 + valid * 2 ^ 65 + err * 2 ^ 66

/-- The barrier after an operation that left PEND and BYTES: the completion test if either changed (R138). -/
def State.cbSet (s : State) (key : Nat) (pend : Nat) (bytes : Int) : State :=
  let v := s.cbGet key
  let exp := bits v 0 16
  let ph := bits v 64 1
  if pend = bits v 16 16 && bytes = cbBytes v then s
  else if pend = 0 && bytes = 0 then
    (s.wr key 16 (cbPack exp exp 0 (1 - ph) 1 (bits v 66 1))).cbRelease key (ph = 1)
  else s.wr key 16 (cbPack exp pend bytes ph 1 (bits v 66 1))

/-- ERR set (R138). -/
def State.cbErr (s : State) (key : Nat) : State :=
  let v := s.cbGet key
  s.wr key 16 (if bits v 66 1 = 1 then v else v + 2 ^ 66)

/-- An arrival (R138). -/
def State.cbArrive (s : State) (key : Nat) : State :=
  let v := s.cbGet key
  if bits v 65 1 = 0 || bits v 16 16 = 0 then s.cbErr key else s.cbSet key (bits v 16 16 - 1) (cbBytes v)

/-- A byte delta (R138). -/
def State.cbDelta (s : State) (key : Nat) (d : Int) : State :=
  let v := s.cbGet key
  let b := cbBytes v + d
  if bits v 65 1 = 0 || b < -(2 ^ 31) || 2 ^ 31 - 1 < b then s.cbErr key else s.cbSet key (bits v 16 16) b

/-- The first operation of an `ata`: one arrival and the owned bytes together, refused as a whole (R192). -/
def State.cbAta (s : State) (key : Nat) (d : Int) : State :=
  let v := s.cbGet key
  let b := cbBytes v + d
  if bits v 65 1 = 0 || bits v 16 16 = 0 || b < -(2 ^ 31) || 2 ^ 31 - 1 < b then s.cbErr key
  else s.cbSet key (bits v 16 16 - 1) b

/-- `cbinit` at the home: the new fields, then each waiter as if its request had just arrived (R139). -/
def State.cbInit (s : State) (key : Nat) (b : Word) : State :=
  let e := b.toNat % 65536
  ((s.wr key 16 (cbPack e e 0 0 1 0)).makeObj key 16).cbRelease key true

/-- The state `t` that an arrival or a byte delta has made of `s` at a barrier, with what happens before it counted into the phase where the
home has counted it, and, where it completes the phase, into what its waiters learn (R248). -/
def State.counted (s t : State) (key : Nat) (c : Clock) : State :=
  let v := s.cbGet key
  let w := t.cbGet key
  if bits v 16 49 = bits w 16 49 then t
  else
    let now := (t.markOf .phase key).join c
    if bits v 64 1 = bits w 64 1 then t.setMark .phase key now
    else
      let t := (t.setMark .phase key Clock.zero).setMark .completed key now
      { t with reqs := t.reqs.map fun r => match r.op with
          | .cbwait k _ _ _ =>
            if k = key && !r.registered && s.reqs.any (fun q => q.id = r.id && q.registered) then { r with got := now } else r
          | _ => r }

/-- What happens before an operation of a request on a barrier: an arrival is a release, a `cbexpect` adds no edge (R246, R248). -/
def Req.counts (r : Req) : Clock := if r.releases.isSome then r.relClock else Clock.zero

/-- What a barrier's home does with an operation (R138, R139). -/
def State.applyBarrier (s : State) (r : Req) : State :=
  match r.op with
  | .cbinit key b => (s.cbInit key b).setReq { r with applied := true, res := .word 1 false }
  | .cbarrive key => (s.cbArrive key).setReq { r with applied := true, res := .word 1 false }
  | .cbexpect key d => (s.cbDelta key d).setReq { r with applied := true, res := .word 1 false }
  | .cbwait key ph _ how =>
    let v := s.cbGet key
    if bits v 65 1 = 1 && (bits v 64 1 = 1) ≠ ph then s.answer r (.word 1 false)
    else if how = .wait then s.setReq { r with applied := true, registered := true }
    else s.answer r (.word 0 false)
  | _ => s

/-- The barrier a request names. -/
def Req.barrier (r : Req) : Option Nat :=
  match r.op with
  | .cbinit k _ => some k
  | .cbarrive k => some k
  | .cbexpect k _ => some k
  | .cbwait k _ _ _ => some k
  | _ => none

/-- Whether a barrier's home applies an operation now: one context's operations on one barrier in program order (R139), after
its earlier accesses to the same bytes (R244). -/
def State.barrierReady (s : State) (r : Req) (key : Nat) : Bool :=
  !r.applied && !s.homeSaved key && s.inOrder r && (s.before r).all fun q => q.barrier ≠ some key || q.applied

/-- A barrier operation applied: a wait that the last completion ends learns it, and what is counted is kept for the completion (R139,
R248). -/
def State.barrierServe (s : State) (r : Req) (key : Nat) : State :=
  let s := (s.noteReads r.party (fun _ _ _ => false) r.reads).sampleHome key true
  match r.op with
  | .cbwait _ _ _ _ => s.applyBarrier { r with got := s.markOf .completed key }
  | .cbinit _ _ => ((s.stamped (s.applyBarrier r) r).setMark .phase key Clock.zero).setMark .completed key Clock.zero
  | _ => s.counted (s.stamped (s.applyBarrier r) r) key r.counts

/-- `CB_HOME_OPERATION`: a barrier's home applies request `n` (R138, R139). -/
def execCbHomeOperation (n : Nat) (s : State) : Res :=
  .next <|
    match s.reqs.find? (·.id = n) with
    | none => s
    | some r =>
      match r.barrier with
      | none => s
      | some key => if s.barrierReady r key then
          (s.barrierServe r key).dropLines r.core key 16
        else s

/-! ### Notice boards at their home -/

/-- A board's advance past every full level (R147); a board has advanced at most twice after one post. -/
def boardAdvance (n : Nat) : Nat → Nat → Nat → Nat → Nat × Nat × Nat
  | 0, level, mask, ahead => (level, mask, ahead)
  | k + 1, level, mask, ahead =>
    if mask % 2 ^ n = 2 ^ n - 1 then boardAdvance n k ((level + 1) % 2 ^ 48) ahead 0 else (level, mask, ahead)

/-- A post at the board's home (R147). Poisoned bytes of the board count as they are stored, and what it writes clears the poison (DESIGN
CHOICE, log 63). -/
def State.boardPost (s : State) (r : Req) (key slot : Nat) (b : Word) : State :=
  let ctl := s.objRd key 0 8
  let n := bits ctl 0 9
  let level := bits ctl 16 48
  let mask := s.objRd key 0x20 32
  let ahead := s.objRd key 0x40 32
  if n ≤ slot then s.answer r .badSlot
  else
    let inMask := bits mask slot 1 = 1
    if inMask && bits ahead slot 1 = 1 then s.answer r (.view true (BitVec.ofNat 64 level) 0 0)
    else
      let parity := (if inMask then level + 1 else level) % 2
      let mask' := if inMask then mask else mask + 2 ^ slot
      let ahead' := if inMask then ahead + 2 ^ slot else ahead
      let seq := BitVec.ofNat 64 (s.objRd key 8 8) + 1
      let (l2, m2, a2) := boardAdvance n 3 level mask' ahead'
      let s := s.wrPieces [(key + 0x80 + 16 * slot + 8 * parity, natBytes 8 b.toNat), (key, natBytes 8 (ctl % 2 ^ 16 + l2 * 2 ^ 16)),
        (key + 8, natBytes 8 seq.toNat), (key + 0x20, natBytes 32 m2), (key + 0x40, natBytes 32 a2)]
      (s.dropLines r.core key (128 + 16 * n)).answer r
        (.view false (BitVec.ofNat 64 level) (BitVec.ofNat 256 (mask' % 2 ^ n)) seq)

/-- A post applied: it learns what happens before the posts before it, and adds what happens before itself, unless it is refused (R248). -/
def State.boardServe (s : State) (r : Req) (key slot : Nat) (b : Word) : State :=
  let r := { r with got := s.markOf .board key }
  let t := (s.noteReads r.party (fun _ _ _ => false) r.reads).sampleHome key true
  let u := t.stamped (t.boardPost r key slot b) r
  if t.writes < u.writes then u.setMark .board key (r.got.join r.relClock) else u

/-- `BOARD_POST_AT_HOME`: post `n` is performed at its board's home (R147). -/
def execBoardPostAtHome (n : Nat) (s : State) : Res :=
  .next <|
    match s.reqs.find? (·.id = n) with
    | none => s
    | some r =>
      match r.op with
      | .postv key slot b _ _ _ => if !r.applied && !s.homeSaved key && s.inOrder r then
          s.boardServe r key slot b
        else s
      | _ => s

/-! ### Answers at the core -/

/-- Whether the task that sent a request still runs (R22). -/
def State.alive (s : State) (r : Req) : Bool := (s.getSlot r.slotId).gen = r.gen && (s.getSlot r.slotId).st ≠ .free

/-- The rest of an instruction that its context has been held for, run in that context (R123, R128). -/
def State.resume (s : State) (o : SlotId) (b : State → Body State) : State :=
  let t := { s with cur := o }
  let u := match b t with
    | .ok u => u
    | .error e => t.stop e
  { u with cur := s.cur }

/-- A held instruction completed: the PC moves on, and ARITH is taken if it is owed (R57). -/
def completeWith (s : State) (e : Events) : Body State := .ok ((s.complete s.cur).withEvents e)

/-- A value that fills a register of the acting context (R21). -/
def State.fillX (s : State) (d : XReg) (w : Word) : State := s.modSlot fun l => (l.setX d w).markX d true

/-- The lanes of a vector load put into a value. -/
def fillLanes (old : VVal) (ws : List (BitVec 4 × Word32)) : VVal :=
  ws.foldl (fun v w => v.setIfInBounds w.1.toNat w.2) old

/-- The completion of a returning operation in its context (R22, R124-R132, R139, R149, R165, R240). -/
def completeBody (r : Req) (s : State) : Body State :=
  match r.op, r.res with
  | .load p _ _ d, .word w bad =>
    let s := if homeCore p.key ≠ some r.core && r.registered then s.sampleCycles r.core 1 else s
    let s := (s.fillX d w).hears r.met
    .ok (if bad then s.addPoison s.cur r.ea else s)
  | .vload _ _ v push pops, .lanes ws bad =>
    let s := (if r.registered then s.sampleCycles r.core 1 else s).hears r.met
    if push then do
      match s.slot.streamOf v with
      | none => completeWith s Events.zero
      | some i =>
        let s ← popStreams s pops
        let (s, ev) ← pushStream s i (fillLanes VVal.zero ws)
        let s := match bad with
          | some a => s.addPoison s.cur a
          | none => s
        completeWith s ev
    else
      let s := s.modSlot fun l => (l.setV v (fillLanes (l.getV v) ws)).markV v true
      .ok (match bad with
        | some a => s.addPoison s.cur a
        | none => s)
  | .acq _ sc d, .word w bad =>
    if bad then trapPoison r.ea
    else completeWith (((s.sampleCycles r.core 2).acquireAt sc r.got).fillX d w) Events.zero
  | .amo _ _ _ _ order d, .word w _ =>
    let s := s.sampleCycles r.core 3
    let s := if order.getLsbD 0 then s.acquireAt 6 r.got else s
    completeWith (s.fillX d w) (flagEvents r.fpEvents)
  | .joinc _ d, .word w _ => completeWith ((s.sampleCycles r.core 3).fillX d w) Events.zero
  | .cbinit _ _, .word _ _ => completeWith s Events.zero
  | .cbwait _ _ d how, .word w _ =>
    let s := if how = .test then s else s.sampleCycles r.core 4
    let s := if w = 1 then s.acquireAt 6 r.got else s
    completeWith (match d with
      | some d => s.putX d w
      | none => s) Events.zero
  | .nbinit _ _, .word _ _ => completeWith s Events.zero
  | .nbread _ m, .view _ _ mask _ => completeWith ((s.modSlot fun l => l.setM m mask).acquireAt 6 r.got) Events.zero
  | .rand (some v) _ active val _, .word _ _ =>
    completeWith (s.modSlot fun l => (l.setV v (mergeLanes active val (l.getV v))).markV v true) Events.zero
  | .rand none d _ _ ev, .word w _ => completeWith (s.fillX d w) ev
  | _, .fail sc => .error (.sup sc r.ea)
  | _, _ => .ok s

/-- Whether a merged request still waits for its router to split the reply (R367). -/
def State.splitPending (s : State) (n : Nat) : Bool := s.splits.any fun p => p.first = n || p.second = n

/-- Whether a request is a store, reduction or barrier operation that only an acknowledgement ends. -/
def Req.acked (r : Req) : Bool :=
  match r.op with
  | .store _ _ => true
  | .jst _ _ _ => true
  | .red _ _ _ => true
  | .cbarrive _ => true
  | .cbexpect _ _ => true
  | _ => false

/-- Whether the answer of a returning operation has come: not of a post, which returns a view (R147). -/
def Req.returned (r : Req) : Bool :=
  !r.acked && r.applied &&
    (match r.op with
     | .postv _ _ _ _ _ _ => false
     | _ => true) &&
    (match r.res with
     | .none => false
     | _ => true)

/-- The answer of a returning operation delivered to its context (R21); one of a task that has ended is discarded. A fault leaves
the destination EMPTY (R22, R124); a push that must wait for a translation keeps the answer (R166, R298). -/
def State.deliver (s : State) (r : Req) : State :=
  let t := (s.dropReq r.id).dropWalks (r.writes.map fun p => (p.key, p.len))
  let t := if r.class0 then t.sampleMany r.core 14 else t
  if s.alive r then
    let t := { t with cur := r.slotId }
    match completeBody r t with
    | .ok u => { u with cur := s.cur }
    | .error (.wait u w) => { (t.undoSlot u).setWait w with cur := s.cur, reqs := s.reqs }
    | .error e => { t.stop e with cur := s.cur }
  else t

/-- An acknowledgement delivered: the request is gone, the walk caches hold nothing more from the lines it wrote, and the events of a
floating-point reduction count (R127, R133, R299). -/
def State.acknowledge (s : State) (r : Req) : State :=
  let t := (s.dropReq r.id).dropWalks (r.writes.map fun p => (p.key, p.len))
  (if r.class0 then t.sampleMany r.core 14 else t).onCore r.core fun c =>
    match r.op with
    | .red _ _ _ => c.countEvents (flagEvents r.fpEvents)
    | _ => c

/-- `RETURNING_OPERATION_COMPLETE` of request `n` (R21). -/
def execReturningOperationComplete (n : Nat) (s : State) : Res :=
  .next <|
    match s.reqs.find? (·.id = n) with
    | none => s
    | some r => if r.returned && r.peers.isEmpty && !s.splitPending n then s.deliver r else s

/-- `STORE_ACKNOWLEDGEMENT` of request `n` (R127, R128). -/
def execStoreAcknowledgement (n : Nat) (s : State) : Res :=
  .next <|
    match s.reqs.find? (·.id = n) with
    | none => s
    | some r => if r.acked && r.applied && r.peers.isEmpty && !s.splitPending n then s.acknowledge r else s

/-- The address of a board that a post's operand names. -/
def boardBase (a : Word) : Word := a - BitVec.ofNat 64 (a.toNat % 512)

/-- The destination of a post that is made again, full as its issue rule found it (R9, R147). -/
def State.unpost (s : State) (d : XReg) : State := s.modSlot fun l => l.markX d true

/-- The view of a post at its core: a refused one is undone, and a slot out of range leaves d EMPTY (R22, R147). -/
def viewBody (r : Req) (key : Nat) (d : XReg) (m wa : Bool) (s : State) : Body State :=
  match r.res with
  | .view false _ mask seq =>
    completeWith ((((s.sampleCycles r.core 6).modSlot fun l => l.setM m mask).fillX d seq).acquireAt 6 r.got) Events.zero
  | .view true level _ _ =>
    let s := s.unpost d
    if wa then .ok (s.takeUser s.cur cNBAHEAD (boardBase r.ea) s.slot.pc s.slot.pc)
    else
      let s := State.fresh { s with
        refused := s.refused ++ [{ id := s.nextId, core := r.core, slot := r.slot, gen := r.gen, board := key, level := level }] }
      .ok (s.setWait { kind := 3, obj := boardBase r.ea, ph := level })
  | .badSlot => trapFault .range r.ea
  | _ => .ok s

/-- `BOARD_VIEW_RETURN` of post `n` (R147). -/
def execBoardViewReturn (n : Nat) (s : State) : Res :=
  .next <|
    match s.reqs.find? (·.id = n) with
    | none => s
    | some r =>
      match r.op with
      | .postv key _ _ d m wa =>
        if r.applied then
          let t := s.dropReq n
          let t := t.sampleMany r.core 14
          if s.alive r then t.resume r.slotId (viewBody r key d m wa) else t
        else s
      | _ => s

/-- `BOARD_LEVEL_ADVANCE_REPORT`: the home of a refused post tells the waiting context that the level has advanced; it posts
again from its issue rule (R147). -/
def execBoardLevelAdvanceReport (n : Nat) (s : State) : Res :=
  .next <|
    match s.refused.find? (·.id = n) with
    | none => s
    | some p =>
      if !s.homeSaved p.board && bits (s.objRd p.board 0 8) 16 48 ≠ p.level.toNat then
        { s with refused := s.refused.filter (·.id ≠ n) }
      else s

/-- Whether a slot stands at a boundary at which a cause may be taken: the core runs, and nothing holds the slot but a `wait
until` (R112, R117, R335). -/
def State.mayTake (s : State) (o : SlotId) : Bool :=
  let c := s.getCore o.core
  !c.halted && !c.saving && !c.saved && !c.droop && (s.reqsOf o).all fun r => !r.blocks || r.interruptible

/-- The waits of a slot given up for a cause: the requests that only wait, and a refused post (R9, R112, R150). -/
def State.cancelWaits (s : State) (o : SlotId) : State :=
  let g := (s.getSlot o).gen
  { s with
    reqs := s.reqs.filter fun r => !(r.ofSlot o && r.gen = g && r.blocks && r.interruptible)
    refused := s.refused.filter fun r => !(r.core = o.core && r.slot = o.slot && r.gen = g) }

/-- `CBTWAIT_EXPIRY` of a slot: its `cbtwait` ends with d ← 0 and no acquire, unless the completion has been reported (R139). -/
def execCbtwaitExpiry (o : SlotId) (s : State) : Res :=
  .next <|
    match (s.reqsOf o).find? fun r => (match r.op with
        | .cbwait _ _ (some _) .wait => true
        | _ => false) with
    | none => s
    | some r =>
      match r.op with
      | .cbwait _ _ (some d) _ => (((s.dropReq r.id).sampleCycles o.core 4).onSlot o fun l => l.setX d 0).complete o
      | _ => s

/-! ### Merging -/

/-- The operations that routers merge (R366). -/
def amoMerges : AmoFn → Bool
  | .swap => false
  | .cas => false
  | .fadd => false
  | .fmin => false
  | .fmax => false
  | _ => true

/-- What a router sees of a request it may merge: whether it returns, its piece, its operation, its operand (R366). -/
def Req.mergeable (r : Req) : Option (Bool × Piece × AmoFn × Word) :=
  match r.op with
  | .amo p fn b _ order _ => if order = 0 && amoMerges fn then some (true, p, fn, b) else none
  | .red p fn b => if amoMerges fn then some (false, p, fn, b) else none
  | _ => none

/-- A request with its operand replaced. -/
def Req.withOperand (r : Req) (b : Word) : Req :=
  match r.op with
  | .amo p fn _ d order x => { r with op := .amo p fn b d order x }
  | .red p fn _ => { r with op := .red p fn b }
  | _ => r

/-- The router whose own core holds the home of a key: the core itself, or the vault's group (R366). -/
def homeRouter (k : Nat) (router : CoreId) : Bool :=
  match homeCore k with
  | some c => c = router
  | none => k < 2 ^ 48 && bits k 46 2 = 0 && (vaultOf router).toNat = bits k 28 14

/-- `EN_PASSANT_MERGE`: two requests that meet in a router travel on as one (R366, R367). -/
def execEnPassantMerge (a : MergeArg) (s : State) : Res :=
  .next <|
    match s.reqs.find? (·.id = a.first), s.reqs.find? (·.id = a.second) with
    | some r, some q =>
      match r.mergeable, q.mergeable with
      | some (ra, rp, rf, rb), some (qa, qp, qf, qb) =>
        if a.first ≠ a.second && ra = qa && rp = qp && rf = qf && s.homeReady r && s.homeReady q &&
            !homeRouter rp.key a.router && (peerOf rp.key).isNone &&
            ((s.splits.filter fun p => p.router = a.router).length < 16) then
          let b := BitVec.ofNat 64 (amoApply rf rp.len (rb.toNat % 2 ^ (8 * rp.len)) qb.toNat).1
          let s := (s.setReq (r.withOperand b)).setReq { q with merged := some r.id }
          State.fresh { s with
            splits := s.splits ++ [{ id := s.nextId, router := a.router, first := a.first, second := a.second, fn := rf, a1 := rb }] }
        else s
      | _, _ => s
    | _, _ => s

/-- `MERGED_REPLY_SPLIT`: the router sends the second requester f(v, a₁), and frees the entry (R367). -/
def execMergedReplySplit (n : Nat) (s : State) : Res :=
  .next <|
    match s.splits.find? (·.id = n) with
    | none => s
    | some p =>
      match s.reqs.find? (·.id = p.first), s.reqs.find? (·.id = p.second) with
      | some r, some q =>
        if !r.applied then s
        else
          let len := (q.mergeable.map fun x => x.2.1.len).getD 8
          let res := match r.res with
            | .word v bad =>
              ReqRes.word (extendOld len (amoApply p.fn len (v.toNat % 2 ^ (8 * len)) p.a1.toNat).1) bad
            | x => x
          let s := (q.mergeable.map fun x => s.dropLine q.core x.2.1.key).getD s
          ({ s with splits := s.splits.filter (·.id ≠ n) } : State).setReq { q with applied := true, merged := none, res := res }
      | _, _ => { s with splits := s.splits.filter (·.id ≠ n) }

/-! ### Peers that fail -/

/-- The physical address in module `p` that a request names first (R376) (DESIGN CHOICE, log 45). -/
def Req.paAt (r : Req) (p : BitVec 16) : Word :=
  (((r.reads ++ r.writes).find? fun (q : Piece) => peerOf q.key = some p).map fun (q : Piece) => BitVec.ofNat 64 (Machine.peerPa q.key)).getD 0

/-- Whether a request is outstanding at module `p`: a home of it lies there, and the module's reply has not come (R379). -/
def State.awaits (s : State) (r : Req) (p : BitVec 16) : Bool := if r.applied then r.peers.contains p else (s.asked r).contains p

/-- A request without what it asks of module `p`. -/
def Req.without (r : Req) (p : BitVec 16) : Req :=
  { r with
    op := match r.op with
      | .store ps rel => .store (ps.filter fun q => peerOf q.1 ≠ some p) rel
      | op => op
    peers := r.peers.erase p, fpEvents := 0 }

/-- Whether a store, of which part has failed at a module, goes on at others: the rest has still to be applied or answered. -/
def Req.goesOn (r : Req) : Bool :=
  match r.op with
  | .store ps _ => if r.applied then !r.peers.isEmpty else !ps.isEmpty
  | _ => false

/-- A returning request that ends with a result in place of its answer: it has no effect, and learns nothing. A plain load that asks a peer has
missed the buffer (R379, R393). -/
def State.deliverAs (s : State) (r : Req) (res : ReqRes) : State :=
  let q := { r with applied := true, registered := r.isPlainLoad, peers := [], res := res, got := Clock.zero, met := [] }
  (s.setReq q).deliver q

/-- The lines of a load that module `p` has not sent: the buffer holds them no more (R125, R291). -/
def State.unfetched (s : State) (p : BitVec 16) (r : Req) : State :=
  ((r.reads.filter fun q => peerOf q.key = some p).map (·.key)).foldl (·.dropLine r.core) s

/-- A request of this module that completes without effect at peer `p` (R379); the parts of a scatter that lie elsewhere go
on. POISON reports the first lane of a gather that lies there (R131; log 21). -/
def State.failPeer (s : State) (p : BitVec 16) (r : Req) : State :=
  match r.op with
  | .load _ _ _ _ => (s.unfetched p r).deliverAs r (.word 0 true)
  | .vload ls _ _ _ _ => (s.unfetched p r).deliverAs r (.lanes (ls.map fun l => (l.lane, 0))
      (some (((ls.find? fun l => peerOf l.piece.key = some p).map (·.ea)).getD r.ea)))
  | .acq _ _ _ => s.deliverAs r (.fail FKind.absent.scause)
  | .amo _ _ _ _ _ _ => s.deliverAs r (.fail FKind.absent.scause)
  | _ =>
    let t := s.report 12 r.core (s.getCore r.core).launch (r.paAt p) (p.setWidth 64)
    let q := r.without p
    if q.goesOn then t.setReq q else t.acknowledge q

/-- Every request to module `p` that is outstanding completes without effect: the module has changed, or refused a request (R379). -/
def State.failPeerAll (s : State) (p : BitVec 16) : State := (s.reqs.filter (s.awaits · p)).foldl (fun s r => s.failPeer p r) s

/-- A peer's refusal of an engine's or a stream's access: it is reported, and what is outstanding at the peer completes (R376, R379, R385); that
it refuses, where it fails the access, is open (DESIGN CHOICE, log 45). -/
def State.refusedBy (s : State) (c : CoreId) (k : Nat) : State :=
  match peerOf k with
  | none => s
  | some m =>
    if Config.peerRefuses s.tick then
      (s.report 10 c (s.getCore c).launch (BitVec.ofNat 64 (peerPa k)) (m.setWidth 64)).failPeerAll m
    else s

/-- The place in a peer module that an address of core `c` names, if it names one. -/
def State.peerPlace (s : State) (c : CoreId) (ea : Word) : Option Nat :=
  let key := fun p => ((s.unitPlace c ea 1 p).toOption.map fun r => r.2.key).filter fun k => (peerOf k).isSome
  key .r <|> key .w

/-- What the fault of an engine's access leaves besides: the cycles of its walk sampled, and the refusal of a peer reported
(R376, R393). -/
def State.faulted (s : State) (c : CoreId) (scause : BitVec 16) (val : Word) (at_ : Option Word) : State :=
  let s := s.sampleMiss c at_
  if scause = FKind.absent.scause then (s.peerPlace c val).elim s (s.refusedBy c) else s

/-! ### Page walks -/

/-- `PAGE_WALK_COMPLETE`: a walk that a walker of its die serves ends; the pointer entries it read enter the die's walk cache, a leaf
that passes step 2 of R297 enters the TLB, and a failure is not cached (R298). -/
def execPageWalkComplete (n : Nat) (s : State) : Res :=
  .next <|
    match s.walks.find? (·.id = n) with
    | none => s
    | some w =>
      if !s.walkServed w then s
      else
        let t := ({ s with walks := s.walks.filter (·.id ≠ n) } : State).sampleCycles w.core 11
        match s.walk (some (dieOf w.core)) (s.getCore w.core).ptroot w.va with
        | .ok (e, es) => (t.onCore w.core (·.tlbUse e)).cacheWalk (dieOf w.core) es
        | .error _ => t

end Sys2Proof.Machine
end

