-- ==== Sys2Proof/Machine/Tree.lean ====
section
/-! DEFINITION. The rate tree of a core and its unit: queued and direct commands (R216-R228), and TREE_COMMAND_RUN. The region
instructions, which the unit runs too, stand in Machine/Region.lean. -/

namespace Sys2Proof.Machine

open Sys2Proof

/-- What a command of the unit finds: a state or a value, or the address of a poisoned granule it met (R308). -/
abbrev TreeM (α : Type) := Except Word α

/-- A value of `n` bytes of the own local memory of the unit's core. -/
def ownRd (s : State) (c : CoreId) (off n : Nat) : TreeM Nat :=
  match s.poisonAt (localKey c off) n with
  | some g => .error (BitVec.ofNat 64 (8 * g - localKey c 0))
  | none => .ok (s.rd (localKey c off) n)

/-- A value of `n` bytes of the tree: a free value while the tree is undefined (R216, log 10). -/
def treeRd (s : State) (c : CoreId) (off n : Nat) : TreeM Nat := do
  let v ← ownRd s c off n
  .ok (if (s.getCore c).treeSpoiled then Config.undefinedObject s.tick (localKey c off) % 2 ^ (8 * n) else v)

/-- A value of `n` bytes written to the own local memory of the unit's core. -/
def State.ownWr (s : State) (c : CoreId) (off n v : Nat) : State := s.wr (localKey c off) n v

/-! ### Configuration -/

/-- The configuration that CR.TCFG, CR.TNODE and CR.TLEAF hold (R216). -/
def Core.treeCfg (c : Core) : TreeCfg := { n := 2 ^ c.tcfg.toNat, node := c.tnode.toNat, leaf := c.tleaf.toNat }

/-- Whether `tcfg` accepts the arrays of a configuration (R219). -/
def TreeCfg.fits (t : TreeCfg) : Bool :=
  t.node % 8 = 0 && t.leaf % 4 = 0 && t.node + 8 * t.n ≤ localSize && t.leaf + 4 * t.n ≤ localSize &&
    (t.node + 8 * t.n ≤ t.leaf || t.leaf + 4 * t.n ≤ t.node)

/-- Whether a tree is configured (R216). -/
def Core.hasTree (c : Core) : Bool := c.tcfg ≠ 0

/-- Whether the configuration is one that `tcfg` would refuse (R219). -/
def Core.badTree (c : Core) : Bool := c.hasTree && (13 < c.tcfg.toNat || !c.treeCfg.fits)

/-- The RANGE fault of a configuration that `tcfg` would refuse, with CR.SVAL = CR.TCFG (R219). -/
def goodTree (s : State) : Body Unit := if s.core.badTree then trapFault .range (s.core.tcfg.setWidth 64) else .ok ()

/-- The configuration of an instruction that needs a tree; `a` is its operand A (R219). -/
def needTree (s : State) (a : Word) : Body TreeCfg := do
  goodTree s
  if s.core.hasTree then .ok s.core.treeCfg else trapFault .range a

/-- The configuration of an instruction whose operand A names a leaf (R219). -/
def needLeaf (s : State) (a : Word) : Body TreeCfg := do
  let t ← needTree s a
  if t.n ≤ a.toNat then trapFault .range a else .ok t

/-! ### Values -/

/-- The offset of leaf `j` (R216). -/
def TreeCfg.leafOff (t : TreeCfg) (j : Nat) : Nat := t.leaf + 4 * j

/-- The bits of leaf `j`. -/
def leafBits (s : State) (c : CoreId) (t : TreeCfg) (j : Nat) : TreeM Word32 := do
  let v ← treeRd s c (t.leafOff j) 4
  .ok (BitVec.ofNat 32 v)

/-- The value of heap position `p` (R216). -/
def treeVal (s : State) (c : CoreId) (t : TreeCfg) (p : Nat) : TreeM FVal :=
  if p < t.n then do
    let v ← treeRd s c (t.node + 8 * p) 8
    .ok (fp64.decode v)
  else do
    let v ← leafBits s c t (p - t.n)
    .ok (fp32.decode v.toNat)

/-- Node `p` recomputed from its children; an overflow counts, and no tree event raises ARITH (R55, R56, R224). -/
def recompute (s : State) (c : CoreId) (t : TreeCfg) (p : Nat) : TreeM State := do
  let l ← treeVal s c t (2 * p)
  let r ← treeVal s c t (2 * p + 1)
  let sum := fp64.sum .rne [l, r]
  .ok ((s.ownWr c (t.node + 8 * p) 8 sum.bits).onCore c (·.countEvents sum.ev))

/-- Position `p` and its ancestors recomputed, upward (R220). -/
def recomputeUp (s : State) (c : CoreId) (t : TreeCfg) : Nat → Nat → TreeM State
  | 0, _ => .ok s
  | fuel + 1, p =>
    if p = 0 then .ok s
    else do
      let s ← recompute s c t p
      recomputeUp s c t fuel (p / 2)

/-- Leaf `j` written, and its ancestors brought up to date (R220). -/
def setLeaf (s : State) (c : CoreId) (t : TreeCfg) (j : Nat) (b : Word32) : TreeM State :=
  recomputeUp (s.ownWr c (t.leafOff j) 4 b.toNat) c t 14 ((t.n + j) / 2)

/-- Positions `p` down to 1 recomputed (R221). -/
def buildFrom (s : State) (c : CoreId) (t : TreeCfg) : Nat → TreeM State
  | 0 => .ok s
  | p + 1 => do
    let s ← recompute s c t (p + 1)
    buildFrom s c t p

/-- Every internal node recomputed (R221). -/
def build (s : State) (c : CoreId) (t : TreeCfg) : TreeM State := buildFrom s c t (t.n - 1)

/-- A `tbuild`: the tree is defined again, from its leaves as they stand (R216, R221). -/
def rebuild (s : State) (c : CoreId) (t : TreeCfg) : TreeM State := build (s.onCore c fun k => { k with treeSpoiled := false }) c t

/-- The descent from position `i` with target `w`: the position of a leaf, the residual, and the events of its roundings (R223). -/
def descend (s : State) (c : CoreId) (t : TreeCfg) : Nat → Nat → Nat → Events → TreeM (Nat × Nat × Events)
  | 0, i, w, ev => .ok (i, w, ev)
  | fuel + 1, i, w, ev =>
    if t.n ≤ i then .ok (i, w, ev)
    else do
      let l ← treeVal s c t (2 * i)
      let r ← treeVal s c t (2 * i + 1)
      if FVal.lt false (fp64.decode w) l || r.isZero then descend s c t fuel (2 * i) w ev
      else
        let d := fp64.sum .rne [fp64.decode w, l.neg]
        descend s c t fuel (2 * i + 1) d.bits (ev.plus d.ev)

/-! ### The unit's queue -/

/-- How many commands the unit holds: four waiting besides the one that runs (R218). -/
def treeRoom : Nat := 5

/-- Whether what the acting context and the journal have still to write to own local memory is written: a command of the unit
follows the stores of its context (R218; DEDUCED, log 18). -/
def State.treeReady (s : State) (c : CoreId) (w : Owner) : Bool :=
  s.reqs.all fun r => r.core ≠ c || r.applied ||
    match r.op with
    | .jst _ _ _ => false
    | _ => !(r.slot = w.slot && r.gen = w.gen && r.id < w.after && r.isStoreLike && r.writes.any r.ownPiece)

/-- The wait of a direct instruction: no command waits or runs, and the stores before it are written (R218). -/
def directGate (s : State) : Body Unit :=
  if !s.core.tree.isEmpty then waitHere s 9 else if !s.treeReady s.cur.core s.owner then waitHere s 6 else .ok ()

/-- The wait of a queued instruction that finds the queue full (R218). -/
def treeRoomWait (s : State) : Body Unit := if treeRoom ≤ s.core.tree.length then waitHere s 5 else .ok ()

/-- A command put into the unit's queue (R218). -/
def enqueueTree (s : State) (t : TreeCfg) (op : TreeOp) : Body State := do
  treeRoomWait s
  .ok (s.modCore fun c => { c with tree := c.tree ++ [{ own := s.owner, cfg := t, op := op }] })

/-- The effect of a direct command: poison is taken precisely, with no effect (R308). -/
def direct {α : Type} (m : TreeM α) : Body α :=
  match m with
  | .ok x => .ok x
  | .error a => trapPoison a

/-- A returning command: its register is empty from its issue (R218). -/
def returning (s : State) (t : TreeCfg) (d : XReg) (op : TreeOp) : Body State := do
  let s' ← enqueueTree s t op
  .ok ((s'.modSlot fun l => l.markX d false).advance 4)

/-! ### Configuring and writing -/

/-- `tcfg` (R219). -/
def execTcfg (o : RAB) (s : State) : Res :=
  finish s do
    issueRule s [(.x o.a, o.wa), (.x o.b, o.wb)] []
    directGate s
    let a := s.xv o.a
    let n := (s.xv o.b).toNat
    let lg := n.log2
    let t : TreeCfg := { n := n, node := bits a.toNat 0 20, leaf := bits a.toNat 32 20 }
    if n < 2 || 8192 < n || n ≠ 2 ^ lg then trapFault .range (s.xv o.b)
    else if bits a.toNat 52 12 ≠ 0 || bits a.toNat 20 12 ≠ 0 || !t.fits then trapFault .range a
    else
      .ok ((s.modCore fun c =>
        { c with tcfg := BitVec.ofNat 4 lg, tnode := BitVec.ofNat 20 t.node, tleaf := BitVec.ofNat 20 t.leaf }).advance 4)

/-- The rate that a pattern writes, or nothing where it is rejected (R217). -/
def rateOf (b : Word32) : Option Word32 :=
  if b = 0x80000000 then some 0 else if b.toNat < 0x7F800000 then some b else none

/-- The leaf record of `j` (R232). -/
def leafRecord (j : Nat) (old : Word32) (eseq : Word) : List Byte :=
  natBytes 8 (1 + j * 2 ^ 32) ++ natBytes 8 old.toNat ++ natBytes 8 eseq.toNat ++ List.replicate 8 0

/-- A record appended to the journal (R232). -/
def State.append (s : State) (c : CoreId) (rec : List Byte) : State :=
  (s.wrPieces [(localKey c (s.getCore c).jptr.toNat, rec)]).onCore c fun k => { k with jptr := k.jptr + 32 }

/-- Leaves written, each after its record where the journal is on (R220). -/
def writeLeaves (c : CoreId) (t : TreeCfg) (log : Bool) : State → List (Nat × Word32) → TreeM State
  | s, [] => .ok s
  | s, (j, b) :: l => do
    let old ← leafBits s c t j
    let s := if log then s.append c (leafRecord j old (s.getCore c).eseq) else s
    let s ← setLeaf s c t j b
    writeLeaves c t log s l

/-- A leaf write of rates, some rejected: it runs as a command, completes, and raises TREEVAL for the lowest rejected leaf
(R217, R218, R220). -/
def leafWrite (s : State) (t : TreeCfg) (rates : List (Nat × Option Word32)) (ev : Events) : Body State := do
  let good := rates.filterMap fun r => r.2.map fun b => (r.1, b)
  let owed := ((rates.find? fun r => r.2.isNone).map fun r => (cTREEVAL, BitVec.ofNat 64 r.1))
  let s' ← (if s.core.jmode then do
      if !good.isEmpty then do
        let _ ← journalRoom s.core (32 * good.length)
        .ok ()
      direct (writeLeaves s.cur.core t true s good)
    else enqueueTree s t (.write good))
  .ok (((s'.countEvents ev).advance 4).owe owed)

/-- The gate of an instruction that is direct while CR.JMODE is 1 (R218). -/
def journalGate (s : State) : Body Unit := if s.core.jmode then directGate s else .ok ()

/-- `tset` (R220). -/
def execTset (o : RAB) (s : State) : Res :=
  finish s do
    issueRule s [(.x o.a, o.wa), (.x o.b, o.wb)] []
    journalGate s
    let t ← needLeaf s (s.xv o.a)
    leafWrite s t [((s.xv o.a).toNat, rateOf ((s.xv o.b).setWidth 32))] Events.zero

/-- The leaves that a vector names from leaf `a` on; those at N and above are skipped (R220). -/
def leafLanes (t : TreeCfg) (a : Nat) : List Nat := (List.range 16).filter fun i => a + i < t.n

/-- `tsetv` (R220). -/
def execTsetv (o : TsetvOp) (s : State) : Res :=
  finish s do
    issueRule s [(.x o.a, o.wa), (.v o.vb, o.wb)] []
    journalGate s
    let t ← needLeaf s (s.xv o.a)
    let a := (s.xv o.a).toNat
    let v := s.slot.srcV o.vb
    if !s.core.jmode then treeRoomWait s
    let s ← popStreams s (s.slot.popsOf [o.vb])
    leafWrite s t ((leafLanes t a).map fun i => (a + i, rateOf (laneOf v i))) Events.zero

/-- The exact sum of two values, and whether it is the invalid ∞ - ∞. -/
def addExact (a b : FVal) : FVal × Bool :=
  match a, b with
  | .nan, _ => (.nan, false)
  | _, .nan => (.nan, false)
  | .inf s, .inf t => if s = t then (.inf s, false) else (.nan, true)
  | .inf s, _ => (.inf s, false)
  | _, .inf t => (.inf t, false)
  | .fin s m e, .fin t n g =>
    let e0 := min e g
    let x := termAt e0 s m e + termAt e0 t n g
    (.fin (x < 0) x.natAbs e0, false)

/-- RN32(2^((v - m) * s)) with one rounding, and its events; a NaN operand counts nothing (R220). -/
def tsetxValue (v m sc : FVal) : Rounded :=
  let (d, bad) := addExact v m.neg
  if v = .nan || m = .nan || sc = .nan then fp32.quiet
  else if bad || mulInvalid d sc then fp32.invalid
  else
    match mulExact d sc with
    | .nan => fp32.quiet
    | .inf true => { bits := 0, ev := Events.zero }
    | .inf false => { bits := fp32.inf false, ev := Events.zero }
    | .fin s m e => if m = 0 then fp32.ofInt .rne 1 else fp32.exp2Of s m e

/-- `tsetx` (R72, R220): D holds the scale and the offset, and its register is read. -/
def execTsetx (o : TsetxOp) (s : State) : Res :=
  finish s do
    issueRule s [(.x o.a, o.wa), (.v o.vb, o.wb)] [.x o.d]
    journalGate s
    let t ← needLeaf s (s.xv o.a)
    let a := (s.xv o.a).toNat
    let d := (s.xv o.d).toNat
    let v := s.slot.srcV o.vb
    if !s.core.jmode then treeRoomWait s
    let s ← popStreams s (s.slot.popsOf [o.vb])
    let rs := (leafLanes t a).map fun i =>
      (a + i, tsetxValue (fp32.decode (laneOf v i).toNat) (fp32.decode (bits d 0 32)) (fp32.decode (bits d 32 32)))
    leafWrite s t (rs.map fun r => (r.1, rateOf (BitVec.ofNat 32 r.2.bits))) (Events.sum (rs.map (·.2.ev)))

/-- `tbuild`: it has no operand A, and reads as 0 where R219 reports A (R221) (DEDUCED, log 36). -/
def execTbuild (_o : R0) (s : State) : Res :=
  finish s do
    journalGate s
    let t ← needTree s 0
    if s.core.jmode then do
      let s ← direct (rebuild s s.cur.core t)
      .ok (s.advance 4)
    else do
      let s ← enqueueTree s t .build
      .ok (s.advance 4)

/-- The leaves that a cut changes: below the threshold and not already +0; none for a NaN (R227). They stand, and are journalled, in increasing
leaf index (DESIGN CHOICE, log 80). -/
def cutLeaves (s : State) (c : CoreId) (t : TreeCfg) (thr : Word32) : List Nat → TreeM (List (Nat × Word32))
  | [] => .ok []
  | j :: l => do
    let b ← leafBits s c t j
    let rest ← cutLeaves s c t thr l
    .ok (if b ≠ 0 && FVal.lt false (fp32.decode b.toNat) (fp32.decode thr.toNat) then (j, b) :: rest else rest)

/-- A cut: the leaves that change are recorded where the journal is on, set to +0, and the nodes are recomputed (R227). -/
def cut (s : State) (c : CoreId) (t : TreeCfg) (log : Bool) (ls : List (Nat × Word32)) : TreeM State :=
  build (ls.foldl (fun s l =>
    (if log then s.append c (leafRecord l.1 l.2 (s.getCore c).eseq) else s).ownWr c (t.leafOff l.1) 4 0) s) c t

/-- `tcut` (R227). -/
def execTcut (o : RA) (s : State) : Res :=
  finish s do
    issueRule s [(.x o.a, o.wa)] []
    journalGate s
    let t ← needTree s (s.xv o.a)
    let thr := (s.xv o.a).setWidth 32
    if s.core.jmode then do
      let ls ← direct (cutLeaves s s.cur.core t thr (List.range t.n))
      if !ls.isEmpty then do
        let _ ← journalRoom s.core (32 * ls.length)
        .ok ()
      let s ← direct (cut s s.cur.core t true ls)
      .ok (s.advance 4)
    else do
      let s ← enqueueTree s t (.cut thr)
      .ok (s.advance 4)

/-! ### Reading and drawing -/

/-- `tget` (R222). -/
def execTget (o : R2) (s : State) : Res :=
  finish s do
    issueRule s [(.x o.a, o.wa)] [.x o.d]
    let t ← needLeaf s (s.xv o.a)
    returning s t o.d (.get (s.xv o.a).toNat o.d)

/-- `troot`: 0 with no tree (R222). -/
def execTroot (o : RD) (s : State) : Res :=
  finish s do
    issueRule s [] [.x o.d]
    goodTree s
    returning s (if s.core.hasTree then s.core.treeCfg else { n := 0, node := 0, leaf := 0 }) o.d (.root o.d)

/-- The pick uniform of a draw as FP64 bits (R66). -/
def pick64 (w : Word) : Nat := if w.toNat / 2048 = 0 then 0 else (fp64.round .rne false (w.toNat / 2048) (-53)).bits

/-- The time uniform of a draw as FP64 bits (R66). -/
def time64 (w : Word) : Nat := (fp64.round .rne false (w.toNat / 2048 + 1) (-53)).bits

/-- `tdraw`: one draw, taken at issue (R225) (DEDUCED, log 36). -/
def execTdraw (o : RD) (s : State) : Res :=
  finish s do
    issueRule s [] [.x o.d]
    let t ← needTree s 0
    treeRoomWait s
    let (s, w) ← draw s
    returning s t o.d (.draw o.d (BitVec.ofNat 64 (pick64 w)))

/-- `tdesc` (R225). -/
def execTdesc (o : R2) (s : State) : Res :=
  finish s do
    issueRule s [(.x o.a, o.wa)] [.x o.d]
    let t ← needTree s (s.xv o.a)
    let target : Word := match fp64.decode (s.xv o.a).toNat with
      | .nan => 0
      | v => if v.isNeg then 0 else s.xv o.a
    returning s t o.d (.desc o.d target)

/-- `tthr` (R226). -/
def execTthr (o : R3) (s : State) : Res :=
  finish s do
    issueRule s [(.x o.a, o.wa), (.x o.b, o.wb)] [.x o.d]
    let t ← needTree s (s.xv o.a)
    returning s t o.d (.thr o.d ((s.xv o.a).getLsbD 0) (s.xv o.b))

/-- The bits of leaves. -/
def leavesOf (s : State) (c : CoreId) (t : TreeCfg) : List Nat → TreeM (List Nat)
  | [] => .ok []
  | j :: l => do
    let b ← leafBits s c t j
    let bs ← leavesOf s c t l
    .ok (b.toNat :: bs)

/-- The exact sum of FP32 values, as a value: the rule has them non-negative; of others, the sign is dropped, and NaN and infinity count as 0
(R226) (DESIGN CHOICE, log 70). -/
def massOf (ls : List Nat) : FVal :=
  .fin false (ls.foldl (fun a b => a + match fp32.decode b with
    | .fin _ m e => m * 2 ^ (e + 149).toNat
    | _ => 0) 0) (-149)

/-- Whether the leaves at or above `v` reach the threshold: their count k, or their mass M (R226). -/
def reaches (ls : List Nat) (mass : Bool) (b : Word) (v : Nat) : Bool :=
  let up := ls.filter (v ≤ ·)
  if mass then
    match fp64.decode b.toNat with
    | .nan => false
    | m => !FVal.lt false (massOf up) m
  else b.toNat ≤ up.length

/-- The largest leaf value that qualifies, or all ones (R226). -/
def threshold (ls : List Nat) (mass : Bool) (b : Word) : Word :=
  match ls.filter (reaches ls mass b) with
  | [] => BitVec.allOnes 64
  | v :: vs => BitVec.ofNat 64 (vs.foldl max v)

/-- The selection from a target: the index, and the residual rounded to FP32; all ones where the root is zero (R225). -/
def select (s : State) (c : CoreId) (t : TreeCfg) (target : Nat) : TreeM (Word × Events) := do
  let r ← treeVal s c t 1
  if r.isZero then .ok (BitVec.allOnes 64, Events.zero)
  else do
    let (i, w, ev) ← descend s c t 14 1 target Events.zero
    let q := fp32.convert .rne (fp64.decode w)
    .ok (BitVec.ofNat 64 (i - t.n + q.bits * 2 ^ 32), ev.plus q.ev)

/-- What a returning command gives: its register, value and events. -/
def treeAnswer (s : State) (c : CoreId) (t : TreeCfg) : TreeOp → TreeM (XReg × Word × Events)
  | .get j d => do
    let b ← leafBits s c t j
    .ok (d, b.setWidth 64, Events.zero)
  | .root d =>
    if t.n = 0 then .ok (d, 0, Events.zero)
    else do
      let v ← treeRd s c (t.node + 8) 8
      .ok (d, BitVec.ofNat 64 v, Events.zero)
  | .draw d v => do
    let r ← treeRd s c (t.node + 8) 8
    let target := fp64.mul v.toNat r
    let (w, ev) ← select s c t target.bits
    .ok (d, w, target.ev.plus ev)
  | .desc d v => do
    let (w, ev) ← select s c t v.toNat
    .ok (d, w, ev)
  | .thr d mass b => do
    let ls ← leavesOf s c t (List.range t.n)
    .ok (d, threshold ls mass b, Events.zero)
  | _ => .ok (0, 0, Events.zero)

end Sys2Proof.Machine
end

