-- ==== Sys2Proof/Machine/Region.lean ====
section
/-! DEFINITION. The region of a core: keys, the inbox, the journal and events (R229-R233), the region instructions (R224,
R234-R238), boundary messages, cancels and acknowledgements (R231, R239), the scalar draws (R240), and TREE_COMMAND_RUN (R218). -/

namespace Sys2Proof.Machine

open Sys2Proof

/-! ### Keys and the inbox -/

/-- The order of two times as FP64 values. -/
def timeLt (a b : Word) : Bool := FVal.lt false (fp64.decode a.toNat) (fp64.decode b.toNat)

/-- `a ≤ b` as FP64 values; false for a NaN. -/
def timeLe (a b : Word) : Bool := fp64.decode a.toNat ≠ .nan && fp64.decode b.toNat ≠ .nan && !timeLt b a

/-- The lesser of two times. -/
def timeMin (a b : Word) : Word := if timeLt b a then b else a

/-- The order of keys: TIME, then REGION, then SEQ (R229). -/
def Key.lt (a b : Key) : Bool :=
  timeLt a.time b.time ||
    (!timeLt b.time a.time && (a.region.ult b.region || (a.region = b.region && a.seq.ult b.seq)))

/-- Whether two keys are the same in that order. -/
def Key.same (a b : Key) : Bool := !a.lt b && !b.lt a

/-- The key that 24 bytes hold (R229). -/
def keyAt (s : State) (k : Nat) : Key :=
  { time := s.rd64 k, region := s.rd32 (k + 16), seq := s.rd64 (k + 8) }

/-- The 24 bytes of a key (R229). -/
def Key.bytes (k : Key) : List Byte := natBytes 8 k.time.toNat ++ natBytes 8 k.seq.toNat ++ natBytes 8 k.region.toNat

/-- The memory key of the inbox (R230). -/
def Core.inbox (c : Core) : Nat := localKey c.id c.ibBase.toNat

/-- The inbox's capacity (R230). -/
def Core.inboxCap (c : Core) : Nat := if c.ibCap = 0 then 256 else c.ibCap.toNat

/-- The bytes of the inbox. -/
def Core.inboxSize (c : Core) : Nat := 64 + 64 * c.inboxCap

/-- CTL of the inbox (R230). -/
def State.ctl (s : State) (c : CoreId) : Nat := s.rd (s.getCore c).inbox 8

/-- A number with the field of `n` bits at bit `lo` replaced. -/
def withBits (w lo n v : Nat) : Nat := w - bits w lo n * 2 ^ lo + v % 2 ^ n * 2 ^ lo

/-- The state with a field of CTL set. -/
def State.setCtl (s : State) (c : CoreId) (lo n v : Nat) : State := s.wr (s.getCore c).inbox 8 (withBits (s.ctl c) lo n v)

/-- The straggler key (R230). -/
def State.stragglerKey (s : State) (c : CoreId) : Key := keyAt s ((s.getCore c).inbox + 8)

/-- The current key (R230). -/
def State.currentKey (s : State) (c : CoreId) : Key := keyAt s ((s.getCore c).inbox + 0x20)

/-- The state with a current key. -/
def State.setCurrent (s : State) (c : CoreId) (k : Key) : State := s.wrPieces [((s.getCore c).inbox + 0x20, k.bytes)]

/-- The memory key of entry `i` (R230). -/
def State.entryKey (s : State) (c : CoreId) (i : Nat) : Nat := (s.getCore c).inbox + 64 + 64 * i

/-- The key of entry `i`. -/
def State.entry (s : State) (c : CoreId) (i : Nat) : Key := keyAt s (s.entryKey c i)

/-- STATE of entry `i`. -/
def State.entryState (s : State) (c : CoreId) (i : Nat) : Nat := bits (s.rd (s.entryKey c i + 16) 8) 32 2

/-- NW of entry `i`. -/
def State.entryNw (s : State) (c : CoreId) (i : Nat) : Nat := bits (s.rd (s.entryKey c i + 16) 8) 34 3

/-- STATE of entry `i` set. -/
def State.setEntryState (s : State) (c : CoreId) (i st : Nat) : State :=
  let w := s.rd (s.entryKey c i + 16) 8
  s.wr (s.entryKey c i + 16) 8 (w - bits w 32 2 * 2 ^ 32 + st * 2 ^ 32)

/-- The numbers of the entries in use. -/
def State.entries (s : State) (c : CoreId) : List Nat := List.range (min (bits (s.ctl c) 0 9) (s.getCore c).inboxCap)

/-- The first entry in a state with a key. -/
def State.findEntry (s : State) (c : CoreId) (k : Key) (st : Nat → Bool) : Option Nat :=
  (s.entries c).find? fun i => (s.entry c i).same k && st (s.entryState c i)

/-- The entries from `i` on moved one place up, `n` of them in use. Poison in the inbox is met by no arrival: the bytes held are moved, and a
granule written whole is clean (R308; DESIGN CHOICE, log 83). -/
def State.openEntry (s : State) (c : CoreId) (i n : Nat) : State :=
  s.wrPieces [(s.entryKey c (i + 1), memReads s.mem (s.entryKey c i) (64 * (n - i)))]

/-- A message inserted pending, in key order (R230, R231). -/
def State.insertEntry (s : State) (c : CoreId) (m : BoundMsg) : State :=
  let n := (s.entries c).length
  let i := ((s.entries c).find? fun i => m.key.lt (s.entry c i)).getD n
  let s := s.openEntry c i n
  let payload := (List.range 4).flatMap fun j => natBytes 8 (if j < m.nw then (m.payload.getD j 0).toNat else 0)
  let s := s.wrPieces [(s.entryKey c i,
    natBytes 8 m.key.time.toNat ++ natBytes 8 m.key.seq.toNat ++ natBytes 8 (m.key.region.toNat + 2 ^ 32 + m.nw * 2 ^ 34) ++
      natBytes 8 m.src.toNat ++ payload)]
  (s.setCtl c 0 9 (n + 1)).onCore c fun k => k.sample 12 (BitVec.ofNat 64 (n + 1))

/-- Entry `i` removed; the last place becomes zero bytes (R230; DESIGN CHOICE, log 79). -/
def State.removeEntry (s : State) (c : CoreId) (i : Nat) : State :=
  let n := (s.entries c).length
  let s := s.wrPieces [(s.entryKey c i, memReads s.mem (s.entryKey c (i + 1)) (64 * (n - 1 - i)) ++ List.replicate 64 0)]
  s.setCtl c 0 9 (n - 1)

/-- A straggler's key taken: SPEND set, the least key held since it was set kept (R230, R231). -/
def State.straggle (s : State) (c : CoreId) (k : Key) : State :=
  let keep := bits (s.ctl c) 16 1 = 1 && !k.lt (s.stragglerKey c)
  let s := if keep then s else s.wrPieces [((s.getCore c).inbox + 8, k.bytes)]
  (s.setCtl c 16 1 1).onCore c (·.count 11 1)

/-! ### Arrivals -/

/-- CR.SENTMIN as the tracked messages and cancels give it (R239). -/
def Core.leastSent (c : Core) : Word :=
  (c.unacked.map (·.2)).foldl timeMin (if c.cancels = 0 then infBits else c.cancelMin)

/-- The core with CR.SENTMIN brought up to date from what it tracks; a value that the runtime has written is dropped (R239; DESIGN CHOICE,
log 82). -/
def Core.refreshSent (c : Core) : Core := { c with sentmin := c.leastSent }

/-- An acknowledgement sent to the sender of a boundary message or cancel. -/
def State.ackBound (s : State) (m : BoundMsg) : State :=
  State.fresh { s with backs := s.backs ++ [{ id := s.nextId, core := m.src, msg := m.id, cancel := m.cancel }] }

/-- Whether a boundary message or cancel waits to be sent again: it has been refused, or one that its sender sent before it to the same core has
(R348). -/
def State.heldBack (s : State) (m : BoundMsg) : Bool :=
  s.bmsgs.any fun q => q.refused && q.src = m.src && q.dst = m.dst && q.id ≤ m.id

/-- Whether a boundary message or cancel may be applied: it is the first from its sender to its core, not refused, and the core
is not saved (R231, R336, R348). -/
def State.boundMayArrive (s : State) (m : BoundMsg) : Bool :=
  !m.refused && !(s.getCore m.dst).saved &&
    s.bmsgs.all fun q => m.id ≤ q.id || q.src ≠ m.src || q.dst ≠ m.dst

/-- A boundary message gone from those in flight, and acknowledged. -/
def State.takeBound (s : State) (m : BoundMsg) : State := ({ s with bmsgs := s.bmsgs.filter (·.id ≠ m.id) } : State).ackBound m

/-- A message or cancel of another launch: acknowledged, discarded and reported (R231). -/
def State.strayBound (s : State) (m : BoundMsg) : State :=
  (s.takeBound m).report 7 m.dst m.launch m.key.time (m.src.setWidth 64)

/-- A boundary message met by its core (R231). -/
def State.boundAtCore (s : State) (m : BoundMsg) : State :=
  let c := m.dst
  if (s.getCore c).launch ≠ m.launch then s.strayBound m
  else if (s.getCore c).inboxCap ≤ (s.entries c).length then
    let s := ((s.banked c).setCtl c 17 1 1).setCtl c 32 32 m.key.region.toNat
    { s with bmsgs := s.bmsgs.map fun q => if q.id = m.id then { q with refused := true } else q }
  else
    let late := m.key.lt (s.currentKey c)
    let s := ((s.banked c).takeBound m).insertEntry c m
    if late then s.straggle c m.key else s

/-- A cancel met by its core (R231). One that matches no entry is acknowledged too (DESIGN CHOICE, log 69). -/
def State.cancelAtCore (s : State) (m : BoundMsg) : State :=
  let c := m.dst
  if (s.getCore c).launch ≠ m.launch then s.strayBound m
  else
    let s := (s.banked c).takeBound m
    match s.findEntry c m.key (· = 1) with
    | some i => (s.removeEntry c i).onCore c (·.count 12 1)
    | none =>
      match s.findEntry c m.key (· = 2) with
      | some i => ((s.setEntryState c i 3).straggle c m.key).onCore c (·.count 12 1)
      | none => s.report 8 c m.launch m.key.time m.key.seq

/-- `BOUNDARY_MESSAGE_ARRIVAL` of message `n` (R231). -/
def execBoundaryMessageArrival (n : Nat) (s : State) : Res :=
  .next <|
    match s.bmsgs.find? (·.id = n) with
    | none => s
    | some m => if !m.cancel && s.boundMayArrive m then s.boundAtCore m else s

/-- `CANCEL_ARRIVAL` of cancel `n` (R231). -/
def execCancelArrival (n : Nat) (s : State) : Res :=
  .next <|
    match s.bmsgs.find? (·.id = n) with
    | none => s
    | some m => if m.cancel && s.boundMayArrive m then s.cancelAtCore m else s

/-- What an acknowledgement does at the core that sent (R239). -/
def Core.boundAcked (c : Core) (a : BoundAck) : Core :=
  if a.cancel then { c with cancels := c.cancels - 1, cancelMin := if c.cancels ≤ 1 then infBits else c.cancelMin }.refreshSent
  else { c with unacked := c.unacked.filter (·.1 ≠ a.msg) }.refreshSent

/-- `BOUNDARY_ACK_ARRIVAL` of acknowledgement `n` (R239). -/
def execBoundaryAckArrival (n : Nat) (s : State) : Res :=
  .next <|
    match s.backs.find? (·.id = n) with
    | none => s
    | some a =>
      if (s.getCore a.core).saved then s
      else ({ s with backs := s.backs.filter (·.id ≠ n) } : State).onCore a.core (·.boundAcked a)

/-! ### Events -/

/-- A command's use of the inbox: poison anywhere in its span is met, unused entries included (R308; DESIGN CHOICE, log 77). -/
def readInbox (s : State) : Body Unit :=
  match s.poisonAt s.core.inbox s.core.inboxSize with
  | some g => trapPoison (BitVec.ofNat 64 (8 * g - localKey s.cur.core 0))
  | none => .ok ()

/-- The generator's position (R224). -/
def Slot.genPos (l : Slot) : Word := if l.rsrc then l.rtidx.setWidth 64 else l.rctr

/-- An event opened: an event-mark of the state before it where the journal is on, CR.ESEQ advanced, SENDS zeroed (R232, R233). -/
def State.openEvent (s : State) (g : Word) : State :=
  let c := s.cur.core
  let k := s.currentKey c
  let mark := natBytes 8 (5 + k.region.toNat * 2 ^ 32) ++ natBytes 8 s.core.rclk.toNat ++ natBytes 8 k.seq.toNat ++
    natBytes 8 g.toNat
  let s := if s.core.jmode then s.append c mark else s
  (s.modCore fun c => { c with eseq := c.eseq + 1 }).setCtl c 24 8 0

/-- The SEQ of a local event, or of the `n`-th message of an event (R229). -/
def seqOf (eseq : Word) (n : Nat) : Word := (eseq <<< 8) + BitVec.ofNat 64 n

/-- The current key of a local event at CR.RCLK, with CURMSG zero (R229). -/
def State.localEvent (s : State) : State :=
  (s.setCurrent s.cur.core { time := s.core.rclk, region := s.core.regid, seq := seqOf s.core.eseq 0 }).setCtl s.cur.core 18 1 0

/-- The pending entry with the least key (R224). -/
def State.leastPending (s : State) (c : CoreId) : Option Nat :=
  ((s.entries c).filter fun i => s.entryState c i = 1).foldl (fun b i => match b with
    | none => some i
    | some j => if (s.entry c i).lt (s.entry c j) then some i else b) none

/-- A register pair filled. -/
def State.fillPair (s : State) (d : XReg) (a b : Word) : State := (s.fillX d a).fillX (d + 1) b

/-- Whether the root rate is above zero (R224). -/
def rateAbove (r : Nat) : Bool := FVal.lt false (.fin false 0 0) (fp64.decode r)

/-- The draws of `tnext` where R > 0: τ, the target, RN64(CR.RCLK + τ), and the events (R224). -/
def nextDraws (s : State) (r : Nat) : Body (State × Nat × Nat × Nat × Events) := do
  let (s, u) ← draw s
  let (s, v) ← draw s
  let l := fp64.ln (time64 u)
  let neg := if l.bits / fp64.signBit = 1 then l.bits - fp64.signBit else l.bits + fp64.signBit
  let tau := fp64.div neg r
  let target := fp64.mul (pick64 v) r
  let next := fp64.add s.core.rclk.toNat tau.bits
  .ok (s, tau.bits, target.bits, next.bits, Events.sum [l.ev, tau.ev, target.ev, next.ev])

/-- What `tnext` has where R is not above zero: τ = +∞ and RN64(CR.RCLK + ∞). A root that is negative or a NaN makes a local event, for
which the spec states no target: a free value (R224; DESIGN CHOICE, log 55). -/
def nextIdle (s : State) : Nat × Nat × Nat × Events :=
  let next := fp64.add s.core.rclk.toNat infBits.toNat
  (infBits.toNat, Config.noTarget s.tick % 2 ^ 64, next.bits, next.ev)

/-- The event that `tnext` makes: a message, nothing, or a local event (R224). -/
def nextEvent (s : State) (d : XReg) (t : Option TreeCfg) (g : Word) (r tau target next : Nat) : Body State := do
  let c := s.cur.core
  match (s.leastPending c).filter fun i => timeLe (s.entry c i).time (BitVec.ofNat 64 next) with
  | some i =>
    let k := s.entry c i
    let s := s.openEvent g
    let s := s.modCore fun c => { c with rclk := k.time }
    let s := ((s.setEntryState c i 2).setCtl c 18 1 1).setCurrent c k
    let consumed := natBytes 8 4 ++ natBytes 8 k.time.toNat ++ natBytes 8 k.seq.toNat ++ natBytes 8 k.region.toNat
    let s := if s.core.jmode then s.append c consumed else s
    .ok (s.fillPair d 0xFFFFFFFF k.time)
  | none =>
    match t with
    | none => .ok (s.fillPair d (BitVec.allOnes 64) infBits)
    | some t =>
      if (fp64.decode r).isZero then .ok (s.fillPair d (BitVec.allOnes 64) infBits)
      else do
        let (p, _, ev) ← direct (descend s c t 14 1 target Events.zero)
        let s := (s.openEvent g).modCore fun c => { c with rclk := BitVec.ofNat 64 next }
        .ok ((s.localEvent.countEvents ev).fillPair d (BitVec.ofNat 64 (p - t.n)) (BitVec.ofNat 64 tau))

/-- `tnext` (R224). -/
def execTnext (o : RD) (s : State) : Res :=
  finish s do
    issueRule s [] [.x o.d, .x (o.d + 1)]
    directGate s
    goodTree s
    let c := s.cur.core
    let t := if s.core.hasTree then some s.core.treeCfg else none
    let r ← (match t with
      | some t => direct (treeRd s c (t.node + 8) 8)
      | none => .ok 0)
    readInbox s
    let ctl := s.ctl c
    if bits ctl 16 1 = 1 then .error (.user cSTRAGGLE (s.stragglerKey c).time)
    else if bits ctl 17 1 = 1 then .error (.keep (s.setCtl c 17 1 0) cINBOXFULL (BitVec.ofNat 64 (bits ctl 32 32)))
    else do
      if s.core.jmode then do
        let _ ← journalRoom s.core 64
        .ok ()
      let g := s.slot.genPos
      let (s, tau, target, next, ev) ← (if rateAbove r then nextDraws s r else .ok (s, nextIdle s))
      let s ← nextEvent s o.d t g r tau target next
      .ok ((s.countEvents ev).advance 4)

/-- `jmark` (R238). -/
def execJmark (_o : R0) (s : State) : Res :=
  finish s do
    directGate s
    readInbox s
    if s.core.jmode then do
      let _ ← journalRoom s.core 32
      .ok ()
    .ok ((s.openEvent s.slot.genPos).localEvent.advance 4)

/-- `tmsg` (R235). -/
def execTmsg (o : R2) (s : State) : Res :=
  finish s do
    issueRule s [(.x o.a, o.wa)] [.x o.d]
    directGate s
    readInbox s
    let c := s.cur.core
    let a := (s.xv o.a).toNat
    if bits (s.ctl c) 18 1 = 0 || 3 < a then trapIllegal s
    else
      let w := match s.findEntry c (s.currentKey c) (fun _ => true) with
        | some i => if a < s.entryNw c i then s.rd64 (s.entryKey c i + 32 + 8 * a) else 0
        | none => 0
      .ok ((s.putX o.d w).advance 4)

/-! ### Boundary messages -/

/-- The `bsend` commands of a core that wait in its queue (R234). -/
def Core.queuedSends (c : Core) : Nat :=
  (c.tree.filter fun t => match t.op with
    | .bsend _ _ _ _ => true
    | _ => false).length

/-- A boundary message or cancel sent by a core (R231, R234, R236). -/
def State.sendBound (s : State) (c dst : CoreId) (cancel : Bool) (key : Key) (nw : Nat) (payload : Vector Word 4) : State :=
  State.fresh { s with
    bmsgs := s.bmsgs ++ [{ id := s.nextId, src := c, dst := dst, launch := (s.getCore c).launch, cancel := cancel, key := key,
                           nw := nw, payload := payload, refused := false }] }

/-- What `bsend` does: SENDS in the header of the inbox at `ib`, the sent record where the journal is on, the message, and its tracking
(R29, R232, R233, R234, R239). -/
def State.boundSend (s : State) (c dst : CoreId) (rec : List Word) (nw ib : Nat) (log : Bool) : State :=
  let k := s.getCore c
  let ctl := s.rd ib 8
  let n := bits ctl 24 8 + 1
  let time := rec.getD 0 0
  let key : Key := { time := time, region := k.regid, seq := seqOf k.eseq n }
  let s := s.wr ib 8 (withBits ctl 24 8 n)
  let s := if log then
      s.append c (natBytes 8 (3 + dst.toNat * 2 ^ 32) ++ natBytes 8 time.toNat ++ natBytes 8 key.seq.toNat ++ natBytes 8 0)
    else s
  let id := s.nextId
  let s := s.sendBound c dst false key nw (Vector.ofFn fun i => if i.val < nw then rec.getD (i.val + 1) 0 else 0)
  s.onCore c fun k => { k with unacked := k.unacked ++ [(id, time)] }.refreshSent

/-- `bsend` (R234). Commands still queued count among the 64 messages (DESIGN CHOICE, log 71). -/
def execBsend (o : RAB) (s : State) : Res :=
  finish s do
    issueRule s [(.x o.a, o.wa), (.x o.b, o.wb)] []
    journalGate s
    let b := s.xv o.b
    let off ← ownOffset s b 8 48
    let bs ← readOwn s off 48
    let time := BitVec.ofNat 64 (fieldOf bs 0 8)
    let nw := fieldOf bs 8 8
    let finite := match fp64.decode time.toNat with
      | .fin _ _ _ => true
      | _ => false
    if !finite || timeLt time s.core.rclk || 4 < nw then trapFault .block b
    else if 255 ≤ bits (s.ctl s.cur.core) 24 8 + s.core.queuedSends then trapFault .block b
    else do
      let dst ← coreOperand s (s.xv o.a)
      if s.core.jmode then do
        readInbox s
        let _ ← journalRoom s.core 32
        .ok ()
      if 64 ≤ s.core.unacked.length + s.core.queuedSends then waitHere s 6
      let words := time :: (List.range 4).map fun i => BitVec.ofNat 64 (fieldOf bs (16 + 8 * i) 8)
      if s.core.jmode then .ok ((s.boundSend s.cur.core dst words nw s.core.inbox true).advance 4)
      else do
        let s ← enqueueTree s s.core.treeCfg (.bsend dst words nw s.core.inbox)
        .ok (s.advance 4)

/-! ### Rolling back -/

/-- The state of an undo, or the fault that stopped it: CR.SVAL of its RANGE (R219, R236). -/
abbrev Undo := State × Option Word

/-- A cancel for an undone send, counted until it is acknowledged (R236, R239). -/
def State.sendCancel (s : State) (c dst : CoreId) (time seq : Word) : State :=
  (s.sendBound c dst true { time := time, region := (s.getCore c).regid, seq := seq } 0 (Vector.replicate 4 0)).onCore c fun k =>
    { k with cancels := k.cancels + 1, cancelMin := timeMin k.cancelMin time }.refreshSent

/-- One record undone; `none` where a leaf record names no leaf of a usable tree (R219, R236). A record of a kind that R232 does not list, a word
record that runs past local memory, and a consumed record whose entry the inbox does not hold change nothing (R236; DESIGN CHOICE, log 81). -/
def undoRecord (s : State) (w0 w1 w2 w3 : Nat) : TreeM (Option State) :=
  let c := s.cur.core
  match w0 % 16 with
  | 1 =>
    let j := bits w0 32 13
    if !s.core.hasTree || s.core.badTree || s.core.treeCfg.n ≤ j then .ok none
    else do
      let s ← setLeaf s c s.core.treeCfg j (BitVec.ofNat 32 w1)
      .ok (some s)
  | 2 =>
    let off := bits w0 32 20
    .ok (some (if off + 8 ≤ localSize then s.ownWr c off 8 w1 else s))
  | 3 => .ok (some (s.sendCancel c (BitVec.ofNat 18 (bits w0 32 18)) (BitVec.ofNat 64 w1) (BitVec.ofNat 64 w2)))
  | 4 =>
    let key : Key := { time := BitVec.ofNat 64 w1, seq := BitVec.ofNat 64 w2, region := BitVec.ofNat 32 w3 }
    .ok (some (match s.findEntry c key (fun st => st = 2 || st = 3) with
      | some i => if s.entryState c i = 2 then s.setEntryState c i 1 else s.removeEntry c i
      | none => s))
  | 5 =>
    let time := BitVec.ofNat 64 w1
    let s := s.modCore fun c => { c with rclk := time, eseq := c.eseq - 1 }
    let s := s.setCurrent c { time := time, seq := BitVec.ofNat 64 w2, region := BitVec.ofNat 32 (w0 / 2 ^ 32) }
    let s := s.modSlot fun l => if l.rsrc then { l with rtidx := BitVec.ofNat 16 w3 } else { l with rctr := BitVec.ofNat 64 w3 }
    .ok (some (s.setCtl c 18 1 0))
  | _ => .ok (some s)

/-- Records undone from offset `p` down while the current key is at or above K (R236) (DEDUCED, log 37). -/
def undoFrom (base : Nat) (key : Key) (a : Word) : Nat → Nat → State → TreeM Undo
  | 0, _, s => .ok (s, none)
  | fuel + 1, p, s =>
    let c := s.cur.core
    let at_ := fun (p : Nat) => s.modCore fun c => { c with jptr := BitVec.ofNat 20 p }
    if (s.currentKey c).lt key then .ok (at_ p, none)
    else if p ≤ base then .ok (at_ p, some a)
    else do
      let q := p - 32
      let w0 ← ownRd s c q 8
      let w1 ← ownRd s c (q + 8) 8
      let w2 ← ownRd s c (q + 16) 8
      let w3 ← ownRd s c (q + 24) 8
      match (← undoRecord s w0 w1 w2 w3) with
      | none => .ok (at_ p, some (BitVec.ofNat 64 q))
      | some t => undoFrom base key a fuel q t

/-- `jundo` (R236). -/
def execJundo (o : RA) (s : State) : Res :=
  finish s do
    issueRule s [(.x o.a, o.wa)] []
    directGate s
    let a := s.xv o.a
    let off ← ownOffset s a 8 24
    let bs ← readOwn s off 24
    readInbox s
    let key : Key :=
      { time := BitVec.ofNat 64 (fieldOf bs 0 8), seq := BitVec.ofNat 64 (fieldOf bs 8 8), region := BitVec.ofNat 32 (fieldOf bs 16 4) }
    let p := s.core.jptr.toNat
    let (t, stop) ← direct (undoFrom s.core.jbase.toNat key a (p / 32 + 2) p s)
    match stop with
    | some val => .error (.keep t FKind.range.scause val)
    | none =>
      let c := s.cur.core
      let t := t.setCtl c 24 8 0
      let t := if bits (t.ctl c) 16 1 = 1 && (t.currentKey c).lt (t.stragglerKey c) then t.setCtl c 16 1 0 else t
      .ok (t.advance 4)

/-! ### Trimming -/

/-- The offsets of the journal's event-marks (R237). -/
def marksOf (s : State) : List Nat :=
  let b := s.core.jbase.toNat
  ((List.range ((s.core.jptr.toNat - b) / 32)).map fun i => b + 32 * i).filter fun p =>
    s.rd (localKey s.cur.core p) 1 % 16 = 5

/-- The first event-mark whose event's key time is at or above F (R237). -/
def keepFrom (s : State) (f : Word) : List Nat → Option Nat
  | [] => none
  | [m] => if timeLe f s.core.rclk then some m else none
  | m :: n :: l => if timeLe f (s.rd64 (localKey s.cur.core (n + 8))) then some m else keepFrom s f (n :: l)

/-- Consumed entries below F removed, the highest first; the message that the latest event took stays (R237). -/
def trimInbox (c : CoreId) (f : Word) : List Nat → State → State
  | [], s => s
  | i :: l, s =>
    let held := bits (s.ctl c) 18 1 = 1 && (s.entry c i).same (s.currentKey c)
    trimInbox c f l (if s.entryState c i = 2 && timeLt (s.entry c i).time f && !held then s.removeEntry c i else s)

/-- `jtrim` (R237). -/
def execJtrim (o : RA) (s : State) : Res :=
  finish s do
    issueRule s [(.x o.a, o.wa)] []
    directGate s
    let c := s.cur.core
    let f := s.xv o.a
    let b := s.core.jbase.toNat
    let p := s.core.jptr.toNat
    readInbox s
    let _ ← (match s.poisonAt (localKey c b) (p - b) with
      | some g => trapPoison (BitVec.ofNat 64 (8 * g - localKey c 0))
      | none => (.ok () : Body Unit))
    if fp64.decode f.toNat = .nan then .ok (s.advance 4)
    else
      let t := match keepFrom s f (marksOf s) with
        | none => s.modCore fun c => { c with jptr := c.jbase }
        | some m =>
          (s.wrPieces [(localKey c b, memReads s.mem (localKey c m) (p - m))]).modCore fun c =>
            { c with jptr := BitVec.ofNat 20 (b + (p - m)) }
      .ok ((trimInbox c f (t.entries c).reverse t).advance 4)

/-! ### Draws -/

/-- A scalar draw: the generator advances at issue, d is left empty, and the context is held until it is full (R240). -/
def scalarDraw (o : RD) (g : Word → Word) (s : State) : Res :=
  finish s do
    issueRule s [] [.x o.d]
    let (t, w) ← draw s
    .error (.held ((t.modSlot fun l => l.markX o.d false).sendAnswered 0 (.rand none o.d 0 VVal.zero Events.zero) (.word (g w) false)))

/-- `rand` (R240). -/
def execRand (o : RD) (s : State) : Res := scalarDraw o id s
/-- `unif` (R240). -/
def execUnif (o : RD) (s : State) : Res := scalarDraw o (fun w => BitVec.ofNat 64 (pick64 w)) s

/-! ### The queue -/

/-- The owner of a queued command. -/
def TreeCmd.slotId (m : TreeCmd) (c : CoreId) : SlotId := { core := c, slot := m.own.slot }

/-- What a queued command does (R220-R227, R234). -/
def runTree (s : State) (c : CoreId) (m : TreeCmd) : TreeM State :=
  match m.op with
  | .write ls => writeLeaves c m.cfg false s ls
  | .build => rebuild s c m.cfg
  | .cut thr => do
    let ls ← cutLeaves s c m.cfg thr (List.range m.cfg.n)
    cut s c m.cfg false ls
  | .bsend dst rec nw ib =>
    match s.poisonAt ib 8 with
    | some g => .error (BitVec.ofNat 64 (8 * g - localKey c 0))
    | none => .ok (s.boundSend c dst rec nw ib false)
  | op => do
    let (d, w, ev) ← treeAnswer s c m.cfg op
    let o := m.slotId c
    let s := s.onCore c (·.countEvents ev)
    .ok (if (s.getSlot o).gen = m.own.gen && (s.getSlot o).st ≠ .free then s.onSlot o fun l => (l.setX d w).markX d true else s)

/-- The command that the unit of a core runs next, if it may; while the core saves itself, the commands as far as the last that fills a
register (R24, R218). -/
def State.treeDue (s : State) (c : CoreId) : Option TreeCmd :=
  let k := s.getCore c
  if k.saved || (k.saving && k.tree.all fun m => m.op.dest.isNone) then none else k.tree.head?.filter fun m => s.treeReady c m.own

/-- `TREE_COMMAND_RUN`: the unit of a core runs the command at the head of its queue; one that meets poison is abandoned, and its
context takes POISON (R218, R308). -/
def execTreeCommandRun (c : CoreId) (s : State) : Res :=
  .next <|
    match s.treeDue c with
    | none => s
    | some m =>
      let s := (s.onCore c fun k => { k with tree := k.tree.drop 1 }).banked c
      match runTree s c m with
      | .ok t => t
      | .error a => s.unitFault c m.own cPOISON a none

end Sys2Proof.Machine
end

