-- ==== Sys2Proof/Machine/Launch.lean ====
section
/-! DEFINITION. The launcher: launch queues and records (R312-R316), placement and the start of a launch (R317-R320), levels
(R321), dependences, triggers and completion (R322-R325), and task graphs (R326, R327). -/

namespace Sys2Proof.Machine

open Sys2Proof

/-! ### Queues and completion records -/

/-- The memory key of the control block of a queue (R312). -/
def State.queueBlock (s : State) (q : BitVec 3) : Nat := s.bar0.qbase.toNat % 2 ^ 48 + 64 * q.toNat

/-- A doubleword of the control block of a queue (R312). -/
def State.queueWord (s : State) (q : BitVec 3) (off : Nat) : Nat := s.rd (s.queueBlock q + off) 8

/-- The depth of a queue's rings (R312). -/
def State.queueDepth (s : State) (q : BitVec 3) : Nat := 2 ^ bits (s.queueWord q 0) 48 4

/-- How many accepted launches have not completed, a replay counted once (R313). -/
def Launcher.load (l : Launcher) : Nat := (l.launches.filter (·.node.isNone)).length + l.replays.length

/-- Whether the launcher passes over a queue (R313). -/
def State.passedOver (s : State) (q : BitVec 3) : Bool :=
  s.queueWord q 0x10 = s.queueWord q 0x08 ||
    bits (s.queueWord q 0x20 + 2 ^ 64 - s.queueWord q 0x28) 0 64 = s.queueDepth q || 64 ≤ s.launcher.load

/-- Whether the launcher's next visit that accepts a record is to queue `q`: it runs, and passes over the queues before it (R313). -/
def State.visits (s : State) (q : BitVec 3) : Bool :=
  s.bar0.run && !s.passedOver q &&
    (List.range 8).all fun i =>
      let p := s.launcher.nextQueue + BitVec.ofNat 3 i
      (q - s.launcher.nextQueue).toNat ≤ i || s.passedOver p

/-- A completion record written to a queue, its index advanced, and its interrupt sent (R316, R381). -/
def State.complete1 (s : State) (q : BitVec 3) (id : Word32) (status reason rank : Nat) (start : Word) : State :=
  let (s, now) := s.readTime (.io 0)
  let n := s.queueWord q 0x20
  let at_ := s.queueWord q 0x18 % 2 ^ 48 + 64 * (n % s.queueDepth q)
  let rec_ := natBytes 8 id.toNat ++ natBytes 8 (status + reason * 2 ^ 8 + rank * 2 ^ 16) ++ natBytes 8 start.toNat ++
    natBytes 8 now.toNat ++ List.replicate 32 0
  let s := (s.wrPieces [(at_, rec_)]).wr (s.queueBlock q + 0x20) 8 (n + 1)
  { s with msix := s.msix ++ [1 + q.toNat] }

/-- The record of a launch, replay or refusal, with START the time of its first start, or zero where it never started (R316; DESIGN
CHOICE, log 39). -/
def State.completion (s : State) (q : BitVec 3) (id : Word32) (status reason rank : Nat) (start : Option Word) : State :=
  s.complete1 q id status reason rank (start.getD 0)

/-! ### Records -/

/-- The level entries of a record: DOMAIN, SCOPE, V and the bits above (R314). -/
def levelWords (bs : List Byte) : List Nat := (List.range 8).map fun i => fieldOf bs (0x060 + 4 * i) 4

/-- The ranges of a record from entry `i` on, `n` of them (R314). -/
def rangesOf (bs : List Byte) (i n : Nat) : List MemRange :=
  (List.range n).map fun j => { base := fieldOf bs (0x140 + 16 * (i + j)) 8, len := fieldOf bs (0x148 + 16 * (i + j)) 8 }

/-- The fields of a launch record (R314). -/
def parseRecord (bs : List Byte) : LaunchRec :=
  let ctl := fieldOf bs 0x008 8
  let sizes := fieldOf bs 0x018 8
  let entry := fieldOf bs 0x020 8
  let bounds := fieldOf bs 0x028 8
  let time := fieldOf bs 0x030 8
  { id := BitVec.ofNat 32 (fieldOf bs 0 4), early := bits ctl 2 1 = 1, note := bits ctl 3 1 = 1,
    prio := BitVec.ofNat 2 (bits ctl 4 2), spnlim := BitVec.ofNat 8 (bits ctl 8 8), tenant := BitVec.ofNat 12 (bits ctl 16 12),
    nclus := bits ctl 28 10 + 1, image := BitVec.ofNat 64 (fieldOf bs 0x010 8), isize := bits sizes 0 20, zsize := bits sizes 20 20,
    aqd := bits sizes 40 13, ibc := bits sizes 53 9, entry := BitVec.ofNat 20 entry, tvec := BitVec.ofNat 20 (entry / 2 ^ 32),
    hbase := BitVec.ofNat 20 bounds, hlim := BitVec.ofNat 20 (bounds / 2 ^ 32), slice := BitVec.ofNat 32 time,
    waitbud := BitVec.ofNat 32 (time / 2 ^ 32), seed := BitVec.ofNat 64 (fieldOf bs 0x038 8),
    ptroot := BitVec.ofNat 64 (fieldOf bs 0x040 8), save := BitVec.ofNat 64 (fieldOf bs 0x048 8),
    spill := BitVec.ofNat 64 (fieldOf bs 0x050 8), spcap := BitVec.ofNat 32 (fieldOf bs 0x058 4),
    levels := ((levelWords bs).filter fun w => bits w 6 1 = 1).map fun w => (BitVec.ofNat 3 w, BitVec.ofNat 3 (w / 8)),
    shp := Vector.ofFn fun i => BitVec.ofNat 64 (fieldOf bs (0x080 + 8 * i.val) 8), init := BitVec.ofNat 64 (fieldOf bs 0x100 8),
    ninit := bits (fieldOf bs 0x108 8) 0 20, preds := BitVec.ofNat 64 (fieldOf bs 0x118 8), reads := rangesOf bs 0 8,
    writes := rangesOf bs 8 8 }

/-- Whether `n` bytes at an offset of a record are zero. -/
def zeroAt (bs : List Byte) (off n : Nat) : Bool := ((bs.drop off).take n).all (· = 0)

/-- Whether a field of a record has no bit outside a mask. -/
def within (bs : List Byte) (off mask : Nat) : Bool := fieldOf bs off 8 &&& mask = fieldOf bs off 8

/-- Whether the bits that a record of KIND 0 does not list are zero (R314). -/
def reservedZero (bs : List Byte) (isNode : Bool) : Bool :=
  within bs 0 0xFFFFFFFF && within bs 8 0x3FFFFFFF3F && within bs 0x018 0x3FFFFFFFFFFFFFFF && within bs 0x020 0xFFFFF000FFFFF &&
    within bs 0x028 0xFFFFF000FFFFF && within bs 0x058 0xFFFFFFFF && ((levelWords bs).all fun w => w / 128 = 0) &&
    ((List.range 16).all fun i => bits (fieldOf bs (0x080 + 8 * i) 8) 61 3 = 0) && within bs 0x108 0xFFFFF && zeroAt bs 0x110 8 &&
    (isNode || zeroAt bs 0x118 8) && zeroAt bs 0x120 32 && zeroAt bs 0x240 448

/-- The bytes of the layout of R318. -/
def LaunchRec.layoutEnd (r : LaunchRec) : Nat := r.isize + r.zsize + 64 * r.aqd + 64 + 64 * r.ibc

/-- Whether the sizes and limits of a record are in range; an ISIZE or ZSIZE that is not a multiple of 64 counts as out of range (R314,
R315, R318; DESIGN CHOICE, log 39). -/
def LaunchRec.sizesOk (r : LaunchRec) : Bool :=
  r.layoutEnd ≤ localSize && r.isize % 64 = 0 && r.zsize % 64 = 0 && 1 ≤ r.aqd && r.aqd ≤ 4096 && 1 ≤ r.ibc && r.ibc ≤ 256 &&
    r.spnlim ≠ 0 && r.spcap ≠ 0 && r.slice ≠ 0

/-- Whether the levels of a record keep R321. -/
def levelsOk (bs : List Byte) : Bool :=
  let vs := (levelWords bs).map fun w => bits w 6 1
  let ls := (levelWords bs).take vs.sum
  let doms := ls.map fun w => w % 8
  1 ≤ vs.sum && ((vs.take vs.sum).all (· = 1)) &&
    (ls.all fun w => 1 ≤ w % 8 && w % 8 ≤ 6 && w % 8 ≤ bits w 3 3) && (doms.zip (doms.drop 1)).all fun p => p.1 ≤ p.2

/-- Whether the handlers of a record lie as R315 asks. -/
def LaunchRec.handlersOk (r : LaunchRec) : Bool :=
  r.hbase.toNat % 4 = 0 && r.hlim.toNat % 4 = 0 && r.hbase.toNat < r.hlim.toNat && r.hlim.toNat ≤ r.isize &&
    r.hbase.toNat ≤ r.entry.toNat && r.entry.toNat < r.hlim.toNat && r.tvec.toNat % 4 = 0 && r.tvec.toNat < r.isize

/-- Whether an accepted launch that has not completed has an id, or a replay, or one of its nodes, completed or not (R315, R326). -/
def Launcher.idUsed (l : Launcher) (id : Word32) : Bool :=
  l.launches.any (fun a => a.record.id = id) ||
    l.replays.any fun r => r.id = id || (id.toNat / 64 = r.id.toNat && id.toNat % 64 < r.nnode)

/-- The reason for which a launch record of KIND 0 is refused, or 0 (R315, R326); of several that hold, the lowest number (DESIGN CHOICE,
log 39). -/
def recordReason (l : Launcher) (bs : List Byte) (isNode : Bool) : Nat :=
  let r := parseRecord bs
  if !reservedZero bs isNode || (r.id = 0) ≠ isNode then 1
  else if !r.sizesOk then 2
  else if !levelsOk bs then 3
  else if !r.handlersOk then 4
  else if !isNode && l.idUsed r.id then 5
  else 0

/-- Whether a record of KIND 1 to 3 has only the fields it uses (R314). -/
def shortZero (bs : List Byte) (kind : Nat) : Bool :=
  within bs 0 0xFFFFFFFF && within bs 8 (if kind = 1 then 0xFFF003F else 0xFFF0003) && zeroAt bs 0x10 0x100 &&
    (kind = 1 || zeroAt bs 0x110 8) && zeroAt bs 0x118 0x2E8

/-! ### Reads of translated space by the launcher -/

/-- The memory key that the launcher finds for a translated address with a tenant's tables and a permission (R294, R296, R297). -/
def State.launchKey (s : State) (tenant : BitVec 12) (root ea : Word) (p : Perm) : Option Nat :=
  if bits ea.toNat 48 16 ≠ 0 || bits ea.toNat 47 1 = 0 then none
  else
    let va := bits ea.toNat 0 47
    match s.walk none root va with
    | .error _ => none
    | .ok (e, _) =>
      match s.useEntry ({ Core.reset 0 with tenant := tenant } : Core) e va p with
      | .error _ => none
      | .ok pa => some pa

/-- `n` bytes of translated space as the launcher reads them; an address that is not mapped gives an open value (DESIGN CHOICE, log 20). -/
def State.launchRead (s : State) (tenant : BitVec 12) (root ea : Word) (n : Nat) (p : Perm := .r) : List Byte :=
  (List.range n).map fun i =>
    let a := ea + BitVec.ofNat 64 i
    match s.launchKey tenant root a p with
    | some k => memRead s.mem k
    | none => Config.unmappedByte s.tick a

/-! ### Acceptance -/

/-- Whether two ranges share a byte (R322). -/
def MemRange.meets (a b : MemRange) : Bool := a.len ≠ 0 && b.len ≠ 0 && a.base < b.base + b.len && b.base < a.base + a.len

/-- Whether launch record `b`, accepted later, depends on `a` (R322). -/
def dependsOn (b a : LaunchRec) : Bool :=
  a.tenant = b.tenant &&
    (a.writes.any (fun w => (b.reads ++ b.writes).any w.meets) || a.reads.any fun r => b.writes.any r.meets)

/-- The state `t` with the writes that it has over `s` put down to the host or a peer module. A host's write of the write index of a queue is a
release at system scope: its writes so far happen before the launches that the index makes visible (R246, R261). -/
def State.fromOutside (s t : State) (host : Bool) : State :=
  let t := t.madeBy s.writes (if host then .host else .peer) Clock.zero [] false
  let index := fun (w : Past) => s.writes ≤ w.num && (List.range 8).any fun q =>
    (w.old.any fun p => rangesMeet p.1 p.2.length (s.queueBlock (BitVec.ofNat 3 q) + 0x08) 8)
  if host && t.past.any index then
    { t with host := t.host.withWrites (t.past.filterMap fun w => if w.by_ = .host then some w.num else none) }
  else t

/-- A launch as it is accepted; the host's advance of its queue's index happens before its start (R261). -/
def newLaunch (s : State) (num : Nat) (q : BitVec 3) (r : LaunchRec) (node : Option NodeOf) : Launch :=
  { num := num, queue := q, record := r, node := node, stage := .accepted, clusters := [], initialSent := false,
    triggered := false, report := none, resume := false, asked := false, saved := [], refused := [],
    deps := (s.launcher.launches.filter fun a => dependsOn r a.record).map (·.num), startTime := none, base := s.host }

/-- The launcher with launches appended in acceptance order. -/
def State.addLaunches (s : State) (ls : List Launch) : State :=
  { s with launcher := { s.launcher with launches := s.launcher.launches ++ ls, count := s.launcher.count + ls.length } }

/-- The revision table that a replay's graph header names, its nodes' records, or nothing where they break R326. -/
def State.readGraph (s : State) (id : Word32) (tenant : BitVec 12) (graph : Word) : Option (List (List Byte)) :=
  let root := Config.graphRoot tenant
  let header := s.launchRead tenant root graph 64
  let rev := BitVec.ofNat 64 (fieldOf header 0 8)
  let table := s.launchRead tenant root rev 1024
  let n := fieldOf table 0 8
  let mapped := (s.launchKey tenant root graph .r).isSome && (s.launchKey tenant root rev .r).isSome
  if !mapped || !zeroAt header 8 56 || rev.toNat % 1024 ≠ 0 || n = 0 || 64 < n || !zeroAt table 8 1016 then none
  else
    let nodes := (List.range n).map fun i => s.launchRead tenant root (rev + BitVec.ofNat 64 (1024 * (i + 1))) 1024
    let ok := (List.range n).all fun i =>
      let bs := nodes.getD i []
      let r := parseRecord bs
      bits (fieldOf bs 8 8) 0 2 = 0 && r.tenant = tenant && recordReason s.launcher bs true = 0 && r.preds.toNat < 2 ^ i &&
        !s.launcher.idUsed (BitVec.ofNat 32 (id.toNat * 64 + i))
    if ok then some nodes else none

/-- A replay accepted, its nodes taken from the bound revision, or refused (R326, R327). Its own EARLY, NOTE and PRIO are kept, and its
nodes go by those of their records (R314; DESIGN CHOICE, log 56). -/
def State.acceptReplay (s : State) (q : BitVec 3) (bs : List Byte) : State :=
  let id : Word32 := BitVec.ofNat 32 (fieldOf bs 0 4)
  let ctl := fieldOf bs 8 8
  let tenant := BitVec.ofNat 12 (bits ctl 16 12)
  if !shortZero bs 1 || id = 0 || 2 ^ 26 ≤ id.toNat then s.completion q id 1 1 0 none
  else if s.launcher.idUsed id then s.completion q id 1 5 0 none
  else match s.readGraph id tenant (BitVec.ofNat 64 (fieldOf bs 0x110 8)) with
    | none => s.completion q id 1 6 0 none
    | some nodes =>
      let num := s.launcher.count
      let ls := (List.range nodes.length).map fun i =>
        newLaunch s (num + 1 + i) q { parseRecord (nodes.getD i []) with id := BitVec.ofNat 32 (id.toNat * 64 + i) }
          (some { replay := num, node := i })
      let r : Replay :=
        { num := num, queue := q, id := id, early := bits ctl 2 1 = 1, note := bits ctl 3 1 = 1, prio := BitVec.ofNat 2 (bits ctl 4 2),
          tenant := tenant, nnode := nodes.length, completed := [], triggered := [],
          startTime := none }
      let s := { s with launcher := { s.launcher with
        count := s.launcher.count + 1
        replays := s.launcher.replays ++ [r] } }
      s.addLaunches ls

/-- The launch with a number. -/
def State.launch? (s : State) (n : Nat) : Option Launch := s.launcher.launches.find? (·.num = n)

/-- The state with a launch changed. -/
def State.onLaunch (s : State) (n : Nat) (f : Launch → Launch) : State :=
  { s with launcher := { s.launcher with launches := s.launcher.launches.map fun l => if l.num = n then f l else l } }

/-- The state with a replay changed. -/
def State.onReplay (s : State) (n : Nat) (f : Replay → Replay) : State :=
  { s with launcher := { s.launcher with replays := s.launcher.replays.map fun r => if r.num = n then f r else r } }

/-- A replay whose nodes have all completed reports it (R327). -/
def State.replayEnd (s : State) (n : Nat) : State :=
  match s.launcher.replays.find? (·.num = n) with
  | none => s
  | some r =>
    if r.completed.length < r.nnode then s
    else
      let s := s.completion r.queue r.id 0 0 0 r.startTime
      { s with launcher := { s.launcher with replays := s.launcher.replays.filter (·.num ≠ n) } }

/-- The cores of a launch, in rank order (R317). -/
def Launch.cores (l : Launch) : List CoreId := l.clusters.flatMap clusterCores

/-- Whether launch `b` depends on launch `a`, as a launch or as a node of the same replay (R322, R327). -/
def Launch.follows (b a : Launch) : Bool :=
  b.deps.contains a.num ||
    match b.node, a.node with
    | some n, some m => n.replay = m.replay && b.record.preds.getLsbD m.node
    | _, _ => false

/-- What happens before the completion of a launch: the ends of its contexts, and every write made since its start by its contexts, for them,
or to local memory of its cores (R261). -/
def State.launchClock (s : State) (l : Launch) : Clock :=
  let cs := l.cores
  let mine := fun (w : Past) => l.since ≤ w.num && match w.by_ with
    | .ctx p _ => cs.contains p.1.core
    | .unit _ p _ => cs.contains p.1.core
    | _ => w.old.any fun p => (homeCore p.1).any cs.contains
  (s.past.filter mine).foldl (fun c w => match w.by_ with
    | .ctx p r => c.upTo p (r + 1)
    | _ => c.withWrites [w.num]) l.fin

/-- A launch gone from the accepted ones, its clusters released; its replay counts it, and what it wrote happens before later launches (R261,
R325, R327, R341). -/
def State.releaseLaunch (s : State) (l : Launch) : State :=
  let c := s.launchClock l
  let s := { s with launcher := { s.launcher with
    launches := (s.launcher.launches.filter (·.num ≠ l.num)).map fun b => if b.follows l then { b with base := b.base.join c } else b
    savedOrder := s.launcher.savedOrder.filter (· ≠ l.num) } }
  match l.node with
  | none => s
  | some m => (s.onReplay m.replay fun r => { r with completed := m.node :: r.completed }).replayEnd m.replay

/-- A core that its launch's end leaves: nothing of the launch stays in its slots, queues or engines (R341); a halted one stays halted (R117). -/
def Core.dropLaunch (c : Core) : Core :=
  { c with
    slots := c.slots.map fun l => if l.st = .free then l else { Slot.reset with gen := l.gen + 1 }
    launch := 0
    aqHead := 0
    aqTail := 0
    spillHead := 0
    spillTail := 0
    forks := []
    mat := { queue := [], run := none, parked := none }
    copy := { c.copy with queue := [], run := none, parked := none, flights := [], landing := [] }
    vch := []
    gemvs := []
    tree := []
    unacked := []
    cancels := 0
    wb := Vector.replicate 16 none
    saved := false
    saving := false }

/-- The tasks and messages of a launch dropped, and its cores emptied; the walk caches keep nothing from the lines that a dropped store had
written (R299, R341). -/
def State.dropLaunch (s : State) (l : Launch) : State :=
  let id := l.record.id
  let cs := l.cores
  let mine := fun (c : CoreId) => cs.contains c && (s.getCore c).launch = id
  let s := (s.reqs.filter fun r => mine r.core && r.applied).foldl (fun s r => s.dropWalks (r.writes.map fun p => (p.key, p.len))) s
  let s' := { s with
    reqs := s.reqs.filter fun r => !mine r.core
    walks := s.walks.filter fun w => !mine w.core
    refused := s.refused.filter fun r => !mine r.core
    tmsgs := s.tmsgs.filter fun m => m.held.launch ≠ id
    cox := s.cox.map fun d => (d.1, d.2.filter fun h => h.launch ≠ id)
    sacks := s.sacks.filter fun a => !mine a.core
    bads := s.bads.filter fun b => !mine b.core
    replies := s.replies.filter fun r => r.launch ≠ id
    bmsgs := s.bmsgs.filter fun m => m.launch ≠ id
    backs := s.backs.filter fun a => !mine a.core
    wbmsgs := s.wbmsgs.filter fun m => m.launch ≠ id
    wbacks := s.wbacks.filter fun a => !mine a.core
    wbdones := s.wbdones.filter fun d => d.launch ≠ id
    wbroots := s.wbroots.filter fun r => r.launch ≠ id || r.tenant ≠ l.record.tenant
    fails := s.fails.filter fun f => f.launch ≠ id
    units := s.units.map fun u =>
      (u.1, { u.2 with queue := u.2.queue.filter (fun g => !mine g.core), run := u.2.run.filter fun g => !mine g.core }) }
  (cs.filter mine).foldl (fun s c => s.onCore c Core.dropLaunch) s'

/-- A launch ended with a status by the launcher: STALEMATE and FAILED launches discarded, or one whose save area fails (R337,
R339, R341). -/
def State.endLaunch (s : State) (l : Launch) (status rank : Nat) : State :=
  ((s.dropLaunch l).completion l.queue l.record.id status 0 rank l.startTime).releaseLaunch l

/-- A record of KIND 2 or 3: the launch that it names resumes or is discarded (R341). -/
def State.acceptFollowUp (s : State) (q : BitVec 3) (bs : List Byte) (kind : Nat) : State :=
  let id : Word32 := BitVec.ofNat 32 (fieldOf bs 0 4)
  let tenant := BitVec.ofNat 12 (bits (fieldOf bs 8 8) 16 12)
  if !shortZero bs kind || id = 0 then s.completion q id 1 1 0 none
  else match s.launcher.launches.find? fun l => l.record.id = id && l.record.tenant = tenant && l.stage = .awaitHost &&
      !l.resume with
    | none => s.completion q id 1 7 0 none
    | some l => if kind = 2 then s.onLaunch l.num fun l => { l with resume := true } else s.endLaunch l 4 0

/-- `LAUNCH_RECORD_ACCEPT` from queue `q`: the record is read once, checked, accepted or refused, and RIDX advances (R313, R315). -/
def execLaunchRecordAccept (q : BitVec 3) (s : State) : Res :=
  .next <|
    if !s.visits q then s
    else
      let n := s.queueWord q 0x10
      let bs := memReads s.mem (s.queueWord q 0 % 2 ^ 48 + 1024 * (n % s.queueDepth q)) 1024
      let s := s.wr (s.queueBlock q + 0x10) 8 (n + 1)
      let s := { s with launcher := { s.launcher with nextQueue := q + 1 } }
      match bits (fieldOf bs 8 8) 0 2 with
      | 0 =>
        let reason := recordReason s.launcher bs false
        let r := parseRecord bs
        if reason ≠ 0 then s.completion q r.id 1 reason 0 none
        else s.addLaunches [newLaunch s s.launcher.count q r none]
      | 1 => s.acceptReplay q bs
      | k => s.acceptFollowUp q bs k

/-! ### Starts -/

/-- The clusters that launches hold. -/
def State.heldClusters (s : State) : List (BitVec 10) := (s.launcher.launches.filter Launch.holds).flatMap (·.clusters)

/-- The clusters on which a tenant's next launch may be placed, in increasing number (R317, R344). -/
def State.freeClusters (s : State) (tenant : BitVec 12) : List (BitVec 10) :=
  ((List.range 1024).map (BitVec.ofNat 10)).filter fun k =>
    tabGet? s.tenancy.owner k = some tenant && !(s.tenancy.moving.any fun m => m.1 = k) && !s.heldClusters.contains k

/-- Whether every earlier record of a launch's queue has started or been refused (R323). -/
def State.queueTurn (s : State) (l : Launch) : Bool :=
  (s.launcher.launches.all fun a => a.node.isSome || a.queue ≠ l.queue || l.num ≤ a.num || a.stage ≠ .accepted) &&
    s.launcher.replays.all fun r =>
      r.queue ≠ l.queue || l.num ≤ r.num || r.startTime.isSome || l.node.any fun m => m.replay = r.num

/-- Whether a launch's dependences and its node's predecessors let it start (R322, R324, R327). -/
def State.depsMet (s : State) (l : Launch) : Bool :=
  (l.deps.all fun n =>
    match s.launch? n with
    | none => true
    | some a => l.record.early && a.triggered) &&
    match l.node with
    | none => true
    | some m =>
      match s.launcher.replays.find? (·.num = m.replay) with
      | none => true
      | some r =>
        (List.range 64).all fun i =>
          !l.record.preds.getLsbD i || r.completed.contains i || (l.record.early && r.triggered.contains i)

/-- Whether an accepted launch may start (R322, R323). -/
def State.mayStart (s : State) (l : Launch) : Bool := l.stage = .accepted && s.queueTurn l && s.depsMet l

/-- The launches of a tenant that wait for clusters, in the order in which they get them (R323). -/
def State.waiting (s : State) (tenant : BitVec 12) : List Launch :=
  (s.launcher.savedOrder.filterMap fun n => (s.launch? n).filter fun l => l.stage = .saved && l.record.tenant = tenant) ++
    s.launcher.launches.filter fun l => l.record.tenant = tenant && s.mayStart l

/-- Whether a launch may resume on its clusters: none of them is leaving, unless the controller has asked for it (R344). -/
def State.mayReturn (s : State) (l : Launch) : Bool := l.asked || l.clusters.all fun k => !(s.tenancy.moving.any fun m => m.1 = k)

/-- Whether a launch's clusters are there for it: its own for a saved one, else as many as it wants (R317, R339, R344). -/
def State.placeableLaunch (s : State) (l : Launch) : Bool :=
  if l.stage = .saved then s.mayReturn l && l.clusters.all fun k => !s.heldClusters.contains k
  else l.record.nclus ≤ (s.freeClusters l.record.tenant).length

/-- Whether launch `l` is the next of its tenant to get clusters, and gets them now (R323). -/
def State.nextStart (s : State) (l : Launch) : Bool :=
  s.bar0.run && ((s.waiting l.record.tenant).head?.any fun a => a.num = l.num) && s.placeableLaunch l

/-- A core loaded for a launch, with its rank: every other control register, CR.SVEC among them, takes its power-on value (R318, R319); the
activity counters, which only a scrub resets, stay (R122), and a core that has halted stays halted (R117). -/
def loadCore (r : LaunchRec) (rank : Nat) (old : Core) : Core :=
  { Core.reset old.id with
    slots := old.slots.map fun l => { Slot.reset with gen := l.gen, prio := r.prio, tvec := r.tvec, spnlim := r.spnlim }
    tenant := r.tenant
    launch := r.id
    hbase := r.hbase
    hlim := r.hlim
    aqDepth := BitVec.ofNat 16 r.aqd
    aqBase := BitVec.ofNat 20 (r.isize + r.zsize)
    spillptr := r.spill + BitVec.ofNat 64 (rank * (64 + 64 * r.spcap.toNat))
    seed := r.seed
    ibBase := BitVec.ofNat 20 (r.isize + r.zsize + 64 * r.aqd)
    ibCap := BitVec.ofNat 8 r.ibc
    shp := r.shp
    ptroot := r.ptroot
    saveptr := r.save + BitVec.ofNat 64 (0x70000 * rank)
    slice := r.slice
    waitbud := r.waitbud
    wb := old.wb
    halted := old.halted
    droop := old.droop
    issued := old.issued
    cycles := old.cycles
    idle := old.idle }

/-- A core of a placement loaded: its image and zeroed bytes, its registers, its vault unit's tables, its spill header (R319); `base` is
what happens before the launch's start (R261). -/
def State.startCore (s : State) (r : LaunchRec) (image : List Byte) (base : Clock) (c : CoreId) (rank : Nat) : State :=
  let s := ((s.wrPieces [(localKey c 0, image)]).zeroRange (localKey c r.isize) (r.layoutEnd - r.isize)).initial (localKey c 0) r.isize
  let s := (s.onCore c fun k => { loadCore r rank k with base := base }).onUnit (vaultOf c) fun v => { v with codes := Vector.replicate 8 0 }
  match s.unitPlace c (s.getCore c).spillptr 24 .rw with
  | .ok (_, u) => if u.leaf.isSome then s.wrPieces [(u.key, natBytes 8 r.spcap.toNat ++ List.replicate 16 0)] else s
  | .error _ => s

/-- A launch started on the lowest-numbered clusters of its tenant's partition (R317-R319). -/
def State.startLaunch (s : State) (l : Launch) : State :=
  let ks := (s.freeClusters l.record.tenant).take l.record.nclus
  let image := s.launchRead l.record.tenant l.record.ptroot l.record.image l.record.isize .x
  let (s, now) := s.readTime (.io 0)
  let cs := ks.flatMap clusterCores
  let base := (s.launcher.launches.filter l.follows).foldl (fun c a => c.join a.pub) l.base
  let since := s.writes
  let s := ((List.range cs.length).zip cs).foldl (fun s p => s.startCore l.record image base p.2 p.1) s
  let s := s.onLaunch l.num fun l => { l with stage := .running, clusters := ks, startTime := some now, base := base, since := since }
  match l.node with
  | none => s
  | some m => s.onReplay m.replay fun r => { r with startTime := some (r.startTime.getD now) }

/-- `LAUNCH_START` of launch `n` (R319, R323). -/
def execLaunchStart (n : Nat) (s : State) : Res :=
  .next <|
    match s.launch? n with
    | none => s
    | some l => if l.stage = .accepted && l.node.isNone && s.nextStart l then s.startLaunch l else s

/-- `REPLAY_NODE_DISPATCH` of node launch `n`: it starts once its predecessors have completed or triggered (R327). -/
def execReplayNodeDispatch (n : Nat) (s : State) : Res :=
  .next <|
    match s.launch? n with
    | none => s
    | some l => if l.stage = .accepted && l.node.isSome && s.nextStart l then s.startLaunch l else s

/-- An initial message sent to a core (R320). -/
def State.sendInitial (s : State) (id : Word32) (hdr : Nat) (args : Vector Word 8) (c : CoreId) (i : Nat) : State :=
  s.sendTask (.core c)
    { launch := id, origin := c, slot := 0, gen := 0, counted := false,
      task := { handler := BitVec.ofNat 20 hdr, flags := flagREL ||| (if bits hdr 24 1 = 1 then flagU else 0), sender := c, cgen := 0,
                args := args } } (some i)

/-- The messages of entry `i` of the table, or its report (R320). -/
def State.initialEntry (s : State) (l : Launch) (i : Nat) : State :=
  let r := l.record
  let bs := s.launchRead r.tenant r.ptroot (r.init + BitVec.ofNat 64 (128 * i)) 128
  let rank := fieldOf bs 0 8
  let hdr := fieldOf bs 64 8
  let narg := bits hdr 20 4
  let words := argWords (bs.drop 64)
  let args : Vector Word 8 := Vector.ofFn fun j => if j.val < narg then words[j] else 0
  if (rank ≠ 0xFFFFF && l.cores.length ≤ rank) || !zeroAt bs 8 56 || 2 ^ 25 ≤ hdr || 8 < narg then
    s.reportAt (.io 0) 6 0 r.id (BitVec.ofNat 64 (hdr % 2 ^ 20)) (BitVec.ofNat 64 i)
  else if rank = 0xFFFFF then l.cores.foldl (fun s c => s.sendInitial r.id hdr args c i) s
  else s.sendInitial r.id hdr args (l.cores.getD rank 0) i

/-- `INITIAL_MESSAGES` of launch `n`, in table order (R320). -/
def execInitialMessages (n : Nat) (s : State) : Res :=
  .next <|
    match s.launch? n with
    | none => s
    | some l =>
      if l.stage ≠ .running || l.initialSent then s
      else
        let s := s.onLaunch n fun l => { l with initialSent := true }
        if l.record.ninit = 0 then
          l.cores.foldl (fun s c => s.sendInitial l.record.id l.record.entry.toNat (Vector.replicate 8 0) c 0) s
        else (List.range l.record.ninit).foldl (fun s i => s.initialEntry l i) s

/-! ### Trigger and completion -/

/-- Whether no task message of a launch is queued, spilled, forked, held by a cox or in flight (R324). -/
def State.noTaskMessages (s : State) (l : Launch) : Bool :=
  let id := l.record.id
  (s.tmsgs.all fun m => m.held.launch ≠ id) && (s.cox.all fun d => d.2.all fun h => h.launch ≠ id) &&
    l.cores.all fun c => !(s.getCore c).backlog && (s.getCore c).forks.isEmpty

/-- Whether a launch is triggered now (R324). -/
def State.triggersNow (s : State) (l : Launch) : Bool :=
  l.stage = .running && l.initialSent && !l.triggered && s.noTaskMessages l &&
    l.cores.all fun c => (s.getCore c).slots.toList.all fun t => t.st = .free || t.triggered

/-- `LAUNCH_TRIGGERED` (R324). -/
def execLaunchTriggered (n : Nat) (s : State) : Res :=
  .next <|
    match s.launch? n with
    | none => s
    | some l =>
      if s.triggersNow l then
        let s := s.onLaunch n fun l => { l with triggered := true }
        match l.node with
        | none => s
        | some m => s.onReplay m.replay fun r => { r with triggered := m.node :: r.triggered }
      else s

/-- Whether the engines and units of a core hold no command (R325). -/
def Core.unitsIdle (c : Core) : Bool :=
  c.mat.queue.isEmpty && c.mat.run.isNone && c.copy.queue.isEmpty && c.copy.run.isNone && c.copy.flights.isEmpty &&
    c.copy.landing.isEmpty && c.vch.isEmpty && c.gemvs.isEmpty &&
    c.tree.isEmpty

/-- Whether a launch has completed: no message of it is in flight, reports, acknowledgements and wire-barrier traffic included, and every write of
it has been applied, those made after a trigger included (R255, R261, R325, R364). -/
def State.completesNow (s : State) (l : Launch) : Bool :=
  l.stage = .running && l.initialSent && s.noTaskMessages l && (s.bmsgs.all fun m => m.launch ≠ l.record.id) &&
    (s.replies.all fun r => r.launch ≠ l.record.id) && (s.reqs.all fun r => !l.cores.contains r.core) &&
    (s.sacks.all fun a => !l.cores.contains a.core) && (s.bads.all fun b => !l.cores.contains b.core) &&
    (s.backs.all fun a => !l.cores.contains a.core) && (s.wbmsgs.all fun m => m.launch ≠ l.record.id) &&
    (s.wbacks.all fun a => !l.cores.contains a.core) && (s.wbdones.all fun d => d.launch ≠ l.record.id) &&
    l.cores.all fun c => (s.getCore c).unitsIdle && (s.getCore c).slots.toList.all fun t => t.st = .free

/-- `LAUNCH_COMPLETION`: STATUS 0, and the clusters released; a node of a replay is reported by its replay (R325, R327). -/
def execLaunchCompletion (n : Nat) (s : State) : Res :=
  .next <|
    match s.launch? n with
    | none => s
    | some l =>
      if s.completesNow l then
        (if l.node.isSome then s else s.completion l.queue l.record.id 0 0 0 l.startTime).releaseLaunch l
      else s

end Sys2Proof.Machine
end

