-- ==== Sys2Proof/Machine/Xf8.lean ====
section
/-! DEFINITION. XF8 frames and their code-length tables (R58-R62), and the accesses of engines, by element or by frame (R168, R172,
R301, R308). -/

namespace Sys2Proof.Machine

open Sys2Proof

/-! ### Frames -/

/-- The code length of an exponent in a table (R60). -/
def codeLen (table : Word) (e : Nat) : Nat := bits table.toNat (4 * e) 4

/-- Whether a table is valid (R60). -/
def tableValid (table : Word) : Bool :=
  let ls := ((List.range 16).map (codeLen table)).filter (· ≠ 0)
  ls = [1] || (ls.all (· ≤ 8) && (ls.map fun l => 2 ^ (8 - l)).sum = 256)

/-- The number of exponents whose code has length `l`; none for length 0 (R60). -/
def lenCount (table : Word) (l : Nat) : Nat :=
  if l = 0 then 0 else ((List.range 16).filter fun e => codeLen table e = l).length

/-- The first code of length `l`, assigned canonically (R60). -/
def firstCode (table : Word) : Nat → Nat
  | 0 => 0
  | l + 1 => (firstCode table l + lenCount table l) * 2

/-- The exponents with codes: length, code, exponent (R60). -/
def codesOf (table : Word) : List (Nat × Nat × Nat) :=
  ((List.range 16).filter fun e => codeLen table e ≠ 0).map fun e =>
    let l := codeLen table e
    (l, firstCode table l + ((List.range e).filter fun e' => codeLen table e' = l).length, e)

/-- The bits of bytes, from bit 7 down in each (R59). -/
def bitsOf (bs : List Byte) : List Bool := bs.flatMap fun b => (List.range 8).map fun i => b.getLsbD (7 - i)

/-- `n` codes decoded from bits, with the `len` bits of value `code` already read; what follows the last one is a zero fill of at
most seven bits (R61). -/
def decodeCodes (codes : List (Nat × Nat × Nat)) : List Bool → Nat → Nat → Nat → Option (List Nat)
  | [], _, _, 0 => some []
  | [], _, _, _ + 1 => none
  | b :: bs, len, code, n =>
    if n = 0 then (if (b :: bs).length < 8 && (b :: bs).all (!·) then some [] else none)
    else
      let code' := 2 * code + (if b then 1 else 0)
      match codes.find? fun c => c.1 = len + 1 && c.2.1 = code' with
      | some c => (decodeCodes codes bs 0 0 (n - 1)).map (c.2.2 :: ·)
      | none => if 8 ≤ len + 1 then none else decodeCodes codes bs (len + 1) code' n

/-- The length of a frame from its first bytes, as stated (R59). -/
def frameLen (bs : List Byte) : Nat := if fieldOf bs 0 1 = 0x7F then fieldOf bs 1 2 else 1024

/-- Whether an element byte is one that XF8 does not hold (R61). -/
def xf8Bad (b : Nat) : Bool := b % 128 = 127

/-- The exponents of the sixteen blocks of a coded frame, whose codes start at byte `off` (R59). -/
def frameExps (codes : List (Nat × Nat × Nat)) (bs : List Byte) : List Nat → Nat → Option (List Nat)
  | [], _ => some []
  | bl :: bls, off => do
    let es ← decodeCodes codes (bitsOf ((bs.drop off).take bl)) 0 0 64
    let rest ← frameExps codes bs bls (off + bl)
    some (es ++ rest)

/-- The 1,024 E4M3 elements of a frame slot, or nothing where the frame fails a check of R61. -/
def decodeFrame (table : Word) (bs : List Byte) : Option (List Nat) :=
  if fieldOf bs 0 1 ≠ 0x7F then
    let es := bs.map (·.toNat)
    if es.any xf8Bad then none else some es
  else
    let bls := (List.range 16).map fun k => fieldOf bs (4 + k) 1
    if fieldOf bs 3 1 ≠ 0 || bls.any (fun b => b < 8 || 64 < b) || fieldOf bs 1 2 ≠ 532 + bls.sum || 1024 < fieldOf bs 1 2 ||
        !tableValid table then none
    else do
      let exps ← frameExps (codesOf table) bs bls 532
      let es := (List.range 1024).map fun p =>
        let nib := bits (fieldOf bs (20 + p / 2) 1) (4 * (p % 2)) 4
        nib / 8 * 128 + exps.getD p 0 * 8 + nib % 8
      if es.any xf8Bad then none else some es

/-! ### Accesses -/

/-- Why a unit's access is not made: the home is a core that has saved itself, and the access is made on its image (R336); an access
of the same context on its way to these bytes comes first (R245); or a fault, with the address whose translation it follows, if one was
made. -/
inductive UnitStop where
  | stall (c : CoreId)
  | busy
  | fault (scause : BitVec 16) (val : Word) (at_ : Option Word)
  deriving DecidableEq, Repr

/-- The outcome of a unit's try in which an access to a saved core waits for its image, where SAVE_IMAGE_ARRIVAL makes it (R336). -/
def tried (s : State) : Except CoreId State → State
  | .ok t => t
  | .error _ => s

/-- The outcome of a unit's access. -/
abbrev Acc (α : Type) := Except UnitStop α

/-- A fault of a kind. -/
def accFault {α : Type} (k : FKind) (val : Word) : Acc α := .error (.fault k.scause val none)

/-- A fault of the page that an address has come to, or of what lies there. -/
def pageFault {α : Type} (sc : BitVec 16) (val ea : Word) : Acc α := .error (.fault sc val (some ea))

/-- CR.SVAL of a failed translation: the address, or the virtual address where the walker met poison (R297, R308). -/
def walkVal (sc : BitVec 16) (ea : Word) : Word := if sc = cPOISON then BitVec.ofNat 64 (bits ea.toNat 0 47) else ea

/-- The place of a unit's access to `n` bytes: the address form, the window that the unit asks for, ALIGN, then translation and
its permissions (R168, R172, R297) (DESIGN CHOICE, log 7). -/
def State.accessAt (s : State) (c : CoreId) (ea : Word) (n align win : Nat) (p : Perm) : Acc (State × UnitPlace) :=
  match s.target c ea n with
  | .error k => accFault k ea
  | .ok (.loc cc w off) =>
    if w ≠ win then accFault .window ea
    else if off % align ≠ 0 then accFault .align ea
    else if (s.getCore cc).saved then .error (.stall cc)
    else .ok (s, { key := localKey cc off, win := w, leaf := none })
  | .ok (.virt va) =>
    if va % align ≠ 0 then accFault .align ea
    else match s.unitPlace c ea n p with
      | .error sc => pageFault sc (walkVal sc ea) ea
      | .ok r => .ok r

/-- Whether a place lies in a peer module that has changed its incarnation or refuses the access (R379). -/
def State.peerGone (s : State) (k : Nat) : Bool := (peerOf k).isSome && Config.peerFails s.tick

/-- The bank accesses of an engine's access at another core's local memory (R289, R393). -/
def State.bankedAt (s : State) (c : CoreId) (k : Nat) : State :=
  (homeCore k).elim s fun h => if h = c then s else s.banked h

/-- The checked place of an engine's access: a peer that fails it gives ABSENT (R379). -/
def State.accessPlace (s : State) (c : CoreId) (ea : Word) (n align win : Nat) (p : Perm) : Acc (State × UnitPlace) := do
  let r ← s.accessAt c ea n align win p
  if r.1.peerGone r.2.key then pageFault FKind.absent.scause ea ea else .ok (r.1.bankedAt c r.2.key, r.2)

/-- The place of an engine's access; a read of a peer goes in a frame (R377). -/
def State.access (s : State) (c : CoreId) (ea : Word) (n align win : Nat) (p : Perm) : Acc (State × UnitPlace) := do
  let r ← s.accessPlace c ea n align win p
  .ok (if p = .r then r.1.framesRead c [(r.2.key, n)] else r.1, r.2)

/-- The bytes of a checked place; poison reports the address of its granule (R308). -/
def State.accessRead (s : State) (ea : Word) (key n : Nat) : Acc (List Byte) :=
  match s.unitRead key n with
  | .ok bs => .ok bs
  | .error g => pageFault cPOISON (ea + BitVec.ofInt 64 ((g : Int) - key)) ea

/-- The home's key of a count barrier that a command's block names (R137, R179, R182). -/
def State.barrierAt (s : State) (c : CoreId) (a : Word) : Acc Nat :=
  match s.target c a 16 with
  | .error k => accFault k a
  | .ok (.virt _) => accFault .place a
  | .ok (.loc cc w off) =>
    if w ≠ 0 then accFault .window a else if off % 16 ≠ 0 then accFault .align a else .ok (localKey cc off)

/-- LAYOUT where a translated place is not in linear pages of a format (R172, R301). -/
def layoutOk (u : UnitPlace) (fmt : Nat) (ea : Word) : Acc Unit :=
  match u.leaf with
  | none => .ok ()
  | some l => if l.getLsbD 9 || bits l.toNat 6 3 ≠ fmt then pageFault FKind.layout.scause ea ea else .ok ()

/-- Bytes `off` to `off + n - 1` of the own local memory of a core, read for a command (R168). -/
def State.ownBytes (s : State) (c : CoreId) (off n : Nat) : Acc (List Byte) :=
  s.accessRead (BitVec.ofNat 64 off) (localKey c off) n

/-- How many 32-byte beats of a frame are read: those of its stated length (R58). -/
def frameBeats (head : List Byte) : Nat := (min (frameLen head) 1024 + 31) / 32

/-- The frame that a slot address names, decoded with a table: only the stated length is read, in beats of 32 bytes (R58, R61). Poison
in the part of the last beat beyond the length is met (DESIGN CHOICE, log 53). -/
def State.readFrame (s : State) (ea : Word) (key : Nat) (table : Word) : Acc (List Nat) := do
  let head ← s.accessRead ea key 32
  let _ ← s.accessRead ea key (32 * frameBeats head)
  match decodeFrame table (memReads s.mem key 1024) with
  | some es => .ok es
  | none => pageFault FKind.frame.scause ea ea

/-- The frame slot of element `n` of a tensor at a base (R58). -/
def frameAddr (base : Word) (n : Nat) : Word := base + BitVec.ofNat 64 (1024 * (n / 1024))

/-- Element `n` of the XF8 tensor at a base, read by a unit of core `c` through window 6 or an XF8 page: an E4M3 byte (R58, R172). -/
def State.xf8Elem (s : State) (c : CoreId) (base : Word) (n : Nat) (table : Word) : Acc (State × Nat) := do
  let ea := frameAddr base n
  let (s, u) ← s.accessPlace c ea 1024 1024 6 .r
  layoutOk u 5 ea
  let es ← s.readFrame ea u.key table
  .ok (s.framesRead c [(u.key, 32 * frameBeats (memReads s.mem u.key 32))], es.getD (n % 1024) 0)

end Sys2Proof.Machine
end

