-- ==== Sys2Proof/Machine/Matrix.lean ====
section
/-! DEFINITION. The matrix engine (R167-R176): its instructions, the start of a command, and a step of the one that runs. -/

namespace Sys2Proof.Machine

open Sys2Proof

/-! ### Instructions -/

/-- The number of a tile (R89). -/
def tileOf (hi : Bool) (lo : BitVec 5) : BitVec 6 := (if hi then (1 : BitVec 1) else 0) ++ lo

/-- A command of the acting slot. -/
def matCmd (s : State) (op : MatOp) (tile : BitVec 6) : MatCmd :=
  { own := s.owner, gate := s.owner, op := op, tile := tile, done := 0, resumed := false, block := none, codes := 0, taken := false,
    ev := Events.zero }

/-- A command put at the end of the matrix-engine queue, once it has room (R167). -/
def matQueue (s : State) (op : MatOp) (tile : BitVec 6) : Body State :=
  if 2 ≤ s.core.mat.queue.length then waitHere s 5
  else .ok (s.modCore fun c => { c with mat := { c.mat with queue := c.mat.queue ++ [matCmd s op tile] } })

/-- An `mma` of a format (R171). -/
def mma (o : MmaOp) (fmt : MmaFmt) (s : State) : Res :=
  finish s do
    issueRule s [(.x o.a, o.wa)] []
    let a := s.xv o.a + sx o.lit
    let _ ← blockOffset s a 64
    let t ← matQueue s (.mma fmt a) (tileOf o.tileHi o.tileLo)
    .ok (t.advance 8)

/-- `mma.bf16` (R171). -/
def execMmaBf16 (o : MmaOp) (s : State) : Res := mma o .bf16 s
/-- `mma.e4m3` (R171). -/
def execMmaE4m3 (o : MmaOp) (s : State) : Res := mma o .e4m3 s
/-- `mma.e5m2` (R171). -/
def execMmaE5m2 (o : MmaOp) (s : State) : Res := mma o .e5m2 s
/-- `mma.xf8` (R171). -/
def execMmaXf8 (o : MmaOp) (s : State) : Res := mma o .xf8 s

/-- The row stride of `accld` and `accst`: B, or 32 when b is x0 (R175). -/
def accStride (s : State) (b : XReg) : Word := if b = 0 then 32 else s.xv b

/-- `accld` (R175). -/
def execAccld (o : AccOp) (s : State) : Res :=
  finish s do
    issueRule s [(.x o.a, o.wa), (.x o.b, o.wb)] []
    let t ← matQueue s (.accld (s.xv o.a) (accStride s o.b)) (tileOf o.tileHi o.tileLo)
    .ok (t.advance 4)

/-- `accst` (R175). -/
def execAccst (o : AccOp) (s : State) : Res :=
  finish s do
    issueRule s [(.x o.a, o.wa), (.x o.b, o.wb)] []
    let t ← matQueue s (.accst (s.xv o.a) (accStride s o.b)) (tileOf o.tileHi o.tileLo)
    .ok (t.advance 4)

/-- `acczero` (R175). -/
def execAcczero (o : AccZOp) (s : State) : Res :=
  finish s do
    let t ← matQueue s .acczero (tileOf o.tileHi o.tileLo)
    .ok (t.advance 4)

/-- V of CR.MMPROG cleared (R174). -/
def clearV (w : Word) : Word := w &&& 0x7FFF_FFFF_FFFF_FFFF

/-- A parked command placed at the head of the queue, to go on from its progress (R174). -/
def State.matResume (s : State) (m : MatCmd) (op : MatOp) : State :=
  s.modCore fun c =>
    { c with
      mmprog := clearV c.mmprog
      mat := { c.mat with parked := none, queue := { m with op := op, gate := s.owner, resumed := true, taken := false } :: c.mat.queue } }

/-- `mmresume`: ILLEGAL unless a command is parked for the tile; an `mma` reads its block afresh from A, and an `accld` or `accst`
ignores A (R174, R175) (DEDUCED, log 31). -/
def execMmresume (o : MmresOp) (s : State) : Res :=
  finish s do
    issueRule s [(.x o.a, o.wa)] []
    match s.core.mat.parked with
    | none => trapIllegal s
    | some m =>
      if !s.core.mmprog.getLsbD 63 || m.tile ≠ tileOf o.tileHi o.tileLo then trapIllegal s
      else match m.op with
        | .mma fmt _ => do
          let _ ← blockOffset s (s.xv o.a) 64
          .ok ((s.matResume m (.mma fmt (s.xv o.a))).advance 4)
        | op => .ok ((s.matResume m op).advance 4)

/-- Whether the slot owns a matrix command, a parked one included (R176). -/
def Core.ownsMatrix (c : Core) (k : SlotNo) : Bool :=
  let g := (c.getSlot k).gen
  c.mat.queue.any (·.own.isOf k g) || c.mat.run.any (·.own.isOf k g) || c.mat.parked.any (·.own.isOf k g)

/-- `mmwait` (R176). -/
def execMmwait (_o : MmwaitOp) (s : State) : Res :=
  finish s do
    if s.core.ownsMatrix s.cur.slot then waitHere s 8 else .ok ((s.joinsUnit .matrix).advance 4)

/-! ### The engine -/

/-- The tile of a command. -/
def Core.tile (c : Core) (n : BitVec 6) : Vector Word32 64 := c.acc[n.toNat]

/-- The core with a tile written. -/
def Core.setTile (c : Core) (n : BitVec 6) (t : Vector Word32 64) : Core := { c with acc := c.acc.set n.toNat t }

/-- The command that ran is done with: its events count (R56, R108). -/
def State.matEnd (s : State) (c : CoreId) (m : MatCmd) : State :=
  s.onCore c fun k => { k with mat := { k.mat with run := none } }.countEvents m.ev

/-- The own-local offset of a command's block; zero for the tile moves (R174). -/
def MatOp.pblk : MatOp → Nat
  | .mma _ a => a.toNat % 2 ^ 20
  | _ => 0

/-- A command that faults parks, and CR.MMPROG records it (R170, R174). -/
def State.matPark (s : State) (c : CoreId) (m : MatCmd) (scause : BitVec 16) (val : Word) (at_ : Option Word) : State :=
  let prog := 2 ^ 63 + m.tile.toNat * 2 ^ 48 + m.op.pblk * 2 ^ 20 + m.done
  (((s.matEnd c m).onCore c fun k =>
    { k with mmprog := BitVec.ofNat 64 prog, mat := { k.mat with parked := some { m with ev := Events.zero } } }).faulted
    c scause val at_).unitFault c m.own scause val (some .matrix)

/-- The outcome of an access of a command: a fault parks it, and an access to a saved core goes to that core's image (R336). -/
def State.matAccess (s : State) (c : CoreId) (m : MatCmd) : Acc State → Except CoreId State
  | .ok t => .ok t
  | .error (.stall d) => .error d
  | .error .busy => .ok s
  | .error (.fault sc v a) => .ok (s.matPark c m sc v a)

/-- The block of an `mma` (R171), or nothing where a field breaks a BLOCK check of R172; with CLR. -/
def mmaBlock (fmt : MmaFmt) (bs : List Byte) : Option (MmaBlock × Bool) :=
  let ctl := fieldOf bs 0x18 8
  let k := bits ctl 0 11
  let aoff := fieldOf bs 0x20 4
  let boff := fieldOf bs 0x24 4
  if k = 0 || 1024 < k || (fmt ≠ .bf16 && k % 2 = 1) || bits ctl 11 5 ≠ 0 || bits ctl 20 44 ≠ 0 || fieldOf bs 0x28 24 ≠ 0 ||
      (fmt ≠ .xf8 && (aoff ≠ 0 || boff ≠ 0)) then none
  else
    some ({ aaddr := BitVec.ofNat 64 (fieldOf bs 0 8), baddr := BitVec.ofNat 64 (fieldOf bs 8 8), astr := fieldOf bs 0x10 4,
            bstr := fieldOf bs 0x14 4, k := k, tbl := BitVec.ofNat 3 (bits ctl 16 3), aoff := aoff, boff := boff },
          bits ctl 19 1 = 1)

/-- The start of an `mma`: its block is read whole, BLOCK abandons it, and CLR clears the tile unless it resumes (R168, R172,
R173) (DEDUCED, log 32). -/
def State.mmaStart (s : State) (c : CoreId) (m : MatCmd) (fmt : MmaFmt) (blk : Word) : State :=
  match s.ownBytes c (blk.toNat % 2 ^ 20) 64 with
  | .error e => tried s (s.matAccess c m (.error e))
  | .ok bs =>
    match mmaBlock fmt bs with
    | none => (s.matEnd c m).unitFault c m.own FKind.block.scause blk none
    | some (b, clr) =>
      s.onCore c fun k =>
        let k := if clr && !m.resumed then k.setTile m.tile (Vector.replicate 64 0) else k
        { k with mat := { k.mat with run := some { m with block := some b, codes := k.codes[b.tbl.toNat] } } }

/-- Whether the matrix engine of a core starts its next command now (R167, R168, R170, R174). -/
def State.matReady (s : State) (c : CoreId) : Option MatCmd :=
  let k := s.getCore c
  if k.saving || k.saved || k.mat.run.isSome || k.mat.parked.isSome then none
  else k.mat.queue.head?.filter fun m => s.ownerReleased c m.gate

/-- `MATRIX_COMMAND_START`: the engine of a core takes the command at the head of its queue (R167, R168). -/
def execMatrixCommandStart (c : CoreId) (s : State) : Res :=
  .next <|
    match s.matReady c with
    | none => s
    | some m =>
      let t := s.onCore c fun k => { k with mat := { k.mat with queue := k.mat.queue.drop 1, run := some m } }
      match m.op with
      | .mma fmt blk => (t.banked c).mmaStart c m fmt blk
      | _ => t

/-- The width of an operand element, the window and the page format that hold it, and its number format (R172, R296). -/
def MmaFmt.elem : MmaFmt → Nat × Nat × Nat × Fmt
  | .bf16 => (2, 3, 3, fmtBf16)
  | .e4m3 => (1, 1, 1, fmtE4m3)
  | .e5m2 => (1, 2, 2, fmtE5m2)
  | .xf8 => (1, 6, 5, fmtE4m3)

/-- An operand element at an address (R172). -/
def State.mmaElem (s : State) (c : CoreId) (fmt : MmaFmt) (ea : Word) : Acc (State × FVal) := do
  let (w, win, page, f) := fmt.elem
  let (s, u) ← s.access c ea w w win .r
  layoutOk u page ea
  let bs ← s.accessRead ea u.key w
  .ok (s, f.decode (leNat bs))

/-- A[i][k] (R172). -/
def State.mmaA (s : State) (c : CoreId) (fmt : MmaFmt) (b : MmaBlock) (codes : Word) (i k : Nat) : Acc (State × FVal) :=
  match fmt with
  | .xf8 => do
    let (s, e) ← s.xf8Elem c b.aaddr (b.aoff + i * b.astr + k) codes
    .ok (s, fmtE4m3.decode e)
  | _ => s.mmaElem c fmt (b.aaddr + BitVec.ofNat 64 (i * b.astr + k * fmt.elem.1))

/-- B[k][j] (R172). -/
def State.mmaB (s : State) (c : CoreId) (fmt : MmaFmt) (b : MmaBlock) (codes : Word) (k j : Nat) : Acc (State × FVal) :=
  match fmt with
  | .xf8 => do
    let (s, e) ← s.xf8Elem c b.baddr (b.boff + k * b.bstr + j) codes
    .ok (s, fmtE4m3.decode e)
  | _ => s.mmaElem c fmt (b.baddr + BitVec.ofNat 64 (k * b.bstr + j * fmt.elem.1))

/-- The elements of a list of places, read in order. -/
def readAll (f : State → Nat → Nat → Acc (State × FVal)) : State → List (Nat × Nat) → Acc (State × List FVal)
  | s, [] => .ok (s, [])
  | s, (i, j) :: l => do
    let (s, v) ← f s i j
    let (s, vs) ← readAll f s l
    .ok (s, v :: vs)

/-- ALIGN of an operand's base and pitch, after the address form and the window of the base (R35, R172). -/
def State.mmaAligned (s : State) (c : CoreId) (fmt : MmaFmt) (a : Word) (str : Nat) : Acc Unit :=
  let (w, win, _, _) := fmt.elem
  if (if fmt = .xf8 then a.toNat % 1024 = 0 else a.toNat % w = 0 && str % w = 0) then .ok ()
  else match s.target c a with
    | .error k => accFault k a
    | .ok (.loc _ v _) => if v ≠ win then accFault .window a else accFault .align a
    | .ok (.virt _) => accFault .align a

/-- One k step of an `mma`: K1 products join each of the 64 elements with one rounding (R53, R173). -/
def State.mmaStep (s : State) (c : CoreId) (m : MatCmd) (fmt : MmaFmt) (b : MmaBlock) : Acc State := do
  let k1 := if fmt = .bf16 then 1 else 2
  let ks := (List.range k1).map fun x => m.done + x
  s.mmaAligned c fmt b.aaddr b.astr
  let (s, av) ← readAll (fun s i k => s.mmaA c fmt b m.codes i k) s ((List.range 8).flatMap fun i => ks.map fun k => (i, k))
  s.mmaAligned c fmt b.baddr b.bstr
  let (s, bv) ← readAll (fun s k j => s.mmaB c fmt b m.codes k j) s (ks.flatMap fun k => (List.range 8).map fun j => (k, j))
  let t := (s.getCore c).tile m.tile
  let rs := (List.range 64).map fun n =>
    let (i, j) := (n / 8, n % 8)
    fp32.dot ((List.range k1).map fun x => (av.getD (i * k1 + x) .nan, bv.getD (x * 8 + j) .nan)) [fp32.decode (t.getD n 0).toNat]
  let s := s.onCore c fun k => k.setTile m.tile (Vector.ofFn fun n => BitVec.ofNat 32 ((rs.map (·.bits)).getD n.val 0))
  let m := { m with done := m.done + k1, ev := m.ev.plus (Events.sum (rs.map (·.ev))) }
  .ok (if b.k ≤ m.done then s.matEnd c m else s.onCore c fun k => { k with mat := { k.mat with run := some m } })

/-- The places of the eight elements of a row of a tile move (R175). -/
def rowPlaces (c : CoreId) (p : Perm) : State → List Word → Acc (State × List (Word × Nat))
  | s, [] => .ok (s, [])
  | s, ea :: l => do
    let (s, u) ← s.access c ea 4 4 0 p
    let (s, us) ← rowPlaces c p s l
    .ok (s, (ea, u.key) :: us)

/-- The values at a list of places. -/
def readWords (s : State) : List (Word × Nat) → Acc (List Word32)
  | [] => .ok []
  | (ea, k) :: l => do
    let bs ← s.accessRead ea k 4
    let ws ← readWords s l
    .ok (BitVec.ofNat 32 (leNat bs) :: ws)

/-- The addresses of row `i` of a tile move (R175). -/
def rowAddrs (addr stride : Word) (i : Nat) : List Word :=
  (List.range 8).map fun j => addr + BitVec.ofNat 64 i * stride + BitVec.ofNat 64 (4 * j)

/-- One row moved by `accld` or `accst`; nothing of a row that faults (R175). Stored elements replace granules in pairs (R307), and the
lines that the core holds follow them, so that loads after `mmwait` return them (R176). -/
def State.rowStep (s : State) (c : CoreId) (m : MatCmd) (store : Bool) (addr stride : Word) : Acc State := do
  let (s, ps) ← rowPlaces c (if store then .w else .r) s (rowAddrs addr stride m.done)
  let t := (s.getCore c).tile m.tile
  let s ← (if store then
      let bs := joinPieces ((List.range 8).map fun j => ((ps.getD j (0, 0)).2, natBytes 4 (t.getD (8 * m.done + j) 0).toNat))
      .ok ((s.unitMade ((s.framesWrite c bs).wrPieces bs) .matrix { m.own with clk := m.own.clk.join m.gate.clk } c 0).onCore c
        (·.rlbStore bs))
    else do
      let ws ← readWords s ps
      .ok (s.onCore c fun k =>
        k.setTile m.tile ((List.range 8).foldl (fun t j => t.setIfInBounds (8 * m.done + j) (ws.getD j 0)) t)))
  let m := { m with done := m.done + 1 }
  .ok (if 8 ≤ m.done then s.matEnd c m else s.onCore c fun k => { k with mat := { k.mat with run := some m } })

/-- One step of the running command. -/
def State.matStep (s : State) (c : CoreId) (m : MatCmd) : Acc State :=
  match m.op, m.block with
  | .mma fmt _, some b => if b.k ≤ m.done then .ok (s.matEnd c m) else s.mmaStep c m fmt b
  | .mma _ _, none => .ok (s.matEnd c m)
  | .accld a st, _ => s.rowStep c m false a st
  | .accst a st, _ => s.rowStep c m true a st
  | .acczero, _ => .ok ((s.onCore c fun k => k.setTile m.tile (Vector.replicate 64 0)).matEnd c m)

/-- A step of the command that the engine of a core runs, if it runs one: a fault parks the command; the core is reported where an access
goes to the image of a saved one (R173-R175, R336). -/
def State.matTry (s : State) (c : CoreId) : Except CoreId State :=
  let k := s.getCore c
  match k.mat.run with
  | none => .ok s
  | some m => if k.saving || k.saved then .ok s else (s.banked c).matAccess c m ((s.banked c).matStep c m)

/-- `MATRIX_STEP`: one step of the command that the engine of a core runs (R173-R175). -/
def execMatrixStep (c : CoreId) (s : State) : Res := .next (tried s (s.matTry c))

end Sys2Proof.Machine
end

