-- ==== Sys2Proof/Machine/Streams.lean ====
section
/-! DEFINITION. The stream registers: scfg, sstop and sflush, and the prefetch of input streams (R25, R193-R195). How an
instruction pops and pushes stands in Operands.lean. -/

namespace Sys2Proof.Machine

open Sys2Proof

/-- The stream a register number names. -/
def streamIx (n : BitVec 2) : Fin 4 := n.toFin

/-- A stream whose prefetched elements are discarded: what is fetched from now on is read after what `clk` holds (R195, R259). -/
def StreamCfg.flush (c : StreamCfg) (clk : Clock) : StreamCfg := { c with pre := [], met := [], clk := clk }

/-- A stream of a slot ended: its SM bit clears, SD stays, and its prefetched elements are discarded (R195). -/
def Slot.stopStream (l : Slot) (i : Fin 4) : Slot :=
  { l with sm := setBit l.sm i.val false, streams := l.streams.set i.val StreamCfg.off }

/-- The wait of `sstop` and `sflush` for the pushed elements of an output stream (R195). -/
def streamWait (s : State) (i : Fin 4) : Body Unit :=
  if s.slot.sm.getLsbD i.val && s.slot.sd.getLsbD i.val && 0 < s.pushesOut s.cur i then waitHere s 6 else .ok ()

/-- Whether a stream's base lies in an XF8 page as far as the walk finds it (R193, R301). -/
def State.xf8Page (s : State) (base : Word) : Bool :=
  match s.unitPlace s.cur.core base 1 .w with
  | .ok (_, { key := _, win := _, leaf := some l }) => (pageForm l).xf8
  | _ => false

/-- A descriptor: its stream, and whether it is an output; of its base only the form is checked (R193). BLOCK reports the descriptor's address (R170). -/
def readStream (s : State) (a : Word) : Body (StreamCfg × Bool) := do
  let off ← ownOffset s a 32 32
  let bs ← readOwn s off 32
  let base := BitVec.ofNat 64 (fieldOf bs 0 8)
  let cnt := fieldOf bs 8 8
  let ctl := fieldOf bs 0x18 8
  let out := bits ctl 0 1 = 1
  let cfg : StreamCfg :=
    { base := base, c0 := bits cnt 0 16, c1 := bits cnt 16 16, c2 := bits cnt 32 16, s1 := intOf bs 0x10, s2 := intOf bs 0x14,
      tbl := BitVec.ofNat 3 (bits ctl 1 3), pos := 0, pre := [] }
  if bits cnt 48 16 ≠ 0 || bits ctl 4 60 ≠ 0 || cfg.total = 0 then trapFault .block a
  else
    match addrForm s.cur.core base with
    | .error k => trapFault k base
    | .ok (.loc _ win _) => if out && win = 6 then trapFault .block a else .ok (cfg, out)
    | .ok (.virt _) => if out && s.xf8Page base then trapFault .block a else .ok (cfg, out)

/-- `scfg s, a` (R193). -/
def execScfg (o : ScfgOp) (s : State) : Res :=
  finish s do
    issueRule s [(.x o.a, o.wa)] []
    let i := streamIx o.s
    let (cfg, out) ← readStream s (s.xv o.a)
    streamWait s i
    if (s.reqsOf s.cur).any Req.isStoreLike then waitHere s 6
    .ok ((s.modSlot fun l =>
      { l with sm := setBit l.sm i.val true, sd := setBit l.sd i.val out,
               streams := l.streams.set i.val (cfg.flush l.clk) }).advance 4)

/-- `sstop s` (R195). -/
def execSstop (o : StrmOp) (s : State) : Res :=
  finish s do
    let i := streamIx o.s
    streamWait s i
    .ok ((if s.slot.sm.getLsbD i.val then s.modSlot fun l => l.stopStream i else s).advance 4)

/-- `sflush s` (R195). -/
def execSflush (o : StrmOp) (s : State) : Res :=
  finish s do
    let i := streamIx o.s
    streamWait s i
    .ok ((if s.slot.sm.getLsbD i.val && !s.slot.sd.getLsbD i.val then
        s.modSlot fun l => { l with streams := l.streams.set i.val (l.streams[i].flush l.clk) } else s).advance 4)

/-! ### Prefetch -/

/-- Whether a read of bytes by context `o` comes after an access of that context which is on its way, one that it must follow, or a
store to own local memory (R244, R245), or after a store of another context of the core that plain reads wait for (log 7). -/
def State.readBusy (s : State) (o : SlotId) (ps : List Piece) : Bool :=
  s.mateStore o s.nextId ps || (s.reqsOf o).any fun q => ps.any fun p => q.delays p || (!q.applied && q.ownPiece p && piecesMeet q.writes [p])

/-- The writes that a prefetch leaves out besides what the line buffer does, by their number from the newest on, and what happens before
the reads (R251, R259). -/
structure Leave where
  skip : List Nat
  clk : Clock

/-- The bytes of a piece as a read that leaves writes out returns them, the context's own stores on their way put over them, and whether one
is poisoned; nothing where R251 or R253 forbids it. -/
def State.leftPiece (s : State) (o : SlotId) (v : Leave) (p : Piece) : Option (List Byte × Bool) :=
  let own := s.passing o (s.getSlot o).gen s.nextId
  let covered := fun k => own.any fun q => q.1 ≤ k && k < q.1 + q.2.length
  ((List.range p.len).mapM fun i =>
    if covered (p.key + i) then some (0, false) else s.staleByte (s.party o) v.clk v.skip (p.key + i)).map fun bs =>
      (overlay p.key (bs.map (·.1)) own, bs.any (·.2))

/-- What a prefetch has read: a value, whether it is poisoned, and the release sides that its reads have met. -/
structure Fetched (α : Type) where
  val : α
  bad : Bool
  met : List Side

/-- Pieces read as plain loads of context `o`, its own stores on their way seen, in frames from a peer (R194, R245, R247, R253, R259, R377): the
bytes of each; without the writes that `v` leaves out, where it is given. -/
def State.streamRead (s : State) (o : SlotId) (ps : List Piece) (v : Option Leave) : Acc (State × Fetched (List (List Byte))) :=
  if s.readBusy o ps then .error .busy
  else
    let s := if v.isSome then ps.foldl (fun s p => s.dropLines o.core p.key p.len) s else s
    let out := s.leftOut o.core (v.elim [] (·.skip))
    let r := s.plainReads o.core (s.passing o (s.getSlot o).gen s.nextId) ps
    let t := (r.2.2.foldl (·.bankedAt o.core) (r.1.noteReads (s.party o) out ps)).framesRead o.core (r.2.2.map fun k => (k, 64))
    match v.elim (some r.2.1) fun v => ps.mapM (s.leftPiece o v) with
    | some bs => .ok (t, { val := bs.map (·.1), bad := bs.any (·.2), met := s.meets out ps })
    | none => .error .busy

/-- The lanes of an element read from sixteen keys (R194, R259). -/
def State.readLanes (s : State) (o : SlotId) (win : Window) (keys : List Nat) (v : Option Leave) : Acc (State × Fetched VVal) := do
  let (s, got) ← s.streamRead o (keys.map fun k => { key := k, len := win.width }) v
  .ok (s, { got with val := lanes fun i => win.widen (leNat (got.val.getD i [])) })

/-- The beats `i` to `j - 1` of the frame at a key. -/
def beatPieces (key i j : Nat) : List Piece := (List.range (j - i)).map fun b => { key := key + 32 * (i + b), len := 32 }

/-- The form and window of an element of `span` bytes of a stream, whose base lies in a window or, without one, in translated space. -/
def State.elemForm (s : State) (c : CoreId) (ea : Word) (span : Nat) (win : Option Nat) : Acc Target :=
  match s.elemTarget c ea span win with
  | .error k => accFault k ea
  | .ok t => .ok t

/-- What a prefetch gets from a peer that fails the read: zero bits and POISON, a refusal reported (R376, R379). -/
def State.failedElem (s : State) (c : CoreId) (k : Nat) : State × Fetched VVal :=
  (s.refusedBy c k, { val := VVal.zero, bad := true, met := [] })

/-- Sixteen elements of an XF8 stream from element number `n`, decoded with a table: the form and the window come before the alignment of
the number (R35), and the beats of the frame's stated length are read (R58-R61, R193) (DESIGN CHOICE, log 53). -/
def State.xf8Lanes (s : State) (o : SlotId) (base : Word) (win : Option Nat) (n : Int) (table : Word) (v : Option Leave) :
    Acc (State × Fetched VVal) := do
  let ea := base + BitVec.ofInt 64 (1024 * (n / 1024))
  let _ ← s.elemForm o.core ea 1024 win
  if n % 16 ≠ 0 then accFault .align ea
  else do
    let (s, u) ← s.accessAt o.core ea 1024 1024 (win.getD 0) .r
    layoutOk u 5 ea
    if s.peerGone u.key then .ok (s.failedElem o.core u.key)
    else do
      let (s, head) ← s.streamRead o (beatPieces u.key 0 1) v
      let (s, rest) ← s.streamRead o (beatPieces u.key 1 (frameBeats head.val.flatten)) v
      match decodeFrame table (head.val ++ rest.val).flatten with
      | none => pageFault FKind.frame.scause ea ea
      | some es =>
        let off := (n % 1024).toNat
        .ok (s, { val := lanes fun i => Window.e4m3.widen (es.getD (off + i) 0), bad := head.bad || rest.bad, met := head.met ++ rest.met })

/-- Sixteen elements of a linear form at an address: the form of every lane first, the window, the alignment (R35), then, in translated space,
the page of the first lane and of the last; every fault reports the element's address (R193, R194, R301; log 21). -/
def State.linearLanes (s : State) (o : SlotId) (ea : Word) (f : ElemForm) (win : Option Nat) (v : Option Leave) :
    Acc (State × Fetched VVal) := do
  let c := o.core
  match ← s.elemForm c ea (16 * f.width) win with
  | .loc cc _ off =>
    if off % f.align ≠ 0 then accFault .align ea
    else if (s.getCore cc).saved then .error (.stall cc)
    else s.readLanes o f.win (elemKeys (localKey cc off) f.width) v
  | .virt va =>
    if va % f.align ≠ 0 then accFault .align ea
    else
      let page := fun (s : State) (a : Word) => match s.unitPlace c a f.width .r with
        | .error sc => (pageFault sc (if sc = cPOISON then walkVal sc a else ea) a : Acc (State × UnitPlace))
        | .ok r => .ok r
      let (s, u) ← page s ea
      let (s, u2) ← page s (ea + BitVec.ofNat 64 (15 * f.width))
      let serves := fun (u : UnitPlace) => u.leaf.any fun l => pageServes l f
      if !(serves u && serves u2) then pageFault FKind.layout.scause ea ea
      else if s.peerGone u.key then .ok (s.failedElem c u.key)
      else if s.peerGone u2.key then .ok (s.failedElem c u2.key)
      else s.readLanes o f.win (pageKeys va u.key (u2.key / 65536 * 65536) f.width) v

/-- Element `n` of a stream of context `o`, with the address that POISON reports for it, or the fault of its address (R193, R194). A peer
that fails the read gives zero bits and POISON (R379). -/
def State.streamElem (s : State) (o : SlotId) (cfg : StreamCfg) (n : Nat) (v : Option Leave) : Acc (State × Word × Fetched VVal) := do
  let c := o.core
  let (i0, i1, i2) := cfg.index n
  let frame := fun (s : State) (win : Option Nat) => do
    let r ← s.xf8Lanes o cfg.base win (16 * i0 + cfg.s1 * i1 + cfg.s2 * i2) ((s.getCore c).codes[cfg.tbl.toNat]) v
    .ok (r.1, cfg.base, r.2)
  let linear := fun (s : State) (f : ElemForm) (win : Option Nat) => do
    let ea := cfg.addr n f.width
    let r ← s.linearLanes o ea f win v
    .ok (r.1, ea, r.2)
  match addrForm c cfg.base with
  | .error k => accFault k cfg.base
  | .ok (.loc _ 6 _) => frame s (some 6)
  | .ok (.loc _ w _) => linear s { win := windowOf w, width := (windowOf w).width, xf8 := false } (some w)
  | .ok (.virt _) =>
    match s.unitPlace c cfg.base 1 .r with
    | .error sc => pageFault sc (walkVal sc cfg.base) cfg.base
    | .ok (s, u) =>
      let f := pageForm (u.leaf.getD 0)
      if f.xf8 then frame s none else linear s f none

/-- Whether an input stream prefetches another element: fewer than four are held, none of them a fault, and elements remain
(R193). -/
def State.prefetches (s : State) (a : StreamArg) : Bool :=
  let k := s.getCore a.ctx.core
  let l := s.getSlot a.ctx
  let cfg := l.streams[streamIx a.s]
  !k.saving && !k.saved && l.sm.getLsbD a.s.toNat && !l.sd.getLsbD a.s.toNat && cfg.pre.length < 4 &&
    cfg.pos + cfg.pre.length < cfg.total &&
    cfg.pre.all fun e => match e with
      | .ok _ _ => true
      | .fault _ _ => false

/-- The state with an element at the end of a stream's prefetched ones, and the release sides that its read has met. -/
def State.addElem (s : State) (a : StreamArg) (e : StreamElem) (met : List Side) : State :=
  s.onSlot a.ctx fun l =>
    let cfg := l.streams[streamIx a.s]
    { l with streams := l.streams.set (streamIx a.s).val { cfg with pre := cfg.pre ++ [e], met := cfg.met ++ [met] } }

/-- A prefetch whose home may be a saved core: what arrives, an element or the fault of its address, is put at the end of the stream's
prefetched elements; the core is reported where the access goes to its image (R193, R194, R336). A read that leaves out the writes of `skip`
is made where R251 allows it after the stream's `scfg` or last `sflush` (R259). -/
def State.streamTry (s : State) (a : StreamArg) (skip : Option (List Nat) := none) : Except CoreId State :=
  if s.prefetches a then
    let cfg := (s.getSlot a.ctx).streams[streamIx a.s]
    match s.streamElem a.ctx cfg (cfg.pos + cfg.pre.length) (skip.map fun l => { skip := l, clk := cfg.clk }) with
    | .ok (t, ea, e) => .ok ((t.addElem a (.ok e.val (if e.bad then some ea else none)) e.met).banked a.ctx.core)
    | .error (.stall c) => .error c
    | .error .busy => .ok s
    | .error (.fault sc val at_) => .ok ((s.addElem a (.fault sc val) []).sampleMiss a.ctx.core at_)
  else .ok s

/-- `STREAM_PREFETCH`: an element of an input stream arrives (R193, R194, R259). -/
def execStreamPrefetch (a : StreamArg) (s : State) : Res := .next (tried s (s.streamTry a))

end Sys2Proof.Machine
end

