-- ==== Sys2Proof/Machine/Transfer.lean ====
section
/-! DEFINITION. The copy engine (R181-R192): its instructions, the start of a transfer, the delivery of a run, COPYDONE, shadow
pairs and `castle` (R188, R189), multicast (R368, R369) and the transposing all-to-all (R190-R192). -/

namespace Sys2Proof.Machine

open Sys2Proof

/-! ### Instructions -/

/-- The bytes of a transfer's block (R181-R190). -/
def XferKind.blockSize : XferKind → Nat
  | .copy => 72
  | .gather => 64
  | .scatter => 64
  | .mcast => 64
  | .ata => 128

/-- A transfer: queued once the queue has room, and d ← the transfer id (R167, R181). -/
def transfer (o : R2) (kind : XferKind) (s : State) : Res :=
  finish s do
    issueRule s [(.x o.a, o.wa)] [.x o.d]
    let a := s.xv o.a
    let _ ← blockOffset s a kind.blockSize
    if 2 ≤ s.core.copy.queue.length then waitHere s 5
    else
      let id : BitVec 16 := s.cur.slot ++ s.core.copy.count
      let x : XferCmd :=
        { own := s.owner, kind := kind, blk := a, xfer := id, block := [], msg := [], handler := none, prog := 0, started := false,
          opMade := false, shp := s.core.shp, snapshot := none, snapAt := 0, taken := false }
      let t := s.modCore fun c => { c with copy := { c.copy with queue := c.copy.queue ++ [x], count := c.copy.count + 1 } }
      .ok ((t.putX o.d (id.setWidth 64)).advance 4)

/-- `copy` (R183). -/
def execCopy (o : R2) (s : State) : Res := transfer o .copy s
/-- `gather` (R184). -/
def execGather (o : R2) (s : State) : Res := transfer o .gather s
/-- `scatter` (R184). -/
def execScatter (o : R2) (s : State) : Res := transfer o .scatter s
/-- `mcast` (R185). -/
def execMcast (o : R2) (s : State) : Res := transfer o .mcast s
/-- `ata` (R190). -/
def execAta (o : R2) (s : State) : Res := transfer o .ata s

/-! ### Shadow pairs -/

/-- BASEA, BASEB and LEN of a shadow pair (R31). -/
def shpA (w : Word) : Nat := bits w.toNat 0 20
def shpB (w : Word) : Nat := bits w.toNat 20 20
def shpLen (w : Word) : Nat := bits w.toNat 40 20

/-- SEL of a shadow pair (R31). -/
def shpSel (w : Word) : Bool := w.getLsbD 60

/-- Whether an offset lies in the copy of a pair at a base. -/
def inCopy (w : Word) (base o : Nat) : Bool := base ≤ o && o < base + shpLen w

/-- The offset that a byte goes to under a list of pairs: the lowest-numbered one that holds it sends it to the copy that SEL does not
name (R188). -/
def resolvePairs (ps : List Word) (o : Nat) : Nat :=
  match ps.find? fun w => shpLen w ≠ 0 && (inCopy w (shpA w) o || inCopy w (shpB w) o) with
  | none => o
  | some w =>
    let named := if shpSel w then shpB w else shpA w
    let other := if shpSel w then shpA w else shpB w
    other + (o - (if inCopy w named o then named else other))

/-- The offset that a byte of a transfer with SHD goes to in a core with these pairs (R188). -/
def Core.resolve (c : Core) (o : Nat) : Nat := resolvePairs c.shp.toList o

/-- The engine writes that have reached either copy of a pair of the acting core: a `castle` orders them before its context's later writes
(R189, R258). -/
def State.castles (s : State) (pair : Word) : State :=
  let meets := fun (base : Nat) (k n : Nat) => rangesMeet (localKey s.cur.core base) (shpLen pair) k n
  let ws := s.past.filterMap fun w => match w.by_ with
    | .unit _ _ _ => if w.old.any fun p => meets (shpA pair) p.1 p.2.length || meets (shpB pair) p.1 p.2.length then some w.num else none
    | _ => none
  s.modSlot fun l => { l with castled := l.castled.withWrites ws }

/-- `castle`: a release at module scope; the visible copy of pair A flips (R189). Engine writes are performed when they reach the
core, so none is waited for. -/
def execCastle (o : RA) (s : State) : Res :=
  finish s do
    issueRule s [(.x o.a, o.wa)] []
    let a := (s.xv o.a).toNat
    if h : a < 16 then
      if shpLen s.core.shp[a] = 0 then trapIllegal s
      else if !s.released s.cur then waitHere s 8
      else .ok (((s.castles s.core.shp[a]).modCore fun c => { c with shp := c.shp.set a (c.shp[a] ^^^ 0x1000_0000_0000_0000) }).advance 4)
    else trapIllegal s

/-! ### The header of a block (R181) -/

/-- CTL, COMP, SHD and the element size; the elements of a `copy` and an `mcast` are bytes (R181, R183, R185). -/
def XferCmd.ctl (x : XferCmd) : Nat := fieldOf x.block 0 8
def XferCmd.comp (x : XferCmd) : Nat := bits x.ctl 0 2
def XferCmd.shd (x : XferCmd) : Bool := bits x.ctl 2 1 = 1
def XferCmd.esize (x : XferCmd) : Nat :=
  match x.kind with
  | .copy => 1
  | .mcast => 1
  | _ => 2 ^ bits x.ctl 4 2
def XferCmd.caddr (x : XferCmd) : Word := BitVec.ofNat 64 (fieldOf x.block 8 8)
def XferCmd.src (x : XferCmd) : Word := BitVec.ofNat 64 (fieldOf x.block 0x20 8)
def XferCmd.dst (x : XferCmd) : Word := BitVec.ofNat 64 (fieldOf x.block 0x28 8)

/-- The alignment of elements: E for `gather` and `scatter` (R184). -/
def XferCmd.align (x : XferCmd) : Nat :=
  match x.kind with
  | .gather => x.esize
  | .scatter => x.esize
  | _ => 1

/-! ### `copy`, `gather`, `scatter` and `mcast` -/

/-- C0, C1 and C2 of a `copy` (R183). -/
def XferCmd.c0 (x : XferCmd) : Nat := fieldOf x.block 0x30 4
def XferCmd.c1 (x : XferCmd) : Nat := fieldOf x.block 0x34 2
def XferCmd.c2 (x : XferCmd) : Nat := fieldOf x.block 0x36 2

/-- Source and destination of byte `n` of a `copy` (R183). -/
def XferCmd.copyElem (x : XferCmd) (n : Nat) : Word × Word :=
  let i0 := n % x.c0
  let i1 := n / x.c0 % x.c1
  let i2 := n / x.c0 / x.c1
  (x.src + BitVec.ofInt 64 (i0 + i1 * intOf x.block 0x38 + i2 * intOf x.block 0x3C),
   x.dst + BitVec.ofInt 64 (i0 + i1 * intOf x.block 0x40 + i2 * intOf x.block 0x44))

/-- IDX and N of a `gather` or `scatter` (R184). -/
def XferCmd.idx (x : XferCmd) : Word := BitVec.ofNat 64 (fieldOf x.block 0x30 8)
def XferCmd.count (x : XferCmd) : Nat := fieldOf x.block 0x38 4

/-- DOFF, BYTES and the group of an `mcast` (R185). -/
def XferCmd.doff (x : XferCmd) : Word := x.dst
def XferCmd.bytes (x : XferCmd) : Nat := fieldOf x.block 0x30 4
def XferCmd.group (x : XferCmd) : Nat := fieldOf x.block 0x34 1

/-- The own-local offset that a field of a block names (R168, R181). -/
def State.ownAccess (s : State) (c : CoreId) (a : Word) (n align : Nat) : Acc Nat :=
  match s.target c a n with
  | .error k => accFault k a
  | .ok (.virt _) => accFault .place a
  | .ok (.loc cc w off) =>
    if cc ≠ c then accFault .place a
    else if w ≠ 0 then accFault .window a
    else if off % align ≠ 0 then accFault .align a
    else .ok off

/-- Entry `i` of the index list (R184). -/
def State.indexAt (s : State) (c : CoreId) (x : XferCmd) (i : Nat) : Acc Int := do
  let off ← s.ownAccess c (x.idx + BitVec.ofNat 64 (4 * i)) 4 4
  let bs ← s.ownBytes c off 4
  .ok (intOf bs 0)

/-! ### `ata` (R190-R192) -/

/-- The distribution of one dimension: its axis, none for 3; whether cyclic; its block size (R190). -/
structure DimMap where
  axis : Nat
  cyclic : Bool
  b : Nat
  deriving DecidableEq, Repr

/-- A map of an `ata` block at an offset (R190). -/
def dimMap (bs : List Byte) (o d : Nat) : DimMap :=
  let f := fieldOf bs (o + d) 1
  { axis := bits f 0 2, cyclic := bits f 2 1 = 1, b := fieldOf bs (o + 8 + 2 * d) 2 }

/-- ORD of a map: dimension number `k` from the innermost (R190). -/
def ordAt (bs : List Byte) (o k : Nat) : Nat := bits (fieldOf bs (o + 4) 1) (2 * k) 2

/-- The byte stride of dimension d in a map, read as signed, which R190 does not say (DESIGN CHOICE, log 68). -/
def dimStride (bs : List Byte) (o d : Nat) : Int := intOf bs (o + 0x10 + 4 * d)

/-- The extents of the array, and of the grid (R190). -/
def XferCmd.shape (x : XferCmd) (d : Nat) : Nat := fieldOf x.block (0x20 + 2 * d) 2
def XferCmd.grid (x : XferCmd) (a : Nat) : Nat := if a < 3 then fieldOf x.block (0x28 + 2 * a) 2 else 1

/-- SBASE and DBASE (R190). -/
def XferCmd.sbase (x : XferCmd) : Nat := bits (fieldOf x.block 0x38 8) 0 20
def XferCmd.dbase (x : XferCmd) : Nat := bits (fieldOf x.block 0x38 8) 32 20

/-- The owner coordinate of an index (R191). -/
def DimMap.owner (m : DimMap) (g i : Nat) : Nat := if m.cyclic then i / m.b % g else i / m.b

/-- The local index of an index (R191). -/
def DimMap.local_ (m : DimMap) (g i : Nat) : Nat :=
  if m.axis = 3 then i else if m.cyclic then i / (m.b * g) * m.b + i % m.b else i % m.b

/-- The global index of a local one at a coordinate (R191). -/
def DimMap.global (m : DimMap) (g c l : Nat) : Nat :=
  if m.axis = 3 then l else if m.cyclic then l / m.b * m.b * g + c * m.b + l % m.b else c * m.b + l

/-- The local extent (R191). -/
def DimMap.extent (m : DimMap) (g n : Nat) : Nat :=
  if m.axis = 3 then n else if m.cyclic then (n + m.b * g - 1) / (m.b * g) * m.b else m.b

/-- The participants of the domain: the cores of the launch that share the issuing core's instance of a level, in increasing core
id (R190, R321). -/
def State.levelCores (s : State) (c : CoreId) (dom : Nat) : List CoreId :=
  match s.launcher.launches.find? fun l => l.record.id = (s.getCore c).launch with
  | none => []
  | some l =>
    match l.record.levels[dom]? with
    | none => []
    | some (d, _) => ((l.clusters.flatMap clusterCores).filter (sameDomain d.toNat c)).mergeSort fun a b => a.toNat ≤ b.toNat
where
  /-- Whether two cores share the domain instance of a code (R14). -/
  sameDomain (code : Nat) (a b : CoreId) : Bool :=
    match code with
    | 1 => a = b
    | 2 => vaultOf a = vaultOf b
    | 3 => clusterOf a = clusterOf b
    | 4 => dieOf a = dieOf b
    | 5 => (dieOf a).toNat / 16 = (dieOf b).toNat / 16 && (dieOf a).toNat % 8 / 2 = (dieOf b).toNat % 8 / 2
    | _ => true

/-- The first P cores of the domain: the participants (R190). -/
def State.participants (s : State) (c : CoreId) (x : XferCmd) : List CoreId :=
  (s.levelCores c (bits (fieldOf x.block 0x30 8) 0 3)).take (x.grid 0 * x.grid 1 * x.grid 2)

/-- The grid coordinate of a rank on an axis (R190). -/
def XferCmd.coord (x : XferCmd) (q a : Nat) : Nat :=
  match a with
  | 0 => q % x.grid 0
  | 1 => q / x.grid 0 % x.grid 1
  | _ => q / (x.grid 0 * x.grid 1)

/-- The tuples of local indices, the first dimension of the list innermost (R192). -/
def tuples (ext : Nat → Nat) : List Nat → List (List (Nat × Nat))
  | [] => [[]]
  | d :: ds => (tuples ext ds).flatMap fun t => (List.range (ext d)).map fun v => (d, v) :: t

/-- An element of an `ata`: its source offset, its destination core's rank and the offset there (R192). -/
structure AtaElem where
  src : Int
  rank : Nat
  dst : Int
  deriving DecidableEq, Repr

/-- The elements that the core of rank `q` delivers, in enumeration order (R192). -/
def XferCmd.ataElems (x : XferCmd) (q : Nat) : List AtaElem :=
  let bs := x.block
  let sm := dimMap bs 0x40
  let dm := dimMap bs 0x60
  let dims := List.range 4
  (tuples (fun d => (sm d).extent (x.grid (sm d).axis) (x.shape d)) (dims.map (ordAt bs 0x40))).filterMap fun t =>
    let l := fun d => (tabGet? t d).getD 0
    let i := fun d => (sm d).global (x.grid (sm d).axis) (x.coord q (sm d).axis) (l d)
    if dims.all fun d => i d < x.shape d then
      let c := fun a => (dims.map fun d => if (dm d).axis = a then (dm d).owner (x.grid a) (i d) else 0).sum
      some { src := x.sbase + (dims.map fun d => (l d : Int) * dimStride bs 0x40 d).sum
             rank := c 0 + x.grid 0 * (c 1 + x.grid 1 * c 2)
             dst := x.dbase + (dims.map fun d => ((dm d).local_ (x.grid (dm d).axis) (i d) : Int) * dimStride bs 0x60 d).sum }
    else none

/-- The elements that the core of rank `q` owns under DMAP (R192). -/
def XferCmd.owned (x : XferCmd) (q : Nat) : Nat :=
  ((List.range 4).map fun d =>
    let m := dimMap x.block 0x60 d
    if m.axis = 3 then x.shape d
    else ((List.range (x.shape d)).filter fun i => m.owner (x.grid m.axis) i = x.coord q m.axis).length).foldl (· * ·) 1

/-- The checks of one map: axes with g > 1 used once, none with g = 1, block sizes, ORD, reserved bits (R190, R191). -/
def XferCmd.mapOk (x : XferCmd) (o : Nat) : Bool :=
  let dims := List.range 4
  let m := dimMap x.block o
  (dims.all fun d => bits (fieldOf x.block (o + d) 1) 3 5 = 0 && ((m d).axis = 3) = ((m d).b = 0) &&
    ((m d).axis = 3 || (m d).cyclic || x.shape d ≤ (m d).b * x.grid (m d).axis)) &&
  fieldOf x.block (o + 5) 3 = 0 &&
  (List.range 3).all (fun a => (dims.filter fun d => (m d).axis = a).length = (if 1 < x.grid a then 1 else 0)) &&
  dims.all fun d => dims.any fun k => ordAt x.block o k = d

/-- Whether an `ata` block passes its BLOCK checks; `q` is the rank of the issuing core among the participants (R190-R192). -/
def XferCmd.ataOk (x : XferCmd) (parts : List CoreId) (q : Nat) : Bool :=
  x.comp ≠ 3 && ((List.range 4).all fun d => x.shape d ≠ 0) && ((List.range 3).all fun a => x.grid a ≠ 0) &&
    fieldOf x.block 0x2E 2 = 0 && bits (fieldOf x.block 0x30 8) 3 61 = 0 && bits (fieldOf x.block 0x38 8) 20 12 = 0 &&
    bits (fieldOf x.block 0x38 8) 52 12 = 0 && x.mapOk 0x40 && x.mapOk 0x60 &&
    parts.length = x.grid 0 * x.grid 1 * x.grid 2 && q < parts.length

/-! ### Elements -/

/-- How many elements a transfer has. -/
def State.xferTotal (s : State) (c : CoreId) (x : XferCmd) : Nat :=
  match x.kind with
  | .copy => x.c0 * x.c1 * x.c2
  | .gather => x.count
  | .scatter => x.count
  | .mcast => x.bytes
  | .ata => (x.ataElems ((s.participants c x).idxOf c)).length

/-- The global address of an offset in a core's local memory through window 0 (R35). -/
def localAddr (c : CoreId) (off : Nat) : Word := BitVec.ofNat 64 (2 ^ 44 + c.toNat * 2 ^ 24 + off)

/-- An offset of local memory, RANGE where it lies outside: CR.SVAL is the offset alone, whichever core it is one of (R192; DESIGN CHOICE,
log 54). -/
def inLocal (o : Int) : Acc Nat :=
  if 0 ≤ o && o < localSize then .ok o.toNat else accFault .range (BitVec.ofInt 64 o)

/-- Source and destination address of element `n` (R183-R185, R192). -/
def State.xferElem (s : State) (c : CoreId) (x : XferCmd) (n : Nat) : Acc (Word × Word) :=
  let e : Int := x.esize
  match x.kind with
  | .copy => .ok (x.copyElem n)
  | .gather => do
    let i ← s.indexAt c x n
    .ok (x.src + BitVec.ofInt 64 (i * e), x.dst + BitVec.ofInt 64 (n * e))
  | .scatter => do
    let i ← s.indexAt c x n
    .ok (x.src + BitVec.ofInt 64 (n * e), x.dst + BitVec.ofInt 64 (i * e))
  | .mcast => .ok (x.src + BitVec.ofNat 64 n, x.doff + BitVec.ofNat 64 n)
  | .ata => do
    let parts := s.participants c x
    let a := (x.ataElems (parts.idxOf c)).getD n { src := 0, rank := 0, dst := 0 }
    let src ← inLocal a.src
    let dst ← inLocal a.dst
    .ok (localAddr c src, localAddr (parts.getD a.rank 0) dst)

/-- The destination address of element `n`: of a `gather` it needs no index (R184). -/
def State.xferDst (s : State) (c : CoreId) (x : XferCmd) (n : Nat) : Acc Word :=
  if x.kind = .gather then .ok (x.dst + BitVec.ofNat 64 (n * x.esize)) else (s.xferElem c x n).map (·.2)

/-- The core whose local memory an element's destination lies in. -/
def State.xferCore (s : State) (c : CoreId) (x : XferCmd) (n : Nat) : Option CoreId :=
  match s.xferDst c x n with
  | .ok d =>
    match s.target c d with
    | .ok (.loc cc _ _) => some cc
    | _ => none
  | .error _ => none

/-- Whether an element that is still to be sent may be bound for a core: also one whose destination cannot be told, for a poisoned index. -/
def State.boundFor (s : State) (c : CoreId) (x : XferCmd) (t : CoreId) (n : Nat) : Bool :=
  match s.xferDst c x n with
  | .ok _ => s.xferCore c x n = some t
  | .error _ => true

/-- The pairs that the bytes of a transfer of core `c` are resolved against in core `cc`: there as they stand, in `c` itself with the LEN
and the bases that they had when the transfer was issued (R29, R188). -/
def State.pairsAt (s : State) (c : CoreId) (x : XferCmd) (cc : CoreId) : List Word :=
  let live := (s.getCore cc).shp.toList
  let sel : Word := 0x1000_0000_0000_0000
  if cc = c then (x.shp.toList.zip live).map fun p => (p.1 &&& ~~~sel) ||| (p.2 &&& sel) else live

/-- The offset of core `cc` at which a byte of a transfer lands (R188). -/
def State.landOff (s : State) (c : CoreId) (x : XferCmd) (cc : CoreId) (o : Nat) : Nat :=
  if x.shd then resolvePairs (s.pairsAt c x cc) o else o

/-- RANGE where a byte would land at 0x60000 or above, with the address before resolution; tried when an element is sent and when it lands
(R188). -/
def State.partFits (s : State) (c : CoreId) (x : XferCmd) (p : RunPart) : Acc Unit :=
  match homeCore p.key with
  | none => .ok ()
  | some cc =>
    if (List.range p.bytes.length).any fun i => localSize ≤ s.landOff c x cc (p.key % 2 ^ 20 + i) then accFault .range p.addr
    else .ok ()

/-- What a part writes when it lands: each byte at the offset that the pairs then give it (R188). -/
def State.landPart (s : State) (c : CoreId) (x : XferCmd) (p : RunPart) : List (Nat × List Byte) :=
  match homeCore p.key with
  | none => [(p.key, p.bytes)]
  | some cc =>
    if !x.shd then [(p.key, p.bytes)]
    else (List.range p.bytes.length).map fun i => (localKey cc (s.landOff c x cc (p.key % 2 ^ 20 + i)), [p.bytes.getD i 0])

/-- The pieces that parts write when they land. -/
def State.landPieces (s : State) (c : CoreId) (x : XferCmd) (ps : List RunPart) : List (Nat × List Byte) :=
  joinPieces (ps.flatMap (s.landPart c x))

/-- The bytes that the source of an element gives, from an access at its home (R168). -/
def State.xferRead (s : State) (c : CoreId) (x : XferCmd) (src : Word) : Acc (State × List Byte) := do
  let (s, u) ← s.access c src x.esize x.align 0 .r
  let bs ← s.accessRead src u.key x.esize
  .ok (s, bs)

/-- What element `n` sends. -/
def State.xferParts (s : State) (c : CoreId) (x : XferCmd) (n : Nat) : Acc (State × List RunPart) := do
  let (src, dst) ← s.xferElem c x n
  let (s, bs) ← s.xferRead c x src
  let (s, u) ← s.access c dst x.esize x.align 0 .w
  let p : RunPart := { elem := n, key := u.key, addr := dst, bytes := bs }
  s.partFits c x p
  .ok (s, [p])

/-! ### Multicast (R368, R369) -/

/-- The entry that the anchor takes a snapshot of (R368). -/
def State.mcastEntry (s : State) (d : Die) (group : Nat) : Word := (tabGet? s.bar0.mcast (d.toNat * 256 + group)).getD 0

/-- Whether a group entry may be used by a tenant (R368, R369). -/
def mcastOk (w : Word) (tenant : BitVec 12) : Bool :=
  let n := w.toNat
  w.getLsbD 63 && bits n 42 9 = 0 && bits n 0 12 = 0 && bits n 30 6 ≤ bits n 36 6 && bits n 18 6 ≤ bits n 24 6 &&
    bits n 15 3 ≤ 5 && bits n 12 3 ≤ 5 && bits n 51 12 = tenant.toNat

/-- The members of a group entry (R368). -/
def mcastMembers (w : Word) (d : Die) : List CoreId :=
  let n := w.toNat
  (List.range 64).flatMap fun y => (List.range 64).filterMap fun x =>
    if bits n 30 6 ≤ y && y ≤ bits n 36 6 && bits n 18 6 ≤ x && x ≤ bits n 24 6 && (y - bits n 30 6) % 2 ^ bits n 15 3 = 0 &&
        (x - bits n 18 6) % 2 ^ bits n 12 3 = 0 then some (coreAt d y x) else none

/-- The members of the message under way that are in the sending launch, and those that are not (R369). -/
def State.mcastSplit (s : State) (c : CoreId) (x : XferCmd) : List CoreId × List CoreId :=
  (mcastMembers (x.snapshot.getD 0) (dieOf c)).partition fun m => (s.getCore m).launch = (s.getCore c).launch

/-- What byte `n` of an `mcast` sends to the members (R185, R369). -/
def State.mcastParts (s : State) (c : CoreId) (x : XferCmd) (n : Nat) : Acc (State × List RunPart) := do
  let (s, bs) ← s.xferRead c x (x.src + BitVec.ofNat 64 n)
  let off := x.doff.toNat % 2 ^ 20 + n
  let ps ← (s.mcastSplit c x).1.mapM fun m => do
    let p : RunPart := { elem := n, key := localKey m off, addr := localAddr m off, bytes := bs }
    s.partFits c x p
    .ok p
  .ok (s, ps)

/-- `MCAST_ANCHOR_SNAPSHOT`: the anchor of the group takes the entry for the next message of a core's `mcast` (R369). -/
def execMcastAnchorSnapshot (c : CoreId) (s : State) : Res :=
  .next <|
    let k := s.getCore c
    match k.copy.run with
    | none => s
    | some x =>
      if x.kind ≠ .mcast || !x.started || x.snapshot.isSome || x.bytes ≤ x.prog || k.saving || k.saved then s
      else
        let w := s.mcastEntry (dieOf c) x.group
        s.onCore c fun k => { k with copy := { k.copy with run := some { x with snapshot := some w, snapAt := s.tick } } }

/-! ### Start -/

/-- Whether two commands are the same transfer. -/
def XferCmd.same (x y : XferCmd) : Bool := x.xfer = y.xfer && x.own = y.own

/-- A transfer that faults parks at the head of its queue; its owner takes the fault (R170, R187). -/
def State.xferPark (s : State) (c : CoreId) (x : XferCmd) (scause : BitVec 16) (val : Word) (at_ : Option Word) : State :=
  ((s.onCore c fun k => { k with copy := { k.copy with
      run := k.copy.run.filter fun y => !y.same x
      parked := some { x with started := false, snapshot := none, badDst := none } } }
    ).faulted c scause val at_).unitFault c x.own scause val (some .copy)

/-- A transfer abandoned for a BLOCK fault (R170). -/
def State.xferBlock (s : State) (c : CoreId) (x : XferCmd) : State :=
  (s.onCore c fun k => { k with copy := { k.copy with run := none } }).unitFault c x.own FKind.block.scause x.blk none

/-- Whether the fields of a block pass their BLOCK checks (R181-R185, R190-R192). -/
def State.xferFields (s : State) (c : CoreId) (x : XferCmd) : Bool :=
  bits x.ctl 3 1 = 0 && bits x.ctl 6 58 = 0 && fieldOf x.block 0x18 8 = 0 &&
    (match x.kind with
     | .copy => x.c0 ≠ 0 && x.c1 ≠ 0 && x.c2 ≠ 0
     | .gather => x.count ≠ 0
     | .scatter => x.count ≠ 0
     | .mcast => x.bytes ≠ 0 && x.bytes ≤ localSize && bits (fieldOf x.block 0x34 4) 8 24 = 0
     | .ata => x.ataOk (s.participants c x) ((s.participants c x).idxOf c)) &&
    (x.comp ≠ 3 || x.kind = .mcast ||
      (match s.target c x.dst with
       | .ok (.virt _) => false
       | _ => true))

/-- The count barrier that CADDR names, where COMP is 1: its own-local offset for `mcast` and `ata`, its home's key for the others
(R137, R182) (DEDUCED, log 33). -/
def State.xferBarrier (s : State) (c : CoreId) (x : XferCmd) : Acc Nat :=
  match x.kind with
  | .mcast => s.ownAccess c x.caddr 16 16
  | .ata => s.ownAccess c x.caddr 16 16
  | _ => s.barrierAt c x.caddr

/-- The message of COMP 3, or BLOCK for a malformed header, with the address of the block as R170 reports a BLOCK of an engine (R182,
R197; DEDUCED, log 33). -/
def State.xferMessage (s : State) (c : CoreId) (x : XferCmd) : Acc (List Byte) := do
  let off ← s.ownAccess c x.caddr 64 8
  let bs ← s.ownBytes c off 64
  let hdr := fieldOf bs 0 8
  if hdr / 2 ^ 25 ≠ 0 || 8 < bits hdr 20 4 then accFault .block x.blk else .ok bs

/-- What a transfer reads and checks at its start, after the fields of its block; the message of COMP 3 is read once (R182, R185, R187). -/
def State.xferSetup (s : State) (c : CoreId) (x : XferCmd) : Acc (State × XferCmd) := do
  if x.kind = .mcast then
    let _ ← s.ownAccess c x.doff x.bytes 1
  let x := { x with prog := fieldOf x.block 0x10 8, started := true }
  let made := if x.prog = 0 then [] else ((s.getCore c).markOf (.progress (x.blk.toNat % 2 ^ 20))).writes
  let x := { x with own := { x.own with clk := x.own.clk.withWrites made } }
  match x.comp with
  | 1 => do
    let key ← s.xferBarrier c x
    if x.kind = .ata && x.prog = 0 && !x.opMade then
      let q := (s.participants c x).idxOf c
      .ok (s.counted (s.cbAta (localKey c key) (x.esize * x.owned q)) (localKey c key) x.own.clk, { x with opMade := true })
    else .ok (s, x)
  | 2 => .ok (s, { x with handler := x.handler <|> some x.caddr })
  | 3 => do
    let m ← (if x.msg.isEmpty then s.xferMessage c x else .ok x.msg)
    .ok (s, { x with msg := m })
  | _ => .ok (s, x)

/-- The start of a transfer: its block is read whole, then checked (R168, R187). -/
def State.xferStart (s : State) (c : CoreId) (x : XferCmd) : State :=
  match s.ownBytes c (x.blk.toNat % 2 ^ 20) x.kind.blockSize with
  | .error (.fault sc v a) => s.xferPark c x sc v a
  | .error _ => s
  | .ok bs =>
    let x := { x with block := bs }
    if !s.xferFields c x then s.xferBlock c x
    else match s.xferSetup c x with
      | .error (.fault sc v a) => if sc = FKind.block.scause then s.xferBlock c x else s.xferPark c x sc v a
      | .error _ => s
      | .ok (s, x) => s.onCore c fun k => { k with copy := { k.copy with run := some x } }

/-- The transfer that the copy engine of a core starts now: one that resumes, else the head of its queue (R167, R168, R187). -/
def State.xferReady (s : State) (c : CoreId) : Option XferCmd :=
  let k := s.getCore c
  if k.saving || k.saved then none
  else match k.copy.run with
    | some x => if x.started then none else some x
    | none => if k.copy.parked.isSome then none else k.copy.queue.head?.filter fun x => s.ownerReleased c x.own

/-- `COPY_COMMAND_START` (R168, R182, R187, R192). -/
def execCopyCommandStart (c : CoreId) (s : State) : Res :=
  .next <|
    match s.xferReady c with
    | none => s
    | some x =>
      let t := if (s.getCore c).copy.run.isSome then s
        else s.onCore c fun k => { k with copy := { k.copy with queue := k.copy.queue.drop 1, run := some x } }
      (t.banked c).xferStart c x

/-! ### Delivery -/

/-- The length of the run that starts at element `n`: a run of a `copy` or `mcast` ends at a 256-byte boundary of its destination,
one of an `ata` also where source or destination break off (R192, R362). -/
def State.runLength (s : State) (c : CoreId) (x : XferCmd) (n : Nat) : Nat :=
  match x.kind with
  | .copy => min (x.c0 - n % x.c0) (256 - (x.copyElem n).2.toNat % 256)
  | .gather => 1
  | .scatter => 1
  | .mcast => min (x.bytes - n) (256 - (x.doff.toNat + n) % 256)
  | .ata =>
    let es := (x.ataElems ((s.participants c x).idxOf c)).drop n
    match es with
    | [] => 0
    | a :: _ =>
      let e : Int := x.esize
      ((List.range es.length).takeWhile fun (i : Nat) =>
        let b := es.getD i a
        b.rank = a.rank && b.src = a.src + i * e && b.dst = a.dst + i * e &&
          b.dst.toNat / 256 = (if i = 0 then b.dst.toNat / 256 else a.dst.toNat / 256)).length

/-- The parts of a run by the core that they are bound for, so that the bytes for each stand together (R307). -/
def groupParts (ps : List RunPart) : List RunPart :=
  ((ps.map fun p => homeCore p.key).eraseDups).flatMap fun h => ps.filter fun p => homeCore p.key = h

/-- What `len` elements from `n` send, as far as the first that faults: how many, and the stop. -/
def State.runParts (s : State) (c : CoreId) (x : XferCmd) : Nat → Nat → State × List RunPart × Nat × Option UnitStop
  | 0, _ => (s, [], 0, none)
  | len + 1, n =>
    match (if x.kind = .mcast then s.mcastParts c x n else s.xferParts c x n) with
    | .error e => (s, [], 0, some e)
    | .ok (s, ps) =>
      let (s, qs, k, e) := s.runParts c x len (n + 1)
      (s, ps ++ qs, k + 1, e)

/-- The barriers that `k` delivered elements from `n` count on (R182, R192). -/
def State.runBarriers (s : State) (c : CoreId) (x : XferCmd) (n : Nat) : List Nat :=
  if x.comp ≠ 1 then []
  else match s.xferBarrier c x with
    | .error _ => []
    | .ok key =>
      match x.kind with
      | .mcast => (s.mcastSplit c x).1.map fun m => localKey m key
      | .ata =>
        match s.xferCore c x n with
        | some t => [localKey t key]
        | none => []
      | _ => [key]

/-- The number of a transfer among those of its context. -/
def XferCmd.number (x : XferCmd) : Nat := x.own.after * 2 ^ 16 + x.xfer.toNat

/-- What happens before a completion of a transfer: its issue and its writes so far (R257). -/
def State.xferClock (s : State) (c : CoreId) (x : XferCmd) : Clock :=
  x.own.clk.withWrites (s.unitWrites .copy (x.own.party c) (some x.number))

/-- The arrival task of a transfer sent to a core (R182). -/
def State.xferTask (s : State) (c : CoreId) (x : XferCmd) (t : CoreId) : State :=
  let hdr := fieldOf x.msg 0 8
  let narg := bits hdr 20 4
  let args : Vector Word 8 := Vector.ofFn fun i => if i.val < narg then (argWords x.msg)[i] else 0
  s.sendTask (.core t)
    { launch := (s.getCore c).launch, origin := c, slot := x.own.slot, gen := x.own.gen, counted := false,
      task := { handler := BitVec.ofNat 20 hdr, flags := flagXFER ||| flagREL ||| (if bits hdr 24 1 = 1 then flagU else 0),
                sender := c, cgen := 0, args := args, clk := s.xferClock c x } } none

/-- Whether a run in flight belongs to a transfer. -/
def Flight.isOf (f : Flight) (x : XferCmd) : Bool := f.x.same x

/-- The cores that a run writes. -/
def Flight.cores (f : Flight) : List CoreId := (f.parts.filterMap fun p => homeCore p.key).eraseDups

/-- The core with the transfer of a run changed, whether it is still to send or only to land. -/
def Core.onXfer (k : Core) (f : Flight) (g : XferCmd → XferCmd) : Core :=
  let h := fun (x : XferCmd) => if f.isOf x then g x else x
  { k with copy := { k.copy with run := k.copy.run.map h, landing := k.copy.landing.map h } }

/-- The transfer of a run. -/
def Core.xferOf (k : Core) (f : Flight) : Option XferCmd := (k.copy.run.toList ++ k.copy.landing).find? f.isOf

/-- Of the cores that bytes of a transfer with COMP 3 have reached and that have had no task, those that no run in flight and no element still
to be sent is bound for (R182). -/
def State.coresDone (s : State) (c : CoreId) (f : Flight) : List CoreId :=
  let k := s.getCore c
  let others := k.copy.flights.filter fun g => g.isOf f.x
  match k.xferOf f with
  | none => []
  | some x =>
    let unsent := (List.range (s.xferTotal c x - x.prog)).map (x.prog + ·)
    if x.comp ≠ 3 then []
    else if x.kind = .mcast then (if others.isEmpty && unsent.isEmpty then (s.mcastSplit c f.x).1 else [])
    else x.due.filter fun t => !others.any (·.cores.contains t) && !unsent.any (s.boundFor c x t)

/-- The arrival tasks of a transfer that the landing of a run completes, sent (R182). -/
def State.xferTasks (s : State) (c : CoreId) (f : Flight) : State :=
  let t := s.onCore c fun k => k.onXfer f fun x => { x with due := (x.due ++ f.cores).eraseDups }
  let ds := t.coresDone c f
  ds.foldl (fun t d => t.xferTask c f.x d) (t.onCore c fun k => k.onXfer f fun x => { x with due := x.due.filter fun d => !ds.contains d })

/-- A COPYDONE queued for the owner; a ninth one is only counted (R186). -/
def State.copyDone (s : State) (c : CoreId) (x : XferCmd) : State :=
  let o : SlotId := { core := c, slot := x.own.slot }
  let l := s.getSlot o
  if l.gen ≠ x.own.gen || l.st = .free then s
  else if l.cdq.length < 8 then
    s.onSlot o fun l => { l with cdq := l.cdq ++ [{ xfer := x.xfer, handler := x.handler.getD 0, clk := s.xferClock c x }] }
  else (s.onSlot o fun l => { l with cdlost := satAdd32 l.cdlost 1 }).onCore c (·.count 14 1)

/-- A transfer whose bytes have all been written is over: a COMP of 2 gives a COPYDONE (R182). -/
def State.xferDone (s : State) (c : CoreId) (x : XferCmd) : State := if x.comp = 2 then s.copyDone c x else s

/-- A transfer that has nothing to send ends (R182). -/
def State.xferEnd (s : State) (c : CoreId) (x : XferCmd) : State :=
  (s.onCore c fun k => { k with copy := { k.copy with run := none } }).xferDone c x

/-- The faulting element's index written to PROG (R187) (DEDUCED, log 34); a re-issue from it keeps the writes made (R257). -/
def State.writeProg (s : State) (c : CoreId) (x : XferCmd) : State :=
  (s.wr (localKey c (x.blk.toNat % 2 ^ 20 + 0x10)) 8 x.prog).onCore c (·.setMark (.progress (x.blk.toNat % 2 ^ 20)) (s.xferClock c x))

/-- A transfer at a faulting element: once every earlier element has landed, and no earlier transfer is parked, it writes PROG and parks
(R187). -/
def State.copyFault (s : State) (c : CoreId) (x : XferCmd) (scause : BitVec 16) (val : Word) (at_ : Option Word) : State :=
  if (s.getCore c).copy.flights.any (·.isOf x) || (s.getCore c).copy.parked.isSome then s
  else (s.writeProg c x).xferPark c x scause val at_

/-- The next run of a transfer sent, as far as its first faulting element: the run in flight, if an element was sent, and the fault. A
transfer whose elements have all been sent leaves the engine to the next one (R182, R187, R257). -/
def State.sendRun (s : State) (c : CoreId) (x : XferCmd) (total : Nat) : Except CoreId (State × Option Flight × Option UnitStop) :=
  let (t, ps, k, stop) := s.runParts c x (s.runLength c x x.prog) x.prog
  match stop with
  | some (.stall d) => .error d
  | _ =>
    if k = 0 then .ok (t, none, stop)
    else
      let f : Flight := { id := t.nextId, x := x, n := k, parts := groupParts ps, bars := s.runBarriers c x x.prog }
      let y := { x with prog := x.prog + k, snapshot := none }
      let t := t.fresh.onCore c fun q => { q with copy := { q.copy with
        flights := q.copy.flights ++ [f]
        run := if total ≤ y.prog then none else some y
        landing := if total ≤ y.prog then q.copy.landing ++ [y] else q.copy.landing } }
      .ok (t, some f, stop)

/-- The first element of a run that cannot land, with the address that its fault reports (R188). -/
def State.badElem (s : State) (c : CoreId) (f : Flight) : Option (Nat × Word) :=
  (f.parts.filterMap fun p => match s.partFits c f.x p with
    | .error (.fault _ a _) => some (p.elem, a)
    | _ => none).foldl (fun b p => match b with
      | some q => if p.1 < q.1 then some p else b
      | none => some p) none

/-- A run as far as the first of its elements that cannot land (R187, R188). -/
def Flight.upTo (f : Flight) : Option (Nat × Word) → Flight
  | none => f
  | some (e, _) => { f with n := e - f.x.prog, parts := f.parts.filter (·.elem < e) }

/-- A run taken from those in flight; where an element of it cannot land, what its transfer has sent after that is not written, and the
transfer is to fault there (R187, R188; DESIGN CHOICE, log 54). -/
def Core.takeRun (k : Core) (f : Flight) (bad : Option (Nat × Word)) : Core :=
  match bad with
  | none => { k with copy := { k.copy with flights := k.copy.flights.filter (·.id ≠ f.id) } }
  | some (e, a) =>
    ({ k with copy := { k.copy with flights := k.copy.flights.filter fun g => g.id ≠ f.id && !(g.isOf f.x && f.id < g.id) } } : Core).onXfer f
      fun x => { x with prog := e, badDst := some a }

/-- What ends a transfer once the last of its runs has landed: its fault at an element that could not land, which it parks with, behind an
earlier one that is parked as the next to start; else the end of a transfer that has sent everything (R182, R187, R188). -/
def State.settle (s : State) (c : CoreId) (f : Flight) : State :=
  let k := s.getCore c
  if k.copy.flights.any (·.isOf f.x) then s
  else match k.xferOf f with
    | none => s
    | some x =>
      let t := s.onCore c fun k => { k with copy := { k.copy with landing := k.copy.landing.filter fun y => !y.same x } }
      match x.badDst with
      | some a =>
        if k.copy.parked.isNone then (t.writeProg c x).xferPark c x FKind.range.scause a none
        else (t.writeProg c x).onCore c fun k => { k with copy := { k.copy with
          run := k.copy.run.filter fun y => !y.same x
          queue := { x with started := false, badDst := none, block := [] } :: k.copy.queue } }
      | none => if k.copy.landing.any f.isOf then t.xferDone c x else s

/-- A run in flight lands: its bytes are written, its barriers count them, members of an `mcast` outside the launch report their copy,
the arrival tasks of the cores it completes are sent, and a transfer whose last run it is ends (R182, R188, R369). The core is reported
where it lands in the image of a saved one (R336). -/
def State.landRun (s : State) (c : CoreId) (f : Flight) : Except CoreId State :=
  match (f.cores ++ f.bars.filterMap homeCore).find? fun d => (s.getCore d).saved with
  | some d => .error d
  | none =>
    let bad := s.badElem c f
    let t := s.onCore c (·.takeRun f bad)
    let f := f.upTo bad
    let bytes : Int := (f.n * f.x.esize : Nat)
    let ps := s.landPieces c f.x f.parts
    let t := ((f.cores ++ f.bars.filterMap homeCore).eraseDups.foldl State.banked (t.sampleCycles c 9)).framesWrite c ps
    let u := t.unitMade (t.wrPieces ps) .copy f.x.own c f.x.number
    let clk := f.x.own.clk.withWrites (t.newWrites u)
    let t := f.bars.foldl (fun t b => t.counted (t.cbDelta b (-bytes)) b clk) u
    let t := if f.x.kind = .mcast then (s.mcastSplit c f.x).2.foldl (fun t m =>
        t.report 9 m (s.getCore c).launch (BitVec.ofNat 64 f.x.group) (c.setWidth 64)) t else t
    .ok ((t.xferTasks c f).settle c f)

/-- Whether the copy engine of a core may send the next run of the transfer it runs: not while it saves, except the message of an
`mcast` whose snapshot is taken. -/
def State.maySend (s : State) (c : CoreId) (x : XferCmd) : Bool :=
  let k := s.getCore c
  x.started && !k.saved && (!k.saving || x.snapshot.isSome)

/-- Whether the snapshot of the message under way lets no member have it (R368, R369). -/
def State.refusedByAnchor (s : State) (c : CoreId) (x : XferCmd) : Bool :=
  x.kind = .mcast && !mcastOk (x.snapshot.getD 0) (s.getCore c).tenant

/-- The next run of the transfer that a copy engine runs: what is sent, and the state if it does not fault. The bytes of an `mcast` are read
before its message reaches the anchor, so that a fault of the first one's source comes before a refusal of the group (R182, R187, R369). -/
def State.sendNext (s : State) (c : CoreId) (x : XferCmd) : Except CoreId (State × Option Flight) :=
  let total := s.xferTotal c x
  if !s.maySend c x || x.badDst.isSome then .ok (s, none)
  else if total ≤ x.prog then .ok (s.xferEnd c x, none)
  else if x.kind = .mcast && x.snapshot.isNone then .ok (s, none)
  else if s.refusedByAnchor c x then
    match s.xferRead c x (x.src + BitVec.ofNat 64 x.prog) with
    | .error (.stall d) => .error d
    | .error .busy => .ok (s, none)
    | .error (.fault sc v a) => .ok (s.copyFault c x sc v a, none)
    | .ok (t, _) => .ok (t.copyFault c x FKind.absent.scause (BitVec.ofNat 64 x.group) none, none)
  else do
    match (← (s.banked c).sendRun c x total) with
    | (t, none, some (.fault sc v a)) => .ok (t.copyFault c x sc v a, none)
    | (t, f, _) => .ok (t, f)

/-- A copy engine sends the next run of its transfer, which lands later (R182, R257). -/
def State.sendTry (s : State) (c : CoreId) : Except CoreId State :=
  match (s.getCore c).copy.run with
  | none => .ok s
  | some x => do
    let (t, _) ← s.sendNext c x
    .ok t

/-- Run `id` of a copy engine lands, unless an earlier run of its transfer has a byte of it to write (R183, R257). -/
def State.landTry (s : State) (c : CoreId) (id : Nat) : Except CoreId State :=
  let fs := (s.getCore c).copy.flights
  match fs.find? (·.id = id) with
  | none => .ok s
  | some f =>
    let places := fun (g : Flight) => (s.landPieces c g.x g.parts).map fun p => ({ key := p.1, len := p.2.length } : Piece)
    if (fs.takeWhile (·.id ≠ id)).any fun g => g.isOf f.x && piecesMeet (places g) (places f) then .ok s else s.landRun c f

/-- A run of a copy engine delivered: the oldest in flight, or where there is none the next one of its transfer, which is sent and lands
at once, with the fault that ends it (R182, R187). -/
def State.copyTry (s : State) (c : CoreId) : Except CoreId State :=
  match (s.getCore c).copy.flights, (s.getCore c).copy.run with
  | f :: _, _ => s.landRun c f
  | [], none => .ok s
  | [], some x => do
    match (← s.sendNext c x) with
    | (t, none) => .ok t
    | (t, some f) => do
      let u ← t.landRun c f
      if f.n < s.runLength c x x.prog then u.sendTry c else .ok u

/-- `COPY_RUN_DELIVERED`: a run of the copy engine of a core is delivered (R182-R187, R192, R369). -/
def execCopyRunDelivered (c : CoreId) (s : State) : Res := .next (tried s (s.copyTry c))

/-- `COPYDONE`: at a boundary of the slot, with INTRAP clear, its oldest queued delivery enters the transfer's handler (R110, R112,
R186). The entry is an acquire (R182). -/
def execCopydone (o : SlotId) (s : State) : Res :=
  .next <|
    let l := s.getSlot o
    match l.cdq with
    | [] => s
    | d :: ds =>
      if l.mode ≠ .user || l.st ≠ .ready || l.intrap || !l.asyncs.isEmpty || !s.mayTake o then s
      else
        let t := (s.cancelWaits o).onSlot o fun l => { l with cdq := ds, xferid := d.xfer }
        ((t.enterUser o cCOPYDONE (d.xfer.setWidth 64) l.pc d.handler).acquires o d.clk).acquired o.core

/-- `ASYNC_SUPERVISOR_CAUSE`: at a boundary of a user-mode slot, its oldest pending cause is taken (R111, R112). A parked command
whose fault it is waits for the runtime from then on (R169, R174, R187). -/
def execAsyncSupervisorCause (o : SlotId) (s : State) : Res :=
  .next <|
    let l := s.getSlot o
    match l.asyncs with
    | [] => s
    | a :: as =>
      if l.mode ≠ .user || l.st ≠ .ready || !s.mayTake o then s
      else
        let t := (s.cancelWaits o).onSlot o fun l => { l with asyncs := as }
        let t := t.onCore o.core fun c =>
          match a.engine with
          | some .matrix => { c with mat := { c.mat with parked := c.mat.parked.map fun m => { m with taken := true } } }
          | some .copy => { c with copy := { c.copy with parked := c.copy.parked.map fun x => { x with taken := true } } }
          | none => c
        t.takeSup o a.scause a.val l.pc

end Sys2Proof.Machine
end

