-- ==== Sys2Proof/Machine/Vault.lean ====
section
/-! DEFINITION. The vault channel of a core and the matrix-vector units of the vaults (R54, R177-R180, R302-R304). -/

namespace Sys2Proof.Machine

open Sys2Proof

/-! ### The block -/

/-- The fields of a `vgemv` block (R178). -/
def GemvCmd.waddr (g : GemvCmd) : Word := BitVec.ofNat 64 (fieldOf g.block 0 8)
def GemvCmd.rows (g : GemvCmd) : Nat := fieldOf g.block 8 4
def GemvCmd.cols (g : GemvCmd) : Nat := fieldOf g.block 0x0C 4
def GemvCmd.xaddr (g : GemvCmd) : Word := BitVec.ofNat 64 (fieldOf g.block 0x10 8)
def GemvCmd.yaddr (g : GemvCmd) : Word := BitVec.ofNat 64 (fieldOf g.block 0x18 8)
def GemvCmd.fmt (g : GemvCmd) : Nat := bits (fieldOf g.block 0x20 8) 0 3
def GemvCmd.tbl (g : GemvCmd) : BitVec 3 := BitVec.ofNat 3 (bits (fieldOf g.block 0x20 8) 3 3)
def GemvCmd.acc (g : GemvCmd) : Bool := bits (fieldOf g.block 0x20 8) 6 1 = 1
def GemvCmd.comp (g : GemvCmd) : Nat := bits (fieldOf g.block 0x20 8) 7 2
def GemvCmd.caddr (g : GemvCmd) : Word := BitVec.ofNat 64 (fieldOf g.block 0x28 8)

/-- The row pitch in elements (R302). -/
def GemvCmd.pitch (g : GemvCmd) : Nat := 32 * ((g.cols + 31) / 32)

/-- The width of a weight in bytes, XF8 apart (R302). -/
def GemvCmd.width (g : GemvCmd) : Nat := if g.fmt = 3 then 2 else 1

/-- The number format of the weights; XF8 elements are E4M3 bytes (R178). -/
def GemvCmd.format (g : GemvCmd) : Fmt := if g.fmt = 1 then fmtE5m2 else if g.fmt = 3 then fmtBf16 else fmtE4m3

/-- The page format that holds the weights (R296, R301). -/
def GemvCmd.page (g : GemvCmd) : Nat := if g.fmt = 0 then 1 else if g.fmt = 1 then 2 else if g.fmt = 2 then 5 else 3

/-- The bytes of W from WADDR (R302). -/
def GemvCmd.span (g : GemvCmd) : Nat :=
  if g.fmt = 2 then 1024 * ((g.rows * g.pitch + 1023) / 1024) else g.width * g.rows * g.pitch

/-- The bytes of W, from WADDR, that hold row `r`: the first and the one after the last (R302). -/
def GemvCmd.rowBytes (g : GemvCmd) (r : Nat) : Nat × Nat :=
  if g.fmt = 2 then (1024 * (r * g.pitch / 1024), 1024 * ((r * g.pitch + g.pitch - 1) / 1024) + 1024)
  else (g.width * r * g.pitch, g.width * (r + 1) * g.pitch)

/-- Whether x is BF16: through window 3 (R178). -/
def GemvCmd.xBf16 (g : GemvCmd) : Bool := bits g.xaddr.toNat 20 4 = 3

/-- The width of an element of x. -/
def GemvCmd.xWidth (g : GemvCmd) : Nat := if g.xBf16 then 2 else 4

/-- The physical address of a byte of W. -/
def GemvCmd.pa (g : GemvCmd) (off : Nat) : Nat :=
  let a := g.waddr.toNat + off
  (tabGet? g.pages (a / 65536)).getD 0 + a % 65536

/-- The vault that holds the first byte of row `r` (R304). -/
def GemvCmd.rowVault (g : GemvCmd) (r : Nat) : VaultId := BitVec.ofNat 14 (bits (g.pa (g.rowBytes r).1) 28 14)

/-! ### The checks of a block (R179) -/

/-- The place of x or y in the local memory of core `c`: the form of its address, PLACE, WINDOW, ALIGN, then RANGE for its extent. -/
def gemvLocal (c : CoreId) (a : Word) (win width len : Nat) : Acc Unit :=
  match addrForm c a with
  | .error k => accFault k a
  | .ok (.virt _) => accFault .place a
  | .ok (.loc cc w off) =>
    if cc ≠ c then accFault .place a
    else if w ≠ win then accFault .window a
    else if off % width ≠ 0 then accFault .align a
    else if localSize < off + len then accFault .range a
    else .ok ()

/-- The addresses at which the 64 KiB of W begin, the first one at WADDR. -/
def GemvCmd.pageAddrs (g : GemvCmd) : List Word :=
  let first := g.waddr.toNat / 65536
  (List.range ((g.waddr.toNat + g.span - 1) / 65536 + 1 - first)).map fun i =>
    if i = 0 then g.waddr else BitVec.ofNat 64 ((first + i) * 65536)

/-- The pages of W translated for core `c`, with their leaf entries; each use is one of the core's TLB (R179, R297, R298). -/
def gemvPages (c : CoreId) (s : State) : List Word → Acc (State × List (Word × Nat × Word))
  | [] => .ok (s, [])
  | ea :: l =>
    match s.unitPlace c ea 1 .vc with
    | .error sc => pageFault sc (walkVal sc ea) ea
    | .ok (s, u) => do
      let (s, ps) ← gemvPages c s l
      .ok (s, (ea, u.key - ea.toNat % 65536, u.leaf.getD 0) :: ps)

/-- LAYOUT of the pages and rows of W (R179, R301, R302). -/
def gemvLayout (s : State) (g : GemvCmd) (ps : List (Word × Nat × Word)) : Acc Unit :=
  match ps.find? fun p => !p.2.2.getLsbD 9 || bits p.2.2.toNat 6 3 ≠ g.page || !s.isDram p.2.1 with
  | some p => pageFault FKind.layout.scause p.1 p.1
  | none =>
    match (List.range g.rows).find? fun r =>
        let (lo, hi) := g.rowBytes r
        let a := g.waddr.toNat
        (List.range ((a + hi - 1) / 65536 + 1 - (a + lo) / 65536)).any fun i =>
          bits ((tabGet? g.pages ((a + lo) / 65536 + i)).getD 0) 28 14 ≠ (g.rowVault r).toNat with
    | some r =>
      let ea := g.waddr + BitVec.ofNat 64 (g.rowBytes r).1
      pageFault FKind.layout.scause ea ea
    | none => .ok ()

/-- WADDR as R179 checks it: NONCANON and RSVD, then PLACE for local memory. -/
def gemvWaddr (c : CoreId) (a : Word) : Acc Unit :=
  match addrForm c a with
  | .ok (.virt _) => .ok ()
  | .ok (.loc _ _ _) => accFault .place a
  | .error k => accFault k a

/-- Whether the fields of a block are in range (R178, R179). -/
def GemvCmd.fieldsOk (g : GemvCmd) : Bool :=
  g.rows ≠ 0 && g.rows ≤ 65536 && g.cols ≠ 0 && g.cols ≤ 8192 && g.fmt ≤ 3 && g.comp ≤ 1 && bits (fieldOf g.block 0x20 8) 9 55 = 0 &&
    fieldOf g.block 0x38 8 = 0

/-- A command's block checked as R179 item 1 orders, and the state in which its pages are translated. -/
def GemvCmd.checked (g : GemvCmd) (s : State) : Acc (State × GemvCmd) := do
  if !g.fieldsOk then accFault .block g.blk
  gemvWaddr g.core g.waddr
  if g.waddr.toNat % (if g.fmt = 2 then 1024 else 32 * g.width) ≠ 0 then accFault .align g.waddr
  let (s, ps) ← gemvPages g.core s g.pageAddrs
  let g := { g with pages := ps.map fun p => (p.1.toNat / 65536, p.2.1) }
  gemvLayout s g ps
  gemvLocal g.core g.xaddr (if g.xBf16 then 3 else 0) g.xWidth (g.xWidth * g.cols)
  gemvLocal g.core g.yaddr 0 4 (4 * g.rows)
  if g.comp = 1 then
    let _ ← s.barrierAt g.core g.caddr
    .ok (s, g)
  else .ok (s, g)

/-- A command with the block that it has read. -/
def GemvCmd.withBlock (g : GemvCmd) (bs : List Byte) : GemvCmd :=
  { g with block := bs, prog := fieldOf bs 0x30 8, prog0 := fieldOf bs 0x30 8 }

/-- The fault of a unit's access as the instruction that makes it takes it, precisely. -/
def State.precisely (s : State) {α : Type} : Acc α → Body α
  | .ok r => .ok r
  | .error (.fault sc v a) => .error (if s.misses s.cur.core a then .walked sc v else .sup sc v)
  | .error _ => waitHere s 6

/-- The command of a block at issue, checked, and the state in which its pages are translated (R168, R179). -/
def gemvCheck (s : State) (a : Word) : Body (State × GemvCmd) := do
  let off ← blockOffset s a 64
  let bs ← readOwn s off 64
  let g : GemvCmd :=
    { core := s.cur.core, own := s.owner, blk := a, block := [], pages := [], prog := 0, prog0 := 0, started := false, xbuf := [],
      codes := 0, ev := Events.zero }
  s.precisely ((g.withBlock bs).checked s)

/-! ### The channel -/

/-- The commands at the head of a core's channel that the units take now (R304): `vgemv` into the queue of its row's vault. -/
def State.pump (s : State) (c : CoreId) : Nat → State
  | 0 => s
  | n + 1 =>
    match (s.getCore c).vch with
    | .gemv g :: l =>
      let u := if g.prog < g.rows then g.rowVault g.prog else vaultOf c
      if 8 ≤ (s.getUnit u).queue.length then s
      else ((s.onCore c fun k => { k with vch := l }).onUnit u fun v => { v with queue := v.queue ++ [g] }).pump c n
    | _ => s

/-- The channels of all cores pumped, when a unit's queue has room again. -/
def State.pumpAll (s : State) : State := s.cores.foldl (fun s c => s.pump c.1 2) s

/-- `vgemv` (R178, R179). -/
def execVgemv (o : VgemvOp) (s : State) : Res :=
  finish s do
    issueRule s [(.x o.a, o.wa)] []
    let (s, g) ← gemvCheck s (s.xv o.a + sx o.lit)
    if 2 ≤ s.core.vch.length then waitHere s 5
    else
      let t := s.modCore fun c => { c with vch := c.vch ++ [.gemv g], gemvs := c.gemvs ++ [g.own] }
      .ok ((t.pump s.cur.core 2).advance 8)

/-- `vcodes`: the table is written in the core at once, and sent behind the core's earlier vault commands (R177). -/
def execVcodes (o : RAB) (s : State) : Res :=
  finish s do
    issueRule s [(.x o.a, o.wa), (.x o.b, o.wb)] []
    let a := s.xv o.a
    if 7 < a.toNat then trapIllegal s
    else if 2 ≤ s.core.vch.length then waitHere s 5
    else
      let id : BitVec 3 := a.setWidth 3
      .ok ((s.modCore fun c =>
        { c with codes := c.codes.setIfInBounds id.toNat (s.xv o.b), vch := c.vch ++ [.codes s.owner id (s.xv o.b)] }).advance 4)

/-- `VCODES_ARRIVAL`: the table at the head of a core's channel reaches the unit of its vault (R177). -/
def execVcodesArrival (c : CoreId) (s : State) : Res :=
  .next <|
    match (s.getCore c).vch with
    | .codes _ id w :: l =>
      ((s.onCore c fun k => { k with vch := l }).onUnit (vaultOf c) fun v =>
        { v with codes := v.codes.setIfInBounds id.toNat w }).pump c 2
    | _ => s

/-! ### The units -/

/-- The lanes of x as FP32 patterns (R179). -/
def GemvCmd.xLoad (g : GemvCmd) (bs : List Byte) : List Word32 :=
  (List.range g.cols).map fun j =>
    let v := fieldOf bs (g.xWidth * j) g.xWidth
    if g.xBf16 then Window.widen .bf16 v else BitVec.ofNat 32 v

/-- A command of a unit is over: its events count, and its owner no longer waits for it (R56, R136). -/
def State.gemvEnd (s : State) (u : VaultId) (g : GemvCmd) : State :=
  ((s.onUnit u fun v => { v with run := none }).onCore g.core fun k =>
    ({ k with gemvs := k.gemvs.erase g.own } : Core).countEvents g.ev).sampleCycles g.core 10

/-- The offset in local memory that an own-local address names. -/
def localOff (a : Word) : Nat := a.toNat % 2 ^ 20

/-- A command stopped by an access: abandoned with its fault (R180); a re-issue from PROG keeps the writes made (R257). -/
def State.gemvStop (s : State) (u : VaultId) (g : GemvCmd) : UnitStop → State
  | .fault sc v a =>
    let t := (s.gemvEnd u g).onCore g.core (·.setMark (.progress (localOff g.blk)) (Clock.zero.withWrites g.wrote))
    (t.sampleMiss g.core a).unitFault g.core g.own sc v none
  | _ => s

/-- The oldest command of a unit whose owner's stores have been acknowledged is at the head of its queue, and none runs (R168,
R304). -/
def State.unitReady (s : State) (u : VaultId) : Option GemvCmd :=
  let v := s.getUnit u
  if v.run.isSome then none else v.queue.head?.filter fun g => s.ownerReleased g.core g.own

/-- A command at its first start: the unit reads the whole block (R168), and where a word other than PROG has changed since the issue, checks
it again, pages included; a failure abandons the command (R170, R180) (DEDUCED, log 32). -/
def GemvCmd.start (g : GemvCmd) (s : State) : Acc (State × GemvCmd) :=
  if g.started then .ok (s, g)
  else do
    let bs ← s.ownBytes g.core (localOff g.blk) 64
    let h := { g.withBlock bs with started := true }
    let h := { h with wrote := if h.prog = 0 then [] else ((s.getCore g.core).markOf (.progress (localOff g.blk))).writes }
    if bs.take 0x30 = g.block.take 0x30 && bs.drop 0x38 = g.block.drop 0x38 then .ok (s, h) else h.checked s

/-- `VGEMV_START`: a unit takes the oldest command of its queue and loads x; one with no row left completes (R168, R179, R304). The code
table is kept from the first start. -/
def execVgemvStart (u : VaultId) (s : State) : Res :=
  .next <|
    match s.unitReady u with
    | none => s
    | some g0 =>
      let t := (s.onUnit u fun v => { v with queue := v.queue.drop 1, run := some g0 }).pumpAll.banked g0.core
      match g0.start t with
      | .error e => t.gemvStop u g0 e
      | .ok (t, g) =>
        if g.rows ≤ g.prog then t.gemvEnd u g
        else match t.ownBytes g.core (localOff g.xaddr) (g.xWidth * g.cols) with
          | .error e => t.gemvStop u g e
          | .ok bs =>
            let codes := if g0.started then g.codes else (t.getUnit u).codes[g.tbl.toNat]
            t.onUnit u fun v => { v with run := some { g with xbuf := g.xLoad bs, codes := codes } }

/-- The address of a byte of W. -/
def GemvCmd.addr (g : GemvCmd) (off : Nat) : Word := g.waddr + BitVec.ofNat 64 off

/-- The decoded frames of a row of XF8 weights, all of them checked, padding included (R61, R302). -/
def GemvCmd.frames (g : GemvCmd) (s : State) : List Nat → Acc (List (Nat × List Nat))
  | [] => .ok []
  | f :: fs => do
    let es ← s.readFrame (g.addr (1024 * f)) (g.pa (1024 * f)) g.codes
    let rest ← g.frames s fs
    .ok ((f, es) :: rest)

/-- The weights at a list of byte offsets of W (R302). -/
def GemvCmd.plainWeights (g : GemvCmd) (s : State) : List Nat → Acc (List FVal)
  | [] => .ok []
  | off :: l => do
    let bs ← s.accessRead (g.addr off) (g.pa off) g.width
    let ws ← g.plainWeights s l
    .ok (g.format.decode (leNat bs) :: ws)

/-- The weights of row `r`, columns 0 to COLS - 1 (R302). -/
def GemvCmd.weights (g : GemvCmd) (s : State) (r : Nat) : Acc (List FVal) :=
  if g.fmt = 2 then do
    let first := r * g.pitch / 1024
    let fs ← g.frames s ((List.range ((r * g.pitch + g.pitch - 1) / 1024 + 1 - first)).map (first + ·))
    .ok ((List.range g.cols).map fun j =>
      let n := r * g.pitch + j
      fmtE4m3.decode (((tabGet? fs (n / 1024)).getD []).getD (n % 1024) 0))
  else g.plainWeights s ((List.range g.cols).map fun j => g.width * (r * g.pitch + j))

/-- y after the chunks of 32 columns, in increasing order, with one rounding each (R54). -/
def gemvChunks (ws : List FVal) (xs : List FVal) : Nat → Nat → Rounded → Rounded
  | 0, _, y => y
  | n + 1, c, y =>
    let ps := ((ws.drop (32 * c)).take 32).zip ((xs.drop (32 * c)).take 32)
    let r := fp32.dot ps [fp32.decode y.bits]
    gemvChunks ws xs n (c + 1) { bits := r.bits, ev := y.ev.plus r.ev }

/-- Row `r` of y (R54, R179). -/
def GemvCmd.row (g : GemvCmd) (s : State) (r : Nat) : Acc Rounded := do
  let ws ← g.weights s r
  let y ← (if g.acc then do
      let bs ← s.ownBytes g.core (localOff g.yaddr + 4 * r) 4
      .ok (leNat bs)
    else .ok 0)
  .ok (gemvChunks ws (g.xbuf.map fun w => fp32.decode w.toNat) ((g.cols + 31) / 32) 0 { bits := y, ev := Events.zero })

/-- The home of the count barrier of a command, the block's CADDR (R178). -/
def GemvCmd.barrier (g : GemvCmd) (s : State) : Option Nat :=
  if g.comp = 1 then
    match s.target g.core g.caddr 16 with
    | .ok (.loc c _ off) => some (localKey c off)
    | _ => none
  else none

/-- After a row: the next row of this vault, a handoff to the vault of the next row once its queue has room, or the end with the
barrier's delta (R179, R304). -/
def State.gemvNext (s : State) (u : VaultId) (g : GemvCmd) : State :=
  if g.rows ≤ g.prog then
    let s := match g.barrier s with
      | some key => (s.sampleHome key false).counted ((s.sampleHome key false).cbDelta key (-(4 * ((g.rows : Int) - g.prog0)))) key (g.own.clk.withWrites g.wrote)
      | none => s
    s.gemvEnd u g
  else
    let v := g.rowVault g.prog
    if v = u then s.onUnit u fun w => { w with run := some g }
    else if (s.getUnit v).queue.length < 8 then
      (s.onUnit u fun w => { w with run := none }).onUnit v fun w => { w with queue := w.queue ++ [{ g with xbuf := [] }] }
    else s.onUnit u fun w => { w with run := some g }

/-- The next row of command `g` computed and written, or the command handed on (R54, R179, R180, R304). -/
def State.gemvRow (s : State) (u : VaultId) (g : GemvCmd) : State :=
  if g.rowVault g.prog ≠ u then s.gemvNext u g
  else match g.row s g.prog with
    | .error e => s.gemvStop u g e
    | .ok y =>
      let t := (s.banked g.core).wrPieces [(localKey g.core (localOff g.yaddr + 4 * g.prog), natBytes 4 y.bits)]
      let t := t.wrPieces [(localKey g.core (localOff g.blk + 0x30), natBytes 8 (g.prog + 1))]
      (s.unitMade t .vault g.own g.core 0).gemvNext u
        { g with prog := g.prog + 1, ev := g.ev.plus y.ev, wrote := g.wrote ++ s.newWrites t }

/-- The next row of the command that a unit runs, if it runs one, or its handoff; the core is reported where the barrier's delta goes to
the image of a saved one (R54, R179, R180, R304, R336). -/
def State.gemvTry (s : State) (u : VaultId) : Except CoreId State :=
  match (s.getUnit u).run with
  | none => .ok s
  | some g =>
    match (g.barrier s).bind homeCore with
    | some c => if g.rows ≤ g.prog + 1 && (s.getCore c).saved then .error c else .ok (s.gemvRow u g)
    | none => .ok (s.gemvRow u g)

/-- `VGEMV_ROW`: the unit computes and writes the next row, or hands the command on; FRAME and poison abandon it (R54, R179,
R180, R304). -/
def execVgemvRow (u : VaultId) (s : State) : Res := .next (tried s (s.gemvTry u))

end Sys2Proof.Machine
end

