-- ==== Sys2Proof/Machine/Wire.lean ====
section
/-! DEFINITION. The roots of the wire barriers and what comes back from them (R140-R144, R371, R372): WB_ROOT_ARRIVAL,
WB_JOIN_ACK, WB_PHASE_COMPLETION and WBTWAIT_EXPIRY. -/

namespace Sys2Proof.Machine

open Sys2Proof

/-- The root of a barrier of a partition; one that no crew has used collects a phase whose number the spec leaves open
(DESIGN CHOICE, log 17). -/
def State.wbRoot (s : State) (tenant : BitVec 12) (bar : BitVec 4) : WbRoot :=
  (s.wbroots.find? fun r => r.tenant = tenant && r.bar = bar).getD
    { tenant := tenant, bar := bar, launch := 0, op := 0, phase := (Config.firstPhase s.tick).toNat, members := [], arrivals := [],
      values := [] }

/-- The state with a root replaced. -/
def State.putRoot (s : State) (r : WbRoot) : State :=
  { s with wbroots := (s.wbroots.filter fun q => q.tenant ≠ r.tenant || q.bar ≠ r.bar) ++ [r] }

/-- The last four values of completed phases, with a new one (R140). -/
def lastFour (l : List (Nat × Word)) (p : Nat) (v : Word) : List (Nat × Word) := ((p, v) :: l).take 4

/-- The sum of two lists of counters, saturating at 2^48 - 1 (R144, R372). -/
def addCounters (a b : List Nat) : List Nat :=
  (List.range 16).map fun i => min (a.getD i 0 + b.getD i 0) (2 ^ 48 - 1)

/-- The phases that can complete: every member of the phase has arrived (R142). Each member core is told. -/
def State.wbComplete (s : State) (tenant : BitVec 12) (bar : BitVec 4) : Nat → State
  | 0 => s
  | n + 1 =>
    let r := s.wbRoot tenant bar
    let got := r.arrivals.filter (·.phase = r.phase)
    if got.isEmpty || r.members.any (fun m => m.first ≤ r.phase && !got.any (·.core = m.core)) then s
    else
      let v := match got.map (·.val) with
        | [] => 0
        | v :: l => l.foldl (wbCombine r.op) v
      let counters := got.foldl (fun c a => addCounters c a.counters) (List.replicate 16 0)
      let s := r.members.foldl (fun s m =>
        State.fresh { s with
          wbdones := s.wbdones ++ [{ id := s.nextId, core := m.core, launch := r.launch, bar := bar, phase := r.phase, val := v,
                                     counters := counters }] }) s
      (s.putRoot { r with phase := r.phase + 1, arrivals := r.arrivals.filter (·.phase ≠ r.phase),
                          values := lastFour r.values r.phase v }).wbComplete tenant bar n

/-- A join at the root (R141): with another operation than the crew's it is turned away; else it takes effect for the phase now
collecting, or for the next one once an arrival for that phase has reached the root. -/
def State.wbRootJoin (s : State) (m : WbMsg) (op : BitVec 2) (slot : SlotNo) (gen : BitVec 16) (pc : Off) : State :=
  let r := s.wbRoot m.tenant m.bar
  let r := if r.members.isEmpty then { r with launch := m.launch, op := op } else r
  let first := if r.arrivals.any (·.phase = r.phase) then r.phase + 1 else r.phase
  let ok := r.op = op
  let s := if r.members.isEmpty then { s with wires := s.wires.filter fun e => e.1.1 ≠ m.tenant || e.1.2.1 ≠ m.bar } else s
  let s := s.putRoot (if ok then { r with members := r.members ++ [{ core := m.core, first := first }] } else r)
  State.fresh { s with
    wbacks := s.wbacks ++ [{ id := s.nextId, core := m.core, bar := m.bar, slot := slot, gen := gen, pc := pc, ok := ok, op := op,
                             first := first, done := r.phase, values := r.values }] }

/-- Whether message `m` may reach its root now: a core's messages of one launch for one barrier in the order of issue, and a join only when
no other launch holds the number (R371). -/
def State.wbMayReach (s : State) (m : WbMsg) : Bool :=
  (s.wbmsgs.all fun q => q.core ≠ m.core || q.bar ≠ m.bar || q.launch ≠ m.launch || m.id ≤ q.id) &&
    (match m.kind with
     | .join _ _ _ _ => (s.wbRoot m.tenant m.bar).launch = m.launch || (s.wbRoot m.tenant m.bar).members.isEmpty
     | _ => true)

/-- `WB_ROOT_ARRIVAL`: message `n` reaches the root of its barrier (R141, R142, R371, R372). -/
def execWbRootArrival (n : Nat) (s : State) : Res :=
  .next <|
    match s.wbmsgs.find? (·.id = n) with
    | none => s
    | some m =>
      if !s.wbMayReach m then s
      else
        let s := { s with wbmsgs := s.wbmsgs.filter (·.id ≠ n) }
        match m.kind with
        | .join op slot gen pc => s.wbRootJoin m op slot gen pc
        | .arrive p v counters _ =>
          let r := s.wbRoot m.tenant m.bar
          (s.putRoot { r with arrivals := r.arrivals ++ [{ core := m.core, phase := p, val := v, counters := counters }] }).wbComplete
            m.tenant m.bar (r.arrivals.length + 1)
        | .leave =>
          let r := s.wbRoot m.tenant m.bar
          (s.putRoot { r with members := r.members.filter (·.core ≠ m.core) }).wbComplete m.tenant m.bar r.arrivals.length

/-- Whether the context that sent a join still waits at it. -/
def State.joinWaits (s : State) (a : WbJoinAck) : Bool :=
  let l := s.getSlot { core := a.core, slot := a.slot }
  l.gen = a.gen && l.pc = a.pc && l.wait.isSome && (l.st = .ready || l.st = .held)

/-- `WB_JOIN_ACK`: the root's answer `n` makes its core a member; a core whose context no longer waits leaves again (R141)
(DEDUCED, log 25). -/
def execWbJoinAck (n : Nat) (s : State) : Res :=
  .next <|
    match s.wbacks.find? (·.id = n) with
    | none => s
    | some a =>
      if (s.getCore a.core).saved then s
      else
        let t := { s with wbacks := s.wbacks.filter (·.id ≠ n) }
        let waits := s.joinWaits a
        if a.ok then
          let m : WbMember :=
            { launch := (s.getCore a.core).launch, op := a.op, joined := if waits then setBit 0 a.slot.toNat true else 0, next := a.first,
              ctxNext := Vector.replicate 16 a.first, arrivals := [], lead := 0, done := a.done, values := a.values, recs := [] }
          (t.onCore a.core fun k => { k with wb := k.wb.set a.bar.toNat (some m) }).wbLeaveCore a.core a.bar.toFin
        else if waits then
          t.onSlot { core := a.core, slot := a.slot } fun l => { l with joinAns := some { bar := a.bar, ok := false } }
        else t

/-- The counter record of a completed phase (R144). -/
def counterBytes (counters : List Nat) : List Byte := (List.range 16).flatMap fun i => natBytes 8 (counters.getD i 0)

/-- A completion learned by a member core (R142-R144): the records of `ctrg` first, then the lead, the phases done and the last
four values; the next arrivals are sent, or the core leaves. A phase that the core has joined after is known to it already (R141, R143). -/
def State.wbLearn (s : State) (d : WbDone) (m : WbMember) : State :=
  let recs := m.recs.filter (·.1 = d.phase)
  let s := (if recs.isEmpty then s else s.banked d.core).wrPieces (recs.map fun r => (localKey d.core r.2.toNat, counterBytes d.counters))
  let m := { m with
    lead := if m.next - m.lead ≤ d.phase && d.phase < m.next then m.lead - 1 else m.lead
    done := max m.done (d.phase + 1)
    values := if d.phase < m.done then m.values else lastFour m.values d.phase d.val
    recs := m.recs.filter (·.1 ≠ d.phase) }
  let s := s.onCore d.core fun k => { k with wb := k.wb.set d.bar.toNat (some m) }
  (s.wbSend d.core d.bar.toFin 3).wbLeaveCore d.core d.bar.toFin

/-- Whether a completion reaches its core now: after the core's earlier completions and join acknowledgements of the barrier; one for a
saved core goes to its image (R336). -/
def State.wbDoneReady (s : State) (d : WbDone) : Bool :=
  !(s.getCore d.core).saved && (s.wbdones.all fun q => q.core ≠ d.core || q.bar ≠ d.bar || d.id ≤ q.id) &&
    s.wbacks.all fun a => a.core ≠ d.core || a.bar ≠ d.bar || d.id ≤ a.id

/-- `WB_PHASE_COMPLETION`: completion `n` reaches its core, in the order of the phases; a core that is a member of the crew no more learns
nothing (R142, R144, R371). -/
def execWbPhaseCompletion (n : Nat) (s : State) : Res :=
  .next <|
    match s.wbdones.find? (·.id = n) with
    | none => s
    | some d =>
      if !s.wbDoneReady d then s
      else
        let t := { s with wbdones := s.wbdones.filter (·.id ≠ n) }
        match (s.getCore d.core).wb[d.bar.toFin].filter fun m => m.launch = d.launch with
        | none => t
        | some m => t.wbLearn d m

/-- `WBTWAIT_EXPIRY` of a slot: its `wbtwait` ends with d ← 0 and no acquire (R143); a completion that the core has learned by
then gives 1 instead. -/
def execWbtwaitExpiry (o : SlotId) (s : State) : Res :=
  .next <|
    match (s.getSlot o).wait with
    | some { kind := 2, obj := bar, ph := p, dest := some d } =>
      match (s.getCore o.core).member (bar.setWidth 4).toFin with
      | some m => if p.toNat < m.done then s else ((s.sampleCycles o.core 5).onSlot o fun l => l.setX d 0).complete o
      | none => s
    | _ => s

end Sys2Proof.Machine
end

