-- ==== Sys2Proof/Machine/Preempt.lean ====
section
/-! DEFINITION. Pre-emption (R332-R342): slice and wait-budget expiry, failure reports, saving a core, its save area and save
image (R335-R338), traffic for a saved core (R336), the report of a saved launch (R340, R342) and its resume (R339). -/

namespace Sys2Proof.Machine

open Sys2Proof

/-! ### Why a launch is pre-empted -/

/-- The launch that runs on a core, or saves itself there. -/
def State.launchOn (s : State) (c : CoreId) : Option Launch :=
  s.launcher.launches.find? fun l => (l.stage = .running || l.stage = .saving) && l.cores.contains c

/-- The rank of a core in a launch (R317). -/
def Launch.rank (l : Launch) (c : CoreId) : Nat := l.cores.idxOf c

/-- A launch to be pre-empted for a reason, the first to be reported (R342). -/
def State.reportLaunch (s : State) (n : Nat) (why : SaveReason) (rank : Nat) : State :=
  s.onLaunch n fun l => if l.report.isNone then { l with report := some (why, rank) } else l

/-- Whether an accepted launch of the tenant may start but lacks clusters, so that a slice expiry pre-empts `l` (R334). -/
def State.contested (s : State) (l : Launch) : Bool :=
  s.launcher.launches.any fun b =>
    b.record.tenant = l.record.tenant && s.mayStart b && (s.freeClusters b.record.tenant).length < b.record.nclus

/-- `SLICE_EXPIRY` on core `c`: the launch is to be pre-empted, or CR.SLICE reloads on all its cores (R332, R334). -/
def execSliceExpiry (c : CoreId) (s : State) : Res :=
  .next <|
    match s.launchOn c with
    | none => s
    | some l =>
      if l.stage ≠ .running || (s.getCore c).slots.toList.all (fun t => t.st = .free) then s
      else if s.contested l then s.reportLaunch l.num .slice (l.rank c)
      else l.cores.foldl (fun s d => s.onCore d fun k => { k with slice := l.record.slice }) s

/-- `WAIT_BUDGET_EXPIRY` on core `c`: the launch is to be pre-empted with a stalemate snapshot (R333, R340). -/
def execWaitBudgetExpiry (c : CoreId) (s : State) : Res :=
  .next <|
    match s.launchOn c with
    | none => s
    | some l =>
      if l.stage ≠ .running || l.record.waitbud = 0 || (s.getCore c).slots.toList.all (fun t => t.st = .free || t.wait.isNone) then s
      else s.reportLaunch l.num .stalemate (l.rank c)

/-- Whether what a core has issued is complete: its accesses, but a wait for a barrier's phase, and its engine and unit commands, but those
behind a parked one (R117; DESIGN CHOICE, log 38). -/
def State.quiet (s : State) (c : CoreId) : Bool :=
  let k := s.getCore c
  (s.reqs.all fun r => r.core ≠ c || (match r.op with
    | .cbwait _ _ _ _ => true
    | _ => false)) &&
    k.mat.run.isNone && (k.mat.queue.isEmpty || k.mat.parked.isSome) && k.copy.run.isNone && k.copy.flights.isEmpty &&
    k.copy.landing.isEmpty && (k.copy.queue.isEmpty || k.copy.parked.isSome) && k.vch.isEmpty && k.gemvs.isEmpty && k.tree.isEmpty

/-- `FAILURE_REPORT` of report `n`: the launcher is to pre-empt the launch, or, where it saves already, reports it failed; a second
report adds nothing (R342; DESIGN CHOICE, log 38). A halt is reported, to the host too, once what its core has issued is complete, or the
core has saved (R117, R385). -/
def execFailureReport (n : Nat) (s : State) : Res :=
  .next <|
    match s.fails.find? (·.id = n) with
    | none => s
    | some f =>
      let l? := s.launcher.launches.find? fun l =>
        l.record.id = f.launch && (l.stage = .running || l.stage = .saving) && l.cores.contains f.core
      if f.halt.isSome && l?.isSome && !s.quiet f.core && !(s.getCore f.core).saved then s
      else
        let t := { s with fails := s.fails.filter (·.id ≠ n) }
        let t := f.halt.elim t fun h => t.report 2 f.core f.launch h.1 h.2
        l?.elim t fun l =>
          t.onLaunch l.num fun l =>
            match l.report with
            | some (.failure, _) => l
            | _ => { l with report := some (.failure, l.rank f.core) }

/-- The reason that an event names. -/
def saveReason : PreemptReason → SaveReason
  | .slice => .slice
  | .stalemate => .stalemate
  | .leaving => .leaving
  | .failure => .failure

/-- A core told to save itself: dispatch stops, and every slot is taken out of the wait it is in (R335). A join that its root has
not seen is withdrawn (DEDUCED, log 40). -/
def State.startSaving (s : State) (c : CoreId) : State :=
  let t := (List.finRange 16).foldl (fun s i => s.cancelWaits { core := c, slot := BitVec.ofFin i }) s
  let t := { t with
    walks := t.walks.filter (·.core ≠ c)
    wbmsgs := t.wbmsgs.filter fun m => m.core ≠ c || (match m.kind with
      | .join _ _ _ _ => false
      | _ => true) }
  t.onCore c fun k => { k with saving := true }

/-- `PREEMPTION` of a launch, for a reason that has been reported, or because a cluster that it holds is leaving; a reason reported
before stays the one that its completion record gives (R334, R335, R340, R342). -/
def execPreemption (a : PreemptArg) (s : State) : Res :=
  .next <|
    match s.launch? a.launch with
    | none => s
    | some l =>
      let why := saveReason a.reason
      let leaving := why = .leaving && s.tenancy.moving.any fun m => l.clusters.contains m.1
      let reported := l.report = some (why, l.rank a.core)
      if l.stage ≠ .running || !(leaving || reported) then s
      else
        l.cores.foldl State.startSaving (s.onLaunch l.num fun l =>
          { l with stage := .saving, report := some (l.report.getD (why, l.rank a.core)) })

/-! ### The save area -/

/-- Whether everything that a core waits for before it saves itself has ended: its returning operations, those in the tree unit's
queue among them (R24), its units, and an acknowledgement for all that it sent, a task that a cox still holds included (R335 item
3), but not for boundary messages that their receivers refuse, or the messages and cancels behind them (R348): they are sent again after the
resume (R231, R354) (DEDUCED, log 40). -/
def State.drained (s : State) (c : CoreId) : Bool :=
  let k := s.getCore c
  (k.tree.all fun t => t.op.dest.isNone) && (s.cox.all fun d => d.2.all fun h => h.origin ≠ c && h.task.sender ≠ c) &&
  (s.reqs.all fun r => r.core ≠ c) && (s.tmsgs.all fun m => m.held.origin ≠ c) && (s.sacks.all fun a => a.core ≠ c) &&
    (s.replies.all fun r => r.sender ≠ c) && (s.bmsgs.all fun m => m.src ≠ c || s.heldBack m) && (s.backs.all fun a => a.core ≠ c) &&
    k.unacked.length = (s.bmsgs.filter fun m => m.src = c && !m.cancel).length &&
    k.cancels = (s.bmsgs.filter fun m => m.src = c && m.cancel).length &&
    (s.wbmsgs.all fun m => m.core ≠ c) && (s.wbacks.all fun a => a.core ≠ c) && k.vch.isEmpty && k.gemvs.isEmpty &&
    k.copy.flights.isEmpty && k.copy.landing.isEmpty && k.copy.run.all fun x => x.snapshot.isNone

/-- The bytes of the save area (R337). -/
def saveSize : Nat := 0x70000

/-- The pieces of a core's save area, each within one page: offset in the area, key and length; or the fault met (R337). -/
def State.saveChunks (s : State) (c : CoreId) (base : Word) : Except (BitVec 16) (List (Nat × Nat × Nat)) :=
  let lead := 0x10000 - base.toNat % 0x10000
  (List.range 8).foldlM (fun l i =>
    let off := if i = 0 then 0 else lead + 0x10000 * (i - 1)
    let len := min (if i = 0 then lead else 0x10000) (saveSize - off)
    if saveSize ≤ off then .ok l
    else match s.unitPlace c (base + BitVec.ofNat 64 off) 1 .w with
      | .error e => .error e
      | .ok (_, u) => if u.leaf.isNone then .error FKind.place.scause else .ok (l ++ [(off, u.key, len)])) []

/-- The key of an offset in a save area. -/
def chunkKey (ch : List (Nat × Nat × Nat)) (off : Nat) : Nat :=
  match ch.find? fun p => p.1 ≤ off && off < p.1 + p.2.2 with
  | some p => p.2.1 + (off - p.1)
  | none => 0

/-- `n` bytes of a save area. -/
def State.saveRead (s : State) (ch : List (Nat × Nat × Nat)) (off n : Nat) : List Byte :=
  (List.range n).map fun i => memRead s.mem (chunkKey ch (off + i))

/-- Bytes written to a save area. -/
def State.saveWrite (s : State) (ch : List (Nat × Nat × Nat)) (off : Nat) (bs : List Byte) : State :=
  s.wrPieces (ch.filterMap fun p =>
    let lo := max off p.1
    let hi := min (off + bs.length) (p.1 + p.2.2)
    if lo < hi then some (p.2.1 + (lo - p.1), (bs.drop (lo - off)).take (hi - lo)) else none)

/-- A core's local memory moved to its save area, poison with it (R308, R337). -/
def State.saveLocal (s : State) (c : CoreId) (ch : List (Nat × Nat × Nat)) : State :=
  ch.foldl (fun s p =>
    if localSize ≤ p.1 then s else s.moveRange (localKey c p.1) p.2.1 (min p.2.2 (localSize - p.1))) s

/-- A core's local memory moved back from its save area. -/
def State.loadLocal (s : State) (c : CoreId) (ch : List (Nat × Nat × Nat)) : State :=
  ch.foldl (fun s p =>
    if localSize ≤ p.1 then s else s.moveRange p.2.1 (localKey c p.1) (min p.2.2 (localSize - p.1))) s

/-- The offset of the context image of a slot (R337). -/
def imageOff (i : Fin 16) : Nat := 0x64000 + 0x800 * i.val

/-- STATE of a slot as its image records it (R338): every slot of a halted core counts as stopped. -/
def slotCode (halted : Bool) (l : Slot) : Nat :=
  match l.st with
  | .free => 0
  | .stopped => 4
  | .saved => 1
  | .ready => if halted then 4 else if l.wait.isSome then 2 else 1
  | .held => if halted then 4 else if l.wait.isSome then 2 else 3

/-- WKIND, WOBJ and WPH of a slot as its image records them (R340). -/
def slotWait (l : Slot) : List Byte :=
  match l.wait with
  | some w => natBytes 8 w.kind ++ natBytes 8 w.obj.toNat ++ natBytes 8 w.ph.toNat
  | none => List.replicate 24 0

/-- The registers of a slot, in their layout of a context image up to STATE (R338). -/
def slotRegs (l : Slot) : List Byte :=
  ((List.range 32).flatMap fun n => natBytes 8 (l.getX (BitVec.ofNat 5 n)).toNat) ++
    (l.v.toList.flatMap fun v => v.toList.flatMap fun w => natBytes 4 w.toNat) ++
    ((List.range 8).flatMap fun n => natBytes 2 (l.getP (BitVec.ofNat 3 n)).toNat) ++
    (l.m.toList.flatMap fun m => natBytes 32 m.toNat) ++
    natBytes 8 (l.xfull.toNat + l.vfull.toNat * 2 ^ 32) ++ natBytes 8 (setBit l.callp 0 (0 < l.callp0)).toNat

/-- A context image: STATE with a code, and the wait that it records (R338, R340). -/
def State.slotImage (s : State) (o : SlotId) (code : Nat) (wait : List Byte) : List Byte :=
  let l := s.getSlot o
  let t := { s with cur := o }
  slotRegs l ++ natBytes 8 (code + (if l.mode = .supervisor then 8 else 0) + l.spawns % 256 * 256) ++ natBytes 8 l.pc.toNat ++
    ((List.range 18).flatMap fun n => natBytes 8 (t.crSlot n).toNat) ++
    ((List.range 4).flatMap fun n => natBytes 8 (t.crSlot (0x200 + n)).toNat) ++ wait ++ List.replicate 456 0

/-- The tiles of a core as the save area holds them (R337). -/
def tileBytes (k : Core) : List Byte := k.acc.toList.flatMap fun t => t.toList.flatMap fun w => natBytes 4 w.toNat

/-- The bytes of the core-state region, which only the launcher reads (R337; DESIGN CHOICE, log 12). -/
def coreStateBytes (seq : Nat) : List Byte := (List.range 0x4000).map (Config.coreStateByte seq)

/-- A slot with the registers that its context image holds (R339). -/
def loadRegs (l : Slot) (bs : List Byte) : Slot :=
  let l := { l with
    x := Vector.ofFn fun n => if n.val = 0 then 0 else BitVec.ofNat 64 (fieldOf bs (8 * n.val) 8)
    v := Vector.ofFn fun n => Vector.ofFn fun j => BitVec.ofNat 32 (fieldOf bs (0x100 + 64 * n.val + 4 * j.val) 4)
    p := Vector.ofFn fun n => BitVec.ofNat 16 (fieldOf bs (0x500 + 2 * n.val) 2)
    m := Vector.ofFn fun n => BitVec.ofNat 256 (fieldOf bs (0x510 + 32 * n.val) 32)
    xfull := setBit (BitVec.ofNat 32 (fieldOf bs 0x550 4)) 0 true
    vfull := BitVec.ofNat 16 (fieldOf bs 0x554 2)
    callp := setBit (BitVec.ofNat 32 (fieldOf bs 0x558 8)) 0 false
    callp0 := if bits (fieldOf bs 0x558 8) 0 1 = 0 then 0 else max 1 l.callp0
    mode := if bits (fieldOf bs 0x560 8) 3 1 = 1 then .supervisor else .user
    spawns := bits (fieldOf bs 0x560 8) 8 8
    pc := BitVec.ofNat 20 (fieldOf bs 0x568 8) }
  let stat := fieldOf bs 0x580 8
  let l := { l with intrap := bits stat 0 1 = 1, sm := BitVec.ofNat 4 (bits stat 20 4), sd := BitVec.ofNat 4 (bits stat 24 4) }
  let l := (List.range 15).foldl (fun l i => l.crWrite (i + 3) (BitVec.ofNat 64 (fieldOf bs (0x570 + 8 * (i + 3)) 8))) l
  (List.range 4).foldl (fun l i => l.crWrite (0x200 + i) (BitVec.ofNat 64 (fieldOf bs (0x600 + 8 * i) 8))) l

/-- The context images of a core written, each with its code and wait. -/
def State.saveSlots (s : State) (c : CoreId) (ch : List (Nat × Nat × Nat)) (code : Fin 16 → Nat) (wait : Fin 16 → List Byte) :
    State :=
  (List.finRange 16).foldl (fun t i =>
    t.saveWrite ch (imageOff i) (s.slotImage { core := c, slot := BitVec.ofFin i } (code i) (wait i))) s

/-- The slots of a core with the registers of their images. -/
def State.loadSlots (s : State) (c : CoreId) (ch : List (Nat × Nat × Nat)) : State :=
  (List.finRange 16).foldl (fun t i =>
    let o : SlotId := { core := c, slot := BitVec.ofFin i }
    if (t.getSlot o).st = .free then t else t.onSlot o fun l => loadRegs l (s.saveRead ch (imageOff i) 0x800)) s

/-! ### Saving -/

/-- A core that writes its save area and becomes saved (R335 item 4, R337, R338). -/
def State.saveCore (s : State) (c : CoreId) (ch : List (Nat × Nat × Nat)) : State :=
  let k := s.getCore c
  let s := match k.copy.run with
    | some x => if x.started then s.writeProg c x else s
    | none => s
  let s := s.saveLocal c ch
  let s := s.saveWrite ch 0x60000 (tileBytes k)
  let s := s.saveSlots c ch (fun i => slotCode k.halted k.slots[i]) (fun i => slotWait k.slots[i])
  let s := s.saveWrite ch 0x6C000 (coreStateBytes s.tick)
  s.onCore c fun k =>
    { k with
      slots := k.slots.map fun l => if l.st = .free then l else { l with st := .saved }
      saved := true
      saveSeq := s.tick }

/-- `CORE_SAVE`: core `c`, its drains ended, saves itself; a save fault ends the launch with STATUS 3 (R335, R337). -/
def execCoreSave (c : CoreId) (s : State) : Res :=
  .next <|
    let k := s.getCore c
    match s.launchOn c with
    | none => s
    | some l =>
      if !k.saving || k.saved || !s.drained c then s
      else
        let s := { s with refused := s.refused.filter (·.core ≠ c) }
        match s.saveChunks c k.saveptr with
        | .error _ => s.endLaunch l 3 (l.rank c)
        | .ok ch => s.saveCore c ch

/-! ### Traffic for a saved core (R336) -/

/-- What an arrival does to the image of saved core `c`: the image loaded, the arrival applied as the core would have applied it,
and the image written back. A save fault ends the launch (R336, R337). -/
def State.inImage (s : State) (c : CoreId) (f : State → State) : State :=
  match s.saveChunks c (s.getCore c).saveptr with
  | .error _ =>
    (match s.launchOn c with
     | some l => s.endLaunch l 3 (l.rank c)
     | none => s)
  | .ok ch =>
    let head := fun (i : Fin 16) => s.saveRead ch (imageOff i) 0x800
    let t := ((s.loadLocal c ch).loadSlots c ch).onCore c fun k => { k with saved := false }
    let t := f t
    let t := (t.saveLocal c ch).saveSlots c ch (fun i => bits (fieldOf (head i) 0x560 8) 0 3)
      (fun i => ((head i).drop 0x620).take 24)
    t.onCore c fun k => { k with saved := true }

/-- An arrival applied to the images of several saved cores. -/
def State.inImages (s : State) (f : State → State) : List CoreId → State
  | [] => f s
  | c :: l => s.inImage c fun s => s.inImages f l

/-- The outcome of an event as a state. -/
def afterEvent (s : State) : Res → State
  | .next t => t
  | .fault _ => s
  | .refused _ => s

/-- The saved cores in whose local memory a request acts. -/
def State.savedHomes (s : State) (r : Req) : List CoreId :=
  let b := match r.op with
    | .cbwait k _ _ _ => [k]
    | .postv k _ _ _ _ _ => [k]
    | .nbread k _ => [k]
    | _ => []
  ((((r.reads ++ r.writes).map (·.key) ++ b).filterMap homeCore).filter fun c => (s.getCore c).saved).eraseDups

/-- What a home does with a request, by the event that applies it. -/
def State.homeEvent (s : State) (r : Req) : State :=
  if r.plainHome then afterEvent s (execHomeAccess r.id s)
  else if r.barrier.isSome then afterEvent s (execCbHomeOperation r.id s)
  else afterEvent s (execBoardPostAtHome r.id s)

/-- A task message for a saved core goes to its spill area, or is refused (R202, R203, R336). -/
def State.taskAtImage (s : State) (m : TaskMsg) (c : CoreId) : State :=
  if (s.getCore c).admits m.held then
    match s.spillPush c m.held.task with
    | (t, true) =>
      let t := t.onCore c (·.sample 7 (BitVec.ofNat 64 (s.getCore c).aqLen))
      ({ t with tmsgs := t.tmsgs.filter (·.id ≠ m.id) } : State).ackTask m.held
    | (t, false) => { t with tmsgs := t.tmsgs.map fun q => if q.id = m.id then { q with refused := true } else q }
  else s.taskAtCore m c

/-- A unit's try with every access to a saved core made on its image: each image that it reports is loaded in turn (R336). -/
def State.imaged (f : State → Except CoreId State) : Nat → State → State
  | 0, s => tried s (f s)
  | n + 1, s =>
    match f s with
    | .ok t => t
    | .error c => s.inImage c (State.imaged f n)

/-- What a unit does next, the images of saved cores taking their part (R336). -/
def State.doing (s : State) (f : State → Except CoreId State) : State := State.imaged f s.cores.length s

/-- What a unit does next where some access of it goes to the image of a saved core (R336). -/
def State.byImage (s : State) (f : State → Except CoreId State) : State :=
  match f s with
  | .ok _ => s
  | .error _ => s.doing f

/-- The stream that a number names: 64 times the core plus four times the slot plus the stream. -/
def streamOfNat (n : Nat) : StreamArg :=
  { ctx := { core := BitVec.ofNat 18 (n / 64), slot := BitVec.ofNat 4 (n / 4) }, s := BitVec.ofNat 2 n }

/-- `SAVE_IMAGE_ARRIVAL`: traffic for a core that has saved is applied to its save image (R336). -/
def execSaveImageArrival (a : ArrivalArg) (s : State) : Res :=
  .next <|
    match a.kind with
    | .request =>
      (match s.reqs.find? (·.id = a.n) with
       | none => s
       | some r =>
         let cs := s.savedHomes r
         if r.applied || cs.isEmpty then s
         else
           let t := s.inImages (fun s => s.homeEvent r) cs
           if t.reqs.contains r then s else t)
    | .task =>
      (match s.tmsgs.find? (·.id = a.n) with
       | none => s
       | some m =>
         match m.dst with
         | .cox _ => s
         | .core c => if (s.getCore c).saved && s.taskFirst m then s.inImage c fun s => s.taskAtImage m c else s)
    | .reply =>
      (match s.replies.find? (·.id = a.n) with
       | none => s
       | some r =>
         let c : CoreId := r.token.setWidth 18
         if (s.getCore c).saved then s.inImage c fun s => afterEvent s (execReplyArrival a.n s) else s)
    | .spawnAck =>
      (match s.sacks.find? (·.id = a.n) with
       | none => s
       | some k => if (s.getCore k.core).saved then s.inImage k.core fun s => afterEvent s (execSpawnAcknowledgement a.n s) else s)
    | .boundary =>
      (match s.bmsgs.find? (·.id = a.n), s.backs.find? (·.id = a.n) with
       | some m, _ =>
         if (s.getCore m.dst).saved then
           let t := s.inImage m.dst fun s =>
             if m.cancel then afterEvent s (execCancelArrival a.n s) else afterEvent s (execBoundaryMessageArrival a.n s)
           if t.bmsgs.contains m then s else t
         else s
       | none, some k =>
         if (s.getCore k.core).saved then s.inImage k.core fun s => afterEvent s (execBoundaryAckArrival a.n s) else s
       | none, none => s)
    | .wbDone =>
      (match s.wbdones.find? (·.id = a.n) with
       | none => s
       | some d =>
         if (s.getCore d.core).saved then
           let t := s.inImage d.core fun s => afterEvent s (execWbPhaseCompletion a.n s)
           if t.wbdones.contains d then s else t
         else s)
    | .copyRun => s.byImage (·.copyTry (BitVec.ofNat 18 a.n))
    | .matrixStep => s.byImage (·.matTry (BitVec.ofNat 18 a.n))
    | .stream => s.byImage (·.streamTry (streamOfNat a.n))
    | .gemvRow => s.byImage (·.gemvTry (BitVec.ofNat 14 a.n))

/-! ### Reports and resumes -/

/-- Whether every core of a launch has saved and no message of it is in flight, wire-barrier traffic included (R335); a boundary message that
its receiver refuses is none (R354) (DEDUCED, log 40). -/
def State.allSaved (s : State) (l : Launch) : Bool :=
  let id := l.record.id
  (l.cores.all fun c => (s.getCore c).saved) && (s.tmsgs.all fun m => m.held.launch ≠ id) &&
    (s.bmsgs.all fun m => m.launch ≠ id || s.heldBack m) && (s.replies.all fun r => r.launch ≠ id) &&
    (s.wbmsgs.all fun m => m.launch ≠ id) && (s.wbdones.all fun d => d.launch ≠ id) && (s.sacks.all fun a => !l.cores.contains a.core) && (s.bads.all fun b => !l.cores.contains b.core) &&
    (s.backs.all fun a => !l.cores.contains a.core) && (s.fails.all fun f => f.launch ≠ id) && s.reqs.all fun r => (s.savedHomes r).all fun c => !l.cores.contains c

/-- `LAUNCH_SAVED_REPORT` of launch `n`: with every core saved, a launch saved for a slice or a leaving cluster waits to resume, and
STATUS 2 or 3 is written for a stalemate or a failure (R323, R340, R342). Its refused boundary messages wait with it (R354). A Saved slot
whose core the launch gives up is Free there with CR.GEN one greater, and the resume puts the kept CR.GEN back: R16 gives both that a slot
which returns to Free increments CR.GEN and that one which moves from Saved does not (DESIGN CHOICE, log 66). -/
def execLaunchSavedReport (n : Nat) (s : State) : Res :=
  .next <|
    match s.launch? n with
    | none => s
    | some l =>
      if l.stage ≠ .saving || !s.allSaved l then s
      else
        let kept := l.cores.map s.getCore
        let t := l.cores.foldl (fun s c => s.onCore c Core.dropLaunch) s
        let mine := fun (m : BoundMsg) => m.launch = l.record.id
        let t := { t with bmsgs := t.bmsgs.filter fun m => !mine m }
        let waits := fun (stage : Stage) (t : State) => t.onLaunch n fun l =>
          { l with stage := stage, saved := kept, refused := s.bmsgs.filter mine, report := none, resume := false }
        match l.report with
        | some (.stalemate, rank) => (waits .awaitHost t).completion l.queue l.record.id 2 0 rank l.startTime
        | some (.failure, rank) => (waits .awaitHost t).completion l.queue l.record.id 3 0 rank l.startTime
        | _ =>
          let t := waits .saved t
          { t with launcher := { t.launcher with savedOrder := t.launcher.savedOrder ++ [n] } }

/-- A slot by its image, which the host may have changed: one that was Waiting, in either mode, is Ready again (R339, R341). -/
def restoreSlot (l : Slot) (bs : List Byte) : Slot :=
  let l := loadRegs l bs
  { l with
    st := match bits (fieldOf bs 0x560 8) 0 3 with
      | 0 => .free
      | 1 => .ready
      | 2 => .ready
      | 3 => .held
      | _ => .stopped
    wait := none
    joinAns := none
    prefetched := []
    streams := l.streams.map fun c => { c with pre := [], met := [] } }

/-- The tiles that a save area holds. -/
def tilesOf (bs : List Byte) : Vector (Vector Word32 64) 64 :=
  Vector.ofFn fun n => Vector.ofFn fun j => BitVec.ofNat 32 (fieldOf bs (256 * n.val + 4 * j.val) 4)

/-- A core reloaded from its save area: an acquire at system scope, after which a slot with NOTE takes PREEMPT before its older pending causes;
the activity counters, which only a scrub resets, stay (R122, R263, R339). -/
def State.restoreCore (s : State) (r : LaunchRec) (k : Core) (ch : List (Nat × Nat × Nat)) : State :=
  let c := k.id
  let s := s.loadLocal c ch
  let t := s.onCore c fun now =>
    { k with
      slots := Vector.ofFn fun i => restoreSlot k.slots[i] (s.saveRead ch (imageOff i) 0x800)
      acc := tilesOf (s.saveRead ch 0x60000 0x4000)
      tlb := []
      rlb := []
      slice := r.slice
      waitbud := r.waitbud
      halted := false
      saved := false
      saving := false
      droop := now.droop
      issued := now.issued
      cycles := now.cycles
      idle := now.idle }
  (List.finRange 16).foldl (fun t i =>
    let o : SlotId := { core := c, slot := BitVec.ofFin i }
    let l := t.getSlot o
    if l.st = .stopped then t.endTask o
    else if r.note && l.st = .ready && l.mode = .user then
      t.addFirst o { scause := cPREEMPT, val := r.id.setWidth 64, engine := none }
    else t) (t.acquired c)

/-- The save areas of a launch's cores as the resume finds them; nothing where one is not there, or its core-state region has been
changed (R337) (DESIGN CHOICE, log 38). -/
def State.resumeChunks (s : State) : List Core → Option (List (Core × List (Nat × Nat × Nat)))
  | [] => some []
  | k :: ks =>
    let t := s.onCore k.id fun c => { c with ptroot := k.ptroot, tenant := k.tenant, tlb := [] }
    match t.saveChunks k.id k.saveptr with
    | .error _ => none
    | .ok ch =>
      if s.saveRead ch 0x6C000 0x4000 ≠ coreStateBytes k.saveSeq then none
      else (s.resumeChunks ks).map fun l => (k, ch) :: l

/-- `LAUNCH_RESUME` of launch `n`: the next of its tenant to get clusters, or one that a record of KIND 2 named, and none of its clusters
leaving unless the controller has asked for it (R323, R339, R341, R344). -/
def execLaunchResume (n : Nat) (s : State) : Res :=
  .next <|
    match s.launch? n with
    | none => s
    | some l =>
      if !((l.stage = .saved && s.nextStart l) || (l.stage = .awaitHost && l.resume && s.mayReturn l)) then s
      else match s.resumeChunks l.saved with
        | none => s.endLaunch l 3 0
        | some kept =>
          let s := { s.onLaunch n fun l => { l with stage := .running, saved := [], refused := [], resume := false, asked := false } with
            bmsgs := s.bmsgs ++ l.refused }
          let s := { s with launcher := { s.launcher with savedOrder := s.launcher.savedOrder.filter (· ≠ n) } }
          kept.foldl (fun s p => s.restoreCore l.record p.1 p.2) s

end Sys2Proof.Machine
end

