-- ==== Sys2Proof/Machine/Tenancy.lean ====
section
/-! DEFINITION. The tenancy controller (R343, R344), the scrub of a cluster (R310), patrol reads (R306, R309), the timebase
reference (R380) and the supply rail of a core (R392). -/

namespace Sys2Proof.Machine

open Sys2Proof

/-! ### Moves -/

/-- The target of a tenant (R343). -/
def State.target? (s : State) (t : BitVec 12) : Nat := ((tabGet? s.bar0.tgt t).getD 0).toNat

/-- How many clusters a tenant's partition holds. -/
def State.holds (s : State) (t : BitVec 12) : Nat := (s.tenancy.owner.filter fun p => p.2 = t).length

/-- The tenants of the accepted launches, and those that hold clusters. -/
def State.tenants (s : State) : List (BitVec 12) :=
  (s.launcher.launches.map (·.record.tenant) ++ s.tenancy.owner.map (·.2)).eraseDups

/-- Whether a tenant holds an accepted launch that may start but cannot be placed (R343). -/
def State.demand (s : State) (t : BitVec 12) : Bool :=
  s.launcher.launches.any fun l => l.record.tenant = t && s.mayStart l && !s.placeableLaunch l

/-- The tenant with the largest positive value, the lower number of two (R343) (DESIGN CHOICE, log 44). -/
def bestTenant (f : BitVec 12 → Int) (ts : List (BitVec 12)) : Option (BitVec 12) :=
  ts.foldl (fun b t =>
    if f t ≤ 0 then b
    else match b with
      | none => some t
      | some u => if f u < f t || (f u = f t && t.toNat < u.toNat) then some t else b) none

/-- The recipient of the next move (R343). -/
def State.recipient (s : State) : Option (BitVec 12) :=
  bestTenant (fun t => (s.target? t : Int) - s.holds t) (s.tenants.filter s.demand)

/-- The clusters of present dies that belong to no partition (R343, R388). -/
def State.unassigned (s : State) : List (BitVec 10) :=
  ((List.range 1024).map (BitVec.ofNat 10)).filter fun k =>
    s.bar0.diemap.getLsbD (k.toNat / 16) && (tabGet? s.tenancy.owner k).isNone

/-- The clusters on which a launch runs or is saved (R343, R344). -/
def State.occupied (s : State) (k : BitVec 10) : Bool :=
  s.launcher.launches.any fun l => l.stage ≠ .accepted && l.clusters.contains k

/-- The highest-numbered cluster of a list. -/
def highest (ks : List (BitVec 10)) : Option (BitVec 10) :=
  ks.foldl (fun b k => match b with
    | none => some k
    | some j => if j.toNat < k.toNat then some k else b) none

/-- The cluster that the next move takes: an unassigned one first, else one of the tenant with the largest excess, on which no
launch runs or is saved if there is one (R343). -/
def State.moved (s : State) : Option (BitVec 10) :=
  match highest s.unassigned with
  | some k => some k
  | none =>
    match bestTenant (fun t => (s.holds t : Int) - s.target? t) s.tenants with
    | none => none
    | some t =>
      let ks := (s.tenancy.owner.filter fun p => p.2 = t).map (·.1)
      highest (ks.filter fun k => !s.occupied k) <|> highest ks

/-- The move that the tenancy controller would choose now. -/
def State.nextMove (s : State) : Option (BitVec 10 × BitVec 12) :=
  if !s.bar0.run || s.tenancy.moving.isSome then none
  else match s.recipient, s.moved with
    | some t, some k => some (k, t)
    | _, _ => none

/-- The saved launches that hold the leaving cluster, asked for if the controller asks (R344; DESIGN CHOICE, log 44). -/
def State.askResumes (s : State) (k : BitVec 10) : State :=
  if Config.asksResume s.tick then
    { s with launcher := { s.launcher with launches := s.launcher.launches.map fun l =>
        if (l.stage = .saved || l.stage = .awaitHost) && l.clusters.contains k then { l with asked := true } else l } }
  else s

/-- `TENANCY_MOVE`: the controller chooses a move, if none is in progress; while one is, it may ask for the resume of the saved launches
that hold the leaving cluster (R343, R344). -/
def execTenancyMove (s : State) : Res :=
  .next <|
    match s.tenancy.moving with
    | some m => if s.bar0.run then s.askResumes m.1 else s
    | none =>
      match s.nextMove with
      | none => s
      | some m => { s with tenancy := { s.tenancy with moving := some m } }

/-! ### Scrubs -/

/-- A core after its scrub; its supply is as it was (R310). -/
def Core.scrubbed (k : Core) : Core := { Core.reset k.id with droop := k.droop }

/-- Cores gone from the crew of a wire barrier, which may complete a phase (R142, R371). -/
def State.leaveRoot (s : State) (cs : List CoreId) (r : WbRoot) : State :=
  if r.members.any fun m => cs.contains m.core then
    (s.putRoot { r with members := r.members.filter fun m => !cs.contains m.core
                        arrivals := r.arrivals.filter fun a => !cs.contains a.core }).wbComplete r.tenant r.bar (r.arrivals.length + 1)
  else s

/-- A cluster's cores, their local memory, its vault units and its cores' membership of wire barriers scrubbed (R310, R371). -/
def State.scrubCluster (s : State) (k : BitVec 10) : State :=
  let cs := clusterCores k
  let vs := (cs.map vaultOf).eraseDups
  let s := cs.foldl (fun s c => s.zeroRange (localKey c 0) localSize) s
  let s := s.wbroots.foldl (fun s r => s.leaveRoot cs r) s
  { s with
    cores := s.cores.map fun c => if cs.contains c.1 then (c.1, c.2.scrubbed) else c
    units := s.units.filter fun u => !vs.contains u.1 }

/-- `CLUSTER_SCRUB`: the moving cluster, once no launch runs or is saved on it, is scrubbed and joins its recipient's partition
(R310, R344). -/
def execClusterScrub (k : BitVec 10) (s : State) : Res :=
  .next <|
    match s.tenancy.moving with
    | some (j, t) =>
      if j ≠ k || s.occupied k then s
      else
        let s := s.scrubCluster k
        { s with tenancy := { owner := tabPut s.tenancy.owner k t, moving := none } }
    | none => s

/-! ### Patrol, time and supply -/

/-- Whether a key is a byte of local memory or of DRAM that is present. -/
def State.patrolled (s : State) (k : Nat) : Bool :=
  match homeCore k with
  | none => s.isDram k
  | some c => k < 2 ^ 48 + 2 ^ 38 && (k - 2 ^ 48) % 2 ^ 20 < localSize && !s.fenced (dieOf c)

/-- The die of a patrolled key. -/
def keyDie (k : Nat) : Die :=
  match homeCore k with
  | none => BitVec.ofNat 6 (bits k 36 6)
  | some c => dieOf c

/-- A corrected error counted for a die (R306). -/
def State.corrected (s : State) (d : Die) : State :=
  { s with bar0 := { s.bar0 with ecc := tabPut s.bar0.ecc d ((tabGet? s.bar0.ecc d).getD 0 + 1) } }

/-- What a read of a granule of memory finds in its check bits: a single-bit error is corrected and counted, an uncorrectable one poisons
the granule (R306, R307) (DESIGN CHOICE, log 47). -/
def State.bitError (s : State) (granule : Nat) (e : EccState) : State :=
  if !s.patrolled (8 * granule) then s
  else match e with
    | .clean => s
    | .single => s.corrected (keyDie (8 * granule))
    | .uncorrectable => { s with poison := insertGranule s.poison granule }

/-- What a read of a granule of a held line finds in its check bits (R306, R307) (DESIGN CHOICE, log 47). -/
def State.lineError (s : State) (c : CoreId) (line granule : Nat) (e : EccState) : State :=
  if !(s.getCore c).rlb.any (·.key = line) then s
  else match e with
    | .clean => s
    | .single => s.corrected (dieOf c)
    | .uncorrectable => s.onCore c fun k =>
      { k with rlb := k.rlb.map fun l => if l.key = line then { l with poison := setBit l.poison (granule % 8) true } else l }

/-- `PATROL_READ` of a granule (R309). -/
def execPatrolRead (a : PatrolArg) (s : State) : Res := .next (s.bitError a.granule a.ecc)

/-- `TIMEBASE_REFERENCE` at a die: its timebase goes on to within 2 ns of the reference, and never steps backward; the count of the energy
that the die has drawn goes on (R380, R383) (DESIGN CHOICE, log 4). -/
def execTimebaseReference (d : Die) (s : State) : Res :=
  let t := (s.readTime (.compute d)).1
  let e := (tabGet? t.bar0.energy d).getD 0 + Config.energyDrawn t.tick
  .next { t with bar0 := { t.bar0 with energy := tabPut t.bar0.energy d e } }

/-- `SUPPLY_DROOP` at a core: it issues nothing until its rail recovers (R392) (DESIGN CHOICE, log 48). -/
def execSupplyDroop (c : CoreId) (s : State) : Res := .next (s.onCore c fun k => { k with droop := true })

/-- `RAIL_RECOVERY` of a core (R392). -/
def execRailRecovery (c : CoreId) (s : State) : Res := .next (s.onCore c fun k => { k with droop := false })

end Sys2Proof.Machine
end

