-- ==== Sys2Proof/Machine/HostPort.lean ====
section
/-! DEFINITION. The face of the module to its host: memory accesses (R381, R382), the control space (R383, R384), the error log
(R385), multicast table writes (R370), attestation (R390), link training (R381) and the boot of the module (R386-R389). -/

namespace Sys2Proof.Machine

open Sys2Proof

/-! ### Links and memory -/

/-- Whether a host link carries accesses: it has trained, and the module has not failed to boot (R381, R388). -/
def State.linkUp (s : State) (linkB : Bool) : Bool :=
  (if linkB then s.linkB else s.linkA) ≠ .untrained && s.bar0.bootst ≠ 7

/-- The result of a host read or AtomicOp. -/
def State.hostResult (s : State) (a : HostAccess) (data : Option (List Byte)) : State :=
  { s with hostReads := s.hostReads ++ [{ linkB := a.linkB, pa := a.pa, data := data }] }

/-- Poison met by a host access of `n` bytes is reported (R308, R385) (DESIGN CHOICE, log 42). -/
def State.hostPoison (s : State) (pa n : Nat) : State :=
  match s.poisonAt pa n with
  | some g => s.reportIo 5 (BitVec.ofNat 64 (8 * g)) 0
  | none => s

/-- An AtomicOp of a host, performed as an `amo` at the home: one that meets poison has no effect (R124, R381). -/
def State.hostAtomic (s : State) (a : HostAccess) (wide : Bool) (f : Nat → Nat) : State :=
  let n := if wide then 8 else 4
  let k := a.pa.toNat
  let old := s.rd k n
  if (s.poisonAt k n).isSome then (s.hostPoison k n).hostResult a (some (natBytes n old))
  else (s.fromOutside (s.wr k n (f old % 2 ^ (8 * n))) true).hostResult a (some (natBytes n old))

/-- A host access to DRAM that is present (R381). -/
def State.hostAccess (s : State) (a : HostAccess) : State :=
  match a.op with
  | .read n => (s.hostPoison a.pa.toNat n).hostResult a (some (memReads s.mem a.pa.toNat n))
  | .write bs => s.fromOutside (s.wrPieces [(a.pa.toNat, bs)]) true
  | .fetchAdd wide v => s.hostAtomic a wide fun old => old + v.toNat
  | .swap wide v => s.hostAtomic a wide fun _ => v.toNat
  | .cas wide expect v => s.hostAtomic a wide fun old => if old = expect.toNat % 2 ^ (if wide then 64 else 32) then v.toNat else old

/-- The bytes that a host access names. -/
def hostSize (a : HostAccess) : Nat :=
  match a.op with
  | .read n => n
  | .write bs => bs.length
  | .fetchAdd wide _ => if wide then 8 else 4
  | .swap wide _ => if wide then 8 else 4
  | .cas wide _ _ => if wide then 8 else 4

/-- Whether a die is closed to traffic: it has failed its authentication, or the boot has not yet come to pass it (R387, R388; DESIGN
CHOICE, log 13). -/
def State.closed (s : State) (d : Die) : Bool :=
  match tabGet? s.auth (DieId.compute d) with
  | some (.ok, _) => false
  | some (.fenced, _) => true
  | none => s.bar0.bootst < 2 || s.bar0.bootst = 7

/-- Whether a byte of an access lies on a closed die. -/
def State.hostAbsent (s : State) (a : HostAccess) : Bool :=
  s.closed (keyDie a.pa.toNat) || s.closed (keyDie (a.pa.toNat + (hostSize a - 1)))

/-- `HOST_MEMORY_ACCESS`: an access through BAR2 or CXL.mem, at the vault home of its bytes; on a closed die a read is Unsupported
Request and a write is dropped and logged (R381, R385). -/
def execHostMemoryAccess (a : HostAccess) (s : State) : Res :=
  .next <|
    if !s.linkUp a.linkB || 2 ^ 42 < a.pa.toNat + hostSize a then s
    else if s.hostAbsent a then
      match a.op with
      | .write _ => s.reportIo 14 (a.pa.setWidth 64) 0
      | _ => s.hostResult a none
    else s.hostAccess a

/-! ### The control space -/

/-- The control space changed. -/
def State.onBar0 (s : State) (f : Bar0 → Bar0) : State := { s with bar0 := f s.bar0 }

/-- BOOTST.STATE changed, and MSI-X vector 9 sent (R381, R386). -/
def State.bootState (s : State) (n : BitVec 3) : State :=
  { s with bar0 := { s.bar0 with bootst := n }, msix := s.msix ++ [9] }

/-- RUN = 1 written: in STATE 3 the launcher and the tenancy controller start (R386). -/
def State.writeRun (s : State) : State :=
  if s.bar0.bootst = 3 && !s.bar0.run then (s.onBar0 fun b => { b with run := true }).bootState 4 else s

/-- `CTL_RUN`: the host writes RUN = 1 (R383, R386). -/
def execCtlRun (s : State) : Res := .next (if s.linkUp false || s.linkUp true then s.writeRun else s)

/-- The 72 dies in the order of the attestation report (R390). -/
def allDies : List DieId :=
  ((List.range 64).map fun d => DieId.compute (BitVec.ofNat 6 d)) ++ (List.range 8).map fun i => DieId.io (BitVec.ofNat 3 i)

/-- A die's 64 bytes of the attestation report (R390). -/
def attEntry (e : BitVec 384 × Bool) : List Byte := natBytes 48 e.1.toNat ++ natBytes 16 (if e.2 then 1 else 0)

/-- The measurement and the presence of each die (R390). -/
def State.attEntries (s : State) : List (BitVec 384 × Bool) :=
  allDies.map fun d => match tabGet? s.auth d with
    | some (st, m) => (m, st = .ok)
    | none => (Config.unknownMeasure s.tick, false)

/-- The root's public key, which every die holds in its fuses (R387). -/
def rootKey : CurvePoint := curveMul 384 Config.rootSecret bpG

/-- The signature that the identity key of I/O die 0 makes over bytes at a step (R387, R390). -/
def rootSign (t : Nat) (bs : List Byte) : BitVec 768 :=
  let p := ecdsaSign Config.rootSecret (Config.signNonce t) (sha384 bs)
  packSign p.1 p.2

/-- What an attestation report is signed over: ATTN ‖ MODID ‖ the die entries (R383, R390). -/
def State.attMessage (s : State) : List Byte :=
  natBytes 48 s.bar0.attn.toNat ++ natBytes 8 (s.bar0.modid.toNat + s.bar0.inc.toNat * 2 ^ 16) ++ s.attEntries.flatMap attEntry

/-- The attestation report (R390). -/
def State.attest (s : State) : AttReport :=
  { entries := s.attEntries, sign := rootSign s.tick s.attMessage, chain := Config.certificateChain }

/-- `ATTGO`: the host's write of ATTGO starts a report; I/O die 0 then writes ATTREP, and ATTGO clears (R383, R390). -/
def execAttgo (s : State) : Res :=
  .next <|
    if s.bar0.attgo then s.onBar0 fun b => { b with attgo := false, attrep := some s.attest }
    else if s.linkUp false || s.linkUp true then s.onBar0 fun b => { b with attgo := true }
    else s

/-- An entry of a multicast table written; one of a fenced die is ignored (R370, R384). -/
def State.writeMcast (s : State) (d : Die) (e : BitVec 8) (w : Word) : State :=
  if s.fenced d then s
  else
    let k := d.toNat * 256 + e.toNat
    s.onBar0 fun b => { b with
      mcast := tabPut b.mcast k w
      mcastStale := (k, s.tick) :: b.mcastStale.filter fun p => p.1 ≠ k }

/-- `MCAST_TABLE_WRITE` (R368, R370, R384). -/
def execMcastTableWrite (a : McastWrite) (s : State) : Res :=
  .next (if s.linkUp false || s.linkUp true then s.writeMcast a.die a.entry a.val else s)

/-- Whether a transfer of core `c` sends, or has sent, the message under way to entry `k` with a snapshot of step `t` or before. -/
def XferCmd.under (x : XferCmd) (c : CoreId) (k t : Nat) : Bool :=
  x.kind = .mcast && x.snapshot.isSome && x.snapAt ≤ t && (dieOf c).toNat * 256 + x.group = k

/-- Whether every copy of entry `k` with a snapshot of step `t` or before has been delivered (R370). -/
def State.mcastDrained (s : State) (k t : Nat) : Bool :=
  s.cores.all fun c => !(c.2.copy.run.any (·.under c.1 k t)) && !(c.2.copy.flights.any fun f => f.x.under c.1 k t)

/-- `MCAST_WRITE_DRAINED` at a die: the writes of its entries whose older copies have all been delivered are acknowledged (R370,
R384). -/
def execMcastWriteDrained (d : Die) (s : State) : Res :=
  .next (s.onBar0 fun b => { b with mcastStale := b.mcastStale.filter fun p => p.1 / 256 ≠ d.toNat || !s.mcastDrained p.1 p.2 })

/-- Bits `64 i` to `64 i + 63` of a wide register replaced. -/
def putWord {n : Nat} (v : BitVec n) (i : Nat) (w : Word) : BitVec n :=
  BitVec.ofNat n (v.toNat - v.toNat / 2 ^ (64 * i) % 2 ^ 64 * 2 ^ (64 * i) + w.toNat * 2 ^ (64 * i))

/-- The bits of a PEERWIN entry that are not reserved (R376). -/
def peerwinMask : BitVec 128 := 0x003F_FFFF_FFFF_FFFF_80FF_FFFF_0000_0FFF

/-- A 64-bit write of a register or table of the control space; other offsets ignore it (R383, R384) (DESIGN CHOICE, log 41). -/
def State.writeBar0 (s : State) (off : Nat) (w : Word) : State :=
  if off % 8 ≠ 0 then s
  else if off = 0 then (if s.bar0.run then s else s.onBar0 fun b => { b with modid := w.setWidth 16 })
  else if off = 0x10 then (if w.getLsbD 0 then s.writeRun else s)
  else if off = 0x28 then (if s.bar0.run then s else s.onBar0 fun b => { b with qbase := w &&& ~~~ 511 })
  else if off = 0x30 then s.onBar0 fun b => { b with elbase := w &&& ~~~ 4095 }
  else if off = 0x38 then s.onBar0 fun b => { b with elctl := w &&& 15 }
  else if off = 0x48 then s.onBar0 fun b => { b with elhidx := w }
  else if 0x1000 ≤ off && off < 0x1030 then
    (if s.bar0.attgo then s else s.onBar0 fun b => { b with attn := putWord b.attn ((off - 0x1000) / 8) w })
  else if off = 0x1030 then (if w.getLsbD 0 then s.onBar0 fun b => { b with attgo := true } else s)
  else if 0x10000 ≤ off && off < 0x12000 then
    s.onBar0 fun b => { b with
      tgt := (List.range 4).foldl (fun t i => tabPut t (BitVec.ofNat 12 ((off - 0x10000) / 2 + i)) (BitVec.ofNat 16 (bits w.toNat (16 * i) 16)))
        b.tgt }
  else if 0x20000 ≤ off && off < 0x40000 then
    s.writeMcast (BitVec.ofNat 6 ((off - 0x20000) / 2048)) (BitVec.ofNat 8 (off % 2048 / 8)) w
  else if 0x40000 ≤ off && off < 0x41000 then
    s.onBar0 fun b => { b with
      vcmap := (List.range 8).foldl (fun t i => tabPut t (BitVec.ofNat 12 (off - 0x40000 + i)) (BitVec.ofNat 8 (bits w.toNat (8 * i) 8)))
        b.vcmap }
  else if 0x41000 ≤ off && off < 0x41038 then
    s.onBar0 fun b => { b with vcw := tabPut b.vcw ((off - 0x41000) / 8 + 1) (if w.setWidth 8 = (0 : Byte) then 1 else w.setWidth 8) }
  else if 0x50000 ≤ off && off < 0x51000 then
    s.onBar0 fun b => { b with
      peerwin := let k := BitVec.ofNat 8 ((off - 0x50000) / 16)
        tabPut b.peerwin k (putWord ((tabGet? b.peerwin k).getD 0) (off % 16 / 8) w &&& peerwinMask) }
  else s

/-- `BAR0_REGISTER_WRITE` (R383, R384). -/
def execBar0RegisterWrite (a : Bar0Write) (s : State) : Res :=
  .next (if s.linkUp false || s.linkUp true then s.writeBar0 a.off.toNat a.val else s)

/-- The bytes of the attestation report by their offset from 0x0_1100 (R390). -/
def AttReport.byte (r : AttReport) (i : Nat) : Byte :=
  if i < 0x1200 then
    (attEntry (r.entries.getD (i / 64) (0, false))).getD (i % 64) 0
  else if i < 0x1260 then BitVec.ofNat 8 (r.sign.toNat / 2 ^ (8 * (i - 0x1200)))
  else if 0x12F8 ≤ i && i < 0x1300 then (natBytes 8 r.chain.length).getD (i - 0x12F8) 0
  else if 0x1300 ≤ i then r.chain.getD (i - 0x1300) 0
  else 0

/-- The bits of a multicast entry that are not reserved; a write may set the others, which makes the entry invalid, but they read as zero
(R6, R368). -/
def mcastMask : Word := 0xFFF8_03FF_FFFF_F000

/-- The doubleword that the control space holds at an offset; one that is not listed gives zero (R6, R383). -/
def State.readBar0 (s : State) (off : Nat) : Word :=
  let b := s.bar0
  if off % 8 ≠ 0 then 0
  else if off = 0 then BitVec.ofNat 64 (b.modid.toNat + b.inc.toNat * 2 ^ 16)
  else if off = 0x08 then b.bootst.setWidth 64
  else if off = 0x10 then (if b.run then 1 else 0)
  else if off = 0x18 then b.diemap
  else if off = 0x20 then b.iomap.setWidth 64
  else if off = 0x28 then b.qbase
  else if off = 0x30 then b.elbase
  else if off = 0x38 then b.elctl
  else if off = 0x40 then b.elidx
  else if off = 0x48 then b.elhidx
  else if off = 0x50 then b.ellost
  else if 0x1000 ≤ off && off < 0x1030 then BitVec.ofNat 64 (b.attn.toNat / 2 ^ (8 * (off - 0x1000)))
  else if off = 0x1030 then (if b.attgo then 1 else 0)
  else if 0x1100 ≤ off && off < 0x10000 then
    match b.attrep with
    | none => 0
    | some r => BitVec.ofNat 64 (leNat ((List.range 8).map fun i => r.byte (off - 0x1100 + i)))
  else if 0x10000 ≤ off && off < 0x12000 then
    BitVec.ofNat 64 (((List.range 4).map fun i =>
      ((tabGet? b.tgt (BitVec.ofNat 12 ((off - 0x10000) / 2 + i))).getD 0).toNat * 2 ^ (16 * i)).sum)
  else if 0x20000 ≤ off && off < 0x40000 then (tabGet? b.mcast ((off - 0x20000) / 8)).getD 0 &&& mcastMask
  else if 0x40000 ≤ off && off < 0x41000 then
    BitVec.ofNat 64 (leNat ((List.range 8).map fun i => (tabGet? b.vcmap (BitVec.ofNat 12 (off - 0x40000 + i))).getD 0))
  else if 0x41000 ≤ off && off < 0x41038 then ((tabGet? b.vcw ((off - 0x41000) / 8 + 1)).getD 1).setWidth 64
  else if 0x50000 ≤ off && off < 0x51000 then
    BitVec.ofNat 64 (((tabGet? b.peerwin (BitVec.ofNat 8 ((off - 0x50000) / 16))).getD 0).toNat / 2 ^ (64 * (off % 16 / 8)))
  else if 0x60000 ≤ off && off < 0x60400 then
    let d := BitVec.ofNat 6 ((off - 0x60000) / 16)
    (if off % 16 = 0 then tabGet? b.ecc d else tabGet? b.energy d).getD 0
  else 0

/-- What a host read of the control space returns, or nothing while it is held: a multicast entry answers once its last write has been
acknowledged, and in STATE 7 only the state shows (R370, R384, R388). -/
def State.bar0Read (s : State) (off : Nat) : Option Word :=
  if s.bar0.bootst = 7 then some (if off = 0x08 then 7 else 0)
  else if 0x20000 ≤ off && off < 0x40000 && s.bar0.mcastStale.any (fun p => p.1 = (off - 0x20000) / 8) then none
  else some (s.readBar0 off)

/-! ### The error log -/

/-- The key of a byte of host memory (R293) (DESIGN CHOICE, log 45). -/
def hostKey (a : Nat) : Nat := 2 ^ 46 + a % 2 ^ 46

/-- `ERROR_LOG_REPORT`: the collector writes the oldest report to the host ring, or counts it in ELLOST (R385). -/
def execErrorLogReport (s : State) : Res :=
  .next <|
    match s.errors with
    | [] => s
    | e :: es =>
      let b := s.bar0
      let s := { s with errors := es }
      let logd := b.elctl.toNat
      if logd < 4 || (b.elidx - b.elhidx).toNat = 2 ^ logd then
        s.onBar0 fun b => { b with ellost := if b.ellost = BitVec.allOnes 64 then b.ellost else b.ellost + 1 }
      else
        let rec_ := natBytes 8 (e.kind.toNat + e.core.toNat * 2 ^ 8 + e.launch.toNat * 2 ^ 32) ++ natBytes 8 e.word1.toNat ++
          natBytes 8 e.time.toNat ++ natBytes 8 e.word3.toNat
        let s := s.wrPieces [(hostKey (b.elbase.toNat + 32 * (b.elidx.toNat % 2 ^ logd)), rec_)]
        let s := s.onBar0 fun b => { b with elidx := b.elidx + 1 }
        if b.elidx = b.elhidx then { s with msix := s.msix ++ [0] } else s

/-! ### Boot -/

/-- `MODULE_RESET`: every unit and all traffic of the module gone, its control space reset but for the incarnation, and step 1 of
the boot begun; host and peer memory stay (R383, R386) (DESIGN CHOICE, log 43). -/
def execModuleReset (s : State) : Res :=
  .next <| State.bootState { State.reset with
    cur := s.cur
    agenda := s.agenda
    focus := s.focus
    tick := s.tick
    nextId := s.nextId
    mem := s.mem
    poison := s.poison
    hostReads := s.hostReads
    msix := s.msix
    peerFrames := s.peerFrames
    bar0 := { Bar0.reset with inc := s.bar0.inc } } 1

/-- Whether every die has passed or failed (R386). -/
def State.allDecided (s : State) : Bool := allDies.all fun d => (tabGet? s.auth d).isSome

/-- The number and kind of a fenced die as its report gives them (R385, R388). -/
def State.reportFenced (s : State) (d : DieId) : State :=
  match d with
  | .compute n => s.reportIo 14 (n.setWidth 64) 0
  | .io i => s.reportIo 14 (i.setWidth 64) 1

/-- The outcome of a die's authentication: it passes, or it is fenced and logged; I/O die 0 goes first, and its failure ends the
boot (R386-R388). -/
def State.decide (s : State) (d : DieId) (ok : Bool) (m : BitVec 384) : State :=
  if s.bar0.bootst ≠ 1 || (tabGet? s.auth d).isSome then s
  else if d = .io 0 then
    (if ok then { s with auth := tabPut s.auth d (.ok, m) } else ({ s with auth := tabPut s.auth d (.fenced, m) } : State).bootState 7)
  else if (tabGet? s.auth (.io 0)).isNone then s
  else
    let t := { s with auth := tabPut s.auth d (if ok then .ok else .fenced, m) }
    let t := if ok then t else t.reportFenced d
    if t.allDecided then t.bootState 2 else t

/-- The number that names a die in what the root signs (R387; DESIGN CHOICE, log 13). -/
def DieId.number : DieId → Nat
  | .compute d => d.toNat
  | .io i => 64 + i.toNat

/-- What a die signs: Nr ‖ Nd ‖ Md (R387). -/
def dieMessage (nr : BitVec 384) (a : AuthArg) : List Byte :=
  natBytes 48 nr.toNat ++ natBytes 48 a.nonce.toNat ++ natBytes 48 a.measure.toNat

/-- What the root signs: Nd ‖ Nr ‖ d (R387). -/
def rootMessage (nr : BitVec 384) (a : AuthArg) : List Byte :=
  natBytes 48 a.nonce.toNat ++ natBytes 48 nr.toNat ++ natBytes 1 (DieId.number a.die)

/-- Whether the root's own firmware passes: a signature over what it measured (R386; DESIGN CHOICE, log 13). -/
def firmwareOk (a : AuthArg) : Bool :=
  ecdsaVerify Config.firmwareKey (beNat (natBytes 48 a.measure.toNat)) (a.sign.toNat % 2 ^ 384) (a.sign.toNat / 2 ^ 384)

/-- Whether a die passes: the checks of the root on its certificate and signature, and its own check of the root's signature; I/O die 0
passes where its firmware's signature does (R386, R387). -/
def State.authOk (s : State) (a : AuthArg) : Bool :=
  let nr := Config.rootNonce s.tick
  if a.die = .io 0 then firmwareOk a
  else certificateOk Config.caKey a.cert && signatureOk (certKey a.cert) (dieMessage nr a) a.sign &&
    signatureOk rootKey (rootMessage nr a) (rootSign s.tick (rootMessage nr a))

/-- `DIE_AUTHENTICATION` (R387, R388). -/
def execDieAuthentication (a : AuthArg) (s : State) : Res := .next (s.decide a.die (s.authOk a) a.measure)

/-- `AUTHENTICATION_TIMEOUT`: a die that has not finished within 50 ms fails (R387). -/
def execAuthenticationTimeout (d : DieId) (s : State) : Res :=
  .next (if d = .io 0 then s else s.decide d false (Config.unknownMeasure s.tick))

/-- Whether a die is present (R388). -/
def State.present (s : State) (d : DieId) : Bool :=
  match tabGet? s.auth d with
  | some (.ok, _) => true
  | _ => false

/-- A die's DRAM and the local memory of its cores zeroed with fresh check bits, and its cores and vault units scrubbed (R310,
R386). -/
def State.initDie (s : State) (d : Die) : State :=
  let s := (s.zeroRange (d.toNat * 2 ^ 36) (2 ^ 36)).zeroRange (localKey (coreAt d 0 0) 0) (4096 * 2 ^ 20)
  { s with
    cores := s.cores.map fun c => if dieOf c.1 = d then (c.1, c.2.scrubbed) else c
    units := s.units.filter fun u => u.1.toNat / 256 ≠ d.toNat }

/-- `BOOT_INITIALISATION_COMPLETE`: steps 3 to 5 of the boot end (R386). -/
def execBootInitialisationComplete (s : State) : Res :=
  .next <|
    if s.bar0.bootst ≠ 2 then s
    else
      let ds := ((List.range 64).map (BitVec.ofNat 6)).filter fun d => s.present (.compute d)
      let s := ds.foldl State.initDie s
      let dm : BitVec 64 := (List.range 64).foldl (fun m d => setBit m d (s.present (.compute (BitVec.ofNat 6 d)))) 0
      let im : Byte := (List.range 8).foldl (fun m i => setBit m i (s.present (.io (BitVec.ofNat 3 i)))) 0
      (s.onBar0 fun b => { b with inc := b.inc + 1, diemap := dm, iomap := im }).bootState 3

/-- `HOST_LINK_TRAINING`: a link trains as PCIe or CXL; link B not unless I/O die 4 has passed (R381, R388). -/
def execHostLinkTraining (a : LinkArg) (s : State) : Res :=
  let l := if a.cxl then LinkState.cxl else LinkState.pcie
  .next <|
    if !a.linkB then { s with linkA := l }
    else if s.present (.io 4) then { s with linkB := l }
    else s

end Sys2Proof.Machine
end

