-- ==== Sys2Proof/Machine/Fabric.lean ====
section
/-! DEFINITION. Synelm: what a frame from a peer module does (R376-R378), and how requests to a peer that has changed or refuses
them complete (R379). -/

namespace Sys2Proof.Machine

open Sys2Proof

/-- The request of this module that a frame through a window answers (R378). -/
def State.answered (s : State) (w : BitVec 8) (n : Nat) : Option Req := s.reqs.find? fun r => r.id = n && s.awaits r (s.windowPeer w)

/-- The reply of module `p` to a request that it has served: the last one due completes the request (R378). -/
def State.replied (s : State) (r : Req) (p : BitVec 16) : State :=
  let q := { r with peers := r.peers.erase p }
  let t := s.setReq q
  if !q.peers.isEmpty then t else if q.returned then t.deliver q else if q.acked then t.acknowledge q else t

/-- A peer's request refused: both hosts are told, and the peer (R376). -/
def State.refusePeer (s : State) (w : BitVec 8) (pa : BitVec 48) : State :=
  (s.reportIo 10 (pa.setWidth 64) ((s.windowPeer w).setWidth 64)).sendFrame w pa.toNat (.refused pa)

/-- Whether a peer's request of `n` bytes is served: its host has granted the range, which this module's DRAM holds (R376). -/
def State.serves (s : State) (pa : BitVec 48) (n : Nat) : Bool :=
  Config.peerGranted s.tick && s.isDram pa.toNat && s.isDram (pa.toNat + (n - 1)) && !s.closed (keyDie pa.toNat)

/-- A peer's read-modify-write applied at its home, unless it meets poison (R124, R132, R377). -/
def State.peerRmw (s : State) (pa : BitVec 48) (n : Nat) (fn : AmoFn) (b expect : Word) : State :=
  let old := s.rd pa.toNat n
  if (s.poisonAt pa.toNat n).isSome || (fn = .cas && old ≠ expect.toNat % 2 ^ (8 * n)) then s
  else s.fromOutside (s.wr pa.toNat n (amoApply fn n old b.toNat).1) false

/-- A peer's request performed at its home, and its answer sent; a reduction is acknowledged, and one that meets poison is reported (R124,
R377). -/
def State.peerRequest (s : State) (w : BitVec 8) (b : FrameBody) : State :=
  match b with
  | .read pa n =>
    if s.serves pa n then s.sendFrame w pa.toNat (.data (memReads s.mem pa.toNat n) (s.poisonAt pa.toNat n).isSome) else s.refusePeer w pa
  | .write pa bs => if s.serves pa bs.length then (s.fromOutside (s.wrPieces [(pa.toNat, bs)]) false).sendFrame w pa.toNat .ack else s.refusePeer w pa
  | .amo pa wide fn b expect =>
    let n := if wide then 8 else 4
    if !s.serves pa n then s.refusePeer w pa
    else (s.peerRmw pa n fn b expect).sendFrame w pa.toNat (.data (natBytes n (s.rd pa.toNat n)) (s.poisonAt pa.toNat n).isSome)
  | .red pa wide fn b =>
    let n := if wide then 8 else 4
    if !s.serves pa n then s.refusePeer w pa
    else
      let t := if (s.poisonAt pa.toNat n).isSome then s.reportIo 3 (pa.setWidth 64) 0 else s.peerRmw pa n fn b 0
      t.sendFrame w pa.toNat .ack
  | _ => s

/-- The physical address of a peer's request. -/
def framePa (b : FrameBody) : Option (BitVec 48) :=
  match b with
  | .read pa _ => some pa
  | .write pa _ => some pa
  | .amo pa _ _ _ _ => some pa
  | .red pa _ _ _ => some pa
  | _ => none

/-- A dropped reply counted at the core whose request or engine access it answers, which may have completed since (R378). -/
def State.countDropped (s : State) (w : BitVec 8) (n : Nat) : State :=
  let sent := s.peerFrames.find? fun f => f.req = some n && s.windowPeer f.frame.window = s.windowPeer w
  ((sent.bind (·.core)) <|> (s.answered w n).map (·.core)).elim s fun c => s.onCore c (·.count 15 1)

/-- A frame whose sender's incarnation is not the one that its window expects: dropped and counted (R378). -/
def State.dropFrame (s : State) (w : BitVec 8) (b : FrameBody) : State :=
  match b with
  | .reply n => s.countDropped w n
  | .refusal n => s.countDropped w n
  | b => (framePa b).elim s fun pa => s.reportIo 11 (pa.setWidth 64) ((s.windowPeer w).setWidth 64)

/-- `SYNELM_FRAME_ARRIVAL`: a frame through a configured window from the peer that it names (R376-R379). -/
def execSynelmFrameArrival (f : SynelmFrame) (s : State) : Res :=
  .next <|
    if !s.windowOn f.window || f.sender ≠ s.windowPeer f.window then s
    else if f.inc ≠ s.windowInc f.window then s.dropFrame f.window f.body
    else match f.body with
      | .reply n => (s.answered f.window n).elim s fun r => if r.applied then s.replied r f.sender else s
      | .refusal n =>
        (s.answered f.window n).elim s fun r =>
          if r.applied then s
          else
            ((s.sendRequest r [f.sender]).report 10 r.core (s.getCore r.core).launch (r.paAt f.sender) (f.sender.setWidth 64)).failPeerAll
              f.sender
      | b => s.peerRequest f.window b

/-- `PEER_INCARNATION_CHANGE` of module `p`: every request to it that is outstanding completes without effect (R379). -/
def execPeerIncarnationChange (p : BitVec 16) (s : State) : Res :=
  .next (s.failPeerAll p)

end Sys2Proof.Machine
end

