-- ==== Sys2Proof/Machine/Scalar.lean ====
section
/-! DEFINITION. The integer ALU and the immediate and bit-field instructions (majors 0x01 to 0x0F: R98-R102). -/

namespace Sys2Proof.Machine

open Sys2Proof

/-- An instruction that computes x register d from a and b (R98). -/
def aluRR (o : R3) (f : Word → Word → Word) (s : State) : Res :=
  finish s do
    issueRule s [(.x o.a, o.wa), (.x o.b, o.wb)] [.x o.d]
    .ok ((s.putX o.d (f (s.xv o.a) (s.xv o.b))).advance 4)

/-- An instruction that computes x register d from a (R98). -/
def aluR (o : R2) (f : Word → Word) (s : State) : Res :=
  finish s do
    issueRule s [(.x o.a, o.wa)] [.x o.d]
    .ok ((s.putX o.d (f (s.xv o.a))).advance 4)

/-- A division or remainder: a zero divisor counts in counter 5 and may owe ARITH (R57, R100). -/
def aluDiv (o : R3) (f : Word → Word → Word) (s : State) : Res :=
  finish s do
    issueRule s [(.x o.a, o.wa), (.x o.b, o.wb)] [.x o.d]
    let t := (s.putX o.d (f (s.xv o.a) (s.xv o.b))).advance 4
    .ok (if s.xv o.b = 0 then t.withEvents evDivz else t)

/-- An instruction that computes x register d from a and imm13 (R101). -/
def aluImm (o : IOp) (f : Word → Word → Word) (s : State) : Res :=
  finish s do
    issueRule s [(.x o.a, o.wa)] [.x o.d]
    .ok ((s.putX o.d (f (s.xv o.a) (sx o.imm))).advance 4)

/-- A shift by an immediate amount (R77, R101). -/
def aluShift (o : ShOp) (f : Word → Nat → Word) (s : State) : Res :=
  finish s do
    issueRule s [(.x o.a, o.wa)] [.x o.d]
    .ok ((s.putX o.d (f (s.xv o.a) o.n.toNat)).advance 4)

/-- The amount of a register shift: B[5:0] (R99). -/
def shamt (b : Word) : Nat := b.toNat % 64

/-- A comparison's result (R99). -/
def flag (b : Bool) : Word := if b then 1 else 0

/-- (A * B)[127:64], both signed (R99). -/
def mulHigh (a b : Word) : Word := BitVec.ofInt 64 (a.toInt * b.toInt / 2 ^ 64)

/-- (A * B)[127:64], both unsigned (R99). -/
def mulHighZ (a b : Word) : Word := BitVec.ofNat 64 (a.toNat * b.toNat / 2 ^ 64)

/-- Signed division, truncated; by zero all ones (R100). The INT64 minimum divided by -1 wraps to itself. -/
def divS (a b : Word) : Word := if b = 0 then BitVec.allOnes 64 else BitVec.ofInt 64 (a.toInt.tdiv b.toInt)

/-- Unsigned division; by zero all ones (R100). -/
def divU (a b : Word) : Word := if b = 0 then BitVec.allOnes 64 else BitVec.ofNat 64 (a.toNat / b.toNat)

/-- Signed remainder with the sign of A; by zero A (R99, R100). -/
def remS (a b : Word) : Word := if b = 0 then a else BitVec.ofInt 64 (a.toInt.tmod b.toInt)

/-- Unsigned remainder; by zero A (R100). -/
def remU (a b : Word) : Word := if b = 0 then a else BitVec.ofNat 64 (a.toNat % b.toNat)

/-- Leading zero bits of the low `n` bits; `n` for zero (R99). -/
def clzNat : Nat → Nat → Nat
  | 0, _ => 0
  | n + 1, v => if v / 2 ^ n % 2 = 1 then 0 else clzNat n v + 1

/-- Trailing zero bits of the low `n` bits; `n` for zero (R99). -/
def ctzNat : Nat → Nat → Nat
  | 0, _ => 0
  | n + 1, v => if v % 2 = 1 then 0 else ctzNat n (v / 2) + 1

/-- The number of 1 bits in the low `n` bits (R99). -/
def popNat : Nat → Nat → Nat
  | 0, _ => 0
  | n + 1, v => v % 2 + popNat n (v / 2)

/-- The eight bytes in reverse order (R99). -/
def byteSwap (a : Word) : Word := BitVec.ofNat 64 (leNat (natBytes 8 a.toNat).reverse)

/-- The low 32 bits sign-extended (R99). -/
def sx32 (a : Word) : Word := (a.setWidth 32).signExtend 64

/-- The bit field of `bfx` (R102). -/
def bitField (a : Word) (pos len : Nat) (signed : Bool) : Word :=
  let v := a.toNat / 2 ^ pos % 2 ^ len
  if signed && v / 2 ^ (len - 1) % 2 = 1 then BitVec.ofInt 64 ((v : Int) - 2 ^ len) else BitVec.ofNat 64 v

/-- The old value with a field replaced (R102). -/
def insertField (d a : Word) (pos len : Nat) : Word :=
  let mask := BitVec.ofNat 64 ((2 ^ len - 1) * 2 ^ pos)
  (d &&& ~~~mask) ||| ((a <<< pos) &&& mask)

/-- `add`: d ← A + B (R99). -/
def execAdd (o : R3) (s : State) : Res := aluRR o (fun a b => a + b) s

/-- `sub`: d ← A - B (R99). -/
def execSub (o : R3) (s : State) : Res := aluRR o (fun a b => a - b) s

/-- `mul`: d ← (A * B)[63:0] (R99). -/
def execMul (o : R3) (s : State) : Res := aluRR o (fun a b => a * b) s

/-- `mulh`: d ← (A * B)[127:64], signed (R99). -/
def execMulh (o : R3) (s : State) : Res := aluRR o mulHigh s

/-- `mulhz`: d ← (A * B)[127:64], unsigned (R99). -/
def execMulhz (o : R3) (s : State) : Res := aluRR o mulHighZ s

/-- `div`: d ← A / B, signed, truncated (R99, R100). -/
def execDiv (o : R3) (s : State) : Res := aluDiv o divS s

/-- `divz`: d ← A / B, unsigned (R99, R100). -/
def execDivz (o : R3) (s : State) : Res := aluDiv o divU s

/-- `rem`: d ← A rem B, signed (R99, R100). -/
def execRem (o : R3) (s : State) : Res := aluDiv o remS s

/-- `remz`: d ← A rem B, unsigned (R99, R100). -/
def execRemz (o : R3) (s : State) : Res := aluDiv o remU s

/-- `and`: d ← A and B (R99). -/
def execAnd (o : R3) (s : State) : Res := aluRR o (fun a b => a &&& b) s

/-- `or`: d ← A or B (R99). -/
def execOr (o : R3) (s : State) : Res := aluRR o (fun a b => a ||| b) s

/-- `xor`: d ← A xor B (R99). -/
def execXor (o : R3) (s : State) : Res := aluRR o (fun a b => a ^^^ b) s

/-- `andn`: d ← A and not B (R99). -/
def execAndn (o : R3) (s : State) : Res := aluRR o (fun a b => a &&& ~~~b) s

/-- `orn`: d ← A or not B (R99). -/
def execOrn (o : R3) (s : State) : Res := aluRR o (fun a b => a ||| ~~~b) s

/-- `shl`: d ← A shifted left by B[5:0] (R99). -/
def execShl (o : R3) (s : State) : Res := aluRR o (fun a b => a <<< shamt b) s

/-- `shr`: d ← A shifted right by B[5:0], zero fill (R99). -/
def execShr (o : R3) (s : State) : Res := aluRR o (fun a b => a >>> shamt b) s

/-- `sra`: d ← A shifted right by B[5:0], sign fill (R99). -/
def execSra (o : R3) (s : State) : Res := aluRR o (fun a b => a.sshiftRight (shamt b)) s

/-- `rotl`: d ← A rotated left by B[5:0] (R99). -/
def execRotl (o : R3) (s : State) : Res := aluRR o (fun a b => a.rotateLeft (shamt b)) s

/-- `rotr`: d ← A rotated right by B[5:0] (R99). -/
def execRotr (o : R3) (s : State) : Res := aluRR o (fun a b => a.rotateRight (shamt b)) s

/-- `min`: d ← the signed minimum (R99). -/
def execMin (o : R3) (s : State) : Res := aluRR o (fun a b => if b.slt a then b else a) s

/-- `max`: d ← the signed maximum (R99). -/
def execMax (o : R3) (s : State) : Res := aluRR o (fun a b => if a.slt b then b else a) s

/-- `minz`: d ← the unsigned minimum (R99). -/
def execMinz (o : R3) (s : State) : Res := aluRR o (fun a b => if b.ult a then b else a) s

/-- `maxz`: d ← the unsigned maximum (R99). -/
def execMaxz (o : R3) (s : State) : Res := aluRR o (fun a b => if a.ult b then b else a) s

/-- `seq`: d ← (A = B) (R99). -/
def execSeq (o : R3) (s : State) : Res := aluRR o (fun a b => flag (a == b)) s

/-- `sne`: d ← (A ≠ B) (R99). -/
def execSne (o : R3) (s : State) : Res := aluRR o (fun a b => flag (a != b)) s

/-- `slt`: d ← (A < B), signed (R99). -/
def execSlt (o : R3) (s : State) : Res := aluRR o (fun a b => flag (a.slt b)) s

/-- `sltz`: d ← (A < B), unsigned (R99). -/
def execSltz (o : R3) (s : State) : Res := aluRR o (fun a b => flag (a.ult b)) s

/-- `sle`: d ← (A ≤ B), signed (R99). -/
def execSle (o : R3) (s : State) : Res := aluRR o (fun a b => flag (a.sle b)) s

/-- `slez`: d ← (A ≤ B), unsigned (R99). -/
def execSlez (o : R3) (s : State) : Res := aluRR o (fun a b => flag (a.ule b)) s

/-- `clz`: d ← the leading zero bits of A (R99). -/
def execClz (o : R2) (s : State) : Res := aluR o (fun a => BitVec.ofNat 64 (clzNat 64 a.toNat)) s

/-- `ctz`: d ← the trailing zero bits of A (R99). -/
def execCtz (o : R2) (s : State) : Res := aluR o (fun a => BitVec.ofNat 64 (ctzNat 64 a.toNat)) s

/-- `popc`: d ← the number of 1 bits in A (R99). -/
def execPopc (o : R2) (s : State) : Res := aluR o (fun a => BitVec.ofNat 64 (popNat 64 a.toNat)) s

/-- `bswap`: d ← A with its bytes reversed (R99). -/
def execBswap (o : R2) (s : State) : Res := aluR o byteSwap s

/-- `addw`: d ← SEXT((A + B)[31:0]) (R99). -/
def execAddw (o : R3) (s : State) : Res := aluRR o (fun a b => sx32 (a + b)) s

/-- `subw`: d ← SEXT((A - B)[31:0]) (R99). -/
def execSubw (o : R3) (s : State) : Res := aluRR o (fun a b => sx32 (a - b)) s

/-- `mulw`: d ← SEXT((A[31:0] * B[31:0])[31:0]) (R99). -/
def execMulw (o : R3) (s : State) : Res := aluRR o (fun a b => sx32 (a * b)) s

/-- `addi`: d ← A + I (R101). -/
def execAddi (o : IOp) (s : State) : Res := aluImm o (fun a i => a + i) s

/-- `andi`: d ← A and I (R101). -/
def execAndi (o : IOp) (s : State) : Res := aluImm o (fun a i => a &&& i) s

/-- `ori`: d ← A or I (R101). -/
def execOri (o : IOp) (s : State) : Res := aluImm o (fun a i => a ||| i) s

/-- `xori`: d ← A xor I (R101). -/
def execXori (o : IOp) (s : State) : Res := aluImm o (fun a i => a ^^^ i) s

/-- `shli`: d ← A shifted left by n (R101). -/
def execShli (o : ShOp) (s : State) : Res := aluShift o (fun a n => a <<< n) s

/-- `shri`: d ← A shifted right by n, zero fill (R101). -/
def execShri (o : ShOp) (s : State) : Res := aluShift o (fun a n => a >>> n) s

/-- `srai`: d ← A shifted right by n, sign fill (R101). -/
def execSrai (o : ShOp) (s : State) : Res := aluShift o (fun a n => a.sshiftRight n) s

/-- `slti`: d ← (A < I), signed (R101). -/
def execSlti (o : IOp) (s : State) : Res := aluImm o (fun a i => flag (a.slt i)) s

/-- `sltzi`: d ← (A < I), unsigned, I sign-extended first (R77, R101). -/
def execSltzi (o : IOp) (s : State) : Res := aluImm o (fun a i => flag (a.ult i)) s

/-- `muli`: d ← (A * I)[63:0] (R101). -/
def execMuli (o : IOp) (s : State) : Res := aluImm o (fun a i => a * i) s

/-- `bfx`: d ← the field A[pos + len - 1 : pos], sign- or zero-extended (R102). -/
def execBfx (o : BfxOp) (s : State) : Res :=
  finish s do
    issueRule s [(.x o.a, o.wa)] [.x o.d]
    .ok ((s.putX o.d (bitField (s.xv o.a) o.pos.toNat (o.len1.toNat + 1) o.s)).advance 4)

/-- `bfi`: d ← D with a field replaced by the low bits of A (R102). -/
def execBfi (o : BfiOp) (s : State) : Res :=
  finish s do
    issueRule s [(.x o.a, o.wa)] [.x o.d]
    .ok ((s.putX o.d (insertField (s.xv o.d) (s.xv o.a) o.pos.toNat (o.len1.toNat + 1))).advance 4)

/-- `lui`: d ← the upper immediate (R101). -/
def execLui (o : UOp) (s : State) : Res :=
  finish s do
    issueRule s [] [.x o.d]
    .ok ((s.putX o.d (upper o.imm)).advance 4)

/-- `auipc`: d ← the address of the word plus the upper immediate (R101). -/
def execAuipc (o : UOp) (s : State) : Res :=
  finish s do
    issueRule s [] [.x o.d]
    .ok ((s.putX o.d (s.slot.pc.setWidth 64 + upper o.imm)).advance 4)

end Sys2Proof.Machine
end

