-- ==== Sys2Proof/Machine/Vector.lean ====
section
/-! DEFINITION. The vector instructions (R151-R166): lane operations, compares, lane moves, transfers, reductions, conversions and
vector draws. -/

namespace Sys2Proof.Machine

open Sys2Proof

/-! ### Forms -/

/-- The results of a lane operation, with the events of its active lanes (R151, R154). -/
def laneWise (mask : BitVec 16) (g : Nat → Rounded) : VVal × Events :=
  let rs := (List.range 16).map fun i => if mask.getLsbD i then g i else { bits := 0, ev := Events.zero }
  (lanes fun i => BitVec.ofNat 32 ((rs.map (·.bits)).getD i 0), Events.sum (rs.map (·.ev)))

/-- The results of an FP64 lane operation, with the events of its active lanes (R152, R154). -/
def laneWise64 (p : BitVec 16) (g : Nat → Rounded) : VVal × Events :=
  let rs := (List.range 8).map fun j => if p.getLsbD (2 * j) then g j else { bits := 0, ev := Events.zero }
  (lanes64 fun j => (rs.map (·.bits)).getD j 0, Events.sum (rs.map (·.ev)))

/-- A result without events. -/
def plain (v : Nat) : Rounded := { bits := v, ev := Events.zero }

/-- An instruction with v sources and a v destination: the issue rule, the pops, the lanes that `mask` lets it write, and its
events (R151-R155). Where an element popped, a draw and an element pushed would each fault, the first of these in that order does (DESIGN
CHOICE, log 75). -/
def vectorOp (s : State) (vd : VReg) (srcs : List (VReg × Bool)) (mask : BitVec 16) (r : VVal × Events) : Body State := do
  issueRule s (srcs.map fun r => (.v r.1, r.2)) [.v vd]
  let t ← popStreams s (s.slot.popsOf (srcs.map (·.1)))
  let (t, ev) ← writeV t vd mask r.1
  .ok ((t.advance 4).withEvents (r.2.plus ev))

/-- An FP32 or INT32 operation on two sources (R156, R158). -/
def vec2 (o : V2) (g : Nat → Nat → Rounded) (s : State) : Res :=
  let a := s.slot.srcV o.va
  let b := s.slot.srcV o.vb
  let p := s.slot.getP o.p
  finish s (vectorOp s o.vd [(o.va, o.wa), (o.vb, o.wb)] p
    (laneWise p fun i => g (laneOf a i).toNat (laneOf b i).toNat))

/-- An FP32 operation on three sources (R156). -/
def vec3 (o : V3) (g : Nat → Nat → Nat → Rounded) (s : State) : Res :=
  let a := s.slot.srcV o.va
  let b := s.slot.srcV o.vb
  let c := s.slot.srcV o.vc
  let p := s.slot.getP o.p
  finish s (vectorOp s o.vd [(o.va, o.wa), (o.vb, o.wb), (o.vc, o.wa)] p
    (laneWise p fun i => g (laneOf a i).toNat (laneOf b i).toNat (laneOf c i).toNat))

/-- An FP32 operation on one source (R156). -/
def vec1 (o : V1) (g : Nat → Rounded) (s : State) : Res :=
  let a := s.slot.srcV o.va
  let p := s.slot.getP o.p
  finish s (vectorOp s o.vd [(o.va, o.wa)] p (laneWise p fun i => g (laneOf a i).toNat))

/-- An FP64 operation on two sources (R157). -/
def dbl2 (o : V2) (g : Nat → Nat → Rounded) (s : State) : Res :=
  let a := s.slot.srcV o.va
  let b := s.slot.srcV o.vb
  let p := s.slot.getP o.p
  finish s (vectorOp s o.vd [(o.va, o.wa), (o.vb, o.wb)] (mask64 p)
    (laneWise64 p fun j => g (laneOf64 a j) (laneOf64 b j)))

/-- An FP64 operation on three sources (R157). -/
def dbl3 (o : V3) (g : Nat → Nat → Nat → Rounded) (s : State) : Res :=
  let a := s.slot.srcV o.va
  let b := s.slot.srcV o.vb
  let c := s.slot.srcV o.vc
  let p := s.slot.getP o.p
  finish s (vectorOp s o.vd [(o.va, o.wa), (o.vb, o.wb), (o.vc, o.wa)] (mask64 p)
    (laneWise64 p fun j => g (laneOf64 a j) (laneOf64 b j) (laneOf64 c j)))

/-- An FP64 operation on one source (R157). -/
def dbl1 (o : V1) (g : Nat → Rounded) (s : State) : Res :=
  let a := s.slot.srcV o.va
  let p := s.slot.getP o.p
  finish s (vectorOp s o.vd [(o.va, o.wa)] (mask64 p) (laneWise64 p fun j => g (laneOf64 a j)))

/-- An INT32 operation (R158). -/
def int2 (o : V2) (g : Word32 → Word32 → Word32) (s : State) : Res :=
  vec2 o (fun a b => plain (g (BitVec.ofNat 32 a) (BitVec.ofNat 32 b)).toNat) s

/-- A compare into a predicate register: every bit written, inactive lanes zero (R159). -/
def vecCmp (o : VcmpOp) (cond : Word32 → Word32 → Bool) (s : State) : Res :=
  finish s do
    issueRule s [(.v o.va, o.wa), (.v o.vb, o.wb)] []
    let a := s.slot.srcV o.va
    let b := s.slot.srcV o.vb
    let p := s.slot.getP o.p
    let t ← popStreams s (s.slot.popsOf [o.va, o.vb])
    let r := (List.range 16).foldl (fun r i => setBit r i (p.getLsbD i && cond (laneOf a i) (laneOf b i))) (0 : BitVec 16)
    .ok ((t.modSlot fun l => l.setP o.pd r).advance 4)

/-- A comparison of FP32 values (R159). -/
def cmpF (g : FVal → FVal → Bool) (a b : Word32) : Bool := g (fp32.decode a.toNat) (fp32.decode b.toNat)

/-- A floating-point or integer reduction of a v register into x (R162). -/
def vecRed (o : VredOp) (g : VVal → BitVec 16 → Rounded) (s : State) : Res :=
  finish s do
    issueRule s [(.v o.v, o.wa)] [.x o.x]
    let r := g (s.slot.srcV o.v) (s.slot.getP o.p)
    let t ← popStreams s (s.slot.popsOf [o.v])
    .ok (((t.putX o.x (BitVec.ofNat 64 r.bits)).advance 4).withEvents r.ev)

/-- The leaves of an FP32 reduction: an inactive lane is the identity (R52). -/
def leaves32 (v : VVal) (p : BitVec 16) (identity : Nat) : List Nat :=
  (List.range 16).map fun i => if p.getLsbD i then (laneOf v i).toNat else identity

/-- The leaves of an FP64 reduction (R52, R152). -/
def leaves64 (v : VVal) (p : BitVec 16) (identity : Nat) : List Nat :=
  (List.range 8).map fun j => if p.getLsbD (2 * j) then laneOf64 v j else identity

/-- The rounding modes of a conversion: RNE, RZ, or SR with one draw an element, whatever the predicate (R164); a draw in table mode
can take the faults of R65 here too, though R154 lists them for `vrand` and `vunif` and says that a vector instruction raises no others; no
text says which of the two rules holds (DEDUCED, log 51). -/
def convModes (s : State) (rnd : BitVec 2) (n : Nat) : Body (State × List RMode) :=
  if rnd = 1 then .ok (s, List.replicate n .rz) else modes s (rnd = 2) n

/-- A conversion with a rounding code, `n` elements: its pops, then its draws, then its push, each with the faults that it has (DESIGN CHOICE,
log 75); `form` makes the lanes from the elements' results (R163, R164). -/
def vecCvt (o : VcvtOp) (n : Nat) (mask : BitVec 16 → BitVec 16) (elem : VVal → List RMode → BitVec 16 → VVal × Events)
    (s : State) : Res :=
  finish s do
    issueRule s [(.v o.va, o.wa)] [.v o.vd]
    let a := s.slot.srcV o.va
    let p := s.slot.getP o.p
    let t ← popStreams s (s.slot.popsOf [o.va])
    let (t, ms) ← convModes t o.rnd n
    let r := elem a ms p
    let (t, ev) ← writeV t o.vd (mask p) r.1
    .ok ((t.advance 4).withEvents (r.2.plus ev))

/-- A conversion of sixteen elements (R163). -/
def cvt16 (o : VcvtOp) (g : RMode → Nat → Rounded) (s : State) : Res :=
  vecCvt o 16 id (fun a ms p => laneWise p fun i => g (ms.getD i .rne) (laneOf a i).toNat) s

/-- A conversion from FP64 lanes to the low eight lanes: element j is active by p[2j], lanes 8 to 15 are zero (R163). -/
def cvtDown (o : VcvtOp) (g : RMode → Nat → Rounded) (s : State) : Res :=
  vecCvt o 8 (fun p => (List.range 8).foldl (fun m j => setBit m j (p.getLsbD (2 * j))) (0xFF00 : BitVec 16))
    (fun a ms p =>
      laneWise ((List.range 8).foldl (fun m j => setBit m j (p.getLsbD (2 * j))) (0 : BitVec 16))
        fun j => g (ms.getD j .rne) (laneOf64 a j)) s

/-- An exact conversion of sixteen elements (R163). -/
def cvtX16 (o : VcvtXOp) (g : Nat → Rounded) (s : State) : Res :=
  let a := s.slot.srcV o.va
  let p := s.slot.getP o.p
  finish s (vectorOp s o.vd [(o.va, o.wa)] p (laneWise p fun i => g (laneOf a i).toNat))

/-- An exact conversion of the low eight lanes to FP64 lanes (R163). -/
def cvtUp (o : VcvtXOp) (g : Nat → Rounded) (s : State) : Res :=
  let a := s.slot.srcV o.va
  let p := s.slot.getP o.p
  finish s (vectorOp s o.vd [(o.va, o.wa)] (mask64 p) (laneWise64 p fun j => g (laneOf a j).toNat))

/-! ### FP32 lanes (R156) -/

/-- `vadd` -/
def execVadd (o : V2) (s : State) : Res := vec2 o fp32.add s
/-- `vsub` -/
def execVsub (o : V2) (s : State) : Res := vec2 o fp32.sub s
/-- `vmul` -/
def execVmul (o : V2) (s : State) : Res := vec2 o fp32.mul s
/-- `vfma`, one rounding -/
def execVfma (o : V3) (s : State) : Res := vec3 o (fun a b c => fp32.fma a b (fp32.decode c)) s
/-- `vfms`, one rounding -/
def execVfms (o : V3) (s : State) : Res := vec3 o (fun a b c => fp32.fma a b (fp32.decode c).neg) s
/-- `vmin` (R51) -/
def execVmin (o : V2) (s : State) : Res := vec2 o (fun a b => plain (fp32.minmax false a b)) s
/-- `vmax` (R51) -/
def execVmax (o : V2) (s : State) : Res := vec2 o (fun a b => plain (fp32.minmax true a b)) s
/-- `vabs`: bit 31 cleared -/
def execVabs (o : V1) (s : State) : Res := vec1 o (fun a => plain (a % 2 ^ 31)) s
/-- `vneg`: bit 31 inverted -/
def execVneg (o : V1) (s : State) : Res := vec1 o (fun a => plain (a ^^^ 2 ^ 31)) s
/-- `vdiv` -/
def execVdiv (o : V2) (s : State) : Res := vec2 o fp32.div s
/-- `vsqrt` -/
def execVsqrt (o : V1) (s : State) : Res := vec1 o fp32.sqrt s
/-- `vexp2` -/
def execVexp2 (o : V1) (s : State) : Res := vec1 o fp32.exp2 s
/-- `vlog2` -/
def execVlog2 (o : V1) (s : State) : Res := vec1 o fp32.log2 s
/-- `vfloor` -/
def execVfloor (o : V1) (s : State) : Res := vec1 o (fun a => plain (fp32.floor a)) s

/-! ### FP64 lanes (R157) -/

/-- `dadd` -/
def execDadd (o : V2) (s : State) : Res := dbl2 o fp64.add s
/-- `dsub` -/
def execDsub (o : V2) (s : State) : Res := dbl2 o fp64.sub s
/-- `dmul` -/
def execDmul (o : V2) (s : State) : Res := dbl2 o fp64.mul s
/-- `dfma`, one rounding -/
def execDfma (o : V3) (s : State) : Res := dbl3 o (fun a b c => fp64.fma a b (fp64.decode c)) s
/-- `dmin` (R51) -/
def execDmin (o : V2) (s : State) : Res := dbl2 o (fun a b => plain (fp64.minmax false a b)) s
/-- `dmax` (R51) -/
def execDmax (o : V2) (s : State) : Res := dbl2 o (fun a b => plain (fp64.minmax true a b)) s
/-- `ddiv` -/
def execDdiv (o : V2) (s : State) : Res := dbl2 o fp64.div s
/-- `dsqrt` -/
def execDsqrt (o : V1) (s : State) : Res := dbl1 o fp64.sqrt s
/-- `dln` -/
def execDln (o : V1) (s : State) : Res := dbl1 o fp64.ln s
/-- `dexp` -/
def execDexp (o : V1) (s : State) : Res := dbl1 o fp64.exp s

/-! ### INT32 lanes (R158) -/

/-- `viadd` -/
def execViadd (o : V2) (s : State) : Res := int2 o (fun a b => a + b) s
/-- `visub` -/
def execVisub (o : V2) (s : State) : Res := int2 o (fun a b => a - b) s
/-- `vimul` -/
def execVimul (o : V2) (s : State) : Res := int2 o (fun a b => a * b) s
/-- `viand` -/
def execViand (o : V2) (s : State) : Res := int2 o (fun a b => a &&& b) s
/-- `vior` -/
def execVior (o : V2) (s : State) : Res := int2 o (fun a b => a ||| b) s
/-- `vixor` -/
def execVixor (o : V2) (s : State) : Res := int2 o (fun a b => a ^^^ b) s
/-- `vishl` -/
def execVishl (o : V2) (s : State) : Res := int2 o (fun a b => a <<< (b.toNat % 32)) s
/-- `vishr` -/
def execVishr (o : V2) (s : State) : Res := int2 o (fun a b => a >>> (b.toNat % 32)) s
/-- `visra` -/
def execVisra (o : V2) (s : State) : Res := int2 o (fun a b => a.sshiftRight (b.toNat % 32)) s
/-- `vimin` -/
def execVimin (o : V2) (s : State) : Res := int2 o (fun a b => if b.slt a then b else a) s
/-- `vimax` -/
def execVimax (o : V2) (s : State) : Res := int2 o (fun a b => if a.slt b then b else a) s
/-- `viminz` -/
def execViminz (o : V2) (s : State) : Res := int2 o (fun a b => if b.ult a then b else a) s
/-- `vimaxz` -/
def execVimaxz (o : V2) (s : State) : Res := int2 o (fun a b => if a.ult b then b else a) s

/-! ### Compares (R159) -/

/-- `vfeq` -/
def execVfeq (o : VcmpOp) (s : State) : Res := vecCmp o (cmpF FVal.feq) s
/-- `vflt` -/
def execVflt (o : VcmpOp) (s : State) : Res := vecCmp o (cmpF (FVal.lt false)) s
/-- `vfle` -/
def execVfle (o : VcmpOp) (s : State) : Res := vecCmp o (cmpF fun a b => a.feq b || FVal.lt false a b) s
/-- `vfne` -/
def execVfne (o : VcmpOp) (s : State) : Res := vecCmp o (cmpF fun a b => !a.feq b) s
/-- `vieq` -/
def execVieq (o : VcmpOp) (s : State) : Res := vecCmp o (fun a b => a == b) s
/-- `vilt`, signed -/
def execVilt (o : VcmpOp) (s : State) : Res := vecCmp o (fun a b => a.slt b) s
/-- `vile`, signed -/
def execVile (o : VcmpOp) (s : State) : Res := vecCmp o (fun a b => a.sle b) s
/-- `viltz`, unsigned -/
def execViltz (o : VcmpOp) (s : State) : Res := vecCmp o (fun a b => a.ult b) s

/-! ### Lane moves (R160) -/

/-- A move of lanes, copied exactly: the sources are read before any lane is written. -/
def laneMove (s : State) (vd : VReg) (srcs : List (VReg × Bool)) (mask : BitVec 16) (f : Nat → Word32) : Res :=
  finish s (vectorOp s vd srcs mask (lanes f, Events.zero))

/-- `vsel`: all sixteen lanes are written; p selects and does not mask. -/
def execVsel (o : V2) (s : State) : Res :=
  laneMove s o.vd [(o.va, o.wa), (o.vb, o.wb)] (BitVec.allOnes 16) fun i =>
    if (s.slot.getP o.p).getLsbD i then laneOf (s.slot.srcV o.va) i else laneOf (s.slot.srcV o.vb) i

/-- `vperm`. -/
def execVperm (o : V2) (s : State) : Res :=
  laneMove s o.vd [(o.va, o.wa), (o.vb, o.wb)] (s.slot.getP o.p) fun i =>
    laneOf (s.slot.srcV o.va) ((laneOf (s.slot.srcV o.vb) i).toNat % 16)

/-- `vslide`. -/
def execVslide (o : VslideOp) (s : State) : Res :=
  laneMove s o.vd [(o.va, o.wa), (o.vb, o.wb)] (s.slot.getP o.p) fun i =>
    if i + o.n.toNat ≤ 15 then laneOf (s.slot.srcV o.va) (i + o.n.toNat)
    else laneOf (s.slot.srcV o.vb) (i + o.n.toNat - 16)

/-- `vmov`. -/
def execVmov (o : V1) (s : State) : Res :=
  laneMove s o.vd [(o.va, o.wa)] (s.slot.getP o.p) fun i => laneOf (s.slot.srcV o.va) i

/-- `viota`. -/
def execViota (o : V0) (s : State) : Res := laneMove s o.vd [] (s.slot.getP o.p) fun i => BitVec.ofNat 32 i

/-! ### Transfers and reductions (R161, R162) -/

/-- `vbcast`. -/
def execVbcast (o : VbcastOp) (s : State) : Res :=
  finish s do
    issueRule s [(.x o.x, o.wb)] [.v o.v]
    let (t, ev) ← writeV s o.v (s.slot.getP o.p) (lanes fun _ => (s.xv o.x).setWidth 32)
    .ok ((t.advance 4).withEvents ev)

/-- `vext`: an input stream pops even where x is x0. -/
def execVext (o : VextOp) (s : State) : Res :=
  finish s do
    issueRule s [(.v o.v, o.wa)] [.x o.x]
    let w := laneOf (s.slot.srcV o.v) o.w.toNat
    let t ← popStreams s (s.slot.popsOf [o.v])
    .ok ((t.putX o.x (w.signExtend 64)).advance 4)

/-- `vins`: it reads its destination, so a stream register is ILLEGAL in either direction (R155), an input stream with no element ready without
a wait for one (DESIGN CHOICE, log 76). -/
def execVins (o : VinsOp) (s : State) : Res :=
  finish s do
    issueRule s [(.x o.x, o.wb)] (if (s.slot.streamOf o.v).isSome then [] else [.v o.v])
    if (s.slot.streamOf o.v).isSome then trapIllegal s
    else
      let w := (s.xv o.x).setWidth 32
      .ok ((s.modSlot fun l => l.setV o.v ((l.getV o.v).setIfInBounds o.w.toNat w)).advance 4)

/-- `vsum`: a tree of RN32 nodes. -/
def execVsum (o : VredOp) (s : State) : Res := vecRed o (fun v p => pairTree fp32.add 4 (leaves32 v p 0x8000_0000)) s
/-- `vmaxr`. -/
def execVmaxr (o : VredOp) (s : State) : Res :=
  vecRed o (fun v p => pairTree (fun a b => plain (fp32.minmax true a b)) 4 (leaves32 v p 0xFF80_0000)) s
/-- `vminr`. -/
def execVminr (o : VredOp) (s : State) : Res :=
  vecRed o (fun v p => pairTree (fun a b => plain (fp32.minmax false a b)) 4 (leaves32 v p 0x7F80_0000)) s
/-- `visum`: the exact sum of the active lanes. -/
def execVisum (o : VredOp) (s : State) : Res :=
  vecRed o (fun v p => plain ((List.range 16).foldl (fun (t : Word) i =>
    if p.getLsbD i then t + (laneOf v i).signExtend 64 else t) 0).toNat) s
/-- `vdsum`: a tree of RN64 nodes. -/
def execVdsum (o : VredOp) (s : State) : Res :=
  vecRed o (fun v p => pairTree fp64.add 3 (leaves64 v p 0x8000_0000_0000_0000)) s

/-- `vpcnt`: the number of set bits of p. -/
def execVpcnt (o : VpcntOp) (s : State) : Res :=
  finish s do
    issueRule s [] [.x o.x]
    let p := s.slot.getP o.p
    .ok ((s.putX o.x (BitVec.ofNat 64 ((List.range 16).filter fun i => p.getLsbD i).length)).advance 4)

/-! ### Conversions (R163, R164) -/

/-- `vcvt.e4m3.f32` -/
def execVcvtE4m3F32 (o : VcvtOp) (s : State) : Res := cvt16 o (fun m a => fmtE4m3.convert m (fp32.decode a)) s
/-- `vcvt.e5m2.f32` -/
def execVcvtE5m2F32 (o : VcvtOp) (s : State) : Res := cvt16 o (fun m a => fmtE5m2.convert m (fp32.decode a)) s
/-- `vcvt.bf16.f32` -/
def execVcvtBf16F32 (o : VcvtOp) (s : State) : Res := cvt16 o (fun m a => fmtBf16.convert m (fp32.decode a)) s
/-- `vcvt.f16.f32` -/
def execVcvtF16F32 (o : VcvtOp) (s : State) : Res := cvt16 o (fun m a => fmtFp16.convert m (fp32.decode a)) s
/-- `vcvt.f32.e4m3` -/
def execVcvtF32E4m3 (o : VcvtXOp) (s : State) : Res := cvtX16 o (fun a => fp32.convert .rne (fmtE4m3.decode (a % 2 ^ 8))) s
/-- `vcvt.f32.e5m2` -/
def execVcvtF32E5m2 (o : VcvtXOp) (s : State) : Res := cvtX16 o (fun a => fp32.convert .rne (fmtE5m2.decode (a % 2 ^ 8))) s
/-- `vcvt.f32.bf16` -/
def execVcvtF32Bf16 (o : VcvtXOp) (s : State) : Res := cvtX16 o (fun a => fp32.convert .rne (fmtBf16.decode (a % 2 ^ 16))) s
/-- `vcvt.f32.f16` -/
def execVcvtF32F16 (o : VcvtXOp) (s : State) : Res := cvtX16 o (fun a => fp32.convert .rne (fmtFp16.decode (a % 2 ^ 16))) s

/-- An integer in 32 bits. -/
def int32 (i : Int) : Rounded := plain (BitVec.ofInt 32 i).toNat

/-- The signed value of 32 bits. -/
def ofInt32 (a : Nat) : Int := (BitVec.ofNat 32 a).toInt

/-- `vcvt.i32.f32` -/
def execVcvtI32F32 (o : VcvtOp) (s : State) : Res := cvt16 o (fun m a => int32 ((fp32.decode a).toInt m (-2 ^ 31) (2 ^ 31 - 1))) s
/-- `vcvt.f32.i32` -/
def execVcvtF32I32 (o : VcvtOp) (s : State) : Res := cvt16 o (fun m a => fp32.ofInt m (ofInt32 a)) s
/-- `vcvt.f64.f32` -/
def execVcvtF64F32 (o : VcvtXOp) (s : State) : Res := cvtUp o (fun a => fp64.convert .rne (fp32.decode a)) s
/-- `vcvt.f32.f64` -/
def execVcvtF32F64 (o : VcvtOp) (s : State) : Res := cvtDown o (fun m a => fp32.convert m (fp64.decode a)) s
/-- `vcvt.i32.f64` -/
def execVcvtI32F64 (o : VcvtOp) (s : State) : Res := cvtDown o (fun m a => int32 ((fp64.decode a).toInt m (-2 ^ 31) (2 ^ 31 - 1))) s
/-- `vcvt.f64.i32` -/
def execVcvtF64I32 (o : VcvtXOp) (s : State) : Res := cvtUp o (fun a => fp64.ofInt .rne (ofInt32 a)) s
/-- `vcvt.i8.i32`, saturated, nothing counted -/
def execVcvtI8I32 (o : VcvtXOp) (s : State) : Res := cvtX16 o (fun a => plain (BitVec.ofInt 8 (satInt8 (BitVec.ofNat 32 a))).toNat) s
/-- `vcvt.i32.i8` -/
def execVcvtI32I8 (o : VcvtXOp) (s : State) : Res := cvtX16 o (fun a => plain ((BitVec.ofNat 8 a).signExtend 32).toNat) s

/-! ### Random draws (R165) -/

/-- The lanes of eight draws, the low half of each first. -/
def drawLanes (ws : List Word) (g : Nat → Nat) : VVal :=
  lanes fun i => BitVec.ofNat 32 (g ((ws.getD (i / 2) 0).toNat / 2 ^ (32 * (i % 2)) % 2 ^ 32))

/-- The FP32 pick uniform of a 32-bit word: w[31:8] * 2^-24 (R66). -/
def pick32 (w : Nat) : Nat := if w / 256 = 0 then 0 else (fp32.round .rne false (w / 256) (-24)).bits

/-- A vector draw: the generator advances at issue, the destination is left empty, and the context is held until it is full. An
element for an output stream is pushed at issue, so that its faults leave the generator as it was (R9, R154, R166); those of the draws come
first (DESIGN CHOICE, log 75). -/
def vectorDraw (o : V0) (g : Nat → Nat) (s : State) : Res :=
  finish s do
    issueRule s [] [.v o.vd]
    let (t, ws) ← draws s 8
    let p := s.slot.getP o.p
    if (t.slot.streamOf o.vd).isSome then do
      let (t, ev) ← writeV t o.vd p (drawLanes ws g)
      .error (.held (t.sendAnswered 0 (.rand none 0 p VVal.zero ev) (.word 0 false)))
    else
      let t := t.modSlot fun l => l.markV o.vd false
      .error (.held (t.sendAnswered 0 (.rand (some o.vd) 0 p (drawLanes ws g) Events.zero) (.word 0 false)))

/-- `vrand`. -/
def execVrand (o : V0) (s : State) : Res := vectorDraw o id s
/-- `vunif`. -/
def execVunif (o : V0) (s : State) : Res := vectorDraw o pick32 s

end Sys2Proof.Machine
end

