-- ==== Sys2Proof/Machine/Dispatch.lean ====
section
/-! DEFINITION. The dispatch: one arm for every instruction and event of the opcode table. -/

namespace Sys2Proof.Machine

open Sys2Proof

/-- What an instruction or event does in a state. An instruction acts for the slot State.cur; an event that has nothing to act
on changes nothing. -/
def exec (i : Instr) (s : State) : Host.Outcome State Fault Refusal :=
  match i with
  | .add o => Sys2Proof.Machine.execAdd o s
  | .sub o => Sys2Proof.Machine.execSub o s
  | .mul o => Sys2Proof.Machine.execMul o s
  | .mulh o => Sys2Proof.Machine.execMulh o s
  | .mulhz o => Sys2Proof.Machine.execMulhz o s
  | .div o => Sys2Proof.Machine.execDiv o s
  | .divz o => Sys2Proof.Machine.execDivz o s
  | .rem o => Sys2Proof.Machine.execRem o s
  | .remz o => Sys2Proof.Machine.execRemz o s
  | .and_ o => Sys2Proof.Machine.execAnd o s
  | .or_ o => Sys2Proof.Machine.execOr o s
  | .xor_ o => Sys2Proof.Machine.execXor o s
  | .andn o => Sys2Proof.Machine.execAndn o s
  | .orn o => Sys2Proof.Machine.execOrn o s
  | .shl o => Sys2Proof.Machine.execShl o s
  | .shr o => Sys2Proof.Machine.execShr o s
  | .sra o => Sys2Proof.Machine.execSra o s
  | .rotl o => Sys2Proof.Machine.execRotl o s
  | .rotr o => Sys2Proof.Machine.execRotr o s
  | .min_ o => Sys2Proof.Machine.execMin o s
  | .max_ o => Sys2Proof.Machine.execMax o s
  | .minz o => Sys2Proof.Machine.execMinz o s
  | .maxz o => Sys2Proof.Machine.execMaxz o s
  | .seq o => Sys2Proof.Machine.execSeq o s
  | .sne o => Sys2Proof.Machine.execSne o s
  | .slt o => Sys2Proof.Machine.execSlt o s
  | .sltz o => Sys2Proof.Machine.execSltz o s
  | .sle o => Sys2Proof.Machine.execSle o s
  | .slez o => Sys2Proof.Machine.execSlez o s
  | .clz o => Sys2Proof.Machine.execClz o s
  | .ctz o => Sys2Proof.Machine.execCtz o s
  | .popc o => Sys2Proof.Machine.execPopc o s
  | .bswap o => Sys2Proof.Machine.execBswap o s
  | .addw o => Sys2Proof.Machine.execAddw o s
  | .subw o => Sys2Proof.Machine.execSubw o s
  | .mulw o => Sys2Proof.Machine.execMulw o s
  | .addi o => Sys2Proof.Machine.execAddi o s
  | .andi o => Sys2Proof.Machine.execAndi o s
  | .ori o => Sys2Proof.Machine.execOri o s
  | .xori o => Sys2Proof.Machine.execXori o s
  | .shli o => Sys2Proof.Machine.execShli o s
  | .shri o => Sys2Proof.Machine.execShri o s
  | .srai o => Sys2Proof.Machine.execSrai o s
  | .slti o => Sys2Proof.Machine.execSlti o s
  | .sltzi o => Sys2Proof.Machine.execSltzi o s
  | .muli o => Sys2Proof.Machine.execMuli o s
  | .bfx o => Sys2Proof.Machine.execBfx o s
  | .bfi o => Sys2Proof.Machine.execBfi o s
  | .lui o => Sys2Proof.Machine.execLui o s
  | .auipc o => Sys2Proof.Machine.execAuipc o s
  | .beq o => Sys2Proof.Machine.execBeq o s
  | .bne o => Sys2Proof.Machine.execBne o s
  | .blt o => Sys2Proof.Machine.execBlt o s
  | .bge o => Sys2Proof.Machine.execBge o s
  | .bltz o => Sys2Proof.Machine.execBltz o s
  | .bgez o => Sys2Proof.Machine.execBgez o s
  | .jal o => Sys2Proof.Machine.execJal o s
  | .jalr o => Sys2Proof.Machine.execJalr o s
  | .loop o => Sys2Proof.Machine.execLoop o s
  | .lix o => Sys2Proof.Machine.execLix o s
  | .csel o => Sys2Proof.Machine.execCsel o s
  | .ldb o => Sys2Proof.Machine.execLdb o s
  | .ldzb o => Sys2Proof.Machine.execLdzb o s
  | .ldh o => Sys2Proof.Machine.execLdh o s
  | .ldzh o => Sys2Proof.Machine.execLdzh o s
  | .ldw o => Sys2Proof.Machine.execLdw o s
  | .ldzw o => Sys2Proof.Machine.execLdzw o s
  | .ldd o => Sys2Proof.Machine.execLdd o s
  | .ldaw o => Sys2Proof.Machine.execLdaw o s
  | .ldad o => Sys2Proof.Machine.execLdad o s
  | .stb o => Sys2Proof.Machine.execStb o s
  | .sth o => Sys2Proof.Machine.execSth o s
  | .stw o => Sys2Proof.Machine.execStw o s
  | .std o => Sys2Proof.Machine.execStd o s
  | .strw o => Sys2Proof.Machine.execStrw o s
  | .strd o => Sys2Proof.Machine.execStrd o s
  | .jst o => Sys2Proof.Machine.execJst o s
  | .vld o => Sys2Proof.Machine.execVld o s
  | .vst o => Sys2Proof.Machine.execVst o s
  | .vldx o => Sys2Proof.Machine.execVldx o s
  | .vstx o => Sys2Proof.Machine.execVstx o s
  | .amoadd o => Sys2Proof.Machine.execAmoadd o s
  | .amoand o => Sys2Proof.Machine.execAmoand o s
  | .amoor o => Sys2Proof.Machine.execAmoor o s
  | .amoxor o => Sys2Proof.Machine.execAmoxor o s
  | .amomin o => Sys2Proof.Machine.execAmomin o s
  | .amomax o => Sys2Proof.Machine.execAmomax o s
  | .amominz o => Sys2Proof.Machine.execAmominz o s
  | .amomaxz o => Sys2Proof.Machine.execAmomaxz o s
  | .amoswap o => Sys2Proof.Machine.execAmoswap o s
  | .amocas o => Sys2Proof.Machine.execAmocas o s
  | .amofadd o => Sys2Proof.Machine.execAmofadd o s
  | .amofmin o => Sys2Proof.Machine.execAmofmin o s
  | .amofmax o => Sys2Proof.Machine.execAmofmax o s
  | .redadd o => Sys2Proof.Machine.execRedadd o s
  | .redand o => Sys2Proof.Machine.execRedand o s
  | .redor o => Sys2Proof.Machine.execRedor o s
  | .redxor o => Sys2Proof.Machine.execRedxor o s
  | .redmin o => Sys2Proof.Machine.execRedmin o s
  | .redmax o => Sys2Proof.Machine.execRedmax o s
  | .redminz o => Sys2Proof.Machine.execRedminz o s
  | .redmaxz o => Sys2Proof.Machine.execRedmaxz o s
  | .redfadd o => Sys2Proof.Machine.execRedfadd o s
  | .redfmin o => Sys2Proof.Machine.execRedfmin o s
  | .redfmax o => Sys2Proof.Machine.execRedfmax o s
  | .joinc o => Sys2Proof.Machine.execJoinc o s
  | .fenceAcq o => Sys2Proof.Machine.execFenceAcq o s
  | .fenceRel o => Sys2Proof.Machine.execFenceRel o s
  | .fenceFull o => Sys2Proof.Machine.execFenceFull o s
  | .vfence o => Sys2Proof.Machine.execVfence o s
  | .cbinit o => Sys2Proof.Machine.execCbinit o s
  | .cbarrive o => Sys2Proof.Machine.execCbarrive o s
  | .cbexpect o => Sys2Proof.Machine.execCbexpect o s
  | .cbwait o => Sys2Proof.Machine.execCbwait o s
  | .cbtwait o => Sys2Proof.Machine.execCbtwait o s
  | .cbtest o => Sys2Proof.Machine.execCbtest o s
  | .wbjoin o => Sys2Proof.Machine.execWbjoin o s
  | .wbleave o => Sys2Proof.Machine.execWbleave o s
  | .wbarrive o => Sys2Proof.Machine.execWbarrive o s
  | .wbwait o => Sys2Proof.Machine.execWbwait o s
  | .wbtwait o => Sys2Proof.Machine.execWbtwait o s
  | .wbget o => Sys2Proof.Machine.execWbget o s
  | .ctrg o => Sys2Proof.Machine.execCtrg o s
  | .nbinit o => Sys2Proof.Machine.execNbinit o s
  | .postv o => Sys2Proof.Machine.execPostv o s
  | .nbread o => Sys2Proof.Machine.execNbread o s
  | .vtest o => Sys2Proof.Machine.execVtest o s
  | .vcount o => Sys2Proof.Machine.execVcount o s
  | .vadd o => Sys2Proof.Machine.execVadd o s
  | .vsub o => Sys2Proof.Machine.execVsub o s
  | .vmul o => Sys2Proof.Machine.execVmul o s
  | .vfma o => Sys2Proof.Machine.execVfma o s
  | .vfms o => Sys2Proof.Machine.execVfms o s
  | .vmin o => Sys2Proof.Machine.execVmin o s
  | .vmax o => Sys2Proof.Machine.execVmax o s
  | .vabs o => Sys2Proof.Machine.execVabs o s
  | .vneg o => Sys2Proof.Machine.execVneg o s
  | .vdiv o => Sys2Proof.Machine.execVdiv o s
  | .vsqrt o => Sys2Proof.Machine.execVsqrt o s
  | .vexp2 o => Sys2Proof.Machine.execVexp2 o s
  | .vlog2 o => Sys2Proof.Machine.execVlog2 o s
  | .vfloor o => Sys2Proof.Machine.execVfloor o s
  | .dadd o => Sys2Proof.Machine.execDadd o s
  | .dsub o => Sys2Proof.Machine.execDsub o s
  | .dmul o => Sys2Proof.Machine.execDmul o s
  | .dfma o => Sys2Proof.Machine.execDfma o s
  | .dmin o => Sys2Proof.Machine.execDmin o s
  | .dmax o => Sys2Proof.Machine.execDmax o s
  | .ddiv o => Sys2Proof.Machine.execDdiv o s
  | .dsqrt o => Sys2Proof.Machine.execDsqrt o s
  | .dln o => Sys2Proof.Machine.execDln o s
  | .dexp o => Sys2Proof.Machine.execDexp o s
  | .viadd o => Sys2Proof.Machine.execViadd o s
  | .visub o => Sys2Proof.Machine.execVisub o s
  | .vimul o => Sys2Proof.Machine.execVimul o s
  | .viand o => Sys2Proof.Machine.execViand o s
  | .vior o => Sys2Proof.Machine.execVior o s
  | .vixor o => Sys2Proof.Machine.execVixor o s
  | .vishl o => Sys2Proof.Machine.execVishl o s
  | .vishr o => Sys2Proof.Machine.execVishr o s
  | .visra o => Sys2Proof.Machine.execVisra o s
  | .vimin o => Sys2Proof.Machine.execVimin o s
  | .vimax o => Sys2Proof.Machine.execVimax o s
  | .viminz o => Sys2Proof.Machine.execViminz o s
  | .vimaxz o => Sys2Proof.Machine.execVimaxz o s
  | .vfeq o => Sys2Proof.Machine.execVfeq o s
  | .vflt o => Sys2Proof.Machine.execVflt o s
  | .vfle o => Sys2Proof.Machine.execVfle o s
  | .vfne o => Sys2Proof.Machine.execVfne o s
  | .vieq o => Sys2Proof.Machine.execVieq o s
  | .vilt o => Sys2Proof.Machine.execVilt o s
  | .vile o => Sys2Proof.Machine.execVile o s
  | .viltz o => Sys2Proof.Machine.execViltz o s
  | .vsel o => Sys2Proof.Machine.execVsel o s
  | .vperm o => Sys2Proof.Machine.execVperm o s
  | .vslide o => Sys2Proof.Machine.execVslide o s
  | .vmov o => Sys2Proof.Machine.execVmov o s
  | .viota o => Sys2Proof.Machine.execViota o s
  | .vbcast o => Sys2Proof.Machine.execVbcast o s
  | .vext o => Sys2Proof.Machine.execVext o s
  | .vins o => Sys2Proof.Machine.execVins o s
  | .vsum o => Sys2Proof.Machine.execVsum o s
  | .vmaxr o => Sys2Proof.Machine.execVmaxr o s
  | .vminr o => Sys2Proof.Machine.execVminr o s
  | .visum o => Sys2Proof.Machine.execVisum o s
  | .vdsum o => Sys2Proof.Machine.execVdsum o s
  | .vpcnt o => Sys2Proof.Machine.execVpcnt o s
  | .vcvtE4m3F32 o => Sys2Proof.Machine.execVcvtE4m3F32 o s
  | .vcvtE5m2F32 o => Sys2Proof.Machine.execVcvtE5m2F32 o s
  | .vcvtBf16F32 o => Sys2Proof.Machine.execVcvtBf16F32 o s
  | .vcvtF16F32 o => Sys2Proof.Machine.execVcvtF16F32 o s
  | .vcvtF32E4m3 o => Sys2Proof.Machine.execVcvtF32E4m3 o s
  | .vcvtF32E5m2 o => Sys2Proof.Machine.execVcvtF32E5m2 o s
  | .vcvtF32Bf16 o => Sys2Proof.Machine.execVcvtF32Bf16 o s
  | .vcvtF32F16 o => Sys2Proof.Machine.execVcvtF32F16 o s
  | .vcvtI32F32 o => Sys2Proof.Machine.execVcvtI32F32 o s
  | .vcvtF32I32 o => Sys2Proof.Machine.execVcvtF32I32 o s
  | .vcvtF64F32 o => Sys2Proof.Machine.execVcvtF64F32 o s
  | .vcvtF32F64 o => Sys2Proof.Machine.execVcvtF32F64 o s
  | .vcvtI32F64 o => Sys2Proof.Machine.execVcvtI32F64 o s
  | .vcvtF64I32 o => Sys2Proof.Machine.execVcvtF64I32 o s
  | .vcvtI8I32 o => Sys2Proof.Machine.execVcvtI8I32 o s
  | .vcvtI32I8 o => Sys2Proof.Machine.execVcvtI32I8 o s
  | .vrand o => Sys2Proof.Machine.execVrand o s
  | .vunif o => Sys2Proof.Machine.execVunif o s
  | .mmaBf16 o => Sys2Proof.Machine.execMmaBf16 o s
  | .mmaE4m3 o => Sys2Proof.Machine.execMmaE4m3 o s
  | .mmaE5m2 o => Sys2Proof.Machine.execMmaE5m2 o s
  | .mmaXf8 o => Sys2Proof.Machine.execMmaXf8 o s
  | .accld o => Sys2Proof.Machine.execAccld o s
  | .accst o => Sys2Proof.Machine.execAccst o s
  | .acczero o => Sys2Proof.Machine.execAcczero o s
  | .mmresume o => Sys2Proof.Machine.execMmresume o s
  | .mmwait o => Sys2Proof.Machine.execMmwait o s
  | .vgemv o => Sys2Proof.Machine.execVgemv o s
  | .vcodes o => Sys2Proof.Machine.execVcodes o s
  | .copy o => Sys2Proof.Machine.execCopy o s
  | .gather o => Sys2Proof.Machine.execGather o s
  | .scatter o => Sys2Proof.Machine.execScatter o s
  | .mcast o => Sys2Proof.Machine.execMcast o s
  | .ata o => Sys2Proof.Machine.execAta o s
  | .castle o => Sys2Proof.Machine.execCastle o s
  | .scfg o => Sys2Proof.Machine.execScfg o s
  | .sstop o => Sys2Proof.Machine.execSstop o s
  | .sflush o => Sys2Proof.Machine.execSflush o s
  | .spawn o => Sys2Proof.Machine.execSpawn o s
  | .spawnd o => Sys2Proof.Machine.execSpawnd o s
  | .fork o => Sys2Proof.Machine.execFork o s
  | .migrate o => Sys2Proof.Machine.execMigrate o s
  | .callat o => Sys2Proof.Machine.execCallat o s
  | .reply o => Sys2Proof.Machine.execReply o s
  | .done o => Sys2Proof.Machine.execDone o s
  | .trigger o => Sys2Proof.Machine.execTrigger o s
  | .tcfg o => Sys2Proof.Machine.execTcfg o s
  | .tset o => Sys2Proof.Machine.execTset o s
  | .tsetv o => Sys2Proof.Machine.execTsetv o s
  | .tsetx o => Sys2Proof.Machine.execTsetx o s
  | .tget o => Sys2Proof.Machine.execTget o s
  | .troot o => Sys2Proof.Machine.execTroot o s
  | .tbuild o => Sys2Proof.Machine.execTbuild o s
  | .tnext o => Sys2Proof.Machine.execTnext o s
  | .tdraw o => Sys2Proof.Machine.execTdraw o s
  | .tdesc o => Sys2Proof.Machine.execTdesc o s
  | .tthr o => Sys2Proof.Machine.execTthr o s
  | .tcut o => Sys2Proof.Machine.execTcut o s
  | .bsend o => Sys2Proof.Machine.execBsend o s
  | .tmsg o => Sys2Proof.Machine.execTmsg o s
  | .jundo o => Sys2Proof.Machine.execJundo o s
  | .jtrim o => Sys2Proof.Machine.execJtrim o s
  | .jmark o => Sys2Proof.Machine.execJmark o s
  | .rand o => Sys2Proof.Machine.execRand o s
  | .unif o => Sys2Proof.Machine.execUnif o s
  | .nop o => Sys2Proof.Machine.execNop o s
  | .trap o => Sys2Proof.Machine.execTrap o s
  | .brk o => Sys2Proof.Machine.execBrk o s
  | .rfe o => Sys2Proof.Machine.execRfe o s
  | .yield o => Sys2Proof.Machine.execYield o s
  | .ifence o => Sys2Proof.Machine.execIfence o s
  | .halt o => Sys2Proof.Machine.execHalt o s
  | .fe o => Sys2Proof.Machine.execFe o s
  | .tlbinv o => Sys2Proof.Machine.execTlbinv o s
  | .tlbprobe o => Sys2Proof.Machine.execTlbprobe o s
  | .time o => Sys2Proof.Machine.execTime o s
  | .ctrr o => Sys2Proof.Machine.execCtrr o s
  | .crr o => Sys2Proof.Machine.execCrr o s
  | .crw o => Sys2Proof.Machine.execCrw o s
  | .crs o => Sys2Proof.Machine.execCrs o s
  | .crc o => Sys2Proof.Machine.execCrc o s
  | .asyncSupervisorCause o => Sys2Proof.Machine.execAsyncSupervisorCause o s
  | .copydone o => Sys2Proof.Machine.execCopydone o s
  | .returningOperationComplete n => Sys2Proof.Machine.execReturningOperationComplete n s
  | .storeAcknowledgement n => Sys2Proof.Machine.execStoreAcknowledgement n s
  | .homeAccess n => Sys2Proof.Machine.execHomeAccess n s
  | .pageWalkComplete n => Sys2Proof.Machine.execPageWalkComplete n s
  | .cbHomeOperation n => Sys2Proof.Machine.execCbHomeOperation n s
  | .cbtwaitExpiry o => Sys2Proof.Machine.execCbtwaitExpiry o s
  | .wbJoinAck n => Sys2Proof.Machine.execWbJoinAck n s
  | .wbPhaseCompletion n => Sys2Proof.Machine.execWbPhaseCompletion n s
  | .wbtwaitExpiry o => Sys2Proof.Machine.execWbtwaitExpiry o s
  | .boardPostAtHome n => Sys2Proof.Machine.execBoardPostAtHome n s
  | .boardViewReturn n => Sys2Proof.Machine.execBoardViewReturn n s
  | .boardLevelAdvanceReport n => Sys2Proof.Machine.execBoardLevelAdvanceReport n s
  | .mergedReplySplit n => Sys2Proof.Machine.execMergedReplySplit n s
  | .mcastAnchorSnapshot c => Sys2Proof.Machine.execMcastAnchorSnapshot c s
  | .taskMessageArrival n => Sys2Proof.Machine.execTaskMessageArrival n s
  | .badhandlerReport n => Sys2Proof.Machine.execBadhandlerReport n s
  | .taskDispatch c => Sys2Proof.Machine.execTaskDispatch c s
  | .messageResend n => Sys2Proof.Machine.execMessageResend n s
  | .spawnAcknowledgement n => Sys2Proof.Machine.execSpawnAcknowledgement n s
  | .replyArrival n => Sys2Proof.Machine.execReplyArrival n s
  | .coxPlacement a => Sys2Proof.Machine.execCoxPlacement a s
  | .coxSteal a => Sys2Proof.Machine.execCoxSteal a s
  | .matrixCommandStart c => Sys2Proof.Machine.execMatrixCommandStart c s
  | .matrixStep c => Sys2Proof.Machine.execMatrixStep c s
  | .copyCommandStart c => Sys2Proof.Machine.execCopyCommandStart c s
  | .copyRunDelivered c => Sys2Proof.Machine.execCopyRunDelivered c s
  | .vcodesArrival c => Sys2Proof.Machine.execVcodesArrival c s
  | .vgemvStart u => Sys2Proof.Machine.execVgemvStart u s
  | .vgemvRow u => Sys2Proof.Machine.execVgemvRow u s
  | .streamPrefetch a => Sys2Proof.Machine.execStreamPrefetch a s
  | .treeCommandRun c => Sys2Proof.Machine.execTreeCommandRun c s
  | .boundaryMessageArrival n => Sys2Proof.Machine.execBoundaryMessageArrival n s
  | .cancelArrival n => Sys2Proof.Machine.execCancelArrival n s
  | .boundaryAckArrival n => Sys2Proof.Machine.execBoundaryAckArrival n s
  | .sliceExpiry c => Sys2Proof.Machine.execSliceExpiry c s
  | .waitBudgetExpiry c => Sys2Proof.Machine.execWaitBudgetExpiry c s
  | .launchRecordAccept q => Sys2Proof.Machine.execLaunchRecordAccept q s
  | .launchStart n => Sys2Proof.Machine.execLaunchStart n s
  | .initialMessages n => Sys2Proof.Machine.execInitialMessages n s
  | .launchTriggered n => Sys2Proof.Machine.execLaunchTriggered n s
  | .launchCompletion n => Sys2Proof.Machine.execLaunchCompletion n s
  | .replayNodeDispatch n => Sys2Proof.Machine.execReplayNodeDispatch n s
  | .preemption a => Sys2Proof.Machine.execPreemption a s
  | .coreSave c => Sys2Proof.Machine.execCoreSave c s
  | .saveImageArrival a => Sys2Proof.Machine.execSaveImageArrival a s
  | .launchSavedReport n => Sys2Proof.Machine.execLaunchSavedReport n s
  | .failureReport n => Sys2Proof.Machine.execFailureReport n s
  | .launchResume n => Sys2Proof.Machine.execLaunchResume n s
  | .tenancyMove => Sys2Proof.Machine.execTenancyMove s
  | .clusterScrub k => Sys2Proof.Machine.execClusterScrub k s
  | .patrolRead a => Sys2Proof.Machine.execPatrolRead a s
  | .timebaseReference d => Sys2Proof.Machine.execTimebaseReference d s
  | .supplyDroop c => Sys2Proof.Machine.execSupplyDroop c s
  | .hostMemoryAccess a => Sys2Proof.Machine.execHostMemoryAccess a s
  | .ctlRun => Sys2Proof.Machine.execCtlRun s
  | .attgo => Sys2Proof.Machine.execAttgo s
  | .mcastTableWrite a => Sys2Proof.Machine.execMcastTableWrite a s
  | .mcastWriteDrained d => Sys2Proof.Machine.execMcastWriteDrained d s
  | .bar0RegisterWrite a => Sys2Proof.Machine.execBar0RegisterWrite a s
  | .errorLogReport => Sys2Proof.Machine.execErrorLogReport s
  | .moduleReset => Sys2Proof.Machine.execModuleReset s
  | .dieAuthentication a => Sys2Proof.Machine.execDieAuthentication a s
  | .authenticationTimeout d => Sys2Proof.Machine.execAuthenticationTimeout d s
  | .synelmFrameArrival a => Sys2Proof.Machine.execSynelmFrameArrival a s
  | .peerIncarnationChange p => Sys2Proof.Machine.execPeerIncarnationChange p s
  | .illegal w => Sys2Proof.Machine.execIllegal w s
  | .enPassantMerge a => Sys2Proof.Machine.execEnPassantMerge a s
  | .wbRootArrival n => Sys2Proof.Machine.execWbRootArrival n s
  | .railRecovery c => Sys2Proof.Machine.execRailRecovery c s
  | .bootInitialisationComplete => Sys2Proof.Machine.execBootInitialisationComplete s
  | .hostLinkTraining a => Sys2Proof.Machine.execHostLinkTraining a s

end Sys2Proof.Machine
end

