-- ==== Sys2Proof/Machine/Fetch.lean ====
section
/-! DEFINITION. Fetching and running the next instruction of a context (R18, R73, R116), and the cause that an instruction boundary
takes instead (R112). -/

namespace Sys2Proof.Machine

open Sys2Proof

/-- The word at a code offset of the acting context: FETCH where it is no code offset, else a prefetched word, else local memory;
a poisoned word is POISON (R18, R116, R308). -/
def fetchAt (s : State) (pc : Nat) : Body Word32 :=
  if !codeOk pc then trapFault .fetch (BitVec.ofNat 64 pc)
  else match tabGet? s.slot.prefetched (BitVec.ofNat 20 pc) with
    | some w => .ok w
    | none =>
      match s.poisonAt (localKey s.cur.core pc) 4 with
      | some g => trapPoison (BitVec.ofNat 64 (8 * g - localKey s.cur.core 0))
      | none => .ok (s.rd32 (localKey s.cur.core pc))

/-- The words of the next instruction of the acting context: its second word where it has one, else zero (R73). -/
def fetchWords (s : State) : Body (Word32 × Word32) := do
  let w ← fetchAt s s.slot.pc.toNat
  if twoWord w then
    let lit ← fetchAt s (s.slot.pc.toNat + 4)
    .ok (w, lit)
  else .ok (w, 0)

/-- The instruction that a context issues next, or ILLEGAL for a word that is none (R93). -/
noncomputable def fetch (s : State) : Body Instr := do
  let (w, lit) ← fetchWords s
  match decode w lit with
  | .ok i => .ok i
  | .error _ => .ok (.illegal w)

/-- The state in which slot `o` issues: it acts, and it no longer waits. -/
def State.issuing (s : State) (o : SlotId) : State :=
  ({ s with cur := o } : State).onSlot o fun l => { l with wait := none }

/-- The bytes of own local memory from the address in a register. -/
def State.ownPiece (s : State) (a : Word) (n : Nat) : Piece := { key := localKey s.cur.core (a.toNat % 2 ^ 20), len := n }

/-- The bytes of the task message at an address: its header and its arguments (R197, R206). -/
def State.messagePiece (s : State) (a : Word) : Piece :=
  let hdr := s.ownPiece a 8
  let narg := bits (leNat (s.ctxRead s.cur hdr.key 8)) 20 4
  { hdr with len := 8 + 8 * min narg 6 + 4 * (narg - 6) }

/-- The own local memory that an instruction reads as it is issued: a message, a descriptor, a block, a record or an event's key (R168, R193,
R206, R234, R236). -/
def State.ownReads (s : State) (i : Instr) : List Piece :=
  match i with
  | .spawn o => [s.messagePiece (s.xv o.b)]
  | .spawnd o => [s.messagePiece (s.xv o.a)]
  | .fork o => [s.messagePiece (s.xv o.a)]
  | .callat o => [s.messagePiece (s.xv o.b)]
  | .scfg o => [s.ownPiece (s.xv o.a) 32]
  | .vgemv o => [s.ownPiece (s.xv o.a + sx o.lit) 64]
  | .bsend o => [s.ownPiece (s.xv o.b) 48]
  | .jundo o => [s.ownPiece (s.xv o.a) 24]
  | _ => []

/-- What happens before a context's trigger, or its end, kept for the launches that depend on the one that holds its core (R214, R261). -/
def State.publish (s t : State) (done : Bool) : State :=
  let c := s.relClock
  let mine := fun (l : Launch) => l.holds && l.clusters.contains (clusterOf s.cur.core)
  { t with launcher := { t.launcher with launches := t.launcher.launches.map fun l =>
      if !(mine l) then l
      else { l with pub := if s.slot.triggered then l.pub else l.pub.join c, fin := if done then l.fin.join c else l.fin } } }

/-- The state `t` that instruction `i` has made of `s`, with what it does to the order of its context's events where it was performed: its reads
of own local memory, and the trigger or the end of its task (R253, R261; log 60). -/
def State.ordered (s t : State) (i : Instr) : State :=
  if (t.getCore s.cur.core).issued = s.core.issued then t
  else
    let t := t.noteReads (s.party s.cur) (fun _ _ _ => false) (s.ownReads i)
    match i with
    | .trigger _ => s.publish t false
    | .done _ => s.publish t true
    | .migrate _ => s.publish t true
    | _ => t

/-- Instruction `i` run by the acting context. -/
noncomputable def State.perform (s : State) (i : Instr) : Res :=
  match exec i s with
  | .next t => .next (s.ordered t i)
  | r => r

/-- Slot `o` issues its next instruction, the fetch an access of local memory (R289). -/
noncomputable def State.run (s : State) (o : SlotId) : Res :=
  let s := (s.issuing o).banked o.core
  match fetch s with
  | .ok i => s.perform i
  | .error e => .next (s.stop e)

/-- Whether a cause of items 2 and 3 of R112 is due at the boundary of a slot. -/
def Slot.causeDue (l : Slot) : Bool := l.mode = .user && (!l.asyncs.isEmpty || (!l.cdq.isEmpty && !l.intrap))

/-- What slot `o` does at its instruction boundary: a pending asynchronous supervisor cause first, then a queued COPYDONE, then
the next instruction (R112). -/
noncomputable def State.turn (s : State) (o : SlotId) : Res :=
  let l := s.getSlot o
  if l.causeDue then
    (if l.asyncs.isEmpty then exec (.copydone o) s else exec (.asyncSupervisorCause o) s)
  else s.run o

/-- Up to `n` words after the program counter prefetched by a slot, at most eight held (R116; DEDUCED, log 11). -/
def State.prefetch (s : State) (o : SlotId) (n : Nat) : State :=
  (s.banked o.core).onSlot o fun l =>
    let offs := (List.range (min n 8)).map fun i => l.pc + BitVec.ofNat 20 (4 * i)
    let new := (offs.filter fun a => codeOk a.toNat && (s.poisonAt (localKey o.core a.toNat) 4).isNone &&
      (tabGet? l.prefetched a).isNone).map fun a => (a, s.rd32 (localKey o.core a.toNat))
    { l with prefetched := (new ++ l.prefetched).take 8 }

end Sys2Proof.Machine
end

