-- ==== Sys2Proof/Machine/Schedule.lean ====
section
/-! DEFINITION. What happens next (DESIGN CHOICE, log 3): the issue arbitration of a core (R330), the events that are due, and the moves of the
agenda. Any order of events and issues is some agenda; an empty agenda gives the default order. -/

namespace Sys2Proof.Machine

open Sys2Proof

/-! ### Issue -/

/-- Whether a slot stands at an instruction boundary that the core may act on: the core runs, the slot is Ready or Held, and no
operation holds it (R123, R128), or only waits that a due cause ends (R112). -/
def State.canTurn (s : State) (o : SlotId) : Bool :=
  let c := s.getCore o.core
  let l := c.getSlot o.slot
  let held := (s.reqsOf o).filter (·.blocks)
  !c.halted && !c.saving && !c.saved && !c.droop && (l.st = .ready || l.st = .held) &&
    (held.isEmpty || (l.causeDue && held.all (·.interruptible)))

/-- The state of a next outcome, or the state it began in. -/
def resState (r : Res) (s : State) : State :=
  match r with
  | .next t => t
  | .fault _ => s
  | .refused _ => s

/-- A slot that could act now, and what it does. -/
structure Candidate where
  slot : Fin 16
  level : Fin 5
  age : Nat
  res : Res

/-- The slot of a core with a number. -/
def slotAt (c : CoreId) (i : Fin 16) : SlotId := { core := c, slot := BitVec.ofFin i }

/-- The slots of a core that could act, each with what it does. -/
noncomputable def State.candidates (s : State) (c : CoreId) : List Candidate :=
  ((List.finRange 16).filter fun i => s.canTurn (slotAt c i)).map fun i =>
    let l := s.getSlot (slotAt c i)
    { slot := i, level := l.level, age := l.age, res := s.turn (slotAt c i) }

/-- Whether a candidate issues: its slot is left without a wait (R330). -/
def Candidate.issues (k : Candidate) (c : CoreId) : Bool :=
  match k.res with
  | .next t => (t.getSlot (slotAt c k.slot)).wait.isNone
  | .fault _ => true
  | .refused _ => true

/-- The oldest promoted candidate, the lower slot of two as old (R330). -/
def oldest (l : List Candidate) : Option Candidate :=
  l.foldl (fun b k => match b with
    | none => some k
    | some m => if m.age < k.age then some k else b) none

/-- The first candidate after a slot in cyclic order (R330). -/
def afterSlot (l : List Candidate) (r : SlotNo) : Option Candidate :=
  match l.find? fun k => r.toNat < k.slot.val with
  | some k => some k
  | none => l.head?

/-- The candidate that issues, and whether it was taken in turn rather than by its age (R330). -/
def pick (e : List Candidate) (rr : Vector (BitVec 4) 5) : Option (Candidate × Bool) :=
  match oldest (e.filter fun k => 64 ≤ k.age) with
  | some k => some (k, false)
  | none =>
    let v := e.foldl (fun v k => if v < k.level then k.level else v) 0
    (afterSlot (e.filter fun k => k.level = v) rr[v]).map fun k => (k, true)

/-- The ages of a core's slots after a cycle in which `k` issued, and RR[V]: a slot that does not issue ages while it is Ready or Held, and a
Waiting one is Ready where its condition holds, so that it is among the eligible slots `e` (R15, R330). -/
def State.tickCore (s old : State) (c : CoreId) (e : List (Fin 16)) (k : Option (Candidate × Bool)) : State :=
  let was := old.getCore c
  s.onCore c fun n =>
    { n with
      slots := Vector.ofFn fun i =>
        let l := n.slots[i]
        let before := was.slots[i]
        if k.any (·.1.slot = i) then { l with age := 0 }
        else if (before.st = .ready || before.st = .held) && (before.wait.isNone || e.contains i) then { l with age := l.age + 1 } else l
      rr := match k with
        | some (m, true) => n.rr.set m.level.val (BitVec.ofFin m.slot)
        | _ => n.rr }

/-- A cycle of a core of which `all` are the slots that act (R330): one issues; when none can, a slot whose instruction begins to wait
sends what it waits for. -/
def State.cycleOf (s : State) (c : CoreId) (all : List Candidate) : Option Res :=
  let e := all.filter (·.issues c)
  match pick e (s.getCore c).rr with
  | some (k, inTurn) =>
    some (match k.res with
      | .next t => .next (t.tickCore s c (e.map (·.slot)) (some (k, inTurn)))
      | r => r)
  | none =>
    match all.find? fun k =>
        let t := resState k.res s
        t.nextId ≠ s.nextId || (t.getSlot (slotAt c k.slot)).wait ≠ (s.getSlot (slotAt c k.slot)).wait with
    | some k => some (.next ((resState k.res s).tickCore s c [] none))
    | none => none

/-- A cycle of a core (R330). -/
noncomputable def State.cycle (s : State) (c : CoreId) : Option Res := s.cycleOf c (s.candidates c)

/-- A cycle in which the pipeline holds every slot of a core but one, which is so the whole of the set that R330 chooses from (R153,
R330). -/
noncomputable def State.issueOf (s : State) (o : SlotId) : Option Res :=
  s.cycleOf o.core ((s.candidates o.core).filter fun k => slotAt o.core k.slot = o)

/-- The listed cores, from the one that the default order has come to. -/
def State.coreOrder (s : State) : List CoreId :=
  let l := s.cores.map (·.1)
  let n := if l.isEmpty then 0 else s.focus % l.length
  l.drop n ++ l.take n

/-- The next cycle of the default order: the first core, from the one due, on which a slot acts. -/
noncomputable def State.coreStep (s : State) : Option Res :=
  s.coreOrder.findSome? fun c => ({ s with focus := s.focus + 1 } : State).cycle c

/-! ### Events -/

/-- Whether a refused message would be accepted now, so that the default order sends it again. -/
def State.roomFor (s : State) (d : TaskDest) : Bool :=
  match d with
  | .core c =>
    let k := s.getCore c
    !k.saved && ((k.freeSlot.isSome && k.dispatches && !k.backlog) || (k.spillTail ≤ k.spillHead && k.aqLen < k.aqDepth.toNat))
  | .cox d => (s.coxOf d).length < 256

/-- The events of a request in flight. -/
noncomputable def requestEvents (r : Req) : List Instr :=
  [.homeAccess r.id, .cbHomeOperation r.id, .boardPostAtHome r.id, .returningOperationComplete r.id, .storeAcknowledgement r.id,
   .boardViewReturn r.id, .saveImageArrival { kind := .request, n := r.id }]

/-- The events of a task message. -/
noncomputable def State.taskEvents (s : State) (m : TaskMsg) : List Instr :=
  if m.refused then (if s.roomFor m.dst then [.messageResend m.id] else [])
  else [.taskMessageArrival m.id, .saveImageArrival { kind := .task, n := m.id }]

/-- The events of a boundary message or cancel. -/
noncomputable def State.boundEvents (s : State) (m : BoundMsg) : List Instr :=
  if m.refused then
    (if (s.entries m.dst).length < (s.getCore m.dst).inboxCap && !(s.getCore m.dst).saved && !(s.getCore m.src).saved then [.messageResend m.id] else [])
  else [.boundaryMessageArrival m.id, .cancelArrival m.id, .saveImageArrival { kind := .boundary, n := m.id }]

/-- The events of a core's units. -/
noncomputable def coreEvents (k : Core) : List Instr :=
  [.taskDispatch k.id, .treeCommandRun k.id, .matrixStep k.id, .matrixCommandStart k.id, .mcastAnchorSnapshot k.id,
   .copyRunDelivered k.id, .copyCommandStart k.id, .vcodesArrival k.id, .coreSave k.id,
   .saveImageArrival { kind := .copyRun, n := k.id.toNat }, .saveImageArrival { kind := .matrixStep, n := k.id.toNat }] ++
    (List.finRange 16).flatMap fun i =>
      if (k.getSlot (BitVec.ofFin i)).sm = 0 then []
      else (List.range 4).flatMap fun n =>
        [.streamPrefetch { ctx := slotAt k.id i, s := BitVec.ofNat 2 n },
         .saveImageArrival { kind := .stream, n := 64 * k.id.toNat + 4 * i.val + n }]

/-- The placements of a cox (R328). -/
noncomputable def State.coxEvents (s : State) (d : Die) (hs : List HeldTask) : List Instr :=
  hs.flatMap fun h => (s.cores.filter fun c => s.placeable d c.1 h.launch).map fun c => .coxPlacement { die := d, core := c.1 }

/-- The events of an accepted launch (R319-R342). -/
noncomputable def State.launchEvents (l : Launch) : List Instr :=
  let pre := match l.report with
    | some (why, rank) => [Instr.preemption { launch := l.num, core := l.cores.getD rank 0, reason := match why with
        | .slice => .slice
        | .stalemate => .stalemate
        | .leaving => .leaving
        | .failure => .failure }]
    | none => []
  (if l.stage = .running then pre else []) ++
    [.initialMessages l.num, .launchTriggered l.num, .launchCompletion l.num, .launchSavedReport l.num, .launchResume l.num,
     .launchStart l.num, .replayNodeDispatch l.num]

/-- The events that units, homes and the launcher make by themselves, in the default order: all but those of the environment, the
expiries, a steal and a merge. -/
noncomputable def State.events (s : State) : List Instr :=
  List.flatten
    [ s.reqs.flatMap requestEvents,
      s.splits.map fun p => Instr.mergedReplySplit p.id,
      s.walks.map fun w => Instr.pageWalkComplete w.id,
      s.refused.map fun p => Instr.boardLevelAdvanceReport p.id,
      s.wbmsgs.map fun m => Instr.wbRootArrival m.id,
      s.wbacks.map fun a => Instr.wbJoinAck a.id,
      s.wbdones.flatMap fun d => [Instr.wbPhaseCompletion d.id, Instr.saveImageArrival { kind := .wbDone, n := d.id }],
      s.tmsgs.flatMap s.taskEvents,
      s.sacks.flatMap fun a => [Instr.spawnAcknowledgement a.id, Instr.saveImageArrival { kind := .spawnAck, n := a.id }],
      s.bads.map fun b => Instr.badhandlerReport b.id,
      s.replies.flatMap fun r => [Instr.replyArrival r.id, Instr.saveImageArrival { kind := .reply, n := r.id }],
      s.bmsgs.flatMap s.boundEvents,
      s.backs.flatMap fun a => [Instr.boundaryAckArrival a.id, Instr.saveImageArrival { kind := .boundary, n := a.id }],
      s.cox.flatMap fun d => s.coxEvents d.1 d.2,
      s.cores.flatMap fun c => coreEvents c.2,
      s.units.flatMap fun u =>
        [Instr.vgemvRow u.1, Instr.saveImageArrival { kind := .gemvRow, n := u.1.toNat }, Instr.vgemvStart u.1],
      s.fails.map fun f => Instr.failureReport f.id,
      if s.errors.isEmpty then [] else [Instr.errorLogReport],
      s.launcher.launches.flatMap State.launchEvents,
      if s.bar0.run then (List.range 8).map fun q => Instr.launchRecordAccept (BitVec.ofNat 3 q) else [],
      [Instr.tenancyMove],
      s.tenancy.moving.toList.map fun m => Instr.clusterScrub m.1,
      if s.bar0.attgo then [Instr.attgo] else [],
      s.bar0.mcastStale.map fun p => Instr.mcastWriteDrained (BitVec.ofNat 6 (p.1 / 256)) ]

/-- The event that the default order takes next: the first that changes the state. -/
noncomputable def State.dueEvent (s : State) : Option Instr := s.events.find? fun e => resState (exec e s) s ≠ s

/-- A timed wait that the default order lets expire, or a supply that it lets recover, when nothing else can happen. -/
noncomputable def State.dueExpiry (s : State) : Option Instr :=
  (s.reqs.findSome? fun r => match r.op with
    | .cbwait _ _ (some _) .wait => if r.applied && r.registered && s.alive r then some (Instr.cbtwaitExpiry r.slotId) else none
    | _ => none) <|>
  (s.cores.findSome? fun c => (List.finRange 16).findSome? fun i =>
    match ((c.2.getSlot (BitVec.ofFin i)).wait) with
    | some { kind := 2, obj := _, ph := _, dest := some _ } => some (Instr.wbtwaitExpiry (slotAt c.1 i))
    | _ => none) <|>
  (s.cores.findSome? fun c => if c.2.droop then some (Instr.railRecovery c.1) else none)

/-! ### Moves -/

/-- Whether an agenda entry is an event: an instruction with a word acts only by being fetched. -/
def isEvent (e : Instr) : Bool :=
  match e with
  | .illegal _ => false
  | e => (encode e).isEmpty

/-- A move of the agenda; one that cannot be made changes nothing (DESIGN CHOICE, log 49). -/
noncomputable def State.move (s : State) : Move → Res
  | .cycle c => (s.cycle c).getD (.next s)
  | .issue o => (s.issueOf o).getD (.next s)
  | .prefetch o n => .next (s.prefetch o n)
  | .outside k bs => if k < 2 ^ 64 && (bits k 46 2 = 0 || 2 ^ 48 ≤ k + bs.length) then .next s
      else .next (s.fromOutside (s.wrPieces [(k, bs)]) (k < 2 ^ 48 && bits k 46 2 = 1))
  | .send c => .next (s.doing (·.sendTry c))
  | .land c id => .next (s.doing (·.landTry c id))
  | .bitError g e => .next (s.bitError g e)
  | .lineError c l g e => .next (s.lineError c l g e)
  | .stale n skip => .next (s.stale n skip)
  | .stalePrefetch a skip => .next (tried s (s.streamTry a (some skip)))
  | .dropWalks d => .next { s with walkCache := s.walkCache.filter (·.1 ≠ d) }
  | .event e => if isEvent e then exec e s else .next s

/-- The default order: the events due, then the cores in turn, then the timed waits. -/
noncomputable def State.default (s : State) : Res :=
  match s.dueEvent with
  | some e => exec e s
  | none =>
    match s.coreStep with
    | some r => r
    | none =>
      match s.dueExpiry with
      | some e => exec e s
      | none => .next s

end Sys2Proof.Machine
end

