-- ==== Sys2Proof/Machine/Step.lean ====
section
/-! DEFINITION. One step of the module, and the state in which the next step runs a given instruction. -/

namespace Sys2Proof.Machine

open Sys2Proof

/-- One step: the next move of the agenda, or of the default order (DESIGN CHOICE, log 3). -/
noncomputable def step (s : State) : Host.Outcome State Fault Refusal :=
  match s.agenda with
  | m :: ms => ({ s with agenda := ms, tick := s.tick + 1 } : State).move m
  | [] => ({ s with tick := s.tick + 1 } : State).default

/-- The slot that State.withFetchWord lets issue. -/
def firstSlot : SlotId := { core := 0, slot := 0 }

/-- The state with an instruction stored where slot 0 of core 0 fetches next, that slot Ready, and its issue the next move
(DESIGN CHOICE, log 9). -/
def State.withFetchWord (s : State) (nbits w : Nat) : State :=
  let s := s.onSlot firstSlot fun l => { l with st := .ready, wait := none, prefetched := [] }
  let s := s.wrPieces [(localKey 0 (s.getSlot firstSlot).pc.toNat, leBytes 8 (w % 2 ^ nbits))]
  { s with agenda := .issue firstSlot :: s.agenda }

end Sys2Proof.Machine
end

