-- ==== Sys2Proof/Safety.lean ====
section
/-! DEFINITION. A safe run, the invariant of memory, and the terms that the claims use: what the spec's tables say an instruction
leaves, written from those tables and not from the meanings. -/

namespace Sys2Proof.Machine

open Sys2Proof

/-! ### Running -/

/-- One step that ends in a next state. -/
def Steps (s t : State) : Prop := step s = .next t

/-- A run of `n` steps from `s` to `t`, each ending in a next state. -/
def StepsIn : Nat → State → State → Prop
  | 0, s, t => s = t
  | n + 1, s, t => ∃ u, Steps s u ∧ StepsIn n u t

/-- A safe run of `n` steps: it neither faults nor is refused. -/
def SafeRun (n : Nat) (s : State) : Prop := ∃ t, StepsIn n s t

/-- The invariant of memory: the cells stand in canonical form. -/
def State.MemoryCanonical (s : State) : Prop := memWf s.mem = true

/-! ### Registers that an instruction may use -/

/-- The x registers of the acting context are full (R21). -/
def State.FullX (s : State) (l : List XReg) : Prop := ∀ n ∈ l, s.slot.xIsFull n = true

/-- The v registers of the acting context are full, and none is a stream (R21, R25). -/
def State.FullV (s : State) (l : List VReg) : Prop := ∀ n ∈ l, s.slot.vIsFull n = true ∧ s.slot.streamOf n = none

/-- The state after an instruction that wrote `v` to x register `d`: the pc has moved on by `len` bytes, and the instruction counts
as issued (R9, R122). -/
def State.wroteX (s : State) (d : XReg) (v : Word) (len : Off) : State := ((s.putX d v).advance len).noteIssued

/-! ### Scalar results (R99-R102, R106) -/

/-- The result of a scalar instruction as the spec's tables give it: the x registers that must be full, the destination and what it
receives. -/
def scalarResult (s : State) : Instr → Option (List XReg × XReg × Word)
  | .add o => some ([o.a, o.b, o.d], o.d, s.xv o.a + s.xv o.b)
  | .sub o => some ([o.a, o.b, o.d], o.d, s.xv o.a - s.xv o.b)
  | .mul o => some ([o.a, o.b, o.d], o.d, BitVec.ofNat 64 ((s.xv o.a).toNat * (s.xv o.b).toNat))
  | .mulh o => some ([o.a, o.b, o.d], o.d, BitVec.ofInt 64 ((s.xv o.a).toInt * (s.xv o.b).toInt / 2 ^ 64))
  | .mulhz o => some ([o.a, o.b, o.d], o.d, BitVec.ofNat 64 ((s.xv o.a).toNat * (s.xv o.b).toNat / 2 ^ 64))
  | .and_ o => some ([o.a, o.b, o.d], o.d, s.xv o.a &&& s.xv o.b)
  | .or_ o => some ([o.a, o.b, o.d], o.d, s.xv o.a ||| s.xv o.b)
  | .xor_ o => some ([o.a, o.b, o.d], o.d, s.xv o.a ^^^ s.xv o.b)
  | .andn o => some ([o.a, o.b, o.d], o.d, s.xv o.a &&& ~~~s.xv o.b)
  | .orn o => some ([o.a, o.b, o.d], o.d, s.xv o.a ||| ~~~s.xv o.b)
  | .shl o => some ([o.a, o.b, o.d], o.d, s.xv o.a <<< ((s.xv o.b).toNat % 64))
  | .shr o => some ([o.a, o.b, o.d], o.d, s.xv o.a >>> ((s.xv o.b).toNat % 64))
  | .sra o => some ([o.a, o.b, o.d], o.d, BitVec.ofInt 64 ((s.xv o.a).toInt / 2 ^ ((s.xv o.b).toNat % 64)))
  | .rotl o => some ([o.a, o.b, o.d], o.d, (s.xv o.a).rotateLeft ((s.xv o.b).toNat % 64))
  | .rotr o => some ([o.a, o.b, o.d], o.d, (s.xv o.a).rotateRight ((s.xv o.b).toNat % 64))
  | .min_ o => some ([o.a, o.b, o.d], o.d, if (s.xv o.a).toInt ≤ (s.xv o.b).toInt then s.xv o.a else s.xv o.b)
  | .max_ o => some ([o.a, o.b, o.d], o.d, if (s.xv o.b).toInt ≤ (s.xv o.a).toInt then s.xv o.a else s.xv o.b)
  | .minz o => some ([o.a, o.b, o.d], o.d, if (s.xv o.a).toNat ≤ (s.xv o.b).toNat then s.xv o.a else s.xv o.b)
  | .maxz o => some ([o.a, o.b, o.d], o.d, if (s.xv o.b).toNat ≤ (s.xv o.a).toNat then s.xv o.a else s.xv o.b)
  | .seq o => some ([o.a, o.b, o.d], o.d, if s.xv o.a = s.xv o.b then 1 else 0)
  | .sne o => some ([o.a, o.b, o.d], o.d, if s.xv o.a = s.xv o.b then 0 else 1)
  | .slt o => some ([o.a, o.b, o.d], o.d, if (s.xv o.a).toInt < (s.xv o.b).toInt then 1 else 0)
  | .sle o => some ([o.a, o.b, o.d], o.d, if (s.xv o.a).toInt ≤ (s.xv o.b).toInt then 1 else 0)
  | .sltz o => some ([o.a, o.b, o.d], o.d, if (s.xv o.a).toNat < (s.xv o.b).toNat then 1 else 0)
  | .slez o => some ([o.a, o.b, o.d], o.d, if (s.xv o.a).toNat ≤ (s.xv o.b).toNat then 1 else 0)
  | .addw o => some ([o.a, o.b, o.d], o.d, ((s.xv o.a + s.xv o.b).setWidth 32).signExtend 64)
  | .subw o => some ([o.a, o.b, o.d], o.d, ((s.xv o.a - s.xv o.b).setWidth 32).signExtend 64)
  | .mulw o => some ([o.a, o.b, o.d], o.d, ((s.xv o.a).setWidth 32 * (s.xv o.b).setWidth 32).signExtend 64)
  | .csel o => some ([o.a, o.b, o.d], o.d, if s.xv o.d = 0 then s.xv o.b else s.xv o.a)
  | .addi o => some ([o.a, o.d], o.d, s.xv o.a + o.imm.signExtend 64)
  | .andi o => some ([o.a, o.d], o.d, s.xv o.a &&& o.imm.signExtend 64)
  | .ori o => some ([o.a, o.d], o.d, s.xv o.a ||| o.imm.signExtend 64)
  | .xori o => some ([o.a, o.d], o.d, s.xv o.a ^^^ o.imm.signExtend 64)
  | .shli o => some ([o.a, o.d], o.d, s.xv o.a <<< o.n.toNat)
  | .shri o => some ([o.a, o.d], o.d, s.xv o.a >>> o.n.toNat)
  | .srai o => some ([o.a, o.d], o.d, BitVec.ofInt 64 ((s.xv o.a).toInt / 2 ^ o.n.toNat))
  | .slti o => some ([o.a, o.d], o.d, if (s.xv o.a).toInt < o.imm.toInt then 1 else 0)
  | .sltzi o => some ([o.a, o.d], o.d, if (s.xv o.a).toNat < (o.imm.signExtend 64).toNat then 1 else 0)
  | .muli o => some ([o.a, o.d], o.d, s.xv o.a * o.imm.signExtend 64)
  | .lui o => some ([o.d], o.d, (o.imm ++ 0#12).signExtend 64)
  | .auipc o => some ([o.d], o.d, s.slot.pc.setWidth 64 + (o.imm ++ 0#12).signExtend 64)
  | .lix o => some ([o.d], o.d, o.lit.signExtend 64)
  | _ => none

/-- The bytes of an instruction: eight for `lix`, which has two words (R73). -/
def scalarBytes : Instr → Off
  | .lix _ => 8
  | _ => 4

/-- The result of a count, swap or bit-field instruction, bit by bit. -/
def bitResult (s : State) : Instr → Option (List XReg × XReg × (Word → Prop))
  | .clz o => some ([o.a, o.d], o.d, fun r =>
      ∃ n, r = BitVec.ofNat 64 n ∧ n ≤ 64 ∧ (∀ i, 64 - n ≤ i → i < 64 → (s.xv o.a).getLsbD i = false) ∧
        (n < 64 → (s.xv o.a).getLsbD (63 - n) = true))
  | .ctz o => some ([o.a, o.d], o.d, fun r =>
      ∃ n, r = BitVec.ofNat 64 n ∧ n ≤ 64 ∧ (∀ i, i < n → (s.xv o.a).getLsbD i = false) ∧ (n < 64 → (s.xv o.a).getLsbD n = true))
  | .popc o => some ([o.a, o.d], o.d, fun r =>
      r = BitVec.ofNat 64 ((List.range 64).filter fun i => (s.xv o.a).getLsbD i).length)
  | .bswap o => some ([o.a, o.d], o.d, fun r => ∀ i, i < 8 → r.extractLsb' (8 * i) 8 = (s.xv o.a).extractLsb' (56 - 8 * i) 8)
  | .bfx o => some ([o.a, o.d], o.d, fun r => ∀ i, i < 64 →
      r.getLsbD i = if i ≤ o.len1.toNat then (s.xv o.a).getLsbD (o.pos.toNat + i)
        else o.s && (s.xv o.a).getLsbD (o.pos.toNat + o.len1.toNat))
  | .bfi o => some ([o.a, o.d], o.d, fun r => ∀ i, i < 64 →
      r.getLsbD i = if o.pos.toNat ≤ i && i ≤ o.pos.toNat + o.len1.toNat then (s.xv o.a).getLsbD (i - o.pos.toNat)
        else (s.xv o.d).getLsbD i)
  | _ => none

/-! ### Control results (R103-R105) -/

/-- Whether a number is an offset that the pc may take (R18). -/
def isCode (t : Nat) : Prop := t % 4 = 0 ∧ t ≤ 0x5FFFC

/-- The operands of a conditional branch, and whether it is taken (R103). -/
def branchTaken (s : State) : Instr → Option (BOp × Prop)
  | .beq o => some (o, s.xv o.a = s.xv o.b)
  | .bne o => some (o, s.xv o.a ≠ s.xv o.b)
  | .blt o => some (o, (s.xv o.a).toInt < (s.xv o.b).toInt)
  | .bge o => some (o, (s.xv o.b).toInt ≤ (s.xv o.a).toInt)
  | .bltz o => some (o, (s.xv o.a).toNat < (s.xv o.b).toNat)
  | .bgez o => some (o, (s.xv o.b).toNat ≤ (s.xv o.a).toNat)
  | _ => none

/-- The state after an instruction that moved the pc to `t` and counts as issued. -/
def State.jumped (s : State) (t : Word) : State := (s.modSlot fun l => { l with pc := t.setWidth 20 }).noteIssued

/-- A division's operands, its result for a divisor that is not zero, and its result for zero (R99, R100). -/
def divResult (s : State) : Instr → Option (R3 × Word × Word)
  | .div o => some (o, BitVec.ofInt 64 ((s.xv o.a).toInt.tdiv (s.xv o.b).toInt), BitVec.allOnes 64)
  | .divz o => some (o, BitVec.ofNat 64 ((s.xv o.a).toNat / (s.xv o.b).toNat), BitVec.allOnes 64)
  | .rem o =>
    some (o, BitVec.ofInt 64 ((s.xv o.a).toInt - (s.xv o.b).toInt * (s.xv o.a).toInt.tdiv (s.xv o.b).toInt), s.xv o.a)
  | .remz o => some (o, BitVec.ofNat 64 ((s.xv o.a).toNat % (s.xv o.b).toNat), s.xv o.a)
  | _ => none

/-! ### Control registers (R28-R32, R437) -/

/-- The bits that a control register holds, by its number (R28, R393, R437). -/
def crBits (n : Nat) : Word :=
  if n = 0x003 then 0x3
  else if n = 0x006 then 0xFF
  else if n = 0x00A then 0xFF
  else if n = 0x00B || n = 0x00E || n = 0x057 then 0x1
  else if n = 0x008 || n = 0x010 || n = 0x011 || n = 0x201 then 0xFFFF
  else if n = 0x004 || n = 0x005 || n = 0x00F || n = 0x043 || n = 0x044 || n = 0x04B || n = 0x04C || n = 0x053 || n = 0x054 ||
    n = 0x055 || n = 0x200 || n = 0x204 then 0xFFFFF
  else if n = 0x041 then 0xFFF
  else if n = 0x04A then 0xF
  else if n = 0x049 then 0xFF0F_FFFF
  else if n = 0x009 || n = 0x042 || n = 0x051 || (0x070 ≤ n && n < 0x080) || (0x090 ≤ n && n < 0x0D0) then 0xFFFF_FFFF
  else if 0x080 ≤ n && n < 0x084 then 0xF0F
  else 0xFFFF_FFFF_FFFF_FFFF

/-- Whether the catalogue lists a control register's number (R28). -/
def crListed (n : Nat) : Prop :=
  n ≤ 0x011 ∨ (0x040 ≤ n ∧ n ≤ 0x04C) ∨ (0x050 ≤ n ∧ n ≤ 0x057) ∨ (0x060 ≤ n ∧ n ≤ 0x08B) ∨ (0x090 ≤ n ∧ n ≤ 0x0CF) ∨
    (0x200 ≤ n ∧ n ≤ 0x208)

/-- What a control register reads after `w` is written over `old`: the read-only fields CR.STAT, SHPn.SEL and AQCTL.ESZ keep what
they hold, and the rest takes the bits that the register holds (R6, R30-R32). -/
def crAfterWrite (n : Nat) (old w : Word) : Word :=
  if n = 0x002 then old
  else if n = 0x045 then (w &&& 0x0000_FFFF_000F_FFFF) ||| 0x0006_0000_0000_0000
  else if 0x060 ≤ n && n < 0x070 then (w &&& 0x0FFF_FFFF_FFFF_FFFF) ||| (old &&& 0x1000_0000_0000_0000)
  else w &&& crBits n

/-! ### Accesses (R35-R37, R126-R133) -/

/-- The operands of a plain load, its bytes, whether it extends the sign, and whether windows 1 to 5 serve it (R37, R126). -/
def loadForm : Instr → Option (IOp × Nat × Bool × Bool)
  | .ldb o => some (o, 1, true, false)
  | .ldzb o => some (o, 1, false, false)
  | .ldh o => some (o, 2, true, false)
  | .ldzh o => some (o, 2, false, false)
  | .ldw o => some (o, 4, true, true)
  | .ldzw o => some (o, 4, false, true)
  | .ldd o => some (o, 8, true, false)
  | _ => none

/-- The operands of a plain store, its bytes, and whether windows 1 to 5 serve it (R37, R127). -/
def storeForm : Instr → Option (SOp × Nat × Bool)
  | .stb o => some (o, 1, false)
  | .sth o => some (o, 2, false)
  | .stw o => some (o, 4, true)
  | .std o => some (o, 8, false)
  | _ => none

/-- The operands and bytes of an acquire load (R128). -/
def acquireForm : Instr → Option (AcqOp × Nat)
  | .ldaw o => some (o, 4)
  | .ldad o => some (o, 8)
  | _ => none

/-- The operands and bytes of a release store (R128). -/
def releaseForm : Instr → Option (RelOp × Nat)
  | .strw o => some (o, 4)
  | .strd o => some (o, 8)
  | _ => none

/-- The operands and the operation of an atomic (R132). -/
def atomicForm : Instr → Option (AmoOp × AmoFn)
  | .amoadd o => some (o, .add)
  | .amoand o => some (o, .and)
  | .amoor o => some (o, .or)
  | .amoxor o => some (o, .xor)
  | .amomin o => some (o, .min)
  | .amomax o => some (o, .max)
  | .amominz o => some (o, .minz)
  | .amomaxz o => some (o, .maxz)
  | .amoswap o => some (o, .swap)
  | .amocas o => some (o, .cas)
  | .amofadd o => some (o, .fadd)
  | .amofmin o => some (o, .fmin)
  | .amofmax o => some (o, .fmax)
  | _ => none

/-- The operands and the operation of a reduction (R133). -/
def reductionForm : Instr → Option (RedOp × AmoFn)
  | .redadd o => some (o, .add)
  | .redand o => some (o, .and)
  | .redor o => some (o, .or)
  | .redxor o => some (o, .xor)
  | .redmin o => some (o, .min)
  | .redmax o => some (o, .max)
  | .redminz o => some (o, .minz)
  | .redmaxz o => some (o, .maxz)
  | .redfadd o => some (o, .fadd)
  | .redfmin o => some (o, .fmin)
  | .redfmax o => some (o, .fmax)
  | _ => none

/-- The bytes of an atomic or reduction: eight for the wide form (R81, R82). -/
def atomicBytes (wide : Bool) : Nat := if wide then 8 else 4

/-! ### Vector forms (R151-R164) -/

/-- A lane operation on 32-bit lanes: destination, v sources in slot order, predicate, and the result of a lane from the lanes of its
sources (R156, R158, R163). -/
def vec32Form : Instr → Option (VReg × List VReg × PReg × (List Nat → Rounded))
  | .vadd o => some (o.vd, [o.va, o.vb], o.p, fun l => fp32.add (l.getD 0 0) (l.getD 1 0))
  | .vsub o => some (o.vd, [o.va, o.vb], o.p, fun l => fp32.sub (l.getD 0 0) (l.getD 1 0))
  | .vmul o => some (o.vd, [o.va, o.vb], o.p, fun l => fp32.mul (l.getD 0 0) (l.getD 1 0))
  | .vfma o => some (o.vd, [o.va, o.vb, o.vc], o.p, fun l => fp32.fma (l.getD 0 0) (l.getD 1 0) (fp32.decode (l.getD 2 0)))
  | .vfms o => some (o.vd, [o.va, o.vb, o.vc], o.p, fun l => fp32.fma (l.getD 0 0) (l.getD 1 0) (fp32.decode (l.getD 2 0)).neg)
  | .vmin o => some (o.vd, [o.va, o.vb], o.p, fun l => plain (fp32.minmax false (l.getD 0 0) (l.getD 1 0)))
  | .vmax o => some (o.vd, [o.va, o.vb], o.p, fun l => plain (fp32.minmax true (l.getD 0 0) (l.getD 1 0)))
  | .vabs o => some (o.vd, [o.va], o.p, fun l => plain (l.getD 0 0 % 2 ^ 31))
  | .vneg o => some (o.vd, [o.va], o.p, fun l => plain (l.getD 0 0 ^^^ 2 ^ 31))
  | .vdiv o => some (o.vd, [o.va, o.vb], o.p, fun l => fp32.div (l.getD 0 0) (l.getD 1 0))
  | .vsqrt o => some (o.vd, [o.va], o.p, fun l => fp32.sqrt (l.getD 0 0))
  | .vexp2 o => some (o.vd, [o.va], o.p, fun l => fp32.exp2 (l.getD 0 0))
  | .vlog2 o => some (o.vd, [o.va], o.p, fun l => fp32.log2 (l.getD 0 0))
  | .vfloor o => some (o.vd, [o.va], o.p, fun l => plain (fp32.floor (l.getD 0 0)))
  | .viadd o => some (o.vd, [o.va, o.vb], o.p, fun l => plain ((l.getD 0 0 + l.getD 1 0) % 2 ^ 32))
  | .visub o => some (o.vd, [o.va, o.vb], o.p, fun l => plain ((l.getD 0 0 + 2 ^ 32 - l.getD 1 0) % 2 ^ 32))
  | .vimul o => some (o.vd, [o.va, o.vb], o.p, fun l => plain (l.getD 0 0 * l.getD 1 0 % 2 ^ 32))
  | .viand o => some (o.vd, [o.va, o.vb], o.p, fun l => plain (l.getD 0 0 &&& l.getD 1 0))
  | .vior o => some (o.vd, [o.va, o.vb], o.p, fun l => plain (l.getD 0 0 ||| l.getD 1 0))
  | .vixor o => some (o.vd, [o.va, o.vb], o.p, fun l => plain (l.getD 0 0 ^^^ l.getD 1 0))
  | .vishl o => some (o.vd, [o.va, o.vb], o.p, fun l => plain (l.getD 0 0 * 2 ^ (l.getD 1 0 % 32) % 2 ^ 32))
  | .vishr o => some (o.vd, [o.va, o.vb], o.p, fun l => plain (l.getD 0 0 / 2 ^ (l.getD 1 0 % 32)))
  | .visra o => some (o.vd, [o.va, o.vb], o.p, fun l =>
      plain (BitVec.ofInt 32 ((BitVec.ofNat 32 (l.getD 0 0)).toInt / 2 ^ (l.getD 1 0 % 32))).toNat)
  | .vimin o => some (o.vd, [o.va, o.vb], o.p, fun l =>
      plain (if (BitVec.ofNat 32 (l.getD 0 0)).toInt ≤ (BitVec.ofNat 32 (l.getD 1 0)).toInt then l.getD 0 0 else l.getD 1 0))
  | .vimax o => some (o.vd, [o.va, o.vb], o.p, fun l =>
      plain (if (BitVec.ofNat 32 (l.getD 1 0)).toInt ≤ (BitVec.ofNat 32 (l.getD 0 0)).toInt then l.getD 0 0 else l.getD 1 0))
  | .viminz o => some (o.vd, [o.va, o.vb], o.p, fun l => plain (min (l.getD 0 0) (l.getD 1 0)))
  | .vimaxz o => some (o.vd, [o.va, o.vb], o.p, fun l => plain (max (l.getD 0 0) (l.getD 1 0)))
  | .vcvtF32E4m3 o => some (o.vd, [o.va], o.p, fun l => fp32.convert .rne (fmtE4m3.decode (l.getD 0 0 % 2 ^ 8)))
  | .vcvtF32E5m2 o => some (o.vd, [o.va], o.p, fun l => fp32.convert .rne (fmtE5m2.decode (l.getD 0 0 % 2 ^ 8)))
  | .vcvtF32Bf16 o => some (o.vd, [o.va], o.p, fun l => fp32.convert .rne (fmtBf16.decode (l.getD 0 0 % 2 ^ 16)))
  | .vcvtF32F16 o => some (o.vd, [o.va], o.p, fun l => fp32.convert .rne (fmtFp16.decode (l.getD 0 0 % 2 ^ 16)))
  | .vcvtI8I32 o => some (o.vd, [o.va], o.p, fun l =>
      plain (BitVec.ofInt 8 (max (-128) (min 127 (BitVec.ofNat 32 (l.getD 0 0)).toInt))).toNat)
  | .vcvtI32I8 o => some (o.vd, [o.va], o.p, fun l => plain ((BitVec.ofNat 8 (l.getD 0 0)).signExtend 32).toNat)
  | _ => none

/-- A lane operation on the eight 64-bit lanes (R152, R157), and the exact conversions of the low eight lanes to them (R163). -/
def vec64Form : Instr → Option (VReg × List VReg × PReg × (List Nat → Rounded))
  | .dadd o => some (o.vd, [o.va, o.vb], o.p, fun l => fp64.add (l.getD 0 0) (l.getD 1 0))
  | .dsub o => some (o.vd, [o.va, o.vb], o.p, fun l => fp64.sub (l.getD 0 0) (l.getD 1 0))
  | .dmul o => some (o.vd, [o.va, o.vb], o.p, fun l => fp64.mul (l.getD 0 0) (l.getD 1 0))
  | .dfma o => some (o.vd, [o.va, o.vb, o.vc], o.p, fun l => fp64.fma (l.getD 0 0) (l.getD 1 0) (fp64.decode (l.getD 2 0)))
  | .dmin o => some (o.vd, [o.va, o.vb], o.p, fun l => plain (fp64.minmax false (l.getD 0 0) (l.getD 1 0)))
  | .dmax o => some (o.vd, [o.va, o.vb], o.p, fun l => plain (fp64.minmax true (l.getD 0 0) (l.getD 1 0)))
  | .ddiv o => some (o.vd, [o.va, o.vb], o.p, fun l => fp64.div (l.getD 0 0) (l.getD 1 0))
  | .dsqrt o => some (o.vd, [o.va], o.p, fun l => fp64.sqrt (l.getD 0 0))
  | .dln o => some (o.vd, [o.va], o.p, fun l => fp64.ln (l.getD 0 0))
  | .dexp o => some (o.vd, [o.va], o.p, fun l => fp64.exp (l.getD 0 0))
  | _ => none

/-- The exact conversions of the low eight 32-bit lanes to 64-bit lanes (R163). -/
def widenForm : Instr → Option (VcvtXOp × (Nat → Rounded))
  | .vcvtF64F32 o => some (o, fun a => fp64.convert .rne (fp32.decode a))
  | .vcvtF64I32 o => some (o, fun a => fp64.ofInt .rne (BitVec.ofNat 32 a).toInt)
  | _ => none

/-- A conversion of sixteen lanes with a rounding code (R163, R164). -/
def convert16Form : Instr → Option (VcvtOp × (RMode → Nat → Rounded))
  | .vcvtE4m3F32 o => some (o, fun m a => fmtE4m3.convert m (fp32.decode a))
  | .vcvtE5m2F32 o => some (o, fun m a => fmtE5m2.convert m (fp32.decode a))
  | .vcvtBf16F32 o => some (o, fun m a => fmtBf16.convert m (fp32.decode a))
  | .vcvtF16F32 o => some (o, fun m a => fmtFp16.convert m (fp32.decode a))
  | .vcvtI32F32 o => some (o, fun m a => plain (BitVec.ofInt 32 ((fp32.decode a).toInt m (-2 ^ 31) (2 ^ 31 - 1))).toNat)
  | .vcvtF32I32 o => some (o, fun m a => fp32.ofInt m (BitVec.ofNat 32 a).toInt)
  | _ => none

/-- A conversion of the eight 64-bit lanes to the low eight lanes with a rounding code (R163, R164). -/
def narrow8Form : Instr → Option (VcvtOp × (RMode → Nat → Rounded))
  | .vcvtF32F64 o => some (o, fun m a => fp32.convert m (fp64.decode a))
  | .vcvtI32F64 o => some (o, fun m a => plain (BitVec.ofInt 32 ((fp64.decode a).toInt m (-2 ^ 31) (2 ^ 31 - 1))).toNat)
  | _ => none

/-- A compare and its condition on the lanes of a and b (R159). -/
def compareForm : Instr → Option (VcmpOp × (Word32 → Word32 → Bool))
  | .vfeq o => some (o, fun a b => (fp32.decode a.toNat).feq (fp32.decode b.toNat))
  | .vfne o => some (o, fun a b => !(fp32.decode a.toNat).feq (fp32.decode b.toNat))
  | .vflt o => some (o, fun a b => FVal.lt false (fp32.decode a.toNat) (fp32.decode b.toNat))
  | .vfle o => some (o, fun a b => (fp32.decode a.toNat).feq (fp32.decode b.toNat) ||
      FVal.lt false (fp32.decode a.toNat) (fp32.decode b.toNat))
  | .vieq o => some (o, fun a b => decide (a = b))
  | .vilt o => some (o, fun a b => decide (a.toInt < b.toInt))
  | .vile o => some (o, fun a b => decide (a.toInt ≤ b.toInt))
  | .viltz o => some (o, fun a b => decide (a.toNat < b.toNat))
  | _ => none

/-- A move of lanes: destination, sources, the lanes it may write, and lane `r` of its result (R160). -/
def moveForm (s : State) : Instr → Option (VReg × List VReg × BitVec 16 × (Nat → Word32))
  | .vsel o => some (o.vd, [o.va, o.vb], BitVec.allOnes 16, fun r =>
      if (s.slot.getP o.p).getLsbD r then laneOf (s.slot.srcV o.va) r else laneOf (s.slot.srcV o.vb) r)
  | .vperm o => some (o.vd, [o.va, o.vb], s.slot.getP o.p, fun r =>
      laneOf (s.slot.srcV o.va) ((laneOf (s.slot.srcV o.vb) r).toNat % 16))
  | .vslide o => some (o.vd, [o.va, o.vb], s.slot.getP o.p, fun r =>
      if r + o.n.toNat < 16 then laneOf (s.slot.srcV o.va) (r + o.n.toNat) else laneOf (s.slot.srcV o.vb) (r + o.n.toNat - 16))
  | .vmov o => some (o.vd, [o.va], s.slot.getP o.p, fun r => laneOf (s.slot.srcV o.va) r)
  | .viota o => some (o.vd, [], s.slot.getP o.p, fun r => BitVec.ofNat 32 r)
  | _ => none

/-- A reduction of a v register and its value: a binary tree over the lanes, an inactive lane standing as the identity (R52, R162). -/
def reduceForm : Instr → Option (VredOp × (VVal → BitVec 16 → Rounded))
  | .vsum o => some (o, fun v p => pairTree fp32.add 4 (leaves32 v p 0x8000_0000))
  | .vmaxr o => some (o, fun v p => pairTree (fun a b => plain (fp32.minmax true a b)) 4 (leaves32 v p 0xFF80_0000))
  | .vminr o => some (o, fun v p => pairTree (fun a b => plain (fp32.minmax false a b)) 4 (leaves32 v p 0x7F80_0000))
  | .visum o => some (o, fun v p => plain (BitVec.ofInt 64
      (((List.range 16).map fun r => if p.getLsbD r then (laneOf v r).toInt else 0).sum)).toNat)
  | .vdsum o => some (o, fun v p => pairTree fp64.add 3 (leaves64 v p 0x8000_0000_0000_0000))
  | _ => none

/-- A vector operation passes its issue rule: its sources are not empty, its destination can be written (R21, R25). -/
def State.VectorReady (s : State) (vs : List VReg) (ds : List Reg) : Prop :=
  issueRule s (vs.map fun v => (.v v, false)) ds = .ok ()

/-- The lanes with results from a list of lane numbers: lane `r` from `f r`. -/
def laneResults (f : Nat → Rounded) : VVal := lanes fun r => BitVec.ofNat 32 (f r).bits

/-! ### Exact values and rounding to nearest (R40, R44) -/

/-- The number (-1)^neg * m * 2^e. -/
noncomputable def ratOf (neg : Bool) (m : Nat) (e : Int) : ℝ := (if neg then -1 else 1) * (m : ℝ) * (2 : ℝ) ^ e

/-- A non-zero exact result `x` rounded to nearest, ties to even, in a format with infinities (R44): its magnitude becomes the nearest
multiple `n` of the unit `2^q` in the last place at `x`, the even one of two as near; past the largest finite value it is infinite, with
counter 1, and where it rounds to zero it is a zero of its sign, with counter 2. -/
def Fmt.isNearest (f : Fmt) (x : ℝ) (r : Rounded) : Prop :=
  let lowest : Int := 1 - f.bias - f.fbits
  let neg := x < 0
  let zero := { Events.zero with unf := 1 }
  let ovfl := { Events.zero with ovf := 1 }
  ∃ (n : Nat) (q : Int) (s : Bool), (s = true ↔ neg) ∧ lowest ≤ q ∧ |x| < 2 ^ (f.fbits + 1) * (2 : ℝ) ^ q ∧
    (lowest < q → 2 ^ f.fbits * (2 : ℝ) ^ q ≤ |x|) ∧
    2 * |(|x| - n * (2 : ℝ) ^ q)| ≤ (2 : ℝ) ^ q ∧ (2 * |(|x| - n * (2 : ℝ) ^ q)| = (2 : ℝ) ^ q → n % 2 = 0) ∧
    (n = 0 → f.decode r.bits = .fin s 0 lowest ∧ r.ev = zero) ∧
    (((2 : ℝ) ^ (f.fbits + 1) - 1) * (2 : ℝ) ^ ((f.emax : Int) - 1 - f.bias - f.fbits) < n * (2 : ℝ) ^ q →
      f.decode r.bits = .inf s ∧ r.ev = ovfl) ∧
    (n ≠ 0 → n * (2 : ℝ) ^ q ≤ ((2 : ℝ) ^ (f.fbits + 1) - 1) * (2 : ℝ) ^ ((f.emax : Int) - 1 - f.bias - f.fbits) →
      (∃ m e, f.decode r.bits = .fin s m e ∧ ratOf false m e = n * (2 : ℝ) ^ q) ∧ r.ev = Events.zero)

/-! ### Draws (R64, R66) -/

/-- One round of the generator on 32-bit words with exact 64-bit products (R64). -/
def specRound (k c : Word32 × Word32) (d : Word32 × Word32) : (Word32 × Word32) × (Word32 × Word32) :=
  let p : Word := 0xD2511F53 * c.1.setWidth 64
  let q : Word := 0xCD9E8D57 * d.1.setWidth 64
  ((q.extractLsb' 32 32 ^^^ c.2 ^^^ k.1, q.setWidth 32), (p.extractLsb' 32 32 ^^^ d.2 ^^^ k.2, p.setWidth 32))

/-- `n` rounds, the key raised after each (R64). -/
def specRounds : Nat → Word32 × Word32 → (Word32 × Word32) × (Word32 × Word32) → (Word32 × Word32) × (Word32 × Word32)
  | 0, _, c => c
  | n + 1, k, c => specRounds n (k.1 + 0x9E3779B9, k.2 + 0xBB67AE85) (specRound k c.1 c.2)

/-- The draw of a context: ten rounds, then {c1, c0} (R64). -/
def specDraw (seed ctr : Word) (core : CoreId) (slot : SlotNo) : Word :=
  let r := specRounds 10 (seed.setWidth 32, seed.extractLsb' 32 32)
    ((ctr.setWidth 32, ctr.extractLsb' 32 32), ((core ++ slot).setWidth 32, 0))
  r.1.2 ++ r.1.1

/-! ### Barriers and boards (R137-R147) -/

/-- Whether a request is a waiter that a count barrier has registered for a phase bit (R138, R139). -/
def Req.waitsAt (q : Req) (key : Nat) (ph : Bool) : Bool :=
  match q.op with
  | .cbwait k p _ _ => k = key && p = ph && q.registered
  | _ => false

/-- The fields of a count barrier: EXP, PEND, BYTES, PHASE, VALID and ERR (R137). -/
def cbFields (exp pend : Nat) (bytes : Word32) (phase valid err : Nat) : Nat :=
  exp + pend * 2 ^ 16 + bytes.toNat * 2 ^ 32 + phase * 2 ^ 64 + valid * 2 ^ 65 + err * 2 ^ 66

/-- The requests after a barrier operation `n` that completed the phase `ph`, or none. -/
def State.cbReqs (s : State) (n key : Nat) (done : Option Bool) (r : Req) : List Req :=
  s.reqs.map fun q =>
    if q.id = n then r
    else if done.any fun ph => q.waitsAt key ph then { q with registered := false, res := .word 1 false } else q

/-- The board after a post (R147): slot `k`'s payload for the parity of `lv`, then LEVEL, SEQ, MASK and AHEAD. -/
def boardBytes (key k : Nat) (b : Word) (lv : Nat) (ctl : Nat) (level seq : Nat) (mask ahead : Nat) : List (Nat × List Byte) :=
  [(key + 0x80 + 16 * k + 8 * (lv % 2), natBytes 8 b.toNat), (key, natBytes 8 (ctl % 2 ^ 16 + level % 2 ^ 48 * 2 ^ 16)),
   (key + 8, natBytes 8 seq), (key + 0x20, natBytes 32 mask), (key + 0x40, natBytes 32 ahead)]

/-! ### Wire barriers (R140-R144) -/

/-- The member state after the acting context's arrival for its next phase was recorded (R142). -/
def WbMember.recorded (m : WbMember) (k : SlotNo) (v : Word) (dest : Option Word) : WbMember :=
  { m with ctxNext := m.ctxNext.setIfInBounds k.toNat (m.ctxNext.getD k.toNat 0 + 1)
           arrivals := m.arrivals ++ [{ phase := m.ctxNext.getD k.toNat 0, slot := k, val := v, dest := dest }] }

/-- The state with a core's own record of a barrier set. -/
def State.setWb (s : State) (c : CoreId) (bar : Fin 16) (m : Option WbMember) : State :=
  s.onCore c fun k => { k with wb := k.wb.set bar.val m }

/-- A barrier's operation on a list of values is `v` (R140): their wrapping sum, or the signed minimum or maximum of them. -/
def combined (op : BitVec 2) (vs : List Word) (v : Word) : Prop :=
  (op = 0 → v = vs.sum) ∧ (op = 1 → v ∈ vs ∧ ∀ x ∈ vs, v.toInt ≤ x.toInt) ∧ (op = 2 → v ∈ vs ∧ ∀ x ∈ vs, x.toInt ≤ v.toInt)

/-! ### Page tables (R294-R296) -/

/-- The entry at a physical address is a pointer to a table of `align` bytes at `next` (R295). -/
def State.pointsTo (s : State) (pa next align : Nat) : Prop :=
  let e := BitVec.ofNat 64 (s.rd pa 8)
  s.poisonAt pa 8 = none ∧ e.getLsbD 0 = true ∧ e.getLsbD 1 = false ∧ e.extractLsb' 2 6 = 0 ∧ e.extractLsb' 48 16 = 0 ∧
    next = (e.extractLsb' 8 40).toNat * 256 ∧ next % align = 0 ∧ s.isDram next = true

/-- The entry at a physical address is a leaf, `e`, for a page of `size` bytes whose frame exists for `va` (R296, R297). -/
def State.leafAt (s : State) (pa size va : Nat) (e : Word) : Prop :=
  s.poisonAt pa 8 = none ∧ e = BitVec.ofNat 64 (s.rd pa 8) ∧ e.getLsbD 0 = true ∧ e.getLsbD 1 = true ∧ e.extractLsb' 10 6 = 0 ∧
    e.extractLsb' 60 4 = 0 ∧ e.extractLsb' 6 3 < 6 ∧ (size = 65536 ∨ (size = 2 ^ 21 ∧ e.extractLsb' 16 5 = 0)) ∧
    s.paCheck (e.extractLsb' 48 12) ((e.extractLsb' 16 32).toNat * 65536 + va % size) ≠ some .absent

/-! ### Tasks (R17, R197-R200) -/

/-- A task as an instruction of the acting context sends it (R197-R199): `flags` are the bits that the instruction sets, and the
header's U bit is bit 7. -/
def State.taskOf (s : State) (hdr : Nat) (args : Vector Word 8) (flags : Nat) (cgen : BitVec 16) (counted : Bool) : HeldTask :=
  { launch := s.core.launch, origin := s.cur.core, slot := s.cur.slot, gen := s.slot.gen, counted := counted,
    task := { handler := BitVec.ofNat 20 (hdr % 2 ^ 20), flags := BitVec.ofNat 8 (flags + hdr / 2 ^ 24 % 2 * 0x80),
              sender := s.cur.core, cgen := cgen, args := args, clk := if flags % 2 = 1 then s.relClock else Clock.zero } }

/-- Slot `l'` is slot `l` with a task started in it (R17, R200): the pc at the handler, x1 to x8 the arguments, x9 the flags and the
sender, x8 the reply token of a call, every other register zero, every register full, user mode and Ready; the generation and the
control registers that a launch writes stay. -/
def Slot.hasStarted (l l' : Slot) (modid : BitVec 16) (t : TaskEntry) : Prop :=
  l'.st = .ready ∧ l'.mode = .user ∧ l'.pc = t.handler ∧ l'.xfull = BitVec.allOnes 32 ∧ l'.vfull = BitVec.allOnes 16 ∧
    (∀ n : Fin 6, l'.x[n.val + 1] = t.args[n]) ∧ l'.x[7] = (t.args[6].setWidth 32).signExtend 64 ∧
    (t.flags.getLsbD 1 = false → l'.x[8] = (t.args[7].setWidth 32).signExtend 64) ∧
    (t.flags.getLsbD 1 = true → l'.x[8] = BitVec.ofNat 64 (t.cgen.toNat * 2 ^ 32 + t.args[7].toNat % 32 * 2 ^ 22 +
      t.args[7].toNat / 32 % 16 * 2 ^ 18 + t.sender.toNat)) ∧
    l'.x[9] = BitVec.ofNat 64 (modid.toNat * 2 ^ 48 + t.flags.toNat * 2 ^ 32 + t.sender.toNat) ∧ l'.x[0] = 0 ∧
    (∀ n : Fin 22, l'.x[n.val + 10] = 0) ∧ (∀ n : Fin 16, l'.v[n] = VVal.zero) ∧ (∀ n : Fin 8, l'.p[n] = 0) ∧
    l'.gen = l.gen ∧ l'.prio = l.prio ∧ l'.tvec = l.tvec ∧ l'.spnlim = l.spnlim ∧ l'.intrap = false ∧ l'.sm = 0 ∧ l'.rctr = 0 ∧
    l'.spawns = 0 ∧ l'.asyncs = [] ∧ l'.cdq = [] ∧ l'.triggered = false ∧ l'.wait = none

/-! ### Engines (R167-R180) -/

/-- The operands and the format of an `mma` (R171). -/
def mmaForm : Instr → Option (MmaOp × MmaFmt)
  | .mmaBf16 o => some (o, .bf16)
  | .mmaE4m3 o => some (o, .e4m3)
  | .mmaE5m2 o => some (o, .e5m2)
  | .mmaXf8 o => some (o, .xf8)
  | _ => none

/-- The state with a matrix command of the acting context at the end of its core's queue (R167). -/
def State.queueMat (s : State) (op : MatOp) (tile : BitVec 6) : State :=
  s.modCore fun c => { c with mat := { c.mat with queue := c.mat.queue ++ [
    { own := s.owner, gate := s.owner, op := op, tile := tile, done := 0, resumed := false, block := none, codes := 0, taken := false
      ev := Events.zero }] } }

/-- The wait of the acting instruction for an object that is its own address (R340). -/
def State.waitsHere (s : State) (kind : Nat) : State := s.setWait { kind := kind, obj := s.slot.pc.setWidth 64, ph := 0 }

/-- The slot of a command's owner takes a fault at its next boundary (R170), if its task still runs; else nothing changes. -/
def State.faultsOwner (s t : State) (c : CoreId) (w : Owner) (scause : BitVec 16) (val : Word) (e : Option Engine) : Prop :=
  let o : SlotId := { core := c, slot := w.slot }
  let l := s.getSlot o
  ((l.gen = w.gen ∧ l.st ≠ .free) →
    t.getSlot o = { l with asyncs := l.asyncs ++ [{ scause := scause, val := val, engine := e }] }) ∧
  (¬(l.gen = w.gen ∧ l.st ≠ .free) → t.getSlot o = l)

/-- The operands and the kind of a transfer (R181). -/
def transferForm : Instr → Option (R2 × XferKind)
  | .copy o => some (o, .copy)
  | .gather o => some (o, .gather)
  | .scatter o => some (o, .scatter)
  | .mcast o => some (o, .mcast)
  | .ata o => some (o, .ata)
  | _ => none

/-- The state with a core's copy engine running a transfer, or none. -/
def State.copyRuns (s : State) (c : CoreId) (x : Option XferCmd) : State :=
  s.onCore c fun k => { k with copy := { k.copy with run := x } }

/-! ### Streams, trees and regions (R193-R239) -/

/-- The core's tree has 2^k leaves, and its configuration is one that `tcfg` accepts (R216, R219). -/
def Core.TreeOf (c : Core) (k : Nat) : Prop :=
  1 ≤ k ∧ k ≤ 13 ∧ c.tcfg.toNat = k ∧ c.tnode.toNat % 8 = 0 ∧ c.tleaf.toNat % 4 = 0 ∧ c.tnode.toNat + 8 * 2 ^ k ≤ 0x60000 ∧
    c.tleaf.toNat + 4 * 2 ^ k ≤ 0x60000 ∧
    (c.tnode.toNat + 8 * 2 ^ k ≤ c.tleaf.toNat ∨ c.tleaf.toNat + 4 * 2 ^ k ≤ c.tnode.toNat)

/-- The state with a command of the acting context at the end of the tree unit's queue (R218). -/
def State.queueTree (s : State) (op : TreeOp) : State :=
  s.modCore fun c => { c with tree := c.tree ++ [
    { own := s.owner, cfg := { n := 2 ^ c.tcfg.toNat, node := c.tnode.toNat, leaf := c.tleaf.toNat }, op := op }] }

/-- What a leaf write makes of the patterns given for leaves: the leaves written, −0 as +0, and the first rejected one (R217). -/
def acceptedRates (l : List (Nat × Word32)) : List (Nat × Word32) × Option Nat :=
  (l.filterMap fun r => if r.2 = 0x8000_0000 then some (r.1, 0) else if r.2.toNat < 0x7F80_0000 then some r else none,
   (l.find? fun r => !(r.2 = 0x8000_0000 || r.2.toNat < 0x7F80_0000)).map (·.1))

/-- A leaf write: its x and v sources, its operand A, and the patterns for its leaves with their events (R220). -/
def leafForm (s : State) (n : Nat) : Instr → Option (List XReg × List VReg × Word × List (Nat × Word32) × Events)
  | .tset o => some ([o.a, o.b], [], s.xv o.a, [((s.xv o.a).toNat, (s.xv o.b).setWidth 32)], Events.zero)
  | .tsetv o =>
    let a := (s.xv o.a).toNat
    some ([o.a], [o.vb], s.xv o.a,
      ((List.range 16).filter fun i => a + i < n).map fun i => (a + i, laneOf (s.slot.srcV o.vb) i), Events.zero)
  | .tsetx o =>
    let a := (s.xv o.a).toNat
    let r := fun (i : Nat) => tsetxValue (fp32.decode (laneOf (s.slot.srcV o.vb) i).toNat)
      (fp32.decode ((s.xv o.d).setWidth 32).toNat) (fp32.decode ((s.xv o.d).extractLsb' 32 32).toNat)
    let is := (List.range 16).filter fun i => a + i < n
    some ([o.a, o.d], [o.vb], s.xv o.a, is.map fun i => (a + i, BitVec.ofNat 32 (r i).bits), Events.sum (is.map fun i => (r i).ev))
  | _ => none

/-- A returning tree instruction: its x sources, its destination, its operand A, and its command; `tdraw` stands apart (R222, R225,
R226). -/
def treeReturnForm (s : State) : Instr → Option (List XReg × XReg × Word × TreeOp)
  | .tdesc o => some ([o.a, o.d], o.d, s.xv o.a, .desc o.d
      (match fp64.decode (s.xv o.a).toNat with
       | .nan => 0
       | v => if v.isNeg then 0 else s.xv o.a))
  | .tthr o => some ([o.a, o.b, o.d], o.d, s.xv o.a, .thr o.d ((s.xv o.a).getLsbD 0) (s.xv o.b))
  | _ => none

/-- The value of heap position `p` of a tree (R216). -/
def State.heapValue (s : State) (c : CoreId) (t : TreeCfg) (p : Nat) : FVal :=
  if p < t.n then fp64.decode (s.rd (localKey c (t.node + 8 * p)) 8)
  else fp32.decode (s.rd (localKey c (t.leaf + 4 * (p - t.n))) 4)

/-- Node `p` is the rounded sum of its children (R220, R221). -/
def State.nodeSums (s : State) (c : CoreId) (t : TreeCfg) (p : Nat) : Prop :=
  s.rd (localKey c (t.node + 8 * p)) 8 =
    (fp64.sum .rne [s.heapValue c t (2 * p), s.heapValue c t (2 * p + 1)]).bits

/-- The descent of `n` levels from position `i` with target `w` as FP64 bits: the position and the residual (R223). -/
def State.descent (s : State) (c : CoreId) (t : TreeCfg) : Nat → Nat → Nat → Nat × Nat
  | 0, i, w => (i, w)
  | n + 1, i, w =>
    let l := s.heapValue c t (2 * i)
    if FVal.lt false (fp64.decode w) l || (s.heapValue c t (2 * i + 1)).isZero then s.descent c t n (2 * i) w
    else s.descent c t n (2 * i + 1) (fp64.sum .rne [fp64.decode w, l.neg]).bits

/-- A tree instruction stops on a RANGE fault: no tree is configured and it needs one, or the configuration is not usable (R219). -/
def State.treeRange (s : State) (val : Word) : Host.Outcome State Fault Refusal := .next (s.takeSup s.cur 0x0311 val s.slot.pc)

/-- A `bsend` of the words of a record has sent its message from core `c`, whose inbox is at `ib`: SENDS goes up by one, the key carries
it, and CR.SENTMIN tracks the message (R234, R239). -/
def State.boundSent (s t : State) (c dst : CoreId) (words : List Word) (nw ib : Nat) : Prop :=
  let k := s.getCore c
  let ctl := s.rd ib 8
  let n := ctl / 2 ^ 24 % 256 + 1
  let time := words.getD 0 0
  ∃ msg, t.bmsgs = s.bmsgs ++ [msg] ∧ msg.src = c ∧ msg.dst = dst ∧ msg.launch = k.launch ∧ msg.cancel = false ∧ msg.nw = nw ∧
    msg.refused = false ∧ msg.key = { time := time, region := k.regid, seq := (k.eseq <<< 8) + BitVec.ofNat 64 n } ∧
    (∀ i : Fin 4, msg.payload[i] = if i.val < nw then words.getD (i.val + 1) 0 else 0) ∧
    t.rd ib 8 / 2 ^ 24 % 256 = n ∧ t.rd ib 8 % 2 ^ 24 = ctl % 2 ^ 24 ∧ t.rd ib 8 / 2 ^ 32 = ctl / 2 ^ 32 ∧
    (t.getCore c).unacked = k.unacked ++ [(msg.id, time)] ∧ timeLt time (t.getCore c).sentmin = false

/-- The record at journal offset `p` of core `c` holds four words (R232). -/
def State.recordAt (s : State) (c : CoreId) (p : Nat) (w0 w1 w2 w3 : Word) : Prop :=
  s.rd64 (localKey c p) = w0 ∧ s.rd64 (localKey c (p + 8)) = w1 ∧ s.rd64 (localKey c (p + 16)) = w2 ∧ s.rd64 (localKey c (p + 24)) = w3

/-- The entries of a core's inbox, 64 bytes each, in their order (R230). -/
def State.inboxEntries (s : State) (c : CoreId) : List (List Byte) :=
  (s.entries c).map fun i => memReads s.mem (s.entryKey c i) 64

/-- The header of a core's inbox besides CTL: the straggler key and the current key (R230). -/
def State.inboxKeys (s : State) (c : CoreId) : List Byte := memReads s.mem ((s.getCore c).inbox + 8) 56

/-- A message as an entry of the inbox, pending (R230). -/
def BoundMsg.asEntry (m : BoundMsg) : List Byte :=
  natBytes 8 m.key.time.toNat ++ natBytes 8 m.key.seq.toNat ++
    natBytes 8 (m.key.region.toNat + 1 * 2 ^ 32 + m.nw * 2 ^ 34) ++ natBytes 8 m.src.toNat ++
    (List.range 4).flatMap fun j => natBytes 8 (if j < m.nw then (m.payload.getD j 0).toNat else 0)

/-- State `u` is `s` with the journal record at offset `q` of the acting core undone (R236). -/
def State.Undone (s u : State) (q : Nat) : Prop :=
  let c := s.cur.core
  let w := fun (i : Nat) => s.rd64 (localKey c (q + 8 * i))
  let kind := (w 0).extractLsb' 0 4
  let key : Key := { time := w 1, seq := w 2, region := (w 3).setWidth 32 }
  (kind = 1 ∧ s.core.hasTree = true ∧ s.core.badTree = false ∧ ((w 0).extractLsb' 32 13).toNat < s.core.treeCfg.n ∧
    setLeaf s c s.core.treeCfg ((w 0).extractLsb' 32 13).toNat ((w 1).setWidth 32) = .ok u) ∨
  (kind = 2 ∧ ((w 0).extractLsb' 32 20).toNat + 8 ≤ 0x60000 ∧ u = s.wr64 (localKey c ((w 0).extractLsb' 32 20).toNat) (w 1)) ∨
  (kind = 3 ∧ u = s.sendCancel c ((w 0).extractLsb' 32 18) (w 1) (w 2)) ∨
  (kind = 4 ∧ ∃ i, s.findEntry c key (fun st => st = 2 || st = 3) = some i ∧
    ((s.entryState c i = 2 ∧ u = s.setEntryState c i 1) ∨ (s.entryState c i = 3 ∧ u = s.removeEntry c i))) ∨
  (kind = 5 ∧ u = (((s.modCore fun k => { k with rclk := w 1, eseq := k.eseq - 1 }).setCurrent c
      { time := w 1, seq := w 2, region := (w 0).extractLsb' 32 32 }).modSlot fun l =>
        if l.rsrc then { l with rtidx := (w 3).setWidth 16 } else { l with rctr := w 3 }).setCtl c 18 1 0)

/-! ### Launches (R312-R342) -/

/-- State `t` is `s` after a completion record of a queue: the record at CIDX with the time it was written, CIDX advanced, and the
queue's interrupt sent (R316, R381). -/
def State.hasCompletion (s t : State) (q : BitVec 3) (id : Word32) (status reason rank : Nat) (start : Word) : Prop :=
  let n := s.queueWord q 0x20
  s.dieTime (.io 0) ≤ t.dieTime (.io 0) ∧ t.msix = s.msix ++ [1 + q.toNat] ∧
    t.mem = ((s.wrPieces [(s.queueWord q 0x18 % 2 ^ 48 + 64 * (n % s.queueDepth q),
      natBytes 8 id.toNat ++ natBytes 8 (status + reason * 2 ^ 8 + rank * 2 ^ 16) ++ natBytes 8 start.toNat ++
        natBytes 8 (BitVec.ofNat 64 (t.dieTime (.io 0))).toNat ++ List.replicate 32 0)]).wr (s.queueBlock q + 0x20) 8 (n + 1)).mem

/-- The state after the launcher has taken a record from queue `q`: RIDX advanced, the next visit to the queue after it (R313). -/
def State.recordTaken (s : State) (q : BitVec 3) : State :=
  let t := s.wr (s.queueBlock q + 0x10) 8 (s.queueWord q 0x10 + 1)
  { t with launcher := { t.launcher with nextQueue := q + 1 } }

/-- The record of a queue that the launcher takes next (R312). -/
def State.nextRecord (s : State) (q : BitVec 3) : List Byte :=
  memReads s.mem (s.queueWord q 0 % 2 ^ 48 + 1024 * (s.queueWord q 0x10 % 2 ^ bits (s.queueWord q 0) 48 4)) 1024

/-- A task message that the launcher sends a core at the start (R320). -/
def initialTask (id : Word32) (c : CoreId) (handler : Off) (args : Vector Word 8) (u : Bool) : HeldTask :=
  { launch := id, origin := c, slot := 0, gen := 0, counted := false,
    task := { handler := handler, flags := if u then 0x81 else 0x01, sender := c, cgen := 0, args := args } }

/-- The pieces of a core's save area do not overlap one another (R337). -/
def saveApart (ch : List (Nat × Nat × Nat)) : Prop :=
  ∀ a b, a < 0x70000 → b < 0x70000 → chunkKey ch a = chunkKey ch b → a = b

/-- The doubleword at an offset of a record. -/
def recordWord (bs : List Byte) (off : Nat) : Word := BitVec.ofNat 64 (leNat ((bs.drop off).take 8))

/-- The field of `n` bits at bit `lo` of the doubleword at an offset of a record. -/
def recordField (bs : List Byte) (off lo n : Nat) : Nat := ((recordWord bs off).extractLsb' lo n).toNat

/-- Word `i` of the levels of a record. -/
def recordLevel (bs : List Byte) (i : Nat) : Word32 := BitVec.ofNat 32 (leNat ((bs.drop (0x060 + 4 * i)).take 4))

/-- The bits of a launch record that R314 does not list are zero. -/
def recordClean (bs : List Byte) (node : Bool) : Prop :=
  let f := recordField bs
  f 0 32 32 = 0 ∧ f 8 6 2 = 0 ∧ f 8 38 26 = 0 ∧ f 0x18 62 2 = 0 ∧ f 0x20 20 12 = 0 ∧ f 0x20 52 12 = 0 ∧ f 0x28 20 12 = 0 ∧
    f 0x28 52 12 = 0 ∧ f 0x58 32 32 = 0 ∧ (∀ i, i < 8 → (recordLevel bs i).extractLsb' 7 25 = 0) ∧
    (∀ i, i < 16 → f (0x80 + 8 * i) 61 3 = 0) ∧ f 0x108 20 44 = 0 ∧ f 0x110 0 64 = 0 ∧ (node = false → f 0x118 0 64 = 0) ∧
    (∀ i, 0x120 ≤ i → i < 0x140 → bs.getD i 0 = 0) ∧ ∀ i, 0x240 ≤ i → i < 0x400 → bs.getD i 0 = 0

/-- The sizes and limits of a launch record are in range (R314, R315, R318). -/
def recordSizes (bs : List Byte) : Prop :=
  let f := recordField bs
  let aqd := f 0x18 40 13
  let ibc := f 0x18 53 9
  f 0x18 0 20 + f 0x18 20 20 + 64 * aqd + 64 + 64 * ibc ≤ 0x60000 ∧ f 0x18 0 6 = 0 ∧ f 0x18 20 6 = 0 ∧ 1 ≤ aqd ∧ aqd ≤ 4096 ∧ 1 ≤ ibc ∧
    ibc ≤ 256 ∧ f 8 8 8 ≠ 0 ∧ f 0x58 0 32 ≠ 0 ∧ f 0x30 0 32 ≠ 0

/-- The levels of a launch record keep R321. -/
def recordLevels (bs : List Byte) : Prop :=
  let dom := fun i => ((recordLevel bs i).extractLsb' 0 3).toNat
  let scope := fun i => ((recordLevel bs i).extractLsb' 3 3).toNat
  ∃ n, 1 ≤ n ∧ n ≤ 8 ∧ (∀ i, i < 8 → ((recordLevel bs i).getLsbD 6 = true ↔ i < n)) ∧
    ∀ i, i < n → 1 ≤ dom i ∧ dom i ≤ 6 ∧ dom i ≤ scope i ∧ (i + 1 < n → dom i ≤ dom (i + 1))

/-- The handlers of a launch record lie as R315 asks. -/
def recordHandlers (bs : List Byte) : Prop :=
  let f := recordField bs
  let hbase := f 0x28 0 20
  let hlim := f 0x28 32 20
  hbase % 4 = 0 ∧ hlim % 4 = 0 ∧ hbase < hlim ∧ hlim ≤ f 0x18 0 20 ∧ hbase ≤ f 0x20 0 20 ∧ f 0x20 0 20 < hlim ∧
    f 0x20 32 20 % 4 = 0 ∧ f 0x20 32 20 < f 0x18 0 20

/-- The fields of a launch record as R314 places them. -/
def recordFields (bs : List Byte) (r : LaunchRec) : Prop :=
  let f := recordField bs
  let w := recordWord bs
  r.id.toNat = f 0 0 32 ∧ r.early = (w 8).getLsbD 2 ∧ r.note = (w 8).getLsbD 3 ∧ r.prio.toNat = f 8 4 2 ∧ r.spnlim.toNat = f 8 8 8 ∧
    r.tenant.toNat = f 8 16 12 ∧ r.nclus = f 8 28 10 + 1 ∧ r.image = w 0x10 ∧ r.isize = f 0x18 0 20 ∧ r.zsize = f 0x18 20 20 ∧
    r.aqd = f 0x18 40 13 ∧ r.ibc = f 0x18 53 9 ∧ r.entry.toNat = f 0x20 0 20 ∧ r.tvec.toNat = f 0x20 32 20 ∧
    r.hbase.toNat = f 0x28 0 20 ∧ r.hlim.toNat = f 0x28 32 20 ∧ r.slice.toNat = f 0x30 0 32 ∧ r.waitbud.toNat = f 0x30 32 32 ∧
    r.seed = w 0x38 ∧ r.ptroot = w 0x40 ∧ r.save = w 0x48 ∧ r.spill = w 0x50 ∧ r.spcap.toNat = f 0x58 0 32 ∧
    (∀ i : Fin 16, r.shp[i] = w (0x80 + 8 * i.val)) ∧ r.init = w 0x100 ∧ r.ninit = f 0x108 0 20 ∧ r.preds = w 0x118 ∧
    r.reads = (List.range 8).map (fun i => { base := f (0x140 + 16 * i) 0 64, len := f (0x148 + 16 * i) 0 64 }) ∧
    r.writes = (List.range 8).map fun i => { base := f (0x1C0 + 16 * i) 0 64, len := f (0x1C8 + 16 * i) 0 64 }

/-! ### The host (R381-R390) -/

/-- A link carries the host's accesses (R381, R388). -/
def State.anyLink (s : State) : Prop := s.linkUp false = true ∨ s.linkUp true = true

/-- A write of a register of the control space that is not ignored, as its table gives it: its offset, when it takes effect, and what
it changes (R383). -/
def barWrite (off : Nat) (w : Word) : Option ((Bar0 → Bool) × (Bar0 → Bar0)) :=
  if off = 0x00 then some (fun b => !b.run, fun b => { b with modid := w.setWidth 16 })
  else if off = 0x28 then some (fun b => !b.run, fun b => { b with qbase := w &&& 0xFFFF_FFFF_FFFF_FE00 })
  else if off = 0x30 then some (fun _ => true, fun b => { b with elbase := w &&& 0xFFFF_FFFF_FFFF_F000 })
  else if off = 0x38 then some (fun _ => true, fun b => { b with elctl := w &&& 0xF })
  else if off = 0x48 then some (fun _ => true, fun b => { b with elhidx := w })
  else none

/-- A host atomic: its width, and what memory holds after it by what it held (R381). -/
def hostAtomicOf : HostOp → Option (Bool × (Nat → Nat))
  | .fetchAdd wide v => some (wide, fun old => (old + v.toNat) % 2 ^ (if wide then 64 else 32))
  | .swap wide v => some (wide, fun _ => v.toNat % 2 ^ (if wide then 64 else 32))
  | .cas wide e v => some (wide, fun old =>
      if old = e.toNat % 2 ^ (if wide then 64 else 32) then v.toNat % 2 ^ (if wide then 64 else 32) else old)
  | _ => none

/-- What a plain read of a piece by request `r` finds: in its core's own local memory the bytes stored and whether one is poisoned; elsewhere
those of the 64-byte line held, or else of the line as its home holds it, with the context's stores on their way put over them (R125, R291,
R292). -/
def State.plainBytes (s : State) (r : Req) (p : Piece) : List Byte × Bool :=
  if homeCore p.key = some r.core then (memReads s.mem p.key p.len, (s.poisonAt p.key p.len).isSome)
  else
    let k := p.key / 64 * 64
    let line := ((s.getCore r.core).rlb.find? (·.key = k)).getD (s.fetchLine k)
    let own := s.passing r.slotId r.gen r.id
    (((overlay k line.bytes own).drop (p.key - k)).take p.len,
      (List.range 8).any fun g => line.poison.getLsbD g && !covers own (k / 8 + g) &&
        p.key - k < 8 * g + 8 && 8 * g < p.key - k + p.len)

/-- An operand of an engine of core `c` at an address that lies at a key of this module: in a core's local memory through the window of its
format, or in a linear page of its format whose entry alone the TLB holds for the address (R35, R172, R297). -/
def State.operandAt (s : State) (c : CoreId) (ea : Word) (n win page key : Nat) : Prop :=
  (∃ d off, s.target c ea n = .ok (.loc d win off) ∧ off % n = 0 ∧ (s.getCore d).saved = false ∧ key = localKey d off) ∨
  ∃ va e, s.target c ea n = .ok (.virt va) ∧ va % n = 0 ∧ (s.getCore c).tlb.length ≤ 64 ∧
    (∀ e' ∈ (s.getCore c).tlb, (e'.va ≤ va ∧ va < e'.va + e'.size ↔ e' = e)) ∧ e ∈ (s.getCore c).tlb ∧
    s.useEntry (s.getCore c) e va .r = .ok key ∧ key < 2 ^ 64 ∧ e.leaf.getLsbD 9 = false ∧ (e.leaf.extractLsb' 6 3).toNat = page

end Sys2Proof.Machine
end

