-- ==== Sys2Proof/Certificates/Slice0/Obligations.lean ====
section
/-! DEFINITION. The statements about this model. Each docstring names the rules of the spec that it formalises. -/

open Sys2Proof Sys2Proof.Machine

/-- Decoding what the encoder writes for a well-formed instruction gives the instruction back, with every operand at every value
that its encoding admits (R67-R92). The word after a one-word instruction is any word. -/
def Obligations.DecodeEncode : Prop :=
  ∀ (i : Instr) (lit : Word32), i.WellFormed →
    (∀ w, encode i = [w] → decode w lit = .ok i) ∧ ∀ w l, encode i = [w, l] → decode w l = .ok i

/-- A word that the decoder accepts is the encoding of the instruction it gives, which is well-formed: unused fields are zero and
no bit is dropped (R67-R93). -/
def Obligations.EncodeDecode : Prop :=
  ∀ (w lit : Word32) (i : Instr), decode w lit = .ok i →
    i.WellFormed ∧ encode i = if twoWord w then [w, lit] else [w]

/-- Words written out from the tables of R67 to R92 (major, then the fields from bit 24 down, then the wait flags) decode to the
instructions they stand for. -/
def Obligations.DecodedWords : Prop :=
  decode 0b0000001_00011_00100_00101_00000000_1_0#32 0 = .ok (.add { d := 3, a := 4, b := 5, wa := true, wb := false }) ∧
  decode 0b0000001_00011_00100_00101_00011010_0_0#32 0 = .ok (.sltz { d := 3, a := 4, b := 5, wa := false, wb := false }) ∧
  decode 0b0000001_00011_00100_00101_00011011_0_0#32 0 = .ok (.sle { d := 3, a := 4, b := 5, wa := false, wb := false }) ∧
  decode 0b0000010_00001_00010_1111111111111_0_0#32 0 = .ok (.addi { d := 1, a := 2, imm := 0x1FFF, wa := false }) ∧
  decode 0b0010000_00010_00001_0000000000100_0_1#32 0 =
    .ok (.beq { a := 1, b := 2, off := 4, wa := false, wb := true }) ∧
  decode 0b0011001_00111_00000_00000_00000000_0_0#32 0x8000_0000 = .ok (.lix { d := 7, lit := 0x8000_0000 }) ∧
  decode 0b0100110_00101_00110_0000000001000_1_0#32 0 = .ok (.ldd { d := 5, a := 6, imm := 8, wa := true }) ∧
  decode 0b0000001_00011_00100_00101_00011101_0_0#32 0 = .error .nonZeroField ∧
  decode 0#32 0 = .error .reservedMajor ∧
  decode 0b0001100_00001_00010_100000_100000_0_0_0#32 0 = .error .badImmediate

/-- A step whose next move is the issue of slot `o` runs the instruction that the words at its pc decode to, in the state in which
that slot acts and no longer waits (R17, R18, R73); words that are no instruction run as ILLEGAL (R93). Around it the step moves on the
ages and RR of R330, and the record of the order of events, which is the model's own (log 60), as are the agenda of moves and the count of
steps (log 3); the meanings move the pc past the words themselves. -/
def Obligations.StepRunsDecoded : Prop :=
  ∀ (s : State) (o : SlotId) (ms : List Move) (w lit : Word32),
    s.agenda = .issue o :: ms → s.canTurn o = true → (s.getSlot o).causeDue = false →
    (let b := ({ s with agenda := ms, tick := s.tick + 1 } : State)
     let l := s.getSlot o
     let t := (b.issuing o).banked o.core
     let runs := fun (i : Instr) =>
       ∃ u, exec i t = .next u ∧
         (let v := t.ordered u i
          ({ v with past := u.past, launcher := u.launcher } : State) = u ∧
          (v.past.map fun w => { w with readers := [] }) = (u.past.map fun w => { w with readers := [] }) ∧
          { v.launcher with launches := u.launcher.launches } = u.launcher ∧
          (v.launcher.launches.map fun l => { l with pub := Clock.zero, fin := Clock.zero }) =
            (u.launcher.launches.map fun l => { l with pub := Clock.zero, fin := Clock.zero }) ∧
          ((u.getSlot o).wait = none → step s = .next (v.tickCore b o.core [o.slot.toFin]
            (some ({ slot := o.slot.toFin, level := l.level, age := l.age, res := .next v }, decide (l.age < 64))))) ∧
          ((u.getSlot o).wait ≠ none →
            step s = .next (if u.nextId ≠ s.nextId ∨ (u.getSlot o).wait ≠ l.wait then v.tickCore b o.core [] none else b)))
     fetchWords t = .ok (w, lit) →
      (∀ i, decode w lit = .ok i → runs i) ∧ (∀ e, decode w lit = .error e → runs (.illegal w)))

/-- The fetch reads own local memory at the pc (R17), the word at pc + 4 too for an instruction of two words (R73); a pc that is
not word aligned, or above 0x5FFFC, is FETCH (R18). -/
def Obligations.FetchReadsMemory : Prop :=
  ∀ s : State,
    (s.slot.prefetched = [] → s.slot.pc.toNat % 4 = 0 → s.slot.pc.toNat ≤ 0x5FFF8 →
      s.poisonAt (localKey s.cur.core s.slot.pc.toNat) 8 = none →
      (let w := s.rd32 (localKey s.cur.core s.slot.pc.toNat)
       fetchWords s = .ok (w, if twoWord w then s.rd32 (localKey s.cur.core (s.slot.pc.toNat + 4)) else 0))) ∧
    ((s.slot.pc.toNat % 4 ≠ 0 ∨ 0x5FFFC < s.slot.pc.toNat) →
      fetchWords s = .error (.sup 0x0911 (s.slot.pc.setWidth 64)))

/-- Every instruction and every event ends in a next state, in every state, and so does every step: what the spec calls a trap, a
fault or a failure is taken as a next state (R9, R93, R110, R111). -/
def Obligations.NeverStops : Prop :=
  (∀ (i : Instr) (s : State), ∃ t, exec i s = .next t) ∧ (∀ s : State, ∃ t, step s = .next t) ∧ ∀ (n : Nat) (s : State), SafeRun n s

/-- The module after reset (R28, R310, R383, R386), its memory in canonical form (log 1). The registers that the spec gives no reset
value are zero by the model's choice (log 2), and memory that nothing has written reads zero by the model's choice (log 1). -/
def Obligations.ResetState : Prop :=
  (State.reset.MemoryCanonical ∧ Sys2Proof.core.reset = State.reset) ∧
  State.reset.bar0.bootst = 0 ∧ State.reset.bar0.run = false ∧ State.reset.mem = [] ∧ State.reset.poison = [] ∧
  State.reset.reqs = [] ∧ State.reset.tmsgs = [] ∧ State.reset.launcher.launches = [] ∧ State.reset.tenancy.owner = [] ∧
  (∀ k, memRead State.reset.mem k = 0) ∧
  ∀ c : CoreId,
    let k := State.reset.getCore c
    k.id = c ∧ k.sentmin = 0x7FF0_0000_0000_0000 ∧ (∀ n : Fin 4, k.monmin[n] = BitVec.allOnes 64) ∧
    k.mat.queue = [] ∧ k.copy.queue = [] ∧ k.vch = [] ∧ k.tree = [] ∧ k.tlb = [] ∧ k.rlb = [] ∧
    ∀ i : SlotNo, (k.getSlot i).st = .free ∧ (k.getSlot i).mode = .user ∧ (∀ n, (k.getSlot i).getX n = 0) ∧
      (∀ n, (k.getSlot i).xIsFull n = true) ∧ (∀ n, (k.getSlot i).vIsFull n = true) ∧ (k.getSlot i).gen = 0 ∧
      (∀ n, (k.getSlot i).getV n = VVal.zero) ∧ (∀ n : PReg, n ≠ 0 → (k.getSlot i).getP n = 0) ∧
      (∀ n, (k.getSlot i).getM n = 0) ∧ ∀ (n : BitVec 6) (j : Fin 64), (k.tile n)[j] = 0

/-- Every instruction, event and step keeps memory in its canonical form, from any state that has it: equal memories stay equal
data (log 1). -/
def Obligations.StepKeepsMemory : Prop :=
  (∀ (i : Instr) (s t : State), s.MemoryCanonical → exec i s = .next t → t.MemoryCanonical) ∧
  ∀ s t : State, s.MemoryCanonical → Steps s t → t.MemoryCanonical

/-- A byte written reads back, and every other byte reads as before; canonical memories that read alike are equal (R241, log 1). A
write leaves a granule's poison unless one of its pieces replaces every byte of the granule (R307). -/
def Obligations.MemoryReadsBack : Prop :=
  (∀ (m : List Host.Cell) (k j : Nat) (v : Byte), memWf m = true →
    memRead (memWrite m k v) j = if j = k then v else memRead m j) ∧
  (∀ m n : List Host.Cell, memWf m = true → memWf n = true → (∀ k, memRead m k = memRead n k) → m = n) ∧
  (∀ (m : List Host.Cell) (k j : Nat) (bs : List Byte), memWf m = true →
    memRead (memWrites m k bs) j = if k ≤ j ∧ j < k + bs.length then bs.getD (j - k) 0 else memRead m j) ∧
  (∀ (s : State) (ps : List (Nat × List Byte)) (g : Nat),
    g ∈ (s.wrPieces ps).poison ↔ g ∈ s.poison ∧ ∀ p ∈ ps, ¬(p.1 ≤ 8 * g ∧ 8 * g + 8 ≤ p.1 + p.2.length)) ∧
  (∀ (k : Nat) (bs : List Byte) (n : Nat), 0 < n →
    joinPieces ((List.range n).map fun i => (k + i * bs.length, bs)) = [(k, (List.range n).flatMap fun _ => bs)]) ∧
  ∀ (k j : Nat) (bs cs : List Byte), k + bs.length ≠ j → joinPieces [(k, bs), (j, cs)] = [(k, bs), (j, cs)]

/-- Taking a supervisor cause (R111), and the runtime failure that it is in supervisor mode and at a bad CR.SVEC (R97); taking a
user-level cause (R110), DOUBLE in its place with INTRAP set (R33, R111), and the two causes that count (R34). -/
def Obligations.TrapEntry : Prop :=
  (∀ (s : State) (o : SlotId) (scause : BitVec 16) (val : Word) (epc : Off),
    let l := s.getSlot o
    let svec := (s.getCore o.core).svec
    let t := s.takeSup o scause val epc
    (l.mode = .user → svec.toNat % 4 = 0 → svec.toNat ≤ 0x5FFFC →
      t.getSlot o = { l with sepc := epc, scause := scause, sval := val, mode := .supervisor, st := .held, pc := svec,
                             wait := none, joinAns := none } ∧ t.fails = s.fails ∧ t.errors = s.errors) ∧
    (l.mode = .user → (svec.toNat % 4 ≠ 0 ∨ 0x5FFFC < svec.toNat) →
      t.getSlot o = { l with sepc := epc, scause := 0x0911, sval := svec.setWidth 64, st := .stopped, wait := none } ∧
      t.fails.length = s.fails.length + 1 ∧ t.errors.length = s.errors.length + 1) ∧
    (l.mode = .supervisor →
      t.getSlot o = { l with sepc := epc, scause := scause, sval := val, st := .stopped, wait := none } ∧
      t.fails.length = s.fails.length + 1 ∧ t.errors.length = s.errors.length + 1) ∧
    t.mem = s.mem ∧ t.poison = s.poison ∧ (∀ q, q ≠ o → t.getSlot q = s.getSlot q) ∧
    ∀ c, { t.getCore c with slots := (s.getCore c).slots } = s.getCore c) ∧
  ∀ (s : State) (o : SlotId) (cause : BitVec 8) (val : Word) (epc sepc : Off),
    let l := s.getSlot o
    let t := s.takeUser o cause val epc sepc
    let svec := (s.getCore o.core).svec
    (l.mode = .user → l.intrap = false → l.tvec.toNat % 4 = 0 → l.tvec.toNat ≤ 0x5FFFC →
      t.getSlot o = { l with tepc := epc, tcause := cause, tval := val, intrap := true, pc := l.tvec, wait := none,
                             joinAns := none }) ∧
    (l.mode = .user → l.intrap = false → (l.tvec.toNat % 4 ≠ 0 ∨ 0x5FFFC < l.tvec.toNat) →
      svec.toNat % 4 = 0 → svec.toNat ≤ 0x5FFFC →
      t.getSlot o = { l with tepc := epc, tcause := cause, tval := val, intrap := true, sepc := l.tvec, scause := 0x0911,
                             sval := l.tvec.setWidth 64, mode := .supervisor, st := .held, pc := svec, wait := none,
                             joinAns := none }) ∧
    (l.mode = .user → l.intrap = true → svec.toNat % 4 = 0 → svec.toNat ≤ 0x5FFFC →
      t.getSlot o = { l with sepc := sepc, scause := 0x0018, sval := cause.setWidth 64, mode := .supervisor, st := .held,
                             pc := svec, wait := none, joinAns := none }) ∧
    (∀ n : Fin 16, (t.getCore o.core).xcnt[n] =
      if (cause = 0x01 ∧ n = 10) ∨ (cause = 0x05 ∧ n = 9) then
        BitVec.ofNat 32 (min ((s.getCore o.core).xcnt[n].toNat + 1) 0xFFFF_FFFF)
      else (s.getCore o.core).xcnt[n]) ∧
    t.mem = s.mem ∧ ∀ q, q ≠ o → t.getSlot q = s.getSlot q

/-- `rfe` (R113): from supervisor mode to CR.SEPC, from a user handler to CR.TEPC, and ILLEGAL elsewhere; a bad target faults at the
`rfe`. -/
def Obligations.ReturnFromTrap : Prop :=
  ∀ (o : R0) (s : State),
    (s.slot.mode = .supervisor → s.slot.sepc.toNat % 4 = 0 → s.slot.sepc.toNat ≤ 0x5FFFC →
      ∃ t, exec (.rfe o) s = .next t ∧ t.mem = s.mem ∧ t.cur = s.cur ∧
        t.slot = { s.slot with mode := .user, st := .ready, pc := s.slot.sepc, issued := s.slot.issued + 1 }) ∧
    (s.slot.mode = .supervisor → (s.slot.sepc.toNat % 4 ≠ 0 ∨ 0x5FFFC < s.slot.sepc.toNat) →
      exec (.rfe o) s = .next (s.takeSup s.cur 0x0911 (s.slot.sepc.setWidth 64) s.slot.pc)) ∧
    (s.slot.mode = .user → s.slot.intrap = true → s.slot.tepc.toNat % 4 = 0 → s.slot.tepc.toNat ≤ 0x5FFFC →
      ∃ t, exec (.rfe o) s = .next t ∧ t.mem = s.mem ∧ t.cur = s.cur ∧
        t.slot = { s.slot with intrap := false, pc := s.slot.tepc, issued := s.slot.issued + 1 } ∧
        (s.slot.asyncs = [] → s.slot.cdq ≠ [] → t.turn t.cur = exec (.copydone t.cur) t)) ∧
    (s.slot.mode = .user → s.slot.intrap = true → (s.slot.tepc.toNat % 4 ≠ 0 ∨ 0x5FFFC < s.slot.tepc.toNat) →
      exec (.rfe o) s = .next (s.takeSup s.cur 0x0911 (s.slot.tepc.setWidth 64) s.slot.pc)) ∧
    (s.slot.mode = .user → s.slot.intrap = false →
      exec (.rfe o) s = .next (s.takeSup s.cur 0x0010 s.instrWord s.slot.pc))

/-- `trap` and `brk` (R110, R111, R114), and a word that is no instruction (R93, R94). That `trap` counts as issued when its cause is
taken is the model's reading (log 22), and so is CR.SEPC where the cause is DOUBLE, the `trap` itself (log 23). -/
def Obligations.SoftwareTraps : Prop :=
  ∀ s : State,
    (∀ o : TrapOp, exec (.trap o) s =
      .next (s.noteIssued.takeUser s.cur 0x07 (o.imm.setWidth 64) (s.slot.pc + 4) s.slot.pc)) ∧
    (∀ o : TrapOp, exec (.brk o) s = .next (s.takeSup s.cur 0x0017 (o.imm.setWidth 64) s.slot.pc)) ∧
    ∀ w : BitVec 32, exec (.illegal w) s = .next (s.takeSup s.cur 0x0010 (w.setWidth 64) s.slot.pc)

/-- The issue rule (R21): what passes, and what the first empty source does (R23). The room of an output stream is the model's own
(log 16). -/
def Obligations.IssueRule : Prop :=
  (∀ (s : State) (srcs : List (Reg × Bool)) (dsts : List Reg),
    issueRule s srcs dsts = .ok () ↔
      (∀ r ∈ srcs, s.slot.srcEmpty r.1 = false ∧ s.slot.wrongWay false r.1 = false) ∧
      ∀ d ∈ dsts, s.slot.wrongWay true d = false ∧
        match d with
        | .x n => s.slot.xIsFull n = true
        | .v n =>
          match s.slot.streamOf n with
          | some i => s.slot.sd.getLsbD i.val = false ∨ s.pushesOut s.cur i < pushLimit
          | none => s.slot.vIsFull n = true) ∧
  (∀ (s : State) (before after : List (Reg × Bool)) (r : Reg) (wait : Bool) (dsts : List Reg),
    (∀ q ∈ before, s.slot.srcEmpty q.1 = false) → s.slot.srcEmpty r = true →
    issueRule s (before ++ (r, wait) :: after) dsts =
      if wait then .error (.user 0x01 (BitVec.ofNat 64 r.number))
      else .error (.wait s { kind := 4, obj := BitVec.ofNat 64 r.number, ph := 0 })) ∧
  ∀ (s : State) (o : R3),
    (s.slot.xIsFull o.a = false →
      exec (.add o) s = .next (if o.wa then s.takeUser s.cur 0x01 (o.a.setWidth 64) s.slot.pc s.slot.pc
        else s.setWait { kind := 4, obj := o.a.setWidth 64, ph := 0 })) ∧
    (s.slot.xIsFull o.a = true → s.slot.xIsFull o.b = false →
      exec (.add o) s = .next (if o.wb then s.takeUser s.cur 0x01 (o.b.setWidth 64) s.slot.pc s.slot.pc
        else s.setWait { kind := 4, obj := o.b.setWidth 64, ph := 0 }))

/-- What a mode may not run or reach is ILLEGAL (R27, R93, R117, R119, R120): the instruction has no other effect. -/
def Obligations.PrivilegedIllegal : Prop :=
  ∀ s : State,
    let bad := s.takeSup s.cur 0x0010 s.instrWord s.slot.pc
    (s.slot.mode = .user →
      (∀ o, exec (.halt o) s = .next bad) ∧ (∀ o, exec (.tlbinv o) s = .next bad) ∧ (∀ o, exec (.tlbprobe o) s = .next bad) ∧
      (∀ o : CrrOp, s.FullX [o.d] → 0x200 ≤ o.n.toNat → exec (.crr o) s = .next bad) ∧
      (∀ o : CrwOp, s.FullX [o.a] → crUser o.n.toNat ≠ .rw →
        exec (.crw o) s = .next bad ∧ exec (.crs o) s = .next bad ∧ exec (.crc o) s = .next bad)) ∧
    (∀ o : CrrOp, s.FullX [o.d] → ¬crListed o.n.toNat → exec (.crr o) s = .next bad) ∧
    (∀ o : CrwOp, s.FullX [o.a] →
      ¬crListed o.n.toNat ∨ (s.slot.mode = .supervisor ∧ (o.n = 0x000 ∨ o.n = 0x001 ∨ o.n = 0x040)) →
      exec (.crw o) s = .next bad ∧ exec (.crs o) s = .next bad ∧ exec (.crc o) s = .next bad)

/-- The scalar instructions (R99, R101, R106): with sources and destination full, each answers the state in which only the
destination, the pc and the two counts of issued instructions have changed. -/
def Obligations.ScalarResults : Prop :=
  ∀ (i : Instr) (s : State) (rs : List XReg) (d : XReg) (v : Word),
    scalarResult s i = some (rs, d, v) → s.FullX rs → exec i s = .next (s.wroteX d v (scalarBytes i))

/-- The counts, `bswap`, `bfx` and `bfi` (R99, R102), bit by bit, and division, with division by zero and its ARITH (R99, R100,
R57). -/
def Obligations.BitsAndDivision : Prop :=
  (∀ (i : Instr) (s : State) (rs : List XReg) (d : XReg) (p : Word → Prop),
    bitResult s i = some (rs, d, p) → s.FullX rs → ∃ v, p v ∧ exec i s = .next (s.wroteX d v 4)) ∧
  ∀ (i : Instr) (s : State) (o : R3) (v z : Word),
    divResult s i = some (o, v, z) → s.FullX [o.a, o.b, o.d] →
    (s.xv o.b ≠ 0 → exec i s = .next (s.wroteX o.d v 4)) ∧
    (s.xv o.b = 0 →
      ∃ t, exec i s = .next t ∧ t.mem = s.mem ∧ t.slot.getX o.d = (if o.d = 0 then 0 else z) ∧
        (∀ n, n ≠ o.d → t.slot.getX n = s.slot.getX n) ∧
        (∀ n : Fin 16, t.core.xcnt[n] =
          if n = 5 then BitVec.ofNat 32 (min (s.core.xcnt[n].toNat + 1) 0xFFFF_FFFF) else s.core.xcnt[n]) ∧
        (s.slot.mode = .supervisor ∨ s.slot.axen.getLsbD 5 = false → t.slot.pc = s.slot.pc + 4) ∧
        (s.slot.mode = .user → s.slot.axen.getLsbD 5 = true → s.slot.intrap = false → isCode s.slot.tvec.toNat →
          t.slot.pc = s.slot.tvec ∧ t.slot.tcause = 0x04 ∧ t.slot.tval = 5 ∧ t.slot.tepc = s.slot.pc + 4 ∧
          t.slot.intrap = true))

/-- The frame of the scalar instructions: `wroteX` changes x register `d` (nothing for x0), the pc, and the two counts of issued
instructions (R19, R98, R122). -/
def Obligations.RegisterFrame : Prop :=
  ∀ (s : State) (d : XReg) (v : Word) (len : Off),
    let t := s.wroteX d v len
    t.slot.getX d = (if d = 0 then 0 else v) ∧ (∀ n, n ≠ d → t.slot.getX n = s.slot.getX n) ∧
    t.slot = { s.slot.setX d v with pc := s.slot.pc + len, issued := s.slot.issued + 1 } ∧
    t.slot.v = s.slot.v ∧ t.slot.p = s.slot.p ∧ t.slot.m = s.slot.m ∧ t.slot.xfull = s.slot.xfull ∧ t.slot.vfull = s.slot.vfull ∧
    (∀ q, q ≠ s.cur → t.getSlot q = s.getSlot q) ∧
    (∀ c, { t.getCore c with slots := (s.getCore c).slots, issued := (s.getCore c).issued } = s.getCore c) ∧
    t.core.issued = s.core.issued + 1 ∧ { t with cores := s.cores } = s ∧
    ∀ k, memRead t.mem k = memRead s.mem k

/-- The conditional branches (R103), `jal` and `jalr` (R104), and the target rule of R18. -/
def Obligations.BranchesAndJumps : Prop :=
  (∀ (i : Instr) (s : State) (o : BOp) (taken : Prop),
    branchTaken s i = some (o, taken) → s.FullX [o.a, o.b] →
    (let t := s.slot.pc.setWidth 64 + 4 * o.off.signExtend 64
     (¬taken → exec i s = .next (s.advance 4).noteIssued) ∧
     (taken → isCode t.toNat → exec i s = .next (s.jumped t)) ∧
     (taken → ¬isCode t.toNat → exec i s = .next (s.takeSup s.cur 0x0911 t s.slot.pc)))) ∧
  (∀ (o : JOp) (s : State), s.FullX [o.d] →
    (let t := s.slot.pc.setWidth 64 + 4 * o.off.signExtend 64
     (isCode t.toNat → exec (.jal o) s = .next ((s.putX o.d (s.slot.pc.setWidth 64 + 4)).jumped t)) ∧
     (¬isCode t.toNat → exec (.jal o) s = .next (s.takeSup s.cur 0x0911 t s.slot.pc)))) ∧
  ∀ (o : IOp) (s : State), s.FullX [o.a, o.d] →
    (let t := s.xv o.a + o.imm.signExtend 64
     let own := t.extractLsb' 20 44 = 0 ∨
       (t.extractLsb' 44 20 = 1 ∧ t.extractLsb' 42 2 = 0 ∧ t.extractLsb' 24 18 = s.cur.core ∧ t.extractLsb' 20 4 = 0)
     (own → isCode (t.extractLsb' 0 20).toNat →
       exec (.jalr o) s = .next ((s.putX o.d (s.slot.pc.setWidth 64 + 4)).jumped (t.extractLsb' 0 20 |>.setWidth 64))) ∧
     (¬(own ∧ isCode (t.extractLsb' 0 20).toNat) → exec (.jalr o) s = .next (s.takeSup s.cur 0x0911 t s.slot.pc)))

/-- `loop` (R105). -/
def Obligations.LoopResult : Prop :=
  ∀ (o : LoopOp) (s : State),
    let n := s.xv o.a - 1
    let t := s.slot.pc.setWidth 64 + 4 * o.off.signExtend 64
    (s.FullX [o.a] → n = 0 → exec (.loop o) s = .next (s.wroteX o.a n 4)) ∧
    (s.FullX [o.a] → n ≠ 0 → isCode t.toNat → exec (.loop o) s = .next ((s.putX o.a n).jumped t)) ∧
    (s.FullX [o.a] → n ≠ 0 → ¬isCode t.toNat → exec (.loop o) s = .next (s.takeSup s.cur 0x0911 t s.slot.pc)) ∧
    (s.xv o.a = 0 → n = BitVec.allOnes 64) ∧
    (¬s.FullX [o.a] → exec (.loop o) s =
      .next (if o.wa then s.takeUser s.cur 0x01 (o.a.setWidth 64) s.slot.pc s.slot.pc
        else s.setWait { kind := 4, obj := o.a.setWidth 64, ph := 0 }))

/-- What a control register reads after a write, and that no other one changes (R6, R28-R32, R107, R437). CR.SLICE and CR.WAITBUD
read free values (log 4), and a write of CR.MMPROG is R174's. -/
def Obligations.ControlRegisterFields : Prop :=
  ∀ (s : State) (n : Nat) (w : Word), crSup n = .rw → n ≠ 0x048 → n ≠ 0x207 → n ≠ 0x208 →
    let t := s.crWrite n w
    t.crRead n = crAfterWrite n (s.crRead n) w ∧ (∀ m, m ≠ n → t.crRead m = s.crRead m) ∧
    t.mem = s.mem ∧ t.slot.x = s.slot.x ∧ t.slot.v = s.slot.v ∧ t.slot.p = s.slot.p ∧ t.slot.m = s.slot.m ∧
    t.slot.xfull = s.slot.xfull ∧ t.slot.vfull = s.slot.vfull ∧ t.slot.pc = s.slot.pc ∧ t.slot.mode = s.slot.mode

/-- `crr`, `crw`, `crs`, `crc` (R107), the wait of R108 and the refusal of R32. -/
def Obligations.ControlRegisterAccess : Prop :=
  ∀ s : State,
    let waits := fun n : BitVec 13 =>
      s.setWait { kind := 10, obj := s.slot.pc.setWidth 64, ph := n.setWidth 64 }
    let bad := s.takeSup s.cur 0x0010 s.instrWord s.slot.pc
    (∀ o : CrrOp, s.FullX [o.d] → crAccess s.slot.mode o.n.toNat ≠ .none →
      (crHeld o.n.toNat = false ∨ s.core.commandsSettled = true →
        exec (.crr o) s = .next (s.wroteX o.d (s.crRead o.n.toNat) 4)) ∧
      (crHeld o.n.toNat = true → s.core.commandsSettled = false → exec (.crr o) s = .next (waits o.n))) ∧
    ∀ o : CrwOp, s.FullX [o.a] → crAccess s.slot.mode o.n.toNat = .rw →
      (let old := s.crRead o.n.toNat
       let a := s.xv o.a
       let esz := fun w : Word => o.n = 0x045 → w.extractLsb' 48 4 = 6
       let wrote := fun w : Word => ((s.crWrite o.n.toNat w).advance 4).noteIssued
       (crHeld o.n.toNat = false ∨ s.core.commandsSettled = true →
         exec (.crw o) s = .next (if esz a then wrote a else bad) ∧
         exec (.crs o) s = .next (if esz (old ||| a) then wrote (old ||| a) else bad) ∧
         exec (.crc o) s = .next (if esz (old &&& ~~~a) then wrote (old &&& ~~~a) else bad)) ∧
       (crHeld o.n.toNat = true → s.core.commandsSettled = false →
         exec (.crw o) s = .next (waits o.n) ∧ exec (.crs o) s = .next (waits o.n) ∧ exec (.crc o) s = .next (waits o.n)))

/-- `fe` (R118), `nop`, `yield` (R115), `ifence` (R116), `halt` (R117), `tlbinv` (R119), `tlbprobe` (R120), `time` (R121),
`ctrr` (R122). What a halt waits for is log 38. How far the timebase and the counters of cycles move on is free (log 4). The issue choice of a cycle (R330), and what a sample
does to the monitors (R393, R394). -/
def Obligations.SystemResults : Prop :=
  (∀ (o : RAB) (s : State), s.FullX [o.a, o.b] →
    let n := (s.xv o.a).toNat
    let full := (s.xv o.b).getLsbD 0
    let stream := 44 ≤ n ∧ s.slot.sm.getLsbD (n - 44) = true
    (47 < n ∨ stream → exec (.fe o) s = .next (s.takeSup s.cur 0x0010 s.instrWord s.slot.pc)) ∧
    (n = 0 → exec (.fe o) s = .next (s.advance 4).noteIssued) ∧
    (0 < n → n ≤ 47 → ¬stream → s.returning s.cur (regOfNumber n) = true →
      exec (.fe o) s = .next (s.setWait { kind := 11, obj := s.slot.pc.setWidth 64, ph := BitVec.ofNat 64 n })) ∧
    (0 < n → n ≤ 47 → ¬stream → s.returning s.cur (regOfNumber n) = false →
      ∃ t, exec (.fe o) s = .next t ∧ t.mem = s.mem ∧ t.slot.x = s.slot.x ∧ t.slot.v = s.slot.v ∧
        t.slot.pc = s.slot.pc + 4 ∧
        (∀ i, i < 32 → t.slot.xfull.getLsbD i = if i = n then full else s.slot.xfull.getLsbD i) ∧
        (∀ i, i < 16 → t.slot.vfull.getLsbD i = if 32 + i = n then full else s.slot.vfull.getLsbD i) ∧
        ∀ i, i < 32 → t.slot.callp.getLsbD i = if i = n ∧ full = true then false else s.slot.callp.getLsbD i)) ∧
  (∀ s : State,
    (∀ o, exec (.nop o) s = .next (s.advance 4).noteIssued) ∧
    (∀ o, ∃ t, exec (.yield o) s = .next t ∧ t.mem = s.mem ∧
      t.slot = { s.slot with pc := s.slot.pc + 4, issued := s.slot.issued + 1 } ∧
      ∀ v : Fin 5, t.core.rr[v] = if v.val = (if s.slot.mode = .supervisor then 4 else s.slot.prio.toNat) then s.cur.slot
        else s.core.rr[v]) ∧
    (∀ o, (∀ r ∈ s.reqsOf s.cur, r.pendingBytes = []) → ∃ t, exec (.ifence o) s = .next t ∧ t.mem = s.mem ∧
      t.slot = { s.slot with prefetched := [], pc := s.slot.pc + 4, issued := s.slot.issued + 1 }) ∧
    (∀ o, (∃ r ∈ s.reqsOf s.cur, r.pendingBytes ≠ []) →
      exec (.ifence o) s = .next (s.setWait { kind := 6, obj := s.slot.pc.setWidth 64, ph := 0 })) ∧
    (∀ o, s.slot.mode = .supervisor → ∃ t, exec (.halt o) s = .next t ∧ t.core.halted = true ∧ t.errors = s.errors ∧
      ∃ f, t.fails = s.fails ++ [f] ∧ f.core = s.cur.core ∧ f.launch = s.core.launch ∧
        f.halt = some (s.slot.sepc.setWidth 64, s.cur.slot.setWidth 64)) ∧
    (∀ n f w1 w3, s.fails.find? (·.id = n) = some f → f.halt = some (w1, w3) →
      (s.quiet f.core = true ∨ (s.getCore f.core).saved = true →
        ∃ t e, exec (.failureReport n) s = .next t ∧ t.fails = s.fails.filter (·.id ≠ n) ∧ t.errors = s.errors ++ [e] ∧
          e.kind = 2 ∧ e.core = f.core ∧ e.launch = f.launch ∧ e.word1 = w1 ∧ e.word3 = w3) ∧
      (s.quiet f.core = false → (s.getCore f.core).saved = false →
        (∃ l ∈ s.launcher.launches, l.record.id = f.launch ∧ (l.stage = .running ∨ l.stage = .saving) ∧ f.core ∈ l.cores) →
        exec (.failureReport n) s = .next s)) ∧
    (∀ o : RA, s.slot.mode = .supervisor → s.FullX [o.a] → ∃ t, exec (.tlbinv o) s = .next t ∧
      t.slot = { s.slot with pc := s.slot.pc + 4, issued := s.slot.issued + 1 } ∧
      ∀ e, e ∈ t.core.tlb ↔ e ∈ s.core.tlb ∧ (s.xv o.a).getLsbD 0 = false ∧
        ((s.xv o.a).extractLsb' 44 4 < 8 ∨ ¬(e.va ≤ ((s.xv o.a).extractLsb' 0 47).toNat ∧
          ((s.xv o.a).extractLsb' 0 47).toNat < e.va + e.size))) ∧
    (∀ o : R2, s.slot.mode = .supervisor → s.FullX [o.a, o.d] →
      (let va := ((s.xv o.a).extractLsb' 0 47).toNat
       ((s.xv o.a).extractLsb' 44 4 < 8 → exec (.tlbprobe o) s = .next (s.wroteX o.d 0 4)) ∧
       (8 ≤ (s.xv o.a).extractLsb' 44 4 → s.core.tlbFind va = none → exec (.tlbprobe o) s = .next (s.wroteX o.d 0 4)) ∧
       (∀ e, 8 ≤ (s.xv o.a).extractLsb' 44 4 → s.core.tlbFind va = some e →
         exec (.tlbprobe o) s = .next (s.wroteX o.d e.leaf 4)))) ∧
    (∀ o : RD, s.FullX [o.d] →
      (let die := DieId.compute (dieOf s.cur.core)
       ∃ now v, s.now ≤ now ∧ s.dieTime die ≤ v ∧ now ≤ v + 32 ∧ (v ≤ now + 32 ∨ v = s.dieTime die) ∧
        exec (.time o) s =
          .next (({ s with now := now, times := tabPut s.times die v } : State).wroteX o.d (BitVec.ofNat 64 v) 4))) ∧
    ∀ o : R2, s.FullX [o.a, o.d] →
      (s.xv o.a = 1 → exec (.ctrr o) s = .next (s.wroteX o.d s.slot.issued 4)) ∧
      (s.xv o.a = 2 → exec (.ctrr o) s = .next (s.wroteX o.d s.core.issued 4)) ∧
      (s.xv o.a = 0 → ∃ v, exec (.ctrr o) s = .next ((s.modCore fun c => { c with cycles := v }).wroteX o.d v 4)) ∧
      (s.xv o.a = 3 → ∃ v, exec (.ctrr o) s = .next ((s.modSlot fun l => { l with waited := v }).wroteX o.d v 4)) ∧
      (s.xv o.a = 4 → ∃ v, exec (.ctrr o) s = .next ((s.modCore fun c => { c with idle := v }).wroteX o.d v 4)) ∧
      (4 < (s.xv o.a).toNat → exec (.ctrr o) s = .next (s.takeSup s.cur 0x0010 s.instrWord s.slot.pc))) ∧
  (∀ (s : State) (c : CoreId) (ms : List Move), s.agenda = .cycle c :: ms →
    let b := ({ s with agenda := ms, tick := s.tick + 1 } : State)
    let slot := fun i : Fin 16 => b.getSlot (slotAt c i)
    let can := fun i : Fin 16 => b.canTurn (slotAt c i) = true ∧
      ∃ u, b.turn (slotAt c i) = .next u ∧ (u.getSlot (slotAt c i)).wait = none
    let level := fun i : Fin 16 => if (slot i).mode = .supervisor then 4 else (slot i).prio.toNat
    let rr := fun v : Nat => ((b.getCore c).rr.getD v 0).toNat
    let place := fun i : Fin 16 => (i.val + 31 - rr (level i)) % 16
    (∀ i r, b.turn (slotAt c i) ≠ .refused r) → (∃ i, can i) →
    ∃ i u t, can i ∧ b.turn (slotAt c i) = .next u ∧ step s = .next t ∧ t.mem = u.mem ∧ t.reqs = u.reqs ∧
      ((∃ j, can j ∧ 64 ≤ (slot j).age) →
        (∀ j, can j → (slot j).age < (slot i).age ∨ ((slot j).age = (slot i).age ∧ i ≤ j)) ∧ (t.getCore c).rr = (u.getCore c).rr) ∧
      ((∀ j, can j → (slot j).age < 64) →
        (∀ j, can j → level j < level i ∨ (level j = level i ∧ place i ≤ place j)) ∧
        ∀ v : Fin 5, (t.getCore c).rr[v] = if v.val = level i then BitVec.ofFin i else (u.getCore c).rr[v]) ∧
      (t.getSlot (slotAt c i)) = { u.getSlot (slotAt c i) with age := 0 } ∧
      ∀ j, j ≠ i → ∃ n, t.getSlot (slotAt c j) = { u.getSlot (slotAt c j) with age := (u.getSlot (slotAt c j)).age + n } ∧
        (((slot j).st = .ready ∨ (slot j).st = .held) ∧ ((slot j).wait = none ∨ can j) → n = 1) ∧
        (¬(((slot j).st = .ready ∨ (slot j).st = .held) ∧ ((slot j).wait = none ∨ can j)) → n = 0)) ∧
  ∀ (c : Core) (src : Nat) (v : Word) (n : Fin 4),
    let k := c.sample src v
    let shift := (c.monsel[n].extractLsb' 8 4).toNat
    let inBin := fun b : Fin 16 =>
      if b = 0 then v.toNat < 2 ^ shift
      else 2 ^ (shift + b.val - 1) ≤ v.toNat ∧ (b < 15 → v.toNat < 2 ^ (shift + b.val))
    k.monsel = c.monsel ∧ k.slots = c.slots ∧
    ((c.monsel[n].extractLsb' 0 4).toNat ≠ src →
      k.monmin[n] = c.monmin[n] ∧ k.monmax[n] = c.monmax[n] ∧ ∀ b : Fin 16, k.mbin[16 * n.val + b.val] = c.mbin[16 * n.val + b.val]) ∧
    ((c.monsel[n].extractLsb' 0 4).toNat = src →
      k.monmin[n].toNat = min c.monmin[n].toNat v.toNat ∧ k.monmax[n].toNat = max c.monmax[n].toNat v.toNat ∧
      ∀ b : Fin 16, (inBin b → k.mbin[16 * n.val + b.val] = BitVec.ofNat 32 (min (c.mbin[16 * n.val + b.val].toNat + 1) 0xFFFF_FFFF)) ∧
        (¬inBin b → k.mbin[16 * n.val + b.val] = c.mbin[16 * n.val + b.val]))

/-- The plain loads (R126): their request, the alignment rule and the range rule in own local memory (R35, R37). The request is
applied by HOME_ACCESS and its answer brought by RETURNING_OPERATION_COMPLETE. RANGE of an access that straddles the end of local memory
is the model's choice (log 15). -/
def Obligations.LoadIssue : Prop :=
  ∀ (i : Instr) (s : State) (o : IOp) (n : Nat) (signed windows : Bool),
    loadForm i = some (o, n, signed, windows) → s.FullX [o.a, o.d] →
    let ea := s.xv o.a + o.imm.signExtend 64
    (∀ t p, scalarPlace s ea n .r windows = .ok (t, p) →
      exec i s = .next (((t.emptyX o.d).send ea (.load (p.piece n) p.win signed o.d)).advance 4).noteIssued) ∧
    (ea.toNat % n = 0 → ea.toNat + n ≤ 0x60000 →
      scalarPlace s ea n .r windows = .ok (s, { key := localKey s.cur.core ea.toNat, win := .raw })) ∧
    (ea.toNat % n ≠ 0 → ea.toNat + n ≤ 0x60000 → exec i s = .next (s.takeSup s.cur 0x0511 ea s.slot.pc)) ∧
    (0x60000 < ea.toNat + n → ea.toNat < 2 ^ 20 → exec i s = .next (s.takeSup s.cur 0x0311 ea s.slot.pc))

/-- The plain stores (R127): the bytes sent, narrowed through windows 1 to 5 (R36, R38), by draws of either source (R65), and what faults. HOME_ACCESS applies them. RANGE of a store
that straddles the end of local memory is the model's choice (log 15). -/
def Obligations.StoreIssue : Prop :=
  ∀ (i : Instr) (s : State) (o : SOp) (n : Nat) (windows : Bool),
    storeForm i = some (o, n, windows) → s.FullX [o.a, o.b] →
    let ea := s.xv o.a + o.imm.signExtend 64
    (∀ t p, scalarPlace s ea n .w windows = .ok (t, p) → p.win = .raw →
      exec i s = .next ((t.sendStore ea [(p.key, natBytes n (s.xv o.b).toNat)] none).advance 4).noteIssued) ∧
    (ea.toNat % n = 0 → ea.toNat + n ≤ 0x60000 →
      scalarPlace s ea n .w windows = .ok (s, { key := localKey s.cur.core ea.toNat, win := .raw }) ∧
      ∃ t, exec i s = .next t ∧ t.mem = s.mem ∧ t.slot.pc = s.slot.pc + 4 ∧
        ∃ r, t.reqs = s.reqs ++ [r] ∧ r.core = s.cur.core ∧ r.slot = s.cur.slot ∧ r.applied = false ∧
          r.op = .store [(localKey s.cur.core ea.toNat, natBytes n (s.xv o.b).toNat)] none) ∧
    (ea.toNat % n ≠ 0 → ea.toNat + n ≤ 0x60000 → exec i s = .next (s.takeSup s.cur 0x0511 ea s.slot.pc)) ∧
    (0x60000 < ea.toNat + n → ea.toNat < 2 ^ 20 → exec i s = .next (s.takeSup s.cur 0x0311 ea s.slot.pc)) ∧
    (∀ t p, scalarPlace s ea n .w windows = .ok (t, p) → p.win ≠ .raw → s.slot.rmode = false →
      (let r := p.win.narrow .rne ((s.xv o.b).setWidth 32)
       exec i s = .next
         (((t.sendStore ea [(p.key, natBytes p.win.width r.bits)] none).advance 4).withEvents r.ev).noteIssued)) ∧
    (∀ t p, scalarPlace s ea n .w windows = .ok (t, p) → p.win ≠ .raw → s.slot.rmode = true → s.slot.rsrc = true →
      (let draws := p.win != .int8
       let base := s.slot.rtbase.toNat
       let len := s.slot.rtlen.toNat
       let off := base + 8 * s.slot.rtidx.toNat
       let u := if draws then (t.noteOwn [{ key := localKey s.cur.core off, len := 8 }]).modSlot fun l =>
           { l with rtidx := BitVec.ofNat 16 ((s.slot.rtidx.toNat + 1) % len) } else t
       let d := s.rd64 (localKey s.cur.core off)
       let r := p.win.narrow (if draws then .sr (d.toNat / 2 ^ 56) else .rne) ((s.xv o.b).setWidth 32)
       (draws = true → len = 0 → exec i s = .next (s.takeSup s.cur 0x0311 (s.slot.rtbase.setWidth 64) s.slot.pc)) ∧
       (draws = true → len ≠ 0 → base % 8 ≠ 0 → exec i s = .next (s.takeSup s.cur 0x0511 (s.slot.rtbase.setWidth 64) s.slot.pc)) ∧
       (draws = false ∨ (len ≠ 0 ∧ base % 8 = 0 ∧ off < 0x60000 ∧ s.reqsOf s.cur = [] ∧ s.poisonAt (localKey s.cur.core off) 8 = none) →
         exec i s = .next
           (((u.sendStore ea [(p.key, natBytes p.win.width r.bits)] none).advance 4).withEvents r.ev).noteIssued))) ∧
    ∀ t p, scalarPlace s ea n .w windows = .ok (t, p) → p.win ≠ .raw → s.slot.rmode = true → s.slot.rsrc = false →
      (let draws := p.win != .int8
       let u := if draws then t.modSlot fun l => { l with rctr := l.rctr + 1 } else t
       let d := philoxDraw s.core.seed s.slot.rctr s.cur.core s.cur.slot
       let r := p.win.narrow (if draws then .sr (d.toNat / 2 ^ 56) else .rne) ((s.xv o.b).setWidth 32)
       exec i s = .next
         (((u.sendStore ea [(p.key, natBytes p.win.width r.bits)] none).advance 4).withEvents r.ev).noteIssued)

/-- `ldaw`, `ldad`, `strw` and `strd` (R128). -/
def Obligations.AcquireReleaseIssue : Prop :=
  (∀ (i : Instr) (s : State) (o : AcqOp) (n : Nat), acquireForm i = some (o, n) → s.FullX [o.a, o.d] →
    let ea := s.xv o.a + o.off.signExtend 64
    (∀ t p, scalarPlace s ea n .r false = .ok (t, p) →
      exec i s = .next ((t.emptyX o.d).send ea (.acq (p.piece n) o.scope o.d))) ∧
    (∀ (t : State) (p : Piece) (d : XReg), (t.send ea (.acq p o.scope d)).canTurn t.cur = false) ∧
    (ea.toNat % n = 0 → ea.toNat + n ≤ 0x60000 →
      scalarPlace s ea n .r false = .ok (s, { key := localKey s.cur.core ea.toNat, win := .raw })) ∧
    (ea.toNat % n ≠ 0 → ea.toNat + n ≤ 0x60000 → exec i s = .next (s.takeSup s.cur 0x0511 ea s.slot.pc))) ∧
  ∀ (i : Instr) (s : State) (o : RelOp) (n : Nat), releaseForm i = some (o, n) → s.FullX [o.a, o.b] →
    let ea := s.xv o.a + o.off.signExtend 64
    (∀ t p, scalarPlace s ea n .w false = .ok (t, p) →
      exec i s = .next ((t.sendStore ea [(p.key, natBytes n (s.xv o.b).toNat)] (some o.scope)).advance 4).noteIssued) ∧
    (ea.toNat % n ≠ 0 → ea.toNat + n ≤ 0x60000 → exec i s = .next (s.takeSup s.cur 0x0511 ea s.slot.pc))

/-- `HOME_ACCESS` of a plain load, of own local memory and through the remote line buffer (R125, R126, R291, R292), of a vector load (R130,
R131), and of an acquire load (R128, R242); what it waits for (R244, R245), a store of a core-mate by the model's choice (log 7); and the older
writes that a plain load may return (R251) by the model's record of happens-before (log 60). -/
def Obligations.HomeAppliesLoads : Prop :=
  ∀ (s : State) (n : Nat) (r : Req), s.reqs.find? (·.id = n) = some r →
    (s.homeReady r = false → exec (.homeAccess n) s = .next s) ∧
    (s.homeReady r = true → ∀ p win signed d, r.op = .load p win signed d → homeCore p.key = some r.core →
      ∃ t, exec (.homeAccess n) s = .next t ∧ t.mem = s.mem ∧ t.poison = s.poison ∧
        (t.getCore r.core).rlb = (s.getCore r.core).rlb ∧
        t.reqs = s.reqs.map fun q => if q.id = r.id then
          { r with applied := true, registered := false, peers := [], met := s.meets (s.leftOut r.core []) [p],
                   res := .word (loadValue win signed (memReads s.mem p.key p.len)) (s.poisonAt p.key p.len).isSome } else q) ∧
    (s.homeReady r = true → ∀ p win signed d, r.op = .load p win signed d → homeCore p.key ≠ some r.core →
      let k := p.key / 64 * 64
      let rlb := (s.getCore r.core).rlb
      let held := rlb.find? (·.key = k)
      let line := held.getD { key := k, bytes := memReads s.mem k 64, poison := (s.fetchLine k).poison, at_ := s.writes }
      let ps := s.passing r.slotId r.gen r.id
      ∃ t bad, exec (.homeAccess n) s = .next t ∧ t.mem = s.mem ∧ t.poison = s.poison ∧
        (t.getCore r.core).rlb = (line :: rlb.filter fun l => l.key ≠ k).take 16 ∧
        (ps = [] → (bad = true ↔ ∃ g, g < 8 ∧ line.poison.getLsbD g = true ∧ p.key - k < 8 * g + 8 ∧ 8 * g < p.key - k + p.len)) ∧
        t.reqs = s.reqs.map fun q => if q.id = r.id then
          { r with applied := true, registered := held.isNone, peers := if held.isNone then (peerOf p.key).toList else [],
                   met := s.meets (s.leftOut r.core []) [p],
                   res := .word (loadValue win signed (((overlay k line.bytes ps).drop (p.key - k)).take p.len)) bad } else q) ∧
    (s.homeReady r = true → ∀ p sc d, r.op = .acq p sc d →
      ∃ t, exec (.homeAccess n) s = .next t ∧ t.mem = s.mem ∧ t.poison = s.poison ∧
        (t.getCore r.core).rlb = ((s.getCore r.core).rlb.filter fun l => l.key ≠ p.key / 64 * 64) ∧
        t.reqs = s.reqs.map fun q => if q.id = r.id then
          { r with applied := true, peers := (peerOf p.key).toList, got := learn r.party sc (s.meets (fun _ _ _ => false) [p]),
                   res := .word (extendOld p.len (leNat (memReads s.mem p.key p.len))) (s.poisonAt p.key p.len).isSome } else q) ∧
    (s.homeReady r = true → ∀ ls win v push pops (hits : Bool), r.op = .vload ls win v push pops →
      (s.getCore r.core).rlb.length ≤ 16 →
      let away := fun l : LaneRead => homeCore l.piece.key ≠ some r.core
      (∀ l ∈ ls, away l → ((s.getCore r.core).rlb.find? (·.key = l.piece.key / 64 * 64)).isSome = hits) →
      ∃ t, exec (.homeAccess n) s = .next t ∧ t.mem = s.mem ∧ t.poison = s.poison ∧
        t.reqs = s.reqs.map fun q => if q.id = r.id then
          { r with applied := true, registered := !hits && ls.any (fun l => decide (away l)),
                   peers := if hits then [] else (ls.filterMap fun l => peerOf l.piece.key).eraseDups,
                   met := s.meets (s.leftOut r.core []) (ls.map (·.piece)),
                   res := .lanes (ls.map fun l => (l.lane, win.widen (leNat (s.plainBytes r l.piece).1)))
                     ((ls.find? fun l => (s.plainBytes r l.piece).2).map (·.ea)) } else q) ∧
    (∀ q ∈ s.reqs, q.slotId = r.slotId → q.gen = r.gen → q.id < r.id →
      (q.applied = false →
        (piecesMeet q.writes r.writes = true ∨ piecesMeet q.reads r.writes = true ∨ piecesMeet q.reads r.reads = true ∨
          (piecesMeet q.writes r.reads = true ∧
            (r.isPlainLoad = false ∨ q.isStore = false ∨ ∃ p ∈ r.reads, r.ownPiece p = true))) →
        exec (.homeAccess n) s = .next s) ∧
      (∀ ps sc, r.op = .store ps (some sc) → q.isStoreLike = true ∨ q.isLoadLike = true → q.performedAt sc = false →
        exec (.homeAccess n) s = .next s) ∧
      (q.isStoreLike = true → r.isStoreLike = true →
        (∃ x ∈ q.writes, ∃ y ∈ r.writes, x.key / 64 ≤ (y.key + y.len - 1) / 64 ∧ y.key / 64 ≤ (x.key + x.len - 1) / 64) →
        exec (.homeAccess n) s = .next s)) ∧
    (∀ q ∈ s.reqs, q.core = r.core → q.slot ≠ r.slot → q.id < r.id → q.applied = false → q.isStore = true → r.isPlainLoad = true →
      s.releaseReady q = true → (∃ w ∈ q.writes, q.ownPiece w = false ∧ piecesMeet [w] r.reads = true) →
      exec (.homeAccess n) s = .next s) ∧
    (∀ ms skip a, s.agenda = .stale n skip :: ms →
      let b := ({ s with agenda := ms, tick := s.tick + 1 } : State)
      (b.staleAnswer r skip = none → step s = .next b) ∧
      (b.staleAnswer r skip = some a → b.homeReady r = true →
        ∃ t reg ms, step s = .next t ∧ t.mem = s.mem ∧ t.poison = s.poison ∧
          t.reqs = s.reqs.map fun q => if q.id = n then
            { r with applied := true, registered := reg, peers := ms, res := a,
                     met := (b.unheld r).meets ((b.unheld r).leftOut r.core skip) r.reads } else q)) ∧
    (∀ p win signed d skip (bs : List (Byte × Bool)), r.op = .load p win signed d → s.passing r.slotId r.gen r.id = [] →
      bs.length = p.len →
      (∀ i, (h : i < bs.length) →
        s.staleByte r.party r.clk skip (p.key + i) = some bs[i]) →
      s.staleAnswer r skip = some (.word (loadValue win signed (bs.map (·.1))) (bs.any (·.2)))) ∧
    (∀ (p : Party) (c : Clock) (k : Nat) (skip : List Nat) (b : Byte) (bad : Bool),
      s.staleByte p c skip k = some (b, bad) →
      (∀ w ∈ s.past, (w.byteAt k).isSome = true → w.knownTo p c = true) →
      (s.past.Pairwise fun w v => (w.byteAt k).isSome = true → (v.byteAt k).isSome = true → v.precedes w = true) →
      b = memRead s.mem k) ∧
    (∀ (p : Party) (c : Clock) (k : Nat) (w : Past) (ws : List Past) (old : Byte), s.past = w :: ws → w.byteAt k = some old →
      w.knownTo p c = false →
      s.staleByte p c [0] k = some (old, s.poison.contains (k / 8) || w.cleared.contains (k / 8))) ∧
    (∀ (k : Nat) (g : Fin 8), (s.fetchLine k).poison.getLsbD g.val = true ↔ k / 8 + g.val ∈ s.poison) ∧
    ∀ bs : List Byte, bs.length = 1 ∨ bs.length = 2 ∨ bs.length = 4 ∨ bs.length = 8 →
      (loadValue .raw false bs).toNat = leNat bs ∧
      (loadValue .raw true bs).toInt = (BitVec.ofNat (8 * bs.length) (leNat bs)).toInt ∧
      leNat bs < 2 ^ (8 * bs.length) ∧ natBytes bs.length (leNat bs) = bs

/-- `HOME_ACCESS` of a store (R127) and of a `jst` (R129); the bytes outside what they store read as before. What is undefined
after a store over an object (R137, R145, R216, R230) is the model's free value (log 10). -/
def Obligations.HomeAppliesStores : Prop :=
  ∀ (s : State) (n : Nat) (r : Req), s.reqs.find? (·.id = n) = some r → s.homeReady r = true →
    (∀ ps rel, r.op = .store ps rel →
      (∀ p ∈ ps, ∀ c, homeCore p.1 = some c → (s.getCore c).meetsInbox (p.1 % 2 ^ 20) p.2.length = false) →
      ∃ t, exec (.homeAccess n) s = .next t ∧ t.mem = (s.wrPieces ps).mem ∧ t.poison = (s.wrPieces ps).poison ∧
        (s.MemoryCanonical → ∀ k, (∀ p ∈ ps, ¬(p.1 ≤ k ∧ k < p.1 + p.2.length)) → memRead t.mem k = memRead s.mem k) ∧
        (t.reqs = s.reqs.map fun q => if q.id = r.id then
          { r with applied := true, peers := (ps.filterMap fun p => peerOf p.1).eraseDups, res := .none } else q) ∧
        ∀ p ∈ ps, ∀ c, homeCore p.1 = some c →
          (∀ o ∈ (t.getCore c).objs, rangesMeet (p.1 % 2 ^ 20) p.2.length o.off o.len = true → o.spoiled = true) ∧
          ((s.getCore c).meetsTree (p.1 % 2 ^ 20) p.2.length = true → (t.getCore c).treeSpoiled = true)) ∧
    (∀ p rel c, r.op = .store [p] rel → homeCore p.1 = some c → s.MemoryCanonical →
      (s.getCore c).meetsInbox (p.1 % 2 ^ 20) p.2.length = true →
      let k := s.getCore c
      ∃ t, exec (.homeAccess n) s = .next t ∧
        ∀ i, i < 64 + 64 * (if k.ibCap = 0 then 256 else k.ibCap.toNat) →
          memRead t.mem (localKey c (k.ibBase.toNat + i)) =
            BitVec.ofNat 8 (Config.undefinedObject s.tick (localKey c (k.ibBase.toNat + i)))) ∧
    (∀ key v j c, r.op = .jst key v j → homeCore key = some c → s.MemoryCanonical →
      (s.getCore c).meetsInbox (key % 2 ^ 20) 8 = true →
      let k := s.getCore c
      ∃ t, exec (.homeAccess n) s = .next t ∧
        (∀ o ∈ (t.getCore c).objs, rangesMeet (key % 2 ^ 20) 8 o.off o.len = true → o.spoiled = true) ∧
        (k.meetsTree (key % 2 ^ 20) 8 = true → (t.getCore c).treeSpoiled = true) ∧
        ∀ i, i < 64 + 64 * (if k.ibCap = 0 then 256 else k.ibCap.toNat) →
          memRead t.mem (localKey c (k.ibBase.toNat + i)) =
            BitVec.ofNat 8 (Config.undefinedObject s.tick (localKey c (k.ibBase.toNat + i)))) ∧
    ∀ key v j, r.op = .jst key v j →
      (∀ c, homeCore key = some c → (s.getCore c).meetsInbox (key % 2 ^ 20) 8 = false) →
      ∃ t, exec (.homeAccess n) s = .next t ∧
        t.mem = (s.wrPieces (match j with
          | none => [(key, natBytes 8 v.toNat)]
          | some (at_, off, seq) =>
            [(localKey r.core at_.toNat,
              natBytes 8 (2 + off.toNat * 2 ^ 32) ++ natBytes 8 (s.rd64 key).toNat ++ natBytes 8 seq.toNat ++ List.replicate 8 0),
             (key, natBytes 8 v.toNat)])).mem ∧
        ∀ c, homeCore key = some c →
          (∀ o ∈ (t.getCore c).objs, rangesMeet (key % 2 ^ 20) 8 o.off o.len = true → o.spoiled = true) ∧
          ((s.getCore c).meetsTree (key % 2 ^ 20) 8 = true → (t.getCore c).treeSpoiled = true)

/-- `HOME_ACCESS` of an `amo` (R132), of a `red` (R124, R133) and of a `joinc` (R134), with the integer operations written out. That poison
in DEST or MSG of a join object is not met is the model's choice (DESIGN CHOICE, log 52), that the task of a `joinc` is of the launch of the
object's home core its reading (DEDUCED, log 26). -/
def Obligations.HomeAppliesAtomics : Prop :=
  ∀ (s : State) (n : Nat) (r : Req), s.reqs.find? (·.id = n) = some r → s.homeReady r = true →
    (∀ p fn b dOld order d, r.op = .amo p fn b dOld order d → (p.len = 4 ∨ p.len = 8) →
      let w := 8 * p.len
      let old := BitVec.ofNat w (leNat (memReads s.mem p.key p.len))
      let fp := if p.len = 4 then fp32 else fp64
      (s.poisonAt p.key p.len = none →
        ∃ t new, exec (.homeAccess n) s = .next t ∧
          t.mem = (if fn = .cas ∧ old ≠ BitVec.ofNat w dOld.toNat then s.mem else (s.wr p.key p.len new).mem) ∧
          (∃ q ∈ t.reqs, q.id = n ∧ q.applied = true ∧ q.res = .word (old.signExtend 64) false ∧
            q.fpEvents = if fn = .fadd then eventFlags (fp.add old.toNat (b.toNat % 2 ^ w)).ev else 0) ∧
          (fn = .fadd → new = (fp.add old.toNat (b.toNat % 2 ^ w)).bits) ∧
          (fn = .fmin → new = fp.minmax false old.toNat (b.toNat % 2 ^ w)) ∧
          (fn = .fmax → new = fp.minmax true old.toNat (b.toNat % 2 ^ w)) ∧
          (fn = .add → new = (old + BitVec.ofNat w b.toNat).toNat) ∧ (fn = .and → new = (old &&& BitVec.ofNat w b.toNat).toNat) ∧
          (fn = .or → new = (old ||| BitVec.ofNat w b.toNat).toNat) ∧ (fn = .xor → new = (old ^^^ BitVec.ofNat w b.toNat).toNat) ∧
          (fn = .min → new = (if old.toInt ≤ (BitVec.ofNat w b.toNat).toInt then old else BitVec.ofNat w b.toNat).toNat) ∧
          (fn = .max → new = (if (BitVec.ofNat w b.toNat).toInt ≤ old.toInt then old else BitVec.ofNat w b.toNat).toNat) ∧
          (fn = .minz → new = (if old.toNat ≤ (BitVec.ofNat w b.toNat).toNat then old else BitVec.ofNat w b.toNat).toNat) ∧
          (fn = .maxz → new = (if (BitVec.ofNat w b.toNat).toNat ≤ old.toNat then old else BitVec.ofNat w b.toNat).toNat) ∧
          (fn = .swap ∨ fn = .cas → new = (BitVec.ofNat w b.toNat).toNat)) ∧
      ((s.poisonAt p.key p.len).isSome = true →
        ∃ t, exec (.homeAccess n) s = .next t ∧ t.mem = s.mem ∧ ∃ q ∈ t.reqs, q.id = n ∧ q.applied = true ∧ q.res = .fail 0x0012)) ∧
    (∀ p fn b, r.op = .red p fn b →
      ∃ t, exec (.homeAccess n) s = .next t ∧
        (∃ q ∈ t.reqs, q.id = n ∧ q.applied = true) ∧
        (s.poisonAt p.key p.len = none → t.errors = s.errors ∧
          t.mem = (s.wr p.key p.len (amoApply fn p.len (leNat (memReads s.mem p.key p.len)) b.toNat).1).mem) ∧
        (s.poisonAt p.key p.len ≠ none → t.mem = s.mem ∧
          ∃ e, t.errors = s.errors ++ [e] ∧ e.kind = 3 ∧ e.word1 = r.ea ∧ e.launch = (s.getCore r.core).launch)) ∧
    ∀ key d home, r.op = .joinc key d → homeCore key = some home → s.MemoryCanonical →
      let c := s.rd64 key - 1
      let dest := (s.rd64 (key + 8)).toNat
      let hdr := (s.rd64 (key + 64)).toNat
      let good := dest < 2 ^ 19 ∧ hdr < 2 ^ 25 ∧ hdr / 2 ^ 20 % 16 ≤ 8
      ∃ t, exec (.homeAccess n) s = .next t ∧
        (s.poisonAt key 8 ≠ none → t.mem = s.mem ∧ ∃ q ∈ t.reqs, q.id = n ∧ q.applied = true ∧ q.res = .fail 0x0012) ∧
        (s.poisonAt key 8 = none → t.mem = (s.wr64 key c).mem ∧
          (∃ q ∈ t.reqs, q.id = n ∧ q.applied = true ∧ q.res = .word c false) ∧
          (c ≠ 0 → t.tmsgs = s.tmsgs ∧ t.bads = s.bads) ∧
          (c = 0 → good → t.bads = s.bads ∧ ∃ m, t.tmsgs = s.tmsgs ++ [m] ∧ m.initial = none ∧ m.refused = false ∧
            m.dst = (if dest < 2 ^ 18 then .core (BitVec.ofNat 18 dest) else .cox (dieOf home)) ∧
            m.held.launch = (s.getCore home).launch ∧ m.held.origin = r.core ∧ m.held.slot = r.slot ∧ m.held.gen = r.gen ∧
            m.held.counted = false ∧ m.held.task.handler = BitVec.ofNat 20 hdr ∧ m.held.task.sender = home ∧
            m.held.task.flags = flagJOIN ||| flagREL ||| (if hdr / 2 ^ 24 % 2 = 1 then flagU else 0) ∧
            ∀ i : Fin 8, m.held.task.args[i] = if i.val < hdr / 2 ^ 20 % 16 then
              (if i.val < 6 then s.rd64 (key + 72 + 8 * i.val) else (s.rd32 (key + 120 + 4 * (i.val - 6))).setWidth 64) else 0) ∧
          (c = 0 → ¬good → t.tmsgs = s.tmsgs ∧ ∃ b, t.bads = s.bads ++ [b] ∧ b.core = r.core ∧ b.slot = r.slot ∧ b.gen = r.gen ∧
            b.val = r.ea))

/-- `RETURNING_OPERATION_COMPLETE` of a plain load (R21, R22, R124, R126), of a vector load (R25, R130), of `ldaw`, `ldad` and the `amo`s (R56,
R57, R123, R128, R132), and of a draw (R240). What an acquire learns and a plain
read has met is the model's own record of happens-before (DESIGN CHOICE, log 60); that a vector load into an output stream pops and pushes
only at its completion, its context held till then, is its choice (DESIGN CHOICE, log 16). -/
def Obligations.ReturningOperationsComplete : Prop :=
  (∀ (s : State) (n : Nat) (r : Req), s.reqs.find? (·.id = n) = some r →
    (r.applied = false ∨ r.peers ≠ [] → exec (.returningOperationComplete n) s = .next s) ∧
    (r.applied = true → s.alive r = false → r.peers = [] → s.splitPending n = false →
      (∃ p win signed d w bad, r.op = .load p win signed d ∧ r.res = .word w bad) ∨
        (∃ ls win v push pops ws bad, r.op = .vload ls win v push pops ∧ r.res = .lanes ws bad) →
      ∃ t, exec (.returningOperationComplete n) s = .next t ∧ t.mem = s.mem ∧ t.reqs = s.reqs.filter (·.id ≠ n) ∧
        ∀ q, t.getSlot q = s.getSlot q)) ∧
  ∀ (s : State) (n : Nat) (r : Req),
    s.reqs.find? (·.id = n) = some r → r.applied = true → s.splitPending n = false → r.peers = [] → s.alive r = true →
    let o := r.slotId
    let poisoned := fun (bad : Option Word) => bad.toList.map fun a => ({ scause := 0x0012, val := a, engine := none } : AsyncCause)
    let b := fun (src : Option Nat) =>
      ({ (src.elim s fun i => s.sampleCycles r.core i) with reqs := s.reqs.filter (·.id ≠ n), cur := o } : State)
    let after := fun (d : XReg) (w : Word) (acq : Bool) (l : Slot) =>
      { (l.setX d w |>.markX d true) with pc := l.pc + 4, wait := none, issued := l.issued + 1,
                                          clk := if acq then l.clk.join r.got else l.clk }
    let heard := (s.getSlot o).heard ++ r.met.filter fun x => !(s.getSlot o).heard.contains x
    (∀ p win signed d w bad, r.op = .load p win signed d → r.res = .word w bad →
      ∃ t, exec (.returningOperationComplete n) s = .next t ∧ t.mem = s.mem ∧ t.cur = s.cur ∧
        t.reqs = s.reqs.filter (·.id ≠ n) ∧ (∀ q, q ≠ o → t.getSlot q = s.getSlot q) ∧
        t.getSlot o = { (s.getSlot o).setX d w |>.markX d true with
          asyncs := (s.getSlot o).asyncs ++ poisoned (if bad then some r.ea else none), heard := heard }) ∧
    (∀ ls win v pops ws bad, r.op = .vload ls win v false pops → r.res = .lanes ws bad →
      ∃ t, exec (.returningOperationComplete n) s = .next t ∧ t.mem = s.mem ∧ t.cur = s.cur ∧
        t.reqs = s.reqs.filter (·.id ≠ n) ∧ (∀ q, q ≠ o → t.getSlot q = s.getSlot q) ∧
        t.getSlot o = { (s.getSlot o).setV v ((t.getSlot o).getV v) |>.markV v true with
          asyncs := (s.getSlot o).asyncs ++ poisoned bad, heard := heard } ∧
        ∀ j : Fin 16, ((t.getSlot o).getV v)[j] =
          ((ws.reverse.find? fun x => x.1.toNat = j.val).map (·.2)).getD ((s.getSlot o).getV v)[j]) ∧
    (∀ ls win v pops ws i, r.op = .vload ls win v true pops → r.res = .lanes ws none → (s.getSlot o).streamOf v = some i →
      let c := (b (if r.registered then some 1 else none)).hears r.met
      let elem : VVal := Vector.ofFn fun j : Fin 16 => ((ws.reverse.find? fun x => x.1.toNat = j.val).map (·.2)).getD 0
      (∀ u w ev, popStreams c pops = .ok u → pushStream u i elem = .ok (w, ev) →
        exec (.returningOperationComplete n) s = .next { (w.complete o).withEvents ev with cur := s.cur }) ∧
      (∀ u w, popStreams c pops = .error (.wait u w) → ∃ t, exec (.returningOperationComplete n) s = .next t ∧ t.reqs = s.reqs)) ∧
    (∀ p sc d w, r.op = .acq p sc d → r.res = .word w false →
      ∃ t, exec (.returningOperationComplete n) s = .next t ∧ t.mem = s.mem ∧ t.reqs = s.reqs.filter (·.id ≠ n) ∧
        t.getSlot o = after d w true (s.getSlot o) ∧ (2 ≤ sc → (t.getCore r.core).rlb = [])) ∧
    (∀ p fn x dOld order d w, r.op = .amo p fn x dOld order d → r.res = .word w false →
      (r.fpEvents = 0 →
        ∃ t, exec (.returningOperationComplete n) s = .next t ∧ t.mem = s.mem ∧ t.reqs = s.reqs.filter (·.id ≠ n) ∧
          t.getSlot o = after d w (order.getLsbD 0) (s.getSlot o) ∧ (order.getLsbD 0 = true → (t.getCore r.core).rlb = [])) ∧
      (order.getLsbD 0 = false →
        exec (.returningOperationComplete n) s = .next
          { ((((b (some 3)).dropWalks [(p.key, p.len)]).fillX d w).complete o).withEvents (flagEvents r.fpEvents) with cur := s.cur })) ∧
    (∀ d a x ev w, r.op = .rand none d a x ev → r.res = .word w false →
      exec (.returningOperationComplete n) s = .next { (((b none).fillX d w).complete o).withEvents ev with cur := s.cur }) ∧
    (∀ d v a x ev w, r.op = .rand (some v) d a x ev → r.res = .word w false →
      ∃ t, exec (.returningOperationComplete n) s = .next t ∧ t.mem = s.mem ∧ t.reqs = s.reqs.filter (·.id ≠ n) ∧
        t.getSlot o = { (s.getSlot o).setV v (mergeLanes a x ((s.getSlot o).getV v)) |>.markV v true with
          pc := (s.getSlot o).pc + 4, wait := none, issued := (s.getSlot o).issued + 1 }) ∧
    ∀ p sc d w, r.op = .acq p sc d → r.res = .word w true → (s.getSlot o).mode = .user →
      isCode (s.getCore r.core).svec.toNat →
      ∃ t, exec (.returningOperationComplete n) s = .next t ∧ t.reqs = s.reqs.filter (·.id ≠ n) ∧
        (t.getSlot o).scause = 0x0012 ∧ (t.getSlot o).sval = r.ea ∧ (t.getSlot o).sepc = (s.getSlot o).pc ∧
        (t.getSlot o).mode = .supervisor ∧ (t.getSlot o).x = (s.getSlot o).x ∧ (t.getSlot o).xfull = (s.getSlot o).xfull

/-- Sources and destinations of vector instructions, streams among them (R25, R151, R155, R194). -/
def Obligations.VectorOperands : Prop :=
  ∀ s : State,
    (∀ vs : List VReg, (∀ v ∈ vs, s.slot.streamOf v = none) →
      s.slot.popsOf vs = [] ∧ popStreams s (s.slot.popsOf vs) = .ok s ∧ ∀ v ∈ vs, s.slot.srcV v = s.slot.getV v) ∧
    (∀ (v : VReg) (mask : BitVec 16) (val : VVal), s.slot.streamOf v = none →
      writeV s v mask val =
        .ok (s.modSlot fun l => l.setV v (lanes fun r => if mask.getLsbD r then laneOf val r else laneOf (l.getV v) r),
             Events.zero)) ∧
    (∀ (v : VReg) (i : Fin 4) (e : VVal) (rest : List StreamElem), s.slot.streamOf v = some i →
      (s.slot.streams[i]).pre = .ok e none :: rest →
      s.slot.srcV v = e ∧ s.slot.popsOf [v, v] = [i] ∧
      ∃ t, popStreams s (s.slot.popsOf [v, v]) = .ok t ∧ (t.slot.streams[i]).pos = (s.slot.streams[i]).pos + 1 ∧
        (t.slot.streams[i]).pre = rest ∧ t.mem = s.mem ∧ t.slot.v = s.slot.v ∧ ∀ j, j ≠ i → t.slot.streams[j] = s.slot.streams[j]) ∧
    (∀ (v : VReg) (i : Fin 4) (sc : BitVec 16) (a : Word) (rest : List StreamElem), s.slot.streamOf v = some i →
      (s.slot.streams[i]).pre = .fault sc a :: rest →
      ∃ t, popStreams s (s.slot.popsOf [v]) = .error (.keep t sc a) ∧ (t.slot.streams[i]).pre = [] ∧
        (t.slot.streams[i]).pos = (s.slot.streams[i]).pos ∧ t.mem = s.mem) ∧
    (∀ (v w : VReg) (i j : Fin 4) (e : VVal) (bad : Option Word) (sc : BitVec 16) (a : Word) (rest rest' : List StreamElem),
      s.slot.streamOf v = some i → s.slot.streamOf w = some j → i ≠ j → (s.slot.streams[i]).pre = .ok e bad :: rest →
      (s.slot.streams[j]).pre = .fault sc a :: rest' →
      ∃ t, popStreams s (s.slot.popsOf [v, w]) = .error (.keep t sc a) ∧ t.slot.streams[i] = s.slot.streams[i] ∧
        (t.slot.streams[j]).pre = [] ∧ (t.slot.streams[j]).pos = (s.slot.streams[j]).pos ∧ t.slot.v = s.slot.v ∧ t.mem = s.mem) ∧
    ∀ (v : VReg) (i : Fin 4) (mask : BitVec 16) (val : VVal) (t : State) (keys : List Nat) (f : ElemForm),
      s.slot.streamOf v = some i → pushPlace s s.slot.streams[i] = .ok (t, keys, f) → keys.length = 16 →
      (s.slot.rmode = false ∨ f.win = .raw ∨ f.win = .int8) → t.slot.rmode = s.slot.rmode →
      (let moved := fun c : StreamCfg => { c with pos := c.pos + 1 }
       let out := fun r => f.win.narrow .rne (if mask.getLsbD r then laneOf val r else 0)
       let sent := (t.sendStore (s.slot.streams[i]).base
         (joinPieces ((List.range 16).map fun r => (keys.getD r 0, natBytes f.width (out r).bits))) none).markPush
       writeV s v mask val =
         .ok (sent.modSlot (fun l => { l with streams := l.streams.set i.val (moved s.slot.streams[i]) }),
              Events.sum ((List.range 16).map fun r => (out r).ev)))

/-- The lane operations (R151-R158) and the exact conversions (R163); the destination is written as VectorOperands says. The
floating-point results are held to R44 and R49-R51 for FP32 and FP64 by exact values; those of exp2, exp, log2 and ln that R50's table does
not list rest on the model's enclosures (DESIGN CHOICE, log 8) and are not stated here. -/
def Obligations.VectorLanes : Prop :=
  (∀ (i : Instr) (s u w : State) (vd : VReg) (vs : List VReg) (p : PReg) (g : List Nat → Rounded) (ev : Events),
    vec32Form i = some (vd, vs, p, g) → s.VectorReady vs [.v vd] → popStreams s (s.slot.popsOf vs) = .ok u →
    (let res := fun r => if (s.slot.getP p).getLsbD r then g (vs.map fun v => (laneOf (s.slot.srcV v) r).toNat) else plain 0
     writeV u vd (s.slot.getP p) (laneResults res) = .ok (w, ev) →
     exec i s = .next (((w.advance 4).withEvents ((Events.sum ((List.range 16).map fun r => (res r).ev)).plus ev)).noteIssued))) ∧
  (∀ (i : Instr) (s u w : State) (vd : VReg) (vs : List VReg) (p : PReg) (g : List Nat → Rounded) (ev : Events),
    vec64Form i = some (vd, vs, p, g) → s.VectorReady vs [.v vd] → popStreams s (s.slot.popsOf vs) = .ok u →
    (let res := fun j => if (s.slot.getP p).getLsbD (2 * j) then g (vs.map fun v => laneOf64 (s.slot.srcV v) j) else plain 0
     writeV u vd (mask64 (s.slot.getP p)) (lanes64 fun j => (res j).bits) = .ok (w, ev) →
     exec i s = .next (((w.advance 4).withEvents ((Events.sum ((List.range 8).map fun j => (res j).ev)).plus ev)).noteIssued))) ∧
  (∀ (i : Instr) (s u w : State) (o : VcvtXOp) (g : Nat → Rounded) (ev : Events),
    widenForm i = some (o, g) → s.VectorReady [o.va] [.v o.vd] → popStreams s (s.slot.popsOf [o.va]) = .ok u →
    (let res := fun j => if (s.slot.getP o.p).getLsbD (2 * j) then g (laneOf (s.slot.srcV o.va) j).toNat else plain 0
     writeV u o.vd (mask64 (s.slot.getP o.p)) (lanes64 fun j => (res j).bits) = .ok (w, ev) →
     exec i s = .next (((w.advance 4).withEvents ((Events.sum ((List.range 8).map fun j => (res j).ev)).plus ev)).noteIssued))) ∧
  (∀ (p : BitVec 16) (r : Nat), r < 16 → (mask64 p).getLsbD r = p.getLsbD (r / 2 * 2)) ∧
  ∀ f, f = fp32 ∨ f = fp64 →
    let nanBits := if f = fp32 then 0x7FC0_0000 else 0x7FF8_0000_0000_0000
    let top := if f = fp32 then 2 ^ 31 else 2 ^ 63
    let infBits := if f = fp32 then 0x7F80_0000 else 0x7FF0_0000_0000_0000
    let quiet : Rounded := { bits := nanBits, ev := Events.zero }
    let invalid : Rounded := { bits := nanBits, ev := { Events.zero with nan := 1 } }
    let signed := fun (neg : Bool) (m : Nat) => ({ bits := m + (if neg then top else 0), ev := Events.zero } : Rounded)
    (∀ a b c, f.decode a = .nan ∨ f.decode b = .nan →
      f.add a b = quiet ∧ f.sub a b = quiet ∧ f.mul a b = quiet ∧ f.div a b = quiet ∧ f.fma a b c = quiet) ∧
    (∀ a, f.decode a = .nan → f.sqrt a = quiet ∧ f.exp2 a = quiet ∧ f.exp a = quiet ∧ f.log2 a = quiet ∧ f.ln a = quiet ∧
      f.floor a = nanBits) ∧
    (∀ a b s t m e n g, f.decode a = .fin s m e → f.decode b = .fin t n g →
      let x := ratOf s m e
      let y := ratOf t n g
      (x + y ≠ 0 → f.isNearest (x + y) (f.add a b)) ∧ (x + y = 0 → f.add a b = signed (s && t) 0) ∧
      (x - y ≠ 0 → f.isNearest (x - y) (f.sub a b)) ∧ (x - y = 0 → f.sub a b = signed (s && !t) 0) ∧
      (x * y ≠ 0 → f.isNearest (x * y) (f.mul a b)) ∧ (x * y = 0 → f.mul a b = signed (s != t) 0) ∧
      (x ≠ 0 → y ≠ 0 → f.isNearest (x / y) (f.div a b)) ∧ (x ≠ 0 → y = 0 → f.div a b = signed (s != t) infBits) ∧
      (x = 0 → y ≠ 0 → f.div a b = signed (s != t) 0) ∧ (x = 0 → y = 0 → f.div a b = invalid) ∧
      ∀ u k h, (x * y + ratOf u k h ≠ 0 → f.isNearest (x * y + ratOf u k h) (f.fma a b (.fin u k h))) ∧
        (x * y + ratOf u k h = 0 → f.fma a b (.fin u k h) = signed ((s != t) && u) 0)) ∧
    (∀ a s m e, f.decode a = .fin s m e →
      (m = 0 → f.sqrt a = signed s 0) ∧ (m ≠ 0 → s = true → f.sqrt a = invalid) ∧
      (m ≠ 0 → s = false → f.isNearest (Real.sqrt (ratOf s m e)) (f.sqrt a)) ∧
      (m = 0 → f.exp2 a = f.exp a ∧ f.decode (f.exp2 a).bits = .fin false (2 ^ f.fbits) (-f.fbits) ∧ (f.exp2 a).ev = Events.zero) ∧
      (m = 0 → f.log2 a = signed true infBits ∧ f.ln a = signed true infBits) ∧
      (m ≠ 0 → s = true → f.log2 a = invalid ∧ f.ln a = invalid) ∧
      (ratOf s m e = 1 → f.log2 a = signed false 0 ∧ f.ln a = signed false 0) ∧
      (m = 0 → f.floor a = (signed s 0).bits) ∧
      ∃ s' m' e', f.decode (f.floor a) = .fin s' m' e' ∧ ratOf s' m' e' = ⌊ratOf s m e⌋) ∧
    (∀ a b s, f.decode a = .inf s →
      (∀ t, f.decode b = .inf t →
        (s = t → f.add a b = signed s infBits ∧ f.sub a b = invalid) ∧ (s ≠ t → f.add a b = invalid ∧ f.sub a b = signed s infBits) ∧
        f.mul a b = signed (s != t) infBits ∧ f.div a b = invalid) ∧
      (∀ t n g, f.decode b = .fin t n g →
        f.add a b = signed s infBits ∧ f.add b a = signed s infBits ∧ f.sub a b = signed s infBits ∧
        f.sub b a = signed (!s) infBits ∧ f.div a b = signed (s != t) infBits ∧ f.div b a = signed (s != t) 0 ∧
        (n ≠ 0 → f.mul a b = signed (s != t) infBits ∧ f.mul b a = signed (s != t) infBits) ∧
        (n = 0 → f.mul a b = invalid ∧ f.mul b a = invalid ∧ ∀ c, f.fma a b c = invalid)) ∧
      f.sqrt a = (if s then invalid else signed false infBits) ∧ f.exp2 a = signed false (if s then 0 else infBits) ∧
      f.exp a = signed false (if s then 0 else infBits) ∧ f.log2 a = (if s then invalid else signed false infBits) ∧
      f.ln a = (if s then invalid else signed false infBits) ∧ f.floor a = (signed s infBits).bits) ∧
    ∀ a b, a < 2 * top → b < 2 * top →
      (f.decode a = .nan → f.decode b = .nan → f.minmax false a b = nanBits ∧ f.minmax true a b = nanBits) ∧
      (f.decode a = .nan → f.decode b ≠ .nan →
        f.minmax false a b = b ∧ f.minmax true a b = b ∧ f.minmax false b a = b ∧ f.minmax true b a = b) ∧
      (f.decode a = .inf true → f.decode b ≠ .nan →
        f.minmax false a b = a ∧ f.minmax true a b = b ∧ f.minmax false b a = a ∧ f.minmax true b a = b) ∧
      (f.decode a = .inf false → f.decode b ≠ .nan →
        f.minmax false a b = b ∧ f.minmax true a b = a ∧ f.minmax false b a = b ∧ f.minmax true b a = a) ∧
      ∀ s m e t n g, f.decode a = .fin s m e → f.decode b = .fin t n g →
        (ratOf s m e < ratOf t n g ∨ (m = 0 ∧ n = 0 ∧ s = true ∧ t = false) →
          f.minmax false a b = a ∧ f.minmax true a b = b ∧ f.minmax false b a = a ∧ f.minmax true b a = b)

/-- The compares (R159), the lane moves (R160) and the transfers between x and v registers (R161, R155). -/
def Obligations.VectorMoves : Prop :=
  (∀ (i : Instr) (s u : State) (o : VcmpOp) (cond : Word32 → Word32 → Bool),
    compareForm i = some (o, cond) → s.VectorReady [o.va, o.vb] [] → popStreams s (s.slot.popsOf [o.va, o.vb]) = .ok u →
    ∃ r : BitVec 16, exec i s = .next ((u.modSlot fun l => l.setP o.pd r).advance 4).noteIssued ∧
      ∀ k, k < 16 → r.getLsbD k = ((s.slot.getP o.p).getLsbD k && cond (laneOf (s.slot.srcV o.va) k) (laneOf (s.slot.srcV o.vb) k))) ∧
  (∀ (i : Instr) (s u w : State) (vd : VReg) (vs : List VReg) (mask : BitVec 16) (f : Nat → Word32) (ev : Events),
    moveForm s i = some (vd, vs, mask, f) → s.VectorReady vs [.v vd] → popStreams s (s.slot.popsOf vs) = .ok u →
    writeV u vd mask (lanes f) = .ok (w, ev) → exec i s = .next ((w.advance 4).withEvents ev).noteIssued) ∧
  (∀ (s w : State) (o : VbcastOp) (ev : Events), issueRule s [(.x o.x, false)] [.v o.v] = .ok () →
    writeV s o.v (s.slot.getP o.p) (lanes fun _ => (s.xv o.x).setWidth 32) = .ok (w, ev) →
    exec (.vbcast o) s = .next ((w.advance 4).withEvents ev).noteIssued) ∧
  (∀ (s u : State) (o : VextOp), s.VectorReady [o.v] [.x o.x] → popStreams s (s.slot.popsOf [o.v]) = .ok u →
    exec (.vext o) s = .next (u.wroteX o.x ((laneOf (s.slot.srcV o.v) o.w.toNat).signExtend 64) 4)) ∧
  ∀ (s : State) (o : VinsOp), s.FullX [o.x] →
    (s.slot.vIsFull o.v = true → s.slot.streamOf o.v = none →
      ∃ t, exec (.vins o) s = .next t ∧ t.mem = s.mem ∧ t.slot.x = s.slot.x ∧ t.slot.pc = s.slot.pc + 4 ∧
        (∀ v, v ≠ o.v → t.slot.getV v = s.slot.getV v) ∧
        ∀ r, r < 16 → laneOf (t.slot.getV o.v) r = if r = o.w.toNat then (s.xv o.x).setWidth 32 else laneOf (s.slot.getV o.v) r) ∧
    ((s.slot.streamOf o.v).isSome = true → exec (.vins o) s = .next (s.takeSup s.cur 0x0010 s.instrWord s.slot.pc))

/-- The reductions (R52, R162) and the conversions with a rounding code (R163, R164). -/
def Obligations.VectorReductionsConversions : Prop :=
  ((∀ (i : Instr) (s u : State) (o : VredOp) (g : VVal → BitVec 16 → Rounded),
    reduceForm i = some (o, g) → s.VectorReady [o.v] [.x o.x] → popStreams s (s.slot.popsOf [o.v]) = .ok u →
    (let r := g (s.slot.srcV o.v) (s.slot.getP o.p)
     exec i s = .next (((u.putX o.x (BitVec.ofNat 64 r.bits)).advance 4).withEvents r.ev).noteIssued)) ∧
  ∀ (s : State) (o : VpcntOp), s.FullX [o.x] →
    ∃ n, exec (.vpcnt o) s = .next (s.wroteX o.x (BitVec.ofNat 64 n) 4) ∧
      n = ((List.range 16).map fun r => if (s.slot.getP o.p).getLsbD r then 1 else 0).sum) ∧
  (∀ (s : State) (n : Nat), convModes s 0 n = .ok (s, List.replicate n .rne) ∧ convModes s 1 n = .ok (s, List.replicate n .rz) ∧
    ∀ (t : State) (ws : List Word), draws s n = .ok (t, ws) → convModes s 2 n = .ok (t, ws.map fun w => .sr (w.toNat / 2 ^ 56))) ∧
  (∀ (i : Instr) (s u t w : State) (o : VcvtOp) (g : RMode → Nat → Rounded) (ms : List RMode) (ev : Events),
    convert16Form i = some (o, g) → s.VectorReady [o.va] [.v o.vd] → popStreams s (s.slot.popsOf [o.va]) = .ok u →
    convModes u o.rnd 16 = .ok (t, ms) →
    (let res := fun r => if (s.slot.getP o.p).getLsbD r then g (ms.getD r .rne) (laneOf (s.slot.srcV o.va) r).toNat else plain 0
     writeV t o.vd (s.slot.getP o.p) (laneResults res) = .ok (w, ev) →
     exec i s = .next (((w.advance 4).withEvents ((Events.sum ((List.range 16).map fun r => (res r).ev)).plus ev)).noteIssued))) ∧
  ∀ (i : Instr) (s u t w : State) (o : VcvtOp) (g : RMode → Nat → Rounded) (ms : List RMode) (ev : Events) (mask : BitVec 16),
    narrow8Form i = some (o, g) → s.VectorReady [o.va] [.v o.vd] → popStreams s (s.slot.popsOf [o.va]) = .ok u →
    convModes u o.rnd 8 = .ok (t, ms) →
    (∀ r, r < 16 → mask.getLsbD r = if r < 8 then (s.slot.getP o.p).getLsbD (2 * r) else true) →
    (let res := fun r =>
       if r < 8 ∧ (s.slot.getP o.p).getLsbD (2 * r) = true then g (ms.getD r .rne) (laneOf64 (s.slot.srcV o.va) r) else plain 0
     writeV t o.vd mask (laneResults res) = .ok (w, ev) →
     exec i s = .next (((w.advance 4).withEvents ((Events.sum ((List.range 16).map fun r => (res r).ev)).plus ev)).noteIssued))

/-- `vld`, `vst` (R130), `vldx` and `vstx` (R131). One request for all lanes is the model's choice (DESIGN CHOICE, log 6), and so is that a load
into an output stream sends its request, pops nothing and holds its context until the push at its completion (DESIGN CHOICE, log 16). -/
def Obligations.VectorMemoryIssue : Prop :=
  (∀ (s t : State) (o : VldOp) (qs : List (Nat × Place)), issueRule s [(.x o.a, false)] [.v o.v] = .ok () →
    (let ea := s.xv o.a + 64 * o.imm.signExtend 64
     blockPlaces s ea .r (activeLanes (s.slot.getP o.p)) = .ok (t, qs) →
     (t.slot.streamOf o.v = none →
       (qs ≠ [] → exec (.vld o) s = .next ((t.sendVload ea (fun _ => ea) o.v qs []).advance 4).noteIssued) ∧
       (qs = [] → ∃ w, exec (.vld o) s = .next w ∧ w.slot.v = t.slot.v ∧ w.slot.vfull = t.slot.vfull ∧ w.reqs = t.reqs ∧
         w.slot.pc = t.slot.pc + 4)) ∧
     ∀ i u r, t.slot.streamOf o.v = some i → qs ≠ [] → pushPlace t t.slot.streams[i] = .ok (u, r) →
       exec (.vld o) s = .next (u.sendVload ea (fun _ => ea) o.v qs []))) ∧
  (∀ (s t u : State) (o : VxmOp) (qs : List (Nat × Place)), issueRule s [(.v o.w, false), (.x o.x, false)] [.v o.v] = .ok () →
    gatherPlaces s (s.xv o.x) (s.slot.srcV o.w) o.scale .r (activeLanes (s.slot.getP o.p)) = .ok (t, qs) →
    popStreams t (s.slot.popsOf [o.w]) = .ok u →
    let pops := s.slot.popsOf [o.w]
    let lane := fun r => s.xv o.x + (laneOf (s.slot.srcV o.w) r).signExtend 64 * BitVec.ofNat 64 (2 ^ o.scale.toNat)
    (u.slot.streamOf o.v = none →
      (qs ≠ [] → exec (.vldx o) s = .next ((u.sendVload (s.xv o.x) lane o.v qs []).advance 4).noteIssued) ∧
      (qs = [] → ∃ w, exec (.vldx o) s = .next w ∧ w.slot.v = u.slot.v ∧ w.slot.vfull = u.slot.vfull ∧ w.reqs = u.reqs ∧
        w.slot.pc = u.slot.pc + 4)) ∧
    (∀ i w r, t.slot.streamOf o.v = some i → qs ≠ [] → pushPlace t t.slot.streams[i] = .ok (w, r) →
      exec (.vldx o) s = .next (w.sendVload (s.xv o.x) lane o.v qs pops)) ∧
    ∀ w ev, qs = [] → writeV u o.v 0 VVal.zero = .ok (w, ev) → exec (.vldx o) s = .next ((w.advance 4).withEvents ev).noteIssued) ∧
  (∀ (s t u w : State) (o : VstOp) (qs : List (Nat × Place)) (ps : List (Nat × List Byte)) (ev : Events),
    issueRule s [(.x o.a, false), (.v o.v, false)] [] = .ok () →
    (let ea := s.xv o.a + 64 * o.imm.signExtend 64
     blockPlaces s ea .w (activeLanes (s.slot.getP o.p)) = .ok (t, qs) → popStreams t (s.slot.popsOf [o.v]) = .ok u →
     narrowLanes u ea (s.slot.srcV o.v) qs = .ok (w, ps, ev) →
     exec (.vst o) s = .next (((w.sendVstore ea (joinPieces ps)).advance 4).withEvents ev).noteIssued)) ∧
  (∀ (s t u w : State) (o : VxmOp) (qs : List (Nat × Place)) (ps : List (Nat × List Byte)) (ev : Events),
    issueRule s [(.v o.v, false), (.v o.w, false), (.x o.x, false)] [] = .ok () →
    gatherPlaces s (s.xv o.x) (s.slot.srcV o.w) o.scale .w (activeLanes (s.slot.getP o.p)) = .ok (t, qs) →
    popStreams t (s.slot.popsOf [o.v, o.w]) = .ok u → narrowLanes u (s.xv o.x) (s.slot.srcV o.v) qs = .ok (w, ps, ev) →
    exec (.vstx o) s = .next (((w.sendVstore (s.xv o.x) ps).advance 4).withEvents ev).noteIssued) ∧
  (∀ (s : State) (ea : Word) (act : List Nat), (∀ r ∈ act, r < 16) → act ≠ [] → ea.toNat + 64 ≤ 0x60000 → ea.toNat % 64 = 0 →
    blockPlaces s ea .r act = .ok (s, act.map fun r => (r, { key := localKey s.cur.core (ea.toNat + 4 * r), win := .raw }))) ∧
  (∀ (s : State) (p : PReg) (ea : Word), s.slot.getP p ≠ 0 →
    let w := (baseWindow ea).width
    (∀ r, r < 16 → (s.slot.getP p).getLsbD r = true → ∃ g, s.target s.cur.core (ea + BitVec.ofNat 64 (r * w)) 4 = .ok g) →
    let six := ∃ space, baseSpace ea = some (space, 6)
    let off := ea.toNat % (if baseWindow ea = .raw then 64 else w)
    (∀ o : VldOp, o.p = p → s.xv o.a + 64 * o.imm.signExtend 64 = ea → issueRule s [(.x o.a, false)] [.v o.v] = .ok () →
      (six → exec (.vld o) s = .next (s.takeSup s.cur 0x0411 ea s.slot.pc)) ∧
      (¬six → off ≠ 0 → exec (.vld o) s = .next (s.takeSup s.cur 0x0511 ea s.slot.pc))) ∧
    ∀ o : VstOp, o.p = p → s.xv o.a + 64 * o.imm.signExtend 64 = ea →
      issueRule s [(.x o.a, false), (.v o.v, false)] [] = .ok () →
      (six → exec (.vst o) s = .next (s.takeSup s.cur 0x0411 ea s.slot.pc)) ∧
      (¬six → off ≠ 0 → exec (.vst o) s = .next (s.takeSup s.cur 0x0511 ea s.slot.pc))) ∧
  (∀ (s : State) (o : VxmOp) (r : Nat),
    let lane := fun i => s.xv o.x + (laneOf (s.slot.srcV o.w) i).signExtend 64 * BitVec.ofNat 64 (2 ^ o.scale.toNat)
    (s.xv o.x).toNat < 0x60000 → r < 16 → (s.slot.getP o.p).getLsbD r = true →
    (∀ i, i ≤ r → (s.slot.getP o.p).getLsbD i = true → (lane i).toNat + 4 ≤ 0x60000) →
    (∀ i, i < r → (s.slot.getP o.p).getLsbD i = true → (lane i).toNat % 4 = 0) → (lane r).toNat % 4 ≠ 0 →
    (issueRule s [(.v o.w, false), (.x o.x, false)] [.v o.v] = .ok () →
      exec (.vldx o) s = .next (s.takeSup s.cur 0x0511 (lane r) s.slot.pc)) ∧
    (issueRule s [(.v o.v, false), (.v o.w, false), (.x o.x, false)] [] = .ok () →
      exec (.vstx o) s = .next (s.takeSup s.cur 0x0511 (lane r) s.slot.pc))) ∧
  (∀ (s : State) (ea : Word) (v : VVal) (qs : List (Nat × Place)), baseWindow ea = .raw →
    narrowLanes s ea v qs = .ok (s, qs.map fun q => (q.2.key, natBytes 4 (laneOf v q.1).toNat), Events.zero)) ∧
  ∀ (s : State) (ea : Word) (val : Nat → Word) (v : VReg) (qs : List (Nat × Place)) (pops : List (Fin 4)),
    let push := (s.slot.streamOf v).isSome
    let t := s.sendVload ea val v qs pops
    t.slot = (if push then s.slot else s.slot.markV v false) ∧
    ∃ r win, t.reqs = s.reqs ++ [r] ∧ r.applied = false ∧ r.ofSlot s.cur = true ∧ r.gen = s.slot.gen ∧ r.blocks = push ∧
      r.op = .vload (qs.map fun q =>
        { lane := BitVec.ofNat 4 q.1, piece := { key := q.2.key, len := q.2.win.width }, ea := val q.1 }) win v push
          (if push then pops else [])

/-- Draws (R63-R66), and the issue of `rand`, `unif` (R240), `vrand` and `vunif` (R165). RETURNING_OPERATION_COMPLETE fills their
registers. -/
def Obligations.RandomDraws : Prop :=
  (∀ s : State, s.slot.rsrc = false →
    draw s = .ok (s.modSlot (fun l => { l with rctr := l.rctr + 1 }), specDraw s.core.seed s.slot.rctr s.cur.core s.cur.slot)) ∧
  (∀ s : State, s.slot.rsrc = true →
    let base := s.slot.rtbase.toNat
    let off := base + 8 * s.slot.rtidx.toNat
    (s.slot.rtlen = 0 → draw s = .error (.sup 0x0311 (s.slot.rtbase.setWidth 64))) ∧
    (s.slot.rtlen ≠ 0 → base % 8 ≠ 0 → draw s = .error (.sup 0x0511 (s.slot.rtbase.setWidth 64))) ∧
    (s.slot.rtlen ≠ 0 → base % 8 = 0 → 0x60000 ≤ off → draw s = .error (.sup 0x0311 (BitVec.ofNat 64 off))) ∧
    let k := localKey s.cur.core off
    (s.reqsOf s.cur = [] → s.ctxRead s.cur k 8 = memReads s.mem k 8 ∧ s.ctxPoison s.cur k 8 = s.poisonAt k 8) ∧
    (∀ r ∈ s.reqsOf s.cur, ∀ bs rel, r.op = .store [(k, bs)] rel → r.applied = false → bs.length = 8 → k % 8 = 0 →
      s.ctxPoison s.cur k 8 = none ∧ (s.reqsOf s.cur = [r] → s.ctxRead s.cur k 8 = bs)) ∧
    (s.slot.rtlen ≠ 0 → base % 8 = 0 → off < 0x60000 → (∀ r ∈ s.reqsOf s.cur, r.applied = true ∨ r.isStore = true) →
      s.ctxPoison s.cur k 8 = none →
      draw s = .ok ((s.noteOwn [{ key := k, len := 8 }]).modSlot fun l =>
          { l with rtidx := BitVec.ofNat 16 ((l.rtidx.toNat + 1) % l.rtlen.toNat) },
        BitVec.ofNat 64 (leNat (s.ctxRead s.cur k 8))))) ∧
  (∀ (s t : State) (o : RD) (w : Word), s.slot.xIsFull o.d = true → draw s = .ok (t, w) →
    (∀ u, exec (.rand o) s = .next u ∨ exec (.unif o) s = .next u → u.canTurn u.cur = false) ∧
    exec (.rand o) s = .next ((t.emptyX o.d).sendAnswered 0 (.rand none o.d 0 VVal.zero Events.zero) (.word w false)) ∧
    ∃ u, exec (.unif o) s = .next ((t.emptyX o.d).sendAnswered 0 (.rand none o.d 0 VVal.zero Events.zero) (.word u false)) ∧
      (let k := w.toNat / 2048
       (k = 0 → u = 0) ∧ (k ≠ 0 → fp64.decode u.toNat = .fin false (k * 2 ^ (52 - k.log2)) ((k.log2 : Int) - 105)))) ∧
  (∀ (s : State) (o : RD) (sc : BitVec 16) (a : Word), s.slot.xIsFull o.d = true → draw s = .error (.sup sc a) →
    exec (.rand o) s = .next (s.takeSup s.cur sc a s.slot.pc) ∧ exec (.unif o) s = .next (s.takeSup s.cur sc a s.slot.pc)) ∧
  (∀ (s t : State) (w : WaitRec) (o : V0) (r : RD),
    (draw s = .error (.wait t w) → s.slot.xIsFull r.d = true →
      ∃ u, exec (.rand r) s = .next u ∧ exec (.unif r) s = .next u ∧ u.slot = { s.slot with wait := some w }) ∧
    (draws s 8 = .error (.wait t w) → issueRule s [] [.v o.vd] = .ok () →
      ∃ u, exec (.vrand o) s = .next u ∧ exec (.vunif o) s = .next u ∧ u.slot = { s.slot with wait := some w })) ∧
  (∀ (s t u : State) (o : V0) (ws : List Word) (i : Fin 4) (ev : Events), issueRule s [] [.v o.vd] = .ok () →
    draws s 8 = .ok (t, ws) → t.slot.streamOf o.vd = some i →
    writeV t o.vd (s.slot.getP o.p) (lanes fun r => BitVec.ofNat 32 ((ws.getD (r / 2) 0).toNat / 2 ^ (32 * (r % 2)) % 2 ^ 32)) =
      .ok (u, ev) →
    exec (.vrand o) s = .next (u.sendAnswered 0 (.rand none 0 (s.slot.getP o.p) VVal.zero ev) (.word 0 false))) ∧
  ∀ (s t : State) (o : V0) (ws : List Word), s.slot.streamOf o.vd = none → s.slot.vIsFull o.vd = true → draws s 8 = .ok (t, ws) →
    t.slot.streamOf o.vd = none → ws.length = 8 →
    let word := fun (i : Nat) => ((ws.getD (i / 2) 0).toNat / 2 ^ (32 * (i % 2))) % 2 ^ 32
    let sent := fun (v : VVal) =>
      (t.modSlot fun l => l.markV o.vd false).sendAnswered 0 (.rand (some o.vd) 0 (s.slot.getP o.p) v Events.zero) (.word 0 false)
    (∀ u, exec (.vrand o) s = .next u ∨ exec (.vunif o) s = .next u → u.canTurn u.cur = false) ∧
    exec (.vrand o) s = .next (sent (lanes fun i => BitVec.ofNat 32 (word i))) ∧
    ∃ v : VVal, exec (.vunif o) s = .next (sent v) ∧ ∀ i, i < 16 →
      let k := word i / 256
      (k = 0 → laneOf v i = 0) ∧ (k ≠ 0 → fp32.decode (laneOf v i).toNat = .fin false (k * 2 ^ (23 - k.log2)) ((k.log2 : Int) - 47))

/-- The `amo`s (R132), the `red`s (R133) and `joinc` (R134) at issue; that a join object through windows 1 to 6 is WINDOW is a choice
of the model (DEDUCED, log 50). -/
def Obligations.AtomicIssue : Prop :=
  (∀ (i : Instr) (s : State) (o : AmoOp) (fn : AmoFn), atomicForm i = some (o, fn) → s.FullX [o.a, o.b, o.d] →
    let ea := s.xv o.a
    let n := atomicBytes o.size
    (∀ t p, scalarPlace s ea n .rw false = .ok (t, p) →
      (let u := (t.emptyX o.d).send ea (.amo (p.piece n) fn (s.xv o.b) (s.xv o.d) o.order o.d)
       ((o.order.getLsbD 1 = true → t.released t.cur = true) → exec i s = .next u ∧ u.canTurn u.cur = false) ∧
       (o.order.getLsbD 1 = true → t.released t.cur = false →
         exec i s = .next (t.setWait { kind := 6, obj := t.slot.pc.setWidth 64, ph := 0 })))) ∧
    (ea.toNat % n = 0 → ea.toNat + n ≤ 0x60000 →
      scalarPlace s ea n .rw false = .ok (s, { key := localKey s.cur.core ea.toNat, win := .raw })) ∧
    (∀ c off, s.target s.cur.core ea n = .ok (.loc c 0 off) → off % n ≠ 0 →
      exec i s = .next (s.takeSup s.cur 0x0511 ea s.slot.pc)) ∧
    (∀ va, s.target s.cur.core ea n = .ok (.virt va) → va % n ≠ 0 → exec i s = .next (s.takeSup s.cur 0x0511 ea s.slot.pc)) ∧
    (ea.toNat + n ≤ 0x60000 → s.target s.cur.core ea n = .ok (.loc s.cur.core 0 ea.toNat)) ∧
    (∀ c win off, s.target s.cur.core ea n = .ok (.loc c win off) → win ≠ 0 →
      exec i s = .next (s.takeSup s.cur 0x0411 ea s.slot.pc))) ∧
  (∀ (i : Instr) (s : State) (o : RedOp) (fn : AmoFn), reductionForm i = some (o, fn) → s.FullX [o.a, o.b] →
    let ea := s.xv o.a
    let n := atomicBytes o.size
    (∀ t p, scalarPlace s ea n .w false = .ok (t, p) →
      exec i s = .next (((t.send ea (.red (p.piece n) fn (s.xv o.b))).advance 4).noteIssued)) ∧
    (∀ c off, s.target s.cur.core ea n = .ok (.loc c 0 off) → off % n ≠ 0 →
      exec i s = .next (s.takeSup s.cur 0x0511 ea s.slot.pc)) ∧
    (∀ va, s.target s.cur.core ea n = .ok (.virt va) → va % n ≠ 0 → exec i s = .next (s.takeSup s.cur 0x0511 ea s.slot.pc)) ∧
    (∀ c win off, s.target s.cur.core ea n = .ok (.loc c win off) → win ≠ 0 →
      exec i s = .next (s.takeSup s.cur 0x0411 ea s.slot.pc))) ∧
  ∀ (s : State) (o : R2), s.FullX [o.a, o.d] →
    let ea := s.xv o.a
    (∀ key, localObject s ea 64 128 = .ok key →
      (s.released s.cur = true → exec (.joinc o) s = .next ((s.emptyX o.d).send ea (.joinc key o.d))) ∧
      (s.released s.cur = false → exec (.joinc o) s = .next (s.setWait { kind := 6, obj := s.slot.pc.setWidth 64, ph := 0 }))) ∧
    (∀ c off, s.target s.cur.core ea 128 = .ok (.loc c 0 off) → off % 64 ≠ 0 →
      exec (.joinc o) s = .next (s.takeSup s.cur 0x0511 ea s.slot.pc)) ∧
    (∀ va, s.target s.cur.core ea 128 = .ok (.virt va) → exec (.joinc o) s = .next (s.takeSup s.cur 0x0C11 ea s.slot.pc)) ∧
    (∀ c win off, s.target s.cur.core ea 128 = .ok (.loc c win off) → win ≠ 0 →
      exec (.joinc o) s = .next (s.takeSup s.cur 0x0411 ea s.slot.pc)) ∧
    (ea.toNat % 64 = 0 → ea.toNat + 128 ≤ 0x60000 → localObject s ea 64 128 = .ok (localKey s.cur.core ea.toNat))

/-- The fences (R135, R136, R244), with what each waits for, the scopes (R243), and what an acquire learns (R247). That an acquire lifts the
timebase of its die to the others' is the model's choice (DESIGN CHOICE, log 4), and the record of happens-before its own (log 60). -/
def Obligations.Fences : Prop :=
  ∀ s : State,
    let done := fun (t : State) => Host.Outcome.next (t.advance 4).noteIssued
    let waits := fun (k : Nat) => Host.Outcome.next (s.setWait { kind := k, obj := s.slot.pc.setWidth 64, ph := 0 })
    let me := s.party s.cur
    let fresh := fun (sc : BitVec 3) (c : Clock) =>
      if 2 ≤ sc then (s.acquires s.cur c).acquired s.cur.core else s.acquires s.cur c
    let rel := fun (t : State) (sc : BitVec 3) => t.modSlot fun l =>
      { l with fences := l.fences.filter (·.scope ≠ sc) ++ [{ by_ := me, scope := sc, clk := l.clk.upTo me s.nextId }] }
    (∀ c, (s.acquires s.cur c).slot = { s.slot with clk := s.slot.clk.join c }) ∧
    (∀ (p : Party) (sc : BitVec 3) (l : List Side) (w : Past), (learn p sc l).holds w = true ↔
      ∃ x ∈ l, scopeCovers x.scope x.by_ p = true ∧ scopeCovers sc x.by_ p = true ∧ x.clk.holds w = true) ∧
    (∀ a b : Party, (scopeCovers 0 a b = true ↔ a = b) ∧ (scopeCovers 1 a b = true ↔ a.1.core = b.1.core) ∧
      (scopeCovers 3 a b = true ↔ clusterOf a.1.core = clusterOf b.1.core) ∧ (scopeCovers 4 a b = true ↔ dieOf a.1.core = dieOf b.1.core) ∧
      ∀ sc : BitVec 3, 6 ≤ sc → scopeCovers sc a b = true) ∧
    (∃ ts, s.acquired s.cur.core = { s.modCore fun c => { c with rlb := [] } with times := ts } ∧
      (∀ d, d ≠ .compute (dieOf s.cur.core) → tabGet? ts d = tabGet? s.times d) ∧
      ∀ e ∈ s.times, e.2 ≤ (s.acquired s.cur.core).dieTime (.compute (dieOf s.cur.core))) ∧
    (∀ o : FenceOp,
      (s.loadsDone s.cur = true → exec (.fenceAcq o) s = done (fresh o.scope (learn me o.scope s.slot.heard))) ∧
      (s.loadsDone s.cur = false → exec (.fenceAcq o) s = waits 6) ∧
      (s.eventsDone s.cur o.scope = true → exec (.fenceRel o) s = done (rel s o.scope)) ∧
      (s.eventsDone s.cur o.scope = false → exec (.fenceRel o) s = waits 6) ∧
      (s.loadsDone s.cur = true → s.eventsDone s.cur o.scope = true →
        (let m := fresh o.scope ((learn me o.scope s.slot.heard).join (learn me o.scope s.fulls))
         exec (.fenceFull o) s = done { rel m o.scope with fulls := s.fulls ++ [m.fenceSide o.scope] })) ∧
      (s.loadsDone s.cur = false ∨ s.eventsDone s.cur o.scope = false → exec (.fenceFull o) s = waits 6)) ∧
    (∀ o : VfenceOp,
      ((∀ r ∈ s.reqsOf s.cur, r.isStoreLike = false) → (∀ w ∈ s.core.gemvs, ¬(w.slot = s.cur.slot ∧ w.gen = s.slot.gen)) →
        exec (.vfence o) s = done ((s.joinsUnit .vault).modCore fun c => { c with rlb := c.rlb.filter fun l => decide (2 ^ 48 ≤ l.key ∧ l.key < 2 ^ 64) })) ∧
      ((∃ r ∈ s.reqsOf s.cur, r.isStoreLike = true) → exec (.vfence o) s = waits 6) ∧
      ((∀ r ∈ s.reqsOf s.cur, r.isStoreLike = false) → (∃ w ∈ s.core.gemvs, w.slot = s.cur.slot ∧ w.gen = s.slot.gen) →
        exec (.vfence o) s = waits 8)) ∧
    (s.reqsOf s.cur = [] → s.loadsDone s.cur = true ∧ ∀ sc, s.eventsDone s.cur sc = true ∧ s.releasedBefore s.cur s.nextId sc = true) ∧
    ∀ r ∈ s.reqsOf s.cur,
      (r.isLoadLike = true ∨ r.blocks = true → s.loadsDone s.cur = false) ∧
      (∀ sc, (r.applied = false ∨ 2 ≤ sc ∨ r.isLoadLike = true ∧ r.isStoreLike = false ∧ r.isBarrierSend = false ∨
          ∃ p ∈ r.writes, r.ownPiece p = false) → s.eventsDone s.cur sc = false ∧
        (r.id < s.nextId → r.isLoadLike = true ∨ r.isStoreLike = true → s.releasedBefore s.cur s.nextId sc = false))

/-- `cbinit`, `cbarrive`, `cbexpect`, `cbwait`, `cbtest` and `cbtwait` at issue (R137, R139). The wait records name the barrier and
phase, or the instruction, as WKIND, WOBJ and WPH of R340 do; WINDOW for a barrier through windows 1 to 6 is a choice of the model (DEDUCED,
log 50). -/
def Obligations.CountBarrierIssue : Prop :=
  (∀ (s : State) (o : RAB) (key : Nat), s.FullX [o.a, o.b] → localObject s (s.xv o.a) 16 16 = .ok key →
    let ph := (s.xv o.b).getLsbD 0
    exec (.cbinit o) s = .next ((s.send (s.xv o.a) (.cbinit key (s.xv o.b))).setWait
      { kind := 6, obj := s.slot.pc.setWidth 64, ph := 0 }) ∧
    exec (.cbexpect o) s = .next
      (((s.send (s.xv o.a) (.cbexpect key ((s.xv o.b).setWidth 32).toInt)).advance 4).noteIssued) ∧
    exec (.cbwait o) s = .next ((s.send (s.xv o.a) (.cbwait key ph none .wait)).setWait
      { kind := 1, obj := s.xv o.a, ph := if ph then 1 else 0 })) ∧
  (∀ (s : State) (o : RA) (key : Nat), s.FullX [o.a] → localObject s (s.xv o.a) 16 16 = .ok key →
    (s.released s.cur = true → exec (.cbarrive o) s = .next (((s.send (s.xv o.a) (.cbarrive key)).advance 4).noteIssued)) ∧
    (s.released s.cur = false → exec (.cbarrive o) s = .next (s.setWait { kind := 6, obj := s.slot.pc.setWidth 64, ph := 0 }))) ∧
  (∀ (s : State) (o : R3) (key : Nat), s.FullX [o.a, o.b, o.d] → localObject s (s.xv o.a) 16 16 = .ok key →
    let ph := (s.xv o.b).getLsbD 0
    exec (.cbtest o) s = .next ((s.send (s.xv o.a) (.cbwait key ph (some o.d) .test)).setWait
      { kind := 6, obj := s.slot.pc.setWidth 64, ph := 0 }) ∧
    ((s.xv o.b).toNat < 2 ^ 32 →
      exec (.cbtwait o) s = .next ((s.send (s.xv o.a) (.cbwait key ph (some o.d) .poll)).setWait
        { kind := 6, obj := s.slot.pc.setWidth 64, ph := 0 })) ∧
    (2 ^ 32 ≤ (s.xv o.b).toNat →
      exec (.cbtwait o) s = .next ((s.send (s.xv o.a) (.cbwait key ph (some o.d) .wait)).setWait
        { kind := 1, obj := s.xv o.a, ph := if ph then 1 else 0 }))) ∧
  ∀ (s : State) (i : Instr) (x : XReg) (l : List XReg),
    (∃ o : RAB, x = o.a ∧ l = [o.a, o.b] ∧ (i = .cbinit o ∨ i = .cbexpect o ∨ i = .cbwait o)) ∨
      (∃ o : RA, x = o.a ∧ l = [o.a] ∧ i = .cbarrive o) ∨
      (∃ o : R3, x = o.a ∧ l = [o.a, o.b, o.d] ∧ (i = .cbtest o ∨ i = .cbtwait o)) →
    s.FullX l →
    let a := s.xv x
    (a.toNat % 16 = 0 → a.toNat + 16 ≤ 0x60000 → localObject s a 16 16 = .ok (localKey s.cur.core a.toNat)) ∧
    (∀ c off, s.target s.cur.core a 16 = .ok (.loc c 0 off) → off % 16 ≠ 0 → exec i s = .next (s.takeSup s.cur 0x0511 a s.slot.pc)) ∧
    (∀ va, s.target s.cur.core a 16 = .ok (.virt va) → exec i s = .next (s.takeSup s.cur 0x0C11 a s.slot.pc)) ∧
    ∀ c win off, s.target s.cur.core a 16 = .ok (.loc c win off) → win ≠ 0 →
      exec i s = .next (s.takeSup s.cur 0x0411 a s.slot.pc)

/-- `CB_HOME_OPERATION` (R138, R139), `RETURNING_OPERATION_COMPLETE` of a barrier wait, and `CBTWAIT_EXPIRY`. That poison of the barrier is
not met is the model's choice (DESIGN CHOICE, log 63), and the record of happens-before its own (log 60). -/
def Obligations.CountBarrierHome : Prop :=
  (∀ (s : State) (n key : Nat) (r : Req), s.reqs.find? (·.id = n) = some r → r.barrier = some key → s.barrierReady r key = true →
    let v := s.cbGet key
    (s.undefinedAt key = false → v = s.rd key 16) ∧
    let exp := bits v 0 16
    let pend := bits v 16 16
    let bytes := BitVec.ofNat 32 (bits v 32 32)
    let ph := bits v 64 1
    let valid := bits v 65 1
    let err := bits v 66 1
    let goes := fun (mem : Option Nat) (done : Option Bool) (q : Req) => ∃ t, exec (.cbHomeOperation n) s = .next t ∧
      t.mem = (match mem with
        | some x => (s.wr key 16 x).mem
        | none => s.mem) ∧
      (t.reqs.map fun x => { x with got := Clock.zero }) = (s.cbReqs n key done q).map fun x => { x with got := Clock.zero }
    let ok := fun (w : Word) => { r with applied := true, res := .word w false }
    let error := some (if err = 1 then v else v + 2 ^ 66)
    let flips := some (cbFields exp exp 0 (1 - ph) 1 err)
    (∀ b, r.op = .cbinit key b → goes (some (cbFields (b.toNat % 65536) (b.toNat % 65536) 0 0 1 0)) (some true) (ok 1) ∧
      ((homeCore key).isSome = true → ∃ t, exec (.cbHomeOperation n) s = .next t ∧ t.undefinedAt key = false)) ∧
    (r.op = .cbarrive key →
      (valid = 0 ∨ pend = 0 → goes error none (ok 1)) ∧
      (valid = 1 → pend = 1 → bytes = 0 → goes flips (some (ph = 1)) (ok 1)) ∧
      (valid = 1 → 1 ≤ pend → ¬(pend = 1 ∧ bytes = 0) → goes (some (cbFields exp (pend - 1) bytes ph 1 err)) none (ok 1))) ∧
    (∀ d : Int, r.op = .cbexpect key d →
      (valid = 0 ∨ bytes.toInt + d < -2 ^ 31 ∨ 2 ^ 31 ≤ bytes.toInt + d → goes error none (ok 1)) ∧
      (valid = 1 → -2 ^ 31 ≤ bytes.toInt + d → bytes.toInt + d < 2 ^ 31 →
        (d = 0 → goes none none (ok 1)) ∧
        (d ≠ 0 → pend = 0 → bytes.toInt + d = 0 → goes flips (some (ph = 1)) (ok 1)) ∧
        (d ≠ 0 → ¬(pend = 0 ∧ bytes.toInt + d = 0) →
          goes (some (cbFields exp pend (BitVec.ofInt 32 (bytes.toInt + d)) ph 1 err)) none (ok 1)))) ∧
    (r.op = .cbarrive key → valid = 1 → pend = 1 → bytes = 0 → s.undefinedAt key = false → s.MemoryCanonical →
      ∀ t, exec (.cbHomeOperation n) s = .next t → ∀ q ∈ s.reqs, q.id ≠ n → q.registered = true →
        (∃ d how, q.op = .cbwait key (decide (ph = 1)) d how) →
        ∃ q' ∈ t.reqs, q'.id = q.id ∧ q'.got = (s.markOf .phase key).join r.relClock) ∧
    ∀ (p : Bool) (how : CbHow) (d : Option XReg), r.op = .cbwait key p d how →
      (∀ t, exec (.cbHomeOperation n) s = .next t → ∃ q ∈ t.reqs, q.id = n ∧ q.got = s.markOf .completed key) ∧
      (valid = 1 → (ph = 1) ≠ (p = true) → goes none none (ok 1)) ∧
      (valid = 0 ∨ ((ph = 1) = (p = true)) → how ≠ .wait → goes none none (ok 0)) ∧
      (valid = 0 ∨ ((ph = 1) = (p = true)) → how = .wait → goes none none { r with applied := true, registered := true })) ∧
  (∀ (s : State) (n key : Nat) (r : Req) (p : Bool) (how : CbHow) (d : Option XReg) (w : Word), s.reqs.find? (·.id = n) = some r →
    r.op = .cbwait key p d how → r.res = .word w false → r.applied = true → r.peers = [] → s.alive r = true →
    s.splitPending n = false →
    let l := s.getSlot r.slotId
    let filled := match d with
      | some d => l.setX d w
      | none => l
    ∃ t, exec (.returningOperationComplete n) s = .next t ∧ t.mem = s.mem ∧ t.reqs = s.reqs.filter (·.id ≠ n) ∧
      t.getSlot r.slotId = { filled with pc := l.pc + 4, wait := none, issued := l.issued + 1,
                                         clk := if w = 1 then l.clk.join r.got else l.clk } ∧
      (w = 1 → (t.getCore r.core).rlb = [])) ∧
  ∀ (s : State) (o : SlotId) (l₁ l₂ : List Req) (r : Req) (key : Nat) (p : Bool) (d : XReg), s.reqsOf o = l₁ ++ r :: l₂ →
    r.op = .cbwait key p (some d) .wait → (∀ q ∈ l₁, ∀ k p' d', q.op ≠ .cbwait k p' (some d') .wait) →
    exec (.cbtwaitExpiry o) s =
      .next ((((s.dropReq r.id).sampleCycles o.core 4).onSlot o fun l => l.setX d 0).complete o)

/-- `nbinit` (R146), `nbread`, `vtest` and `vcount` (R149), with their homes and answers; the order of ALIGN and ILLEGAL (DESIGN CHOICE,
log 62), and WINDOW for a board through windows 1 to 6 is a choice of the
model (DEDUCED, log 50), and the record of happens-before its own (log 60). -/
def Obligations.NoticeBoards : Prop :=
  (∀ (s : State) (o : NbinitOp), s.FullX [o.a, o.b] →
    let a := s.xv o.a
    let n := (s.xv o.b).toNat
    (∀ key, boardAt s a (128 + 16 * n) = .ok key → a.toNat % 512 = 0 → 1 ≤ n → n ≤ 256 →
      exec (.nbinit o) s = .next ((s.send a (.nbinit key n)).setWait { kind := 6, obj := s.slot.pc.setWidth 64, ph := 0 })) ∧
    (a.toNat % 512 = 0 → a.toNat + (128 + 16 * n) ≤ 0x60000 → boardAt s a (128 + 16 * n) = .ok (localKey s.cur.core a.toNat)) ∧
    (a.toNat < 0x5F000 → a.toNat % 512 ≠ 0 → exec (.nbinit o) s = .next (s.takeSup s.cur 0x0511 a s.slot.pc)) ∧
    (a.toNat < 0x5F000 → a.toNat % 512 = 0 → n = 0 ∨ 256 < n →
      exec (.nbinit o) s = .next (s.takeSup s.cur 0x10 s.instrWord s.slot.pc))) ∧
  (∀ (s : State) (k key n : Nat) (r : Req), s.reqs.find? (·.id = k) = some r → s.homeReady r = true → r.op = .nbinit key n →
    ∃ t, exec (.homeAccess k) s = .next t ∧
      t.mem = (s.wrPieces [(key, natBytes 8 n ++ natBytes 8 0), (key + 0x20, natBytes 32 0 ++ natBytes 32 0),
                           (key + 0x80, List.replicate (16 * n) 0)]).mem ∧
      ∃ q ∈ t.reqs, q.id = k ∧ q.applied = true ∧ q.res = .word 0 false) ∧
  (∀ (s : State) (o : NbreadOp) (key : Nat), s.FullX [o.a] → boardAt s (s.xv o.a) 128 = .ok key → (s.xv o.a).toNat % 512 = 0 →
    let u := s.send (s.xv o.a) (.nbread key o.m)
    exec (.nbread o) s = .next u ∧ u.canTurn u.cur = false) ∧
  (∀ (s : State) (i : Instr) (x : XReg) (l : List XReg) (size : Nat),
    (∃ o : NbreadOp, x = o.a ∧ l = [o.a] ∧ size = 128 ∧ i = .nbread o) ∨
      (∃ o : NbinitOp, x = o.a ∧ l = [o.a, o.b] ∧ i = .nbinit o ∧
        size = if (s.xv o.b).toNat ≤ 256 then 128 + 16 * (s.xv o.b).toNat else 1) → s.FullX l →
    let a := s.xv x
    let board := a - BitVec.ofNat 64 (a.toNat % 512)
    (∀ c off, s.target s.cur.core board size = .ok (.loc c 0 off) → a.toNat % 512 ≠ 0 →
      exec i s = .next (s.takeSup s.cur 0x0511 a s.slot.pc)) ∧
    (∀ va, s.target s.cur.core board size = .ok (.virt va) → exec i s = .next (s.takeSup s.cur 0x0C11 a s.slot.pc)) ∧
    ∀ c win off, s.target s.cur.core board size = .ok (.loc c win off) → win ≠ 0 →
      exec i s = .next (s.takeSup s.cur 0x0411 a s.slot.pc)) ∧
  (∀ (s : State) (k key : Nat) (m : Bool) (r : Req), s.reqs.find? (·.id = k) = some r → r.op = .nbread key m →
    (s.homeReady r = true → s.undefinedAt key = false → ∃ t, exec (.homeAccess k) s = .next t ∧ t.mem = s.mem ∧
      ∃ q ∈ t.reqs, q.id = k ∧ q.applied = true ∧
        q.res = .view false 0 (BitVec.ofNat 256 (leNat (memReads s.mem (key + 0x20) 32))) 0 ∧ q.got = s.markOf .board key) ∧
    ∀ re lv mask sq, r.applied = true → r.res = .view re lv mask sq → s.alive r = true → r.peers = [] →
      s.splitPending k = false →
      ∃ t, exec (.returningOperationComplete k) s = .next t ∧ t.mem = s.mem ∧ t.reqs = s.reqs.filter (·.id ≠ k) ∧
        (t.getCore r.core).rlb = [] ∧ t.getSlot r.slotId = { (s.getSlot r.slotId).setM m mask with
          clk := (s.getSlot r.slotId).clk.join r.got, pc := (s.getSlot r.slotId).pc + 4, wait := none, issued := (s.getSlot r.slotId).issued + 1 }) ∧
  ∀ s : State,
    (∀ o : VtestOp, s.FullX [o.a, o.d] → exec (.vtest o) s = .next (s.wroteX o.d
      (if (s.xv o.a).toNat ≤ 255 ∧ (s.slot.getM o.m).getLsbD (s.xv o.a).toNat = true then 1 else 0) 4)) ∧
    ∀ o : VcountOp, s.FullX [o.d] → exec (.vcount o) s = .next (s.wroteX o.d
      (BitVec.ofNat 64 ((List.range 256).countP fun i => (s.slot.getM o.m).getLsbD i)) 4)

/-- `postv`, `BOARD_POST_AT_HOME`, `BOARD_VIEW_RETURN` and `BOARD_LEVEL_ADVANCE_REPORT` (R147). That poison of the board is not met is the
model's choice (DESIGN CHOICE, log 63), and the record of happens-before its own (log 60). -/
def Obligations.BoardPosts : Prop :=
  (∀ (s : State) (o : PostvOp) (key : Nat), s.FullX [o.a, o.b, o.d] →
    let a := s.xv o.a
    boardAt s a 128 = .ok key →
    (a.getLsbD 8 = true → exec (.postv o) s = .next (s.takeSup s.cur 0x0511 a s.slot.pc)) ∧
    (a.getLsbD 8 = false → s.refusedOf s.cur = none → s.released s.cur = true →
      exec (.postv o) s = .next ((s.emptyX o.d).send a (.postv key (a.toNat % 256) (s.xv o.b) o.d o.m o.wa))) ∧
    (∀ q, a.getLsbD 8 = false → s.refusedOf s.cur = some q →
      exec (.postv o) s = .next (s.setWait { kind := 3, obj := boardBase a, ph := q.level }))) ∧
  (∀ (s : State) (n key k : Nat) (r : Req) (b : Word) (d : XReg) (m wa : Bool), s.reqs.find? (·.id = n) = some r →
    r.op = .postv key k b d m wa → r.applied = false → s.homeSaved key = false → s.inOrder r = true → s.undefinedAt key = false →
    let ctl := (s.rd64 key).toNat
    let slots := bits ctl 0 9
    let level := bits ctl 16 48
    let mask := s.rd (key + 0x20) 32
    let ahead := s.rd (key + 0x40) 32
    let seq := s.rd64 (key + 8) + 1
    let full := fun (x : Nat) => x % 2 ^ slots = 2 ^ slots - 1
    let now := bits mask k 1 = 0
    let mask' := if now then mask + 2 ^ k else mask
    let ahead' := if now then ahead else ahead + 2 ^ k
    let view := ReqRes.view false (BitVec.ofNat 64 level) (BitVec.ofNat 256 (mask' % 2 ^ slots)) seq
    let goes := fun (ps : List (Nat × List Byte)) (res : ReqRes) => ∃ t, exec (.boardPostAtHome n) s = .next t ∧
      t.mem = (s.wrPieces ps).mem ∧ t.reqs = s.reqs.map fun q => if q.id = n then { r with applied := true, res := res, got := s.markOf .board key } else q
    (slots ≤ k → goes [] .badSlot) ∧
    (k < slots → bits mask k 1 = 1 → bits ahead k 1 = 1 → goes [] (.view true (BitVec.ofNat 64 level) 0 0)) ∧
    (k < slots → ¬(bits mask k 1 = 1 ∧ bits ahead k 1 = 1) →
      let put := boardBytes key k b (if now then level else level + 1) ctl
      ((homeCore key).isSome = true → ∀ t, exec (.boardPostAtHome n) s = .next t →
        t.markOf .board key = (s.markOf .board key).join ({ r with got := s.markOf .board key } : Req).relClock) ∧
      (¬full mask' → goes (put level seq.toNat mask' ahead') view) ∧
      (full mask' → ¬full ahead' → goes (put (level + 1) seq.toNat ahead' 0) view) ∧
      (full mask' → full ahead' → goes (put (level + 2) seq.toNat 0 0) view))) ∧
  (∀ (s : State) (n key k : Nat) (r : Req) (b : Word) (d : XReg) (m wa : Bool), s.reqs.find? (·.id = n) = some r →
    r.op = .postv key k b d m wa → r.applied = true → s.alive r = true →
    let o := r.slotId
    let l := (s.getSlot o).markX d true
    (∀ lv mask sq, r.res = .view false lv mask sq →
      ∃ t, exec (.boardViewReturn n) s = .next t ∧ t.mem = s.mem ∧ t.reqs = s.reqs.filter (·.id ≠ n) ∧
        (t.getCore r.core).rlb = [] ∧
        t.getSlot o = { ((l.setM m mask).setX d sq).markX d true with
          clk := l.clk.join r.got, pc := l.pc + 4, wait := none, issued := l.issued + 1 }) ∧
    (∀ lv mask sq, r.res = .view true lv mask sq → wa = false →
      ∃ t, exec (.boardViewReturn n) s = .next t ∧ t.mem = s.mem ∧ t.reqs = s.reqs.filter (·.id ≠ n) ∧
        t.getSlot o = { l with wait := some { kind := 3, obj := boardBase r.ea, ph := lv } } ∧
        ∃ q ∈ t.refused, q.core = r.core ∧ q.slot = r.slot ∧ q.gen = r.gen ∧ q.board = key ∧ q.level = lv) ∧
    (∀ lv mask sq, r.res = .view true lv mask sq → wa = true → l.mode = .user → l.intrap = false → isCode l.tvec.toNat →
      ∃ t, exec (.boardViewReturn n) s = .next t ∧ t.mem = s.mem ∧ t.getSlot o =
        { l with tepc := l.pc, tcause := 0x06, tval := boardBase r.ea, intrap := true, wait := none, joinAns := none, pc := l.tvec }) ∧
    (r.res = .badSlot → l.mode = .user → isCode (s.getCore r.core).svec.toNat →
      ∃ t, exec (.boardViewReturn n) s = .next t ∧ t.mem = s.mem ∧
        t.getSlot o = { s.getSlot o with
          sepc := l.pc, scause := 0x0311, sval := r.ea, mode := .supervisor, st := .held, pc := (s.getCore r.core).svec, wait := none,
          joinAns := none })) ∧
  ∀ (s : State) (n : Nat) (q : RefusedPost), s.refused.find? (·.id = n) = some q → s.homeSaved q.board = false →
    s.undefinedAt q.board = false →
    (bits (s.rd64 q.board).toNat 16 48 ≠ q.level.toNat →
      exec (.boardLevelAdvanceReport n) s = .next { s with refused := s.refused.filter (·.id ≠ n) }) ∧
    (bits (s.rd64 q.board).toNat 16 48 = q.level.toNat → exec (.boardLevelAdvanceReport n) s = .next s)

/-- `wbjoin`, `wbleave`, `WB_ROOT_ARRIVAL` of a join and of a leave, and `WB_JOIN_ACK` (R140, R141, R371). What becomes of a leaver's pending
arrivals, of an answer that nobody waits for and of a refused one is the model's reading (DEDUCED, log 25), that a root keeps its phase and
values for a new crew its choice (DESIGN CHOICE, log 17), and so is the arrival that a wbleave completes at a lead of 3 (log 59). -/
def Obligations.WireBarrierMembership : Prop :=
  (∀ (k : Core) (bar : Fin 16) (m : WbMember), k.member bar = some m ↔ k.wb[bar] = some m ∧ m.launch = k.launch) ∧
  (∀ (s : State) (o : RAB), s.FullX [o.a, o.b] → 16 ≤ (s.xv o.a).toNat →
    exec (.wbjoin o) s = .next (s.takeSup s.cur 0x10 s.instrWord s.slot.pc)) ∧
  (∀ (s : State) (o : RAB) (bar : Fin 16), s.FullX [o.a, o.b] → (s.xv o.a).toNat = bar.val →
    let op := (s.xv o.b).setWidth 2
    let illegal := Host.Outcome.next (s.takeSup s.cur 0x10 s.instrWord s.slot.pc)
    (op = 3 → exec (.wbjoin o) s = illegal) ∧
    (op ≠ 3 → s.core.member bar = none → s.slot.joinAns ≠ some { bar := barBits bar, ok := false } →
      s.joinPending s.cur.core (barBits bar) = false →
      ∃ w, exec (.wbjoin o) s = .next ((s.sendWb s.cur.core s.core.launch bar (.join op s.cur.slot s.slot.gen s.slot.pc)).setWait w)) ∧
    (op ≠ 3 → s.core.member bar = none → s.slot.joinAns = some { bar := barBits bar, ok := false } →
      exec (.wbjoin o) s = illegal) ∧
    ∀ m, op ≠ 3 → s.core.member bar = some m →
      (m.op ≠ op → exec (.wbjoin o) s = illegal) ∧
      (m.op = op → m.joined.getLsbD s.cur.slot.toNat = true → exec (.wbjoin o) s = .next (s.advance 4).noteIssued) ∧
      (m.op = op → m.joined.getLsbD s.cur.slot.toNat = false →
        let m' := { m with joined := setBit m.joined s.cur.slot.toNat true
                           ctxNext := m.ctxNext.setIfInBounds s.cur.slot.toNat m.next }
        exec (.wbjoin o) s = .next ((s.setWb s.cur.core bar (some m')).advance 4).noteIssued)) ∧
  (∀ (s : State) (o : RA) (bar : Fin 16), s.FullX [o.a] → (s.xv o.a).toNat = bar.val →
    (s.core.member bar = none → exec (.wbleave o) s = .next (s.takeSup s.cur 0x10 s.instrWord s.slot.pc)) ∧
    ∀ m, s.core.member bar = some m →
      let rest := setBit m.joined s.cur.slot.toNat false
      (m.joined.getLsbD s.cur.slot.toNat = false →
        exec (.wbleave o) s = .next (s.takeSup s.cur 0x10 s.instrWord s.slot.pc)) ∧
      (m.joined.getLsbD s.cur.slot.toNat = true → rest = 0 → m.lead = 0 →
        ∃ t q, exec (.wbleave o) s = .next t ∧ t.core.wb[bar] = none ∧ t.wbmsgs = s.wbmsgs ++ [q] ∧ q.kind = .leave ∧
          q.core = s.cur.core ∧ q.bar = barBits bar ∧ t.mem = s.mem ∧ t.slot.pc = s.slot.pc + 4) ∧
      (∀ i : Fin 16, m.joined.getLsbD s.cur.slot.toNat = true → rest.getLsbD i.val = true → m.ctxNext[i] ≤ m.next →
        let m' := { m with joined := rest, arrivals := m.arrivals.filter fun a => a.slot ≠ s.cur.slot }
        ∃ t, exec (.wbleave o) s = .next t ∧ t.core.wb[bar] = some m' ∧ t.wbmsgs = s.wbmsgs ∧ t.mem = s.mem ∧
          t.slot.pc = s.slot.pc + 4) ∧
      (∀ i : Fin 16, m.joined.getLsbD s.cur.slot.toNat = true → rest.getLsbD i.val = true → m.ctxNext[i] = m.next + 1 →
        (∀ j : Fin 16, rest.getLsbD j.val = true → m.next < m.ctxNext[j]) → m.lead < 3 →
        let got := (m.arrivals.filter fun a => decide (a.phase = m.next) && rest.getLsbD a.slot.toNat).map (·.val)
        ∃ t q m' v cs g, exec (.wbleave o) s = .next t ∧ t.wbmsgs = s.wbmsgs ++ [q] ∧ q.core = s.cur.core ∧
          q.kind = .arrive m.next v cs g ∧ t.core.wb[bar] = some m' ∧ m'.joined = rest ∧
          m'.next = m.next + 1 ∧ m'.lead = m.lead + 1 ∧ (got ≠ [] → combined m.op got v) ∧ t.mem = s.mem ∧
          t.slot.pc = s.slot.pc + 4)) ∧
  (∀ (s : State) (n : Nat) (m : WbMsg), s.wbmsgs.find? (·.id = n) = some m → s.wbMayReach m = true →
    let r := s.wbRoot m.tenant m.bar
    (∀ op k gen pc, m.kind = .join op k gen pc →
      let crew := if r.members = [] then { r with launch := m.launch, op := op } else r
      let first := if ∃ a ∈ r.arrivals, a.phase = r.phase then r.phase + 1 else r.phase
      ∃ t a, exec (.wbRootArrival n) s = .next t ∧ t.mem = s.mem ∧ t.wbmsgs = s.wbmsgs.filter (·.id ≠ n) ∧
        t.wbacks = s.wbacks ++ [a] ∧ a.core = m.core ∧ a.bar = m.bar ∧ a.slot = k ∧ a.gen = gen ∧ a.pc = pc ∧ a.op = op ∧
        (a.ok = true ↔ crew.op = op) ∧ a.first = first ∧ a.done = r.phase ∧ a.values = r.values ∧
        t.wbRoot m.tenant m.bar = { crew with
          members := crew.members ++ if crew.op = op then [{ core := m.core, first := first }] else [] }) ∧
    (m.kind = .leave → r.arrivals = [] →
      ∃ t, exec (.wbRootArrival n) s = .next t ∧ t.mem = s.mem ∧ t.wbmsgs = s.wbmsgs.filter (·.id ≠ n) ∧
        t.wbdones = s.wbdones ∧ t.wbRoot m.tenant m.bar = { r with members := r.members.filter (·.core ≠ m.core) })) ∧
  ∀ (s : State) (n : Nat) (a : WbJoinAck), s.wbacks.find? (·.id = n) = some a → (s.getCore a.core).saved = false →
    let o : SlotId := { core := a.core, slot := a.slot }
    (a.ok = true → s.joinWaits a = true →
      ∃ t m, exec (.wbJoinAck n) s = .next t ∧ t.wbacks = s.wbacks.filter (·.id ≠ n) ∧ t.wbmsgs = s.wbmsgs ∧
        (t.getCore a.core).wb[a.bar.toNat] = some m ∧ m.launch = (s.getCore a.core).launch ∧ m.op = a.op ∧ m.next = a.first ∧ m.done = a.done ∧ m.values = a.values ∧
        m.lead = 0 ∧ ∀ i : Fin 16, m.joined.getLsbD i.val = decide (i.val = a.slot.toNat) ∧ m.ctxNext[i] = a.first) ∧
    (a.ok = true → s.joinWaits a = false →
      ∃ t q, exec (.wbJoinAck n) s = .next t ∧ t.wbacks = s.wbacks.filter (·.id ≠ n) ∧
        (t.getCore a.core).wb[a.bar.toNat] = none ∧ t.wbmsgs = s.wbmsgs ++ [q] ∧ q.kind = .leave ∧ q.core = a.core) ∧
    (a.ok = false → s.joinWaits a = true →
      ∃ t, exec (.wbJoinAck n) s = .next t ∧ t.wbacks = s.wbacks.filter (·.id ≠ n) ∧
        t.getSlot o = { s.getSlot o with joinAns := some { bar := a.bar, ok := false } })

/-- `wbarrive`, `ctrg`, `WB_ROOT_ARRIVAL` of an arrival, `WB_PHASE_COMPLETION`, `wbwait`, `wbtwait`, `wbget` and `WBTWAIT_EXPIRY`
(R142-R144, R371, R372). That an arrival which a `wbleave` completes at a lead of 3 waits, and counts in the lead, is the model's choice (DESIGN
CHOICE, log 59); the record of happens-before is its own (log 60). -/
def Obligations.WireBarrierPhases : Prop :=
  (∀ (s : State) (i : Instr) (x y : XReg) (l : List XReg) (bar : Fin 16), (s.xv x).toNat = bar.val →
    (∃ o : R3, i = .wbarrive o ∧ x = o.a ∧ y = o.b ∧ l = [o.a, o.b, o.d]) ∨ (∃ o : RAB, i = .ctrg o ∧ x = o.a ∧ y = o.b ∧ l = [o.a, o.b]) →
    s.FullX l → (∀ m, s.core.member bar = some m → m.joined.getLsbD s.cur.slot.toNat = false) →
    exec i s = .next (s.takeSup s.cur 0x10 s.instrWord s.slot.pc)) ∧
  (∀ (s : State) (bar : Fin 16) (m : WbMember) (i : Instr) (l : List XReg) (x : XReg) (val : Word) (dest : Option Word) (d : Option XReg),
    s.FullX l → (s.xv x).toNat = bar.val → s.core.member bar = some m → m.joined.getLsbD s.cur.slot.toNat = true → m.op ≠ 3 →
    (∃ o : R3, i = .wbarrive o ∧ x = o.a ∧ l = [o.a, o.b, o.d] ∧ val = s.xv o.b ∧ dest = none ∧ d = some o.d) ∨
      (∃ (o : RAB) (off : Nat), i = .ctrg o ∧ x = o.a ∧ l = [o.a, o.b] ∧ ownOffset s (s.xv o.b) 64 128 = .ok off ∧
        dest = some (BitVec.ofNat 64 off) ∧ d = none ∧ (m.op = 0 → val = 0) ∧ (m.op = 1 → val.toInt = 2 ^ 63 - 1) ∧
        (m.op = 2 → val.toInt = -2 ^ 63)) →
    let k := s.cur.slot
    let p := m.ctxNext.getD k.toNat 0
    let wrote := fun (t : State) => match d with
      | some r => t.wroteX r (BitVec.ofNat 64 p) 4
      | none => (t.advance 4).noteIssued
    (∀ j : Fin 16, j.val ≠ k.toNat → m.joined.getLsbD j.val = true → m.ctxNext[j] ≤ m.next → m.next ≤ p → s.released s.cur = true →
      exec i s = .next (wrote ((s.setWb s.cur.core bar (some (m.recorded k val dest))).joinWire bar p s.relClock))) ∧
    (m.next < p → (∀ j : Fin 16, j.val ≠ k.toNat → m.joined.getLsbD j.val = true → p < m.ctxNext[j]) → 3 ≤ m.lead + (p - m.next) →
      exec i s = .next (s.setWait { kind := 2, obj := (barBits bar).setWidth 64, ph := BitVec.ofNat 64 p })) ∧
    (p = m.next → (∀ j : Fin 16, j.val ≠ k.toNat → m.joined.getLsbD j.val = true → p < m.ctxNext[j]) →
      let mine := m.arrivals.filter fun a => decide (a.phase = p)
      let got := (mine.filter fun a => m.joined.getLsbD a.slot.toNat).map (·.val) ++ [val]
      let recs := (mine.filterMap (·.dest) ++ dest.toList).map fun a => (p, a)
      (3 ≤ m.lead → exec i s = .next (s.setWait { kind := 2, obj := (barBits bar).setWidth 64, ph := BitVec.ofNat 64 p })) ∧
      (m.lead < 3 → s.released s.cur = false →
        exec i s = .next (s.setWait { kind := 6, obj := s.slot.pc.setWidth 64, ph := 0 })) ∧
      (m.lead < 3 → s.released s.cur = true →
        ∃ t q m' v, exec i s = .next (wrote t) ∧ t.mem = s.mem ∧ t.slot = s.slot ∧ t.cur = s.cur ∧ t.wbmsgs = s.wbmsgs ++ [q] ∧
          t.wireClock bar p = (s.wireClock bar p).join s.relClock ∧ q.core = s.cur.core ∧ q.bar = barBits bar ∧ combined m.op got v ∧
          q.kind = .arrive p v (if recs = [] then List.replicate 16 0 else s.core.xcnt.toList.map (·.toNat)) (decide (recs ≠ [])) ∧
          t.core.wb[bar] = some m' ∧ m'.next = p + 1 ∧ m'.lead = m.lead + 1 ∧ m'.recs = m.recs ++ recs ∧
          m'.arrivals = m.arrivals.filter fun a => decide (a.phase ≠ p)))) ∧
  (∀ (s : State) (n p : Nat) (m : WbMsg) (v : Word) (cs : List Nat) (g : Bool), s.wbmsgs.find? (·.id = n) = some m →
    s.wbMayReach m = true → m.kind = .arrive p v cs g →
    let r := s.wbRoot m.tenant m.bar
    let got := r.arrivals ++ [{ core := m.core, phase := p, val := v, counters := cs }]
    p = r.phase → (∀ a ∈ r.arrivals, a.phase = r.phase) →
    ((∃ q ∈ r.members, q.first ≤ p ∧ ∀ a ∈ got, a.core ≠ q.core) →
      ∃ t, exec (.wbRootArrival n) s = .next t ∧ t.mem = s.mem ∧ t.wbdones = s.wbdones ∧
        t.wbRoot m.tenant m.bar = { r with arrivals := got }) ∧
    ((∀ q ∈ r.members, q.first ≤ p → ∃ a ∈ got, a.core = q.core) →
      ∃ t ds w, exec (.wbRootArrival n) s = .next t ∧ t.mem = s.mem ∧ t.wbdones = s.wbdones ++ ds ∧
        ds.map (·.core) = r.members.map (·.core) ∧ combined r.op (got.map (·.val)) w ∧
        (∀ d ∈ ds, d.phase = p ∧ d.bar = m.bar ∧ d.launch = r.launch ∧ d.val = w ∧ ∀ i, i < 16 →
          d.counters.getD i 0 = min (2 ^ 48 - 1) (got.map fun a => a.counters.getD i 0).sum) ∧
        t.wbRoot m.tenant m.bar = { r with phase := p + 1, arrivals := [], values := ((p, w) :: r.values).take 4 })) ∧
  (∀ (s : State) (n : Nat) (d : WbDone), s.wbdones.find? (·.id = n) = some d → s.wbDoneReady d = true →
    ((∀ m, (s.getCore d.core).wb[d.bar.toNat] = some m → m.launch ≠ d.launch) →
      exec (.wbPhaseCompletion n) s = .next { s with wbdones := s.wbdones.filter (·.id ≠ n) }) ∧
    ∀ m, (s.getCore d.core).wb[d.bar.toNat] = some m → m.launch = d.launch →
      let lead := if m.next - m.lead ≤ d.phase ∧ d.phase < m.next then m.lead - 1 else m.lead
      ∃ t, exec (.wbPhaseCompletion n) s = .next t ∧ t.wbdones = s.wbdones.filter (·.id ≠ n) ∧
        t.mem = (s.wrPieces ((m.recs.filter (·.1 = d.phase)).map fun r =>
          (localKey d.core r.2.toNat, (List.range 16).flatMap fun i => natBytes 8 (d.counters.getD i 0)))).mem ∧
        (m.joined = 0 → lead = 0 → (t.getCore d.core).wb[d.bar.toNat] = none ∧
          ∃ q, t.wbmsgs = s.wbmsgs ++ [q] ∧ q.kind = .leave ∧ q.core = d.core ∧ q.bar = d.bar) ∧
        (m.joined ≠ 0 ∨ lead ≠ 0 → ∃ m', (t.getCore d.core).wb[d.bar.toNat] = some m' ∧ m'.joined = m.joined ∧
          m'.done = max m.done (d.phase + 1) ∧
          m'.values = if d.phase < m.done then m.values else ((d.phase, d.val) :: m.values).take 4) ∧
        ∀ i : Fin 16, m.joined.getLsbD i.val = true → m.ctxNext[i] = m.next + 1 →
          (∀ j : Fin 16, m.joined.getLsbD j.val = true → m.next < m.ctxNext[j]) → lead < 3 →
          ∃ q v cs g, t.wbmsgs = s.wbmsgs ++ [q] ∧ q.core = d.core ∧ q.bar = d.bar ∧ q.kind = .arrive m.next v cs g) ∧
  (∀ (s : State) (n : Nat) (d : WbDone) (m : WbMember) (i : Fin 16), s.wbdones.find? (·.id = n) = some d → s.wbDoneReady d = true →
    (s.getCore d.core).wb[d.bar.toNat] = some m → m.launch = d.launch → m.joined.getLsbD i.val = true → m.ctxNext[i] ≤ m.next →
    ∃ t, exec (.wbPhaseCompletion n) s = .next t ∧ t.wbdones = s.wbdones.filter (·.id ≠ n) ∧ t.wbmsgs = s.wbmsgs ∧
      t.mem = (s.wrPieces ((m.recs.filter (·.1 = d.phase)).map fun r =>
        (localKey d.core r.2.toNat, (List.range 16).flatMap fun i => natBytes 8 (d.counters.getD i 0)))).mem ∧
      (t.getCore d.core).wb[d.bar.toNat] = some { m with
        done := max m.done (d.phase + 1)
        values := if d.phase < m.done then m.values else ((d.phase, d.val) :: m.values).take 4
        recs := m.recs.filter (·.1 ≠ d.phase)
        lead := if m.next - m.lead ≤ d.phase ∧ d.phase < m.next then m.lead - 1 else m.lead }) ∧
  (∀ (s : State) (oa : RAB) (o : R3) (bar : Fin 16), s.FullX [o.a, o.b, o.d] → oa.a = o.a → oa.b = o.b → (s.xv o.a).toNat = bar.val →
    let seen := s.sampleCycles s.cur.core 5
    let fresh := fun p => (seen.acquires s.cur (s.wireClock bar p)).acquired s.cur.core
    let illegal := Host.Outcome.next (s.takeSup s.cur 0x10 s.instrWord s.slot.pc)
    let b := (s.xv o.b).toNat
    (s.core.member bar = none → exec (.wbwait oa) s = illegal ∧ exec (.wbtwait o) s = illegal ∧ exec (.wbget o) s = illegal) ∧
    ∀ m, s.core.member bar = some m →
      let wait := Host.Outcome.next (s.setWait { kind := 2, obj := (barBits bar).setWidth 64, ph := s.xv o.b })
      (b < m.done → exec (.wbwait oa) s = .next ((fresh b).advance 4).noteIssued) ∧
      (m.done ≤ b → exec (.wbwait oa) s = wait ∧ exec (.wbget o) s = wait) ∧
      (∀ v, b < m.done → tabGet? m.values b = some v → exec (.wbget o) s = .next ((fresh b).wroteX o.d v 4)) ∧
      (b < m.done → tabGet? m.values b = none → exec (.wbget o) s = .next (s.takeSup s.cur 0x0311 (s.xv o.b) s.slot.pc)) ∧
      ∀ q : Nat, q % 65536 = b % 65536 →
        (∀ q' : Nat, q' % 65536 = b % 65536 → q' = q ∨ ((m.next : Int) - q).natAbs < ((m.next : Int) - q').natAbs ∨
          (((m.next : Int) - q).natAbs = ((m.next : Int) - q').natAbs ∧ q < q')) →
        (q < m.done → exec (.wbtwait o) s = .next ((fresh q).wroteX o.d 1 4)) ∧
        (m.done ≤ q → b < 2 ^ 32 → exec (.wbtwait o) s = .next (seen.wroteX o.d 0 4)) ∧
        (m.done ≤ q → 2 ^ 32 ≤ b → exec (.wbtwait o) s = .next (s.setWait
          { kind := 2, obj := (barBits bar).setWidth 64, ph := BitVec.ofNat 64 q, dest := some o.d }))) ∧
  ∀ (s : State) (o : SlotId) (bar : Fin 16) (p : Word) (d : XReg) (m : WbMember),
    (s.getSlot o).wait = some { kind := 2, obj := (barBits bar).setWidth 64, ph := p, dest := some d } →
    (s.getCore o.core).member bar = some m →
    (p.toNat < m.done → exec (.wbtwaitExpiry o) s = .next s) ∧
    (m.done ≤ p.toNat → exec (.wbtwaitExpiry o) s = .next (((s.sampleCycles o.core 5).onSlot o fun l => l.setX d 0).complete o))

/-- The page tables (R293-R296), the walk cache (R298, R299), the checks of a translated access (R297), and `PAGE_WALK_COMPLETE`
(R298). Which of the entries the walk cache keeps is the model's choice (DESIGN CHOICE, log 46). -/
def Obligations.Translation : Prop :=
  (∀ (s : State) (d : Option Die) (root : Word) (va t2 t3 : Nat), va < 2 ^ 47 → root.toNat % 2048 = 0 → s.isDram root.toNat = true →
    (∀ l, s.cachedTable d root l va = none) →
    s.pointsTo (root.toNat + 8 * (va / 2 ^ 39)) t2 4096 → s.pointsTo (t2 + 8 * (va / 2 ^ 30 % 512)) t3 4096 →
    (∀ e, s.leafAt (t3 + 8 * (va / 2 ^ 21 % 512)) (2 ^ 21) va e →
      ∃ es, s.walk d root va = .ok ({ va := va / 2 ^ 21 * 2 ^ 21, size := 2 ^ 21, leaf := e }, es) ∧ es.map (·.next) = [t3, t2]) ∧
    ∀ t4 e, s.pointsTo (t3 + 8 * (va / 2 ^ 21 % 512)) t4 256 → s.leafAt (t4 + 8 * (va / 65536 % 32)) 65536 va e →
      ∃ es, s.walk d root va = .ok ({ va := va / 65536 * 65536, size := 65536, leaf := e }, es) ∧ es.map (·.next) = [t4, t3, t2]) ∧
  (∀ (s : State) (d : Option Die) (root : Word) (va t : Nat), va < 2 ^ 47 → root.toNat % 2048 = 0 → s.isDram root.toNat = true →
    (∀ e, s.cachedTable d root 3 va = some t → s.leafAt (t + 8 * (va / 65536 % 32)) 65536 va e →
      s.walk d root va = .ok ({ va := va / 65536 * 65536, size := 65536, leaf := e }, [])) ∧
    ∀ e t4, s.cachedTable d root 3 va = none → s.cachedTable d root 2 va = some t →
      (s.leafAt (t + 8 * (va / 2 ^ 21 % 512)) (2 ^ 21) va e →
        s.walk d root va = .ok ({ va := va / 2 ^ 21 * 2 ^ 21, size := 2 ^ 21, leaf := e }, [])) ∧
      (s.pointsTo (t + 8 * (va / 2 ^ 21 % 512)) t4 256 → s.leafAt (t4 + 8 * (va / 65536 % 32)) 65536 va e →
        ∃ p, s.walk d root va = .ok ({ va := va / 65536 * 65536, size := 65536, leaf := e }, [p]) ∧ p.next = t4)) ∧
  (∀ (s : State) (d : Option Die) (root : Word) (va : Nat), va < 2 ^ 47 →
    (root.toNat % 2048 ≠ 0 ∨ s.isDram root.toNat = false → s.walk d root va = .error .absent) ∧
    (root.toNat % 2048 = 0 → s.isDram root.toNat = true → (∀ l, s.cachedTable d root l va = none) →
      let pa := root.toNat + 8 * (va / 2 ^ 39)
      (s.poisonAt pa 8 ≠ none → s.walk d root va = .error .poison) ∧
      (s.poisonAt pa 8 = none → (s.rd pa 8 % 2 = 0 ∨ s.rd pa 8 / 2 % 2 = 1) → s.walk d root va = .error .absent))) ∧
  (∀ (s : State) (ea : Word) (va : Nat) (p : Perm),
    (∀ e, s.core.tlbFind va = some e → (e.size = 65536 ∨ (e.size = 2 ^ 21 ∧ e.leaf.extractLsb' 16 5 = 0)) →
      let pa := (e.leaf.extractLsb' 16 32).toNat * 65536 + va % e.size
      let mine := e.leaf.extractLsb' 48 12 = s.core.tenant
      let may := match p with
        | .r => e.leaf.getLsbD 2 = true
        | .w => e.leaf.getLsbD 3 = true
        | .rw => e.leaf.getLsbD 2 = true ∧ e.leaf.getLsbD 3 = true
        | .vc => e.leaf.getLsbD 2 = true ∧ e.leaf.getLsbD 5 = true
        | .x => e.leaf.getLsbD 2 = true ∧ e.leaf.getLsbD 4 = true
      s.paCheck s.core.tenant pa = none →
      (mine → may → s.translate ea va p =
        .ok (s.modCore (fun c => { c with tlb := (e :: c.tlb.filter (· ≠ e)).take 64 }), s.paKey pa, e.leaf)) ∧
      (¬mine → s.translate ea va p = .error (.sup 0x0811 ea)) ∧
      (mine → ¬may → s.translate ea va p = .error (.sup 0x0711 ea))) ∧
    (s.core.tlbFind va = none →
      (s.walk (some (dieOf s.cur.core)) s.core.ptroot va = .error .absent → s.translate ea va p = .error (.walked 0x0611 ea)) ∧
      (s.walk (some (dieOf s.cur.core)) s.core.ptroot va = .error .poison →
        s.translate ea va p = .error (.walked 0x0012 (BitVec.ofNat 64 va))) ∧
      (∀ r, s.walk (some (dieOf s.cur.core)) s.core.ptroot va = .ok r →
        ∃ t, s.translate ea va p = .error (.wait t { kind := 6, obj := s.slot.pc.setWidth 64, ph := 0 }) ∧ t.slot = s.slot ∧
          ((∀ w ∈ s.walks, w.core ≠ s.cur.core) →
            t.walks = s.walks ++ [{ id := s.nextId, core := s.cur.core, va := va }]) ∧
          (4 ≤ (s.walks.filter fun w => decide (w.core = s.cur.core)).length → t.walks = s.walks) ∧
          ((∃ w ∈ s.walks, w.core = s.cur.core ∧ w.va / r.1.size = va / r.1.size) → t.walks = s.walks)))) ∧
  (∀ (s : State) (sc : BitVec 16) (a : Word),
    finish s (.error (.walked sc a)) = .next ((s.sampleCycles s.cur.core 11).takeSup s.cur sc a s.slot.pc)) ∧
  (∀ (s : State) (pa : Nat), (pa / 2 ^ 46 % 4 ≠ 2 → s.paKey pa = pa) ∧
    (pa / 2 ^ 46 % 4 = 2 → ∀ e, tabGet? s.bar0.peerwin (BitVec.ofNat 8 (pa / 2 ^ 38 % 256)) = some e →
      s.paKey pa = peerKey (e.extractLsb' 32 16) ((e.extractLsb' 64 32).toNat * 65536 + pa % 2 ^ 38))) ∧
  (∀ (s : State) (k : Nat) (bs : List Byte) (d : Die) (es : List WalkEntry) (e : WalkEntry), bs ≠ [] →
    tabGet? (s.wrPieces [(k, bs)]).walkCache d = some es → e ∈ es →
    ¬(k / 64 ≤ e.at_ / 64 ∧ e.at_ / 64 ≤ (k + bs.length - 1) / 64) ∧ ∃ old, tabGet? s.walkCache d = some old ∧ e ∈ old) ∧
  ∀ (s : State) (n : Nat) (w : Walk), s.walks.find? (·.id = n) = some w →
    let mine := s.walks.filter fun v => decide (dieOf v.core = dieOf w.core)
    (w ∉ mine.take 16 → exec (.pageWalkComplete n) s = .next s) ∧
    (w ∈ mine.take 16 →
      (∀ e es, s.walk (some (dieOf w.core)) (s.getCore w.core).ptroot w.va = .ok (e, es) →
        ∃ t, exec (.pageWalkComplete n) s = .next t ∧ t.mem = s.mem ∧ t.walks = s.walks.filter (·.id ≠ n) ∧
          (t.getCore w.core).tlb = (e :: (s.getCore w.core).tlb.filter (· ≠ e)).take 64 ∧
          (t.getCore w.core).slots = (s.getCore w.core).slots ∧
          let old := (tabGet? s.walkCache (dieOf w.core)).getD []
          (es ≠ [] → tabGet? t.walkCache (dieOf w.core) = some ((es ++ old.filter fun x => !es.contains x).take 128)) ∧
          (es = [] → t.walkCache = s.walkCache)) ∧
      ∀ f, s.walk (some (dieOf w.core)) (s.getCore w.core).ptroot w.va = .error f →
        ∃ t, exec (.pageWalkComplete n) s = .next t ∧ t.mem = s.mem ∧ t.walks = s.walks.filter (·.id ≠ n) ∧
          (t.getCore w.core).tlb = (s.getCore w.core).tlb ∧ t.walkCache = s.walkCache)

/-- `STORE_ACKNOWLEDGEMENT` (R127, R133), `EN_PASSANT_MERGE`, `MERGED_REPLY_SPLIT` (R366, R367), `SYNELM_FRAME_ARRIVAL` (R376-R378)
and `PEER_INCARNATION_CHANGE` (R379). The model's choices: which ranges a host has granted to a peer, and the port that a frame takes, are free
values (DESIGN CHOICE, log 14); a red from a peer that meets poison is acknowledged and reported (DESIGN CHOICE, log 42); a frame for each
piece or line, and the window that it names (DESIGN CHOICE, log 45). -/
def Obligations.RoutingAndPeers : Prop :=
  (∀ (s : State) (n : Nat) (r : Req), s.reqs.find? (·.id = n) = some r → r.acked = true → r.applied = true →
    r.peers = [] → s.splitPending n = false →
    ∃ t, exec (.storeAcknowledgement n) s = .next t ∧ t.mem = s.mem ∧ t.reqs = s.reqs.filter (·.id ≠ n) ∧
      (∀ o, t.getSlot o = s.getSlot o) ∧
      (∀ d es e, tabGet? t.walkCache d = some es → e ∈ es → ∀ p ∈ r.writes,
        ¬(p.key / 64 ≤ e.at_ / 64 ∧ e.at_ / 64 ≤ (p.key + p.len - 1) / 64)) ∧
      (∀ c, c ≠ r.core → t.getCore c = s.getCore c) ∧
      ((∀ ps rel, r.op = .store ps rel → t.getCore r.core = s.getCore r.core) ∧
        ∀ k v j, r.op = .jst k v j → t.getCore r.core = s.getCore r.core) ∧
      (∀ k, (r.op = .cbarrive k ∨ ∃ d, r.op = .cbexpect k d) → t.getCore r.core = (s.sampleMany r.core 14).getCore r.core) ∧
      (∀ p fn b, r.op = .red p fn b → t.getCore r.core = (s.getCore r.core).countEvents (flagEvents r.fpEvents))) ∧
  (∀ (fn : AmoFn) (n v a b : Nat), amoMerges fn = true → n = 4 ∨ n = 8 → v < 2 ^ (8 * n) → a < 2 ^ (8 * n) → b < 2 ^ (8 * n) →
    (amoApply fn n v (amoApply fn n a b).1).1 = (amoApply fn n (amoApply fn n v a).1 b).1 ∧ (amoApply fn n a b).1 < 2 ^ (8 * n)) ∧
  (∀ (s : State) (a : MergeArg) (r q : Req) (p : Piece) (fn : AmoFn) (x y dx dy : Word) (rx ry : XReg),
    s.reqs.find? (·.id = a.first) = some r → s.reqs.find? (·.id = a.second) = some q → a.first ≠ a.second →
    r.op = .amo p fn x dx 0 rx → q.op = .amo p fn y dy 0 ry →
    (amoMerges fn = false → exec (.enPassantMerge a) s = .next s) ∧
    (amoMerges fn = true → s.homeReady r = true → s.homeReady q = true → homeRouter p.key a.router = false →
      peerOf p.key = none → (s.splits.filter fun e => e.router = a.router).length < 16 →
      ∃ t, exec (.enPassantMerge a) s = .next t ∧ t.mem = s.mem ∧
        t.splits = s.splits ++ [{ id := s.nextId, router := a.router, first := a.first, second := a.second, fn := fn, a1 := x }] ∧
        t.reqs = s.reqs.map fun z =>
          if z.id = a.first then
            { r with op := .amo p fn (BitVec.ofNat 64 (amoApply fn p.len (x.toNat % 2 ^ (8 * p.len)) y.toNat).1) dx 0 rx }
          else if z.id = a.second then { q with merged := some a.first } else z)) ∧
  (∀ (s : State) (a : MergeArg) (r q : Req) (p : Piece) (fn : AmoFn) (x y : Word), s.reqs.find? (·.id = a.first) = some r →
    s.reqs.find? (·.id = a.second) = some q → a.first ≠ a.second → r.op = .red p fn x →
    (∀ p' fn', q.op = .red p' fn' y → (p' ≠ p ∨ fn' ≠ fn ∨ amoMerges fn = false) → exec (.enPassantMerge a) s = .next s) ∧
    (∀ p' fn' d o rx, q.op = .amo p' fn' y d o rx → exec (.enPassantMerge a) s = .next s) ∧
    (q.op = .red p fn y → amoMerges fn = true → s.homeReady r = true → s.homeReady q = true → homeRouter p.key a.router = false →
      peerOf p.key = none → (s.splits.filter fun e => e.router = a.router).length < 16 →
      ∃ t, exec (.enPassantMerge a) s = .next t ∧ t.mem = s.mem ∧
        t.splits = s.splits ++ [{ id := s.nextId, router := a.router, first := a.first, second := a.second, fn := fn, a1 := x }] ∧
        t.reqs = s.reqs.map fun z =>
          if z.id = a.first then
            { r with op := .red p fn (BitVec.ofNat 64 (amoApply fn p.len (x.toNat % 2 ^ (8 * p.len)) y.toNat).1) }
          else if z.id = a.second then { q with merged := some a.first } else z)) ∧
  (∀ (s : State) (a : MergeArg) (r q : Req) (p p' : Piece) (fn fn' : AmoFn) (x y dx dy : Word) (o o' : BitVec 2) (rx ry : XReg),
    s.reqs.find? (·.id = a.first) = some r → s.reqs.find? (·.id = a.second) = some q → r.op = .amo p fn x dx o rx →
    q.op = .amo p' fn' y dy o' ry → (o ≠ 0 ∨ o' ≠ 0 ∨ p ≠ p' ∨ fn ≠ fn') → exec (.enPassantMerge a) s = .next s) ∧
  (∀ (s : State) (n : Nat) (e : Split) (r q : Req) (p : Piece) (y : Word), s.splits.find? (·.id = n) = some e →
    s.reqs.find? (·.id = e.first) = some r → s.reqs.find? (·.id = e.second) = some q → q.op = .red p e.fn y →
    amoMerges e.fn = true →
    (r.applied = false → exec (.mergedReplySplit n) s = .next s) ∧
    (r.applied = true → r.res = .none →
      ∃ t, exec (.mergedReplySplit n) s = .next t ∧ t.mem = s.mem ∧ t.splits = s.splits.filter (·.id ≠ n) ∧
        t.reqs = s.reqs.map fun z => if z.id = e.second then { q with applied := true, merged := none, res := .none } else z)) ∧
  (∀ (s : State) (n : Nat) (e : Split) (r q : Req) (p : Piece) (y dy v : Word) (ry : XReg), s.splits.find? (·.id = n) = some e →
    s.reqs.find? (·.id = e.first) = some r → s.reqs.find? (·.id = e.second) = some q → q.op = .amo p e.fn y dy 0 ry →
    amoMerges e.fn = true →
    (r.applied = false → exec (.mergedReplySplit n) s = .next s) ∧
    (r.applied = true → r.res = .word v false →
      ∃ t, exec (.mergedReplySplit n) s = .next t ∧ t.mem = s.mem ∧ t.splits = s.splits.filter (·.id ≠ n) ∧
        t.reqs = s.reqs.map fun z =>
          if z.id = e.second then
            { q with applied := true, merged := none,
                     res := .word (extendOld p.len (amoApply e.fn p.len (v.toNat % 2 ^ (8 * p.len)) e.a1.toNat).1) false } else z)) ∧
  (∀ (s : State) (f : SynelmFrame),
    (s.windowOn f.window = false ∨ f.sender ≠ s.windowPeer f.window → exec (.synelmFrameArrival f) s = .next s) ∧
    (s.windowOn f.window = true → f.sender = s.windowPeer f.window → f.inc ≠ s.windowInc f.window →
      ∃ t, exec (.synelmFrameArrival f) s = .next t ∧ t.mem = s.mem ∧ t.reqs = s.reqs ∧ t.peerFrames = s.peerFrames ∧
        (∀ pa bs, f.body = .write pa bs → t.errors.length = s.errors.length + 1) ∧
        ∀ n c, f.body = .reply n ∨ f.body = .refusal n →
          (∃ q ∈ s.peerFrames, q.req = some n ∧ s.windowPeer q.frame.window = s.windowPeer f.window ∧ q.core = some c ∧
            s.peerFrames.find? (fun q => decide (q.req = some n) && decide (s.windowPeer q.frame.window = s.windowPeer f.window)) = some q) ∨
          ((∀ q ∈ s.peerFrames, q.req ≠ some n) ∧ ∃ r, s.answered f.window n = some r ∧ r.core = c) →
          (t.getCore c).xcnt[15] = BitVec.ofNat 32 (min ((s.getCore c).xcnt[15].toNat + 1) 0xFFFF_FFFF)) ∧
    (s.windowOn f.window = true → f.sender = s.windowPeer f.window → f.inc = s.windowInc f.window →
      let sent := fun (t : State) (b : FrameBody) => ∃ q, t.peerFrames = s.peerFrames ++ [q] ∧
        q.frame = { window := f.window, sender := s.bar0.modid, inc := s.bar0.inc, body := b }
      (∀ pa n, f.body = .read pa n → s.serves pa n = true →
        ∃ t, exec (.synelmFrameArrival f) s = .next t ∧ t.mem = s.mem ∧ 
          sent t (.data (memReads s.mem pa.toNat n) (s.poisonAt pa.toNat n).isSome)) ∧
      (∀ pa wide fn b x, f.body = .amo pa wide fn b x → s.serves pa (atomicBytes wide) = true →
        s.poisonAt pa.toNat (atomicBytes wide) = none →
        let n := atomicBytes wide
        let old := s.rd pa.toNat n
        ∃ t, exec (.synelmFrameArrival f) s = .next t ∧ sent t (.data (natBytes n old) false) ∧
          t.mem = (if fn = .cas ∧ old ≠ x.toNat % 2 ^ (8 * n) then s else s.wr pa.toNat n (amoApply fn n old b.toNat).1).mem) ∧
      (∀ pa wide fn b, f.body = .red pa wide fn b → fn ≠ .cas → s.serves pa (atomicBytes wide) = true →
        let n := atomicBytes wide
        ∃ t, exec (.synelmFrameArrival f) s = .next t ∧ sent t .ack ∧
          (s.poisonAt pa.toNat n = none → t.mem = (s.wr pa.toNat n (amoApply fn n (s.rd pa.toNat n) b.toNat).1).mem ∧
            t.errors = s.errors) ∧
          (s.poisonAt pa.toNat n ≠ none → t.mem = s.mem ∧ ∃ e, t.errors = s.errors ++ [e] ∧ e.kind = 3)) ∧
      (∀ pa n, f.body = .read pa n → s.serves pa n = false →
        ∃ t, exec (.synelmFrameArrival f) s = .next t ∧ t.mem = s.mem ∧ sent t (.refused pa) ∧
          t.errors.length = s.errors.length + 1) ∧
      (∀ pa bs, f.body = .write pa bs → s.serves pa bs.length = true →
        ∃ t, exec (.synelmFrameArrival f) s = .next t ∧ t.mem = (s.wrPieces [(pa.toNat, bs)]).mem ∧ sent t .ack) ∧
      (∀ n r p sg d w, f.body = .reply n → s.answered f.window n = some r → r.op = .load p .raw sg d → r.applied = true →
        r.res = .word w false → s.alive r = true → r.peers = [f.sender] →
        ∃ t, exec (.synelmFrameArrival f) s = .next t ∧ t.mem = s.mem ∧ t.reqs = s.reqs.filter (·.id ≠ r.id) ∧
          t.getSlot r.slotId = { ((s.getSlot r.slotId).setX d w).markX d true with
            heard := (s.getSlot r.slotId).heard ++ r.met.filter fun x => !(s.getSlot r.slotId).heard.contains x }) ∧
      (∀ n r, f.body = .reply n → s.answered f.window n = some r → r.applied = true → r.peers.erase f.sender ≠ [] →
        exec (.synelmFrameArrival f) s = .next
          { s with reqs := s.reqs.map fun q => if q.id = r.id then { r with peers := r.peers.erase f.sender } else q }) ∧
      (∀ n r, f.body = .refusal n → s.answered f.window n = some r → r.applied = false →
        ∃ u e, exec (.synelmFrameArrival f) s = exec (.peerIncarnationChange f.sender) u ∧ u.mem = s.mem ∧ u.reqs = s.reqs ∧
          u.cores = s.cores ∧ u.errors = s.errors ++ [e] ∧ e.kind = 10 ∧ e.core = r.core) ∧
      (∀ n r p sg d, f.body = .refusal n → s.answered f.window n = some r → r.op = .load p .raw sg d → r.applied = false →
        s.alive r = true → (s.reqs.filter fun q => s.awaits q f.sender) = [r] →
        ∃ t e, exec (.synelmFrameArrival f) s = .next t ∧ t.mem = s.mem ∧ t.reqs = s.reqs.filter (·.id ≠ r.id) ∧
          t.errors = s.errors ++ [e] ∧ e.kind = 10 ∧ e.core = r.core ∧
          t.getSlot r.slotId = { ((s.getSlot r.slotId).setX d 0).markX d true with
            asyncs := (s.getSlot r.slotId).asyncs ++ [{ scause := 0x0012, val := r.ea, engine := none }] }))) ∧
  (∀ (s : State) (n : Nat) (r : Req) (p : Piece) (win : Window) (sg : Bool) (d : XReg) (m : BitVec 16),
    s.reqs.find? (·.id = n) = some r → s.homeReady r = true → r.op = .load p win sg d → peerOf p.key = some m →
    let k := p.key / 64 * 64
    ∃ t, exec (.homeAccess n) s = .next t ∧
      (((s.getCore r.core).rlb.find? (·.key = k)).isSome = true → t.peerFrames = s.peerFrames) ∧
      (((s.getCore r.core).rlb.find? (·.key = k)) = none → t.peerFrames = s.peerFrames ++
        [{ port := s.synelmPort (peerPa k), core := some r.core, req := some n,
           frame := { window := s.windowTo m (peerPa k), sender := s.bar0.modid, inc := s.bar0.inc,
                      body := .read (BitVec.ofNat 48 (peerPa k)) 64 } }])) ∧
  (∀ (s : State) (n : Nat) (r : Req) (ps : List (Nat × List Byte)) (rel : Option (BitVec 3)),
    s.reqs.find? (·.id = n) = some r → s.homeReady r = true → r.op = .store ps rel → (∀ p ∈ ps, (peerOf p.1).isSome = true) →
    ∃ t fs, exec (.homeAccess n) s = .next t ∧ t.peerFrames = s.peerFrames ++ fs ∧
      fs.map (·.frame.body) = ps.map (fun p => .write (BitVec.ofNat 48 (peerPa p.1)) p.2) ∧
      fs.map (·.port) = ps.map (fun p => s.synelmPort (peerPa p.1)) ∧
      ∀ q ∈ fs, q.req = some n ∧ q.core = some r.core ∧ q.frame.sender = s.bar0.modid ∧ q.frame.inc = s.bar0.inc) ∧
  ∀ (s : State) (peer : BitVec 16),
    let out := s.reqs.filter fun r => s.awaits r peer
    (∀ r, r.applied = true → s.awaits r peer = r.peers.contains peer) ∧
    (∀ r ps rel, r.applied = false → r.op = .store ps rel → (s.awaits r peer = true ↔ ∃ p ∈ ps, peerOf p.1 = some peer)) ∧
    (∀ r p win sg d, r.applied = false → r.op = .load p win sg d →
      (s.awaits r peer = true ↔ peerOf p.key = some peer ∧ (s.getCore r.core).rlb.find? (·.key = p.key / 64 * 64) = none)) ∧
    (out = [] → exec (.peerIncarnationChange peer) s = .next s) ∧
    (∀ r p win sg d, out = [r] → r.op = .load p win sg d → s.alive r = true →
      ∃ t, exec (.peerIncarnationChange peer) s = .next t ∧ t.mem = s.mem ∧ t.reqs = s.reqs.filter (·.id ≠ r.id) ∧
        t.getSlot r.slotId = { ((s.getSlot r.slotId).setX d 0).markX d true with
          asyncs := (s.getSlot r.slotId).asyncs ++ [{ scause := 0x0012, val := r.ea, engine := none }] }) ∧
    (∀ r p sc d, out = [r] → r.op = .acq p sc d → s.alive r = true → (s.getSlot r.slotId).mode = .user →
      isCode (s.getCore r.core).svec.toNat →
      ∃ t, exec (.peerIncarnationChange peer) s = .next t ∧ t.mem = s.mem ∧ t.reqs = s.reqs.filter (·.id ≠ r.id) ∧
        (t.getSlot r.slotId).scause = 0x0611 ∧ (t.getSlot r.slotId).sval = r.ea ∧
        (t.getSlot r.slotId).sepc = (s.getSlot r.slotId).pc ∧ (t.getSlot r.slotId).x = (s.getSlot r.slotId).x) ∧
    (∀ r ps rel, out = [r] → r.op = .store ps rel → (r.applied = true → r.peers = [peer]) →
      (r.applied = false → ∀ p ∈ ps, peerOf p.1 = some peer) →
      ∃ t, exec (.peerIncarnationChange peer) s = .next t ∧ t.mem = s.mem ∧ t.reqs = s.reqs.filter (·.id ≠ r.id) ∧
        t.errors.length = s.errors.length + 1 ∧ ∀ o, t.getSlot o = s.getSlot o)

/-- The task instructions (R197-R214). The model's readings: the eighth argument of `callat` is slot times 32 plus the register (DEDUCED, log 27);
the BLOCK of a header comes before its poison (DEDUCED, log 30), and the faults of the message before those of the core that the task is sent
to (DEDUCED, log 50). The clocks that a message carries are the model's own (DESIGN CHOICE, log 60). -/
def Obligations.TaskSends : Prop :=
  (∀ (s : State) (addr : Word),
    let key := localKey s.cur.core addr.toNat
    let hdr := (s.rd64 key).toNat
    let narg := hdr / 2 ^ 20 % 16
    (addr.toNat % 8 = 0 → addr.toNat + 64 ≤ 0x60000 → s.reqsOf s.cur = [] → s.poisonAt key 64 = none →
      (hdr < 2 ^ 25 → narg ≤ 8 → ∃ args : Vector Word 8, readMessage s addr = .ok (hdr, args) ∧ ∀ i : Fin 8,
        args[i] = if narg ≤ i.val then 0 else if i.val < 6 then s.rd64 (key + 8 + 8 * i.val)
          else BitVec.ofNat 64 (s.rd (key + 56 + 4 * (i.val - 6)) 4)) ∧
      (2 ^ 25 ≤ hdr ∨ 8 < narg → readMessage s addr = .error (.sup 0x0D11 addr))) ∧
    (addr.toNat % 8 = 0 → addr.toNat + 64 ≤ 0x60000 → (∀ r ∈ s.reqsOf s.cur, r.applied = true ∨ r.isStore = true) →
      s.ctxPoison s.cur key 64 = none →
      let own := leNat (s.ctxRead s.cur key 8)
      own < 2 ^ 25 → own / 2 ^ 20 % 16 ≤ 8 → ∃ args : Vector Word 8, readMessage s addr = .ok (own, args) ∧ ∀ i : Fin 6,
        args[i] = BitVec.ofNat 64 (if own / 2 ^ 20 % 16 ≤ i.val then 0 else leNat (s.ctxRead s.cur (key + 8 + 8 * i.val) 8))) ∧
    (addr.toNat % 8 = 0 → addr.toNat + 8 ≤ 0x60000 → s.reqsOf s.cur = [] → (2 ^ 25 ≤ hdr ∨ 7 < narg) →
      readMessage s addr 7 = .error (.sup 0x0D11 addr)) ∧
    (addr.toNat % 8 ≠ 0 → addr.toNat + 64 ≤ 0x60000 → readMessage s addr = .error (.sup 0x0511 addr)) ∧
    (∀ va, s.target s.cur.core addr 8 = .ok (.virt va) → readMessage s addr = .error (.sup 0x0C11 addr)) ∧
    ∀ c w off, s.target s.cur.core addr 8 = .ok (.loc c w off) → c ≠ s.cur.core ∨ w ≠ 0 →
      readMessage s addr = .error (.sup 0x0C11 addr)) ∧
  (∀ (s : State) (o : SpawnOp) (c : CallatOp) (hdr : Nat) (args : Vector Word 8), s.FullX [o.a, o.b, c.d] → c.a = o.a → c.b = o.b →
    c.rel = o.rel → readMessage s (s.xv o.b) = .ok (hdr, args) →
    let a := s.xv o.a
    let dst : CoreId := a.setWidth 18
    let flag := if o.rel then 1 else 0
    let call := s.taskOf hdr (args.set 7 (BitVec.ofNat 64 (s.cur.slot.toNat * 32 + c.d.toNat))) (2 + flag) s.slot.gen true
    let sup := fun (k : BitVec 16) (v : Word) => Host.Outcome.next (s.takeSup s.cur k v s.slot.pc)
    (2 ^ 18 ≤ a.toNat → exec (.spawn o) s = sup 0x0211 a ∧ (hdr / 2 ^ 20 % 16 ≠ 8 → exec (.callat c) s = sup 0x0211 a)) ∧
    (a.toNat < 2 ^ 18 → s.fenced (dieOf dst) = true →
      exec (.spawn o) s = sup 0x0611 a ∧ (hdr / 2 ^ 20 % 16 ≠ 8 → exec (.callat c) s = sup 0x0611 a)) ∧
    (a.toNat < 2 ^ 18 → s.fenced (dieOf dst) = false → o.rel = true → s.released s.cur = false →
      let w := Host.Outcome.next (s.setWait { kind := 6, obj := s.slot.pc.setWidth 64, ph := 0 })
      exec (.spawn o) s = w ∧ (hdr / 2 ^ 20 % 16 ≠ 8 → exec (.callat c) s = w)) ∧
    (hdr / 2 ^ 20 % 16 = 8 → exec (.callat c) s = sup 0x0D11 (s.xv o.b)) ∧
    (a.toNat < 2 ^ 18 → s.fenced (dieOf dst) = false → (o.rel = true → s.released s.cur = true) →
      (s.slot.spawns < max s.slot.spnlim.toNat 1 →
        (exec (.spawn o) s = .next
          (((s.sendTask (.core dst) (s.taskOf hdr args flag 0 true) none).countSpawn).advance 4).noteIssued) ∧
        (hdr / 2 ^ 20 % 16 ≠ 8 → ∃ t, exec (.callat c) s = .next t ∧ t.mem = s.mem ∧
          t.tmsgs = s.tmsgs ++ [{ id := s.nextId, dst := .core dst, held := call, initial := none, refused := false }] ∧
          t.slot = { s.slot.markX c.d false with
            pc := s.slot.pc + 4, issued := s.slot.issued + 1, spawns := s.slot.spawns + 1,
            callp := if c.d = 0 then s.slot.callp else setBit s.slot.callp c.d.toNat true,
            callp0 := if c.d = 0 then s.slot.callp0 + 1 else s.slot.callp0 })) ∧
      (max s.slot.spnlim.toNat 1 ≤ s.slot.spawns →
        let w := Host.Outcome.next (s.setWait { kind := 7, obj := s.slot.pc.setWidth 64, ph := BitVec.ofNat 64 s.slot.spawns })
        exec (.spawn o) s = w ∧ (hdr / 2 ^ 20 % 16 ≠ 8 → exec (.callat c) s = w)))) ∧
  (∀ (s : State) (o : Send1Op) (r : Nat × Vector Word 8), s.FullX [o.a] → readMessage s (s.xv o.a) = .ok r →
    (o.rel = true → s.released s.cur = false →
      exec (.spawnd o) s = .next (s.setWait { kind := 6, obj := s.slot.pc.setWidth 64, ph := 0 }) ∧
      (r.1 % 4 = 0 → s.core.hbase.toNat ≤ r.1 % 2 ^ 20 → r.1 % 2 ^ 20 < s.core.hlim.toNat →
        exec (.fork o) s = .next (s.setWait { kind := 6, obj := s.slot.pc.setWidth 64, ph := 0 }))) ∧
    ((o.rel = true → s.released s.cur = true) → max s.slot.spnlim.toNat 1 ≤ s.slot.spawns → exec (.spawnd o) s =
      .next (s.setWait { kind := 7, obj := s.slot.pc.setWidth 64, ph := BitVec.ofNat 64 s.slot.spawns }))) ∧
  (∀ (s : State) (o : Send1Op) (hdr : Nat) (args : Vector Word 8), s.FullX [o.a] → readMessage s (s.xv o.a) = .ok (hdr, args) →
    (o.rel = true → s.released s.cur = true) →
    let flag := if o.rel then 1 else 0
    let n := hdr % 2 ^ 20
    (s.slot.spawns < max s.slot.spnlim.toNat 1 → exec (.spawnd o) s = .next
      (((s.sendTask (.cox (dieOf s.cur.core)) (s.taskOf hdr args (0x40 + flag) 0 true) none).countSpawn).advance 4).noteIssued) ∧
    (n % 4 ≠ 0 ∨ n < s.core.hbase.toNat ∨ s.core.hlim.toNat ≤ n →
      exec (.fork o) s = .next (s.takeSup s.cur 0x13 (BitVec.ofNat 64 n) s.slot.pc)) ∧
    (n % 4 = 0 → s.core.hbase.toNat ≤ n → n < s.core.hlim.toNat →
      let h := s.taskOf hdr args (0x08 + flag) 0 false
      (s.core.forks.length < 16 →
        exec (.fork o) s = .next ((s.modCore fun k => { k with forks := k.forks ++ [h] }).advance 4).noteIssued) ∧
      (16 ≤ s.core.forks.length → exec (.fork o) s = .next ((s.sendTask (.core s.cur.core) h none).advance 4).noteIssued))) ∧
  (∀ (s : State) (o : ReplyOp), s.FullX [o.a, o.b] →
    let a := s.xv o.a
    (2 ^ 48 ≤ a.toNat ∨ a.toNat / 2 ^ 27 % 32 ≠ 0 → exec (.reply o) s = .next (s.takeSup s.cur 0x0D11 a s.slot.pc)) ∧
    (a.toNat < 2 ^ 48 → a.toNat / 2 ^ 27 % 32 = 0 → s.fenced (dieOf (a.setWidth 18)) = true →
      exec (.reply o) s = .next (s.takeSup s.cur 0x0611 a s.slot.pc)) ∧
    (a.toNat < 2 ^ 48 → a.toNat / 2 ^ 27 % 32 = 0 → s.fenced (dieOf (a.setWidth 18)) = false → s.released s.cur = false →
      exec (.reply o) s = .next (s.setWait { kind := 6, obj := s.slot.pc.setWidth 64, ph := 0 })) ∧
    (a.toNat < 2 ^ 48 → a.toNat / 2 ^ 27 % 32 = 0 → s.fenced (dieOf (a.setWidth 18)) = false → s.released s.cur = true →
      ∃ t, exec (.reply o) s = .next t ∧ t.mem = s.mem ∧ t.slot = { s.slot with pc := s.slot.pc + 4, issued := s.slot.issued + 1 } ∧
        t.replies = s.replies ++
          [{ id := s.nextId, token := a, val := s.xv o.b, launch := s.core.launch, sender := s.cur.core, clk := s.relClock }])) ∧
  (∀ (s : State) (o : TaskEndOp),
    (s.released s.cur = true →
      exec (.trigger o) s = .next ((s.modSlot fun l => { l with triggered := true }).advance 4).noteIssued) ∧
    (s.released s.cur = false → exec (.trigger o) s = .next (s.setWait { kind := 6, obj := s.slot.pc.setWidth 64, ph := 0 })) ∧
    (s.core.ownsWork s.cur.slot = true →
      exec (.done o) s = .next (s.setWait { kind := 8, obj := s.slot.pc.setWidth 64, ph := 0 })) ∧
    (s.core.ownsWork s.cur.slot = false → s.slot.triggered = false → s.released s.cur = false →
      exec (.done o) s = .next (s.setWait { kind := 6, obj := s.slot.pc.setWidth 64, ph := 0 })) ∧
    (s.core.ownsWork s.cur.slot = false → (s.released s.cur = true ∨ s.slot.triggered = true) → s.pushPending s.cur = false →
      exec (.done o) s = .next (s.endTask s.cur).noteIssued)) ∧
  (∀ (s : State) (o : SpawnOp), s.FullX [o.a, o.b] →
    (2 ^ 20 ≤ (s.xv o.b).toNat → exec (.migrate o) s = .next (s.takeSup s.cur 0x0D11 (s.xv o.b) s.slot.pc)) ∧
    ((s.xv o.b).toNat < 2 ^ 20 → 2 ^ 18 ≤ (s.xv o.a).toNat →
      exec (.migrate o) s = .next (s.takeSup s.cur 0x0211 (s.xv o.a) s.slot.pc))) ∧
  (∀ (s : State) (o : SpawnOp), s.FullX [o.a, o.b] → (∀ n : XReg, 1 ≤ n.toNat → n.toNat ≤ 8 → s.slot.xIsFull n = true) →
    s.core.ownsWork s.cur.slot = false → s.released s.cur = true → s.pushPending s.cur = false → (s.xv o.b).toNat < 2 ^ 20 →
    (s.xv o.a).toNat < 2 ^ 18 → s.fenced (dieOf ((s.xv o.a).setWidth 18)) = false →
    ∃ args : Vector Word 8, exec (.migrate o) s = .next ((s.sendTask (.core ((s.xv o.a).setWidth 18))
        (s.taskOf (s.xv o.b).toNat args (4 + if o.rel then 1 else 0) 0 false) none).endTask s.cur).noteIssued ∧
      (∀ i : Fin 6, args[i] = s.slot.x[i.val + 1]) ∧ args[6] = (s.slot.x[7].setWidth 32).setWidth 64 ∧
      args[7] = (s.slot.x[8].setWidth 32).setWidth 64) ∧
  ∀ (s : State) (o : SlotId),
    let l := s.getSlot o
    let t := s.endTask o
    t.mem = s.mem ∧ (∀ q, q ≠ o → t.getSlot q = s.getSlot q) ∧
    t.getSlot o = { l with
      st := .free, mode := .user, intrap := false, gen := l.gen + 1, cdq := [], sm := 0, sd := 0, asyncs := [], wait := none,
      joinAns := none, callp := 0, callp0 := 0, spawns := 0, triggered := true, streams := Vector.replicate 4 StreamCfg.off, prefetched := [] } ∧
    (t.getCore o.core).xcnt[14] = BitVec.ofNat 32 (min ((s.getCore o.core).xcnt[14].toNat + l.cdq.length) 0xFFFF_FFFF) ∧
    ∀ (bar : Fin 16) (m : WbMember), (t.getCore o.core).wb[bar] = some m → m.joined.getLsbD o.slot.toNat = false

/-- `TASK_MESSAGE_ARRIVAL`, `MESSAGE_RESEND`, `SPAWN_ACKNOWLEDGEMENT`, `BADHANDLER_REPORT`, `TASK_DISPATCH`, `REPLY_ARRIVAL`,
`COX_PLACEMENT` and `COX_STEAL` (R198-R212, R328, R329). HEAD and TAIL of the spill header as counts that do not wrap are the model's reading
(DEDUCED, log 28); how long spilling stays stopped (DESIGN CHOICE, log 64), that poison in an entry or the spill header is not met (DESIGN
CHOICE, log 65), which cores hold a launch (DESIGN CHOICE, log 38) and the one report for each Free slot behind a placement (DESIGN CHOICE, log 29) are its
choices; that a boundary message of a core that has saved itself stays refused is its reading (DEDUCED, log 40); the record of happens-before is
its own (DESIGN CHOICE, log 60). -/
def Obligations.TaskEvents : Prop :=
  (∀ (s : State) (n : Nat) (m : TaskMsg) (c : CoreId), s.tmsgs.find? (·.id = n) = some m → s.taskMayArrive m = true → m.dst = .core c →
    let k := s.getCore c
    let h := m.held.task.handler.toNat
    let good := m.held.launch = k.launch ∧ h % 4 = 0 ∧ k.hbase.toNat ≤ h ∧ h < k.hlim.toNat ∧ h ≤ 0x5FFFC
    let gone := fun (t : State) => t.tmsgs = s.tmsgs.filter (·.id ≠ n)
    let acked := fun (t : State) => t.sacks = s.sacks ++ if m.held.counted then
      [{ id := s.nextId, core := m.held.origin, slot := m.held.slot, gen := m.held.gen }] else []
    (∀ i : SlotNo, good → (k.getSlot i).st = .free → (∀ j : SlotNo, j.toNat < i.toNat → (k.getSlot j).st ≠ .free) →
      k.dispatches = true → k.backlog = false →
      ∃ t, exec (.taskMessageArrival n) s = .next t ∧ t.mem = s.mem ∧ gone t ∧ acked t ∧ (t.getCore c).rlb = [] ∧
        (k.getSlot i).hasStarted ((t.getCore c).getSlot i) s.bar0.modid m.held.task ∧
        ((t.getCore c).getSlot i).clk = k.base.join m.held.task.clk ∧
        ∀ j, j ≠ i → (t.getCore c).getSlot j = k.getSlot j) ∧
    (good → ((∀ i, (k.getSlot i).st ≠ .free) ∨ k.dispatches = false ∨ k.backlog = true) → k.spillTail ≤ k.spillHead →
      k.aqTail - k.aqHead < k.aqDepth.toNat →
      ∃ t, exec (.taskMessageArrival n) s = .next t ∧ gone t ∧ acked t ∧ (t.getCore c).slots = k.slots ∧
        (t.getCore c).aqTail = k.aqTail + 1 ∧ (t.getCore c).markOf (.queued k.aqTail) = m.held.task.clk ∧
        t.mem = (s.wrPieces [(localKey k.id (k.aqBase.toNat + 64 * (k.aqTail % k.aqDepth.toNat)), m.held.task.bytes)]).mem) ∧
    (good → (∀ i, (k.getSlot i).st ≠ .free) → k.aqDepth.toNat ≤ k.aqTail - k.aqHead → k.spillStopped = true →
      ∃ t, exec (.taskMessageArrival n) s = .next t ∧ t.mem = s.mem ∧ t.sacks = s.sacks ∧
        t.tmsgs = s.tmsgs.map fun q => if q.id = n then { q with refused := true } else q) ∧
    (m.initial = none → (m.held.launch ≠ k.launch ∨ h % 4 ≠ 0 ∨ h < k.hbase.toNat ∨ k.hlim.toNat ≤ h) →
      ∃ t b, exec (.taskMessageArrival n) s = .next t ∧ t.mem = s.mem ∧ gone t ∧ acked t ∧ (∀ q, t.getCore q = s.getCore q) ∧
        t.bads = s.bads ++ [b] ∧ b.core = m.held.origin ∧ b.slot = m.held.slot ∧ b.gen = m.held.gen ∧
        b.val = m.held.task.handler.setWidth 64)) ∧
  (∀ (s : State) (n : Nat) (m : TaskMsg) (d : Die), s.tmsgs.find? (·.id = n) = some m → s.taskMayArrive m = true → m.dst = .cox d →
    ((s.coxOf d).length < 256 → ∃ t, exec (.taskMessageArrival n) s = .next t ∧ t.mem = s.mem ∧
      t.tmsgs = s.tmsgs.filter (·.id ≠ n) ∧ t.coxOf d = s.coxOf d ++ [m.held] ∧ t.sacks = s.sacks) ∧
    (256 ≤ (s.coxOf d).length → exec (.taskMessageArrival n) s =
      .next { s with tmsgs := s.tmsgs.map fun q => if q.id = n then { q with refused := true } else q })) ∧
  (∀ (s : State) (n : Nat), exec (.messageResend n) s = .next { s with
    tmsgs := s.tmsgs.map fun m => if m.id = n then { m with refused := false } else m
    bmsgs := s.bmsgs.map fun m => if m.id = n ∧ (s.getCore m.src).saved = false then { m with refused := false } else m }) ∧
  (∀ (s : State) (n : Nat) (a : SpawnAck), s.sacks.find? (·.id = n) = some a → (s.getCore a.core).saved = false →
    let o : SlotId := { core := a.core, slot := a.slot }
    let mine := (s.getSlot o).gen = a.gen ∧ (s.getSlot o).st ≠ .free
    ∃ t, exec (.spawnAcknowledgement n) s = .next t ∧ t.mem = s.mem ∧ t.sacks = s.sacks.filter (·.id ≠ n) ∧
      t.getSlot o = if mine then { s.getSlot o with spawns := (s.getSlot o).spawns - 1 } else s.getSlot o) ∧
  (∀ (s : State) (n : Nat) (b : BadReport), s.bads.find? (·.id = n) = some b →
    let o : SlotId := { core := b.core, slot := b.slot }
    let l := s.getSlot o
    let mine := l.gen = b.gen ∧ l.st ≠ .free
    ∃ t, exec (.badhandlerReport n) s = .next t ∧ t.mem = s.mem ∧ t.bads = s.bads.filter (·.id ≠ n) ∧
      (t.getCore b.core).xcnt[13] = BitVec.ofNat 32 (min ((s.getCore b.core).xcnt[13].toNat + 1) 0xFFFF_FFFF) ∧
      (mine → t.getSlot o = { l with asyncs := l.asyncs ++ [{ scause := 0x13, val := b.val, engine := none }] }) ∧
      (¬mine → t.getSlot o = l ∧ t.errors.length = s.errors.length + 1)) ∧
  (∀ (s : State) (c : CoreId) (i : SlotNo),
    let k := s.getCore c
    k.freeSlot = some i → k.dispatches = true → k.spillTail ≤ k.spillHead →
    (k.aqHead < k.aqTail →
      let e := entryOf (memReads s.mem (localKey k.id (k.aqBase.toNat + 64 * (k.aqHead % max 1 k.aqDepth.toNat))) 64)
      isCode e.handler.toNat →
      ∃ t, exec (.taskDispatch c) s = .next t ∧ t.mem = s.mem ∧ (t.getCore c).aqHead = k.aqHead + 1 ∧ (t.getCore c).forks = k.forks ∧
        (k.getSlot i).hasStarted ((t.getCore c).getSlot i) s.bar0.modid e ∧
        ((t.getCore c).getSlot i).clk = k.base.join (k.markOf (.queued k.aqHead))) ∧
    (∀ h fs, k.aqTail ≤ k.aqHead → k.forks = fs ++ [h] → isCode h.task.handler.toNat →
      ∃ t, exec (.taskDispatch c) s = .next t ∧ t.mem = s.mem ∧ (t.getCore c).forks = fs ∧
        (k.getSlot i).hasStarted ((t.getCore c).getSlot i) s.bar0.modid h.task ∧
        ((t.getCore c).getSlot i).clk = k.base.join h.task.clk)) ∧
  (∀ (s : State) (n : Nat) (r : Reply), s.replies.find? (·.id = n) = some r →
    let o : SlotId := { core := r.token.extractLsb' 0 18, slot := r.token.extractLsb' 18 4 }
    let d : XReg := r.token.extractLsb' 22 5
    let l := s.getSlot o
    let pending := l.st ≠ .free ∧ l.gen = r.token.extractLsb' 32 16 ∧ (d = 0 → 0 < l.callp0) ∧
      (d ≠ 0 → l.callp.getLsbD d.toNat = true)
    let holder := ((s.launcher.launches.find? fun l =>
      decide (l.stage = .running ∨ l.stage = .saving ∨ l.stage = .awaitHost) && l.clusters.contains (clusterOf o.core)).map
        (·.record.id)).getD 0
    let served := holder = r.launch ∧ (s.getCore o.core).launch = r.launch
    (s.getCore o.core).saved = false → r.launch ≠ 0 →
    (served → d ≠ 0 → pending →
      ∃ t, exec (.replyArrival n) s = .next t ∧ t.mem = s.mem ∧ t.replies = s.replies.filter (·.id ≠ n) ∧
        (t.getCore o.core).rlb = [] ∧
        t.getSlot o = { (l.setX d r.val).markX d true with callp := setBit l.callp d.toNat false, clk := l.clk.join r.clk }) ∧
    (served → d = 0 → pending →
      ∃ t, exec (.replyArrival n) s = .next t ∧ t.mem = s.mem ∧ t.replies = s.replies.filter (·.id ≠ n) ∧
        (t.getCore o.core).rlb = [] ∧ t.getSlot o = { (l.setX d r.val).markX d true with callp0 := l.callp0 - 1, clk := l.clk.join r.clk }) ∧
    (served → ¬pending →
      ∃ t, exec (.replyArrival n) s = .next t ∧ t.mem = s.mem ∧ t.replies = s.replies.filter (·.id ≠ n) ∧ t.getSlot o = l ∧
        (t.getCore o.core).xcnt[6] = BitVec.ofNat 32 (min ((s.getCore o.core).xcnt[6].toNat + 1) 0xFFFF_FFFF)) ∧
    (¬served → ∃ t e, exec (.replyArrival n) s = .next t ∧ t.mem = s.mem ∧ t.cores = s.cores ∧
      t.replies = s.replies.filter (·.id ≠ n) ∧ t.errors = s.errors ++ [e] ∧ e.kind = 15)) ∧
  (∀ (s : State) (n : Nat) (m : TaskMsg) (c : CoreId), s.tmsgs.find? (·.id = n) = some m → s.taskMayArrive m = true → m.dst = .core c →
    let k := s.getCore c
    let h := m.held.task.handler.toNat
    m.held.launch = k.launch → h % 4 = 0 → k.hbase.toNat ≤ h → h < k.hlim.toNat →
    ((∀ i, (k.getSlot i).st ≠ .free) ∨ k.dispatches = false ∨ k.backlog = true) →
    (k.spillHead < k.spillTail ∨ k.aqDepth.toNat ≤ k.aqTail - k.aqHead) → k.spillStopped = false →
    let refused := fun (t : State) => t.sacks = s.sacks ∧ t.tmsgs = s.tmsgs.map fun q => if q.id = n then { q with refused := true } else q
    (∀ ea sc, s.spillPlace c 0 .rw = .error (ea, sc) →
      ∃ t e, exec (.taskMessageArrival n) s = .next t ∧ t.mem = s.mem ∧ refused t ∧ (t.getCore c).spillStopped = true ∧
        t.errors = s.errors ++ [e] ∧ e.kind = 13 ∧ e.core = c ∧ e.word1 = ea ∧ e.word3 = sc.setWidth 64) ∧
    ∀ u head, s.spillPlace c 0 .rw = .ok (u, head) →
      let cap := (s.rd64 head).toNat
      (cap ≤ k.spillTail - k.spillHead → ∃ t, exec (.taskMessageArrival n) s = .next t ∧ t.mem = s.mem ∧ refused t) ∧
      ∀ w e, k.spillTail - k.spillHead < cap → u.spillPlace c (64 + 64 * (k.spillTail % cap)) .w = .ok (w, e) →
        ∃ t, exec (.taskMessageArrival n) s = .next t ∧ t.tmsgs = s.tmsgs.filter (·.id ≠ n) ∧
          t.mem = ((s.wrPieces [(e, m.held.task.bytes)]).wr (head + 16) 8 (k.spillTail + 1)).mem ∧
          (t.getCore c).spillTail = k.spillTail + 1 ∧ (t.getCore c).aqTail = k.aqTail ∧ (t.getCore c).slots = k.slots ∧
          (t.getCore c).xcnt[7] = BitVec.ofNat 32 (min (k.xcnt[7].toNat + 1) 0xFFFF_FFFF) ∧
          t.sacks = s.sacks ++ if m.held.counted then
            [{ id := s.nextId, core := m.held.origin, slot := m.held.slot, gen := m.held.gen }] else []) ∧
  (∀ (s u w : State) (c : CoreId) (i : SlotNo) (head e : Nat),
    let k := s.getCore c
    k.id = c → k.freeSlot = some i → k.dispatches = true → k.spillStopped = false → k.spillTail = k.spillHead + 1 →
    k.aqTail - k.aqHead < k.aqDepth.toNat → k.aqHead ≤ k.aqTail → s.spillPlace c 0 .rw = .ok (u, head) →
    u.spillPlace c (64 + 64 * (k.spillHead % max 1 (s.rd64 head).toNat)) .r = .ok (w, e) →
    ∃ t, exec (.taskDispatch c) s = .next t ∧ (t.getCore c).spillHead = k.spillHead + 1 ∧ (t.getCore c).spillTail = k.spillTail ∧
      (t.getCore c).aqTail = k.aqTail + 1 ∧ (t.getCore c).aqHead = k.aqHead + 1 ∧ ((t.getCore c).getSlot i).st ≠ .free ∧
      t.mem = ((s.wr (head + 8) 8 (k.spillHead + 1)).wrPieces
        [(localKey c (k.aqBase.toNat + 64 * (k.aqTail % k.aqDepth.toNat)), (entryOf (memReads s.mem e 64)).bytes)]).mem) ∧
  (∀ (s : State) (d : Die) (c : CoreId) (launch : Word32), s.placeable d c launch = true →
    dieOf c = d ∧ (s.getCore c).launch = launch ∧ s.holder c = launch ∧ (s.getCore c).coxFree = true ∧ s.fenced d = false) ∧
  (∀ (s : State) (a : PlaceArg) (l₁ l₂ : List HeldTask) (h : HeldTask), s.coxOf a.die = l₁ ++ h :: l₂ →
    s.placeable a.die a.core h.launch = true → (∀ q ∈ l₁, s.placeable a.die a.core q.launch = false) →
    ∃ t m, exec (.coxPlacement a) s = .next t ∧ t.mem = s.mem ∧ t.coxOf a.die = l₁ ++ l₂ ∧ t.tmsgs = s.tmsgs ++ [m] ∧
      m.dst = .core a.core ∧ m.held = { h with task := { h.task with flags := h.task.flags ||| 0x40 } } ∧
      (t.getCore a.core).coxFree = false) ∧
  ∀ (s : State) (a : StealArg) (h : HeldTask),
    let launch := (s.getCore a.target).launch
    let moved := fun (t : State) => ∃ m, t.tmsgs = s.tmsgs ++ [m] ∧ m.dst = .core a.target ∧
      m.held = { h with task := { h.task with flags := h.task.flags ||| 0x40 } }
    s.coxOf a.die = [] → s.placeable a.die a.target launch = true → s.nearest a.die (dieOf a.victim) launch = true →
    (∀ l₁ l₂, a.fromFork = true → (s.getCore a.victim).forks = l₁ ++ h :: l₂ → h.launch = launch → (∀ q ∈ l₁, q.launch ≠ launch) →
      ∃ t, exec (.coxSteal a) s = .next t ∧ t.mem = s.mem ∧ (t.getCore a.victim).forks = l₁ ++ l₂ ∧ moved t) ∧
    (∀ l₁ l₂, a.fromFork = false → dieOf a.victim ≠ a.die → s.coxOf (dieOf a.victim) = l₁ ++ h :: l₂ → h.launch = launch →
      (∀ q ∈ l₁, q.launch ≠ launch) →
      ∃ t, exec (.coxSteal a) s = .next t ∧ t.mem = s.mem ∧ t.coxOf (dieOf a.victim) = l₁ ++ l₂ ∧ moved t)

/-- The instructions of the matrix engine (R167-R176). That `mmresume` enters at the head of the queue with any number waiting, behind the
stores of the context that resumes, is the model's reading (DEDUCED, log 31). -/
def Obligations.MatrixIssue : Prop :=
  (∀ (i : Instr) (s : State) (o : MmaOp) (fmt : MmaFmt), mmaForm i = some (o, fmt) → s.FullX [o.a] →
    let a := s.xv o.a + o.lit.signExtend 64
    let tile := (if o.tileHi then 1#1 else 0#1) ++ o.tileLo
    (∀ off, blockOffset s a 64 = .ok off → s.core.mat.queue.length < 2 →
      exec i s = .next ((s.queueMat (.mma fmt a) tile).advance 8).noteIssued) ∧
    (∀ off, blockOffset s a 64 = .ok off → 2 ≤ s.core.mat.queue.length → exec i s = .next (s.waitsHere 5)) ∧
    (a.toNat % 64 = 0 → a.toNat + 64 ≤ 0x60000 → blockOffset s a 64 = .ok a.toNat) ∧
    (a.toNat % 64 ≠ 0 → a.toNat + 64 ≤ 0x60000 → exec i s = .next (s.takeSup s.cur 0x0511 a s.slot.pc)) ∧
    ∀ va, s.target s.cur.core a 64 = .ok (.virt va) → exec i s = .next (s.takeSup s.cur 0x0C11 a s.slot.pc)) ∧
  (∀ (s : State) (o : AccOp), s.FullX [o.a, o.b] →
    let stride : Word := if o.b = 0 then 32 else s.xv o.b
    let tile := (if o.tileHi then 1#1 else 0#1) ++ o.tileLo
    (s.core.mat.queue.length < 2 →
      exec (.accld o) s = .next ((s.queueMat (.accld (s.xv o.a) stride) tile).advance 4).noteIssued ∧
      exec (.accst o) s = .next ((s.queueMat (.accst (s.xv o.a) stride) tile).advance 4).noteIssued) ∧
    (2 ≤ s.core.mat.queue.length → exec (.accld o) s = .next (s.waitsHere 5) ∧ exec (.accst o) s = .next (s.waitsHere 5))) ∧
  (∀ (s : State) (o : AccZOp),
    (s.core.mat.queue.length < 2 → exec (.acczero o) s =
      .next ((s.queueMat .acczero ((if o.tileHi then 1#1 else 0#1) ++ o.tileLo)).advance 4).noteIssued) ∧
    (2 ≤ s.core.mat.queue.length → exec (.acczero o) s = .next (s.waitsHere 5))) ∧
  (∀ (s : State) (o : MmresOp), s.FullX [o.a] →
    let tile := (if o.tileHi then 1#1 else 0#1) ++ o.tileLo
    let illegal := Host.Outcome.next (s.takeSup s.cur 0x10 s.instrWord s.slot.pc)
    (s.core.mat.parked = none → exec (.mmresume o) s = illegal) ∧
    ∀ m, s.core.mat.parked = some m →
      (s.core.mmprog.getLsbD 63 = false ∨ m.tile ≠ tile → exec (.mmresume o) s = illegal) ∧
      (s.core.mmprog.getLsbD 63 = true → m.tile = tile →
        let resumes := fun (op : MatOp) => ∃ t, exec (.mmresume o) s = .next t ∧ t.mem = s.mem ∧
          t.slot = { s.slot with pc := s.slot.pc + 4, issued := s.slot.issued + 1 } ∧ t.core.mat.parked = none ∧
          t.core.mat.run = s.core.mat.run ∧ t.core.mmprog.getLsbD 63 = false ∧
          t.core.mat.queue = { m with op := op, gate := s.owner, resumed := true, taken := false } :: s.core.mat.queue
        (∀ fmt blk off, m.op = .mma fmt blk → blockOffset s (s.xv o.a) 64 = .ok off → resumes (.mma fmt (s.xv o.a))) ∧
        ((∀ fmt blk, m.op ≠ .mma fmt blk) → resumes m.op))) ∧
  ∀ (s : State) (o : MmwaitOp),
    let owned := s.core.mat.queue ++ s.core.mat.run.toList ++ s.core.mat.parked.toList
    ((∀ m ∈ owned, ¬(m.own.slot = s.cur.slot ∧ m.own.gen = s.slot.gen)) → exec (.mmwait o) s = .next ((s.joinsUnit .matrix).advance 4).noteIssued) ∧
    ((∃ m ∈ owned, m.own.slot = s.cur.slot ∧ m.own.gen = s.slot.gen) → exec (.mmwait o) s = .next (s.waitsHere 8))

/-- `MATRIX_COMMAND_START` and `MATRIX_STEP` (R53, R168-R175). -/
def Obligations.MatrixEngine : Prop :=
  (∀ (s : State) (c : CoreId) (m : MatCmd) (q : List MatCmd),
    let k := s.getCore c
    k.mat.queue = m :: q → k.mat.run = none → k.mat.parked = none → k.saving = false → k.saved = false →
    (s.ownerReleased c m.gate = false → exec (.matrixCommandStart c) s = .next s) ∧
    (s.ownerReleased c m.gate = true → (∀ fmt blk, m.op ≠ .mma fmt blk) → ∃ t, exec (.matrixCommandStart c) s = .next t ∧
      t.mem = s.mem ∧ t.getCore c = { k with mat := { queue := q, run := some m, parked := none } }) ∧
    (∀ fmt blk, s.ownerReleased c m.gate = true → m.op = .mma fmt blk →
      let bs := memReads s.mem (localKey c (blk.toNat % 2 ^ 20)) 64
      s.poisonAt (localKey c (blk.toNat % 2 ^ 20)) 64 = none →
      (∀ b clr, mmaBlock fmt bs = some (b, clr) → ∃ t, exec (.matrixCommandStart c) s = .next t ∧ t.mem = s.mem ∧
        (t.getCore c).mat = { queue := q, run := some { m with block := some b, codes := k.codes[b.tbl.toNat] }, parked := none } ∧
        (t.getCore c).slots = k.slots ∧
        ∀ n : BitVec 6, (t.getCore c).tile n = if n = m.tile ∧ clr = true ∧ m.resumed = false then Vector.replicate 64 0 else k.tile n) ∧
      (mmaBlock fmt bs = none → ∃ t, exec (.matrixCommandStart c) s = .next t ∧ t.mem = s.mem ∧
        (t.getCore c).mat = { queue := q, run := none, parked := none } ∧ (t.getCore c).acc = k.acc ∧
        s.faultsOwner t c m.own 0x0D11 blk none))) ∧
  (∀ (s : State) (c : CoreId) (m : MatCmd),
    let k := s.getCore c
    k.mat.run = some m → k.saving = false → k.saved = false →
    let others := fun (t : State) => t.reqs = s.reqs ∧ (t.getCore c).slots = k.slots ∧
      ∀ n : BitVec 6, n ≠ m.tile → (t.getCore c).tile n = k.tile n
    (m.op = .acczero → ∃ t, exec (.matrixStep c) s = .next t ∧ t.mem = s.mem ∧ others t ∧
      (t.getCore c).tile m.tile = Vector.replicate 64 0 ∧ (t.getCore c).mat.run = none) ∧
    (∀ blk b ao bo, m.op = .mma .bf16 blk → m.block = some b → m.done < b.k → s.poison = [] →
      b.aaddr = BitVec.ofNat 64 (0x300000 + ao) → b.baddr = BitVec.ofNat 64 (0x300000 + bo) → ao % 2 = 0 → bo % 2 = 0 →
      b.astr % 2 = 0 → b.bstr % 2 = 0 → ao + 7 * b.astr + 2 * m.done + 2 ≤ 0x60000 → bo + m.done * b.bstr + 16 ≤ 0x60000 →
      let av := fun (i : Nat) => fmtBf16.decode (s.rd (localKey c (ao + i * b.astr + 2 * m.done)) 2)
      let bv := fun (j : Nat) => fmtBf16.decode (s.rd (localKey c (bo + m.done * b.bstr + 2 * j)) 2)
      let sum := fun (n : Nat) => fp32.dot [(av (n / 8), bv (n % 8))] [fp32.decode ((k.tile m.tile).getD n 0).toNat]
      ∃ t, exec (.matrixStep c) s = .next t ∧ t.mem = s.mem ∧ others t ∧
        (∀ n : Fin 64, ((t.getCore c).tile m.tile)[n] = BitVec.ofNat 32 (sum n.val).bits) ∧
        (m.done + 1 < b.k → ∃ ev, (t.getCore c).mat.run = some { m with done := m.done + 1, ev := ev }) ∧
        (b.k ≤ m.done + 1 → (t.getCore c).mat.run = none)) ∧
    (∀ fmt blk b w win page k1 f (keyA keyB : Nat → Nat → Nat), m.op = .mma fmt blk → m.block = some b → m.done < b.k → s.poison = [] →
      ((fmt = .bf16 ∧ w = 2 ∧ win = 3 ∧ page = 3 ∧ k1 = 1 ∧ f = fmtBf16) ∨ (fmt = .e4m3 ∧ w = 1 ∧ win = 1 ∧ page = 1 ∧ k1 = 2 ∧ f = fmtE4m3) ∨
        (fmt = .e5m2 ∧ w = 1 ∧ win = 2 ∧ page = 2 ∧ k1 = 2 ∧ f = fmtE5m2)) →
      b.aaddr.toNat % w = 0 → b.astr % w = 0 → b.baddr.toNat % w = 0 → b.bstr % w = 0 →
      (∀ i x, i < 8 → x < k1 → s.operandAt c (b.aaddr + BitVec.ofNat 64 (i * b.astr + (m.done + x) * w)) w win page (keyA i x)) →
      (∀ x j, x < k1 → j < 8 → s.operandAt c (b.baddr + BitVec.ofNat 64 ((m.done + x) * b.bstr + j * w)) w win page (keyB x j)) →
      let sum := fun (n : Nat) => fp32.dot ((List.range k1).map fun x =>
          (f.decode (s.rd (keyA (n / 8) x) w), f.decode (s.rd (keyB x (n % 8)) w))) [fp32.decode ((k.tile m.tile).getD n 0).toNat]
      ∃ t, exec (.matrixStep c) s = .next t ∧ t.mem = s.mem ∧ others t ∧
        (∀ n : Fin 64, ((t.getCore c).tile m.tile)[n] = BitVec.ofNat 32 (sum n.val).bits) ∧
        (m.done + k1 < b.k → ∃ ev, (t.getCore c).mat.run = some { m with done := m.done + k1, ev := ev }) ∧
        (b.k ≤ m.done + k1 → (t.getCore c).mat.run = none)) ∧
    (∀ blk b (keyA keyB : Nat → Nat → Nat) (esA esB : Nat → Nat → List Nat), m.op = .mma .xf8 blk → m.block = some b → m.done < b.k →
      s.poison = [] → b.aaddr.toNat % 1024 = 0 → b.baddr.toNat % 1024 = 0 →
      let na := fun (i x : Nat) => b.aoff + i * b.astr + (m.done + x)
      let nb := fun (x j : Nat) => b.boff + (m.done + x) * b.bstr + j
      (∀ i x, i < 8 → x < 2 → s.operandAt c (b.aaddr + BitVec.ofNat 64 (1024 * (na i x / 1024))) 1024 6 5 (keyA i x) ∧
        decodeFrame m.codes (memReads s.mem (keyA i x) 1024) = some (esA i x)) →
      (∀ x j, x < 2 → j < 8 → s.operandAt c (b.baddr + BitVec.ofNat 64 (1024 * (nb x j / 1024))) 1024 6 5 (keyB x j) ∧
        decodeFrame m.codes (memReads s.mem (keyB x j) 1024) = some (esB x j)) →
      let sum := fun (n : Nat) => fp32.dot ((List.range 2).map fun x =>
          (fmtE4m3.decode ((esA (n / 8) x).getD (na (n / 8) x % 1024) 0), fmtE4m3.decode ((esB x (n % 8)).getD (nb x (n % 8) % 1024) 0)))
        [fp32.decode ((k.tile m.tile).getD n 0).toNat]
      ∃ t, exec (.matrixStep c) s = .next t ∧ t.mem = s.mem ∧ others t ∧
        (∀ n : Fin 64, ((t.getCore c).tile m.tile)[n] = BitVec.ofNat 32 (sum n.val).bits) ∧
        (m.done + 2 < b.k → ∃ ev, (t.getCore c).mat.run = some { m with done := m.done + 2, ev := ev }) ∧
        (b.k ≤ m.done + 2 → (t.getCore c).mat.run = none)) ∧
    (∀ a st d off, m.op = .accst a st → m.done < 8 → off % 4 = 0 → (s.getCore d).saved = false →
      (∀ j, j < 8 → s.target c (a + BitVec.ofNat 64 m.done * st + BitVec.ofNat 64 (4 * j)) 4 = .ok (.loc d 0 (off + 4 * j))) →
      let ps := (List.range 8).map fun j =>
        (localKey d (off + 4 * j), natBytes 4 ((k.tile m.tile).getD (8 * m.done + j) 0).toNat)
      ∃ t, exec (.matrixStep c) s = .next t ∧ others t ∧ (t.getCore c).acc = k.acc ∧ t.mem = (s.wrPieces ps).mem ∧
        (t.getCore c).rlb.map (·.key) = k.rlb.map (·.key) ∧
        ∀ ln ∈ (t.getCore c).rlb, ∃ l₀ ∈ k.rlb, ln.key = l₀.key ∧ ln.bytes = overlay ln.key l₀.bytes ps) ∧
    (∀ a st base, m.op = .accld a st ∨ m.op = .accst a st → m.done < 8 →
      a + BitVec.ofNat 64 m.done * st = BitVec.ofNat 64 base → base + 32 ≤ 0x60000 →
      let goes := fun (t : State) => if m.done + 1 < 8 then (t.getCore c).mat.run = some { m with done := m.done + 1 }
        else (t.getCore c).mat.run = none
      (m.op = .accld a st → base % 4 = 0 → s.poison = [] → ∃ t, exec (.matrixStep c) s = .next t ∧ t.mem = s.mem ∧ others t ∧
        (∀ n : Fin 64, ((t.getCore c).tile m.tile)[n] =
          if n.val / 8 = m.done then s.rd32 (localKey c (base + 4 * (n.val % 8))) else (k.tile m.tile)[n]) ∧ goes t) ∧
      (m.op = .accst a st → base % 4 = 0 → ∃ t, exec (.matrixStep c) s = .next t ∧ others t ∧ (t.getCore c).acc = k.acc ∧
        t.mem = (s.wrPieces ((List.range 8).map fun j =>
          (localKey c (base + 4 * j), natBytes 4 ((k.tile m.tile).getD (8 * m.done + j) 0).toNat))).mem ∧ goes t) ∧
      (base % 4 ≠ 0 → ∃ t, exec (.matrixStep c) s = .next t ∧ t.mem = s.mem ∧ (t.getCore c).acc = k.acc ∧
        (t.getCore c).mat = { k.mat with run := none, parked := some { m with ev := Events.zero } } ∧
        (t.getCore c).mmprog = BitVec.ofNat 64 (2 ^ 63 + m.tile.toNat * 2 ^ 48 + m.done) ∧
        s.faultsOwner t c m.own 0x0511 (BitVec.ofNat 64 base) (some .matrix))))

/-- `vgemv`, `vcodes` (R177-R179), `VCODES_ARRIVAL`, `VGEMV_START` and `VGEMV_ROW` (R54, R179, R180, R304). That a start checks a
block again which has changed since the issue is the model's reading (DEDUCED, log 32). -/
def Obligations.VaultUnits : Prop :=
  (∀ (s : State) (o : RAB), s.FullX [o.a, o.b] →
    (7 < (s.xv o.a).toNat → exec (.vcodes o) s = .next (s.takeSup s.cur 0x10 s.instrWord s.slot.pc)) ∧
    ((s.xv o.a).toNat ≤ 7 → 2 ≤ s.core.vch.length → exec (.vcodes o) s = .next (s.waitsHere 5)) ∧
    ((s.xv o.a).toNat ≤ 7 → s.core.vch.length < 2 → exec (.vcodes o) s = .next ((s.modCore fun c =>
      { c with codes := c.codes.setIfInBounds (s.xv o.a).toNat (s.xv o.b)
               vch := c.vch ++ [.codes s.owner ((s.xv o.a).setWidth 3) (s.xv o.b)] }).advance 4).noteIssued)) ∧
  (∀ (s : State) (o : VgemvOp), s.FullX [o.a] →
    let a := s.xv o.a + o.lit.signExtend 64
    (∀ t g, gemvCheck s a = .ok (t, g) → s.core.vch.length < 2 → exec (.vgemv o) s = .next (((t.modCore fun c =>
      { c with vch := c.vch ++ [.gemv g], gemvs := c.gemvs ++ [g.own] }).pump s.cur.core 2).advance 8).noteIssued) ∧
    (∀ t g, gemvCheck s a = .ok (t, g) → t.slot = s.slot ∧ t.mem = s.mem ∧ t.core.vch = s.core.vch ∧ g.own = s.owner ∧
      g.started = false ∧ (2 ≤ s.core.vch.length → exec (.vgemv o) s = .next (t.waitsHere 5))) ∧
    (∀ sc v, gemvCheck s a = .error (.sup sc v) → exec (.vgemv o) s = .next (s.takeSup s.cur sc v s.slot.pc)) ∧
    (∀ sc v, gemvCheck s a = .error (.walked sc v) →
      exec (.vgemv o) s = .next ((s.sampleCycles s.cur.core 11).takeSup s.cur sc v s.slot.pc)) ∧
    (a.toNat % 64 = 0 → a.toNat + 64 ≤ 0x60000 → s.reqsOf s.cur = [] → s.poison = [] →
      let f := fun (off n : Nat) => s.rd (localKey s.cur.core (a.toNat + off)) n
      (f 8 4 = 0 ∨ 65536 < f 8 4 ∨ f 12 4 = 0 ∨ 8192 < f 12 4 ∨ 3 < f 0x20 8 % 8 ∨ 1 < f 0x20 8 / 128 % 4 ∨ 512 ≤ f 0x20 8 ∨
        f 0x38 8 ≠ 0 → gemvCheck s a = .error (.sup 0x0D11 a)) ∧
      (1 ≤ f 8 4 → f 8 4 ≤ 65536 → 1 ≤ f 12 4 → f 12 4 ≤ 8192 → f 0x20 8 % 8 ≤ 3 → f 0x20 8 / 128 % 4 ≤ 1 → f 0x20 8 < 512 →
        f 0x38 8 = 0 → f 0 8 < 7 * 2 ^ 20 → gemvCheck s a = .error (.sup 0x0C11 (BitVec.ofNat 64 (f 0 8)))))) ∧
  (∀ (s : State) (c : CoreId) (own : Owner) (id : BitVec 3) (w : Word), (s.getCore c).vch = [.codes own id w] →
    ∃ t, exec (.vcodesArrival c) s = .next t ∧ t.mem = s.mem ∧ (t.getCore c).vch = [] ∧
      ∀ n : Fin 8, (t.getUnit (vaultOf c)).codes[n] = if n.val = id.toNat then w else (s.getUnit (vaultOf c)).codes[n]) ∧
  (∀ (s : State) (u : VaultId) (g : GemvCmd) (q : List GemvCmd), (s.getUnit u).run = none → (s.getUnit u).queue = g :: q →
    (s.ownerReleased g.core g.own = false → exec (.vgemvStart u) s = .next s) ∧
    (s.ownerReleased g.core g.own = true → (s.getCore g.core).saved = false →
      let blk := localKey g.core (g.blk.toNat % 2 ^ 20)
      let bs := memReads s.mem blk 64
      let h := if g.started then g else
        { g with block := bs, prog := s.rd (blk + 0x30) 8, prog0 := s.rd (blk + 0x30) 8, started := true
                 wrote := if s.rd (blk + 0x30) 8 = 0 then [] else ((s.getCore g.core).markOf (.progress (g.blk.toNat % 2 ^ 20))).writes }
      let same := g.started = true ∨ bs.take 0x30 = g.block.take 0x30 ∧ bs.drop 0x38 = g.block.drop 0x38
      (g.started = false → s.poisonAt blk 64 = none) →
      (same → h.rows ≤ h.prog → ∃ t, exec (.vgemvStart u) s = .next t ∧ t.mem = s.mem ∧
        (t.getUnit u).run = none ∧ (t.getCore g.core).gemvs = (s.getCore g.core).gemvs.erase g.own) ∧
      (same → h.prog < h.rows →
        let key := localKey g.core (h.xaddr.toNat % 2 ^ 20)
        s.poisonAt key (h.xWidth * h.cols) = none → ∃ t, exec (.vgemvStart u) s = .next t ∧ t.mem = s.mem ∧
          (t.getUnit u).run = some { h with
            xbuf := h.xLoad (memReads s.mem key (h.xWidth * h.cols))
            codes := if g.started then g.codes else (s.getUnit u).codes[h.tbl.toNat] }) ∧
      (¬same → (h.rows = 0 ∨ 65536 < h.rows ∨ h.cols = 0 ∨ 8192 < h.cols ∨ 3 < h.fmt ∨ 1 < h.comp) →
        ∃ t, exec (.vgemvStart u) s = .next t ∧ t.mem = s.mem ∧ (t.getUnit u).run = none ∧
          (t.getCore g.core).gemvs = (s.getCore g.core).gemvs.erase g.own ∧ s.faultsOwner t g.core g.own 0x0D11 g.blk none))) ∧
  (∀ (s : State) (u : VaultId) (g : GemvCmd) (y : Rounded) (c : CoreId) (off : Nat), (s.getUnit u).run = some g →
    g.rowVault g.prog = u → g.comp = 1 → g.row s g.prog = .ok y → g.rows ≤ g.prog + 1 → s.target g.core g.caddr 16 = .ok (.loc c 0 off) →
    (s.getCore c).saved = false → c.toNat < 2 ^ 18 →
    ∃ t, exec (.vgemvRow u) s = .next t ∧ (t.getUnit u).run = none ∧
      t.mem = (((s.wrPieces [(localKey g.core (g.yaddr.toNat % 2 ^ 20 + 4 * g.prog), natBytes 4 y.bits)]).wrPieces
        [(localKey g.core (g.blk.toNat % 2 ^ 20 + 0x30), natBytes 8 (g.prog + 1))]).cbDelta (localKey c off)
          (-(4 * ((g.rows : Int) - g.prog0)))).mem) ∧
  ∀ (s : State) (u : VaultId) (g : GemvCmd), (s.getUnit u).run = some g → g.rowVault g.prog = u → g.comp = 0 →
    (∀ y, g.row s g.prog = .ok y →
      ∃ t, exec (.vgemvRow u) s = .next t ∧ t.reqs = s.reqs ∧
        t.mem = ((s.wrPieces [(localKey g.core (g.yaddr.toNat % 2 ^ 20 + 4 * g.prog), natBytes 4 y.bits)]).wrPieces
          [(localKey g.core (g.blk.toNat % 2 ^ 20 + 0x30), natBytes 8 (g.prog + 1))]).mem ∧
        (g.rows ≤ g.prog + 1 → (t.getUnit u).run = none ∧ (t.getCore g.core).gemvs = (s.getCore g.core).gemvs.erase g.own) ∧
        (g.prog + 1 < g.rows → g.rowVault (g.prog + 1) = u →
          (t.getUnit u).run = some { g with prog := g.prog + 1, ev := g.ev.plus y.ev, wrote := g.wrote ++ [s.writes, s.writes + 1] }) ∧
        ∀ v, g.prog + 1 < g.rows → g.rowVault (g.prog + 1) = v → v ≠ u → (s.getUnit v).queue.length < 8 →
          (t.getUnit u).run = none ∧ (t.getUnit v).queue = (s.getUnit v).queue ++
            [{ g with prog := g.prog + 1, ev := g.ev.plus y.ev, xbuf := [], wrote := g.wrote ++ [s.writes, s.writes + 1] }]) ∧
    (∀ sc v a, g.row s g.prog = .error (.fault sc v a) → ∃ t, exec (.vgemvRow u) s = .next t ∧ t.mem = s.mem ∧
      (t.getUnit u).run = none ∧ s.faultsOwner t g.core g.own sc v none) ∧
    (g.fmt ≠ 2 → 0 < g.cols → g.cols ≤ 32 → g.xbuf.length = g.cols → s.poison = [] →
      let y0 := if g.acc then s.rd (localKey g.core (g.yaddr.toNat % 2 ^ 20 + 4 * g.prog)) 4 else 0
      let y := fp32.dot ((List.range g.cols).map fun j =>
        (g.format.decode (s.rd (g.pa (g.width * (g.prog * g.pitch + j))) g.width), fp32.decode (g.xbuf.getD j 0).toNat))
        [fp32.decode y0]
      ∃ r, g.row s g.prog = .ok r ∧ r.bits = y.bits) ∧
    ∀ (weight : Nat → FVal) (es : Nat → List Nat) (ys : Nat → Rounded), g.xbuf.length = g.cols → s.poison = [] →
      let n := fun j => g.prog * g.pitch + j
      (g.fmt ≠ 2 → ∀ j, weight j = g.format.decode (s.rd (g.pa (g.width * n j)) g.width)) →
      (g.fmt = 2 → (∀ j, weight j = fmtE4m3.decode ((es (n j / 1024)).getD (n j % 1024) 0)) ∧
        ∀ i, n 0 / 1024 ≤ i → i ≤ (n g.pitch - 1) / 1024 → decodeFrame g.codes (memReads s.mem (g.pa (1024 * i)) 1024) = some (es i)) →
      ys 0 = { bits := if g.acc then s.rd (localKey g.core (g.yaddr.toNat % 2 ^ 20 + 4 * g.prog)) 4 else 0, ev := Events.zero } →
      (∀ i, let q := fp32.dot ((List.range (min 32 (g.cols - 32 * i))).map fun j =>
          (weight (32 * i + j), fp32.decode (g.xbuf.getD (32 * i + j) 0).toNat)) [fp32.decode (ys i).bits]
        ys (i + 1) = { bits := q.bits, ev := (ys i).ev.plus q.ev }) →
      g.row s g.prog = .ok (ys ((g.cols + 31) / 32))

/-- The transfer instructions (R181), `castle` (R189), the redirection of SHD (R188), and the maps of `ata` (R191). -/
def Obligations.TransferIssue : Prop :=
  (∀ (i : Instr) (s : State) (o : R2) (kind : XferKind), transferForm i = some (o, kind) → s.FullX [o.a, o.d] →
    let a := s.xv o.a
    let size := match kind with
      | .copy => 72
      | .ata => 128
      | _ => 64
    let id : BitVec 16 := s.cur.slot ++ s.core.copy.count
    (a.toNat % 64 = 0 → a.toNat + size ≤ 0x60000 → s.core.copy.queue.length < 2 →
      ∃ x : XferCmd, x.kind = kind ∧ x.blk = a ∧ x.xfer = id ∧ x.own = s.owner ∧ x.started = false ∧ x.prog = 0 ∧ x.opMade = false ∧
        x.msg = [] ∧ x.handler = none ∧ x.shp = s.core.shp ∧
        exec i s = .next ((s.modCore fun k => { k with copy := { k.copy with
          queue := k.copy.queue ++ [x], count := k.copy.count + 1 } }).wroteX o.d (id.setWidth 64) 4)) ∧
    (a.toNat % 64 = 0 → a.toNat + size ≤ 0x60000 → 2 ≤ s.core.copy.queue.length → exec i s = .next (s.waitsHere 5)) ∧
    (a.toNat % 64 ≠ 0 → a.toNat + size ≤ 0x60000 → exec i s = .next (s.takeSup s.cur 0x0511 a s.slot.pc))) ∧
  (∀ (s : State) (o : RA), s.FullX [o.a] →
    let illegal := Host.Outcome.next (s.takeSup s.cur 0x10 s.instrWord s.slot.pc)
    (16 ≤ (s.xv o.a).toNat → exec (.castle o) s = illegal) ∧
    ∀ n : Fin 16, (s.xv o.a).toNat = n.val →
      (s.core.shp[n].extractLsb' 40 20 = 0 → exec (.castle o) s = illegal) ∧
      (s.core.shp[n].extractLsb' 40 20 ≠ 0 → s.released s.cur = false → exec (.castle o) s = .next (s.waitsHere 8)) ∧
      (s.core.shp[n].extractLsb' 40 20 ≠ 0 → s.released s.cur = true → exec (.castle o) s = .next
        (((s.castles s.core.shp[n]).modCore fun k => { k with shp := k.shp.set n.val (k.shp[n] ^^^ 0x1000_0000_0000_0000) }).advance 4).noteIssued)) ∧
  (∀ (k : Core) (o : Nat),
    ((∀ n : Fin 16, k.shp[n].extractLsb' 40 20 = 0) → k.resolve o = o) ∧
    (let w := k.shp[(0 : Fin 16)]
     let a := (w.extractLsb' 0 20).toNat
     let b := (w.extractLsb' 20 20).toNat
     let len := (w.extractLsb' 40 20).toNat
     (w.getLsbD 60 = false → a ≤ o → o < a + len → k.resolve o = b + (o - a)) ∧
     (w.getLsbD 60 = true → b ≤ o → o < b + len → k.resolve o = a + (o - b)) ∧
     (w.getLsbD 60 = false → b ≤ o → o < b + len → ¬(a ≤ o ∧ o < a + len) → k.resolve o = o) ∧
     (w.getLsbD 60 = true → a ≤ o → o < a + len → ¬(b ≤ o ∧ o < b + len) → k.resolve o = o))) ∧
  ∀ (m : DimMap) (g i n : Nat), m.axis < 3 → 0 < m.b → 0 < g →
    m.global g (m.owner g i) (m.local_ g i) = i ∧ (m.cyclic = true → m.owner g i < g) ∧ (m.cyclic = false → i < m.b * g → m.owner g i < g) ∧
      (i < n → m.local_ g i < m.extent g n)

/-- `COPY_COMMAND_START`, `COPY_RUN_DELIVERED`, the sending and landing of runs, and `MCAST_ANCHOR_SNAPSHOT` (R168, R182-R192, R257, R368,
R369). These are the model's, by log entry: a barrier that a plain store left undefined (10), the value of a BLOCK (33), that PROG keeps its bytes
while a transfer runs (DEDUCED, 34), RANGE where a byte would land outside local memory (DESIGN CHOICE, 54), the clocks of happens-before
(DESIGN CHOICE, 60), that the barrier that COMP 1 names is used as stored even where it is poisoned (DESIGN CHOICE, 63), and the signed strides
of the maps of `ata` (DESIGN CHOICE, 68). -/
def Obligations.TransferEngine : Prop :=
  (∀ (s : State) (c : CoreId) (x : XferCmd) (q : List XferCmd),
    let k := s.getCore c
    k.copy.queue = x :: q → k.copy.run = none → k.copy.parked = none → k.saving = false → k.saved = false →
    (s.ownerReleased c x.own = false → exec (.copyCommandStart c) s = .next s) ∧
    (s.ownerReleased c x.own = true →
      let key := localKey c (x.blk.toNat % 2 ^ 20)
      let y := { x with block := memReads s.mem key x.kind.blockSize }
      let prog := s.rd (key + 0x10) 8
      let made := if prog = 0 then [] else (k.markOf (.progress (x.blk.toNat % 2 ^ 20))).writes
      let own := { x.own with clk := x.own.clk.withWrites made }
      let runs := fun (z : XferCmd) => ∃ t, exec (.copyCommandStart c) s = .next t ∧ t.mem = s.mem ∧
        (t.getCore c).slots = k.slots ∧ (t.getCore c).copy = { k.copy with
          queue := q, run := some { z with prog := prog, started := true, own := own } }
      let block := ∃ t, exec (.copyCommandStart c) s = .next t ∧ t.mem = s.mem ∧
        (t.getCore c).copy = { k.copy with queue := q } ∧ s.faultsOwner t c x.own 0x0D11 x.blk none
      s.poisonAt key x.kind.blockSize = none →
      (s.xferFields c y = false → block) ∧
      (s.xferFields c y = true → x.kind ≠ .mcast ∨ y.doff.toNat + y.bytes ≤ 0x60000 →
        (y.comp = 0 → runs y) ∧
        (y.comp = 2 → runs { y with handler := some (x.handler.getD y.caddr) }) ∧
        (∀ m, y.comp = 3 → x.msg = [] → y.caddr = BitVec.ofNat 64 m → m % 8 = 0 → m + 64 ≤ 0x60000 →
          s.poisonAt (localKey c m) 64 = none →
          let hdr := BitVec.ofNat 64 (s.rd (localKey c m) 8)
          (hdr.extractLsb' 25 39 = 0 → (hdr.extractLsb' 20 4).toNat ≤ 8 →
            runs { y with msg := memReads s.mem (localKey c m) 64 }) ∧
          (hdr.extractLsb' 25 39 ≠ 0 ∨ 8 < (hdr.extractLsb' 20 4).toNat → block)) ∧
        (∀ b, y.comp = 1 → x.kind = .ata → y.caddr = BitVec.ofNat 64 b → b % 16 = 0 → b + 16 ≤ 0x60000 →
          (x.opMade = true ∨ prog ≠ 0 → runs y) ∧
          (x.opMade = false → prog = 0 → ∃ t, exec (.copyCommandStart c) s = .next t ∧
            t.mem = (s.cbAta (localKey c b) (y.esize * y.owned ((s.participants c y).idxOf c))).mem ∧
            (t.getCore c).copy = { k.copy with queue := q, run := some { y with prog := 0, started := true, opMade := true, own := own } }))))) ∧
  (∀ (s : State) (key : Nat) (d : Int), s.undefinedAt key = false →
    let v := s.rd key 16
    let exp := bits v 0 16
    let pend := bits v 16 16
    let bytes := (BitVec.ofNat 32 (bits v 32 32)).toInt
    let ph := bits v 64 1
    let err := bits v 66 1
    let refused := bits v 65 1 = 0 ∨ pend = 0 ∨ bytes + d < -2 ^ 31 ∨ 2 ^ 31 ≤ bytes + d
    (refused → (s.cbAta key d).mem = (s.wr key 16 (if err = 1 then v else v + 2 ^ 66)).mem) ∧
    (¬refused → pend = 1 → bytes + d = 0 → (s.cbAta key d).mem = (s.wr key 16 (cbFields exp exp 0 (1 - ph) 1 err)).mem) ∧
    (¬refused → ¬(pend = 1 ∧ bytes + d = 0) →
      (s.cbAta key d).mem = (s.wr key 16 (cbFields exp (pend - 1) (BitVec.ofInt 32 (bytes + d)) ph 1 err)).mem)) ∧
  (∀ (s : State) (c : CoreId) (x : XferCmd),
    let k := s.getCore c
    let after := fun (r : Option XferCmd) (n total : Nat) =>
      (n < total → ∃ due, r = some { x with prog := n, snapshot := none, due := due }) ∧ (total ≤ n → r = none)
    let parks := fun (sc : BitVec 16) (v : Word) => k.copy.parked = none → ∃ t, exec (.copyRunDelivered c) s = .next t ∧
      t.mem = (s.wr (localKey c (x.blk.toNat % 2 ^ 20 + 0x10)) 8 x.prog).mem ∧ (t.getCore c).copy.run = none ∧
      (t.getCore c).copy.parked = some { x with started := false, snapshot := none } ∧ s.faultsOwner t c x.own sc v (some .copy)
    k.copy.run = some x → x.started = true → x.badDst = none → k.copy.flights = [] → k.copy.landing = [] → k.saving = false → k.saved = false →
    (∀ (e : CoreId) (so dn : Nat) (src dst : Word), x.kind = .copy → 0 < x.c0 → x.prog < x.c0 * x.c1 * x.c2 → s.poison = [] →
      x.copyElem x.prog = (src, dst) →
      let len := min (x.c0 - x.prog % x.c0) (256 - dst.toNat % 256)
      src.toNat = so → so + len ≤ 0x60000 → dn + len ≤ 0x60000 →
      (∀ i, i < len → s.target c (dst + BitVec.ofNat 64 i) 1 = .ok (.loc e 0 (dn + i))) → (s.getCore e).saved = false →
      let pairs := (List.finRange 16).map fun (n : Fin 16) =>
        if e = c then (x.shp[n] &&& 0xEFFF_FFFF_FFFF_FFFF) ||| (k.shp[n] &&& 0x1000_0000_0000_0000) else (s.getCore e).shp[n]
      let lands := fun o => if x.shd then resolvePairs pairs o else o
      let written := s.wrPieces ((List.range len).map fun i => (localKey e (lands (dn + i)), [memRead s.mem (localKey c (so + i))]))
      let now := fun (m : List (Nat × Byte)) => ∃ t, exec (.copyRunDelivered c) s = .next t ∧ (t.getCore c).slots = k.slots ∧
        t.mem = m ∧ after (t.getCore c).copy.run (x.prog + len) (x.c0 * x.c1 * x.c2)
      (0x60000 ≤ lands dn → parks 0x0311 dst) ∧
      ((∀ i, i < len → lands (dn + i) < 0x60000) →
        (x.comp = 0 → now written.mem ∧ ∃ u f, s.sendTry c = .ok u ∧ u.mem = s.mem ∧ (u.getCore c).copy.flights = [f] ∧
          after (u.getCore c).copy.run (x.prog + len) (x.c0 * x.c1 * x.c2) ∧ f.x = x ∧ f.n = len ∧
          ∃ w, u.landTry c f.id = .ok w ∧ w.mem = written.mem ∧ (w.getCore c).copy.flights = []) ∧
        (∀ b, x.comp = 1 → x.caddr = BitVec.ofNat 64 b → b % 16 = 0 → b + 16 ≤ 0x60000 →
          now (written.cbDelta (localKey c b) (-(len : Int))).mem) ∧
        (x.comp = 3 → x.prog + len = x.c0 * x.c1 * x.c2 → (∀ d ∈ x.due, d = e) → now written.mem ∧
          let hdr := BitVec.ofNat 64 (leNat (x.msg.take 8))
          ∃ t id clk, exec (.copyRunDelivered c) s = .next t ∧ t.tmsgs = s.tmsgs ++ [
            { id := id, dst := .core e, initial := none, refused := false,
              held := { launch := k.launch, origin := c, slot := x.own.slot, gen := x.own.gen, counted := false,
                        task := { handler := hdr.extractLsb' 0 20, flags := if hdr.getLsbD 24 then 0xA1 else 0x21, sender := c,
                                  cgen := 0, clk := clk, args := Vector.ofFn fun i =>
                                    if i.val < (hdr.extractLsb' 20 4).toNat then
                                      BitVec.ofNat 64 (if i.val < 6 then leNat ((x.msg.drop (8 + 8 * i.val)).take 8)
                                        else leNat ((x.msg.drop (56 + 4 * (i.val - 6))).take 4))
                                    else 0 } } }]))) ∧
    (x.kind = .gather ∨ x.kind = .scatter → x.prog < x.count →
      (∀ u ps, x.comp = 0 → s.xferParts c x x.prog = .ok (u, ps) →
        (∀ p ∈ ps, ∀ d, homeCore p.key = some d → (s.getCore d).saved = false) →
        ∃ t, exec (.copyRunDelivered c) s = .next t ∧ t.mem = (u.wrPieces (s.landPieces c x ps)).mem ∧
          after (t.getCore c).copy.run (x.prog + 1) x.count) ∧
      (∀ sc v a, s.xferParts c x x.prog = .error (.fault sc v a) → parks sc v) ∧
      (∀ i : Int, s.indexAt c x x.prog = .ok i → s.xferElem c x x.prog =
        if x.kind = .gather then .ok (x.src + BitVec.ofInt 64 (i * x.esize), x.dst + BitVec.ofNat 64 (x.prog * x.esize))
        else .ok (x.src + BitVec.ofNat 64 (x.prog * x.esize), x.dst + BitVec.ofInt 64 (i * x.esize)))) ∧
    (s.xferTotal c x ≤ x.prog →
      (x.comp ≠ 2 → exec (.copyRunDelivered c) s = .next (s.copyRuns c none)) ∧
      (x.comp = 2 →
        let o : SlotId := { core := c, slot := x.own.slot }
        let l := s.getSlot o
        ∃ t, exec (.copyRunDelivered c) s = .next t ∧ t.mem = s.mem ∧ (t.getCore c).copy.run = none ∧
          (l.gen = x.own.gen → l.st ≠ .free → l.cdq.length < 8 →
            t.getSlot o = { l with cdq := l.cdq ++ [{ xfer := x.xfer, handler := x.handler.getD 0, clk := s.xferClock c x }] }) ∧
          (l.gen = x.own.gen → l.st ≠ .free → 8 ≤ l.cdq.length →
            t.getSlot o = { l with cdlost := BitVec.ofNat 32 (min (l.cdlost.toNat + 1) 0xFFFF_FFFF) } ∧
            (t.getCore c).xcnt[14] = BitVec.ofNat 32 (min (k.xcnt[14].toNat + 1) 0xFFFF_FFFF)))) ∧
    (x.kind = .mcast → x.prog < x.bytes →
      (x.snapshot = none → exec (.copyRunDelivered c) s = .next s ∧
        exec (.mcastAnchorSnapshot c) s = .next (s.copyRuns c (some { x with
          snapshot := some ((tabGet? s.bar0.mcast ((dieOf c).toNat * 256 + x.group)).getD 0), snapAt := s.tick }))) ∧
      (∀ w, x.snapshot = some w → exec (.mcastAnchorSnapshot c) s = .next s ∧
        (∀ u bs, mcastOk w k.tenant = false → s.xferRead c x (x.src + BitVec.ofNat 64 x.prog) = .ok (u, bs) →
          parks 0x0611 (BitVec.ofNat 64 x.group)) ∧
        (∀ sc v a, mcastOk w k.tenant = false → s.xferRead c x (x.src + BitVec.ofNat 64 x.prog) = .error (.fault sc v a) → parks sc v) ∧
        (∀ so off : Nat, mcastOk w k.tenant = true → x.comp = 0 → x.shd = false → s.poison = [] →
          (∀ m ∈ mcastMembers w (dieOf c), (s.getCore m).saved = false) →
          (x.src + BitVec.ofNat 64 x.prog).toNat = so → x.doff = BitVec.ofNat 64 off → off + x.bytes ≤ 0x60000 →
          let len := min (x.bytes - x.prog) (256 - (off + x.prog) % 256)
          so + len ≤ 0x60000 →
          let ins := (mcastMembers w (dieOf c)).filter fun m => (s.getCore m).launch = k.launch
          let outs := (mcastMembers w (dieOf c)).filter fun m => (s.getCore m).launch ≠ k.launch
          ∃ t, exec (.copyRunDelivered c) s = .next t ∧
            t.mem = (s.wrPieces ((List.range len).flatMap fun i => ins.map fun m =>
              (localKey m (off + x.prog + i), [memRead s.mem (localKey c (so + i))]))).mem ∧
            after (t.getCore c).copy.run (x.prog + len) x.bytes ∧
            t.errors.map (fun e => (e.kind, e.core, e.word1, e.word3)) = s.errors.map (fun e => (e.kind, e.core, e.word1, e.word3)) ++
              outs.map fun m => (9, m, BitVec.ofNat 64 x.group, c.setWidth 64)))) ∧
    (∀ (a : AtaElem) (d : CoreId) (len : Nat), x.kind = .ata → x.comp = 0 → x.shd = false → s.poison = [] → 0 < len →
      let q := (s.participants c x).idxOf c
      let es := x.ataElems q
      let e : Int := x.esize
      let next := fun (i : Nat) => ({ src := a.src + i * e, rank := a.rank, dst := a.dst + i * e } : AtaElem)
      (∀ i, i < len → es[x.prog + i]? = some (next i)) → (s.participants c x)[a.rank]? = some d →
      0 ≤ a.src → a.src + len * e ≤ 0x60000 → 0 ≤ a.dst → a.dst + len * e ≤ 0x60000 →
      (a.dst + (len - 1) * e) / 256 = a.dst / 256 →
      (es[x.prog + len]? ≠ some (next len) ∨ (a.dst + len * e) / 256 ≠ a.dst / 256) →
      (d = c ∨ s.fenced (dieOf d) = false) → (s.getCore d).saved = false →
      ∃ t, exec (.copyRunDelivered c) s = .next t ∧
        t.mem = (s.wrPieces ((List.range len).map fun i =>
          (localKey d ((next i).dst.toNat), memReads s.mem (localKey c (next i).src.toNat) x.esize))).mem ∧
        after (t.getCore c).copy.run (x.prog + len) es.length)) ∧
  (∀ (x : XferCmd) (q : Nat) (a : AtaElem),
    let sm := dimMap x.block 0x40
    let dm := dimMap x.block 0x60
    let own := fun d => (sm d).extent (x.grid (sm d).axis) (x.shape d)
    (∀ d, d < 4 → ∃ k, k < 4 ∧ ordAt x.block 0x40 k = d) →
    (a ∈ x.ataElems q ↔ ∃ l : Nat → Nat,
      let i := fun d => (sm d).global (x.grid (sm d).axis) (x.coord q (sm d).axis) (l d)
      let at_ := fun (n d : Nat) => if (dm d).axis = n then (dm d).owner (x.grid n) (i d) else 0
      let place := fun (d : Nat) => ((dm d).local_ (x.grid (dm d).axis) (i d) : Int) * dimStride x.block 0x60 d
      (∀ d, d < 4 → l d < own d ∧ i d < x.shape d) ∧
      a.src = x.sbase + l 0 * dimStride x.block 0x40 0 + l 1 * dimStride x.block 0x40 1 + l 2 * dimStride x.block 0x40 2 +
        l 3 * dimStride x.block 0x40 3 ∧
      a.dst = x.dbase + place 0 + place 1 + place 2 + place 3 ∧
      let coord := fun (n : Nat) => at_ n 0 + at_ n 1 + at_ n 2 + at_ n 3
      a.rank = coord 0 + x.grid 0 * (coord 1 + x.grid 1 * coord 2))) ∧
  ∀ (s : State) (c : CoreId) (f g : Flight) (p r : RunPart),
    (s.getCore c).copy.flights = [f, g] → f.id ≠ g.id → f.parts = [p] → g.parts = [r] → p.bytes ≠ [] → r.bytes ≠ [] →
    f.x.shd = false → g.x.shd = false → g.x.comp = 0 → g.bars = [] → g.x.kind = .copy →
    (∀ d, homeCore r.key = some d → (s.getCore d).saved = false ∧ r.key % 2 ^ 20 + r.bytes.length ≤ 0x60000) →
    (∀ x ∈ (s.getCore c).copy.run.toList ++ (s.getCore c).copy.landing, x.badDst = none) →
    let meet := ∃ b, p.key ≤ b ∧ b < p.key + p.bytes.length ∧ r.key ≤ b ∧ b < r.key + r.bytes.length
    let same := f.x.xfer = g.x.xfer ∧ f.x.own = g.x.own
    (same → meet → s.landTry c g.id = .ok s) ∧
    (¬(same ∧ meet) → ∃ t, s.landTry c g.id = .ok t ∧ t.mem = (s.wrPieces [(r.key, r.bytes)]).mem ∧
      (t.getCore c).copy.flights = [f])

/-- The order of R112 at a boundary, `ASYNC_SUPERVISOR_CAUSE` (R111) and `COPYDONE` (R110, R186); the record of happens-before is the
model's own (log 60). -/
def Obligations.BoundaryCauses : Prop :=
  (∀ (s : State) (o : SlotId),
    ((s.getSlot o).mode = .user → (s.getSlot o).asyncs ≠ [] → s.turn o = exec (.asyncSupervisorCause o) s) ∧
    ((s.getSlot o).mode = .user → (s.getSlot o).asyncs = [] → (s.getSlot o).cdq ≠ [] → (s.getSlot o).intrap = false →
      s.turn o = exec (.copydone o) s) ∧
    ((s.getSlot o).mode = .user → (s.getSlot o).asyncs = [] → ((s.getSlot o).cdq = [] ∨ (s.getSlot o).intrap = true) →
      s.turn o = s.run o) ∧
    ((s.getSlot o).mode = .supervisor → s.turn o = s.run o)) ∧
  (∀ (s : State) (o : SlotId) (a : AsyncCause) (as : List AsyncCause),
    let l := s.getSlot o
    l.asyncs = a :: as →
    (l.mode = .supervisor → exec (.asyncSupervisorCause o) s = .next s) ∧
    (l.mode = .user → l.st = .ready → s.mayTake o = true → isCode (s.getCore o.core).svec.toNat →
      ∃ t, exec (.asyncSupervisorCause o) s = .next t ∧ t.mem = s.mem ∧ (∀ q, q ≠ o → t.getSlot q = s.getSlot q) ∧
        t.getSlot o = { l with asyncs := as, sepc := l.pc, scause := a.scause, sval := a.val, mode := .supervisor, st := .held,
                               pc := (s.getCore o.core).svec, wait := none, joinAns := none })) ∧
  ∀ (s : State) (o : SlotId) (d : CopyDone) (ds : List CopyDone),
    let l := s.getSlot o
    l.cdq = d :: ds →
    (l.mode = .supervisor ∨ l.intrap = true ∨ l.asyncs ≠ [] → exec (.copydone o) s = .next s) ∧
    (l.mode = .user → l.st = .ready → l.intrap = false → l.asyncs = [] → s.mayTake o = true → isCode d.handler.toNat →
      ∃ t, exec (.copydone o) s = .next t ∧ t.mem = s.mem ∧ (∀ q, q ≠ o → t.getSlot q = s.getSlot q) ∧
        (t.getCore o.core).rlb = [] ∧
        t.getSlot o = { l with cdq := ds, xferid := d.xfer, tepc := l.pc, tcause := 0x03, tval := d.xfer.setWidth 64,
                               intrap := true, wait := none, joinAns := none, pc := d.handler.setWidth 20, clk := l.clk.join d.clk })

/-- `scfg` (R193), `sstop` and `sflush` (R195), and `STREAM_PREFETCH` (R193, R194). The alignment of a stream's elements, which R193 and R194 do
not give, is the model's reading, as of vector loads (R130; DEDUCED, log 35). -/
def Obligations.Streams : Prop :=
  (∀ (s : State) (o : ScfgOp), s.FullX [o.a] →
    let a := s.xv o.a
    let key := localKey s.cur.core a.toNat
    let base := s.rd64 key
    let cnt := s.rd64 (key + 8)
    let ctl := s.rd64 (key + 0x18)
    let good := cnt.extractLsb' 48 16 = 0 ∧ ctl.extractLsb' 4 60 = 0 ∧ cnt.extractLsb' 0 16 ≠ 0 ∧ cnt.extractLsb' 16 16 ≠ 0 ∧
      cnt.extractLsb' 32 16 ≠ 0
    let out := ctl.getLsbD 0
    let cfg : StreamCfg :=
      { base := base, c0 := (cnt.extractLsb' 0 16).toNat, c1 := (cnt.extractLsb' 16 16).toNat, c2 := (cnt.extractLsb' 32 16).toNat,
        s1 := (s.rd32 (key + 0x10)).toInt, s2 := (s.rd32 (key + 0x14)).toInt, tbl := ctl.extractLsb' 1 3, pos := 0, pre := [],
        clk := s.slot.clk, met := [] }
    let done := Host.Outcome.next ((s.modSlot fun l =>
      { l with sm := setBit l.sm o.s.toNat true, sd := setBit l.sd o.s.toNat out
               streams := l.streams.setIfInBounds o.s.toNat cfg }).advance 4).noteIssued
    let sup := fun (k : BitVec 16) (v : Word) => Host.Outcome.next (s.takeSup s.cur k v s.slot.pc)
    (a.toNat % 32 = 0 → a.toNat + 32 ≤ 0x60000 → s.poisonAt key 32 = none → s.reqsOf s.cur = [] →
      (¬good → exec (.scfg o) s = sup 0x0D11 a) ∧
      (good → ∀ k, addrForm s.cur.core base = .error k → exec (.scfg o) s = sup k.scause base) ∧
      (good → ∀ c w off, addrForm s.cur.core base = .ok (.loc c w off) →
        ((out = true → w ≠ 6) → exec (.scfg o) s = done) ∧ (out = true → w = 6 → exec (.scfg o) s = sup 0x0D11 a)) ∧
      (good → ∀ va, addrForm s.cur.core base = .ok (.virt va) → (out = false ∨ s.xf8Page base = false → exec (.scfg o) s = done) ∧
        (out = true → s.xf8Page base = true → exec (.scfg o) s = sup 0x0D11 a))) ∧
    (base.toNat / 2 ^ 48 ≠ 0 → addrForm s.cur.core base = .error .noncanon) ∧
    (∀ off : Nat, off < 2 ^ 20 → addrForm s.cur.core (BitVec.ofNat 64 off) = .ok (.loc s.cur.core 0 off)) ∧
    (∀ r : StreamCfg × Bool, readStream s a = .ok r → (∃ q ∈ s.reqsOf s.cur, q.isStoreLike = true) →
      exec (.scfg o) s = .next (s.waitsHere 6))) ∧
  (∀ (s : State) (o : StrmOp),
    let n := o.s.toNat
    let on := s.slot.sm.getLsbD n
    let out := s.slot.sd.getLsbD n
    let st := s.slot.streams.getD n StreamCfg.off
    let done := fun (t : State) => Host.Outcome.next (t.advance 4).noteIssued
    (on = false → exec (.sstop o) s = done s ∧ exec (.sflush o) s = done s) ∧
    (on = true → out = true → 0 < s.pushesOut s.cur (streamIx o.s) →
      exec (.sstop o) s = .next (s.waitsHere 6) ∧ exec (.sflush o) s = .next (s.waitsHere 6)) ∧
    (on = true → (out = false ∨ s.pushesOut s.cur (streamIx o.s) = 0) → exec (.sstop o) s = done (s.modSlot fun l =>
      { l with sm := setBit l.sm n false, streams := l.streams.setIfInBounds n StreamCfg.off })) ∧
    (on = true → out = true → s.pushesOut s.cur (streamIx o.s) = 0 → exec (.sflush o) s = done s) ∧
    (on = true → out = false → exec (.sflush o) s = done (s.modSlot fun l =>
      { l with streams := l.streams.setIfInBounds n { st with pre := [], met := [], clk := s.slot.clk } })) ∧
    (s.reqsOf s.cur = [] → s.pushesOut s.cur (streamIx o.s) = 0)) ∧
  ∀ (s : State) (a : StreamArg),
    let l := s.getSlot a.ctx
    let k := s.getCore a.ctx.core
    let st := l.streams.getD a.s.toNat StreamCfg.off
    let n := st.pos + st.pre.length
    let total := st.c0 * st.c1 * st.c2
    let adds := fun (e : StreamElem) => Host.Outcome.next (s.onSlot a.ctx fun l =>
      { l with streams := l.streams.setIfInBounds a.s.toNat { st with pre := st.pre ++ [e], met := st.met ++ [[]] } })
    (l.sm.getLsbD a.s.toNat = false ∨ l.sd.getLsbD a.s.toNat = true ∨ 4 ≤ st.pre.length ∨ total ≤ n →
      exec (.streamPrefetch a) s = .next s) ∧
    (l.sm.getLsbD a.s.toNat = true → l.sd.getLsbD a.s.toNat = false → st.pre.length < 4 → n < total →
      (∀ e ∈ st.pre, ∃ v p, e = .ok v p) → k.saving = false → k.saved = false →
      ∀ c0 w o0 c off, s.target a.ctx.core st.base = .ok (.loc c0 w o0) → w ≤ 5 →
        let win := windowOf w
        let width := win.width
        let ea := st.base + BitVec.ofInt 64 (16 * width * (n % st.c0 : Nat) + st.s1 * (n / st.c0 % st.c1 : Nat) +
          st.s2 * (n / (st.c0 * st.c1) : Nat))
        let align := if w = 0 then 64 else width
        addrForm a.ctx.core ea = .ok (.loc c w off) → (c = a.ctx.core ∨ s.fenced (dieOf c) = false) →
        (0x60000 < off + 16 * width → exec (.streamPrefetch a) s = adds (.fault 0x0311 ea)) ∧
        (off % align ≠ 0 → off + 16 * width ≤ 0x60000 → exec (.streamPrefetch a) s = adds (.fault 0x0511 ea)) ∧
        (off % align = 0 → off + 16 * width ≤ 0x60000 → (s.getCore c).saved = false → s.poison = [] →
          (∀ q ∈ s.reqs, q.core ≠ a.ctx.core) → (∀ ln ∈ k.rlb, homeCore ln.key ≠ some c) →
          ∃ t, exec (.streamPrefetch a) s = .next t ∧ t.mem = s.mem ∧ t.reqs = s.reqs ∧
            (∀ o, o ≠ a.ctx → t.getSlot o = s.getSlot o) ∧ ∃ met,
              let elem := StreamElem.ok (lanes fun i => win.widen (s.rd (localKey c (off + i * width)) width)) none
              t.getSlot a.ctx = { l with
                streams := l.streams.setIfInBounds a.s.toNat { st with pre := st.pre ++ [elem], met := st.met ++ [met] } }))

/-- The tree instructions (R217-R227) and `TREE_COMMAND_RUN` (R218). CR.SEPC of a TREEVAL that becomes DOUBLE or a runtime failure (DEDUCED, log
23) and CR.SVAL of a `tbuild` or `tdraw` without a tree (DEDUCED, log 36) are the model's readings; an undefined tree (log 10) and the mass
of leaves that are no rates (DESIGN CHOICE, log 70) its choices. -/
def Obligations.RateTree : Prop :=
  (∀ (s : State) (o : RAB), s.FullX [o.a, o.b] →
    let a := s.xv o.a
    let b := s.xv o.b
    let node := (a.extractLsb' 0 20).toNat
    let leaf := (a.extractLsb' 32 20).toNat
    (s.core.tree ≠ [] → exec (.tcfg o) s = .next (s.waitsHere 9)) ∧
    (s.core.tree = [] → s.treeReady s.cur.core s.owner = true →
      ((∀ k, 1 ≤ k → k ≤ 13 → b.toNat ≠ 2 ^ k) → exec (.tcfg o) s = s.treeRange b) ∧
      ∀ k, 1 ≤ k → k ≤ 13 → b.toNat = 2 ^ k →
        let good := a.extractLsb' 52 12 = 0 ∧ a.extractLsb' 20 12 = 0 ∧ node % 8 = 0 ∧ leaf % 4 = 0 ∧ node + 8 * 2 ^ k ≤ 0x60000 ∧
          leaf + 4 * 2 ^ k ≤ 0x60000 ∧ (node + 8 * 2 ^ k ≤ leaf ∨ leaf + 4 * 2 ^ k ≤ node)
        (good → exec (.tcfg o) s = .next ((s.modCore fun c =>
          { c with tcfg := BitVec.ofNat 4 k, tnode := a.extractLsb' 0 20, tleaf := a.extractLsb' 32 20 }).advance 4).noteIssued) ∧
        (¬good → exec (.tcfg o) s = s.treeRange a))) ∧
  (∀ s : State, s.reqs = [] → s.treeReady s.cur.core s.owner = true) ∧
  (∀ (s : State) (i : Instr) (k : Nat) (xs : List XReg) (vs : List VReg) (a : Word) (l : List (Nat × Word32)) (ev : Events),
    leafForm s (2 ^ k) i = some (xs, vs, a, l, ev) → s.FullX xs → s.FullV vs → s.core.jmode = false →
    (s.core.tcfg = 0 → exec i s = s.treeRange a) ∧
    (s.core.tcfg.toNat = k → k ≠ 0 → ¬s.core.TreeOf k → exec i s = s.treeRange (s.core.tcfg.setWidth 64)) ∧
    (s.core.TreeOf k → 2 ^ k ≤ a.toNat → exec i s = s.treeRange a) ∧
    (s.core.TreeOf k → a.toNat < 2 ^ k → 5 ≤ s.core.tree.length → exec i s = .next (s.waitsHere 5)) ∧
    (s.core.TreeOf k → a.toNat < 2 ^ k → s.core.tree.length < 5 →
      let t := ((s.queueTree (.write (acceptedRates l).1)).countEvents ev).advance 4
      ((acceptedRates l).2 = none → exec i s = .next t.noteIssued) ∧
      ∀ j, (acceptedRates l).2 = some j →
        exec i s = .next (t.takeUser s.cur 0x05 (BitVec.ofNat 64 j) (s.slot.pc + 4) s.slot.pc).noteIssued)) ∧
  (∀ (s : State) (o : RA) (k : Nat), s.FullX [o.a] → s.core.jmode = false →
    let a := s.xv o.a
    (s.core.tcfg = 0 → exec (.tcut o) s = s.treeRange a ∧ exec (.tbuild {}) s = s.treeRange 0) ∧
    (s.core.tcfg.toNat = k → k ≠ 0 → ¬s.core.TreeOf k →
      exec (.tcut o) s = s.treeRange (s.core.tcfg.setWidth 64) ∧ exec (.tbuild {}) s = s.treeRange (s.core.tcfg.setWidth 64)) ∧
    (s.core.TreeOf k → 5 ≤ s.core.tree.length →
      exec (.tcut o) s = .next (s.waitsHere 5) ∧ exec (.tbuild {}) s = .next (s.waitsHere 5)) ∧
    (s.core.TreeOf k → s.core.tree.length < 5 →
      exec (.tcut o) s = .next ((s.queueTree (.cut (a.setWidth 32))).advance 4).noteIssued ∧
      exec (.tbuild {}) s = .next ((s.queueTree .build).advance 4).noteIssued)) ∧
  (∀ (s : State) (k : Nat) (d : XReg), s.slot.xIsFull d = true →
    let sent := fun (t : State) (op : TreeOp) =>
      Host.Outcome.next (((t.queueTree op).modSlot fun l => l.markX d false).advance 4).noteIssued
    (∀ o : R2, o.d = d → s.FullX [o.a] →
      (s.core.tcfg = 0 → exec (.tget o) s = s.treeRange (s.xv o.a)) ∧
      (s.core.TreeOf k → 2 ^ k ≤ (s.xv o.a).toNat → exec (.tget o) s = s.treeRange (s.xv o.a)) ∧
      (s.core.TreeOf k → (s.xv o.a).toNat < 2 ^ k → s.core.tree.length < 5 →
        exec (.tget o) s = sent s (.get (s.xv o.a).toNat d))) ∧
    (∀ i xs a op, treeReturnForm s i = some (xs, d, a, op) → s.FullX xs →
      (s.core.tcfg = 0 → exec i s = s.treeRange a) ∧
      (s.core.TreeOf k → s.core.tree.length < 5 → exec i s = sent s op) ∧
      (s.core.TreeOf k → 5 ≤ s.core.tree.length → exec i s = .next (s.waitsHere 5))) ∧
    (s.core.TreeOf k → s.core.tree.length < 5 → exec (.troot { d := d }) s = sent s (.root d)) ∧
    (s.core.tcfg = 0 → s.core.tree.length < 5 → ∃ t, exec (.troot { d := d }) s = .next t ∧ t.mem = s.mem ∧
      t.core.tree = s.core.tree ++ [{ own := s.owner, cfg := { n := 0, node := 0, leaf := 0 }, op := .root d }]) ∧
    (s.core.tcfg.toNat = k → k ≠ 0 → ¬s.core.TreeOf k →
      exec (.troot { d := d }) s = s.treeRange (s.core.tcfg.setWidth 64) ∧
      exec (.tdraw { d := d }) s = s.treeRange (s.core.tcfg.setWidth 64)) ∧
    (s.core.tcfg = 0 → exec (.tdraw { d := d }) s = s.treeRange 0) ∧
    (∀ t w, s.core.TreeOf k → s.core.tree.length < 5 → draw s = .ok (t, w) →
      exec (.tdraw { d := d }) s = sent t (.draw d (BitVec.ofNat 64 (pick64 w))))) ∧
  (∀ (s : State) (o : RAB) (k : Nat), s.MemoryCanonical → s.FullX [o.a, o.b] → s.core.jmode = true → s.core.TreeOf k → s.core.tree = [] →
    s.core.treeSpoiled = false → s.treeReady s.cur.core s.owner = true → s.poison = [] → (s.xv o.a).toNat < 2 ^ k → (s.xv o.b).extractLsb' 0 32 < 0x7F80_0000 →
    let j := (s.xv o.a).toNat
    let p := s.core.jptr.toNat
    let leaf := localKey s.cur.core (s.core.tleaf.toNat + 4 * j)
    (s.core.jlim.toNat < p + 32 → exec (.tset o) s = .next (s.takeSup s.cur 0x14 (BitVec.ofNat 64 p) s.slot.pc)) ∧
    (p % 32 = 0 → p + 32 ≤ s.core.jlim.toNat → p + 32 ≤ 0x60000 →
      (p + 32 ≤ s.core.tleaf.toNat ∨ s.core.tleaf.toNat + 4 * 2 ^ k ≤ p) → (p + 32 ≤ s.core.tnode.toNat ∨ s.core.tnode.toNat + 8 * 2 ^ k ≤ p) →
      ∃ t, exec (.tset o) s = .next t ∧ t.core.jptr = s.core.jptr + 32 ∧ t.core.tree = [] ∧
        t.slot = { s.slot with pc := s.slot.pc + 4, issued := s.slot.issued + 1 } ∧ t.rd leaf 4 = (s.xv o.b).toNat % 2 ^ 32 ∧
        t.rd64 (localKey s.cur.core p) = BitVec.ofNat 64 (1 + j * 2 ^ 32) ∧
        t.rd (localKey s.cur.core (p + 8)) 8 = s.rd leaf 4 ∧ t.rd64 (localKey s.cur.core (p + 16)) = s.core.eseq ∧
        t.rd64 (localKey s.cur.core (p + 24)) = 0 ∧
        ∀ q, 1 ≤ q → (∃ e, 1 ≤ e ∧ q = (2 ^ k + j) / 2 ^ e) →
          t.nodeSums s.cur.core { n := 2 ^ k, node := s.core.tnode.toNat, leaf := s.core.tleaf.toNat } q)) ∧
  (∀ (s : State) (c : CoreId) (m : TreeCmd) (q : List TreeCmd) (d : XReg),
    let o : SlotId := { core := c, slot := m.own.slot }
    let l := s.getSlot o
    (s.getCore c).tree = m :: q → (s.getCore c).saved = false → s.treeReady c m.own = true → m.op = .root d → m.cfg.n = 0 →
    ∃ t, exec (.treeCommandRun c) s = .next t ∧ t.mem = s.mem ∧ (t.getCore c).tree = q ∧
      t.getSlot o = if l.gen = m.own.gen ∧ l.st ≠ .free then (l.setX d 0).markX d true else l) ∧
  (∀ (s : State) (c : CoreId) (m : TreeCmd) (q : List TreeCmd) (k : Nat), s.MemoryCanonical →
    let core := s.getCore c
    let cfg := m.cfg
    let o : SlotId := { core := c, slot := m.own.slot }
    let l := s.getSlot o
    let leaf := fun (j : Nat) => localKey c (cfg.leaf + 4 * j)
    let node := fun (p : Nat) => localKey c (cfg.node + 8 * p)
    let val := fun (j : Nat) => s.rd (leaf j) 4
    core.tree = m :: q → core.saving = false → core.saved = false → s.treeReady c m.own = true →
    1 ≤ k → k ≤ 13 → cfg.n = 2 ^ k → cfg.fits = true →
    let gives := fun (d : XReg) (w : Word) => ∃ t, exec (.treeCommandRun c) s = .next t ∧ t.mem = s.mem ∧ (t.getCore c).tree = q ∧
      t.getSlot o = if l.gen = m.own.gen ∧ l.st ≠ .free then (l.setX d w).markX d true else l
    (s.poison = [] → m.op = .build →
      ∃ t, exec (.treeCommandRun c) s = .next t ∧ (t.getCore c).tree = q ∧ (t.getCore c).slots = core.slots ∧
        (t.getCore c).treeSpoiled = false ∧ (∀ p, 1 ≤ p → p < 2 ^ k → t.nodeSums c cfg p) ∧
        ∀ key, ¬(node 1 ≤ key ∧ key < node (2 ^ k)) → memRead t.mem key = memRead s.mem key) ∧
    (s.poison = [] → core.treeSpoiled = true → ∀ j d, m.op = .get j d → j < 2 ^ k →
      gives d (BitVec.ofNat 64 (Config.undefinedObject s.tick (leaf j) % 2 ^ 32))) ∧
    (s.poison = [] → core.treeSpoiled = false →
      (∀ ls, m.op = .write ls → (∀ r ∈ ls, r.1 < 2 ^ k) → (ls.map (·.1)).Nodup →
        ∃ t, exec (.treeCommandRun c) s = .next t ∧ (t.getCore c).tree = q ∧ (t.getCore c).slots = core.slots ∧
          (∀ r ∈ ls, t.rd (leaf r.1) 4 = r.2.toNat) ∧ (∀ j, j < 2 ^ k → j ∉ ls.map (·.1) → t.rd (leaf j) 4 = val j) ∧
          (∀ p, 1 ≤ p → (∃ r ∈ ls, ∃ e, 1 ≤ e ∧ p = (2 ^ k + r.1) / 2 ^ e) → t.nodeSums c cfg p) ∧
          (∀ p, p < 2 ^ k → ¬(1 ≤ p ∧ ∃ r ∈ ls, ∃ e, 1 ≤ e ∧ p = (2 ^ k + r.1) / 2 ^ e) → t.rd (node p) 8 = s.rd (node p) 8) ∧
          ∀ key, ¬(leaf 0 ≤ key ∧ key < leaf (2 ^ k)) → ¬(node 0 ≤ key ∧ key < node (2 ^ k)) → memRead t.mem key = memRead s.mem key) ∧
      (∀ thr, m.op = .cut thr → ∃ t, exec (.treeCommandRun c) s = .next t ∧ (t.getCore c).tree = q ∧
        (t.getCore c).slots = core.slots ∧
        (∀ j, j < 2 ^ k → t.rd (leaf j) 4 = if FVal.lt false (fp32.decode (val j)) (fp32.decode thr.toNat) then 0 else val j) ∧
        ∀ p, 1 ≤ p → p < 2 ^ k → t.nodeSums c cfg p) ∧
      (∀ j d, m.op = .get j d → j < 2 ^ k → gives d (BitVec.ofNat 64 (val j))) ∧
      (∀ d, m.op = .root d → gives d (s.rd64 (node 1))) ∧
      (∀ d v, m.op = .draw d v ∨ m.op = .desc d v →
        let target := if m.op = .draw d v then (fp64.mul v.toNat (s.rd (node 1) 8)).bits else v.toNat
        ((fp64.decode (s.rd (node 1) 8)).isZero = true → gives d (BitVec.allOnes 64)) ∧
        ((fp64.decode (s.rd (node 1) 8)).isZero = false →
          let r := s.descent c cfg k 1 target
          gives d (BitVec.ofNat 64 (r.1 - 2 ^ k + (fp32.convert .rne (fp64.decode r.2)).bits * 2 ^ 32)))) ∧
      (∀ d mass b, m.op = .thr d mass b →
        let up := fun (v : Nat) => ((List.range (2 ^ k)).map val).filter (v ≤ ·)
        let fits := fun (v : Nat) => if mass then fp64.decode b.toNat ≠ .nan ∧ FVal.lt false (massOf (up v)) (fp64.decode b.toNat) = false
          else b.toNat ≤ (up v).length
        ((∀ j, j < 2 ^ k → ¬fits (val j)) → gives d (BitVec.allOnes 64)) ∧
        ∀ j, j < 2 ^ k → fits (val j) → (∀ i, i < 2 ^ k → fits (val i) → val i ≤ val j) → gives d (BitVec.ofNat 64 (val j))) ∧
      ((∀ p, 1 ≤ p → p < 2 ^ k → s.nodeSums c cfg p) → (∀ j, j < 2 ^ k → val j < 0x7F80_0000) →
        (s.heapValue c cfg 1).isZero = false → ∀ w, (fp64.decode w).isNeg = false →
        let r := s.descent c cfg k 1 w
        2 ^ k ≤ r.1 ∧ r.1 < 2 ^ (k + 1) ∧ val (r.1 - 2 ^ k) ≠ 0)) ∧
    ∀ j d g, m.op = .get j d → j < 2 ^ k → s.poison.find? (fun g => leaf j < 8 * g + 8 && 8 * g < leaf j + 4) = some g →
      ∃ t, exec (.treeCommandRun c) s = .next t ∧ t.mem = s.mem ∧ (t.getCore c).tree = q ∧
        s.faultsOwner t c m.own 0x12 (BitVec.ofNat 64 (8 * g - localKey c 0)) none)

/-- `jst` (R129), `tnext` (R224), `jmark` (R238), `tmsg` (R235), `bsend` (R234), `jundo` (R236), `jtrim` (R237),
`BOUNDARY_MESSAGE_ARRIVAL`, `CANCEL_ARRIVAL` (R231) and `BOUNDARY_ACK_ARRIVAL` (R239). The model's own: the RANGE of a `jundo` whose pointer
lies below CR.JBASE (DEDUCED, log 37), the event of a root that is negative or a NaN (DESIGN CHOICE, log 55), the acknowledgement of a cancel
that matches no entry (DESIGN CHOICE, log 69) and the count of queued `bsend` commands (DESIGN CHOICE, log 71). -/
def Obligations.Regions : Prop :=
  (∀ (s : State) (o : SOp), s.FullX [o.a, o.b] →
    let ea := s.xv o.a + o.imm.signExtend 64
    let key := localKey s.cur.core ea.toNat
    let p := s.core.jptr.toNat
    let sup := fun (k : BitVec 16) (v : Word) => Host.Outcome.next (s.takeSup s.cur k v s.slot.pc)
    (ea.toNat % 8 ≠ 0 → ea.toNat + 8 ≤ 0x60000 → exec (.jst o) s = sup 0x0511 ea) ∧
    (ea.toNat % 8 = 0 → ea.toNat + 8 ≤ 0x60000 →
      (s.core.jmode = false →
        exec (.jst o) s = .next ((s.send ea (.jst key (s.xv o.b) none)).advance 4).noteIssued) ∧
      (s.core.jmode = true →
        (s.core.jlim.toNat < p + 32 → exec (.jst o) s = sup 0x14 (BitVec.ofNat 64 p)) ∧
        (p + 32 ≤ s.core.jlim.toNat → 0x60000 < p + 32 → exec (.jst o) s = sup 0x0311 (BitVec.ofNat 64 p)) ∧
        (p + 32 ≤ s.core.jlim.toNat → p + 32 ≤ 0x60000 → p % 32 ≠ 0 → exec (.jst o) s = sup 0x0511 (BitVec.ofNat 64 p)) ∧
        (p + 32 ≤ s.core.jlim.toNat → p + 32 ≤ 0x60000 → p % 32 = 0 → s.ctxPoison s.cur key 8 = none →
          exec (.jst o) s = .next (((s.modCore fun c => { c with jptr := c.jptr + 32 }).send ea
            (.jst key (s.xv o.b) (some (s.core.jptr, ea, s.core.eseq)))).advance 4).noteIssued)))) ∧
  (∀ (s : State) (d : XReg) (k : Nat), s.MemoryCanonical → s.FullX [d, d + 1] → s.core.tree = [] → s.reqs = [] → s.poison = [] →
    s.core.treeSpoiled = false →
    (s.core.tcfg = 0 ∨ s.core.TreeOf k) →
    let c := s.cur.core
    let ctl := s.ctl c
    let root := if s.core.tcfg = 0 then 0 else s.rd (localKey c (s.core.tnode.toNat + 8)) 8
    let quiet := (fp64.decode root).isZero = true
    let above := FVal.lt false (.fin false 0 0) (fp64.decode root) = true
    let p := s.core.jptr.toNat
    let here := localKey c p
    (ctl / 2 ^ 16 % 2 = 1 → exec (.tnext { d := d }) s =
      .next (s.takeUser s.cur 0x02 (s.stragglerKey c).time s.slot.pc s.slot.pc)) ∧
    (ctl / 2 ^ 16 % 2 = 0 → ctl / 2 ^ 17 % 2 = 1 → exec (.tnext { d := d }) s =
      .next ((s.setCtl c 17 1 0).takeSup s.cur 0x15 (BitVec.ofNat 64 (ctl / 2 ^ 32)) s.slot.pc)) ∧
    (ctl / 2 ^ 16 % 4 = 0 → s.core.jmode = true → s.core.jlim.toNat < s.core.jptr.toNat + 64 →
      exec (.tnext { d := d }) s = .next (s.takeSup s.cur 0x14 (s.core.jptr.setWidth 64) s.slot.pc)) ∧
    (ctl / 2 ^ 16 % 4 = 0 → (s.core.jmode = true → p % 32 = 0 ∧ p + 64 ≤ s.core.jlim.toNat ∧ p + 64 ≤ 0x60000 ∧
        (here + 64 ≤ s.core.inbox ∨ s.core.inbox + s.core.inboxSize ≤ here)) → ∀ (t : State) (tau target next : Nat),
      ((¬above ∧ t = s ∧ tau = infBits.toNat ∧ target = Config.noTarget s.tick % 2 ^ 64 ∧
          next = (fp64.add s.core.rclk.toNat infBits.toNat).bits) ∨
        (above ∧ ∃ t1 u v, draw s = .ok (t1, u) ∧ draw t1 = .ok (t, v) ∧ target = (fp64.mul (pick64 v) root).bits ∧
          tau = (fp64.div ((fp64.ln (time64 u)).bits ^^^ 2 ^ 63) root).bits ∧
          next = (fp64.add s.core.rclk.toNat tau).bits)) →
      let marked := fun (u : State) (more : Nat) => (s.core.jmode = false → u.core.jptr = s.core.jptr) ∧
        (s.core.jmode = true → u.core.jptr.toNat = p + 32 + more ∧
          u.recordAt c p (BitVec.ofNat 64 (5 + (s.currentKey c).region.toNat * 2 ^ 32)) s.core.rclk (s.currentKey c).seq
            (if s.slot.rsrc then s.slot.rtidx.setWidth 64 else s.slot.rctr))
      let slot := fun (a b : Word) =>
        { (((t.slot.setX d a).markX d true).setX (d + 1) b).markX (d + 1) true with pc := s.slot.pc + 4, issued := s.slot.issued + 1 }
      (∀ i, s.leastPending c = some i → timeLe (s.entry c i).time (BitVec.ofNat 64 next) = true →
        ∃ u, exec (.tnext { d := d }) s = .next u ∧ u.slot = slot 0xFFFF_FFFF (s.entry c i).time ∧
          u.core.rclk = (s.entry c i).time ∧ u.core.eseq = s.core.eseq + 1 ∧ u.currentKey c = s.entry c i ∧ u.entryState c i = 2 ∧
          u.entry c i = s.entry c i ∧ u.ctl c / 2 ^ 18 % 2 = 1 ∧ u.ctl c / 2 ^ 24 % 256 = 0 ∧ marked u 32 ∧
          (s.core.jmode = true → u.recordAt c (p + 32) 4 (s.entry c i).time (s.entry c i).seq ((s.entry c i).region.setWidth 64))) ∧
      ((∀ i, s.leastPending c = some i → timeLe (s.entry c i).time (BitVec.ofNat 64 next) = false) → quiet →
        ∃ u, exec (.tnext { d := d }) s = .next u ∧ u.slot = slot (BitVec.allOnes 64) infBits ∧ u.mem = s.mem ∧
          u.core.rclk = s.core.rclk ∧ u.core.eseq = s.core.eseq ∧ u.core.jptr = s.core.jptr) ∧
      ((∀ i, s.leastPending c = some i → timeLe (s.entry c i).time (BitVec.ofNat 64 next) = false) → ¬quiet →
        ∃ u, exec (.tnext { d := d }) s = .next u ∧
          u.slot = slot (BitVec.ofNat 64 ((s.descent c s.core.treeCfg k 1 target).1 - 2 ^ k)) (BitVec.ofNat 64 tau) ∧
          u.core.rclk = BitVec.ofNat 64 next ∧ u.core.eseq = s.core.eseq + 1 ∧ u.ctl c / 2 ^ 18 % 2 = 0 ∧ marked u 0 ∧
          u.ctl c / 2 ^ 24 % 256 = 0 ∧
          u.currentKey c = { time := BitVec.ofNat 64 next, region := s.core.regid, seq := (s.core.eseq + 1) <<< 8 }))) ∧
  (∀ (s : State) (c : CoreId),
    (∀ i, s.leastPending c = some i → i ∈ s.entries c ∧ s.entryState c i = 1 ∧
      ((∀ j ∈ s.entries c, s.entryState c j = 1 → fp64.decode (s.entry c j).time.toNat ≠ .nan) →
        ∀ j ∈ s.entries c, s.entryState c j = 1 → (s.entry c j).lt (s.entry c i) = false)) ∧
    (s.leastPending c = none → ∀ j ∈ s.entries c, s.entryState c j ≠ 1)) ∧
  (∀ s : State, s.MemoryCanonical → s.core.tree = [] → s.reqs = [] → s.poison = [] →
    let c := s.cur.core
    let p := s.core.jptr.toNat
    let opened := fun (u : State) => u.slot = { s.slot with pc := s.slot.pc + 4, issued := s.slot.issued + 1 } ∧
      u.core.eseq = s.core.eseq + 1 ∧ u.core.rclk = s.core.rclk ∧ u.ctl c / 2 ^ 18 % 2 = 0 ∧ u.ctl c / 2 ^ 24 % 256 = 0 ∧
      u.currentKey c = { time := s.core.rclk, region := s.core.regid, seq := (s.core.eseq + 1) <<< 8 }
    (s.core.jmode = false → ∃ u, exec (.jmark {}) s = .next u ∧ opened u ∧ u.core.jptr = s.core.jptr) ∧
    (s.core.jmode = true → s.core.jlim.toNat < p + 32 →
      exec (.jmark {}) s = .next (s.takeSup s.cur 0x14 (s.core.jptr.setWidth 64) s.slot.pc)) ∧
    (s.core.jmode = true → p + 32 ≤ s.core.jlim.toNat → p + 32 ≤ 0x60000 → p % 32 = 0 →
      (localKey c p + 32 ≤ s.core.inbox ∨ s.core.inbox + 64 ≤ localKey c p) →
      ∃ u, exec (.jmark {}) s = .next u ∧ opened u ∧ u.core.jptr = s.core.jptr + 32 ∧
        u.rd64 (localKey c p) = BitVec.ofNat 64 (5 + (s.currentKey c).region.toNat * 2 ^ 32) ∧
        u.rd64 (localKey c (p + 8)) = s.core.rclk ∧ u.rd64 (localKey c (p + 16)) = (s.currentKey c).seq ∧
        u.rd64 (localKey c (p + 24)) = if s.slot.rsrc then s.slot.rtidx.setWidth 64 else s.slot.rctr)) ∧
  (∀ (s : State) (o : R2), s.FullX [o.a, o.d] → s.core.tree = [] → s.reqs = [] → s.poison = [] →
    let c := s.cur.core
    let a := (s.xv o.a).toNat
    ((s.ctl c / 2 ^ 18 % 2 = 0 ∨ 3 < a) → exec (.tmsg o) s = .next (s.takeSup s.cur 0x10 s.instrWord s.slot.pc)) ∧
    (s.ctl c / 2 ^ 18 % 2 = 1 → a ≤ 3 → ∀ i, s.findEntry c (s.currentKey c) (fun _ => true) = some i →
      exec (.tmsg o) s = .next (s.wroteX o.d (if a < s.entryNw c i then s.rd64 (s.entryKey c i + 0x20 + 8 * a) else 0) 4))) ∧
  (∀ (s : State) (o : RAB), s.FullX [o.a, o.b] → s.core.tree = [] → s.reqs = [] → s.poison = [] →
    let b := s.xv o.b
    let key := localKey s.cur.core b.toNat
    let time := s.rd64 key
    let nw := s.rd (key + 8) 8
    let dst : CoreId := (s.xv o.a).setWidth 18
    let words := time :: (List.range 4).map fun i => s.rd64 (key + 0x10 + 8 * i)
    let good := (fp64.decode time.toNat ≠ .nan ∧ (fp64.decode time.toNat).isInf = false) ∧ timeLt time s.core.rclk = false ∧ nw ≤ 4 ∧
      s.ctl s.cur.core / 2 ^ 24 % 256 < 255
    (b.toNat % 8 = 0 → b.toNat + 48 ≤ 0x60000 →
      (¬good → exec (.bsend o) s = .next (s.takeSup s.cur 0x0D11 b s.slot.pc)) ∧
      (good → 2 ^ 18 ≤ (s.xv o.a).toNat → exec (.bsend o) s = .next (s.takeSup s.cur 0x0211 (s.xv o.a) s.slot.pc)) ∧
      (good → (s.xv o.a).toNat < 2 ^ 18 → s.fenced (dieOf dst) = false →
        (64 ≤ s.core.unacked.length → s.core.jmode = false → exec (.bsend o) s = .next (s.waitsHere 6)) ∧
        (s.core.jmode = false → s.core.unacked.length < 64 →
          ∃ cfg, exec (.bsend o) s = .next ((s.modCore fun c => { c with tree := c.tree ++ [
            { own := s.owner, cfg := cfg, op := .bsend dst words nw s.core.inbox }] }).advance 4).noteIssued) ∧
        (s.core.jmode = true → s.core.unacked.length < 64 →
          let p := s.core.jptr.toNat
          (s.core.jlim.toNat < p + 32 → exec (.bsend o) s = .next (s.takeSup s.cur 0x14 (BitVec.ofNat 64 p) s.slot.pc)) ∧
          (s.MemoryCanonical → p % 32 = 0 → p + 32 ≤ s.core.jlim.toNat → p + 32 ≤ 0x60000 →
            (localKey s.cur.core p + 32 ≤ s.core.inbox ∨ s.core.inbox + 8 ≤ localKey s.cur.core p) →
            ∃ t, exec (.bsend o) s = .next t ∧ t.slot = { s.slot with pc := s.slot.pc + 4, issued := s.slot.issued + 1 } ∧
              t.core.tree = [] ∧ t.core.jptr.toNat = p + 32 ∧ s.boundSent t s.cur.core dst words nw s.core.inbox ∧
              t.recordAt s.cur.core p (BitVec.ofNat 64 (3 + dst.toNat * 2 ^ 32)) time
                ((s.core.eseq <<< 8) + BitVec.ofNat 64 (s.ctl s.cur.core / 2 ^ 24 % 256 + 1)) 0))))) ∧
  (∀ (s : State) (o : RAB), s.FullX [o.a, o.b] → s.reqs = [] → s.poison = [] →
    let b := s.xv o.b
    let key := localKey s.cur.core b.toNat
    let time := s.rd64 key
    let queued := s.core.queuedSends
    s.core.jmode = false → b.toNat % 8 = 0 → b.toNat + 48 ≤ 0x60000 → fp64.decode time.toNat ≠ .nan →
      (fp64.decode time.toNat).isInf = false → timeLt time s.core.rclk = false → s.rd (key + 8) 8 ≤ 4 →
      s.ctl s.cur.core / 2 ^ 24 % 256 + queued < 255 → (s.xv o.a).toNat < 2 ^ 18 → s.fenced (dieOf ((s.xv o.a).setWidth 18)) = false →
      64 ≤ s.core.unacked.length + queued → exec (.bsend o) s = .next (s.waitsHere 6)) ∧
  (∀ (s : State) (c : CoreId) (m : TreeCmd) (q : List TreeCmd) (dst : CoreId) (words : List Word) (nw ib : Nat), s.MemoryCanonical →
    let k := s.getCore c
    k.tree = m :: q → k.saving = false → k.saved = false → s.treeReady c m.own = true → m.op = .bsend dst words nw ib → s.poison = [] →
    s.rd ib 8 / 2 ^ 24 % 256 < 255 →
    ∃ t, exec (.treeCommandRun c) s = .next t ∧ (t.getCore c).tree = q ∧ (t.getCore c).jptr = k.jptr ∧ s.boundSent t c dst words nw ib) ∧
  (∀ (s : State) (o : RA), s.FullX [o.a] → s.core.tree = [] → s.reqs = [] → s.poison = [] →
    let c := s.cur.core
    let a := s.xv o.a
    let key := keyAt s (localKey c a.toNat)
    let p := s.core.jptr.toNat
    let run := undoFrom s.core.jbase.toNat key a (p / 32 + 2) p s
    a.toNat % 8 = 0 → a.toNat + 24 ≤ 0x60000 →
      (∀ t, run = .ok (t, none) →
        let u := t.setCtl c 24 8 0
        let v := if u.ctl c / 2 ^ 16 % 2 = 1 ∧ (u.currentKey c).lt (u.stragglerKey c) = true then u.setCtl c 16 1 0 else u
        exec (.jundo o) s = .next (v.advance 4).noteIssued) ∧
      ∀ t val, run = .ok (t, some val) → exec (.jundo o) s = .next (t.takeSup t.cur 0x0311 val s.slot.pc)) ∧
  (∀ (s u : State) (base p fuel : Nat) (key : Key) (a : Word), s.poison = [] →
    let left := s.modCore fun k => { k with jptr := BitVec.ofNat 20 p }
    ((s.currentKey s.cur.core).lt key = true → undoFrom base key a (fuel + 1) p s = .ok (left, none)) ∧
    ((s.currentKey s.cur.core).lt key = false → p ≤ base → undoFrom base key a (fuel + 1) p s = .ok (left, some a)) ∧
    ((s.currentKey s.cur.core).lt key = false → base < p → s.Undone u (p - 32) →
      undoFrom base key a (fuel + 1) p s = undoFrom base key a fuel (p - 32) u) ∧
    ((s.currentKey s.cur.core).lt key = false → base < p → (s.rd64 (localKey s.cur.core (p - 32))).extractLsb' 0 4 = 1 →
      (s.core.tcfg = 0 ∨ s.core.treeCfg.n ≤ ((s.rd64 (localKey s.cur.core (p - 32))).extractLsb' 32 13).toNat) →
      undoFrom base key a (fuel + 1) p s = .ok (left, some (BitVec.ofNat 64 (p - 32))))) ∧
  (∀ (s : State) (o : RA), s.MemoryCanonical → s.FullX [o.a] → s.core.tree = [] → s.reqs = [] → s.poison = [] →
    let c := s.cur.core
    let f := s.xv o.a
    let b := s.core.jbase.toNat
    let p := s.core.jptr.toNat
    let mark := fun (m : Nat) => ∃ i, m = b + 32 * i ∧ m + 32 ≤ p ∧ memRead s.mem (localKey c m) % 16 = 5
    let eventTime := fun (m : Nat) (w : Word) =>
      ((∀ n, m < n → ¬mark n) ∧ w = s.core.rclk) ∨ (∃ n, m < n ∧ mark n ∧ (∀ r, m < r → r < n → ¬mark r) ∧ w = s.rd64 (localKey c (n + 8)))
    let keeps := fun (m : Nat) => mark m ∧ ∃ w, eventTime m w ∧ timeLe f w = true
    (fp64.decode f.toNat = .nan → exec (.jtrim o) s = .next (s.advance 4).noteIssued) ∧
    (fp64.decode f.toNat ≠ .nan → (localKey c p ≤ s.core.inbox ∨ s.core.inbox + s.core.inboxSize ≤ localKey c b) → b ≤ p →
      ∃ t, exec (.jtrim o) s = .next t ∧ t.slot = { s.slot with pc := s.slot.pc + 4, issued := s.slot.issued + 1 } ∧
        ((∀ m, ¬keeps m) → t.core.jptr = s.core.jbase) ∧
        (∀ m, keeps m → (∀ n, keeps n → m ≤ n) → t.core.jptr = BitVec.ofNat 20 (b + (p - m)) ∧
          memReads t.mem (localKey c b) (p - m) = memReads s.mem (localKey c m) (p - m)) ∧
        t.inboxKeys c = s.inboxKeys c ∧
        t.inboxEntries c = ((s.entries c).filter fun i => !(s.entryState c i = 2 && timeLt (s.entry c i).time f &&
          !(s.ctl c / 2 ^ 18 % 2 = 1 && (s.entry c i).same (s.currentKey c)))).map fun i => memReads s.mem (s.entryKey c i) 64)) ∧
  (∀ (s : State) (n : Nat) (m : BoundMsg), s.MemoryCanonical → s.bmsgs.find? (·.id = n) = some m → s.boundMayArrive m = true →
    let c := m.dst
    let k := s.getCore c
    let gone := fun (t : State) => t.bmsgs = s.bmsgs.filter (·.id ≠ n) ∧
      t.backs = s.backs ++ [{ id := s.nextId, core := m.src, msg := m.id, cancel := m.cancel }]
    let counts := fun (t : State) (i : Fin 16) => (t.getCore c).xcnt[i] = BitVec.ofNat 32 (min (k.xcnt[i].toNat + 1) 0xFFFF_FFFF)
    (k.launch ≠ m.launch →
      (m.cancel = false → ∃ t, exec (.boundaryMessageArrival n) s = .next t ∧ gone t ∧ t.mem = s.mem ∧ t.cores = s.cores ∧
        t.errors.length = s.errors.length + 1) ∧
      (m.cancel = true → ∃ t, exec (.cancelArrival n) s = .next t ∧ gone t ∧ t.mem = s.mem ∧ t.cores = s.cores ∧
        t.errors.length = s.errors.length + 1)) ∧
    (k.launch = m.launch → m.cancel = false →
      (k.inboxCap ≤ (s.entries c).length → ∃ t, exec (.boundaryMessageArrival n) s = .next t ∧ t.backs = s.backs ∧
        t.bmsgs = (s.bmsgs.map fun q => if q.id = n then { q with refused := true } else q) ∧ t.ctl c / 2 ^ 17 % 2 = 1 ∧
        t.ctl c / 2 ^ 32 = m.key.region.toNat ∧ t.ctl c % 2 ^ 17 = s.ctl c % 2 ^ 17 ∧ t.inboxEntries c = s.inboxEntries c ∧
        t.inboxKeys c = s.inboxKeys c) ∧
      ((s.entries c).length < k.inboxCap → ∃ t i, exec (.boundaryMessageArrival n) s = .next t ∧ gone t ∧ i ≤ (s.entries c).length ∧
        (∀ j, j < i → m.key.lt (s.entry c j) = false) ∧ (i < (s.entries c).length → m.key.lt (s.entry c i) = true) ∧
        t.inboxEntries c = (s.inboxEntries c).take i ++ [m.asEntry] ++ (s.inboxEntries c).drop i ∧
        t.currentKey c = s.currentKey c ∧
        (m.key.lt (s.currentKey c) = false → t.inboxKeys c = s.inboxKeys c ∧ t.ctl c / 2 ^ 9 = s.ctl c / 2 ^ 9) ∧
        (m.key.lt (s.currentKey c) = true → t.ctl c / 2 ^ 16 % 2 = 1 ∧ counts t 11 ∧
          t.stragglerKey c = if s.ctl c / 2 ^ 16 % 2 = 1 ∧ m.key.lt (s.stragglerKey c) = false then s.stragglerKey c else m.key))) ∧
    (k.launch = m.launch → m.cancel = true →
      (∀ i, s.findEntry c m.key (fun st => st = 1) = some i → ∃ t, exec (.cancelArrival n) s = .next t ∧ gone t ∧ counts t 12 ∧
        t.inboxEntries c = (s.inboxEntries c).eraseIdx i ∧ t.inboxKeys c = s.inboxKeys c) ∧
      (∀ i, s.findEntry c m.key (fun st => st = 1) = none → s.findEntry c m.key (fun st => st = 2) = some i →
        ∃ t, exec (.cancelArrival n) s = .next t ∧ gone t ∧ t.entryState c i = 3 ∧ t.entry c i = s.entry c i ∧
          t.ctl c / 2 ^ 16 % 2 = 1 ∧ counts t 11 ∧ counts t 12 ∧ (t.inboxEntries c).length = (s.inboxEntries c).length) ∧
      (s.findEntry c m.key (fun st => st = 1) = none → s.findEntry c m.key (fun st => st = 2) = none →
        ∃ t, exec (.cancelArrival n) s = .next t ∧ gone t ∧ t.mem = s.mem ∧ (∀ q, q ≠ c → t.getCore q = s.getCore q) ∧
          (t.getCore c).slots = k.slots ∧ (t.getCore c).xcnt = k.xcnt ∧ t.errors.length = s.errors.length + 1))) ∧
  ∀ (s : State) (n : Nat) (a : BoundAck), s.backs.find? (·.id = n) = some a → (s.getCore a.core).saved = false →
    let k := s.getCore a.core
    ∃ t, exec (.boundaryAckArrival n) s = .next t ∧ t.backs = s.backs.filter (·.id ≠ n) ∧ t.mem = s.mem ∧
      (t.getCore a.core).slots = k.slots ∧
      (a.cancel = false → (t.getCore a.core).unacked = k.unacked.filter (·.1 ≠ a.msg) ∧ (t.getCore a.core).cancels = k.cancels) ∧
      (a.cancel = true → (t.getCore a.core).unacked = k.unacked ∧ (t.getCore a.core).cancels = k.cancels - 1) ∧
      (∀ x ∈ (t.getCore a.core).unacked, timeLt x.2 (t.getCore a.core).sentmin = false) ∧
      ((t.getCore a.core).unacked = [] → (t.getCore a.core).cancels = 0 → (t.getCore a.core).sentmin = infBits)

/-- `LAUNCH_RECORD_ACCEPT` (R313, R315, R326, R341), `LAUNCH_START` and `REPLAY_NODE_DISPATCH` (R317-R319, R323, R327),
`INITIAL_MESSAGES` (R320), `LAUNCH_TRIGGERED` (R324) and `LAUNCH_COMPLETION` (R325). The model's choices: START 0 in the record of a refusal,
reason 2 for an ISIZE or ZSIZE that is not a multiple of 64, and the lowest of several reasons (DESIGN CHOICE, log 39); a byte of an address that
is not mapped (DESIGN CHOICE, log 20); the fields of a replay's own CTL (DESIGN CHOICE, log 56); what happens before a launch (DESIGN CHOICE,
log 60). -/
def Obligations.Launches : Prop :=
  (∀ (l : Launcher) (bs : List Byte) (node : Bool),
    let r := parseRecord bs
    let goodId := (recordField bs 0 0 32 = 0 ↔ node = true)
    let used := l.idUsed r.id = true
    recordFields bs r ∧
    (recordLevels bs → ∃ n, n ≤ 8 ∧ r.levels = (List.range n).map fun i =>
      ((recordLevel bs i).extractLsb' 0 3, (recordLevel bs i).extractLsb' 3 3)) ∧
    (used ↔ (∃ a ∈ l.launches, a.record.id = r.id) ∨
      ∃ p ∈ l.replays, p.id = r.id ∨ ∃ n, n < p.nnode ∧ n < 64 ∧ r.id.toNat = p.id.toNat * 64 + n) ∧
    (¬(recordClean bs node ∧ goodId) → recordReason l bs node = 1) ∧
    (recordClean bs node ∧ goodId → ¬recordSizes bs → recordReason l bs node = 2) ∧
    (recordClean bs node ∧ goodId → recordSizes bs → ¬recordLevels bs → recordReason l bs node = 3) ∧
    (recordClean bs node ∧ goodId → recordSizes bs → recordLevels bs → ¬recordHandlers bs → recordReason l bs node = 4) ∧
    (recordClean bs node ∧ goodId → recordSizes bs → recordLevels bs → recordHandlers bs →
      recordReason l bs node = if node = false ∧ used then 5 else 0)) ∧
  (∀ (s : State) (q : BitVec 3),
    let bs := s.nextRecord q
    let r := parseRecord bs
    let kind := fieldOf bs 8 8 % 4
    let tenant : BitVec 12 := BitVec.ofNat 12 (fieldOf bs 8 8 / 2 ^ 16)
    let t0 := s.recordTaken q
    (s.visits q = false → exec (.launchRecordAccept q) s = .next s) ∧
    (s.bar0.run = true → s.launcher.nextQueue = q → s.passedOver q = false → s.visits q = true) ∧
    (s.visits q = true → kind = 0 →
      (recordReason s.launcher bs false = 0 → r.sizesOk = true ∧ r.id ≠ 0 ∧ s.launcher.idUsed r.id = false ∧
        exec (.launchRecordAccept q) s = .next { t0 with launcher := { t0.launcher with
          count := s.launcher.count + 1
          launches := s.launcher.launches ++ [
            { num := s.launcher.count, queue := q, record := r, node := none, stage := .accepted, clusters := [], initialSent := false
              triggered := false, report := none, resume := false, saved := [], refused := []
              asked := false, deps := (s.launcher.launches.filter fun a => dependsOn r a.record).map (·.num), startTime := none
              base := s.host }] } }) ∧
      (∀ reason, recordReason s.launcher bs false = reason → reason ≠ 0 → ∃ t, exec (.launchRecordAccept q) s = .next t ∧
        t0.hasCompletion t q r.id 1 reason 0 0 ∧ t.launcher = t0.launcher ∧ t.cores = s.cores)) ∧
    (s.visits q = true → kind = 1 → shortZero bs 1 = true → r.id ≠ 0 → r.id.toNat < 2 ^ 26 → s.launcher.idUsed r.id = false →
      let graph := t0.readGraph r.id tenant (BitVec.ofNat 64 (fieldOf bs 0x110 8))
      (graph = none → ∃ t, exec (.launchRecordAccept q) s = .next t ∧ t0.hasCompletion t q r.id 1 6 0 0 ∧ t.launcher = t0.launcher) ∧
      ∀ nodes, graph = some nodes → ∃ t ls, exec (.launchRecordAccept q) s = .next t ∧ t.mem = t0.mem ∧ t.cores = s.cores ∧
        t.launcher.launches = s.launcher.launches ++ ls ∧ ls.length = nodes.length ∧
        t.launcher.replays = s.launcher.replays ++ [
          { num := s.launcher.count, queue := q, id := r.id, early := (recordWord bs 8).getLsbD 2, note := (recordWord bs 8).getLsbD 3
            prio := (recordWord bs 8).extractLsb' 4 2, tenant := tenant, nnode := nodes.length, completed := [], triggered := []
            startTime := none }] ∧
        ∀ i, i < nodes.length → ∃ l, ls[i]? = some l ∧ l.node = some { replay := s.launcher.count, node := i } ∧
          l.stage = .accepted ∧ l.record = { parseRecord (nodes.getD i []) with id := BitVec.ofNat 32 (r.id.toNat * 64 + i) }) ∧
    (s.visits q = true → kind = 2 ∨ kind = 3 → shortZero bs kind = true → r.id ≠ 0 → ∀ l,
      s.launcher.launches.find? (fun l => l.record.id = r.id && l.record.tenant = tenant && l.stage = .awaitHost && !l.resume) = some l →
      (kind = 2 → exec (.launchRecordAccept q) s = .next { t0 with launcher := { t0.launcher with
        launches := s.launcher.launches.map fun a => if a.num = l.num then { a with resume := true } else a } }) ∧
      (kind = 3 → ∃ t, exec (.launchRecordAccept q) s = .next t ∧ (∀ a ∈ t.launcher.launches, a.num ≠ l.num) ∧
        (l.node = none → t0.hasCompletion t l.queue l.record.id 4 0 0 (l.startTime.getD 0)) ∧
        ∀ c ∈ l.cores, (s.getCore c).launch = l.record.id → (t.getCore c).launch = 0 ∧
          ∀ o : SlotNo, ((t.getCore c).getSlot o).st = .free))) ∧
  (∀ (s : State) (n : Nat) (l : Launch) (i : Instr), s.launch? n = some l →
    (i = .launchStart n ∧ l.node = none) ∨ (i = .replayNodeDispatch n ∧ l.node ≠ none) →
    let ks := (s.freeClusters l.record.tenant).take l.record.nclus
    let cs := ks.flatMap clusterCores
    let r := l.record
    let base := (s.launcher.launches.filter l.follows).foldl (fun b a => b.join a.pub) l.base
    (l.stage ≠ .accepted ∨ s.nextStart l = false → exec i s = .next s) ∧
    (l.stage = .accepted → s.nextStart l = true → ks.length = r.nclus) ∧
    (l.stage = .accepted → s.nextStart l = true → r.sizesOk = true → s.MemoryCanonical →
      ∃ t, exec i s = .next t ∧
        t.launch? n = some { l with
          stage := .running, clusters := ks, startTime := some (BitVec.ofNat 64 (t.dieTime (.io 0))), since := s.writes, base := base } ∧
        s.dieTime (.io 0) ≤ t.dieTime (.io 0) ∧
        (∀ c, c ∉ cs → t.getCore c = s.getCore c) ∧
        ∀ k, k < cs.length → ∃ c, cs[k]? = some c ∧ t.getCore c = { Core.reset (s.getCore c).id with
            slots := (s.getCore c).slots.map fun a =>
              { Slot.reset with gen := a.gen, prio := r.prio, tvec := r.tvec, spnlim := r.spnlim }
            tenant := r.tenant
            launch := r.id
            hbase := r.hbase
            hlim := r.hlim
            aqDepth := BitVec.ofNat 16 r.aqd
            aqBase := BitVec.ofNat 20 (r.isize + r.zsize)
            ibBase := BitVec.ofNat 20 (r.isize + r.zsize + 64 * r.aqd)
            ibCap := BitVec.ofNat 8 (r.ibc % 256)
            spillptr := r.spill + BitVec.ofNat 64 (k * (64 + 64 * r.spcap.toNat))
            saveptr := r.save + BitVec.ofNat 64 (0x70000 * k)
            seed := r.seed
            shp := r.shp
            ptroot := r.ptroot
            slice := r.slice
            waitbud := r.waitbud
            wb := (s.getCore c).wb
            halted := (s.getCore c).halted
            droop := (s.getCore c).droop
            issued := (s.getCore c).issued
            cycles := (s.getCore c).cycles
            idle := (s.getCore c).idle
            base := base } ∧
          (∀ i : Fin 8, (t.getUnit (vaultOf c)).codes[i] = 0) ∧
          (∀ j, j < r.isize → memRead t.mem (localKey c j) =
            (s.launchRead r.tenant r.ptroot r.image r.isize .x).getD j 0) ∧
          (∀ j, r.isize ≤ j → j < r.layoutEnd → memRead t.mem (localKey c j) = 0) ∧
          ∀ j, r.layoutEnd ≤ j → j < 0x60000 → memRead t.mem (localKey c j) = memRead s.mem (localKey c j))) ∧
  (∀ (s : State) (n : Nat) (l : Launch), s.launch? n = some l →
    (l.stage ≠ .running ∨ l.initialSent = true → exec (.initialMessages n) s = .next s) ∧
    (l.stage = .running → l.initialSent = false →
      let u := s.onLaunch n fun l => { l with initialSent := true }
      (l.record.ninit = 0 → ∃ t, exec (.initialMessages n) s = .next t ∧ t.launcher = u.launcher ∧ t.mem = s.mem ∧
        ∃ ms, t.tmsgs = s.tmsgs ++ ms ∧ ms.length = l.cores.length ∧ ∀ k, k < l.cores.length → ∃ m c, ms[k]? = some m ∧
          l.cores[k]? = some c ∧ m.dst = .core c ∧ m.initial = some 0 ∧
          m.held = initialTask l.record.id c l.record.entry (Vector.replicate 8 0) false) ∧
      (l.record.ninit ≠ 0 → exec (.initialMessages n) s = .next
        ((List.range l.record.ninit).foldl (fun s i => s.initialEntry l i) u)))) ∧
  (∀ (s : State) (l : Launch) (i : Nat),
    let r := l.record
    let bs := s.launchRead r.tenant r.ptroot (r.init + BitVec.ofNat 64 (128 * i)) 128
    let rank := fieldOf bs 0 8
    let hdr := fieldOf bs 64 8
    let good := (∀ j, 8 ≤ j → j < 64 → bs.getD j 0 = 0) ∧ hdr < 2 ^ 25 ∧ hdr / 2 ^ 20 % 16 ≤ 8
    (¬((∀ j, 8 ≤ j → j < 64 → bs.getD j 0 = 0) ∧ hdr < 2 ^ 25 ∧ hdr / 2 ^ 20 % 16 ≤ 8 ∧ (rank = 0xFFFFF ∨ rank < l.cores.length)) →
      ∃ e, (s.initialEntry l i).errors = s.errors ++ [e] ∧ (s.initialEntry l i).tmsgs = s.tmsgs ∧ (s.initialEntry l i).mem = s.mem ∧
        (s.initialEntry l i).cores = s.cores ∧ e.kind = 6 ∧ e.launch = r.id ∧ e.word3 = BitVec.ofNat 64 i) ∧
    (good → ∀ c, rank ≠ 0xFFFFF → l.cores[rank]? = some c → ∃ m args, (s.initialEntry l i).tmsgs = s.tmsgs ++ [m] ∧
      m.dst = .core c ∧ m.initial = some i ∧ m.held = initialTask r.id c (BitVec.ofNat 20 hdr) args (decide (hdr / 2 ^ 24 % 2 = 1)) ∧
      ∀ j : Fin 8, args[j] = if j.val < hdr / 2 ^ 20 % 16 then
        (if j.val < 6 then BitVec.ofNat 64 (fieldOf bs (72 + 8 * j.val) 8) else BitVec.ofNat 64 (fieldOf bs (120 + 4 * (j.val - 6)) 4))
        else 0)) ∧
  (∀ (s : State) (n : Nat) (l : Launch), s.launch? n = some l →
    (s.triggersNow l = false → exec (.launchTriggered n) s = .next s) ∧
    (s.triggersNow l = true → ∃ t, exec (.launchTriggered n) s = .next t ∧ t.mem = s.mem ∧ t.cores = s.cores ∧
      t.launch? n = some { l with triggered := true }) ∧
    (l.stage = .running → l.initialSent = true → l.triggered = false → s.tmsgs = [] → s.cox = [] →
      (∀ c ∈ l.cores, (s.getCore c).backlog = false ∧ (s.getCore c).forks = [] ∧
        ∀ o : SlotNo, ((s.getCore c).getSlot o).st = .free ∨ ((s.getCore c).getSlot o).triggered = true) → s.triggersNow l = true)) ∧
  ∀ (s : State) (n : Nat) (l : Launch), s.launch? n = some l →
    (s.completesNow l = false → exec (.launchCompletion n) s = .next s) ∧
    (l.stage = .running → l.initialSent = true → s.tmsgs = [] → s.cox = [] → s.bmsgs = [] → s.replies = [] → s.wbmsgs = [] → s.wbdones = [] →
      (∀ r ∈ s.reqs, r.core ∉ l.cores) → (∀ a ∈ s.sacks, a.core ∉ l.cores) → (∀ b ∈ s.bads, b.core ∉ l.cores) →
      (∀ a ∈ s.backs, a.core ∉ l.cores) → (∀ a ∈ s.wbacks, a.core ∉ l.cores) →
      (∀ c ∈ l.cores, (s.getCore c).backlog = false ∧ (s.getCore c).forks = [] ∧ (s.getCore c).unitsIdle = true ∧
        ∀ o : SlotNo, ((s.getCore c).getSlot o).st = .free) → s.completesNow l = true) ∧
    (s.completesNow l = true → (∀ r ∈ s.reqs, r.core ∉ l.cores) ∧ (∀ b ∈ s.bads, b.core ∉ l.cores) ∧ (∀ a ∈ s.backs, a.core ∉ l.cores) ∧
      ∀ m ∈ s.wbmsgs, m.launch ≠ l.record.id) ∧
    (s.completesNow l = true → (∃ c ∈ l.cores, ∃ o : SlotNo, ((s.getCore c).getSlot o).st ≠ .free) → False) ∧
    (s.completesNow l = true → ∃ t clk, exec (.launchCompletion n) s = .next t ∧ t.cores = s.cores ∧
      t.launcher.launches = (s.launcher.launches.filter (·.num ≠ n)).map (fun b =>
        if b.follows l then { b with base := b.base.join clk } else b) ∧
      (l.node = none → s.hasCompletion t l.queue l.record.id 0 0 0 (l.startTime.getD 0)) ∧
      ∀ m r, l.node = some m → s.launcher.replays = [r] → r.num = m.replay →
        (r.completed.length + 1 < r.nnode → t.launcher.replays = [{ r with completed := m.node :: r.completed }] ∧ t.mem = s.mem) ∧
        (r.nnode ≤ r.completed.length + 1 → t.launcher.replays = [] ∧ s.hasCompletion t r.queue r.id 0 0 0 (r.startTime.getD 0)))

/-- `SLICE_EXPIRY`, `WAIT_BUDGET_EXPIRY`, `FAILURE_REPORT`, `PREEMPTION`, `CORE_SAVE`, `SAVE_IMAGE_ARRIVAL`, `LAUNCH_SAVED_REPORT` and
`LAUNCH_RESUME` (R332-R342). The bytes of the core-state region stand in log 12 (DESIGN CHOICE). A failure while the launch saves and what a
halt's report waits for (log 38), the withdrawn join and the refused boundary messages of a core that saves (DEDUCED, log 40) and CR.GEN of a
Saved slot whose core is given up (DESIGN CHOICE, log 66) are the model's. -/
def Obligations.Preemptions : Prop :=
  (∀ (s : State) (c : CoreId) (l : Launch), s.launchOn c = some l →
    let used := ∃ o : SlotNo, ((s.getCore c).getSlot o).st ≠ .free
    let waits := ∃ o : SlotNo, ((s.getCore c).getSlot o).st ≠ .free ∧ ((s.getCore c).getSlot o).wait ≠ none
    let asks := fun (why : SaveReason) => Host.Outcome.next { s with launcher := { s.launcher with
      launches := s.launcher.launches.map fun a =>
        if a.num = l.num ∧ a.report = none then { a with report := some (why, l.cores.idxOf c) } else a } }
    (l.stage ≠ .running → exec (.sliceExpiry c) s = .next s ∧ exec (.waitBudgetExpiry c) s = .next s) ∧
    (¬used → exec (.sliceExpiry c) s = .next s) ∧ (¬waits → exec (.waitBudgetExpiry c) s = .next s) ∧
    (l.stage = .running → used → s.contested l = true → exec (.sliceExpiry c) s = asks .slice) ∧
    (l.stage = .running → used → s.contested l = false → ∃ t, exec (.sliceExpiry c) s = .next t ∧ t.mem = s.mem ∧
      t.launcher = s.launcher ∧ (∀ d, d ∉ l.cores → t.getCore d = s.getCore d) ∧
      ∀ d ∈ l.cores, t.getCore d = { s.getCore d with slice := l.record.slice }) ∧
    (l.record.waitbud = 0 → exec (.waitBudgetExpiry c) s = .next s) ∧
    (l.stage = .running → waits → l.record.waitbud ≠ 0 → exec (.waitBudgetExpiry c) s = asks .stalemate)) ∧
  (∀ (s : State) (n : Nat) (f : FailReport), s.fails.find? (·.id = n) = some f →
    let k := s.getCore f.core
    let t := { s with fails := s.fails.filter (·.id ≠ n) }
    let u := f.halt.elim t fun h => t.report 2 f.core f.launch h.1 h.2
    let found := s.launcher.launches.find? fun l => l.record.id = f.launch && (l.stage = .running || l.stage = .saving) && l.cores.contains f.core
    let waits := f.halt ≠ none ∧ found ≠ none ∧ s.quiet f.core = false ∧ k.saved = false
    (waits → exec (.failureReport n) s = .next s) ∧
    (¬waits → found = none → exec (.failureReport n) s = .next u) ∧
    (¬waits → ∀ l, found = some l → exec (.failureReport n) s = .next { u with launcher := { s.launcher with
      launches := s.launcher.launches.map fun a => if a.num = l.num ∧ a.report.map (·.1) ≠ some .failure then
        { a with report := some (.failure, a.cores.idxOf f.core) } else a } }) ∧
    (f.halt = none → u = t) ∧
    (∀ h, f.halt = some h → ∃ e, u.errors = s.errors ++ [e] ∧ e.kind = 2 ∧ e.core = f.core ∧ e.launch = f.launch ∧ e.word1 = h.1 ∧
      e.word3 = h.2 ∧ u.mem = s.mem ∧ u.cores = s.cores ∧ u.fails = t.fails) ∧
    (s.quiet f.core = true ↔ (∀ r ∈ s.reqs, r.core = f.core → ∃ key p v end_, r.op = .cbwait key p v end_) ∧ k.mat.run = none ∧
      (k.mat.queue = [] ∨ k.mat.parked ≠ none) ∧ k.copy.run = none ∧ k.copy.flights = [] ∧ k.copy.landing = [] ∧
      (k.copy.queue = [] ∨ k.copy.parked ≠ none) ∧ k.vch = [] ∧ k.gemvs = [] ∧ k.tree = [])) ∧
  (∀ (s : State) (a : PreemptArg) (l : Launch), s.launch? a.launch = some l →
    let why := saveReason a.reason
    let due := l.report = some (why, l.cores.idxOf a.core) ∨
      (why = .leaving ∧ ∃ k t, s.tenancy.moving = some (k, t) ∧ k ∈ l.clusters)
    (l.stage ≠ .running ∨ ¬due → exec (.preemption a) s = .next s) ∧
    (l.stage = .running → due → ∃ t, exec (.preemption a) s = .next t ∧ t.mem = s.mem ∧
      t.launch? a.launch = some { l with stage := .saving, report := some (l.report.getD (why, l.cores.idxOf a.core)) } ∧
      (∀ c ∈ l.cores, t.getCore c = { s.getCore c with saving := true } ∧
        (∀ o, o.core = c → t.canTurn o = false) ∧ ∀ w ∈ t.walks, w.core ≠ c) ∧
      ∀ r ∈ s.reqs, r.core ∉ l.cores → r ∈ t.reqs)) ∧
  (∀ (s : State) (c : CoreId) (l : Launch), s.launchOn c = some l →
    let k := s.getCore c
    let waits := fun (m : BoundMsg) => ∃ q ∈ s.bmsgs, q.refused = true ∧ q.src = m.src ∧ q.dst = m.dst ∧ q.id ≤ m.id
    (k.saving = false ∨ k.saved = true ∨ s.drained c = false → exec (.coreSave c) s = .next s) ∧
    (s.drained c = true ↔ (∀ r ∈ s.reqs, r.core ≠ c) ∧ (∀ t ∈ k.tree, t.op.dest = none) ∧
      (∀ m ∈ s.tmsgs, m.held.origin ≠ c) ∧ (∀ d ∈ s.cox, ∀ h ∈ d.2, h.origin ≠ c ∧ h.task.sender ≠ c) ∧ (∀ a ∈ s.sacks, a.core ≠ c) ∧
      (∀ r ∈ s.replies, r.sender ≠ c) ∧ (∀ m ∈ s.bmsgs, m.src = c → waits m) ∧ (∀ a ∈ s.backs, a.core ≠ c) ∧
      k.unacked.length = (s.bmsgs.filter fun m => m.src = c && !m.cancel).length ∧
      k.cancels = (s.bmsgs.filter fun m => m.src = c && m.cancel).length ∧
      (∀ m ∈ s.wbmsgs, m.core ≠ c) ∧ (∀ a ∈ s.wbacks, a.core ≠ c) ∧ k.vch = [] ∧ k.gemvs = [] ∧ k.copy.flights = [] ∧
      k.copy.landing = [] ∧ ∀ x, k.copy.run = some x → x.snapshot = none) ∧
    (k.saving = true → k.saved = false → s.drained c = true →
      (∀ e, s.saveChunks c k.saveptr = .error e → l.node = none → ∃ t, exec (.coreSave c) s = .next t ∧
        (∀ a ∈ t.launcher.launches, a.num ≠ l.num) ∧ s.hasCompletion t l.queue l.record.id 3 0 (l.cores.idxOf c) (l.startTime.getD 0)) ∧
      ∀ ch, s.saveChunks c k.saveptr = .ok ch → saveApart ch → s.MemoryCanonical → k.copy.run = none →
        ∃ t, exec (.coreSave c) s = .next t ∧ (t.getCore c).saved = true ∧ t.launcher = s.launcher ∧ (∀ d, d ≠ c → t.getCore d = s.getCore d) ∧
          (∀ o : SlotNo, ((t.getCore c).getSlot o).st = if (k.getSlot o).st = .free then .free else .saved) ∧
          (∀ j, j < 0x60000 → memRead t.mem (chunkKey ch j) = memRead s.mem (localKey c j)) ∧
          (∀ n e : Fin 64, t.saveRead ch (0x60000 + 256 * n.val + 4 * e.val) 4 = natBytes 4 (k.acc[n][e]).toNat) ∧
          ∀ i : Fin 16,
            let l := k.slots[i]
            let image := 0x64000 + 0x800 * i.val
            (∀ r : XReg, t.saveRead ch (image + 8 * r.toNat) 8 = natBytes 8 (l.getX r).toNat) ∧
            (∀ n j : Fin 16, t.saveRead ch (image + 0x100 + 64 * n.val + 4 * j.val) 4 = natBytes 4 (l.v[n][j]).toNat) ∧
            t.saveRead ch (image + 0x550) 8 = natBytes 8 (l.xfull.toNat + l.vfull.toNat * 2 ^ 32) ∧
            t.saveRead ch (image + 0x558) 8 = natBytes 8 (setBit l.callp 0 (decide (0 < l.callp0))).toNat ∧
            t.saveRead ch (image + 0x561) 1 = [BitVec.ofNat 8 l.spawns] ∧
            t.saveRead ch (image + 0x560) 1 = [BitVec.ofNat 8 ((if l.mode = .supervisor then 8 else 0) +
              if l.st = .free then 0 else if l.st = .saved then 1 else if k.halted ∨ l.st = .stopped then 4 else if l.wait ≠ none then 2
              else if l.st = .ready then 1 else 3)] ∧
            t.saveRead ch (image + 0x568) 8 = natBytes 8 l.pc.toNat ∧
            ∀ w, l.wait = some w → t.saveRead ch (image + 0x620) 24 =
              natBytes 8 w.kind ++ natBytes 8 w.obj.toNat ++ natBytes 8 w.ph.toNat)) ∧
  (∀ (s : State) (n : Nat),
    (∀ k, s.sacks.find? (·.id = n) = some k →
      ((s.getCore k.core).saved = false → exec (.saveImageArrival { kind := .spawnAck, n := n }) s = .next s) ∧
      ((s.getCore k.core).saved = true → exec (.saveImageArrival { kind := .spawnAck, n := n }) s =
        .next (s.inImage k.core fun s => afterEvent s (exec (.spawnAcknowledgement n) s)))) ∧
    (∀ r, s.replies.find? (·.id = n) = some r →
      ((s.getCore (r.token.setWidth 18)).saved = false → exec (.saveImageArrival { kind := .reply, n := n }) s = .next s) ∧
      ((s.getCore (r.token.setWidth 18)).saved = true → exec (.saveImageArrival { kind := .reply, n := n }) s =
        .next (s.inImage (r.token.setWidth 18) fun s => afterEvent s (exec (.replyArrival n) s)))) ∧
    (∀ m c, s.tmsgs.find? (·.id = n) = some m → m.dst = .core c →
      ((s.getCore c).saved = false → exec (.saveImageArrival { kind := .task, n := n }) s = .next s) ∧
      ((s.getCore c).saved = true → s.taskFirst m = true → exec (.saveImageArrival { kind := .task, n := n }) s =
        .next (s.inImage c fun s =>
          if (s.getCore c).admits m.held then
            let p := s.spillPush c m.held.task
            let u := p.1.onCore c (·.sample 7 (BitVec.ofNat 64 (s.getCore c).aqLen))
            if p.2 then ({ u with tmsgs := u.tmsgs.filter (·.id ≠ m.id) } : State).ackTask m.held
            else { p.1 with tmsgs := p.1.tmsgs.map fun q => if q.id = m.id then { q with refused := true } else q }
          else s.taskAtCore m c))) ∧
    (∀ m, s.bmsgs.find? (·.id = n) = some m →
      ((s.getCore m.dst).saved = false → exec (.saveImageArrival { kind := .boundary, n := n }) s = .next s) ∧
      ((s.getCore m.dst).saved = true →
        let t := s.inImage m.dst fun s => afterEvent s (exec (if m.cancel then .cancelArrival n else .boundaryMessageArrival n) s)
        t.bmsgs.contains m = false → exec (.saveImageArrival { kind := .boundary, n := n }) s = .next t)) ∧
    (∀ d, s.wbdones.find? (·.id = n) = some d →
      ((s.getCore d.core).saved = false → exec (.saveImageArrival { kind := .wbDone, n := n }) s = .next s) ∧
      ((s.getCore d.core).saved = true →
        let t := s.inImage d.core fun s => afterEvent s (exec (.wbPhaseCompletion n) s)
        t.wbdones.contains d = false → exec (.saveImageArrival { kind := .wbDone, n := n }) s = .next t)) ∧
    (∀ r, s.reqs.find? (·.id = n) = some r →
      (s.savedHomes r = [] → exec (.saveImageArrival { kind := .request, n := n }) s = .next s) ∧
      (∀ c, r.applied = false → s.savedHomes r = [c] →
        let e := if r.plainHome then Instr.homeAccess n else if r.barrier.isSome then .cbHomeOperation n else .boardPostAtHome n
        let t := s.inImage c fun s => afterEvent s (exec e s)
        t.reqs.contains r = false → exec (.saveImageArrival { kind := .request, n := n }) s = .next t)) ∧
    ∀ (c d : CoreId) (k : Nat),
      (∀ t, s.copyTry c = .ok t → exec (.saveImageArrival { kind := .copyRun, n := c.toNat }) s = .next s ∧
        State.imaged (·.copyTry c) k s = t) ∧
      (s.copyTry c = .error d →
        State.imaged (·.copyTry c) (k + 1) s = s.inImage d (State.imaged (·.copyTry c) k) ∧
        (s.cores.length = k + 1 → exec (.saveImageArrival { kind := .copyRun, n := c.toNat }) s =
          .next (s.inImage d (State.imaged (·.copyTry c) k))))) ∧
  (∀ (s : State) (c : CoreId) (ch : List (Nat × Nat × Nat)) (off : Nat) (bs : List Byte),
    s.saveChunks c (s.getCore c).saveptr = .ok ch → saveApart ch → s.MemoryCanonical → off + bs.length ≤ 0x60000 →
    let t := s.inImage c fun s => s.wrPieces [(localKey c off, bs)]
    (t.getCore c).saved = true ∧ t.saveRead ch off bs.length = bs ∧
      ∀ j, j < 0x60000 → ¬(off ≤ j ∧ j < off + bs.length) → memRead t.mem (chunkKey ch j) = memRead s.mem (chunkKey ch j)) ∧
  (∀ (s : State) (n : Nat) (l : Launch), s.launch? n = some l →
    let kept := l.cores.map s.getCore
    let gone := s.bmsgs.filter fun m => m.launch = l.record.id
    let freed := fun (t : State) => (∀ c ∈ l.cores, (t.getCore c).launch = 0 ∧ (t.getCore c).saved = false ∧ (t.getCore c).saving = false ∧
      ∀ o : SlotNo, ((t.getCore c).getSlot o).st = .free ∧ ((t.getCore c).getSlot o).gen =
        ((s.getCore c).getSlot o).gen + if ((s.getCore c).getSlot o).st = .free then 0 else 1) ∧
      (∀ c, c ∉ l.cores → t.getCore c = s.getCore c) ∧ t.bmsgs = s.bmsgs.filter fun m => m.launch ≠ l.record.id
    (s.allSaved l = true ↔ (∀ c ∈ l.cores, (s.getCore c).saved = true) ∧ (∀ m ∈ s.tmsgs, m.held.launch ≠ l.record.id) ∧
      (∀ m ∈ s.bmsgs, m.launch = l.record.id → ∃ q ∈ s.bmsgs, q.refused = true ∧ q.src = m.src ∧ q.dst = m.dst ∧ q.id ≤ m.id) ∧ (∀ r ∈ s.replies, r.launch ≠ l.record.id) ∧
      (∀ m ∈ s.wbmsgs, m.launch ≠ l.record.id) ∧ (∀ d ∈ s.wbdones, d.launch ≠ l.record.id) ∧ (∀ a ∈ s.sacks, a.core ∉ l.cores) ∧
      (∀ b ∈ s.bads, b.core ∉ l.cores) ∧ (∀ a ∈ s.backs, a.core ∉ l.cores) ∧ (∀ f ∈ s.fails, f.launch ≠ l.record.id) ∧
      ∀ r ∈ s.reqs, ∀ c ∈ s.savedHomes r, c ∉ l.cores) ∧
    (l.stage ≠ .saving ∨ s.allSaved l = false → exec (.launchSavedReport n) s = .next s) ∧
    (l.stage = .saving → s.allSaved l = true →
      (∀ rank why, l.report = some (why, rank) → why = .stalemate ∨ why = .failure → ∃ t, exec (.launchSavedReport n) s = .next t ∧ freed t ∧
        t.launch? n = some { l with stage := .awaitHost, saved := kept, refused := gone, report := none, resume := false } ∧
        s.hasCompletion t l.queue l.record.id (if why = .stalemate then 2 else 3) 0 rank (l.startTime.getD 0)) ∧
      (∀ rank why, l.report = some (why, rank) → why = .slice ∨ why = .leaving → ∃ t, exec (.launchSavedReport n) s = .next t ∧ freed t ∧
        t.mem = s.mem ∧ t.launch? n = some { l with stage := .saved, saved := kept, refused := gone, report := none, resume := false } ∧
        t.launcher.savedOrder = s.launcher.savedOrder ++ [n]))) ∧
  ∀ (s : State) (n : Nat) (l : Launch), s.launch? n = some l →
    let due := (l.stage = .saved ∧ s.nextStart l = true) ∨ (l.stage = .awaitHost ∧ l.resume = true ∧
      (l.asked = true ∨ ∀ k t, s.tenancy.moving = some (k, t) → k ∉ l.clusters))
    (¬due → exec (.launchResume n) s = .next s) ∧
    (due → s.resumeChunks l.saved = none → ∃ t, exec (.launchResume n) s = .next t ∧ (∀ a ∈ t.launcher.launches, a.num ≠ n) ∧
      (l.node = none → s.hasCompletion t l.queue l.record.id 3 0 0 (l.startTime.getD 0))) ∧
    (due → ∀ kept, s.resumeChunks l.saved = some kept → (l.saved.map (·.id)).Nodup → s.MemoryCanonical →
      ∃ t, exec (.launchResume n) s = .next t ∧ t.launch? n = some { l with stage := .running, saved := [], refused := [], resume := false, asked := false } ∧
        kept.map (·.1) = l.saved ∧ t.bmsgs = s.bmsgs ++ l.refused ∧
        ∀ p ∈ kept,
          let c := p.1.id
          let k := t.getCore c
          k.saved = false ∧ k.saving = false ∧ k.halted = false ∧ k.launch = p.1.launch ∧ k.tlb = [] ∧ k.rlb = [] ∧
          k.slice = l.record.slice ∧ k.waitbud = l.record.waitbud ∧ k.issued = (s.getCore c).issued ∧ k.cycles = (s.getCore c).cycles ∧
          k.idle = (s.getCore c).idle ∧
          (∀ j, j < 0x60000 → memRead t.mem (localKey c j) = memRead s.mem (chunkKey p.2 j)) ∧
          ∀ i : Fin 16,
            let image := s.saveRead p.2 (0x64000 + 0x800 * i.val) 0x800
            let code := fieldOf image 0x560 8 % 8
            let old := p.1.slots[i]
            let new := k.slots[i]
            (code = 0 → new.st = .free) ∧ (4 ≤ code → new.st = .free ∧ new.gen = old.gen + 1) ∧
            (1 ≤ code → code ≤ 3 →
              new.gen = old.gen ∧ new.pc = BitVec.ofNat 20 (fieldOf image 0x568 8) ∧ new.wait = none ∧
              new.mode = (if fieldOf image 0x560 8 / 8 % 2 = 1 then .supervisor else .user) ∧
              new.st = (if code = 3 then .held else .ready) ∧
              (∀ r : Fin 31, new.x[r.val + 1] = BitVec.ofNat 64 (fieldOf image (8 * (r.val + 1)) 8)) ∧
              (∀ r : Fin 16, new.vfull[r.val] = image[0x554 + r.val / 8]!.getLsbD (r.val % 8)) ∧
              new.asyncs = if l.record.note ∧ new.st = .ready ∧ new.mode = .user then
                { scause := 0x16, val := l.record.id.setWidth 64, engine := none } :: old.asyncs else old.asyncs))

/-- `TENANCY_MOVE` (R343), `CLUSTER_SCRUB` (R310, R344), `PATROL_READ` (R306, R307, R309), `TIMEBASE_REFERENCE` (R380), `SUPPLY_DROOP` and
`RAIL_RECOVERY` (R392). The model's choices: the tie of donors and the asked resume (log 44), the errors that reads find (log 47), the timebase
and the energy (log 4), and what a droop stops (log 48). -/
def Obligations.TenancyHealth : Prop :=
  (∀ s : State,
    let lack := fun (t : BitVec 12) => (s.target? t : Int) - s.holds t
    let wants := fun (t : BitVec 12) => t ∈ s.tenants ∧ s.demand t = true ∧ 0 < lack t
    let taker := fun (t : BitVec 12) => wants t ∧ ∀ u, wants u → lack u < lack t ∨ (lack u = lack t ∧ t.toNat ≤ u.toNat)
    let spare := fun (k : BitVec 10) => s.bar0.diemap.getLsbD (k.toNat / 16) = true ∧ tabGet? s.tenancy.owner k = none
    let moves := fun (k : BitVec 10) (t : BitVec 12) =>
      exec .tenancyMove s = .next { s with tenancy := { s.tenancy with moving := some (k, t) } }
    let gives := fun (t : BitVec 12) => t ∈ s.tenants ∧ lack t < 0 ∧
      ∀ u ∈ s.tenants, lack u < 0 → lack t < lack u ∨ (lack u = lack t ∧ t.toNat ≤ u.toNat)
    let mine := fun (k : BitVec 10) (t : BitVec 12) => (k, t) ∈ s.tenancy.owner
    (s.bar0.run = false → exec .tenancyMove s = .next s) ∧
    (s.tenancy.moving = none → (∀ t, ¬wants t) ∨ ((∀ k, ¬spare k) ∧ ∀ t, ¬gives t) → exec .tenancyMove s = .next s) ∧
    (∀ m, s.tenancy.moving = some m → s.bar0.run = true → exec .tenancyMove s = .next (if Config.asksResume s.tick = false then s
      else { s with launcher := { s.launcher with launches := s.launcher.launches.map fun l =>
        if (l.stage = .saved ∨ l.stage = .awaitHost) ∧ m.1 ∈ l.clusters then { l with asked := true } else l } })) ∧
    (s.bar0.run = true → s.tenancy.moving = none → ∀ t, taker t →
      (∀ k, spare k → (∀ j, spare j → j.toNat ≤ k.toNat) → moves k t) ∧
      (∀ u k, (∀ j, ¬spare j) → gives u → mine k u → s.occupied k = false →
        (∀ j, mine j u → s.occupied j = false → j.toNat ≤ k.toNat) → moves k t) ∧
      ∀ u k, (∀ j, ¬spare j) → gives u → mine k u → (∀ j, mine j u → s.occupied j = true ∧ j.toNat ≤ k.toNat) → moves k t)) ∧
  (∀ (s : State) (k : BitVec 10) (t : BitVec 12),
    ((∀ u, s.tenancy.moving ≠ some (k, u)) → exec (.clusterScrub k) s = .next s) ∧
    (s.tenancy.moving = some (k, t) → s.occupied k = true → exec (.clusterScrub k) s = .next s) ∧
    (s.tenancy.moving = some (k, t) → s.occupied k = false → s.MemoryCanonical →
      ∃ u, exec (.clusterScrub k) s = .next u ∧ u.tenancy = { owner := tabPut s.tenancy.owner k t, moving := none } ∧
        (∀ c, clusterOf c = k → (u.getCore c = { Core.reset (s.getCore c).id with droop := (s.getCore c).droop } ∧
          u.getUnit (vaultOf c) = VaultUnit.reset ∧
          (∀ j, j < 0x60000 → memRead u.mem (localKey c j) = 0) ∧ ∀ j, j < 0xC000 → localKey c (8 * j) / 8 ∉ u.poison)) ∧
        (∀ c, clusterOf c ≠ k → u.getCore c = s.getCore c ∧
          ∀ j, j < 0x60000 → memRead u.mem (localKey c j) = memRead s.mem (localKey c j)) ∧
        ∀ key, key < 2 ^ 48 → memRead u.mem key = memRead s.mem key)) ∧
  (∀ (s : State) (g : Nat) (e : EccState),
    let die : Die := if g < 2 ^ 45 then BitVec.ofNat 6 (g / 2 ^ 33) else BitVec.ofNat 6 ((8 * g - 2 ^ 48) / 2 ^ 32)
    let there := (g < 2 ^ 39 ∨ (2 ^ 45 ≤ g ∧ g < 2 ^ 45 + 2 ^ 35 ∧ (8 * g - 2 ^ 48) % 2 ^ 20 < 0x60000)) ∧ s.fenced die = false
    (e = .clean ∨ ¬there → exec (.patrolRead { granule := g, ecc := e }) s = .next s) ∧
    (there → exec (.patrolRead { granule := g, ecc := .single }) s = .next { s with
      bar0 := { s.bar0 with ecc := tabPut s.bar0.ecc die ((tabGet? s.bar0.ecc die).getD 0 + 1) } }) ∧
    (there → ∃ t, exec (.patrolRead { granule := g, ecc := .uncorrectable }) s = .next t ∧ t.mem = s.mem ∧ t.cores = s.cores ∧
      g ∈ t.poison ∧ ∀ h, h ≠ g → (h ∈ t.poison ↔ h ∈ s.poison))) ∧
  (∀ (s : State) (g : Nat) (e : EccState), exec (.patrolRead { granule := g, ecc := e }) s = .next (s.bitError g e)) ∧
  (∀ (s : State) (c : CoreId) (line g : Nat),
    let held := ∃ l ∈ (s.getCore c).rlb, l.key = line
    s.lineError c line g .clean = s ∧
    (¬held → s.lineError c line g .single = s ∧ s.lineError c line g .uncorrectable = s) ∧
    (held → s.lineError c line g .single = { s with
      bar0 := { s.bar0 with ecc := tabPut s.bar0.ecc (dieOf c) ((tabGet? s.bar0.ecc (dieOf c)).getD 0 + 1) } }) ∧
    (held → let t := s.lineError c line g .uncorrectable
      t.mem = s.mem ∧ t.poison = s.poison ∧ (∀ d, d ≠ c → t.getCore d = s.getCore d) ∧
      (t.getCore c).rlb.map (·.key) = (s.getCore c).rlb.map (·.key) ∧
      ∀ l ∈ (t.getCore c).rlb, l.key = line → l.poison.getLsbD (g % 8) = true)) ∧
  (∀ (s : State) (d : Die), ∃ u, exec (.timebaseReference d) s = .next u ∧ u.mem = s.mem ∧ u.cores = s.cores ∧ s.now ≤ u.now ∧
    s.dieTime (.compute d) ≤ u.dieTime (.compute d) ∧ u.now ≤ u.dieTime (.compute d) + 32 ∧
    u.dieTime (.compute d) ≤ max (s.dieTime (.compute d)) (u.now + 32) ∧ (∀ e, e ≠ .compute d → u.dieTime e = s.dieTime e) ∧
    tabGet? u.bar0.energy d = some ((tabGet? s.bar0.energy d).getD 0 + Config.energyDrawn s.tick) ∧
    ∀ e, e ≠ d → tabGet? u.bar0.energy e = tabGet? s.bar0.energy e) ∧
  ∀ (s : State) (c : CoreId),
    (∃ t, exec (.supplyDroop c) s = .next t ∧ t.getCore c = { s.getCore c with droop := true } ∧ t.mem = s.mem ∧
      (∀ d, d ≠ c → t.getCore d = s.getCore d) ∧ ∀ o, o.core = c → t.canTurn o = false) ∧
    ∃ t, exec (.railRecovery c) s = .next t ∧ t.getCore c = { s.getCore c with droop := false } ∧ t.mem = s.mem ∧
      ∀ d, d ≠ c → t.getCore d = s.getCore d

/-- The events of the host, of the control space and of the boot (R370, R381-R390). The model's choices: the keys, the nonces and the chain, the
measurement of a die that never answered, the check of the root's firmware and the byte orders of signatures (log 13), whose functions are those of
their standards (PRESUMED, log 72); a RUN outside STATE 3 and an ATTGO with bit 0 clear that do nothing, the state alone in STATE 7, and accesses
that need a trained link (log 41); a poisoned AtomicOp, which is reported and has no effect (log 42); what MODULE_RESET keeps and which links
train (log 43). -/
def Obligations.HostAndBoot : Prop :=
  (∀ (s : State) (a : HostAccess),
    let n := hostSize a
    let pa := a.pa.toNat
    let here := s.linkUp a.linkB = true ∧ pa + n ≤ 2 ^ 42
    let absent := s.closed (BitVec.ofNat 6 (pa / 2 ^ 36)) = true ∨ s.closed (BitVec.ofNat 6 ((pa + (n - 1)) / 2 ^ 36)) = true
    let gives := fun (d : Option (List Byte)) => s.hostReads ++ [{ linkB := a.linkB, pa := a.pa, data := d }]
    (s.linkUp a.linkB = false → exec (.hostMemoryAccess a) s = .next s) ∧
    (here → absent →
      (∀ bs, a.op = .write bs → ∃ t e, exec (.hostMemoryAccess a) s = .next t ∧ t.errors = s.errors ++ [e] ∧ t.mem = s.mem ∧
        t.hostReads = s.hostReads ∧ t.cores = s.cores ∧ e.kind = 14 ∧ e.word1 = a.pa.setWidth 64 ∧ e.word3 = 0 ∧
        e.time = BitVec.ofNat 64 (t.dieTime (.io 0))) ∧
      ((∀ bs, a.op ≠ .write bs) → exec (.hostMemoryAccess a) s = .next { s with hostReads := gives none })) ∧
    (here → ¬absent →
      (∀ k, a.op = .read k → s.poisonAt pa k = none →
        exec (.hostMemoryAccess a) s = .next { s with hostReads := gives (some (memReads s.mem pa k)) }) ∧
      (∀ bs, a.op = .write bs → exec (.hostMemoryAccess a) s = .next (s.fromOutside (s.wrPieces [(pa, bs)]) true)) ∧
      (∀ wide f, hostAtomicOf a.op = some (wide, f) →
        let w := if wide then 8 else 4
        (s.poisonAt pa w = none → ∃ t, exec (.hostMemoryAccess a) s = .next t ∧ t.mem = (s.wr pa w (f (s.rd pa w))).mem ∧
          t.hostReads = gives (some (natBytes w (s.rd pa w))) ∧ t.cores = s.cores) ∧
        (s.poisonAt pa w ≠ none → ∃ t, exec (.hostMemoryAccess a) s = .next t ∧ t.mem = s.mem ∧
          t.errors.length = s.errors.length + 1)))) ∧
  (∀ (s : State) (d : Die),
    (∀ m, tabGet? s.auth (.compute d) = some (.ok, m) → s.closed d = false) ∧
    (∀ m, tabGet? s.auth (.compute d) = some (.fenced, m) → s.closed d = true ∧ s.fenced d = true) ∧
    (tabGet? s.auth (.compute d) = none → s.bar0.bootst.toNat < 2 → s.closed d = true)) ∧
  (∀ s : State,
    (¬s.anyLink → exec .ctlRun s = .next s) ∧
    (s.anyLink → s.bar0.bootst = 3 → s.bar0.run = false → exec .ctlRun s = .next { s with
      bar0 := { s.bar0 with run := true, bootst := 4 }, msix := s.msix ++ [9] }) ∧
    (s.bar0.bootst ≠ 3 ∨ s.bar0.run = true → exec .ctlRun s = .next s)) ∧
  (∀ s : State,
    (s.bar0.attgo = false → s.anyLink → exec .attgo s = .next { s with bar0 := { s.bar0 with attgo := true } }) ∧
    (s.bar0.attgo = true → ∃ r, exec .attgo s = .next { s with bar0 := { s.bar0 with attgo := false, attrep := some r } } ∧
      r.entries.length = 72 ∧ r.chain = Config.certificateChain ∧
      r.sign = rootSign s.tick (natBytes 48 s.bar0.attn.toNat ++ natBytes 8 (0#40 ++ s.bar0.inc ++ s.bar0.modid).toNat ++
        r.entries.flatMap fun e => natBytes 48 e.1.toNat ++ natBytes 16 (if e.2 then 1 else 0)) ∧
      (∀ d : Fin 64, ∀ st m, tabGet? s.auth (.compute (BitVec.ofFin d)) = some (st, m) → r.entries[d.val]? = some (m, decide (st = .ok))) ∧
      ∀ i : Fin 8, ∀ st m, tabGet? s.auth (.io (BitVec.ofFin i)) = some (st, m) → r.entries[64 + i.val]? = some (m, decide (st = .ok)))) ∧
  (∀ (s : State) (a : McastWrite),
    let k := a.die.toNat * 256 + a.entry.toNat
    (s.fenced a.die = true ∨ ¬s.anyLink → exec (.mcastTableWrite a) s = .next s) ∧
    (s.anyLink → s.fenced a.die = false → ∃ t, exec (.mcastTableWrite a) s = .next t ∧ t.mem = s.mem ∧ t.cores = s.cores ∧
      tabGet? t.bar0.mcast k = some a.val ∧ (∀ j, j ≠ k → tabGet? t.bar0.mcast j = tabGet? s.bar0.mcast j) ∧
      (k, s.tick) ∈ t.bar0.mcastStale)) ∧
  (∀ (s : State) (d : Die), ∃ stale, exec (.mcastWriteDrained d) s = .next { s with bar0 := { s.bar0 with mcastStale := stale } } ∧
    (∀ p ∈ stale, p ∈ s.bar0.mcastStale) ∧
    ∀ p ∈ s.bar0.mcastStale, (p.1 / 256 ≠ d.toNat → p ∈ stale) ∧ (p.1 / 256 = d.toNat → (p ∈ stale ↔
      ∃ (c : CoreId) (core : Core) (x : XferCmd), (c, core) ∈ s.cores ∧
        (core.copy.run = some x ∨ ∃ f ∈ core.copy.flights, f.x = x) ∧ x.kind = .mcast ∧ x.snapshot ≠ none ∧ x.snapAt ≤ p.2 ∧
        dieOf c = d ∧ x.group = p.1 % 256))) ∧
  (∀ (s : State) (k : Nat), k < 2 ^ 14 →
    let b := s.bar0
    (b.bootst = 7 → ∀ off, off ≠ 8 → s.bar0Read off = some 0) ∧ (b.bootst = 7 → s.bar0Read 8 = some 7) ∧
    (b.bootst ≠ 7 → (∃ t, (k, t) ∈ b.mcastStale) → s.bar0Read (0x20000 + 8 * k) = none) ∧
    (b.bootst ≠ 7 → (∀ t, (k, t) ∉ b.mcastStale) → ∃ w, s.bar0Read (0x20000 + 8 * k) = some w ∧ w.extractLsb' 42 9 = 0 ∧
      w.extractLsb' 0 12 = 0 ∧ w.extractLsb' 51 13 = ((tabGet? b.mcast k).getD 0).extractLsb' 51 13 ∧
      w.extractLsb' 12 30 = ((tabGet? b.mcast k).getD 0).extractLsb' 12 30) ∧
    (b.bootst ≠ 7 → s.bar0Read 0 = some (0#40 ++ b.inc ++ b.modid) ∧ s.bar0Read 8 = some (b.bootst.setWidth 64) ∧
      s.bar0Read 0x10 = some (if b.run then 1 else 0) ∧ s.bar0Read 0x18 = some b.diemap ∧ s.bar0Read 0x20 = some (b.iomap.setWidth 64) ∧
      s.bar0Read 0x28 = some b.qbase ∧ s.bar0Read 0x30 = some b.elbase ∧ s.bar0Read 0x38 = some b.elctl ∧
      s.bar0Read 0x40 = some b.elidx ∧ s.bar0Read 0x48 = some b.elhidx ∧ s.bar0Read 0x50 = some b.ellost ∧
      s.bar0Read 0x1030 = some (if b.attgo then 1 else 0) ∧
      ∀ d : Die, s.bar0Read (0x60000 + 16 * d.toNat) = some ((tabGet? b.ecc d).getD 0) ∧
        s.bar0Read (0x60008 + 16 * d.toNat) = some ((tabGet? b.energy d).getD 0))) ∧
  (∀ (s : State) (a : Bar0Write),
    (¬s.anyLink → exec (.bar0RegisterWrite a) s = .next s) ∧
    (s.anyLink →
      (∀ on f, barWrite a.off.toNat a.val = some (on, f) →
        exec (.bar0RegisterWrite a) s = .next (if on s.bar0 then { s with bar0 := f s.bar0 } else s)) ∧
      (a.off.toNat % 8 ≠ 0 ∨ a.off = 0x08 ∨ a.off = 0x18 ∨ a.off = 0x20 ∨ a.off = 0x40 ∨ a.off = 0x50 ∨ 0x60000 ≤ a.off.toNat →
        exec (.bar0RegisterWrite a) s = .next s) ∧
      (∀ t : BitVec 12, ∀ i : Fin 4, a.off.toNat = 0x10000 + 8 * (t.toNat / 4) → t.toNat % 4 = i.val →
        ∃ u, exec (.bar0RegisterWrite a) s = .next u ∧ tabGet? u.bar0.tgt t = some (a.val.extractLsb' (16 * i.val) 16) ∧ u.mem = s.mem) ∧
      (∀ i, i < 6 → a.off.toNat = 0x1000 + 8 * i →
        (s.bar0.attgo = true → exec (.bar0RegisterWrite a) s = .next s) ∧
        (s.bar0.attgo = false → ∃ v, exec (.bar0RegisterWrite a) s = .next { s with bar0 := { s.bar0 with attn := v } } ∧
          v.extractLsb' (64 * i) 64 = a.val ∧ ∀ j, j < 6 → j ≠ i → v.extractLsb' (64 * j) 64 = s.bar0.attn.extractLsb' (64 * j) 64)) ∧
      (a.off = 0x1030 → exec (.bar0RegisterWrite a) s =
        .next (if a.val.getLsbD 0 then { s with bar0 := { s.bar0 with attgo := true } } else s)) ∧
      (a.off = 0x10 → exec (.bar0RegisterWrite a) s = if a.val.getLsbD 0 then exec .ctlRun s else .next s) ∧
      (∀ t : BitVec 12, a.off.toNat = 0x40000 + 8 * (t.toNat / 8) → ∃ m,
        exec (.bar0RegisterWrite a) s = .next { s with bar0 := { s.bar0 with vcmap := m } } ∧
        tabGet? m t = some (a.val.extractLsb' (8 * (t.toNat % 8)) 8) ∧
        ∀ u : BitVec 12, u.toNat / 8 ≠ t.toNat / 8 → tabGet? m u = tabGet? s.bar0.vcmap u) ∧
      (∀ n, 1 ≤ n → n ≤ 7 → a.off.toNat = 0x41000 + 8 * (n - 1) → exec (.bar0RegisterWrite a) s = .next { s with
        bar0 := { s.bar0 with vcw := tabPut s.bar0.vcw n (if a.val.extractLsb' 0 8 = 0 then 1 else a.val.extractLsb' 0 8) } }) ∧
      (∀ (n : BitVec 8) (high : Bool), a.off.toNat = 0x50000 + 16 * n.toNat + (if high then 8 else 0) →
        let old := (tabGet? s.bar0.peerwin n).getD 0
        let lo := if high then old.extractLsb' 0 64 else a.val
        let hi := if high then a.val else old.extractLsb' 64 64
        exec (.bar0RegisterWrite a) s = .next { s with bar0 := { s.bar0 with
          peerwin := tabPut s.bar0.peerwin n ((hi &&& 0x003F_FFFF_FFFF_FFFF) ++ (lo &&& 0x80FF_FFFF_0000_0FFF)) } }) ∧
      (∀ k, k < 2 ^ 14 → a.off.toNat = 0x20000 + 8 * k → exec (.bar0RegisterWrite a) s =
        exec (.mcastTableWrite { die := BitVec.ofNat 6 (k / 256), entry := BitVec.ofNat 8 k, val := a.val }) s))) ∧
  (∀ (s : State) (e : ErrReport) (es : List ErrReport), s.errors = e :: es →
    let b := s.bar0
    let full := b.elctl.toNat < 4 ∨ (b.elidx - b.elhidx).toNat = 2 ^ b.elctl.toNat
    (full → exec .errorLogReport s = .next { s with errors := es, bar0 := { b with
      ellost := if b.ellost = BitVec.allOnes 64 then b.ellost else b.ellost + 1 } }) ∧
    (¬full → ∃ t, exec .errorLogReport s = .next t ∧ t.errors = es ∧ t.cores = s.cores ∧
      t.bar0 = { b with elidx := b.elidx + 1 } ∧ t.msix = (if b.elidx = b.elhidx then s.msix ++ [0] else s.msix) ∧
      t.mem = (s.wrPieces [(2 ^ 46 + (b.elbase.toNat + 32 * (b.elidx.toNat % 2 ^ b.elctl.toNat)) % 2 ^ 46,
        natBytes 8 (e.kind.toNat + e.core.toNat * 2 ^ 8 + e.launch.toNat * 2 ^ 32) ++ natBytes 8 e.word1.toNat ++
          natBytes 8 e.time.toNat ++ natBytes 8 e.word3.toNat)]).mem)) ∧
  (∀ s : State, ∃ t, exec .moduleReset s = .next t ∧ t.bar0 = { Bar0.reset with inc := s.bar0.inc, bootst := 1 } ∧ t.mem = s.mem ∧
    t.cores = [] ∧ t.units = [] ∧ t.reqs = [] ∧ t.tmsgs = [] ∧ t.bmsgs = [] ∧ t.launcher = State.reset.launcher ∧
    t.tenancy = State.reset.tenancy ∧ t.auth = [] ∧ t.linkA = .untrained ∧ t.linkB = .untrained ∧ t.msix = s.msix ++ [9]) ∧
  (∀ (s : State) (a : AuthArg),
    let nr := natBytes 48 (Config.rootNonce s.tick).toNat
    let nd := natBytes 48 a.nonce.toNat
    let back := nd ++ nr ++ natBytes 1 (DieId.number a.die)
    (a.die = .io 0 → s.authOk a = firmwareOk a) ∧
    (a.die ≠ .io 0 → s.authOk a = (certificateOk Config.caKey a.cert &&
      signatureOk (certKey a.cert) (nr ++ nd ++ natBytes 48 a.measure.toNat) a.sign && signatureOk rootKey back (rootSign s.tick back)))) ∧
  (∀ (key : CurvePoint) (bs : List Byte) (sign : BitVec 768), signatureOk key bs sign = true →
    let r := (sign.extractLsb' 0 384).toNat
    let v := (sign.extractLsb' 384 384).toNat
    0 < r ∧ r < bpN ∧ 0 < v ∧ v < bpN ∧ ∃ x y, key = some (x, y) ∧ x < bpP ∧ y < bpP ∧ y * y % bpP = (x * x * x + bpA * x + bpB) % bpP ∧
      ∃ px py, curveAdd (curveMul 384 (sha384 bs * invMod bpN v % bpN) bpG) (curveMul 384 (r * invMod bpN v % bpN) key) = some (px, py) ∧
        px % bpN = r) ∧
  (∀ (s : State) (a : AuthArg),
    let with_ := fun (st : AuthState) => tabPut s.auth a.die (st, a.measure)
    (s.bar0.bootst ≠ 1 ∨ tabGet? s.auth a.die ≠ none → exec (.dieAuthentication a) s = .next s) ∧
    (s.bar0.bootst = 1 → tabGet? s.auth a.die = none →
      (a.die = .io 0 → s.authOk a = true → exec (.dieAuthentication a) s = .next { s with auth := with_ .ok }) ∧
      (a.die = .io 0 → s.authOk a = false → exec (.dieAuthentication a) s = .next { s with
        auth := with_ .fenced, bar0 := { s.bar0 with bootst := 7 }, msix := s.msix ++ [9] }) ∧
      (a.die ≠ .io 0 → tabGet? s.auth (.io 0) = none → exec (.dieAuthentication a) s = .next s) ∧
      (a.die ≠ .io 0 → tabGet? s.auth (.io 0) ≠ none →
        ∃ t, exec (.dieAuthentication a) s = .next t ∧ t.auth = with_ (if s.authOk a then .ok else .fenced) ∧ t.mem = s.mem ∧ t.cores = s.cores ∧
          (s.authOk a = true → t.errors = s.errors) ∧
          (s.authOk a = false → ∃ e, t.errors = s.errors ++ [e] ∧ e.kind = 14 ∧
            (∀ d, a.die = .compute d → e.word1 = d.setWidth 64 ∧ e.word3 = 0) ∧ ∀ i, a.die = .io i → e.word1 = i.setWidth 64 ∧ e.word3 = 1) ∧
          ((∀ d, d ≠ a.die → tabGet? s.auth d ≠ none) → t.bar0.bootst = 2 ∧ t.msix = s.msix ++ [9]) ∧
          ((∃ d, d ≠ a.die ∧ tabGet? s.auth d = none) → t.bar0 = s.bar0 ∧ t.msix = s.msix)))) ∧
  (∀ (s : State) (d : DieId),
    (d = .io 0 → exec (.authenticationTimeout d) s = .next s) ∧
    (d ≠ .io 0 → s.bar0.bootst ≠ 1 ∨ tabGet? s.auth d ≠ none ∨ tabGet? s.auth (.io 0) = none →
      exec (.authenticationTimeout d) s = .next s) ∧
    (d ≠ .io 0 → s.bar0.bootst = 1 → tabGet? s.auth d = none → tabGet? s.auth (.io 0) ≠ none →
      ∃ t m e, exec (.authenticationTimeout d) s = .next t ∧ t.auth = tabPut s.auth d (.fenced, m) ∧ t.mem = s.mem ∧
        t.cores = s.cores ∧ t.errors = s.errors ++ [e] ∧ e.kind = 14)) ∧
  (∀ s : State,
    (s.bar0.bootst ≠ 2 → exec .bootInitialisationComplete s = .next s) ∧
    (s.bar0.bootst = 2 → s.MemoryCanonical → ∃ t, exec .bootInitialisationComplete s = .next t ∧ t.bar0.bootst = 3 ∧
      t.bar0.inc = s.bar0.inc + 1 ∧ t.msix = s.msix ++ [9] ∧
      (∀ d : Fin 64, t.bar0.diemap.getLsbD d.val = s.present (.compute (BitVec.ofFin d))) ∧
      (∀ i : Fin 8, t.bar0.iomap.getLsbD i.val = s.present (.io (BitVec.ofFin i))) ∧
      (∀ d : Die, s.present (.compute d) = true →
        (∀ k, k < 2 ^ 36 → memRead t.mem (d.toNat * 2 ^ 36 + k) = 0) ∧
        (∀ g ∈ t.poison, ¬(d.toNat * 2 ^ 36 ≤ 8 * g ∧ 8 * g < (d.toNat + 1) * 2 ^ 36)) ∧
        ∀ c, dieOf c = d → t.getCore c = { Core.reset (s.getCore c).id with droop := (s.getCore c).droop } ∧
          ∀ j, j < 0x60000 → memRead t.mem (localKey c j) = 0) ∧
      ∀ d : Die, s.present (.compute d) = false → ∀ c, dieOf c = d → t.getCore c = s.getCore c)) ∧
  ∀ (s : State) (a : LinkArg),
    let l := if a.cxl then LinkState.cxl else LinkState.pcie
    (a.linkB = false → exec (.hostLinkTraining a) s = .next { s with linkA := l }) ∧
    (a.linkB = true → s.present (.io 4) = true → exec (.hostLinkTraining a) s = .next { s with linkB := l }) ∧
    (a.linkB = true → s.present (.io 4) = false → exec (.hostLinkTraining a) s = .next s)
end

