-- ==== Sys2Proof/Laws/Memory.lean ====
section
/-! SUPPORT. The canonical form of memory is kept by every memory operation, and reset memory has it. -/

namespace Sys2Proof.Machine

open Sys2Proof

/-- A canonical list stays canonical from any lower bound. -/
theorem memWfFrom_mono {m : List Host.Cell} {lo lo' : Nat} (h : memWfFrom lo m = true) (hl : lo' ≤ lo) :
    memWfFrom lo' m = true := by
  cases m with
  | nil => rfl
  | cons c m =>
    obtain ⟨a, b⟩ := c
    simp only [memWfFrom, Bool.and_eq_true, decide_eq_true_eq] at h ⊢
    exact ⟨⟨by omega, h.1.2⟩, h.2⟩

/-- One byte written at or above a bound keeps the canonical form from it. -/
theorem memWfFrom_memWrite {m : List Host.Cell} {lo k : Nat} (v : Byte) (h : memWfFrom lo m = true) (hk : lo ≤ k) :
    memWfFrom lo (memWrite m k v) = true := by
  induction m generalizing lo with
  | nil => by_cases hv : v = 0#8 <;> simp [memWrite, memWfFrom, hv, hk]
  | cons c m ih =>
    obtain ⟨a, b⟩ := c
    simp only [memWfFrom, Bool.and_eq_true, decide_eq_true_eq] at h
    unfold memWrite
    split
    · split
      · simp only [memWfFrom, Bool.and_eq_true, decide_eq_true_eq]; exact h
      · rename_i h0 hv
        simp only [memWfFrom, Bool.and_eq_true, decide_eq_true_eq, bne_iff_ne, ne_eq]
        exact ⟨⟨hk, hv⟩, ⟨by omega, by simpa using h.1.2⟩, h.2⟩
    · split
      · rename_i h0 he
        subst he
        split
        · exact memWfFrom_mono h.2 (by omega)
        · rename_i hv
          simp only [memWfFrom, Bool.and_eq_true, decide_eq_true_eq, bne_iff_ne, ne_eq]
          exact ⟨⟨hk, hv⟩, h.2⟩
      · simp only [memWfFrom, Bool.and_eq_true, decide_eq_true_eq]
        exact ⟨h.1, ih h.2 (by omega)⟩

/-- One byte written keeps the canonical form. -/
theorem memWf_memWrite {m : List Host.Cell} (k : Nat) (v : Byte) (h : memWf m = true) : memWf (memWrite m k v) = true :=
  memWfFrom_memWrite v h (Nat.zero_le k)

/-- Bytes written keep the canonical form. -/
theorem memWf_memWrites {m : List Host.Cell} (k : Nat) (bs : List Byte) (h : memWf m = true) :
    memWf (memWrites m k bs) = true := by
  induction bs generalizing m k with
  | nil => exact h
  | cons b bs ih => exact ih _ (memWf_memWrite k b h)

/-- A write made of pieces keeps the canonical form. -/
theorem memWf_wrPieces {s : State} (ps : List (Nat × List Byte)) (h : memWf s.mem = true) :
    memWf (s.wrPieces ps).mem = true := by
  have aux : ∀ (ps : List (Nat × List Byte)) (m : List Host.Cell), memWf m = true →
      memWf (ps.foldl (fun m p => memWrites m p.1 p.2) m) = true := by
    intro ps
    induction ps with
    | nil => exact fun _ h => h
    | cons p ps ih => exact fun m h => ih _ (memWf_memWrites p.1 p.2 h)
  exact aux ps s.mem h

/-- A value written keeps the canonical form. -/
theorem memWf_wr {s : State} (k n v : Nat) (h : memWf s.mem = true) : memWf (s.wr k n v).mem = true :=
  memWf_wrPieces _ h

/-- The canonical form, said of the members of the list. -/
theorem memWfFrom_iff {m : List Host.Cell} {lo : Nat} :
    memWfFrom lo m = true ↔
      (m.Pairwise fun a b => a.1 < b.1) ∧ ∀ c ∈ m, lo ≤ c.1 ∧ c.2 ≠ 0 := by
  induction m generalizing lo with
  | nil => simp [memWfFrom]
  | cons c m ih =>
    obtain ⟨a, b⟩ := c
    simp only [memWfFrom, Bool.and_eq_true, decide_eq_true_eq, ih, List.pairwise_cons, List.mem_cons, bne_iff_ne, ne_eq,
      forall_eq_or_imp]
    constructor
    · rintro ⟨⟨h1, h2⟩, h3, h4⟩
      exact ⟨⟨fun c hc => (h4 c hc).1, h3⟩, ⟨h1, h2⟩, fun c hc => ⟨by have := (h4 c hc).1; omega, (h4 c hc).2⟩⟩
    · rintro ⟨⟨h1, h2⟩, ⟨h3, h4⟩, h5⟩
      exact ⟨⟨h3, h4⟩, h2, fun c hc => ⟨h1 c hc, (h5 c hc).2⟩⟩

/-- A part of canonical memory that a test picks is canonical. -/
theorem memWf_filter {m : List Host.Cell} (p : Host.Cell → Bool) (h : memWf m = true) : memWf (m.filter p) = true := by
  rw [memWf, memWfFrom_iff] at h ⊢
  exact ⟨h.1.filter p, fun c hc => h.2 c (List.mem_of_mem_filter hc)⟩

/-- A range set to zero keeps the canonical form. -/
theorem memWf_memZero {m : List Host.Cell} (k n : Nat) (h : memWf m = true) : memWf (memZero m k n) = true :=
  memWf_filter _ h

/-- A range moved keeps the canonical form. -/
theorem memWf_memMove {m : List Host.Cell} (src dst n : Nat) (h : memWf m = true) : memWf (memMove m src dst n) = true := by
  rw [memWf, memWfFrom_iff] at h ⊢
  have hs : ∀ c ∈ (memSlice m src n).map fun c => (c.1 - src + dst, c.2), dst ≤ c.1 ∧ c.1 < dst + n ∧ c.2 ≠ 0 := by
    intro c hc
    obtain ⟨d, hd, rfl⟩ := List.mem_map.1 hc
    have hd' := List.mem_filter.1 hd
    simp only [decide_eq_true_eq, Bool.and_eq_true] at hd'
    exact ⟨by simp, by simp; omega, (h.2 d hd'.1).2⟩
  have ps : ((memSlice m src n).map fun c => (c.1 - src + dst, c.2)).Pairwise fun a b => a.1 < b.1 := by
    rw [List.pairwise_map]
    refine (h.1.filter _).imp_of_mem ?_
    intro a b ha hb hab
    have ha' := List.mem_filter.1 ha
    simp only [decide_eq_true_eq, Bool.and_eq_true] at ha'
    show a.1 - src + dst < b.1 - src + dst
    omega
  constructor
  · unfold memMove
    rw [List.pairwise_append, List.pairwise_append]
    refine ⟨⟨h.1.filter _, ps, ?_⟩, h.1.filter _, ?_⟩
    · intro a ha b hb
      have := (hs b hb).1
      have ha := (List.mem_filter.1 ha).2
      simp only [decide_eq_true_eq] at ha
      omega
    · intro a ha b hb
      have hb := (List.mem_filter.1 hb).2
      simp only [decide_eq_true_eq] at hb
      rcases List.mem_append.1 ha with ha | ha
      · have ha := (List.mem_filter.1 ha).2
        simp only [decide_eq_true_eq] at ha
        omega
      · have := (hs a ha).2.1
        omega
  · intro c hc
    unfold memMove at hc
    rcases List.mem_append.1 hc with hc | hc
    · rcases List.mem_append.1 hc with hc | hc
      · exact h.2 c (List.mem_of_mem_filter hc)
      · exact ⟨Nat.zero_le _, (hs c hc).2.2⟩
    · exact h.2 c (List.mem_of_mem_filter hc)

/-- A zeroed range keeps the canonical form. -/
theorem memWf_zeroRange {s : State} (k n : Nat) (h : memWf s.mem = true) : memWf (s.zeroRange k n).mem = true :=
  memWf_memZero k n h

/-- A moved range keeps the canonical form. -/
theorem memWf_moveRange {s : State} (src dst n : Nat) (h : memWf s.mem = true) : memWf (s.moveRange src dst n).mem = true :=
  memWf_memMove src dst n h

/-! ### Reads -/

/-- Below its keys a canonical memory reads zero. -/
theorem memRead_low {m : List Host.Cell} {lo k : Nat} (h : memWfFrom lo m = true) (hk : k < lo) : memRead m k = 0 := by
  cases m with
  | nil => rfl
  | cons c m =>
    obtain ⟨a, b⟩ := c
    simp only [memWfFrom, Bool.and_eq_true, decide_eq_true_eq] at h
    unfold memRead
    rw [if_neg (by omega), if_pos (by omega)]

/-- Reads of a byte range are reads of its bytes. -/
theorem memReads_eq (m : List Host.Cell) (k n : Nat) : memReads m k n = (List.range n).map fun i => memRead m (k + i) := by
  induction n generalizing k with
  | zero => rfl
  | succ n ih =>
    rw [List.range_succ_eq_map, List.map_cons, List.map_map, memReads, ih]
    congr 1
    apply List.map_congr_left
    intro i _
    rw [Function.comp, Nat.succ_eq_add_one, show k + 1 + i = k + (i + 1) by omega]

/-- The value of the bytes of a number. -/
theorem leNat_natBytes (n v : Nat) : leNat (natBytes n v) = v % 256 ^ n := by
  induction n generalizing v with
  | zero => simp [natBytes, leNat, Nat.mod_one]
  | succ n ih =>
    rw [natBytes, leNat, ih, BitVec.toNat_ofNat, show 256 ^ (n + 1) = 256 * 256 ^ n from Nat.pow_succ', Nat.mod_mul]

/-- The bytes of a number are as many as asked. -/
@[simp] theorem length_natBytes (n v : Nat) : (natBytes n v).length = n := by
  induction n generalizing v with
  | zero => rfl
  | succ n ih => rw [natBytes, List.length_cons, ih]

/-- A range set to zero reads zero, and every other byte reads as before (R310). -/
theorem memRead_memZero {m : List Host.Cell} (k n j : Nat) (h : memWf m = true) :
    memRead (memZero m k n) j = if k ≤ j ∧ j < k + n then 0 else memRead m j := by
  unfold memWf at h
  generalize 0 = lo at h
  unfold memZero
  induction m generalizing lo with
  | nil => simp [memRead]
  | cons c m ih =>
    obtain ⟨a, b⟩ := c
    simp only [memWfFrom, Bool.and_eq_true, decide_eq_true_eq] at h
    have low : ∀ x, x ≤ a → memRead m x = 0 := fun x hx => memRead_low h.2 (by omega)
    by_cases hp : a < k ∨ k + n ≤ a
    · rw [List.filter_cons_of_pos (by simpa using hp)]
      unfold memRead
      by_cases hj : a = j
      · subst hj; rw [if_pos rfl, if_neg (by omega), if_pos rfl]
      · rw [if_neg hj, if_neg hj]
        by_cases hl : j < a
        · rw [if_pos hl]; split <;> rfl
        · rw [if_neg hl, if_neg hl]; exact ih _ h.2
    · rw [List.filter_cons_of_neg (by simpa using hp), ih _ h.2]
      conv => rhs; unfold memRead
      by_cases hr : k ≤ j ∧ j < k + n
      · rw [if_pos hr, if_pos hr]
      · rw [if_neg hr, if_neg hr, if_neg (by omega)]
        split
        · exact low j (by omega)
        · rfl

end Sys2Proof.Machine
end

