-- ==== Sys2Proof/Laws/State.lean ====
section
/-! SUPPORT. What each named update of the machine leaves and what it changes: one lemma per field per update, and the reads of
cores, slots and registers after them. -/

namespace Sys2Proof.Machine

open Sys2Proof

/-! ### State.putCore -/

@[simp] theorem State.putCore_cur (s : State) (c : CoreId) (k : Core) : (s.putCore c k).cur = s.cur := rfl
@[simp] theorem State.putCore_agenda (s : State) (c : CoreId) (k : Core) : (s.putCore c k).agenda = s.agenda := rfl
@[simp] theorem State.putCore_focus (s : State) (c : CoreId) (k : Core) : (s.putCore c k).focus = s.focus := rfl
@[simp] theorem State.putCore_tick (s : State) (c : CoreId) (k : Core) : (s.putCore c k).tick = s.tick := rfl
@[simp] theorem State.putCore_nextId (s : State) (c : CoreId) (k : Core) : (s.putCore c k).nextId = s.nextId := rfl
@[simp] theorem State.putCore_units (s : State) (c : CoreId) (k : Core) : (s.putCore c k).units = s.units := rfl
@[simp] theorem State.putCore_cox (s : State) (c : CoreId) (k : Core) : (s.putCore c k).cox = s.cox := rfl
@[simp] theorem State.putCore_mem (s : State) (c : CoreId) (k : Core) : (s.putCore c k).mem = s.mem := rfl
@[simp] theorem State.putCore_poison (s : State) (c : CoreId) (k : Core) : (s.putCore c k).poison = s.poison := rfl
@[simp] theorem State.putCore_past (s : State) (c : CoreId) (k : Core) : (s.putCore c k).past = s.past := rfl
@[simp] theorem State.putCore_writes (s : State) (c : CoreId) (k : Core) : (s.putCore c k).writes = s.writes := rfl
@[simp] theorem State.putCore_fulls (s : State) (c : CoreId) (k : Core) : (s.putCore c k).fulls = s.fulls := rfl
@[simp] theorem State.putCore_wires (s : State) (c : CoreId) (k : Core) : (s.putCore c k).wires = s.wires := rfl
@[simp] theorem State.putCore_host (s : State) (c : CoreId) (k : Core) : (s.putCore c k).host = s.host := rfl
@[simp] theorem State.putCore_now (s : State) (c : CoreId) (k : Core) : (s.putCore c k).now = s.now := rfl
@[simp] theorem State.putCore_times (s : State) (c : CoreId) (k : Core) : (s.putCore c k).times = s.times := rfl
@[simp] theorem State.putCore_reqs (s : State) (c : CoreId) (k : Core) : (s.putCore c k).reqs = s.reqs := rfl
@[simp] theorem State.putCore_walks (s : State) (c : CoreId) (k : Core) : (s.putCore c k).walks = s.walks := rfl
@[simp] theorem State.putCore_walkCache (s : State) (c : CoreId) (k : Core) : (s.putCore c k).walkCache = s.walkCache := rfl
@[simp] theorem State.putCore_splits (s : State) (c : CoreId) (k : Core) : (s.putCore c k).splits = s.splits := rfl
@[simp] theorem State.putCore_refused (s : State) (c : CoreId) (k : Core) : (s.putCore c k).refused = s.refused := rfl
@[simp] theorem State.putCore_tmsgs (s : State) (c : CoreId) (k : Core) : (s.putCore c k).tmsgs = s.tmsgs := rfl
@[simp] theorem State.putCore_sacks (s : State) (c : CoreId) (k : Core) : (s.putCore c k).sacks = s.sacks := rfl
@[simp] theorem State.putCore_bads (s : State) (c : CoreId) (k : Core) : (s.putCore c k).bads = s.bads := rfl
@[simp] theorem State.putCore_replies (s : State) (c : CoreId) (k : Core) : (s.putCore c k).replies = s.replies := rfl
@[simp] theorem State.putCore_bmsgs (s : State) (c : CoreId) (k : Core) : (s.putCore c k).bmsgs = s.bmsgs := rfl
@[simp] theorem State.putCore_backs (s : State) (c : CoreId) (k : Core) : (s.putCore c k).backs = s.backs := rfl
@[simp] theorem State.putCore_wbmsgs (s : State) (c : CoreId) (k : Core) : (s.putCore c k).wbmsgs = s.wbmsgs := rfl
@[simp] theorem State.putCore_wbacks (s : State) (c : CoreId) (k : Core) : (s.putCore c k).wbacks = s.wbacks := rfl
@[simp] theorem State.putCore_wbdones (s : State) (c : CoreId) (k : Core) : (s.putCore c k).wbdones = s.wbdones := rfl
@[simp] theorem State.putCore_wbroots (s : State) (c : CoreId) (k : Core) : (s.putCore c k).wbroots = s.wbroots := rfl
@[simp] theorem State.putCore_errors (s : State) (c : CoreId) (k : Core) : (s.putCore c k).errors = s.errors := rfl
@[simp] theorem State.putCore_fails (s : State) (c : CoreId) (k : Core) : (s.putCore c k).fails = s.fails := rfl
@[simp] theorem State.putCore_launcher (s : State) (c : CoreId) (k : Core) : (s.putCore c k).launcher = s.launcher := rfl
@[simp] theorem State.putCore_tenancy (s : State) (c : CoreId) (k : Core) : (s.putCore c k).tenancy = s.tenancy := rfl
@[simp] theorem State.putCore_bar0 (s : State) (c : CoreId) (k : Core) : (s.putCore c k).bar0 = s.bar0 := rfl
@[simp] theorem State.putCore_auth (s : State) (c : CoreId) (k : Core) : (s.putCore c k).auth = s.auth := rfl
@[simp] theorem State.putCore_linkA (s : State) (c : CoreId) (k : Core) : (s.putCore c k).linkA = s.linkA := rfl
@[simp] theorem State.putCore_linkB (s : State) (c : CoreId) (k : Core) : (s.putCore c k).linkB = s.linkB := rfl
@[simp] theorem State.putCore_hostReads (s : State) (c : CoreId) (k : Core) : (s.putCore c k).hostReads = s.hostReads := rfl
@[simp] theorem State.putCore_msix (s : State) (c : CoreId) (k : Core) : (s.putCore c k).msix = s.msix := rfl
@[simp] theorem State.putCore_peerFrames (s : State) (c : CoreId) (k : Core) : (s.putCore c k).peerFrames = s.peerFrames := rfl

/-! ### State.onCore -/

@[simp] theorem State.onCore_cur (s : State) (c : CoreId) (f : Core → Core) : (s.onCore c f).cur = s.cur := rfl
@[simp] theorem State.onCore_agenda (s : State) (c : CoreId) (f : Core → Core) : (s.onCore c f).agenda = s.agenda := rfl
@[simp] theorem State.onCore_focus (s : State) (c : CoreId) (f : Core → Core) : (s.onCore c f).focus = s.focus := rfl
@[simp] theorem State.onCore_tick (s : State) (c : CoreId) (f : Core → Core) : (s.onCore c f).tick = s.tick := rfl
@[simp] theorem State.onCore_nextId (s : State) (c : CoreId) (f : Core → Core) : (s.onCore c f).nextId = s.nextId := rfl
@[simp] theorem State.onCore_units (s : State) (c : CoreId) (f : Core → Core) : (s.onCore c f).units = s.units := rfl
@[simp] theorem State.onCore_cox (s : State) (c : CoreId) (f : Core → Core) : (s.onCore c f).cox = s.cox := rfl
@[simp] theorem State.onCore_mem (s : State) (c : CoreId) (f : Core → Core) : (s.onCore c f).mem = s.mem := rfl
@[simp] theorem State.onCore_poison (s : State) (c : CoreId) (f : Core → Core) : (s.onCore c f).poison = s.poison := rfl
@[simp] theorem State.onCore_past (s : State) (c : CoreId) (f : Core → Core) : (s.onCore c f).past = s.past := rfl
@[simp] theorem State.onCore_writes (s : State) (c : CoreId) (f : Core → Core) : (s.onCore c f).writes = s.writes := rfl
@[simp] theorem State.onCore_fulls (s : State) (c : CoreId) (f : Core → Core) : (s.onCore c f).fulls = s.fulls := rfl
@[simp] theorem State.onCore_wires (s : State) (c : CoreId) (f : Core → Core) : (s.onCore c f).wires = s.wires := rfl
@[simp] theorem State.onCore_host (s : State) (c : CoreId) (f : Core → Core) : (s.onCore c f).host = s.host := rfl
@[simp] theorem State.onCore_now (s : State) (c : CoreId) (f : Core → Core) : (s.onCore c f).now = s.now := rfl
@[simp] theorem State.onCore_times (s : State) (c : CoreId) (f : Core → Core) : (s.onCore c f).times = s.times := rfl
@[simp] theorem State.onCore_reqs (s : State) (c : CoreId) (f : Core → Core) : (s.onCore c f).reqs = s.reqs := rfl
@[simp] theorem State.onCore_walks (s : State) (c : CoreId) (f : Core → Core) : (s.onCore c f).walks = s.walks := rfl
@[simp] theorem State.onCore_walkCache (s : State) (c : CoreId) (f : Core → Core) : (s.onCore c f).walkCache = s.walkCache := rfl
@[simp] theorem State.onCore_splits (s : State) (c : CoreId) (f : Core → Core) : (s.onCore c f).splits = s.splits := rfl
@[simp] theorem State.onCore_refused (s : State) (c : CoreId) (f : Core → Core) : (s.onCore c f).refused = s.refused := rfl
@[simp] theorem State.onCore_tmsgs (s : State) (c : CoreId) (f : Core → Core) : (s.onCore c f).tmsgs = s.tmsgs := rfl
@[simp] theorem State.onCore_sacks (s : State) (c : CoreId) (f : Core → Core) : (s.onCore c f).sacks = s.sacks := rfl
@[simp] theorem State.onCore_bads (s : State) (c : CoreId) (f : Core → Core) : (s.onCore c f).bads = s.bads := rfl
@[simp] theorem State.onCore_replies (s : State) (c : CoreId) (f : Core → Core) : (s.onCore c f).replies = s.replies := rfl
@[simp] theorem State.onCore_bmsgs (s : State) (c : CoreId) (f : Core → Core) : (s.onCore c f).bmsgs = s.bmsgs := rfl
@[simp] theorem State.onCore_backs (s : State) (c : CoreId) (f : Core → Core) : (s.onCore c f).backs = s.backs := rfl
@[simp] theorem State.onCore_wbmsgs (s : State) (c : CoreId) (f : Core → Core) : (s.onCore c f).wbmsgs = s.wbmsgs := rfl
@[simp] theorem State.onCore_wbacks (s : State) (c : CoreId) (f : Core → Core) : (s.onCore c f).wbacks = s.wbacks := rfl
@[simp] theorem State.onCore_wbdones (s : State) (c : CoreId) (f : Core → Core) : (s.onCore c f).wbdones = s.wbdones := rfl
@[simp] theorem State.onCore_wbroots (s : State) (c : CoreId) (f : Core → Core) : (s.onCore c f).wbroots = s.wbroots := rfl
@[simp] theorem State.onCore_errors (s : State) (c : CoreId) (f : Core → Core) : (s.onCore c f).errors = s.errors := rfl
@[simp] theorem State.onCore_fails (s : State) (c : CoreId) (f : Core → Core) : (s.onCore c f).fails = s.fails := rfl
@[simp] theorem State.onCore_launcher (s : State) (c : CoreId) (f : Core → Core) : (s.onCore c f).launcher = s.launcher := rfl
@[simp] theorem State.onCore_tenancy (s : State) (c : CoreId) (f : Core → Core) : (s.onCore c f).tenancy = s.tenancy := rfl
@[simp] theorem State.onCore_bar0 (s : State) (c : CoreId) (f : Core → Core) : (s.onCore c f).bar0 = s.bar0 := rfl
@[simp] theorem State.onCore_auth (s : State) (c : CoreId) (f : Core → Core) : (s.onCore c f).auth = s.auth := rfl
@[simp] theorem State.onCore_linkA (s : State) (c : CoreId) (f : Core → Core) : (s.onCore c f).linkA = s.linkA := rfl
@[simp] theorem State.onCore_linkB (s : State) (c : CoreId) (f : Core → Core) : (s.onCore c f).linkB = s.linkB := rfl
@[simp] theorem State.onCore_hostReads (s : State) (c : CoreId) (f : Core → Core) : (s.onCore c f).hostReads = s.hostReads := rfl
@[simp] theorem State.onCore_msix (s : State) (c : CoreId) (f : Core → Core) : (s.onCore c f).msix = s.msix := rfl
@[simp] theorem State.onCore_peerFrames (s : State) (c : CoreId) (f : Core → Core) : (s.onCore c f).peerFrames = s.peerFrames := rfl

/-! ### State.onSlot -/

@[simp] theorem State.onSlot_cur (s : State) (o : SlotId) (f : Slot → Slot) : (s.onSlot o f).cur = s.cur := rfl
@[simp] theorem State.onSlot_agenda (s : State) (o : SlotId) (f : Slot → Slot) : (s.onSlot o f).agenda = s.agenda := rfl
@[simp] theorem State.onSlot_focus (s : State) (o : SlotId) (f : Slot → Slot) : (s.onSlot o f).focus = s.focus := rfl
@[simp] theorem State.onSlot_tick (s : State) (o : SlotId) (f : Slot → Slot) : (s.onSlot o f).tick = s.tick := rfl
@[simp] theorem State.onSlot_nextId (s : State) (o : SlotId) (f : Slot → Slot) : (s.onSlot o f).nextId = s.nextId := rfl
@[simp] theorem State.onSlot_units (s : State) (o : SlotId) (f : Slot → Slot) : (s.onSlot o f).units = s.units := rfl
@[simp] theorem State.onSlot_cox (s : State) (o : SlotId) (f : Slot → Slot) : (s.onSlot o f).cox = s.cox := rfl
@[simp] theorem State.onSlot_mem (s : State) (o : SlotId) (f : Slot → Slot) : (s.onSlot o f).mem = s.mem := rfl
@[simp] theorem State.onSlot_poison (s : State) (o : SlotId) (f : Slot → Slot) : (s.onSlot o f).poison = s.poison := rfl
@[simp] theorem State.onSlot_past (s : State) (o : SlotId) (f : Slot → Slot) : (s.onSlot o f).past = s.past := rfl
@[simp] theorem State.onSlot_writes (s : State) (o : SlotId) (f : Slot → Slot) : (s.onSlot o f).writes = s.writes := rfl
@[simp] theorem State.onSlot_fulls (s : State) (o : SlotId) (f : Slot → Slot) : (s.onSlot o f).fulls = s.fulls := rfl
@[simp] theorem State.onSlot_wires (s : State) (o : SlotId) (f : Slot → Slot) : (s.onSlot o f).wires = s.wires := rfl
@[simp] theorem State.onSlot_host (s : State) (o : SlotId) (f : Slot → Slot) : (s.onSlot o f).host = s.host := rfl
@[simp] theorem State.onSlot_now (s : State) (o : SlotId) (f : Slot → Slot) : (s.onSlot o f).now = s.now := rfl
@[simp] theorem State.onSlot_times (s : State) (o : SlotId) (f : Slot → Slot) : (s.onSlot o f).times = s.times := rfl
@[simp] theorem State.onSlot_reqs (s : State) (o : SlotId) (f : Slot → Slot) : (s.onSlot o f).reqs = s.reqs := rfl
@[simp] theorem State.onSlot_walks (s : State) (o : SlotId) (f : Slot → Slot) : (s.onSlot o f).walks = s.walks := rfl
@[simp] theorem State.onSlot_walkCache (s : State) (o : SlotId) (f : Slot → Slot) : (s.onSlot o f).walkCache = s.walkCache := rfl
@[simp] theorem State.onSlot_splits (s : State) (o : SlotId) (f : Slot → Slot) : (s.onSlot o f).splits = s.splits := rfl
@[simp] theorem State.onSlot_refused (s : State) (o : SlotId) (f : Slot → Slot) : (s.onSlot o f).refused = s.refused := rfl
@[simp] theorem State.onSlot_tmsgs (s : State) (o : SlotId) (f : Slot → Slot) : (s.onSlot o f).tmsgs = s.tmsgs := rfl
@[simp] theorem State.onSlot_sacks (s : State) (o : SlotId) (f : Slot → Slot) : (s.onSlot o f).sacks = s.sacks := rfl
@[simp] theorem State.onSlot_bads (s : State) (o : SlotId) (f : Slot → Slot) : (s.onSlot o f).bads = s.bads := rfl
@[simp] theorem State.onSlot_replies (s : State) (o : SlotId) (f : Slot → Slot) : (s.onSlot o f).replies = s.replies := rfl
@[simp] theorem State.onSlot_bmsgs (s : State) (o : SlotId) (f : Slot → Slot) : (s.onSlot o f).bmsgs = s.bmsgs := rfl
@[simp] theorem State.onSlot_backs (s : State) (o : SlotId) (f : Slot → Slot) : (s.onSlot o f).backs = s.backs := rfl
@[simp] theorem State.onSlot_wbmsgs (s : State) (o : SlotId) (f : Slot → Slot) : (s.onSlot o f).wbmsgs = s.wbmsgs := rfl
@[simp] theorem State.onSlot_wbacks (s : State) (o : SlotId) (f : Slot → Slot) : (s.onSlot o f).wbacks = s.wbacks := rfl
@[simp] theorem State.onSlot_wbdones (s : State) (o : SlotId) (f : Slot → Slot) : (s.onSlot o f).wbdones = s.wbdones := rfl
@[simp] theorem State.onSlot_wbroots (s : State) (o : SlotId) (f : Slot → Slot) : (s.onSlot o f).wbroots = s.wbroots := rfl
@[simp] theorem State.onSlot_errors (s : State) (o : SlotId) (f : Slot → Slot) : (s.onSlot o f).errors = s.errors := rfl
@[simp] theorem State.onSlot_fails (s : State) (o : SlotId) (f : Slot → Slot) : (s.onSlot o f).fails = s.fails := rfl
@[simp] theorem State.onSlot_launcher (s : State) (o : SlotId) (f : Slot → Slot) : (s.onSlot o f).launcher = s.launcher := rfl
@[simp] theorem State.onSlot_tenancy (s : State) (o : SlotId) (f : Slot → Slot) : (s.onSlot o f).tenancy = s.tenancy := rfl
@[simp] theorem State.onSlot_bar0 (s : State) (o : SlotId) (f : Slot → Slot) : (s.onSlot o f).bar0 = s.bar0 := rfl
@[simp] theorem State.onSlot_auth (s : State) (o : SlotId) (f : Slot → Slot) : (s.onSlot o f).auth = s.auth := rfl
@[simp] theorem State.onSlot_linkA (s : State) (o : SlotId) (f : Slot → Slot) : (s.onSlot o f).linkA = s.linkA := rfl
@[simp] theorem State.onSlot_linkB (s : State) (o : SlotId) (f : Slot → Slot) : (s.onSlot o f).linkB = s.linkB := rfl
@[simp] theorem State.onSlot_hostReads (s : State) (o : SlotId) (f : Slot → Slot) : (s.onSlot o f).hostReads = s.hostReads := rfl
@[simp] theorem State.onSlot_msix (s : State) (o : SlotId) (f : Slot → Slot) : (s.onSlot o f).msix = s.msix := rfl
@[simp] theorem State.onSlot_peerFrames (s : State) (o : SlotId) (f : Slot → Slot) : (s.onSlot o f).peerFrames = s.peerFrames := rfl

/-! ### State.modCore -/

@[simp] theorem State.modCore_cur (s : State) (f : Core → Core) : (s.modCore f).cur = s.cur := rfl
@[simp] theorem State.modCore_agenda (s : State) (f : Core → Core) : (s.modCore f).agenda = s.agenda := rfl
@[simp] theorem State.modCore_focus (s : State) (f : Core → Core) : (s.modCore f).focus = s.focus := rfl
@[simp] theorem State.modCore_tick (s : State) (f : Core → Core) : (s.modCore f).tick = s.tick := rfl
@[simp] theorem State.modCore_nextId (s : State) (f : Core → Core) : (s.modCore f).nextId = s.nextId := rfl
@[simp] theorem State.modCore_units (s : State) (f : Core → Core) : (s.modCore f).units = s.units := rfl
@[simp] theorem State.modCore_cox (s : State) (f : Core → Core) : (s.modCore f).cox = s.cox := rfl
@[simp] theorem State.modCore_mem (s : State) (f : Core → Core) : (s.modCore f).mem = s.mem := rfl
@[simp] theorem State.modCore_poison (s : State) (f : Core → Core) : (s.modCore f).poison = s.poison := rfl
@[simp] theorem State.modCore_past (s : State) (f : Core → Core) : (s.modCore f).past = s.past := rfl
@[simp] theorem State.modCore_writes (s : State) (f : Core → Core) : (s.modCore f).writes = s.writes := rfl
@[simp] theorem State.modCore_fulls (s : State) (f : Core → Core) : (s.modCore f).fulls = s.fulls := rfl
@[simp] theorem State.modCore_wires (s : State) (f : Core → Core) : (s.modCore f).wires = s.wires := rfl
@[simp] theorem State.modCore_host (s : State) (f : Core → Core) : (s.modCore f).host = s.host := rfl
@[simp] theorem State.modCore_now (s : State) (f : Core → Core) : (s.modCore f).now = s.now := rfl
@[simp] theorem State.modCore_times (s : State) (f : Core → Core) : (s.modCore f).times = s.times := rfl
@[simp] theorem State.modCore_reqs (s : State) (f : Core → Core) : (s.modCore f).reqs = s.reqs := rfl
@[simp] theorem State.modCore_walks (s : State) (f : Core → Core) : (s.modCore f).walks = s.walks := rfl
@[simp] theorem State.modCore_walkCache (s : State) (f : Core → Core) : (s.modCore f).walkCache = s.walkCache := rfl
@[simp] theorem State.modCore_splits (s : State) (f : Core → Core) : (s.modCore f).splits = s.splits := rfl
@[simp] theorem State.modCore_refused (s : State) (f : Core → Core) : (s.modCore f).refused = s.refused := rfl
@[simp] theorem State.modCore_tmsgs (s : State) (f : Core → Core) : (s.modCore f).tmsgs = s.tmsgs := rfl
@[simp] theorem State.modCore_sacks (s : State) (f : Core → Core) : (s.modCore f).sacks = s.sacks := rfl
@[simp] theorem State.modCore_bads (s : State) (f : Core → Core) : (s.modCore f).bads = s.bads := rfl
@[simp] theorem State.modCore_replies (s : State) (f : Core → Core) : (s.modCore f).replies = s.replies := rfl
@[simp] theorem State.modCore_bmsgs (s : State) (f : Core → Core) : (s.modCore f).bmsgs = s.bmsgs := rfl
@[simp] theorem State.modCore_backs (s : State) (f : Core → Core) : (s.modCore f).backs = s.backs := rfl
@[simp] theorem State.modCore_wbmsgs (s : State) (f : Core → Core) : (s.modCore f).wbmsgs = s.wbmsgs := rfl
@[simp] theorem State.modCore_wbacks (s : State) (f : Core → Core) : (s.modCore f).wbacks = s.wbacks := rfl
@[simp] theorem State.modCore_wbdones (s : State) (f : Core → Core) : (s.modCore f).wbdones = s.wbdones := rfl
@[simp] theorem State.modCore_wbroots (s : State) (f : Core → Core) : (s.modCore f).wbroots = s.wbroots := rfl
@[simp] theorem State.modCore_errors (s : State) (f : Core → Core) : (s.modCore f).errors = s.errors := rfl
@[simp] theorem State.modCore_fails (s : State) (f : Core → Core) : (s.modCore f).fails = s.fails := rfl
@[simp] theorem State.modCore_launcher (s : State) (f : Core → Core) : (s.modCore f).launcher = s.launcher := rfl
@[simp] theorem State.modCore_tenancy (s : State) (f : Core → Core) : (s.modCore f).tenancy = s.tenancy := rfl
@[simp] theorem State.modCore_bar0 (s : State) (f : Core → Core) : (s.modCore f).bar0 = s.bar0 := rfl
@[simp] theorem State.modCore_auth (s : State) (f : Core → Core) : (s.modCore f).auth = s.auth := rfl
@[simp] theorem State.modCore_linkA (s : State) (f : Core → Core) : (s.modCore f).linkA = s.linkA := rfl
@[simp] theorem State.modCore_linkB (s : State) (f : Core → Core) : (s.modCore f).linkB = s.linkB := rfl
@[simp] theorem State.modCore_hostReads (s : State) (f : Core → Core) : (s.modCore f).hostReads = s.hostReads := rfl
@[simp] theorem State.modCore_msix (s : State) (f : Core → Core) : (s.modCore f).msix = s.msix := rfl
@[simp] theorem State.modCore_peerFrames (s : State) (f : Core → Core) : (s.modCore f).peerFrames = s.peerFrames := rfl

/-! ### State.modSlot -/

@[simp] theorem State.modSlot_cur (s : State) (f : Slot → Slot) : (s.modSlot f).cur = s.cur := rfl
@[simp] theorem State.modSlot_agenda (s : State) (f : Slot → Slot) : (s.modSlot f).agenda = s.agenda := rfl
@[simp] theorem State.modSlot_focus (s : State) (f : Slot → Slot) : (s.modSlot f).focus = s.focus := rfl
@[simp] theorem State.modSlot_tick (s : State) (f : Slot → Slot) : (s.modSlot f).tick = s.tick := rfl
@[simp] theorem State.modSlot_nextId (s : State) (f : Slot → Slot) : (s.modSlot f).nextId = s.nextId := rfl
@[simp] theorem State.modSlot_units (s : State) (f : Slot → Slot) : (s.modSlot f).units = s.units := rfl
@[simp] theorem State.modSlot_cox (s : State) (f : Slot → Slot) : (s.modSlot f).cox = s.cox := rfl
@[simp] theorem State.modSlot_mem (s : State) (f : Slot → Slot) : (s.modSlot f).mem = s.mem := rfl
@[simp] theorem State.modSlot_poison (s : State) (f : Slot → Slot) : (s.modSlot f).poison = s.poison := rfl
@[simp] theorem State.modSlot_past (s : State) (f : Slot → Slot) : (s.modSlot f).past = s.past := rfl
@[simp] theorem State.modSlot_writes (s : State) (f : Slot → Slot) : (s.modSlot f).writes = s.writes := rfl
@[simp] theorem State.modSlot_fulls (s : State) (f : Slot → Slot) : (s.modSlot f).fulls = s.fulls := rfl
@[simp] theorem State.modSlot_wires (s : State) (f : Slot → Slot) : (s.modSlot f).wires = s.wires := rfl
@[simp] theorem State.modSlot_host (s : State) (f : Slot → Slot) : (s.modSlot f).host = s.host := rfl
@[simp] theorem State.modSlot_now (s : State) (f : Slot → Slot) : (s.modSlot f).now = s.now := rfl
@[simp] theorem State.modSlot_times (s : State) (f : Slot → Slot) : (s.modSlot f).times = s.times := rfl
@[simp] theorem State.modSlot_reqs (s : State) (f : Slot → Slot) : (s.modSlot f).reqs = s.reqs := rfl
@[simp] theorem State.modSlot_walks (s : State) (f : Slot → Slot) : (s.modSlot f).walks = s.walks := rfl
@[simp] theorem State.modSlot_walkCache (s : State) (f : Slot → Slot) : (s.modSlot f).walkCache = s.walkCache := rfl
@[simp] theorem State.modSlot_splits (s : State) (f : Slot → Slot) : (s.modSlot f).splits = s.splits := rfl
@[simp] theorem State.modSlot_refused (s : State) (f : Slot → Slot) : (s.modSlot f).refused = s.refused := rfl
@[simp] theorem State.modSlot_tmsgs (s : State) (f : Slot → Slot) : (s.modSlot f).tmsgs = s.tmsgs := rfl
@[simp] theorem State.modSlot_sacks (s : State) (f : Slot → Slot) : (s.modSlot f).sacks = s.sacks := rfl
@[simp] theorem State.modSlot_bads (s : State) (f : Slot → Slot) : (s.modSlot f).bads = s.bads := rfl
@[simp] theorem State.modSlot_replies (s : State) (f : Slot → Slot) : (s.modSlot f).replies = s.replies := rfl
@[simp] theorem State.modSlot_bmsgs (s : State) (f : Slot → Slot) : (s.modSlot f).bmsgs = s.bmsgs := rfl
@[simp] theorem State.modSlot_backs (s : State) (f : Slot → Slot) : (s.modSlot f).backs = s.backs := rfl
@[simp] theorem State.modSlot_wbmsgs (s : State) (f : Slot → Slot) : (s.modSlot f).wbmsgs = s.wbmsgs := rfl
@[simp] theorem State.modSlot_wbacks (s : State) (f : Slot → Slot) : (s.modSlot f).wbacks = s.wbacks := rfl
@[simp] theorem State.modSlot_wbdones (s : State) (f : Slot → Slot) : (s.modSlot f).wbdones = s.wbdones := rfl
@[simp] theorem State.modSlot_wbroots (s : State) (f : Slot → Slot) : (s.modSlot f).wbroots = s.wbroots := rfl
@[simp] theorem State.modSlot_errors (s : State) (f : Slot → Slot) : (s.modSlot f).errors = s.errors := rfl
@[simp] theorem State.modSlot_fails (s : State) (f : Slot → Slot) : (s.modSlot f).fails = s.fails := rfl
@[simp] theorem State.modSlot_launcher (s : State) (f : Slot → Slot) : (s.modSlot f).launcher = s.launcher := rfl
@[simp] theorem State.modSlot_tenancy (s : State) (f : Slot → Slot) : (s.modSlot f).tenancy = s.tenancy := rfl
@[simp] theorem State.modSlot_bar0 (s : State) (f : Slot → Slot) : (s.modSlot f).bar0 = s.bar0 := rfl
@[simp] theorem State.modSlot_auth (s : State) (f : Slot → Slot) : (s.modSlot f).auth = s.auth := rfl
@[simp] theorem State.modSlot_linkA (s : State) (f : Slot → Slot) : (s.modSlot f).linkA = s.linkA := rfl
@[simp] theorem State.modSlot_linkB (s : State) (f : Slot → Slot) : (s.modSlot f).linkB = s.linkB := rfl
@[simp] theorem State.modSlot_hostReads (s : State) (f : Slot → Slot) : (s.modSlot f).hostReads = s.hostReads := rfl
@[simp] theorem State.modSlot_msix (s : State) (f : Slot → Slot) : (s.modSlot f).msix = s.msix := rfl
@[simp] theorem State.modSlot_peerFrames (s : State) (f : Slot → Slot) : (s.modSlot f).peerFrames = s.peerFrames := rfl

/-! ### State.putX -/

@[simp] theorem State.putX_cur (s : State) (n : XReg) (w : Word) : (s.putX n w).cur = s.cur := rfl
@[simp] theorem State.putX_agenda (s : State) (n : XReg) (w : Word) : (s.putX n w).agenda = s.agenda := rfl
@[simp] theorem State.putX_focus (s : State) (n : XReg) (w : Word) : (s.putX n w).focus = s.focus := rfl
@[simp] theorem State.putX_tick (s : State) (n : XReg) (w : Word) : (s.putX n w).tick = s.tick := rfl
@[simp] theorem State.putX_nextId (s : State) (n : XReg) (w : Word) : (s.putX n w).nextId = s.nextId := rfl
@[simp] theorem State.putX_units (s : State) (n : XReg) (w : Word) : (s.putX n w).units = s.units := rfl
@[simp] theorem State.putX_cox (s : State) (n : XReg) (w : Word) : (s.putX n w).cox = s.cox := rfl
@[simp] theorem State.putX_mem (s : State) (n : XReg) (w : Word) : (s.putX n w).mem = s.mem := rfl
@[simp] theorem State.putX_poison (s : State) (n : XReg) (w : Word) : (s.putX n w).poison = s.poison := rfl
@[simp] theorem State.putX_past (s : State) (n : XReg) (w : Word) : (s.putX n w).past = s.past := rfl
@[simp] theorem State.putX_writes (s : State) (n : XReg) (w : Word) : (s.putX n w).writes = s.writes := rfl
@[simp] theorem State.putX_fulls (s : State) (n : XReg) (w : Word) : (s.putX n w).fulls = s.fulls := rfl
@[simp] theorem State.putX_wires (s : State) (n : XReg) (w : Word) : (s.putX n w).wires = s.wires := rfl
@[simp] theorem State.putX_host (s : State) (n : XReg) (w : Word) : (s.putX n w).host = s.host := rfl
@[simp] theorem State.putX_now (s : State) (n : XReg) (w : Word) : (s.putX n w).now = s.now := rfl
@[simp] theorem State.putX_times (s : State) (n : XReg) (w : Word) : (s.putX n w).times = s.times := rfl
@[simp] theorem State.putX_reqs (s : State) (n : XReg) (w : Word) : (s.putX n w).reqs = s.reqs := rfl
@[simp] theorem State.putX_walks (s : State) (n : XReg) (w : Word) : (s.putX n w).walks = s.walks := rfl
@[simp] theorem State.putX_walkCache (s : State) (n : XReg) (w : Word) : (s.putX n w).walkCache = s.walkCache := rfl
@[simp] theorem State.putX_splits (s : State) (n : XReg) (w : Word) : (s.putX n w).splits = s.splits := rfl
@[simp] theorem State.putX_refused (s : State) (n : XReg) (w : Word) : (s.putX n w).refused = s.refused := rfl
@[simp] theorem State.putX_tmsgs (s : State) (n : XReg) (w : Word) : (s.putX n w).tmsgs = s.tmsgs := rfl
@[simp] theorem State.putX_sacks (s : State) (n : XReg) (w : Word) : (s.putX n w).sacks = s.sacks := rfl
@[simp] theorem State.putX_bads (s : State) (n : XReg) (w : Word) : (s.putX n w).bads = s.bads := rfl
@[simp] theorem State.putX_replies (s : State) (n : XReg) (w : Word) : (s.putX n w).replies = s.replies := rfl
@[simp] theorem State.putX_bmsgs (s : State) (n : XReg) (w : Word) : (s.putX n w).bmsgs = s.bmsgs := rfl
@[simp] theorem State.putX_backs (s : State) (n : XReg) (w : Word) : (s.putX n w).backs = s.backs := rfl
@[simp] theorem State.putX_wbmsgs (s : State) (n : XReg) (w : Word) : (s.putX n w).wbmsgs = s.wbmsgs := rfl
@[simp] theorem State.putX_wbacks (s : State) (n : XReg) (w : Word) : (s.putX n w).wbacks = s.wbacks := rfl
@[simp] theorem State.putX_wbdones (s : State) (n : XReg) (w : Word) : (s.putX n w).wbdones = s.wbdones := rfl
@[simp] theorem State.putX_wbroots (s : State) (n : XReg) (w : Word) : (s.putX n w).wbroots = s.wbroots := rfl
@[simp] theorem State.putX_errors (s : State) (n : XReg) (w : Word) : (s.putX n w).errors = s.errors := rfl
@[simp] theorem State.putX_fails (s : State) (n : XReg) (w : Word) : (s.putX n w).fails = s.fails := rfl
@[simp] theorem State.putX_launcher (s : State) (n : XReg) (w : Word) : (s.putX n w).launcher = s.launcher := rfl
@[simp] theorem State.putX_tenancy (s : State) (n : XReg) (w : Word) : (s.putX n w).tenancy = s.tenancy := rfl
@[simp] theorem State.putX_bar0 (s : State) (n : XReg) (w : Word) : (s.putX n w).bar0 = s.bar0 := rfl
@[simp] theorem State.putX_auth (s : State) (n : XReg) (w : Word) : (s.putX n w).auth = s.auth := rfl
@[simp] theorem State.putX_linkA (s : State) (n : XReg) (w : Word) : (s.putX n w).linkA = s.linkA := rfl
@[simp] theorem State.putX_linkB (s : State) (n : XReg) (w : Word) : (s.putX n w).linkB = s.linkB := rfl
@[simp] theorem State.putX_hostReads (s : State) (n : XReg) (w : Word) : (s.putX n w).hostReads = s.hostReads := rfl
@[simp] theorem State.putX_msix (s : State) (n : XReg) (w : Word) : (s.putX n w).msix = s.msix := rfl
@[simp] theorem State.putX_peerFrames (s : State) (n : XReg) (w : Word) : (s.putX n w).peerFrames = s.peerFrames := rfl

/-! ### State.advance -/

@[simp] theorem State.advance_cur (s : State) (n : Off) : (s.advance n).cur = s.cur := rfl
@[simp] theorem State.advance_agenda (s : State) (n : Off) : (s.advance n).agenda = s.agenda := rfl
@[simp] theorem State.advance_focus (s : State) (n : Off) : (s.advance n).focus = s.focus := rfl
@[simp] theorem State.advance_tick (s : State) (n : Off) : (s.advance n).tick = s.tick := rfl
@[simp] theorem State.advance_nextId (s : State) (n : Off) : (s.advance n).nextId = s.nextId := rfl
@[simp] theorem State.advance_units (s : State) (n : Off) : (s.advance n).units = s.units := rfl
@[simp] theorem State.advance_cox (s : State) (n : Off) : (s.advance n).cox = s.cox := rfl
@[simp] theorem State.advance_mem (s : State) (n : Off) : (s.advance n).mem = s.mem := rfl
@[simp] theorem State.advance_poison (s : State) (n : Off) : (s.advance n).poison = s.poison := rfl
@[simp] theorem State.advance_past (s : State) (n : Off) : (s.advance n).past = s.past := rfl
@[simp] theorem State.advance_writes (s : State) (n : Off) : (s.advance n).writes = s.writes := rfl
@[simp] theorem State.advance_fulls (s : State) (n : Off) : (s.advance n).fulls = s.fulls := rfl
@[simp] theorem State.advance_wires (s : State) (n : Off) : (s.advance n).wires = s.wires := rfl
@[simp] theorem State.advance_host (s : State) (n : Off) : (s.advance n).host = s.host := rfl
@[simp] theorem State.advance_now (s : State) (n : Off) : (s.advance n).now = s.now := rfl
@[simp] theorem State.advance_times (s : State) (n : Off) : (s.advance n).times = s.times := rfl
@[simp] theorem State.advance_reqs (s : State) (n : Off) : (s.advance n).reqs = s.reqs := rfl
@[simp] theorem State.advance_walks (s : State) (n : Off) : (s.advance n).walks = s.walks := rfl
@[simp] theorem State.advance_walkCache (s : State) (n : Off) : (s.advance n).walkCache = s.walkCache := rfl
@[simp] theorem State.advance_splits (s : State) (n : Off) : (s.advance n).splits = s.splits := rfl
@[simp] theorem State.advance_refused (s : State) (n : Off) : (s.advance n).refused = s.refused := rfl
@[simp] theorem State.advance_tmsgs (s : State) (n : Off) : (s.advance n).tmsgs = s.tmsgs := rfl
@[simp] theorem State.advance_sacks (s : State) (n : Off) : (s.advance n).sacks = s.sacks := rfl
@[simp] theorem State.advance_bads (s : State) (n : Off) : (s.advance n).bads = s.bads := rfl
@[simp] theorem State.advance_replies (s : State) (n : Off) : (s.advance n).replies = s.replies := rfl
@[simp] theorem State.advance_bmsgs (s : State) (n : Off) : (s.advance n).bmsgs = s.bmsgs := rfl
@[simp] theorem State.advance_backs (s : State) (n : Off) : (s.advance n).backs = s.backs := rfl
@[simp] theorem State.advance_wbmsgs (s : State) (n : Off) : (s.advance n).wbmsgs = s.wbmsgs := rfl
@[simp] theorem State.advance_wbacks (s : State) (n : Off) : (s.advance n).wbacks = s.wbacks := rfl
@[simp] theorem State.advance_wbdones (s : State) (n : Off) : (s.advance n).wbdones = s.wbdones := rfl
@[simp] theorem State.advance_wbroots (s : State) (n : Off) : (s.advance n).wbroots = s.wbroots := rfl
@[simp] theorem State.advance_errors (s : State) (n : Off) : (s.advance n).errors = s.errors := rfl
@[simp] theorem State.advance_fails (s : State) (n : Off) : (s.advance n).fails = s.fails := rfl
@[simp] theorem State.advance_launcher (s : State) (n : Off) : (s.advance n).launcher = s.launcher := rfl
@[simp] theorem State.advance_tenancy (s : State) (n : Off) : (s.advance n).tenancy = s.tenancy := rfl
@[simp] theorem State.advance_bar0 (s : State) (n : Off) : (s.advance n).bar0 = s.bar0 := rfl
@[simp] theorem State.advance_auth (s : State) (n : Off) : (s.advance n).auth = s.auth := rfl
@[simp] theorem State.advance_linkA (s : State) (n : Off) : (s.advance n).linkA = s.linkA := rfl
@[simp] theorem State.advance_linkB (s : State) (n : Off) : (s.advance n).linkB = s.linkB := rfl
@[simp] theorem State.advance_hostReads (s : State) (n : Off) : (s.advance n).hostReads = s.hostReads := rfl
@[simp] theorem State.advance_msix (s : State) (n : Off) : (s.advance n).msix = s.msix := rfl
@[simp] theorem State.advance_peerFrames (s : State) (n : Off) : (s.advance n).peerFrames = s.peerFrames := rfl

/-! ### State.noteIssued -/

@[simp] theorem State.noteIssued_cur (s : State) : (s.noteIssued).cur = s.cur := rfl
@[simp] theorem State.noteIssued_agenda (s : State) : (s.noteIssued).agenda = s.agenda := rfl
@[simp] theorem State.noteIssued_focus (s : State) : (s.noteIssued).focus = s.focus := rfl
@[simp] theorem State.noteIssued_tick (s : State) : (s.noteIssued).tick = s.tick := rfl
@[simp] theorem State.noteIssued_nextId (s : State) : (s.noteIssued).nextId = s.nextId := rfl
@[simp] theorem State.noteIssued_units (s : State) : (s.noteIssued).units = s.units := rfl
@[simp] theorem State.noteIssued_cox (s : State) : (s.noteIssued).cox = s.cox := rfl
@[simp] theorem State.noteIssued_mem (s : State) : (s.noteIssued).mem = s.mem := rfl
@[simp] theorem State.noteIssued_poison (s : State) : (s.noteIssued).poison = s.poison := rfl
@[simp] theorem State.noteIssued_past (s : State) : (s.noteIssued).past = s.past := rfl
@[simp] theorem State.noteIssued_writes (s : State) : (s.noteIssued).writes = s.writes := rfl
@[simp] theorem State.noteIssued_fulls (s : State) : (s.noteIssued).fulls = s.fulls := rfl
@[simp] theorem State.noteIssued_wires (s : State) : (s.noteIssued).wires = s.wires := rfl
@[simp] theorem State.noteIssued_host (s : State) : (s.noteIssued).host = s.host := rfl
@[simp] theorem State.noteIssued_now (s : State) : (s.noteIssued).now = s.now := rfl
@[simp] theorem State.noteIssued_times (s : State) : (s.noteIssued).times = s.times := rfl
@[simp] theorem State.noteIssued_reqs (s : State) : (s.noteIssued).reqs = s.reqs := rfl
@[simp] theorem State.noteIssued_walks (s : State) : (s.noteIssued).walks = s.walks := rfl
@[simp] theorem State.noteIssued_walkCache (s : State) : (s.noteIssued).walkCache = s.walkCache := rfl
@[simp] theorem State.noteIssued_splits (s : State) : (s.noteIssued).splits = s.splits := rfl
@[simp] theorem State.noteIssued_refused (s : State) : (s.noteIssued).refused = s.refused := rfl
@[simp] theorem State.noteIssued_tmsgs (s : State) : (s.noteIssued).tmsgs = s.tmsgs := rfl
@[simp] theorem State.noteIssued_sacks (s : State) : (s.noteIssued).sacks = s.sacks := rfl
@[simp] theorem State.noteIssued_bads (s : State) : (s.noteIssued).bads = s.bads := rfl
@[simp] theorem State.noteIssued_replies (s : State) : (s.noteIssued).replies = s.replies := rfl
@[simp] theorem State.noteIssued_bmsgs (s : State) : (s.noteIssued).bmsgs = s.bmsgs := rfl
@[simp] theorem State.noteIssued_backs (s : State) : (s.noteIssued).backs = s.backs := rfl
@[simp] theorem State.noteIssued_wbmsgs (s : State) : (s.noteIssued).wbmsgs = s.wbmsgs := rfl
@[simp] theorem State.noteIssued_wbacks (s : State) : (s.noteIssued).wbacks = s.wbacks := rfl
@[simp] theorem State.noteIssued_wbdones (s : State) : (s.noteIssued).wbdones = s.wbdones := rfl
@[simp] theorem State.noteIssued_wbroots (s : State) : (s.noteIssued).wbroots = s.wbroots := rfl
@[simp] theorem State.noteIssued_errors (s : State) : (s.noteIssued).errors = s.errors := rfl
@[simp] theorem State.noteIssued_fails (s : State) : (s.noteIssued).fails = s.fails := rfl
@[simp] theorem State.noteIssued_launcher (s : State) : (s.noteIssued).launcher = s.launcher := rfl
@[simp] theorem State.noteIssued_tenancy (s : State) : (s.noteIssued).tenancy = s.tenancy := rfl
@[simp] theorem State.noteIssued_bar0 (s : State) : (s.noteIssued).bar0 = s.bar0 := rfl
@[simp] theorem State.noteIssued_auth (s : State) : (s.noteIssued).auth = s.auth := rfl
@[simp] theorem State.noteIssued_linkA (s : State) : (s.noteIssued).linkA = s.linkA := rfl
@[simp] theorem State.noteIssued_linkB (s : State) : (s.noteIssued).linkB = s.linkB := rfl
@[simp] theorem State.noteIssued_hostReads (s : State) : (s.noteIssued).hostReads = s.hostReads := rfl
@[simp] theorem State.noteIssued_msix (s : State) : (s.noteIssued).msix = s.msix := rfl
@[simp] theorem State.noteIssued_peerFrames (s : State) : (s.noteIssued).peerFrames = s.peerFrames := rfl

/-! ### State.noteIssuedAt -/

@[simp] theorem State.noteIssuedAt_cur (s : State) (o : SlotId) : (s.noteIssuedAt o).cur = s.cur := rfl
@[simp] theorem State.noteIssuedAt_agenda (s : State) (o : SlotId) : (s.noteIssuedAt o).agenda = s.agenda := rfl
@[simp] theorem State.noteIssuedAt_focus (s : State) (o : SlotId) : (s.noteIssuedAt o).focus = s.focus := rfl
@[simp] theorem State.noteIssuedAt_tick (s : State) (o : SlotId) : (s.noteIssuedAt o).tick = s.tick := rfl
@[simp] theorem State.noteIssuedAt_nextId (s : State) (o : SlotId) : (s.noteIssuedAt o).nextId = s.nextId := rfl
@[simp] theorem State.noteIssuedAt_units (s : State) (o : SlotId) : (s.noteIssuedAt o).units = s.units := rfl
@[simp] theorem State.noteIssuedAt_cox (s : State) (o : SlotId) : (s.noteIssuedAt o).cox = s.cox := rfl
@[simp] theorem State.noteIssuedAt_mem (s : State) (o : SlotId) : (s.noteIssuedAt o).mem = s.mem := rfl
@[simp] theorem State.noteIssuedAt_poison (s : State) (o : SlotId) : (s.noteIssuedAt o).poison = s.poison := rfl
@[simp] theorem State.noteIssuedAt_past (s : State) (o : SlotId) : (s.noteIssuedAt o).past = s.past := rfl
@[simp] theorem State.noteIssuedAt_writes (s : State) (o : SlotId) : (s.noteIssuedAt o).writes = s.writes := rfl
@[simp] theorem State.noteIssuedAt_fulls (s : State) (o : SlotId) : (s.noteIssuedAt o).fulls = s.fulls := rfl
@[simp] theorem State.noteIssuedAt_wires (s : State) (o : SlotId) : (s.noteIssuedAt o).wires = s.wires := rfl
@[simp] theorem State.noteIssuedAt_host (s : State) (o : SlotId) : (s.noteIssuedAt o).host = s.host := rfl
@[simp] theorem State.noteIssuedAt_now (s : State) (o : SlotId) : (s.noteIssuedAt o).now = s.now := rfl
@[simp] theorem State.noteIssuedAt_times (s : State) (o : SlotId) : (s.noteIssuedAt o).times = s.times := rfl
@[simp] theorem State.noteIssuedAt_reqs (s : State) (o : SlotId) : (s.noteIssuedAt o).reqs = s.reqs := rfl
@[simp] theorem State.noteIssuedAt_walks (s : State) (o : SlotId) : (s.noteIssuedAt o).walks = s.walks := rfl
@[simp] theorem State.noteIssuedAt_walkCache (s : State) (o : SlotId) : (s.noteIssuedAt o).walkCache = s.walkCache := rfl
@[simp] theorem State.noteIssuedAt_splits (s : State) (o : SlotId) : (s.noteIssuedAt o).splits = s.splits := rfl
@[simp] theorem State.noteIssuedAt_refused (s : State) (o : SlotId) : (s.noteIssuedAt o).refused = s.refused := rfl
@[simp] theorem State.noteIssuedAt_tmsgs (s : State) (o : SlotId) : (s.noteIssuedAt o).tmsgs = s.tmsgs := rfl
@[simp] theorem State.noteIssuedAt_sacks (s : State) (o : SlotId) : (s.noteIssuedAt o).sacks = s.sacks := rfl
@[simp] theorem State.noteIssuedAt_bads (s : State) (o : SlotId) : (s.noteIssuedAt o).bads = s.bads := rfl
@[simp] theorem State.noteIssuedAt_replies (s : State) (o : SlotId) : (s.noteIssuedAt o).replies = s.replies := rfl
@[simp] theorem State.noteIssuedAt_bmsgs (s : State) (o : SlotId) : (s.noteIssuedAt o).bmsgs = s.bmsgs := rfl
@[simp] theorem State.noteIssuedAt_backs (s : State) (o : SlotId) : (s.noteIssuedAt o).backs = s.backs := rfl
@[simp] theorem State.noteIssuedAt_wbmsgs (s : State) (o : SlotId) : (s.noteIssuedAt o).wbmsgs = s.wbmsgs := rfl
@[simp] theorem State.noteIssuedAt_wbacks (s : State) (o : SlotId) : (s.noteIssuedAt o).wbacks = s.wbacks := rfl
@[simp] theorem State.noteIssuedAt_wbdones (s : State) (o : SlotId) : (s.noteIssuedAt o).wbdones = s.wbdones := rfl
@[simp] theorem State.noteIssuedAt_wbroots (s : State) (o : SlotId) : (s.noteIssuedAt o).wbroots = s.wbroots := rfl
@[simp] theorem State.noteIssuedAt_errors (s : State) (o : SlotId) : (s.noteIssuedAt o).errors = s.errors := rfl
@[simp] theorem State.noteIssuedAt_fails (s : State) (o : SlotId) : (s.noteIssuedAt o).fails = s.fails := rfl
@[simp] theorem State.noteIssuedAt_launcher (s : State) (o : SlotId) : (s.noteIssuedAt o).launcher = s.launcher := rfl
@[simp] theorem State.noteIssuedAt_tenancy (s : State) (o : SlotId) : (s.noteIssuedAt o).tenancy = s.tenancy := rfl
@[simp] theorem State.noteIssuedAt_bar0 (s : State) (o : SlotId) : (s.noteIssuedAt o).bar0 = s.bar0 := rfl
@[simp] theorem State.noteIssuedAt_auth (s : State) (o : SlotId) : (s.noteIssuedAt o).auth = s.auth := rfl
@[simp] theorem State.noteIssuedAt_linkA (s : State) (o : SlotId) : (s.noteIssuedAt o).linkA = s.linkA := rfl
@[simp] theorem State.noteIssuedAt_linkB (s : State) (o : SlotId) : (s.noteIssuedAt o).linkB = s.linkB := rfl
@[simp] theorem State.noteIssuedAt_hostReads (s : State) (o : SlotId) : (s.noteIssuedAt o).hostReads = s.hostReads := rfl
@[simp] theorem State.noteIssuedAt_msix (s : State) (o : SlotId) : (s.noteIssuedAt o).msix = s.msix := rfl
@[simp] theorem State.noteIssuedAt_peerFrames (s : State) (o : SlotId) : (s.noteIssuedAt o).peerFrames = s.peerFrames := rfl

/-! ### State.complete -/

@[simp] theorem State.complete_cur (s : State) (o : SlotId) : (s.complete o).cur = s.cur := rfl
@[simp] theorem State.complete_agenda (s : State) (o : SlotId) : (s.complete o).agenda = s.agenda := rfl
@[simp] theorem State.complete_focus (s : State) (o : SlotId) : (s.complete o).focus = s.focus := rfl
@[simp] theorem State.complete_tick (s : State) (o : SlotId) : (s.complete o).tick = s.tick := rfl
@[simp] theorem State.complete_nextId (s : State) (o : SlotId) : (s.complete o).nextId = s.nextId := rfl
@[simp] theorem State.complete_units (s : State) (o : SlotId) : (s.complete o).units = s.units := rfl
@[simp] theorem State.complete_cox (s : State) (o : SlotId) : (s.complete o).cox = s.cox := rfl
@[simp] theorem State.complete_mem (s : State) (o : SlotId) : (s.complete o).mem = s.mem := rfl
@[simp] theorem State.complete_poison (s : State) (o : SlotId) : (s.complete o).poison = s.poison := rfl
@[simp] theorem State.complete_past (s : State) (o : SlotId) : (s.complete o).past = s.past := rfl
@[simp] theorem State.complete_writes (s : State) (o : SlotId) : (s.complete o).writes = s.writes := rfl
@[simp] theorem State.complete_fulls (s : State) (o : SlotId) : (s.complete o).fulls = s.fulls := rfl
@[simp] theorem State.complete_wires (s : State) (o : SlotId) : (s.complete o).wires = s.wires := rfl
@[simp] theorem State.complete_host (s : State) (o : SlotId) : (s.complete o).host = s.host := rfl
@[simp] theorem State.complete_now (s : State) (o : SlotId) : (s.complete o).now = s.now := rfl
@[simp] theorem State.complete_times (s : State) (o : SlotId) : (s.complete o).times = s.times := rfl
@[simp] theorem State.complete_reqs (s : State) (o : SlotId) : (s.complete o).reqs = s.reqs := rfl
@[simp] theorem State.complete_walks (s : State) (o : SlotId) : (s.complete o).walks = s.walks := rfl
@[simp] theorem State.complete_walkCache (s : State) (o : SlotId) : (s.complete o).walkCache = s.walkCache := rfl
@[simp] theorem State.complete_splits (s : State) (o : SlotId) : (s.complete o).splits = s.splits := rfl
@[simp] theorem State.complete_refused (s : State) (o : SlotId) : (s.complete o).refused = s.refused := rfl
@[simp] theorem State.complete_tmsgs (s : State) (o : SlotId) : (s.complete o).tmsgs = s.tmsgs := rfl
@[simp] theorem State.complete_sacks (s : State) (o : SlotId) : (s.complete o).sacks = s.sacks := rfl
@[simp] theorem State.complete_bads (s : State) (o : SlotId) : (s.complete o).bads = s.bads := rfl
@[simp] theorem State.complete_replies (s : State) (o : SlotId) : (s.complete o).replies = s.replies := rfl
@[simp] theorem State.complete_bmsgs (s : State) (o : SlotId) : (s.complete o).bmsgs = s.bmsgs := rfl
@[simp] theorem State.complete_backs (s : State) (o : SlotId) : (s.complete o).backs = s.backs := rfl
@[simp] theorem State.complete_wbmsgs (s : State) (o : SlotId) : (s.complete o).wbmsgs = s.wbmsgs := rfl
@[simp] theorem State.complete_wbacks (s : State) (o : SlotId) : (s.complete o).wbacks = s.wbacks := rfl
@[simp] theorem State.complete_wbdones (s : State) (o : SlotId) : (s.complete o).wbdones = s.wbdones := rfl
@[simp] theorem State.complete_wbroots (s : State) (o : SlotId) : (s.complete o).wbroots = s.wbroots := rfl
@[simp] theorem State.complete_errors (s : State) (o : SlotId) : (s.complete o).errors = s.errors := rfl
@[simp] theorem State.complete_fails (s : State) (o : SlotId) : (s.complete o).fails = s.fails := rfl
@[simp] theorem State.complete_launcher (s : State) (o : SlotId) : (s.complete o).launcher = s.launcher := rfl
@[simp] theorem State.complete_tenancy (s : State) (o : SlotId) : (s.complete o).tenancy = s.tenancy := rfl
@[simp] theorem State.complete_bar0 (s : State) (o : SlotId) : (s.complete o).bar0 = s.bar0 := rfl
@[simp] theorem State.complete_auth (s : State) (o : SlotId) : (s.complete o).auth = s.auth := rfl
@[simp] theorem State.complete_linkA (s : State) (o : SlotId) : (s.complete o).linkA = s.linkA := rfl
@[simp] theorem State.complete_linkB (s : State) (o : SlotId) : (s.complete o).linkB = s.linkB := rfl
@[simp] theorem State.complete_hostReads (s : State) (o : SlotId) : (s.complete o).hostReads = s.hostReads := rfl
@[simp] theorem State.complete_msix (s : State) (o : SlotId) : (s.complete o).msix = s.msix := rfl
@[simp] theorem State.complete_peerFrames (s : State) (o : SlotId) : (s.complete o).peerFrames = s.peerFrames := rfl

/-! ### State.setWait -/

@[simp] theorem State.setWait_cur (s : State) (w : WaitRec) : (s.setWait w).cur = s.cur := rfl
@[simp] theorem State.setWait_agenda (s : State) (w : WaitRec) : (s.setWait w).agenda = s.agenda := rfl
@[simp] theorem State.setWait_focus (s : State) (w : WaitRec) : (s.setWait w).focus = s.focus := rfl
@[simp] theorem State.setWait_tick (s : State) (w : WaitRec) : (s.setWait w).tick = s.tick := rfl
@[simp] theorem State.setWait_nextId (s : State) (w : WaitRec) : (s.setWait w).nextId = s.nextId := rfl
@[simp] theorem State.setWait_units (s : State) (w : WaitRec) : (s.setWait w).units = s.units := rfl
@[simp] theorem State.setWait_cox (s : State) (w : WaitRec) : (s.setWait w).cox = s.cox := rfl
@[simp] theorem State.setWait_mem (s : State) (w : WaitRec) : (s.setWait w).mem = s.mem := rfl
@[simp] theorem State.setWait_poison (s : State) (w : WaitRec) : (s.setWait w).poison = s.poison := rfl
@[simp] theorem State.setWait_past (s : State) (w : WaitRec) : (s.setWait w).past = s.past := rfl
@[simp] theorem State.setWait_writes (s : State) (w : WaitRec) : (s.setWait w).writes = s.writes := rfl
@[simp] theorem State.setWait_fulls (s : State) (w : WaitRec) : (s.setWait w).fulls = s.fulls := rfl
@[simp] theorem State.setWait_wires (s : State) (w : WaitRec) : (s.setWait w).wires = s.wires := rfl
@[simp] theorem State.setWait_host (s : State) (w : WaitRec) : (s.setWait w).host = s.host := rfl
@[simp] theorem State.setWait_now (s : State) (w : WaitRec) : (s.setWait w).now = s.now := rfl
@[simp] theorem State.setWait_times (s : State) (w : WaitRec) : (s.setWait w).times = s.times := rfl
@[simp] theorem State.setWait_reqs (s : State) (w : WaitRec) : (s.setWait w).reqs = s.reqs := rfl
@[simp] theorem State.setWait_walks (s : State) (w : WaitRec) : (s.setWait w).walks = s.walks := rfl
@[simp] theorem State.setWait_walkCache (s : State) (w : WaitRec) : (s.setWait w).walkCache = s.walkCache := rfl
@[simp] theorem State.setWait_splits (s : State) (w : WaitRec) : (s.setWait w).splits = s.splits := rfl
@[simp] theorem State.setWait_refused (s : State) (w : WaitRec) : (s.setWait w).refused = s.refused := rfl
@[simp] theorem State.setWait_tmsgs (s : State) (w : WaitRec) : (s.setWait w).tmsgs = s.tmsgs := rfl
@[simp] theorem State.setWait_sacks (s : State) (w : WaitRec) : (s.setWait w).sacks = s.sacks := rfl
@[simp] theorem State.setWait_bads (s : State) (w : WaitRec) : (s.setWait w).bads = s.bads := rfl
@[simp] theorem State.setWait_replies (s : State) (w : WaitRec) : (s.setWait w).replies = s.replies := rfl
@[simp] theorem State.setWait_bmsgs (s : State) (w : WaitRec) : (s.setWait w).bmsgs = s.bmsgs := rfl
@[simp] theorem State.setWait_backs (s : State) (w : WaitRec) : (s.setWait w).backs = s.backs := rfl
@[simp] theorem State.setWait_wbmsgs (s : State) (w : WaitRec) : (s.setWait w).wbmsgs = s.wbmsgs := rfl
@[simp] theorem State.setWait_wbacks (s : State) (w : WaitRec) : (s.setWait w).wbacks = s.wbacks := rfl
@[simp] theorem State.setWait_wbdones (s : State) (w : WaitRec) : (s.setWait w).wbdones = s.wbdones := rfl
@[simp] theorem State.setWait_wbroots (s : State) (w : WaitRec) : (s.setWait w).wbroots = s.wbroots := rfl
@[simp] theorem State.setWait_errors (s : State) (w : WaitRec) : (s.setWait w).errors = s.errors := rfl
@[simp] theorem State.setWait_fails (s : State) (w : WaitRec) : (s.setWait w).fails = s.fails := rfl
@[simp] theorem State.setWait_launcher (s : State) (w : WaitRec) : (s.setWait w).launcher = s.launcher := rfl
@[simp] theorem State.setWait_tenancy (s : State) (w : WaitRec) : (s.setWait w).tenancy = s.tenancy := rfl
@[simp] theorem State.setWait_bar0 (s : State) (w : WaitRec) : (s.setWait w).bar0 = s.bar0 := rfl
@[simp] theorem State.setWait_auth (s : State) (w : WaitRec) : (s.setWait w).auth = s.auth := rfl
@[simp] theorem State.setWait_linkA (s : State) (w : WaitRec) : (s.setWait w).linkA = s.linkA := rfl
@[simp] theorem State.setWait_linkB (s : State) (w : WaitRec) : (s.setWait w).linkB = s.linkB := rfl
@[simp] theorem State.setWait_hostReads (s : State) (w : WaitRec) : (s.setWait w).hostReads = s.hostReads := rfl
@[simp] theorem State.setWait_msix (s : State) (w : WaitRec) : (s.setWait w).msix = s.msix := rfl
@[simp] theorem State.setWait_peerFrames (s : State) (w : WaitRec) : (s.setWait w).peerFrames = s.peerFrames := rfl

/-! ### State.emptyX -/

@[simp] theorem State.emptyX_cur (s : State) (d : XReg) : (s.emptyX d).cur = s.cur := rfl
@[simp] theorem State.emptyX_agenda (s : State) (d : XReg) : (s.emptyX d).agenda = s.agenda := rfl
@[simp] theorem State.emptyX_focus (s : State) (d : XReg) : (s.emptyX d).focus = s.focus := rfl
@[simp] theorem State.emptyX_tick (s : State) (d : XReg) : (s.emptyX d).tick = s.tick := rfl
@[simp] theorem State.emptyX_nextId (s : State) (d : XReg) : (s.emptyX d).nextId = s.nextId := rfl
@[simp] theorem State.emptyX_units (s : State) (d : XReg) : (s.emptyX d).units = s.units := rfl
@[simp] theorem State.emptyX_cox (s : State) (d : XReg) : (s.emptyX d).cox = s.cox := rfl
@[simp] theorem State.emptyX_mem (s : State) (d : XReg) : (s.emptyX d).mem = s.mem := rfl
@[simp] theorem State.emptyX_poison (s : State) (d : XReg) : (s.emptyX d).poison = s.poison := rfl
@[simp] theorem State.emptyX_past (s : State) (d : XReg) : (s.emptyX d).past = s.past := rfl
@[simp] theorem State.emptyX_writes (s : State) (d : XReg) : (s.emptyX d).writes = s.writes := rfl
@[simp] theorem State.emptyX_fulls (s : State) (d : XReg) : (s.emptyX d).fulls = s.fulls := rfl
@[simp] theorem State.emptyX_wires (s : State) (d : XReg) : (s.emptyX d).wires = s.wires := rfl
@[simp] theorem State.emptyX_host (s : State) (d : XReg) : (s.emptyX d).host = s.host := rfl
@[simp] theorem State.emptyX_now (s : State) (d : XReg) : (s.emptyX d).now = s.now := rfl
@[simp] theorem State.emptyX_times (s : State) (d : XReg) : (s.emptyX d).times = s.times := rfl
@[simp] theorem State.emptyX_reqs (s : State) (d : XReg) : (s.emptyX d).reqs = s.reqs := rfl
@[simp] theorem State.emptyX_walks (s : State) (d : XReg) : (s.emptyX d).walks = s.walks := rfl
@[simp] theorem State.emptyX_walkCache (s : State) (d : XReg) : (s.emptyX d).walkCache = s.walkCache := rfl
@[simp] theorem State.emptyX_splits (s : State) (d : XReg) : (s.emptyX d).splits = s.splits := rfl
@[simp] theorem State.emptyX_refused (s : State) (d : XReg) : (s.emptyX d).refused = s.refused := rfl
@[simp] theorem State.emptyX_tmsgs (s : State) (d : XReg) : (s.emptyX d).tmsgs = s.tmsgs := rfl
@[simp] theorem State.emptyX_sacks (s : State) (d : XReg) : (s.emptyX d).sacks = s.sacks := rfl
@[simp] theorem State.emptyX_bads (s : State) (d : XReg) : (s.emptyX d).bads = s.bads := rfl
@[simp] theorem State.emptyX_replies (s : State) (d : XReg) : (s.emptyX d).replies = s.replies := rfl
@[simp] theorem State.emptyX_bmsgs (s : State) (d : XReg) : (s.emptyX d).bmsgs = s.bmsgs := rfl
@[simp] theorem State.emptyX_backs (s : State) (d : XReg) : (s.emptyX d).backs = s.backs := rfl
@[simp] theorem State.emptyX_wbmsgs (s : State) (d : XReg) : (s.emptyX d).wbmsgs = s.wbmsgs := rfl
@[simp] theorem State.emptyX_wbacks (s : State) (d : XReg) : (s.emptyX d).wbacks = s.wbacks := rfl
@[simp] theorem State.emptyX_wbdones (s : State) (d : XReg) : (s.emptyX d).wbdones = s.wbdones := rfl
@[simp] theorem State.emptyX_wbroots (s : State) (d : XReg) : (s.emptyX d).wbroots = s.wbroots := rfl
@[simp] theorem State.emptyX_errors (s : State) (d : XReg) : (s.emptyX d).errors = s.errors := rfl
@[simp] theorem State.emptyX_fails (s : State) (d : XReg) : (s.emptyX d).fails = s.fails := rfl
@[simp] theorem State.emptyX_launcher (s : State) (d : XReg) : (s.emptyX d).launcher = s.launcher := rfl
@[simp] theorem State.emptyX_tenancy (s : State) (d : XReg) : (s.emptyX d).tenancy = s.tenancy := rfl
@[simp] theorem State.emptyX_bar0 (s : State) (d : XReg) : (s.emptyX d).bar0 = s.bar0 := rfl
@[simp] theorem State.emptyX_auth (s : State) (d : XReg) : (s.emptyX d).auth = s.auth := rfl
@[simp] theorem State.emptyX_linkA (s : State) (d : XReg) : (s.emptyX d).linkA = s.linkA := rfl
@[simp] theorem State.emptyX_linkB (s : State) (d : XReg) : (s.emptyX d).linkB = s.linkB := rfl
@[simp] theorem State.emptyX_hostReads (s : State) (d : XReg) : (s.emptyX d).hostReads = s.hostReads := rfl
@[simp] theorem State.emptyX_msix (s : State) (d : XReg) : (s.emptyX d).msix = s.msix := rfl
@[simp] theorem State.emptyX_peerFrames (s : State) (d : XReg) : (s.emptyX d).peerFrames = s.peerFrames := rfl

/-! ### State.countEvents -/

@[simp] theorem State.countEvents_cur (s : State) (e : Events) : (s.countEvents e).cur = s.cur := rfl
@[simp] theorem State.countEvents_agenda (s : State) (e : Events) : (s.countEvents e).agenda = s.agenda := rfl
@[simp] theorem State.countEvents_focus (s : State) (e : Events) : (s.countEvents e).focus = s.focus := rfl
@[simp] theorem State.countEvents_tick (s : State) (e : Events) : (s.countEvents e).tick = s.tick := rfl
@[simp] theorem State.countEvents_nextId (s : State) (e : Events) : (s.countEvents e).nextId = s.nextId := rfl
@[simp] theorem State.countEvents_units (s : State) (e : Events) : (s.countEvents e).units = s.units := rfl
@[simp] theorem State.countEvents_cox (s : State) (e : Events) : (s.countEvents e).cox = s.cox := rfl
@[simp] theorem State.countEvents_mem (s : State) (e : Events) : (s.countEvents e).mem = s.mem := rfl
@[simp] theorem State.countEvents_poison (s : State) (e : Events) : (s.countEvents e).poison = s.poison := rfl
@[simp] theorem State.countEvents_past (s : State) (e : Events) : (s.countEvents e).past = s.past := rfl
@[simp] theorem State.countEvents_writes (s : State) (e : Events) : (s.countEvents e).writes = s.writes := rfl
@[simp] theorem State.countEvents_fulls (s : State) (e : Events) : (s.countEvents e).fulls = s.fulls := rfl
@[simp] theorem State.countEvents_wires (s : State) (e : Events) : (s.countEvents e).wires = s.wires := rfl
@[simp] theorem State.countEvents_host (s : State) (e : Events) : (s.countEvents e).host = s.host := rfl
@[simp] theorem State.countEvents_now (s : State) (e : Events) : (s.countEvents e).now = s.now := rfl
@[simp] theorem State.countEvents_times (s : State) (e : Events) : (s.countEvents e).times = s.times := rfl
@[simp] theorem State.countEvents_reqs (s : State) (e : Events) : (s.countEvents e).reqs = s.reqs := rfl
@[simp] theorem State.countEvents_walks (s : State) (e : Events) : (s.countEvents e).walks = s.walks := rfl
@[simp] theorem State.countEvents_walkCache (s : State) (e : Events) : (s.countEvents e).walkCache = s.walkCache := rfl
@[simp] theorem State.countEvents_splits (s : State) (e : Events) : (s.countEvents e).splits = s.splits := rfl
@[simp] theorem State.countEvents_refused (s : State) (e : Events) : (s.countEvents e).refused = s.refused := rfl
@[simp] theorem State.countEvents_tmsgs (s : State) (e : Events) : (s.countEvents e).tmsgs = s.tmsgs := rfl
@[simp] theorem State.countEvents_sacks (s : State) (e : Events) : (s.countEvents e).sacks = s.sacks := rfl
@[simp] theorem State.countEvents_bads (s : State) (e : Events) : (s.countEvents e).bads = s.bads := rfl
@[simp] theorem State.countEvents_replies (s : State) (e : Events) : (s.countEvents e).replies = s.replies := rfl
@[simp] theorem State.countEvents_bmsgs (s : State) (e : Events) : (s.countEvents e).bmsgs = s.bmsgs := rfl
@[simp] theorem State.countEvents_backs (s : State) (e : Events) : (s.countEvents e).backs = s.backs := rfl
@[simp] theorem State.countEvents_wbmsgs (s : State) (e : Events) : (s.countEvents e).wbmsgs = s.wbmsgs := rfl
@[simp] theorem State.countEvents_wbacks (s : State) (e : Events) : (s.countEvents e).wbacks = s.wbacks := rfl
@[simp] theorem State.countEvents_wbdones (s : State) (e : Events) : (s.countEvents e).wbdones = s.wbdones := rfl
@[simp] theorem State.countEvents_wbroots (s : State) (e : Events) : (s.countEvents e).wbroots = s.wbroots := rfl
@[simp] theorem State.countEvents_errors (s : State) (e : Events) : (s.countEvents e).errors = s.errors := rfl
@[simp] theorem State.countEvents_fails (s : State) (e : Events) : (s.countEvents e).fails = s.fails := rfl
@[simp] theorem State.countEvents_launcher (s : State) (e : Events) : (s.countEvents e).launcher = s.launcher := rfl
@[simp] theorem State.countEvents_tenancy (s : State) (e : Events) : (s.countEvents e).tenancy = s.tenancy := rfl
@[simp] theorem State.countEvents_bar0 (s : State) (e : Events) : (s.countEvents e).bar0 = s.bar0 := rfl
@[simp] theorem State.countEvents_auth (s : State) (e : Events) : (s.countEvents e).auth = s.auth := rfl
@[simp] theorem State.countEvents_linkA (s : State) (e : Events) : (s.countEvents e).linkA = s.linkA := rfl
@[simp] theorem State.countEvents_linkB (s : State) (e : Events) : (s.countEvents e).linkB = s.linkB := rfl
@[simp] theorem State.countEvents_hostReads (s : State) (e : Events) : (s.countEvents e).hostReads = s.hostReads := rfl
@[simp] theorem State.countEvents_msix (s : State) (e : Events) : (s.countEvents e).msix = s.msix := rfl
@[simp] theorem State.countEvents_peerFrames (s : State) (e : Events) : (s.countEvents e).peerFrames = s.peerFrames := rfl

/-! ### State.addAsync -/

@[simp] theorem State.addAsync_cur (s : State) (o : SlotId) (a : AsyncCause) : (s.addAsync o a).cur = s.cur := rfl
@[simp] theorem State.addAsync_agenda (s : State) (o : SlotId) (a : AsyncCause) : (s.addAsync o a).agenda = s.agenda := rfl
@[simp] theorem State.addAsync_focus (s : State) (o : SlotId) (a : AsyncCause) : (s.addAsync o a).focus = s.focus := rfl
@[simp] theorem State.addAsync_tick (s : State) (o : SlotId) (a : AsyncCause) : (s.addAsync o a).tick = s.tick := rfl
@[simp] theorem State.addAsync_nextId (s : State) (o : SlotId) (a : AsyncCause) : (s.addAsync o a).nextId = s.nextId := rfl
@[simp] theorem State.addAsync_units (s : State) (o : SlotId) (a : AsyncCause) : (s.addAsync o a).units = s.units := rfl
@[simp] theorem State.addAsync_cox (s : State) (o : SlotId) (a : AsyncCause) : (s.addAsync o a).cox = s.cox := rfl
@[simp] theorem State.addAsync_mem (s : State) (o : SlotId) (a : AsyncCause) : (s.addAsync o a).mem = s.mem := rfl
@[simp] theorem State.addAsync_poison (s : State) (o : SlotId) (a : AsyncCause) : (s.addAsync o a).poison = s.poison := rfl
@[simp] theorem State.addAsync_past (s : State) (o : SlotId) (a : AsyncCause) : (s.addAsync o a).past = s.past := rfl
@[simp] theorem State.addAsync_writes (s : State) (o : SlotId) (a : AsyncCause) : (s.addAsync o a).writes = s.writes := rfl
@[simp] theorem State.addAsync_fulls (s : State) (o : SlotId) (a : AsyncCause) : (s.addAsync o a).fulls = s.fulls := rfl
@[simp] theorem State.addAsync_wires (s : State) (o : SlotId) (a : AsyncCause) : (s.addAsync o a).wires = s.wires := rfl
@[simp] theorem State.addAsync_host (s : State) (o : SlotId) (a : AsyncCause) : (s.addAsync o a).host = s.host := rfl
@[simp] theorem State.addAsync_now (s : State) (o : SlotId) (a : AsyncCause) : (s.addAsync o a).now = s.now := rfl
@[simp] theorem State.addAsync_times (s : State) (o : SlotId) (a : AsyncCause) : (s.addAsync o a).times = s.times := rfl
@[simp] theorem State.addAsync_reqs (s : State) (o : SlotId) (a : AsyncCause) : (s.addAsync o a).reqs = s.reqs := rfl
@[simp] theorem State.addAsync_walks (s : State) (o : SlotId) (a : AsyncCause) : (s.addAsync o a).walks = s.walks := rfl
@[simp] theorem State.addAsync_walkCache (s : State) (o : SlotId) (a : AsyncCause) : (s.addAsync o a).walkCache = s.walkCache := rfl
@[simp] theorem State.addAsync_splits (s : State) (o : SlotId) (a : AsyncCause) : (s.addAsync o a).splits = s.splits := rfl
@[simp] theorem State.addAsync_refused (s : State) (o : SlotId) (a : AsyncCause) : (s.addAsync o a).refused = s.refused := rfl
@[simp] theorem State.addAsync_tmsgs (s : State) (o : SlotId) (a : AsyncCause) : (s.addAsync o a).tmsgs = s.tmsgs := rfl
@[simp] theorem State.addAsync_sacks (s : State) (o : SlotId) (a : AsyncCause) : (s.addAsync o a).sacks = s.sacks := rfl
@[simp] theorem State.addAsync_bads (s : State) (o : SlotId) (a : AsyncCause) : (s.addAsync o a).bads = s.bads := rfl
@[simp] theorem State.addAsync_replies (s : State) (o : SlotId) (a : AsyncCause) : (s.addAsync o a).replies = s.replies := rfl
@[simp] theorem State.addAsync_bmsgs (s : State) (o : SlotId) (a : AsyncCause) : (s.addAsync o a).bmsgs = s.bmsgs := rfl
@[simp] theorem State.addAsync_backs (s : State) (o : SlotId) (a : AsyncCause) : (s.addAsync o a).backs = s.backs := rfl
@[simp] theorem State.addAsync_wbmsgs (s : State) (o : SlotId) (a : AsyncCause) : (s.addAsync o a).wbmsgs = s.wbmsgs := rfl
@[simp] theorem State.addAsync_wbacks (s : State) (o : SlotId) (a : AsyncCause) : (s.addAsync o a).wbacks = s.wbacks := rfl
@[simp] theorem State.addAsync_wbdones (s : State) (o : SlotId) (a : AsyncCause) : (s.addAsync o a).wbdones = s.wbdones := rfl
@[simp] theorem State.addAsync_wbroots (s : State) (o : SlotId) (a : AsyncCause) : (s.addAsync o a).wbroots = s.wbroots := rfl
@[simp] theorem State.addAsync_errors (s : State) (o : SlotId) (a : AsyncCause) : (s.addAsync o a).errors = s.errors := rfl
@[simp] theorem State.addAsync_fails (s : State) (o : SlotId) (a : AsyncCause) : (s.addAsync o a).fails = s.fails := rfl
@[simp] theorem State.addAsync_launcher (s : State) (o : SlotId) (a : AsyncCause) : (s.addAsync o a).launcher = s.launcher := rfl
@[simp] theorem State.addAsync_tenancy (s : State) (o : SlotId) (a : AsyncCause) : (s.addAsync o a).tenancy = s.tenancy := rfl
@[simp] theorem State.addAsync_bar0 (s : State) (o : SlotId) (a : AsyncCause) : (s.addAsync o a).bar0 = s.bar0 := rfl
@[simp] theorem State.addAsync_auth (s : State) (o : SlotId) (a : AsyncCause) : (s.addAsync o a).auth = s.auth := rfl
@[simp] theorem State.addAsync_linkA (s : State) (o : SlotId) (a : AsyncCause) : (s.addAsync o a).linkA = s.linkA := rfl
@[simp] theorem State.addAsync_linkB (s : State) (o : SlotId) (a : AsyncCause) : (s.addAsync o a).linkB = s.linkB := rfl
@[simp] theorem State.addAsync_hostReads (s : State) (o : SlotId) (a : AsyncCause) : (s.addAsync o a).hostReads = s.hostReads := rfl
@[simp] theorem State.addAsync_msix (s : State) (o : SlotId) (a : AsyncCause) : (s.addAsync o a).msix = s.msix := rfl
@[simp] theorem State.addAsync_peerFrames (s : State) (o : SlotId) (a : AsyncCause) : (s.addAsync o a).peerFrames = s.peerFrames := rfl

/-! ### State.onUnit -/

@[simp] theorem State.onUnit_cur (s : State) (u : VaultId) (f : VaultUnit → VaultUnit) : (s.onUnit u f).cur = s.cur := rfl
@[simp] theorem State.onUnit_agenda (s : State) (u : VaultId) (f : VaultUnit → VaultUnit) : (s.onUnit u f).agenda = s.agenda := rfl
@[simp] theorem State.onUnit_focus (s : State) (u : VaultId) (f : VaultUnit → VaultUnit) : (s.onUnit u f).focus = s.focus := rfl
@[simp] theorem State.onUnit_tick (s : State) (u : VaultId) (f : VaultUnit → VaultUnit) : (s.onUnit u f).tick = s.tick := rfl
@[simp] theorem State.onUnit_nextId (s : State) (u : VaultId) (f : VaultUnit → VaultUnit) : (s.onUnit u f).nextId = s.nextId := rfl
@[simp] theorem State.onUnit_cores (s : State) (u : VaultId) (f : VaultUnit → VaultUnit) : (s.onUnit u f).cores = s.cores := rfl
@[simp] theorem State.onUnit_cox (s : State) (u : VaultId) (f : VaultUnit → VaultUnit) : (s.onUnit u f).cox = s.cox := rfl
@[simp] theorem State.onUnit_mem (s : State) (u : VaultId) (f : VaultUnit → VaultUnit) : (s.onUnit u f).mem = s.mem := rfl
@[simp] theorem State.onUnit_poison (s : State) (u : VaultId) (f : VaultUnit → VaultUnit) : (s.onUnit u f).poison = s.poison := rfl
@[simp] theorem State.onUnit_past (s : State) (u : VaultId) (f : VaultUnit → VaultUnit) : (s.onUnit u f).past = s.past := rfl
@[simp] theorem State.onUnit_writes (s : State) (u : VaultId) (f : VaultUnit → VaultUnit) : (s.onUnit u f).writes = s.writes := rfl
@[simp] theorem State.onUnit_fulls (s : State) (u : VaultId) (f : VaultUnit → VaultUnit) : (s.onUnit u f).fulls = s.fulls := rfl
@[simp] theorem State.onUnit_wires (s : State) (u : VaultId) (f : VaultUnit → VaultUnit) : (s.onUnit u f).wires = s.wires := rfl
@[simp] theorem State.onUnit_host (s : State) (u : VaultId) (f : VaultUnit → VaultUnit) : (s.onUnit u f).host = s.host := rfl
@[simp] theorem State.onUnit_now (s : State) (u : VaultId) (f : VaultUnit → VaultUnit) : (s.onUnit u f).now = s.now := rfl
@[simp] theorem State.onUnit_times (s : State) (u : VaultId) (f : VaultUnit → VaultUnit) : (s.onUnit u f).times = s.times := rfl
@[simp] theorem State.onUnit_reqs (s : State) (u : VaultId) (f : VaultUnit → VaultUnit) : (s.onUnit u f).reqs = s.reqs := rfl
@[simp] theorem State.onUnit_walks (s : State) (u : VaultId) (f : VaultUnit → VaultUnit) : (s.onUnit u f).walks = s.walks := rfl
@[simp] theorem State.onUnit_walkCache (s : State) (u : VaultId) (f : VaultUnit → VaultUnit) :
    (s.onUnit u f).walkCache = s.walkCache := rfl
@[simp] theorem State.onUnit_splits (s : State) (u : VaultId) (f : VaultUnit → VaultUnit) : (s.onUnit u f).splits = s.splits := rfl
@[simp] theorem State.onUnit_refused (s : State) (u : VaultId) (f : VaultUnit → VaultUnit) : (s.onUnit u f).refused = s.refused := rfl
@[simp] theorem State.onUnit_tmsgs (s : State) (u : VaultId) (f : VaultUnit → VaultUnit) : (s.onUnit u f).tmsgs = s.tmsgs := rfl
@[simp] theorem State.onUnit_sacks (s : State) (u : VaultId) (f : VaultUnit → VaultUnit) : (s.onUnit u f).sacks = s.sacks := rfl
@[simp] theorem State.onUnit_bads (s : State) (u : VaultId) (f : VaultUnit → VaultUnit) : (s.onUnit u f).bads = s.bads := rfl
@[simp] theorem State.onUnit_replies (s : State) (u : VaultId) (f : VaultUnit → VaultUnit) : (s.onUnit u f).replies = s.replies := rfl
@[simp] theorem State.onUnit_bmsgs (s : State) (u : VaultId) (f : VaultUnit → VaultUnit) : (s.onUnit u f).bmsgs = s.bmsgs := rfl
@[simp] theorem State.onUnit_backs (s : State) (u : VaultId) (f : VaultUnit → VaultUnit) : (s.onUnit u f).backs = s.backs := rfl
@[simp] theorem State.onUnit_wbmsgs (s : State) (u : VaultId) (f : VaultUnit → VaultUnit) : (s.onUnit u f).wbmsgs = s.wbmsgs := rfl
@[simp] theorem State.onUnit_wbacks (s : State) (u : VaultId) (f : VaultUnit → VaultUnit) : (s.onUnit u f).wbacks = s.wbacks := rfl
@[simp] theorem State.onUnit_wbdones (s : State) (u : VaultId) (f : VaultUnit → VaultUnit) : (s.onUnit u f).wbdones = s.wbdones := rfl
@[simp] theorem State.onUnit_wbroots (s : State) (u : VaultId) (f : VaultUnit → VaultUnit) : (s.onUnit u f).wbroots = s.wbroots := rfl
@[simp] theorem State.onUnit_errors (s : State) (u : VaultId) (f : VaultUnit → VaultUnit) : (s.onUnit u f).errors = s.errors := rfl
@[simp] theorem State.onUnit_fails (s : State) (u : VaultId) (f : VaultUnit → VaultUnit) : (s.onUnit u f).fails = s.fails := rfl
@[simp] theorem State.onUnit_launcher (s : State) (u : VaultId) (f : VaultUnit → VaultUnit) : (s.onUnit u f).launcher = s.launcher := rfl
@[simp] theorem State.onUnit_tenancy (s : State) (u : VaultId) (f : VaultUnit → VaultUnit) : (s.onUnit u f).tenancy = s.tenancy := rfl
@[simp] theorem State.onUnit_bar0 (s : State) (u : VaultId) (f : VaultUnit → VaultUnit) : (s.onUnit u f).bar0 = s.bar0 := rfl
@[simp] theorem State.onUnit_auth (s : State) (u : VaultId) (f : VaultUnit → VaultUnit) : (s.onUnit u f).auth = s.auth := rfl
@[simp] theorem State.onUnit_linkA (s : State) (u : VaultId) (f : VaultUnit → VaultUnit) : (s.onUnit u f).linkA = s.linkA := rfl
@[simp] theorem State.onUnit_linkB (s : State) (u : VaultId) (f : VaultUnit → VaultUnit) : (s.onUnit u f).linkB = s.linkB := rfl
@[simp] theorem State.onUnit_hostReads (s : State) (u : VaultId) (f : VaultUnit → VaultUnit) :
    (s.onUnit u f).hostReads = s.hostReads := rfl
@[simp] theorem State.onUnit_msix (s : State) (u : VaultId) (f : VaultUnit → VaultUnit) : (s.onUnit u f).msix = s.msix := rfl
@[simp] theorem State.onUnit_peerFrames (s : State) (u : VaultId) (f : VaultUnit → VaultUnit) :
    (s.onUnit u f).peerFrames = s.peerFrames := rfl

/-! ### State.fresh -/

@[simp] theorem State.fresh_cur (s : State) : (s.fresh).cur = s.cur := rfl
@[simp] theorem State.fresh_agenda (s : State) : (s.fresh).agenda = s.agenda := rfl
@[simp] theorem State.fresh_focus (s : State) : (s.fresh).focus = s.focus := rfl
@[simp] theorem State.fresh_tick (s : State) : (s.fresh).tick = s.tick := rfl
@[simp] theorem State.fresh_cores (s : State) : (s.fresh).cores = s.cores := rfl
@[simp] theorem State.fresh_units (s : State) : (s.fresh).units = s.units := rfl
@[simp] theorem State.fresh_cox (s : State) : (s.fresh).cox = s.cox := rfl
@[simp] theorem State.fresh_mem (s : State) : (s.fresh).mem = s.mem := rfl
@[simp] theorem State.fresh_poison (s : State) : (s.fresh).poison = s.poison := rfl
@[simp] theorem State.fresh_past (s : State) : (s.fresh).past = s.past := rfl
@[simp] theorem State.fresh_writes (s : State) : (s.fresh).writes = s.writes := rfl
@[simp] theorem State.fresh_fulls (s : State) : (s.fresh).fulls = s.fulls := rfl
@[simp] theorem State.fresh_wires (s : State) : (s.fresh).wires = s.wires := rfl
@[simp] theorem State.fresh_host (s : State) : (s.fresh).host = s.host := rfl
@[simp] theorem State.fresh_now (s : State) : (s.fresh).now = s.now := rfl
@[simp] theorem State.fresh_times (s : State) : (s.fresh).times = s.times := rfl
@[simp] theorem State.fresh_reqs (s : State) : (s.fresh).reqs = s.reqs := rfl
@[simp] theorem State.fresh_walks (s : State) : (s.fresh).walks = s.walks := rfl
@[simp] theorem State.fresh_walkCache (s : State) : (s.fresh).walkCache = s.walkCache := rfl
@[simp] theorem State.fresh_splits (s : State) : (s.fresh).splits = s.splits := rfl
@[simp] theorem State.fresh_refused (s : State) : (s.fresh).refused = s.refused := rfl
@[simp] theorem State.fresh_tmsgs (s : State) : (s.fresh).tmsgs = s.tmsgs := rfl
@[simp] theorem State.fresh_sacks (s : State) : (s.fresh).sacks = s.sacks := rfl
@[simp] theorem State.fresh_bads (s : State) : (s.fresh).bads = s.bads := rfl
@[simp] theorem State.fresh_replies (s : State) : (s.fresh).replies = s.replies := rfl
@[simp] theorem State.fresh_bmsgs (s : State) : (s.fresh).bmsgs = s.bmsgs := rfl
@[simp] theorem State.fresh_backs (s : State) : (s.fresh).backs = s.backs := rfl
@[simp] theorem State.fresh_wbmsgs (s : State) : (s.fresh).wbmsgs = s.wbmsgs := rfl
@[simp] theorem State.fresh_wbacks (s : State) : (s.fresh).wbacks = s.wbacks := rfl
@[simp] theorem State.fresh_wbdones (s : State) : (s.fresh).wbdones = s.wbdones := rfl
@[simp] theorem State.fresh_wbroots (s : State) : (s.fresh).wbroots = s.wbroots := rfl
@[simp] theorem State.fresh_errors (s : State) : (s.fresh).errors = s.errors := rfl
@[simp] theorem State.fresh_fails (s : State) : (s.fresh).fails = s.fails := rfl
@[simp] theorem State.fresh_launcher (s : State) : (s.fresh).launcher = s.launcher := rfl
@[simp] theorem State.fresh_tenancy (s : State) : (s.fresh).tenancy = s.tenancy := rfl
@[simp] theorem State.fresh_bar0 (s : State) : (s.fresh).bar0 = s.bar0 := rfl
@[simp] theorem State.fresh_auth (s : State) : (s.fresh).auth = s.auth := rfl
@[simp] theorem State.fresh_linkA (s : State) : (s.fresh).linkA = s.linkA := rfl
@[simp] theorem State.fresh_linkB (s : State) : (s.fresh).linkB = s.linkB := rfl
@[simp] theorem State.fresh_hostReads (s : State) : (s.fresh).hostReads = s.hostReads := rfl
@[simp] theorem State.fresh_msix (s : State) : (s.fresh).msix = s.msix := rfl
@[simp] theorem State.fresh_peerFrames (s : State) : (s.fresh).peerFrames = s.peerFrames := rfl

/-! ### State.wrPieces -/

@[simp] theorem State.wrPieces_cur (s : State) (ps : List (Nat × List Byte)) : (s.wrPieces ps).cur = s.cur := rfl
@[simp] theorem State.wrPieces_agenda (s : State) (ps : List (Nat × List Byte)) : (s.wrPieces ps).agenda = s.agenda := rfl
@[simp] theorem State.wrPieces_focus (s : State) (ps : List (Nat × List Byte)) : (s.wrPieces ps).focus = s.focus := rfl
@[simp] theorem State.wrPieces_tick (s : State) (ps : List (Nat × List Byte)) : (s.wrPieces ps).tick = s.tick := rfl
@[simp] theorem State.wrPieces_nextId (s : State) (ps : List (Nat × List Byte)) : (s.wrPieces ps).nextId = s.nextId := rfl
@[simp] theorem State.wrPieces_cores (s : State) (ps : List (Nat × List Byte)) : (s.wrPieces ps).cores = s.cores := rfl
@[simp] theorem State.wrPieces_units (s : State) (ps : List (Nat × List Byte)) : (s.wrPieces ps).units = s.units := rfl
@[simp] theorem State.wrPieces_cox (s : State) (ps : List (Nat × List Byte)) : (s.wrPieces ps).cox = s.cox := rfl
@[simp] theorem State.wrPieces_now (s : State) (ps : List (Nat × List Byte)) : (s.wrPieces ps).now = s.now := rfl
@[simp] theorem State.wrPieces_times (s : State) (ps : List (Nat × List Byte)) : (s.wrPieces ps).times = s.times := rfl
@[simp] theorem State.wrPieces_reqs (s : State) (ps : List (Nat × List Byte)) : (s.wrPieces ps).reqs = s.reqs := rfl
@[simp] theorem State.wrPieces_walks (s : State) (ps : List (Nat × List Byte)) : (s.wrPieces ps).walks = s.walks := rfl
@[simp] theorem State.wrPieces_splits (s : State) (ps : List (Nat × List Byte)) : (s.wrPieces ps).splits = s.splits := rfl
@[simp] theorem State.wrPieces_refused (s : State) (ps : List (Nat × List Byte)) : (s.wrPieces ps).refused = s.refused := rfl
@[simp] theorem State.wrPieces_tmsgs (s : State) (ps : List (Nat × List Byte)) : (s.wrPieces ps).tmsgs = s.tmsgs := rfl
@[simp] theorem State.wrPieces_sacks (s : State) (ps : List (Nat × List Byte)) : (s.wrPieces ps).sacks = s.sacks := rfl
@[simp] theorem State.wrPieces_bads (s : State) (ps : List (Nat × List Byte)) : (s.wrPieces ps).bads = s.bads := rfl
@[simp] theorem State.wrPieces_replies (s : State) (ps : List (Nat × List Byte)) : (s.wrPieces ps).replies = s.replies := rfl
@[simp] theorem State.wrPieces_bmsgs (s : State) (ps : List (Nat × List Byte)) : (s.wrPieces ps).bmsgs = s.bmsgs := rfl
@[simp] theorem State.wrPieces_backs (s : State) (ps : List (Nat × List Byte)) : (s.wrPieces ps).backs = s.backs := rfl
@[simp] theorem State.wrPieces_wbmsgs (s : State) (ps : List (Nat × List Byte)) : (s.wrPieces ps).wbmsgs = s.wbmsgs := rfl
@[simp] theorem State.wrPieces_wbacks (s : State) (ps : List (Nat × List Byte)) : (s.wrPieces ps).wbacks = s.wbacks := rfl
@[simp] theorem State.wrPieces_wbdones (s : State) (ps : List (Nat × List Byte)) : (s.wrPieces ps).wbdones = s.wbdones := rfl
@[simp] theorem State.wrPieces_wbroots (s : State) (ps : List (Nat × List Byte)) : (s.wrPieces ps).wbroots = s.wbroots := rfl
@[simp] theorem State.wrPieces_errors (s : State) (ps : List (Nat × List Byte)) : (s.wrPieces ps).errors = s.errors := rfl
@[simp] theorem State.wrPieces_fails (s : State) (ps : List (Nat × List Byte)) : (s.wrPieces ps).fails = s.fails := rfl
@[simp] theorem State.wrPieces_launcher (s : State) (ps : List (Nat × List Byte)) : (s.wrPieces ps).launcher = s.launcher := rfl
@[simp] theorem State.wrPieces_tenancy (s : State) (ps : List (Nat × List Byte)) : (s.wrPieces ps).tenancy = s.tenancy := rfl
@[simp] theorem State.wrPieces_bar0 (s : State) (ps : List (Nat × List Byte)) : (s.wrPieces ps).bar0 = s.bar0 := rfl
@[simp] theorem State.wrPieces_auth (s : State) (ps : List (Nat × List Byte)) : (s.wrPieces ps).auth = s.auth := rfl
@[simp] theorem State.wrPieces_linkA (s : State) (ps : List (Nat × List Byte)) : (s.wrPieces ps).linkA = s.linkA := rfl
@[simp] theorem State.wrPieces_linkB (s : State) (ps : List (Nat × List Byte)) : (s.wrPieces ps).linkB = s.linkB := rfl
@[simp] theorem State.wrPieces_hostReads (s : State) (ps : List (Nat × List Byte)) : (s.wrPieces ps).hostReads = s.hostReads := rfl
@[simp] theorem State.wrPieces_msix (s : State) (ps : List (Nat × List Byte)) : (s.wrPieces ps).msix = s.msix := rfl
@[simp] theorem State.wrPieces_peerFrames (s : State) (ps : List (Nat × List Byte)) : (s.wrPieces ps).peerFrames = s.peerFrames := rfl

/-! ### State.send -/

@[simp] theorem State.send_cur (s : State) (ea : Word) (op : ReqOp) : (s.send ea op).cur = s.cur := rfl
@[simp] theorem State.send_agenda (s : State) (ea : Word) (op : ReqOp) : (s.send ea op).agenda = s.agenda := rfl
@[simp] theorem State.send_focus (s : State) (ea : Word) (op : ReqOp) : (s.send ea op).focus = s.focus := rfl
@[simp] theorem State.send_tick (s : State) (ea : Word) (op : ReqOp) : (s.send ea op).tick = s.tick := rfl
@[simp] theorem State.send_cores (s : State) (ea : Word) (op : ReqOp) : (s.send ea op).cores = s.cores := rfl
@[simp] theorem State.send_units (s : State) (ea : Word) (op : ReqOp) : (s.send ea op).units = s.units := rfl
@[simp] theorem State.send_cox (s : State) (ea : Word) (op : ReqOp) : (s.send ea op).cox = s.cox := rfl
@[simp] theorem State.send_mem (s : State) (ea : Word) (op : ReqOp) : (s.send ea op).mem = s.mem := rfl
@[simp] theorem State.send_poison (s : State) (ea : Word) (op : ReqOp) : (s.send ea op).poison = s.poison := rfl
@[simp] theorem State.send_past (s : State) (ea : Word) (op : ReqOp) : (s.send ea op).past = s.past := rfl
@[simp] theorem State.send_writes (s : State) (ea : Word) (op : ReqOp) : (s.send ea op).writes = s.writes := rfl
@[simp] theorem State.send_fulls (s : State) (ea : Word) (op : ReqOp) : (s.send ea op).fulls = s.fulls := rfl
@[simp] theorem State.send_wires (s : State) (ea : Word) (op : ReqOp) : (s.send ea op).wires = s.wires := rfl
@[simp] theorem State.send_host (s : State) (ea : Word) (op : ReqOp) : (s.send ea op).host = s.host := rfl
@[simp] theorem State.send_now (s : State) (ea : Word) (op : ReqOp) : (s.send ea op).now = s.now := rfl
@[simp] theorem State.send_times (s : State) (ea : Word) (op : ReqOp) : (s.send ea op).times = s.times := rfl
@[simp] theorem State.send_walks (s : State) (ea : Word) (op : ReqOp) : (s.send ea op).walks = s.walks := rfl
@[simp] theorem State.send_walkCache (s : State) (ea : Word) (op : ReqOp) : (s.send ea op).walkCache = s.walkCache := rfl
@[simp] theorem State.send_splits (s : State) (ea : Word) (op : ReqOp) : (s.send ea op).splits = s.splits := rfl
@[simp] theorem State.send_refused (s : State) (ea : Word) (op : ReqOp) : (s.send ea op).refused = s.refused := rfl
@[simp] theorem State.send_tmsgs (s : State) (ea : Word) (op : ReqOp) : (s.send ea op).tmsgs = s.tmsgs := rfl
@[simp] theorem State.send_sacks (s : State) (ea : Word) (op : ReqOp) : (s.send ea op).sacks = s.sacks := rfl
@[simp] theorem State.send_bads (s : State) (ea : Word) (op : ReqOp) : (s.send ea op).bads = s.bads := rfl
@[simp] theorem State.send_replies (s : State) (ea : Word) (op : ReqOp) : (s.send ea op).replies = s.replies := rfl
@[simp] theorem State.send_bmsgs (s : State) (ea : Word) (op : ReqOp) : (s.send ea op).bmsgs = s.bmsgs := rfl
@[simp] theorem State.send_backs (s : State) (ea : Word) (op : ReqOp) : (s.send ea op).backs = s.backs := rfl
@[simp] theorem State.send_wbmsgs (s : State) (ea : Word) (op : ReqOp) : (s.send ea op).wbmsgs = s.wbmsgs := rfl
@[simp] theorem State.send_wbacks (s : State) (ea : Word) (op : ReqOp) : (s.send ea op).wbacks = s.wbacks := rfl
@[simp] theorem State.send_wbdones (s : State) (ea : Word) (op : ReqOp) : (s.send ea op).wbdones = s.wbdones := rfl
@[simp] theorem State.send_wbroots (s : State) (ea : Word) (op : ReqOp) : (s.send ea op).wbroots = s.wbroots := rfl
@[simp] theorem State.send_errors (s : State) (ea : Word) (op : ReqOp) : (s.send ea op).errors = s.errors := rfl
@[simp] theorem State.send_fails (s : State) (ea : Word) (op : ReqOp) : (s.send ea op).fails = s.fails := rfl
@[simp] theorem State.send_launcher (s : State) (ea : Word) (op : ReqOp) : (s.send ea op).launcher = s.launcher := rfl
@[simp] theorem State.send_tenancy (s : State) (ea : Word) (op : ReqOp) : (s.send ea op).tenancy = s.tenancy := rfl
@[simp] theorem State.send_bar0 (s : State) (ea : Word) (op : ReqOp) : (s.send ea op).bar0 = s.bar0 := rfl
@[simp] theorem State.send_auth (s : State) (ea : Word) (op : ReqOp) : (s.send ea op).auth = s.auth := rfl
@[simp] theorem State.send_linkA (s : State) (ea : Word) (op : ReqOp) : (s.send ea op).linkA = s.linkA := rfl
@[simp] theorem State.send_linkB (s : State) (ea : Word) (op : ReqOp) : (s.send ea op).linkB = s.linkB := rfl
@[simp] theorem State.send_hostReads (s : State) (ea : Word) (op : ReqOp) : (s.send ea op).hostReads = s.hostReads := rfl
@[simp] theorem State.send_msix (s : State) (ea : Word) (op : ReqOp) : (s.send ea op).msix = s.msix := rfl
@[simp] theorem State.send_peerFrames (s : State) (ea : Word) (op : ReqOp) : (s.send ea op).peerFrames = s.peerFrames := rfl

/-! ### State.report -/

@[simp] theorem State.report_cur (s : State) (k : Byte) (c : CoreId) (l : Word32) (a b : Word) : (s.report k c l a b).cur = s.cur := rfl
@[simp] theorem State.report_agenda (s : State) (k : Byte) (c : CoreId) (l : Word32) (a b : Word) :
    (s.report k c l a b).agenda = s.agenda := rfl
@[simp] theorem State.report_focus (s : State) (k : Byte) (c : CoreId) (l : Word32) (a b : Word) :
    (s.report k c l a b).focus = s.focus := rfl
@[simp] theorem State.report_tick (s : State) (k : Byte) (c : CoreId) (l : Word32) (a b : Word) :
    (s.report k c l a b).tick = s.tick := rfl
@[simp] theorem State.report_nextId (s : State) (k : Byte) (c : CoreId) (l : Word32) (a b : Word) :
    (s.report k c l a b).nextId = s.nextId := rfl
@[simp] theorem State.report_cores (s : State) (k : Byte) (c : CoreId) (l : Word32) (a b : Word) :
    (s.report k c l a b).cores = s.cores := rfl
@[simp] theorem State.report_units (s : State) (k : Byte) (c : CoreId) (l : Word32) (a b : Word) :
    (s.report k c l a b).units = s.units := rfl
@[simp] theorem State.report_cox (s : State) (k : Byte) (c : CoreId) (l : Word32) (a b : Word) : (s.report k c l a b).cox = s.cox := rfl
@[simp] theorem State.report_mem (s : State) (k : Byte) (c : CoreId) (l : Word32) (a b : Word) : (s.report k c l a b).mem = s.mem := rfl
@[simp] theorem State.report_poison (s : State) (k : Byte) (c : CoreId) (l : Word32) (a b : Word) :
    (s.report k c l a b).poison = s.poison := rfl
@[simp] theorem State.report_past (s : State) (k : Byte) (c : CoreId) (l : Word32) (a b : Word) :
    (s.report k c l a b).past = s.past := rfl
@[simp] theorem State.report_writes (s : State) (k : Byte) (c : CoreId) (l : Word32) (a b : Word) :
    (s.report k c l a b).writes = s.writes := rfl
@[simp] theorem State.report_fulls (s : State) (k : Byte) (c : CoreId) (l : Word32) (a b : Word) :
    (s.report k c l a b).fulls = s.fulls := rfl
@[simp] theorem State.report_wires (s : State) (k : Byte) (c : CoreId) (l : Word32) (a b : Word) :
    (s.report k c l a b).wires = s.wires := rfl
@[simp] theorem State.report_host (s : State) (k : Byte) (c : CoreId) (l : Word32) (a b : Word) :
    (s.report k c l a b).host = s.host := rfl
@[simp] theorem State.report_reqs (s : State) (k : Byte) (c : CoreId) (l : Word32) (a b : Word) :
    (s.report k c l a b).reqs = s.reqs := rfl
@[simp] theorem State.report_walks (s : State) (k : Byte) (c : CoreId) (l : Word32) (a b : Word) :
    (s.report k c l a b).walks = s.walks := rfl
@[simp] theorem State.report_walkCache (s : State) (k : Byte) (c : CoreId) (l : Word32) (a b : Word) :
    (s.report k c l a b).walkCache = s.walkCache := rfl
@[simp] theorem State.report_splits (s : State) (k : Byte) (c : CoreId) (l : Word32) (a b : Word) :
    (s.report k c l a b).splits = s.splits := rfl
@[simp] theorem State.report_refused (s : State) (k : Byte) (c : CoreId) (l : Word32) (a b : Word) :
    (s.report k c l a b).refused = s.refused := rfl
@[simp] theorem State.report_tmsgs (s : State) (k : Byte) (c : CoreId) (l : Word32) (a b : Word) :
    (s.report k c l a b).tmsgs = s.tmsgs := rfl
@[simp] theorem State.report_sacks (s : State) (k : Byte) (c : CoreId) (l : Word32) (a b : Word) :
    (s.report k c l a b).sacks = s.sacks := rfl
@[simp] theorem State.report_bads (s : State) (k : Byte) (c : CoreId) (l : Word32) (a b : Word) :
    (s.report k c l a b).bads = s.bads := rfl
@[simp] theorem State.report_replies (s : State) (k : Byte) (c : CoreId) (l : Word32) (a b : Word) :
    (s.report k c l a b).replies = s.replies := rfl
@[simp] theorem State.report_bmsgs (s : State) (k : Byte) (c : CoreId) (l : Word32) (a b : Word) :
    (s.report k c l a b).bmsgs = s.bmsgs := rfl
@[simp] theorem State.report_backs (s : State) (k : Byte) (c : CoreId) (l : Word32) (a b : Word) :
    (s.report k c l a b).backs = s.backs := rfl
@[simp] theorem State.report_wbmsgs (s : State) (k : Byte) (c : CoreId) (l : Word32) (a b : Word) :
    (s.report k c l a b).wbmsgs = s.wbmsgs := rfl
@[simp] theorem State.report_wbacks (s : State) (k : Byte) (c : CoreId) (l : Word32) (a b : Word) :
    (s.report k c l a b).wbacks = s.wbacks := rfl
@[simp] theorem State.report_wbdones (s : State) (k : Byte) (c : CoreId) (l : Word32) (a b : Word) :
    (s.report k c l a b).wbdones = s.wbdones := rfl
@[simp] theorem State.report_wbroots (s : State) (k : Byte) (c : CoreId) (l : Word32) (a b : Word) :
    (s.report k c l a b).wbroots = s.wbroots := rfl
@[simp] theorem State.report_fails (s : State) (k : Byte) (c : CoreId) (l : Word32) (a b : Word) :
    (s.report k c l a b).fails = s.fails := rfl
@[simp] theorem State.report_launcher (s : State) (k : Byte) (c : CoreId) (l : Word32) (a b : Word) :
    (s.report k c l a b).launcher = s.launcher := rfl
@[simp] theorem State.report_tenancy (s : State) (k : Byte) (c : CoreId) (l : Word32) (a b : Word) :
    (s.report k c l a b).tenancy = s.tenancy := rfl
@[simp] theorem State.report_bar0 (s : State) (k : Byte) (c : CoreId) (l : Word32) (a b : Word) :
    (s.report k c l a b).bar0 = s.bar0 := rfl
@[simp] theorem State.report_auth (s : State) (k : Byte) (c : CoreId) (l : Word32) (a b : Word) :
    (s.report k c l a b).auth = s.auth := rfl
@[simp] theorem State.report_linkA (s : State) (k : Byte) (c : CoreId) (l : Word32) (a b : Word) :
    (s.report k c l a b).linkA = s.linkA := rfl
@[simp] theorem State.report_linkB (s : State) (k : Byte) (c : CoreId) (l : Word32) (a b : Word) :
    (s.report k c l a b).linkB = s.linkB := rfl
@[simp] theorem State.report_hostReads (s : State) (k : Byte) (c : CoreId) (l : Word32) (a b : Word) :
    (s.report k c l a b).hostReads = s.hostReads := rfl
@[simp] theorem State.report_msix (s : State) (k : Byte) (c : CoreId) (l : Word32) (a b : Word) :
    (s.report k c l a b).msix = s.msix := rfl
@[simp] theorem State.report_peerFrames (s : State) (k : Byte) (c : CoreId) (l : Word32) (a b : Word) :
    (s.report k c l a b).peerFrames = s.peerFrames := rfl

/-! ### State.syncTime -/

@[simp] theorem State.syncTime_cur (s : State) (d : DieId) : (s.syncTime d).cur = s.cur := rfl
@[simp] theorem State.syncTime_agenda (s : State) (d : DieId) : (s.syncTime d).agenda = s.agenda := rfl
@[simp] theorem State.syncTime_focus (s : State) (d : DieId) : (s.syncTime d).focus = s.focus := rfl
@[simp] theorem State.syncTime_tick (s : State) (d : DieId) : (s.syncTime d).tick = s.tick := rfl
@[simp] theorem State.syncTime_nextId (s : State) (d : DieId) : (s.syncTime d).nextId = s.nextId := rfl
@[simp] theorem State.syncTime_cores (s : State) (d : DieId) : (s.syncTime d).cores = s.cores := rfl
@[simp] theorem State.syncTime_units (s : State) (d : DieId) : (s.syncTime d).units = s.units := rfl
@[simp] theorem State.syncTime_cox (s : State) (d : DieId) : (s.syncTime d).cox = s.cox := rfl
@[simp] theorem State.syncTime_mem (s : State) (d : DieId) : (s.syncTime d).mem = s.mem := rfl
@[simp] theorem State.syncTime_poison (s : State) (d : DieId) : (s.syncTime d).poison = s.poison := rfl
@[simp] theorem State.syncTime_past (s : State) (d : DieId) : (s.syncTime d).past = s.past := rfl
@[simp] theorem State.syncTime_writes (s : State) (d : DieId) : (s.syncTime d).writes = s.writes := rfl
@[simp] theorem State.syncTime_fulls (s : State) (d : DieId) : (s.syncTime d).fulls = s.fulls := rfl
@[simp] theorem State.syncTime_wires (s : State) (d : DieId) : (s.syncTime d).wires = s.wires := rfl
@[simp] theorem State.syncTime_host (s : State) (d : DieId) : (s.syncTime d).host = s.host := rfl
@[simp] theorem State.syncTime_now (s : State) (d : DieId) : (s.syncTime d).now = s.now := rfl
@[simp] theorem State.syncTime_reqs (s : State) (d : DieId) : (s.syncTime d).reqs = s.reqs := rfl
@[simp] theorem State.syncTime_walks (s : State) (d : DieId) : (s.syncTime d).walks = s.walks := rfl
@[simp] theorem State.syncTime_walkCache (s : State) (d : DieId) : (s.syncTime d).walkCache = s.walkCache := rfl
@[simp] theorem State.syncTime_splits (s : State) (d : DieId) : (s.syncTime d).splits = s.splits := rfl
@[simp] theorem State.syncTime_refused (s : State) (d : DieId) : (s.syncTime d).refused = s.refused := rfl
@[simp] theorem State.syncTime_tmsgs (s : State) (d : DieId) : (s.syncTime d).tmsgs = s.tmsgs := rfl
@[simp] theorem State.syncTime_sacks (s : State) (d : DieId) : (s.syncTime d).sacks = s.sacks := rfl
@[simp] theorem State.syncTime_bads (s : State) (d : DieId) : (s.syncTime d).bads = s.bads := rfl
@[simp] theorem State.syncTime_replies (s : State) (d : DieId) : (s.syncTime d).replies = s.replies := rfl
@[simp] theorem State.syncTime_bmsgs (s : State) (d : DieId) : (s.syncTime d).bmsgs = s.bmsgs := rfl
@[simp] theorem State.syncTime_backs (s : State) (d : DieId) : (s.syncTime d).backs = s.backs := rfl
@[simp] theorem State.syncTime_wbmsgs (s : State) (d : DieId) : (s.syncTime d).wbmsgs = s.wbmsgs := rfl
@[simp] theorem State.syncTime_wbacks (s : State) (d : DieId) : (s.syncTime d).wbacks = s.wbacks := rfl
@[simp] theorem State.syncTime_wbdones (s : State) (d : DieId) : (s.syncTime d).wbdones = s.wbdones := rfl
@[simp] theorem State.syncTime_wbroots (s : State) (d : DieId) : (s.syncTime d).wbroots = s.wbroots := rfl
@[simp] theorem State.syncTime_errors (s : State) (d : DieId) : (s.syncTime d).errors = s.errors := rfl
@[simp] theorem State.syncTime_fails (s : State) (d : DieId) : (s.syncTime d).fails = s.fails := rfl
@[simp] theorem State.syncTime_launcher (s : State) (d : DieId) : (s.syncTime d).launcher = s.launcher := rfl
@[simp] theorem State.syncTime_tenancy (s : State) (d : DieId) : (s.syncTime d).tenancy = s.tenancy := rfl
@[simp] theorem State.syncTime_bar0 (s : State) (d : DieId) : (s.syncTime d).bar0 = s.bar0 := rfl
@[simp] theorem State.syncTime_auth (s : State) (d : DieId) : (s.syncTime d).auth = s.auth := rfl
@[simp] theorem State.syncTime_linkA (s : State) (d : DieId) : (s.syncTime d).linkA = s.linkA := rfl
@[simp] theorem State.syncTime_linkB (s : State) (d : DieId) : (s.syncTime d).linkB = s.linkB := rfl
@[simp] theorem State.syncTime_hostReads (s : State) (d : DieId) : (s.syncTime d).hostReads = s.hostReads := rfl
@[simp] theorem State.syncTime_msix (s : State) (d : DieId) : (s.syncTime d).msix = s.msix := rfl
@[simp] theorem State.syncTime_peerFrames (s : State) (d : DieId) : (s.syncTime d).peerFrames = s.peerFrames := rfl

/-! ### State.readTime -/

@[simp] theorem State.readTime_cur (s : State) (d : DieId) : (s.readTime d).1.cur = s.cur := rfl
@[simp] theorem State.readTime_agenda (s : State) (d : DieId) : (s.readTime d).1.agenda = s.agenda := rfl
@[simp] theorem State.readTime_focus (s : State) (d : DieId) : (s.readTime d).1.focus = s.focus := rfl
@[simp] theorem State.readTime_tick (s : State) (d : DieId) : (s.readTime d).1.tick = s.tick := rfl
@[simp] theorem State.readTime_nextId (s : State) (d : DieId) : (s.readTime d).1.nextId = s.nextId := rfl
@[simp] theorem State.readTime_cores (s : State) (d : DieId) : (s.readTime d).1.cores = s.cores := rfl
@[simp] theorem State.readTime_units (s : State) (d : DieId) : (s.readTime d).1.units = s.units := rfl
@[simp] theorem State.readTime_cox (s : State) (d : DieId) : (s.readTime d).1.cox = s.cox := rfl
@[simp] theorem State.readTime_mem (s : State) (d : DieId) : (s.readTime d).1.mem = s.mem := rfl
@[simp] theorem State.readTime_poison (s : State) (d : DieId) : (s.readTime d).1.poison = s.poison := rfl
@[simp] theorem State.readTime_past (s : State) (d : DieId) : (s.readTime d).1.past = s.past := rfl
@[simp] theorem State.readTime_writes (s : State) (d : DieId) : (s.readTime d).1.writes = s.writes := rfl
@[simp] theorem State.readTime_fulls (s : State) (d : DieId) : (s.readTime d).1.fulls = s.fulls := rfl
@[simp] theorem State.readTime_wires (s : State) (d : DieId) : (s.readTime d).1.wires = s.wires := rfl
@[simp] theorem State.readTime_host (s : State) (d : DieId) : (s.readTime d).1.host = s.host := rfl
@[simp] theorem State.readTime_reqs (s : State) (d : DieId) : (s.readTime d).1.reqs = s.reqs := rfl
@[simp] theorem State.readTime_walks (s : State) (d : DieId) : (s.readTime d).1.walks = s.walks := rfl
@[simp] theorem State.readTime_walkCache (s : State) (d : DieId) : (s.readTime d).1.walkCache = s.walkCache := rfl
@[simp] theorem State.readTime_splits (s : State) (d : DieId) : (s.readTime d).1.splits = s.splits := rfl
@[simp] theorem State.readTime_refused (s : State) (d : DieId) : (s.readTime d).1.refused = s.refused := rfl
@[simp] theorem State.readTime_tmsgs (s : State) (d : DieId) : (s.readTime d).1.tmsgs = s.tmsgs := rfl
@[simp] theorem State.readTime_sacks (s : State) (d : DieId) : (s.readTime d).1.sacks = s.sacks := rfl
@[simp] theorem State.readTime_bads (s : State) (d : DieId) : (s.readTime d).1.bads = s.bads := rfl
@[simp] theorem State.readTime_replies (s : State) (d : DieId) : (s.readTime d).1.replies = s.replies := rfl
@[simp] theorem State.readTime_bmsgs (s : State) (d : DieId) : (s.readTime d).1.bmsgs = s.bmsgs := rfl
@[simp] theorem State.readTime_backs (s : State) (d : DieId) : (s.readTime d).1.backs = s.backs := rfl
@[simp] theorem State.readTime_wbmsgs (s : State) (d : DieId) : (s.readTime d).1.wbmsgs = s.wbmsgs := rfl
@[simp] theorem State.readTime_wbacks (s : State) (d : DieId) : (s.readTime d).1.wbacks = s.wbacks := rfl
@[simp] theorem State.readTime_wbdones (s : State) (d : DieId) : (s.readTime d).1.wbdones = s.wbdones := rfl
@[simp] theorem State.readTime_wbroots (s : State) (d : DieId) : (s.readTime d).1.wbroots = s.wbroots := rfl
@[simp] theorem State.readTime_errors (s : State) (d : DieId) : (s.readTime d).1.errors = s.errors := rfl
@[simp] theorem State.readTime_fails (s : State) (d : DieId) : (s.readTime d).1.fails = s.fails := rfl
@[simp] theorem State.readTime_launcher (s : State) (d : DieId) : (s.readTime d).1.launcher = s.launcher := rfl
@[simp] theorem State.readTime_tenancy (s : State) (d : DieId) : (s.readTime d).1.tenancy = s.tenancy := rfl
@[simp] theorem State.readTime_bar0 (s : State) (d : DieId) : (s.readTime d).1.bar0 = s.bar0 := rfl
@[simp] theorem State.readTime_auth (s : State) (d : DieId) : (s.readTime d).1.auth = s.auth := rfl
@[simp] theorem State.readTime_linkA (s : State) (d : DieId) : (s.readTime d).1.linkA = s.linkA := rfl
@[simp] theorem State.readTime_linkB (s : State) (d : DieId) : (s.readTime d).1.linkB = s.linkB := rfl
@[simp] theorem State.readTime_hostReads (s : State) (d : DieId) : (s.readTime d).1.hostReads = s.hostReads := rfl
@[simp] theorem State.readTime_msix (s : State) (d : DieId) : (s.readTime d).1.msix = s.msix := rfl
@[simp] theorem State.readTime_peerFrames (s : State) (d : DieId) : (s.readTime d).1.peerFrames = s.peerFrames := rfl

/-! ### Slot.setX -/

@[simp] theorem Slot.setX_st (l : Slot) (n : XReg) (w : Word) : (l.setX n w).st = l.st := by unfold Slot.setX; split <;> rfl
@[simp] theorem Slot.setX_mode (l : Slot) (n : XReg) (w : Word) : (l.setX n w).mode = l.mode := by unfold Slot.setX; split <;> rfl
@[simp] theorem Slot.setX_pc (l : Slot) (n : XReg) (w : Word) : (l.setX n w).pc = l.pc := by unfold Slot.setX; split <;> rfl
@[simp] theorem Slot.setX_v (l : Slot) (n : XReg) (w : Word) : (l.setX n w).v = l.v := by unfold Slot.setX; split <;> rfl
@[simp] theorem Slot.setX_p (l : Slot) (n : XReg) (w : Word) : (l.setX n w).p = l.p := by unfold Slot.setX; split <;> rfl
@[simp] theorem Slot.setX_m (l : Slot) (n : XReg) (w : Word) : (l.setX n w).m = l.m := by unfold Slot.setX; split <;> rfl
@[simp] theorem Slot.setX_xfull (l : Slot) (n : XReg) (w : Word) : (l.setX n w).xfull = l.xfull := by unfold Slot.setX; split <;> rfl
@[simp] theorem Slot.setX_vfull (l : Slot) (n : XReg) (w : Word) : (l.setX n w).vfull = l.vfull := by unfold Slot.setX; split <;> rfl
@[simp] theorem Slot.setX_gen (l : Slot) (n : XReg) (w : Word) : (l.setX n w).gen = l.gen := by unfold Slot.setX; split <;> rfl
@[simp] theorem Slot.setX_intrap (l : Slot) (n : XReg) (w : Word) : (l.setX n w).intrap = l.intrap := by unfold Slot.setX; split <;> rfl
@[simp] theorem Slot.setX_sm (l : Slot) (n : XReg) (w : Word) : (l.setX n w).sm = l.sm := by unfold Slot.setX; split <;> rfl
@[simp] theorem Slot.setX_sd (l : Slot) (n : XReg) (w : Word) : (l.setX n w).sd = l.sd := by unfold Slot.setX; split <;> rfl
@[simp] theorem Slot.setX_cdq (l : Slot) (n : XReg) (w : Word) : (l.setX n w).cdq = l.cdq := by unfold Slot.setX; split <;> rfl
@[simp] theorem Slot.setX_prio (l : Slot) (n : XReg) (w : Word) : (l.setX n w).prio = l.prio := by unfold Slot.setX; split <;> rfl
@[simp] theorem Slot.setX_tvec (l : Slot) (n : XReg) (w : Word) : (l.setX n w).tvec = l.tvec := by unfold Slot.setX; split <;> rfl
@[simp] theorem Slot.setX_tepc (l : Slot) (n : XReg) (w : Word) : (l.setX n w).tepc = l.tepc := by unfold Slot.setX; split <;> rfl
@[simp] theorem Slot.setX_tcause (l : Slot) (n : XReg) (w : Word) : (l.setX n w).tcause = l.tcause := by unfold Slot.setX; split <;> rfl
@[simp] theorem Slot.setX_tval (l : Slot) (n : XReg) (w : Word) : (l.setX n w).tval = l.tval := by unfold Slot.setX; split <;> rfl
@[simp] theorem Slot.setX_xferid (l : Slot) (n : XReg) (w : Word) : (l.setX n w).xferid = l.xferid := by unfold Slot.setX; split <;> rfl
@[simp] theorem Slot.setX_cdlost (l : Slot) (n : XReg) (w : Word) : (l.setX n w).cdlost = l.cdlost := by unfold Slot.setX; split <;> rfl
@[simp] theorem Slot.setX_spnlim (l : Slot) (n : XReg) (w : Word) : (l.setX n w).spnlim = l.spnlim := by unfold Slot.setX; split <;> rfl
@[simp] theorem Slot.setX_rmode (l : Slot) (n : XReg) (w : Word) : (l.setX n w).rmode = l.rmode := by unfold Slot.setX; split <;> rfl
@[simp] theorem Slot.setX_axen (l : Slot) (n : XReg) (w : Word) : (l.setX n w).axen = l.axen := by unfold Slot.setX; split <;> rfl
@[simp] theorem Slot.setX_rctr (l : Slot) (n : XReg) (w : Word) : (l.setX n w).rctr = l.rctr := by unfold Slot.setX; split <;> rfl
@[simp] theorem Slot.setX_rsrc (l : Slot) (n : XReg) (w : Word) : (l.setX n w).rsrc = l.rsrc := by unfold Slot.setX; split <;> rfl
@[simp] theorem Slot.setX_rtbase (l : Slot) (n : XReg) (w : Word) : (l.setX n w).rtbase = l.rtbase := by unfold Slot.setX; split <;> rfl
@[simp] theorem Slot.setX_rtlen (l : Slot) (n : XReg) (w : Word) : (l.setX n w).rtlen = l.rtlen := by unfold Slot.setX; split <;> rfl
@[simp] theorem Slot.setX_rtidx (l : Slot) (n : XReg) (w : Word) : (l.setX n w).rtidx = l.rtidx := by unfold Slot.setX; split <;> rfl
@[simp] theorem Slot.setX_sepc (l : Slot) (n : XReg) (w : Word) : (l.setX n w).sepc = l.sepc := by unfold Slot.setX; split <;> rfl
@[simp] theorem Slot.setX_scause (l : Slot) (n : XReg) (w : Word) : (l.setX n w).scause = l.scause := by unfold Slot.setX; split <;> rfl
@[simp] theorem Slot.setX_sval (l : Slot) (n : XReg) (w : Word) : (l.setX n w).sval = l.sval := by unfold Slot.setX; split <;> rfl
@[simp] theorem Slot.setX_sscratch (l : Slot) (n : XReg) (w : Word) : (l.setX n w).sscratch = l.sscratch := by unfold Slot.setX; split <;> rfl
@[simp] theorem Slot.setX_asyncs (l : Slot) (n : XReg) (w : Word) : (l.setX n w).asyncs = l.asyncs := by unfold Slot.setX; split <;> rfl
@[simp] theorem Slot.setX_callp (l : Slot) (n : XReg) (w : Word) : (l.setX n w).callp = l.callp := by unfold Slot.setX; split <;> rfl
@[simp] theorem Slot.setX_callp0 (l : Slot) (n : XReg) (w : Word) : (l.setX n w).callp0 = l.callp0 := by unfold Slot.setX; split <;> rfl
@[simp] theorem Slot.setX_spawns (l : Slot) (n : XReg) (w : Word) : (l.setX n w).spawns = l.spawns := by unfold Slot.setX; split <;> rfl
@[simp] theorem Slot.setX_triggered (l : Slot) (n : XReg) (w : Word) : (l.setX n w).triggered = l.triggered := by unfold Slot.setX; split <;> rfl
@[simp] theorem Slot.setX_wait (l : Slot) (n : XReg) (w : Word) : (l.setX n w).wait = l.wait := by unfold Slot.setX; split <;> rfl
@[simp] theorem Slot.setX_joinAns (l : Slot) (n : XReg) (w : Word) : (l.setX n w).joinAns = l.joinAns := by unfold Slot.setX; split <;> rfl
@[simp] theorem Slot.setX_streams (l : Slot) (n : XReg) (w : Word) : (l.setX n w).streams = l.streams := by unfold Slot.setX; split <;> rfl
@[simp] theorem Slot.setX_issued (l : Slot) (n : XReg) (w : Word) : (l.setX n w).issued = l.issued := by unfold Slot.setX; split <;> rfl
@[simp] theorem Slot.setX_waited (l : Slot) (n : XReg) (w : Word) : (l.setX n w).waited = l.waited := by unfold Slot.setX; split <;> rfl
@[simp] theorem Slot.setX_age (l : Slot) (n : XReg) (w : Word) : (l.setX n w).age = l.age := by unfold Slot.setX; split <;> rfl
@[simp] theorem Slot.setX_prefetched (l : Slot) (n : XReg) (w : Word) : (l.setX n w).prefetched = l.prefetched := by unfold Slot.setX; split <;> rfl
@[simp] theorem Slot.setX_clk (l : Slot) (n : XReg) (w : Word) : (l.setX n w).clk = l.clk := by unfold Slot.setX; split <;> rfl
@[simp] theorem Slot.setX_fences (l : Slot) (n : XReg) (w : Word) : (l.setX n w).fences = l.fences := by unfold Slot.setX; split <;> rfl
@[simp] theorem Slot.setX_heard (l : Slot) (n : XReg) (w : Word) : (l.setX n w).heard = l.heard := by unfold Slot.setX; split <;> rfl
@[simp] theorem Slot.setX_castled (l : Slot) (n : XReg) (w : Word) : (l.setX n w).castled = l.castled := by unfold Slot.setX; split <;> rfl

/-! ### Slot.markX -/

@[simp] theorem Slot.markX_st (l : Slot) (n : XReg) (b : Bool) : (l.markX n b).st = l.st := by unfold Slot.markX; split <;> rfl
@[simp] theorem Slot.markX_mode (l : Slot) (n : XReg) (b : Bool) : (l.markX n b).mode = l.mode := by unfold Slot.markX; split <;> rfl
@[simp] theorem Slot.markX_pc (l : Slot) (n : XReg) (b : Bool) : (l.markX n b).pc = l.pc := by unfold Slot.markX; split <;> rfl
@[simp] theorem Slot.markX_x (l : Slot) (n : XReg) (b : Bool) : (l.markX n b).x = l.x := by unfold Slot.markX; split <;> rfl
@[simp] theorem Slot.markX_v (l : Slot) (n : XReg) (b : Bool) : (l.markX n b).v = l.v := by unfold Slot.markX; split <;> rfl
@[simp] theorem Slot.markX_p (l : Slot) (n : XReg) (b : Bool) : (l.markX n b).p = l.p := by unfold Slot.markX; split <;> rfl
@[simp] theorem Slot.markX_m (l : Slot) (n : XReg) (b : Bool) : (l.markX n b).m = l.m := by unfold Slot.markX; split <;> rfl
@[simp] theorem Slot.markX_vfull (l : Slot) (n : XReg) (b : Bool) : (l.markX n b).vfull = l.vfull := by unfold Slot.markX; split <;> rfl
@[simp] theorem Slot.markX_gen (l : Slot) (n : XReg) (b : Bool) : (l.markX n b).gen = l.gen := by unfold Slot.markX; split <;> rfl
@[simp] theorem Slot.markX_intrap (l : Slot) (n : XReg) (b : Bool) : (l.markX n b).intrap = l.intrap := by unfold Slot.markX; split <;> rfl
@[simp] theorem Slot.markX_sm (l : Slot) (n : XReg) (b : Bool) : (l.markX n b).sm = l.sm := by unfold Slot.markX; split <;> rfl
@[simp] theorem Slot.markX_sd (l : Slot) (n : XReg) (b : Bool) : (l.markX n b).sd = l.sd := by unfold Slot.markX; split <;> rfl
@[simp] theorem Slot.markX_cdq (l : Slot) (n : XReg) (b : Bool) : (l.markX n b).cdq = l.cdq := by unfold Slot.markX; split <;> rfl
@[simp] theorem Slot.markX_prio (l : Slot) (n : XReg) (b : Bool) : (l.markX n b).prio = l.prio := by unfold Slot.markX; split <;> rfl
@[simp] theorem Slot.markX_tvec (l : Slot) (n : XReg) (b : Bool) : (l.markX n b).tvec = l.tvec := by unfold Slot.markX; split <;> rfl
@[simp] theorem Slot.markX_tepc (l : Slot) (n : XReg) (b : Bool) : (l.markX n b).tepc = l.tepc := by unfold Slot.markX; split <;> rfl
@[simp] theorem Slot.markX_tcause (l : Slot) (n : XReg) (b : Bool) : (l.markX n b).tcause = l.tcause := by unfold Slot.markX; split <;> rfl
@[simp] theorem Slot.markX_tval (l : Slot) (n : XReg) (b : Bool) : (l.markX n b).tval = l.tval := by unfold Slot.markX; split <;> rfl
@[simp] theorem Slot.markX_xferid (l : Slot) (n : XReg) (b : Bool) : (l.markX n b).xferid = l.xferid := by unfold Slot.markX; split <;> rfl
@[simp] theorem Slot.markX_cdlost (l : Slot) (n : XReg) (b : Bool) : (l.markX n b).cdlost = l.cdlost := by unfold Slot.markX; split <;> rfl
@[simp] theorem Slot.markX_spnlim (l : Slot) (n : XReg) (b : Bool) : (l.markX n b).spnlim = l.spnlim := by unfold Slot.markX; split <;> rfl
@[simp] theorem Slot.markX_rmode (l : Slot) (n : XReg) (b : Bool) : (l.markX n b).rmode = l.rmode := by unfold Slot.markX; split <;> rfl
@[simp] theorem Slot.markX_axen (l : Slot) (n : XReg) (b : Bool) : (l.markX n b).axen = l.axen := by unfold Slot.markX; split <;> rfl
@[simp] theorem Slot.markX_rctr (l : Slot) (n : XReg) (b : Bool) : (l.markX n b).rctr = l.rctr := by unfold Slot.markX; split <;> rfl
@[simp] theorem Slot.markX_rsrc (l : Slot) (n : XReg) (b : Bool) : (l.markX n b).rsrc = l.rsrc := by unfold Slot.markX; split <;> rfl
@[simp] theorem Slot.markX_rtbase (l : Slot) (n : XReg) (b : Bool) : (l.markX n b).rtbase = l.rtbase := by unfold Slot.markX; split <;> rfl
@[simp] theorem Slot.markX_rtlen (l : Slot) (n : XReg) (b : Bool) : (l.markX n b).rtlen = l.rtlen := by unfold Slot.markX; split <;> rfl
@[simp] theorem Slot.markX_rtidx (l : Slot) (n : XReg) (b : Bool) : (l.markX n b).rtidx = l.rtidx := by unfold Slot.markX; split <;> rfl
@[simp] theorem Slot.markX_sepc (l : Slot) (n : XReg) (b : Bool) : (l.markX n b).sepc = l.sepc := by unfold Slot.markX; split <;> rfl
@[simp] theorem Slot.markX_scause (l : Slot) (n : XReg) (b : Bool) : (l.markX n b).scause = l.scause := by unfold Slot.markX; split <;> rfl
@[simp] theorem Slot.markX_sval (l : Slot) (n : XReg) (b : Bool) : (l.markX n b).sval = l.sval := by unfold Slot.markX; split <;> rfl
@[simp] theorem Slot.markX_sscratch (l : Slot) (n : XReg) (b : Bool) : (l.markX n b).sscratch = l.sscratch := by unfold Slot.markX; split <;> rfl
@[simp] theorem Slot.markX_asyncs (l : Slot) (n : XReg) (b : Bool) : (l.markX n b).asyncs = l.asyncs := by unfold Slot.markX; split <;> rfl
@[simp] theorem Slot.markX_callp (l : Slot) (n : XReg) (b : Bool) : (l.markX n b).callp = l.callp := by unfold Slot.markX; split <;> rfl
@[simp] theorem Slot.markX_callp0 (l : Slot) (n : XReg) (b : Bool) : (l.markX n b).callp0 = l.callp0 := by unfold Slot.markX; split <;> rfl
@[simp] theorem Slot.markX_spawns (l : Slot) (n : XReg) (b : Bool) : (l.markX n b).spawns = l.spawns := by unfold Slot.markX; split <;> rfl
@[simp] theorem Slot.markX_triggered (l : Slot) (n : XReg) (b : Bool) : (l.markX n b).triggered = l.triggered := by unfold Slot.markX; split <;> rfl
@[simp] theorem Slot.markX_wait (l : Slot) (n : XReg) (b : Bool) : (l.markX n b).wait = l.wait := by unfold Slot.markX; split <;> rfl
@[simp] theorem Slot.markX_joinAns (l : Slot) (n : XReg) (b : Bool) : (l.markX n b).joinAns = l.joinAns := by unfold Slot.markX; split <;> rfl
@[simp] theorem Slot.markX_streams (l : Slot) (n : XReg) (b : Bool) : (l.markX n b).streams = l.streams := by unfold Slot.markX; split <;> rfl
@[simp] theorem Slot.markX_issued (l : Slot) (n : XReg) (b : Bool) : (l.markX n b).issued = l.issued := by unfold Slot.markX; split <;> rfl
@[simp] theorem Slot.markX_waited (l : Slot) (n : XReg) (b : Bool) : (l.markX n b).waited = l.waited := by unfold Slot.markX; split <;> rfl
@[simp] theorem Slot.markX_age (l : Slot) (n : XReg) (b : Bool) : (l.markX n b).age = l.age := by unfold Slot.markX; split <;> rfl
@[simp] theorem Slot.markX_prefetched (l : Slot) (n : XReg) (b : Bool) : (l.markX n b).prefetched = l.prefetched := by unfold Slot.markX; split <;> rfl
@[simp] theorem Slot.markX_clk (l : Slot) (n : XReg) (b : Bool) : (l.markX n b).clk = l.clk := by unfold Slot.markX; split <;> rfl
@[simp] theorem Slot.markX_fences (l : Slot) (n : XReg) (b : Bool) : (l.markX n b).fences = l.fences := by unfold Slot.markX; split <;> rfl
@[simp] theorem Slot.markX_heard (l : Slot) (n : XReg) (b : Bool) : (l.markX n b).heard = l.heard := by unfold Slot.markX; split <;> rfl
@[simp] theorem Slot.markX_castled (l : Slot) (n : XReg) (b : Bool) : (l.markX n b).castled = l.castled := by unfold Slot.markX; split <;> rfl

/-! ### Slot.setV -/

@[simp] theorem Slot.setV_st (l : Slot) (n : VReg) (w : VVal) : (l.setV n w).st = l.st := rfl
@[simp] theorem Slot.setV_mode (l : Slot) (n : VReg) (w : VVal) : (l.setV n w).mode = l.mode := rfl
@[simp] theorem Slot.setV_pc (l : Slot) (n : VReg) (w : VVal) : (l.setV n w).pc = l.pc := rfl
@[simp] theorem Slot.setV_x (l : Slot) (n : VReg) (w : VVal) : (l.setV n w).x = l.x := rfl
@[simp] theorem Slot.setV_p (l : Slot) (n : VReg) (w : VVal) : (l.setV n w).p = l.p := rfl
@[simp] theorem Slot.setV_m (l : Slot) (n : VReg) (w : VVal) : (l.setV n w).m = l.m := rfl
@[simp] theorem Slot.setV_xfull (l : Slot) (n : VReg) (w : VVal) : (l.setV n w).xfull = l.xfull := rfl
@[simp] theorem Slot.setV_vfull (l : Slot) (n : VReg) (w : VVal) : (l.setV n w).vfull = l.vfull := rfl
@[simp] theorem Slot.setV_gen (l : Slot) (n : VReg) (w : VVal) : (l.setV n w).gen = l.gen := rfl
@[simp] theorem Slot.setV_intrap (l : Slot) (n : VReg) (w : VVal) : (l.setV n w).intrap = l.intrap := rfl
@[simp] theorem Slot.setV_sm (l : Slot) (n : VReg) (w : VVal) : (l.setV n w).sm = l.sm := rfl
@[simp] theorem Slot.setV_sd (l : Slot) (n : VReg) (w : VVal) : (l.setV n w).sd = l.sd := rfl
@[simp] theorem Slot.setV_cdq (l : Slot) (n : VReg) (w : VVal) : (l.setV n w).cdq = l.cdq := rfl
@[simp] theorem Slot.setV_prio (l : Slot) (n : VReg) (w : VVal) : (l.setV n w).prio = l.prio := rfl
@[simp] theorem Slot.setV_tvec (l : Slot) (n : VReg) (w : VVal) : (l.setV n w).tvec = l.tvec := rfl
@[simp] theorem Slot.setV_tepc (l : Slot) (n : VReg) (w : VVal) : (l.setV n w).tepc = l.tepc := rfl
@[simp] theorem Slot.setV_tcause (l : Slot) (n : VReg) (w : VVal) : (l.setV n w).tcause = l.tcause := rfl
@[simp] theorem Slot.setV_tval (l : Slot) (n : VReg) (w : VVal) : (l.setV n w).tval = l.tval := rfl
@[simp] theorem Slot.setV_xferid (l : Slot) (n : VReg) (w : VVal) : (l.setV n w).xferid = l.xferid := rfl
@[simp] theorem Slot.setV_cdlost (l : Slot) (n : VReg) (w : VVal) : (l.setV n w).cdlost = l.cdlost := rfl
@[simp] theorem Slot.setV_spnlim (l : Slot) (n : VReg) (w : VVal) : (l.setV n w).spnlim = l.spnlim := rfl
@[simp] theorem Slot.setV_rmode (l : Slot) (n : VReg) (w : VVal) : (l.setV n w).rmode = l.rmode := rfl
@[simp] theorem Slot.setV_axen (l : Slot) (n : VReg) (w : VVal) : (l.setV n w).axen = l.axen := rfl
@[simp] theorem Slot.setV_rctr (l : Slot) (n : VReg) (w : VVal) : (l.setV n w).rctr = l.rctr := rfl
@[simp] theorem Slot.setV_rsrc (l : Slot) (n : VReg) (w : VVal) : (l.setV n w).rsrc = l.rsrc := rfl
@[simp] theorem Slot.setV_rtbase (l : Slot) (n : VReg) (w : VVal) : (l.setV n w).rtbase = l.rtbase := rfl
@[simp] theorem Slot.setV_rtlen (l : Slot) (n : VReg) (w : VVal) : (l.setV n w).rtlen = l.rtlen := rfl
@[simp] theorem Slot.setV_rtidx (l : Slot) (n : VReg) (w : VVal) : (l.setV n w).rtidx = l.rtidx := rfl
@[simp] theorem Slot.setV_sepc (l : Slot) (n : VReg) (w : VVal) : (l.setV n w).sepc = l.sepc := rfl
@[simp] theorem Slot.setV_scause (l : Slot) (n : VReg) (w : VVal) : (l.setV n w).scause = l.scause := rfl
@[simp] theorem Slot.setV_sval (l : Slot) (n : VReg) (w : VVal) : (l.setV n w).sval = l.sval := rfl
@[simp] theorem Slot.setV_sscratch (l : Slot) (n : VReg) (w : VVal) : (l.setV n w).sscratch = l.sscratch := rfl
@[simp] theorem Slot.setV_asyncs (l : Slot) (n : VReg) (w : VVal) : (l.setV n w).asyncs = l.asyncs := rfl
@[simp] theorem Slot.setV_callp (l : Slot) (n : VReg) (w : VVal) : (l.setV n w).callp = l.callp := rfl
@[simp] theorem Slot.setV_callp0 (l : Slot) (n : VReg) (w : VVal) : (l.setV n w).callp0 = l.callp0 := rfl
@[simp] theorem Slot.setV_spawns (l : Slot) (n : VReg) (w : VVal) : (l.setV n w).spawns = l.spawns := rfl
@[simp] theorem Slot.setV_triggered (l : Slot) (n : VReg) (w : VVal) : (l.setV n w).triggered = l.triggered := rfl
@[simp] theorem Slot.setV_wait (l : Slot) (n : VReg) (w : VVal) : (l.setV n w).wait = l.wait := rfl
@[simp] theorem Slot.setV_joinAns (l : Slot) (n : VReg) (w : VVal) : (l.setV n w).joinAns = l.joinAns := rfl
@[simp] theorem Slot.setV_streams (l : Slot) (n : VReg) (w : VVal) : (l.setV n w).streams = l.streams := rfl
@[simp] theorem Slot.setV_issued (l : Slot) (n : VReg) (w : VVal) : (l.setV n w).issued = l.issued := rfl
@[simp] theorem Slot.setV_waited (l : Slot) (n : VReg) (w : VVal) : (l.setV n w).waited = l.waited := rfl
@[simp] theorem Slot.setV_age (l : Slot) (n : VReg) (w : VVal) : (l.setV n w).age = l.age := rfl
@[simp] theorem Slot.setV_prefetched (l : Slot) (n : VReg) (w : VVal) : (l.setV n w).prefetched = l.prefetched := rfl
@[simp] theorem Slot.setV_clk (l : Slot) (n : VReg) (w : VVal) : (l.setV n w).clk = l.clk := rfl
@[simp] theorem Slot.setV_fences (l : Slot) (n : VReg) (w : VVal) : (l.setV n w).fences = l.fences := rfl
@[simp] theorem Slot.setV_heard (l : Slot) (n : VReg) (w : VVal) : (l.setV n w).heard = l.heard := rfl
@[simp] theorem Slot.setV_castled (l : Slot) (n : VReg) (w : VVal) : (l.setV n w).castled = l.castled := rfl

/-! ### Slot.markV -/

@[simp] theorem Slot.markV_st (l : Slot) (n : VReg) (b : Bool) : (l.markV n b).st = l.st := rfl
@[simp] theorem Slot.markV_mode (l : Slot) (n : VReg) (b : Bool) : (l.markV n b).mode = l.mode := rfl
@[simp] theorem Slot.markV_pc (l : Slot) (n : VReg) (b : Bool) : (l.markV n b).pc = l.pc := rfl
@[simp] theorem Slot.markV_x (l : Slot) (n : VReg) (b : Bool) : (l.markV n b).x = l.x := rfl
@[simp] theorem Slot.markV_v (l : Slot) (n : VReg) (b : Bool) : (l.markV n b).v = l.v := rfl
@[simp] theorem Slot.markV_p (l : Slot) (n : VReg) (b : Bool) : (l.markV n b).p = l.p := rfl
@[simp] theorem Slot.markV_m (l : Slot) (n : VReg) (b : Bool) : (l.markV n b).m = l.m := rfl
@[simp] theorem Slot.markV_xfull (l : Slot) (n : VReg) (b : Bool) : (l.markV n b).xfull = l.xfull := rfl
@[simp] theorem Slot.markV_gen (l : Slot) (n : VReg) (b : Bool) : (l.markV n b).gen = l.gen := rfl
@[simp] theorem Slot.markV_intrap (l : Slot) (n : VReg) (b : Bool) : (l.markV n b).intrap = l.intrap := rfl
@[simp] theorem Slot.markV_sm (l : Slot) (n : VReg) (b : Bool) : (l.markV n b).sm = l.sm := rfl
@[simp] theorem Slot.markV_sd (l : Slot) (n : VReg) (b : Bool) : (l.markV n b).sd = l.sd := rfl
@[simp] theorem Slot.markV_cdq (l : Slot) (n : VReg) (b : Bool) : (l.markV n b).cdq = l.cdq := rfl
@[simp] theorem Slot.markV_prio (l : Slot) (n : VReg) (b : Bool) : (l.markV n b).prio = l.prio := rfl
@[simp] theorem Slot.markV_tvec (l : Slot) (n : VReg) (b : Bool) : (l.markV n b).tvec = l.tvec := rfl
@[simp] theorem Slot.markV_tepc (l : Slot) (n : VReg) (b : Bool) : (l.markV n b).tepc = l.tepc := rfl
@[simp] theorem Slot.markV_tcause (l : Slot) (n : VReg) (b : Bool) : (l.markV n b).tcause = l.tcause := rfl
@[simp] theorem Slot.markV_tval (l : Slot) (n : VReg) (b : Bool) : (l.markV n b).tval = l.tval := rfl
@[simp] theorem Slot.markV_xferid (l : Slot) (n : VReg) (b : Bool) : (l.markV n b).xferid = l.xferid := rfl
@[simp] theorem Slot.markV_cdlost (l : Slot) (n : VReg) (b : Bool) : (l.markV n b).cdlost = l.cdlost := rfl
@[simp] theorem Slot.markV_spnlim (l : Slot) (n : VReg) (b : Bool) : (l.markV n b).spnlim = l.spnlim := rfl
@[simp] theorem Slot.markV_rmode (l : Slot) (n : VReg) (b : Bool) : (l.markV n b).rmode = l.rmode := rfl
@[simp] theorem Slot.markV_axen (l : Slot) (n : VReg) (b : Bool) : (l.markV n b).axen = l.axen := rfl
@[simp] theorem Slot.markV_rctr (l : Slot) (n : VReg) (b : Bool) : (l.markV n b).rctr = l.rctr := rfl
@[simp] theorem Slot.markV_rsrc (l : Slot) (n : VReg) (b : Bool) : (l.markV n b).rsrc = l.rsrc := rfl
@[simp] theorem Slot.markV_rtbase (l : Slot) (n : VReg) (b : Bool) : (l.markV n b).rtbase = l.rtbase := rfl
@[simp] theorem Slot.markV_rtlen (l : Slot) (n : VReg) (b : Bool) : (l.markV n b).rtlen = l.rtlen := rfl
@[simp] theorem Slot.markV_rtidx (l : Slot) (n : VReg) (b : Bool) : (l.markV n b).rtidx = l.rtidx := rfl
@[simp] theorem Slot.markV_sepc (l : Slot) (n : VReg) (b : Bool) : (l.markV n b).sepc = l.sepc := rfl
@[simp] theorem Slot.markV_scause (l : Slot) (n : VReg) (b : Bool) : (l.markV n b).scause = l.scause := rfl
@[simp] theorem Slot.markV_sval (l : Slot) (n : VReg) (b : Bool) : (l.markV n b).sval = l.sval := rfl
@[simp] theorem Slot.markV_sscratch (l : Slot) (n : VReg) (b : Bool) : (l.markV n b).sscratch = l.sscratch := rfl
@[simp] theorem Slot.markV_asyncs (l : Slot) (n : VReg) (b : Bool) : (l.markV n b).asyncs = l.asyncs := rfl
@[simp] theorem Slot.markV_callp (l : Slot) (n : VReg) (b : Bool) : (l.markV n b).callp = l.callp := rfl
@[simp] theorem Slot.markV_callp0 (l : Slot) (n : VReg) (b : Bool) : (l.markV n b).callp0 = l.callp0 := rfl
@[simp] theorem Slot.markV_spawns (l : Slot) (n : VReg) (b : Bool) : (l.markV n b).spawns = l.spawns := rfl
@[simp] theorem Slot.markV_triggered (l : Slot) (n : VReg) (b : Bool) : (l.markV n b).triggered = l.triggered := rfl
@[simp] theorem Slot.markV_wait (l : Slot) (n : VReg) (b : Bool) : (l.markV n b).wait = l.wait := rfl
@[simp] theorem Slot.markV_joinAns (l : Slot) (n : VReg) (b : Bool) : (l.markV n b).joinAns = l.joinAns := rfl
@[simp] theorem Slot.markV_streams (l : Slot) (n : VReg) (b : Bool) : (l.markV n b).streams = l.streams := rfl
@[simp] theorem Slot.markV_issued (l : Slot) (n : VReg) (b : Bool) : (l.markV n b).issued = l.issued := rfl
@[simp] theorem Slot.markV_waited (l : Slot) (n : VReg) (b : Bool) : (l.markV n b).waited = l.waited := rfl
@[simp] theorem Slot.markV_age (l : Slot) (n : VReg) (b : Bool) : (l.markV n b).age = l.age := rfl
@[simp] theorem Slot.markV_prefetched (l : Slot) (n : VReg) (b : Bool) : (l.markV n b).prefetched = l.prefetched := rfl
@[simp] theorem Slot.markV_clk (l : Slot) (n : VReg) (b : Bool) : (l.markV n b).clk = l.clk := rfl
@[simp] theorem Slot.markV_fences (l : Slot) (n : VReg) (b : Bool) : (l.markV n b).fences = l.fences := rfl
@[simp] theorem Slot.markV_heard (l : Slot) (n : VReg) (b : Bool) : (l.markV n b).heard = l.heard := rfl
@[simp] theorem Slot.markV_castled (l : Slot) (n : VReg) (b : Bool) : (l.markV n b).castled = l.castled := rfl

/-! ### Slot.setP -/

@[simp] theorem Slot.setP_st (l : Slot) (n : PReg) (w : BitVec 16) : (l.setP n w).st = l.st := by unfold Slot.setP; split <;> rfl
@[simp] theorem Slot.setP_mode (l : Slot) (n : PReg) (w : BitVec 16) : (l.setP n w).mode = l.mode := by unfold Slot.setP; split <;> rfl
@[simp] theorem Slot.setP_pc (l : Slot) (n : PReg) (w : BitVec 16) : (l.setP n w).pc = l.pc := by unfold Slot.setP; split <;> rfl
@[simp] theorem Slot.setP_x (l : Slot) (n : PReg) (w : BitVec 16) : (l.setP n w).x = l.x := by unfold Slot.setP; split <;> rfl
@[simp] theorem Slot.setP_v (l : Slot) (n : PReg) (w : BitVec 16) : (l.setP n w).v = l.v := by unfold Slot.setP; split <;> rfl
@[simp] theorem Slot.setP_m (l : Slot) (n : PReg) (w : BitVec 16) : (l.setP n w).m = l.m := by unfold Slot.setP; split <;> rfl
@[simp] theorem Slot.setP_xfull (l : Slot) (n : PReg) (w : BitVec 16) : (l.setP n w).xfull = l.xfull := by unfold Slot.setP; split <;> rfl
@[simp] theorem Slot.setP_vfull (l : Slot) (n : PReg) (w : BitVec 16) : (l.setP n w).vfull = l.vfull := by unfold Slot.setP; split <;> rfl
@[simp] theorem Slot.setP_gen (l : Slot) (n : PReg) (w : BitVec 16) : (l.setP n w).gen = l.gen := by unfold Slot.setP; split <;> rfl
@[simp] theorem Slot.setP_intrap (l : Slot) (n : PReg) (w : BitVec 16) : (l.setP n w).intrap = l.intrap := by unfold Slot.setP; split <;> rfl
@[simp] theorem Slot.setP_sm (l : Slot) (n : PReg) (w : BitVec 16) : (l.setP n w).sm = l.sm := by unfold Slot.setP; split <;> rfl
@[simp] theorem Slot.setP_sd (l : Slot) (n : PReg) (w : BitVec 16) : (l.setP n w).sd = l.sd := by unfold Slot.setP; split <;> rfl
@[simp] theorem Slot.setP_cdq (l : Slot) (n : PReg) (w : BitVec 16) : (l.setP n w).cdq = l.cdq := by unfold Slot.setP; split <;> rfl
@[simp] theorem Slot.setP_prio (l : Slot) (n : PReg) (w : BitVec 16) : (l.setP n w).prio = l.prio := by unfold Slot.setP; split <;> rfl
@[simp] theorem Slot.setP_tvec (l : Slot) (n : PReg) (w : BitVec 16) : (l.setP n w).tvec = l.tvec := by unfold Slot.setP; split <;> rfl
@[simp] theorem Slot.setP_tepc (l : Slot) (n : PReg) (w : BitVec 16) : (l.setP n w).tepc = l.tepc := by unfold Slot.setP; split <;> rfl
@[simp] theorem Slot.setP_tcause (l : Slot) (n : PReg) (w : BitVec 16) : (l.setP n w).tcause = l.tcause := by unfold Slot.setP; split <;> rfl
@[simp] theorem Slot.setP_tval (l : Slot) (n : PReg) (w : BitVec 16) : (l.setP n w).tval = l.tval := by unfold Slot.setP; split <;> rfl
@[simp] theorem Slot.setP_xferid (l : Slot) (n : PReg) (w : BitVec 16) : (l.setP n w).xferid = l.xferid := by unfold Slot.setP; split <;> rfl
@[simp] theorem Slot.setP_cdlost (l : Slot) (n : PReg) (w : BitVec 16) : (l.setP n w).cdlost = l.cdlost := by unfold Slot.setP; split <;> rfl
@[simp] theorem Slot.setP_spnlim (l : Slot) (n : PReg) (w : BitVec 16) : (l.setP n w).spnlim = l.spnlim := by unfold Slot.setP; split <;> rfl
@[simp] theorem Slot.setP_rmode (l : Slot) (n : PReg) (w : BitVec 16) : (l.setP n w).rmode = l.rmode := by unfold Slot.setP; split <;> rfl
@[simp] theorem Slot.setP_axen (l : Slot) (n : PReg) (w : BitVec 16) : (l.setP n w).axen = l.axen := by unfold Slot.setP; split <;> rfl
@[simp] theorem Slot.setP_rctr (l : Slot) (n : PReg) (w : BitVec 16) : (l.setP n w).rctr = l.rctr := by unfold Slot.setP; split <;> rfl
@[simp] theorem Slot.setP_rsrc (l : Slot) (n : PReg) (w : BitVec 16) : (l.setP n w).rsrc = l.rsrc := by unfold Slot.setP; split <;> rfl
@[simp] theorem Slot.setP_rtbase (l : Slot) (n : PReg) (w : BitVec 16) : (l.setP n w).rtbase = l.rtbase := by unfold Slot.setP; split <;> rfl
@[simp] theorem Slot.setP_rtlen (l : Slot) (n : PReg) (w : BitVec 16) : (l.setP n w).rtlen = l.rtlen := by unfold Slot.setP; split <;> rfl
@[simp] theorem Slot.setP_rtidx (l : Slot) (n : PReg) (w : BitVec 16) : (l.setP n w).rtidx = l.rtidx := by unfold Slot.setP; split <;> rfl
@[simp] theorem Slot.setP_sepc (l : Slot) (n : PReg) (w : BitVec 16) : (l.setP n w).sepc = l.sepc := by unfold Slot.setP; split <;> rfl
@[simp] theorem Slot.setP_scause (l : Slot) (n : PReg) (w : BitVec 16) : (l.setP n w).scause = l.scause := by unfold Slot.setP; split <;> rfl
@[simp] theorem Slot.setP_sval (l : Slot) (n : PReg) (w : BitVec 16) : (l.setP n w).sval = l.sval := by unfold Slot.setP; split <;> rfl
@[simp] theorem Slot.setP_sscratch (l : Slot) (n : PReg) (w : BitVec 16) : (l.setP n w).sscratch = l.sscratch := by unfold Slot.setP; split <;> rfl
@[simp] theorem Slot.setP_asyncs (l : Slot) (n : PReg) (w : BitVec 16) : (l.setP n w).asyncs = l.asyncs := by unfold Slot.setP; split <;> rfl
@[simp] theorem Slot.setP_callp (l : Slot) (n : PReg) (w : BitVec 16) : (l.setP n w).callp = l.callp := by unfold Slot.setP; split <;> rfl
@[simp] theorem Slot.setP_callp0 (l : Slot) (n : PReg) (w : BitVec 16) : (l.setP n w).callp0 = l.callp0 := by unfold Slot.setP; split <;> rfl
@[simp] theorem Slot.setP_spawns (l : Slot) (n : PReg) (w : BitVec 16) : (l.setP n w).spawns = l.spawns := by unfold Slot.setP; split <;> rfl
@[simp] theorem Slot.setP_triggered (l : Slot) (n : PReg) (w : BitVec 16) : (l.setP n w).triggered = l.triggered := by unfold Slot.setP; split <;> rfl
@[simp] theorem Slot.setP_wait (l : Slot) (n : PReg) (w : BitVec 16) : (l.setP n w).wait = l.wait := by unfold Slot.setP; split <;> rfl
@[simp] theorem Slot.setP_joinAns (l : Slot) (n : PReg) (w : BitVec 16) : (l.setP n w).joinAns = l.joinAns := by unfold Slot.setP; split <;> rfl
@[simp] theorem Slot.setP_streams (l : Slot) (n : PReg) (w : BitVec 16) : (l.setP n w).streams = l.streams := by unfold Slot.setP; split <;> rfl
@[simp] theorem Slot.setP_issued (l : Slot) (n : PReg) (w : BitVec 16) : (l.setP n w).issued = l.issued := by unfold Slot.setP; split <;> rfl
@[simp] theorem Slot.setP_waited (l : Slot) (n : PReg) (w : BitVec 16) : (l.setP n w).waited = l.waited := by unfold Slot.setP; split <;> rfl
@[simp] theorem Slot.setP_age (l : Slot) (n : PReg) (w : BitVec 16) : (l.setP n w).age = l.age := by unfold Slot.setP; split <;> rfl
@[simp] theorem Slot.setP_prefetched (l : Slot) (n : PReg) (w : BitVec 16) : (l.setP n w).prefetched = l.prefetched := by unfold Slot.setP; split <;> rfl
@[simp] theorem Slot.setP_clk (l : Slot) (n : PReg) (w : BitVec 16) : (l.setP n w).clk = l.clk := by unfold Slot.setP; split <;> rfl
@[simp] theorem Slot.setP_fences (l : Slot) (n : PReg) (w : BitVec 16) : (l.setP n w).fences = l.fences := by unfold Slot.setP; split <;> rfl
@[simp] theorem Slot.setP_heard (l : Slot) (n : PReg) (w : BitVec 16) : (l.setP n w).heard = l.heard := by unfold Slot.setP; split <;> rfl
@[simp] theorem Slot.setP_castled (l : Slot) (n : PReg) (w : BitVec 16) : (l.setP n w).castled = l.castled := by unfold Slot.setP; split <;> rfl

/-! ### Slot.setM -/

@[simp] theorem Slot.setM_st (l : Slot) (n : Bool) (w : BitVec 256) : (l.setM n w).st = l.st := rfl
@[simp] theorem Slot.setM_mode (l : Slot) (n : Bool) (w : BitVec 256) : (l.setM n w).mode = l.mode := rfl
@[simp] theorem Slot.setM_pc (l : Slot) (n : Bool) (w : BitVec 256) : (l.setM n w).pc = l.pc := rfl
@[simp] theorem Slot.setM_x (l : Slot) (n : Bool) (w : BitVec 256) : (l.setM n w).x = l.x := rfl
@[simp] theorem Slot.setM_v (l : Slot) (n : Bool) (w : BitVec 256) : (l.setM n w).v = l.v := rfl
@[simp] theorem Slot.setM_p (l : Slot) (n : Bool) (w : BitVec 256) : (l.setM n w).p = l.p := rfl
@[simp] theorem Slot.setM_xfull (l : Slot) (n : Bool) (w : BitVec 256) : (l.setM n w).xfull = l.xfull := rfl
@[simp] theorem Slot.setM_vfull (l : Slot) (n : Bool) (w : BitVec 256) : (l.setM n w).vfull = l.vfull := rfl
@[simp] theorem Slot.setM_gen (l : Slot) (n : Bool) (w : BitVec 256) : (l.setM n w).gen = l.gen := rfl
@[simp] theorem Slot.setM_intrap (l : Slot) (n : Bool) (w : BitVec 256) : (l.setM n w).intrap = l.intrap := rfl
@[simp] theorem Slot.setM_sm (l : Slot) (n : Bool) (w : BitVec 256) : (l.setM n w).sm = l.sm := rfl
@[simp] theorem Slot.setM_sd (l : Slot) (n : Bool) (w : BitVec 256) : (l.setM n w).sd = l.sd := rfl
@[simp] theorem Slot.setM_cdq (l : Slot) (n : Bool) (w : BitVec 256) : (l.setM n w).cdq = l.cdq := rfl
@[simp] theorem Slot.setM_prio (l : Slot) (n : Bool) (w : BitVec 256) : (l.setM n w).prio = l.prio := rfl
@[simp] theorem Slot.setM_tvec (l : Slot) (n : Bool) (w : BitVec 256) : (l.setM n w).tvec = l.tvec := rfl
@[simp] theorem Slot.setM_tepc (l : Slot) (n : Bool) (w : BitVec 256) : (l.setM n w).tepc = l.tepc := rfl
@[simp] theorem Slot.setM_tcause (l : Slot) (n : Bool) (w : BitVec 256) : (l.setM n w).tcause = l.tcause := rfl
@[simp] theorem Slot.setM_tval (l : Slot) (n : Bool) (w : BitVec 256) : (l.setM n w).tval = l.tval := rfl
@[simp] theorem Slot.setM_xferid (l : Slot) (n : Bool) (w : BitVec 256) : (l.setM n w).xferid = l.xferid := rfl
@[simp] theorem Slot.setM_cdlost (l : Slot) (n : Bool) (w : BitVec 256) : (l.setM n w).cdlost = l.cdlost := rfl
@[simp] theorem Slot.setM_spnlim (l : Slot) (n : Bool) (w : BitVec 256) : (l.setM n w).spnlim = l.spnlim := rfl
@[simp] theorem Slot.setM_rmode (l : Slot) (n : Bool) (w : BitVec 256) : (l.setM n w).rmode = l.rmode := rfl
@[simp] theorem Slot.setM_axen (l : Slot) (n : Bool) (w : BitVec 256) : (l.setM n w).axen = l.axen := rfl
@[simp] theorem Slot.setM_rctr (l : Slot) (n : Bool) (w : BitVec 256) : (l.setM n w).rctr = l.rctr := rfl
@[simp] theorem Slot.setM_rsrc (l : Slot) (n : Bool) (w : BitVec 256) : (l.setM n w).rsrc = l.rsrc := rfl
@[simp] theorem Slot.setM_rtbase (l : Slot) (n : Bool) (w : BitVec 256) : (l.setM n w).rtbase = l.rtbase := rfl
@[simp] theorem Slot.setM_rtlen (l : Slot) (n : Bool) (w : BitVec 256) : (l.setM n w).rtlen = l.rtlen := rfl
@[simp] theorem Slot.setM_rtidx (l : Slot) (n : Bool) (w : BitVec 256) : (l.setM n w).rtidx = l.rtidx := rfl
@[simp] theorem Slot.setM_sepc (l : Slot) (n : Bool) (w : BitVec 256) : (l.setM n w).sepc = l.sepc := rfl
@[simp] theorem Slot.setM_scause (l : Slot) (n : Bool) (w : BitVec 256) : (l.setM n w).scause = l.scause := rfl
@[simp] theorem Slot.setM_sval (l : Slot) (n : Bool) (w : BitVec 256) : (l.setM n w).sval = l.sval := rfl
@[simp] theorem Slot.setM_sscratch (l : Slot) (n : Bool) (w : BitVec 256) : (l.setM n w).sscratch = l.sscratch := rfl
@[simp] theorem Slot.setM_asyncs (l : Slot) (n : Bool) (w : BitVec 256) : (l.setM n w).asyncs = l.asyncs := rfl
@[simp] theorem Slot.setM_callp (l : Slot) (n : Bool) (w : BitVec 256) : (l.setM n w).callp = l.callp := rfl
@[simp] theorem Slot.setM_callp0 (l : Slot) (n : Bool) (w : BitVec 256) : (l.setM n w).callp0 = l.callp0 := rfl
@[simp] theorem Slot.setM_spawns (l : Slot) (n : Bool) (w : BitVec 256) : (l.setM n w).spawns = l.spawns := rfl
@[simp] theorem Slot.setM_triggered (l : Slot) (n : Bool) (w : BitVec 256) : (l.setM n w).triggered = l.triggered := rfl
@[simp] theorem Slot.setM_wait (l : Slot) (n : Bool) (w : BitVec 256) : (l.setM n w).wait = l.wait := rfl
@[simp] theorem Slot.setM_joinAns (l : Slot) (n : Bool) (w : BitVec 256) : (l.setM n w).joinAns = l.joinAns := rfl
@[simp] theorem Slot.setM_streams (l : Slot) (n : Bool) (w : BitVec 256) : (l.setM n w).streams = l.streams := rfl
@[simp] theorem Slot.setM_issued (l : Slot) (n : Bool) (w : BitVec 256) : (l.setM n w).issued = l.issued := rfl
@[simp] theorem Slot.setM_waited (l : Slot) (n : Bool) (w : BitVec 256) : (l.setM n w).waited = l.waited := rfl
@[simp] theorem Slot.setM_age (l : Slot) (n : Bool) (w : BitVec 256) : (l.setM n w).age = l.age := rfl
@[simp] theorem Slot.setM_prefetched (l : Slot) (n : Bool) (w : BitVec 256) : (l.setM n w).prefetched = l.prefetched := rfl
@[simp] theorem Slot.setM_clk (l : Slot) (n : Bool) (w : BitVec 256) : (l.setM n w).clk = l.clk := rfl
@[simp] theorem Slot.setM_fences (l : Slot) (n : Bool) (w : BitVec 256) : (l.setM n w).fences = l.fences := rfl
@[simp] theorem Slot.setM_heard (l : Slot) (n : Bool) (w : BitVec 256) : (l.setM n w).heard = l.heard := rfl
@[simp] theorem Slot.setM_castled (l : Slot) (n : Bool) (w : BitVec 256) : (l.setM n w).castled = l.castled := rfl

/-! ### Core.onSlot -/

@[simp] theorem Core.onSlot_id (c : Core) (k : SlotNo) (f : Slot → Slot) : (c.onSlot k f).id = c.id := rfl
@[simp] theorem Core.onSlot_tenant (c : Core) (k : SlotNo) (f : Slot → Slot) : (c.onSlot k f).tenant = c.tenant := rfl
@[simp] theorem Core.onSlot_launch (c : Core) (k : SlotNo) (f : Slot → Slot) : (c.onSlot k f).launch = c.launch := rfl
@[simp] theorem Core.onSlot_hbase (c : Core) (k : SlotNo) (f : Slot → Slot) : (c.onSlot k f).hbase = c.hbase := rfl
@[simp] theorem Core.onSlot_hlim (c : Core) (k : SlotNo) (f : Slot → Slot) : (c.onSlot k f).hlim = c.hlim := rfl
@[simp] theorem Core.onSlot_aqDepth (c : Core) (k : SlotNo) (f : Slot → Slot) : (c.onSlot k f).aqDepth = c.aqDepth := rfl
@[simp] theorem Core.onSlot_aqBase (c : Core) (k : SlotNo) (f : Slot → Slot) : (c.onSlot k f).aqBase = c.aqBase := rfl
@[simp] theorem Core.onSlot_aqHead (c : Core) (k : SlotNo) (f : Slot → Slot) : (c.onSlot k f).aqHead = c.aqHead := rfl
@[simp] theorem Core.onSlot_aqTail (c : Core) (k : SlotNo) (f : Slot → Slot) : (c.onSlot k f).aqTail = c.aqTail := rfl
@[simp] theorem Core.onSlot_spillptr (c : Core) (k : SlotNo) (f : Slot → Slot) : (c.onSlot k f).spillptr = c.spillptr := rfl
@[simp] theorem Core.onSlot_spillHead (c : Core) (k : SlotNo) (f : Slot → Slot) : (c.onSlot k f).spillHead = c.spillHead := rfl
@[simp] theorem Core.onSlot_spillTail (c : Core) (k : SlotNo) (f : Slot → Slot) : (c.onSlot k f).spillTail = c.spillTail := rfl
@[simp] theorem Core.onSlot_spillStopped (c : Core) (k : SlotNo) (f : Slot → Slot) : (c.onSlot k f).spillStopped = c.spillStopped := rfl
@[simp] theorem Core.onSlot_seed (c : Core) (k : SlotNo) (f : Slot → Slot) : (c.onSlot k f).seed = c.seed := rfl
@[simp] theorem Core.onSlot_mmprog (c : Core) (k : SlotNo) (f : Slot → Slot) : (c.onSlot k f).mmprog = c.mmprog := rfl
@[simp] theorem Core.onSlot_ibBase (c : Core) (k : SlotNo) (f : Slot → Slot) : (c.onSlot k f).ibBase = c.ibBase := rfl
@[simp] theorem Core.onSlot_ibCap (c : Core) (k : SlotNo) (f : Slot → Slot) : (c.onSlot k f).ibCap = c.ibCap := rfl
@[simp] theorem Core.onSlot_tcfg (c : Core) (k : SlotNo) (f : Slot → Slot) : (c.onSlot k f).tcfg = c.tcfg := rfl
@[simp] theorem Core.onSlot_tnode (c : Core) (k : SlotNo) (f : Slot → Slot) : (c.onSlot k f).tnode = c.tnode := rfl
@[simp] theorem Core.onSlot_tleaf (c : Core) (k : SlotNo) (f : Slot → Slot) : (c.onSlot k f).tleaf = c.tleaf := rfl
@[simp] theorem Core.onSlot_rclk (c : Core) (k : SlotNo) (f : Slot → Slot) : (c.onSlot k f).rclk = c.rclk := rfl
@[simp] theorem Core.onSlot_regid (c : Core) (k : SlotNo) (f : Slot → Slot) : (c.onSlot k f).regid = c.regid := rfl
@[simp] theorem Core.onSlot_eseq (c : Core) (k : SlotNo) (f : Slot → Slot) : (c.onSlot k f).eseq = c.eseq := rfl
@[simp] theorem Core.onSlot_jbase (c : Core) (k : SlotNo) (f : Slot → Slot) : (c.onSlot k f).jbase = c.jbase := rfl
@[simp] theorem Core.onSlot_jptr (c : Core) (k : SlotNo) (f : Slot → Slot) : (c.onSlot k f).jptr = c.jptr := rfl
@[simp] theorem Core.onSlot_jlim (c : Core) (k : SlotNo) (f : Slot → Slot) : (c.onSlot k f).jlim = c.jlim := rfl
@[simp] theorem Core.onSlot_sentmin (c : Core) (k : SlotNo) (f : Slot → Slot) : (c.onSlot k f).sentmin = c.sentmin := rfl
@[simp] theorem Core.onSlot_jmode (c : Core) (k : SlotNo) (f : Slot → Slot) : (c.onSlot k f).jmode = c.jmode := rfl
@[simp] theorem Core.onSlot_shp (c : Core) (k : SlotNo) (f : Slot → Slot) : (c.onSlot k f).shp = c.shp := rfl
@[simp] theorem Core.onSlot_xcnt (c : Core) (k : SlotNo) (f : Slot → Slot) : (c.onSlot k f).xcnt = c.xcnt := rfl
@[simp] theorem Core.onSlot_monsel (c : Core) (k : SlotNo) (f : Slot → Slot) : (c.onSlot k f).monsel = c.monsel := rfl
@[simp] theorem Core.onSlot_monmin (c : Core) (k : SlotNo) (f : Slot → Slot) : (c.onSlot k f).monmin = c.monmin := rfl
@[simp] theorem Core.onSlot_monmax (c : Core) (k : SlotNo) (f : Slot → Slot) : (c.onSlot k f).monmax = c.monmax := rfl
@[simp] theorem Core.onSlot_mbin (c : Core) (k : SlotNo) (f : Slot → Slot) : (c.onSlot k f).mbin = c.mbin := rfl
@[simp] theorem Core.onSlot_svec (c : Core) (k : SlotNo) (f : Slot → Slot) : (c.onSlot k f).svec = c.svec := rfl
@[simp] theorem Core.onSlot_ptroot (c : Core) (k : SlotNo) (f : Slot → Slot) : (c.onSlot k f).ptroot = c.ptroot := rfl
@[simp] theorem Core.onSlot_saveptr (c : Core) (k : SlotNo) (f : Slot → Slot) : (c.onSlot k f).saveptr = c.saveptr := rfl
@[simp] theorem Core.onSlot_slice (c : Core) (k : SlotNo) (f : Slot → Slot) : (c.onSlot k f).slice = c.slice := rfl
@[simp] theorem Core.onSlot_waitbud (c : Core) (k : SlotNo) (f : Slot → Slot) : (c.onSlot k f).waitbud = c.waitbud := rfl
@[simp] theorem Core.onSlot_acc (c : Core) (k : SlotNo) (f : Slot → Slot) : (c.onSlot k f).acc = c.acc := rfl
@[simp] theorem Core.onSlot_mat (c : Core) (k : SlotNo) (f : Slot → Slot) : (c.onSlot k f).mat = c.mat := rfl
@[simp] theorem Core.onSlot_copy (c : Core) (k : SlotNo) (f : Slot → Slot) : (c.onSlot k f).copy = c.copy := rfl
@[simp] theorem Core.onSlot_vch (c : Core) (k : SlotNo) (f : Slot → Slot) : (c.onSlot k f).vch = c.vch := rfl
@[simp] theorem Core.onSlot_gemvs (c : Core) (k : SlotNo) (f : Slot → Slot) : (c.onSlot k f).gemvs = c.gemvs := rfl
@[simp] theorem Core.onSlot_codes (c : Core) (k : SlotNo) (f : Slot → Slot) : (c.onSlot k f).codes = c.codes := rfl
@[simp] theorem Core.onSlot_tree (c : Core) (k : SlotNo) (f : Slot → Slot) : (c.onSlot k f).tree = c.tree := rfl
@[simp] theorem Core.onSlot_forks (c : Core) (k : SlotNo) (f : Slot → Slot) : (c.onSlot k f).forks = c.forks := rfl
@[simp] theorem Core.onSlot_unacked (c : Core) (k : SlotNo) (f : Slot → Slot) : (c.onSlot k f).unacked = c.unacked := rfl
@[simp] theorem Core.onSlot_cancels (c : Core) (k : SlotNo) (f : Slot → Slot) : (c.onSlot k f).cancels = c.cancels := rfl
@[simp] theorem Core.onSlot_cancelMin (c : Core) (k : SlotNo) (f : Slot → Slot) : (c.onSlot k f).cancelMin = c.cancelMin := rfl
@[simp] theorem Core.onSlot_wb (c : Core) (k : SlotNo) (f : Slot → Slot) : (c.onSlot k f).wb = c.wb := rfl
@[simp] theorem Core.onSlot_tlb (c : Core) (k : SlotNo) (f : Slot → Slot) : (c.onSlot k f).tlb = c.tlb := rfl
@[simp] theorem Core.onSlot_rlb (c : Core) (k : SlotNo) (f : Slot → Slot) : (c.onSlot k f).rlb = c.rlb := rfl
@[simp] theorem Core.onSlot_rr (c : Core) (k : SlotNo) (f : Slot → Slot) : (c.onSlot k f).rr = c.rr := rfl
@[simp] theorem Core.onSlot_coxFree (c : Core) (k : SlotNo) (f : Slot → Slot) : (c.onSlot k f).coxFree = c.coxFree := rfl
@[simp] theorem Core.onSlot_halted (c : Core) (k : SlotNo) (f : Slot → Slot) : (c.onSlot k f).halted = c.halted := rfl
@[simp] theorem Core.onSlot_saved (c : Core) (k : SlotNo) (f : Slot → Slot) : (c.onSlot k f).saved = c.saved := rfl
@[simp] theorem Core.onSlot_saving (c : Core) (k : SlotNo) (f : Slot → Slot) : (c.onSlot k f).saving = c.saving := rfl
@[simp] theorem Core.onSlot_saveSeq (c : Core) (k : SlotNo) (f : Slot → Slot) : (c.onSlot k f).saveSeq = c.saveSeq := rfl
@[simp] theorem Core.onSlot_objs (c : Core) (k : SlotNo) (f : Slot → Slot) : (c.onSlot k f).objs = c.objs := rfl
@[simp] theorem Core.onSlot_treeSpoiled (c : Core) (k : SlotNo) (f : Slot → Slot) : (c.onSlot k f).treeSpoiled = c.treeSpoiled := rfl
@[simp] theorem Core.onSlot_droop (c : Core) (k : SlotNo) (f : Slot → Slot) : (c.onSlot k f).droop = c.droop := rfl
@[simp] theorem Core.onSlot_issued (c : Core) (k : SlotNo) (f : Slot → Slot) : (c.onSlot k f).issued = c.issued := rfl
@[simp] theorem Core.onSlot_cycles (c : Core) (k : SlotNo) (f : Slot → Slot) : (c.onSlot k f).cycles = c.cycles := rfl
@[simp] theorem Core.onSlot_idle (c : Core) (k : SlotNo) (f : Slot → Slot) : (c.onSlot k f).idle = c.idle := rfl
@[simp] theorem Core.onSlot_base (c : Core) (k : SlotNo) (f : Slot → Slot) : (c.onSlot k f).base = c.base := rfl
@[simp] theorem Core.onSlot_marks (c : Core) (k : SlotNo) (f : Slot → Slot) : (c.onSlot k f).marks = c.marks := rfl

/-! ### Core.count and Core.countEvents -/

@[simp] theorem Core.count_id (c : Core) (i : Fin 16) (n : Nat) : (c.count i n).id = c.id := rfl
@[simp] theorem Core.count_slots (c : Core) (i : Fin 16) (n : Nat) : (c.count i n).slots = c.slots := rfl
@[simp] theorem Core.count_tenant (c : Core) (i : Fin 16) (n : Nat) : (c.count i n).tenant = c.tenant := rfl
@[simp] theorem Core.count_launch (c : Core) (i : Fin 16) (n : Nat) : (c.count i n).launch = c.launch := rfl
@[simp] theorem Core.count_hbase (c : Core) (i : Fin 16) (n : Nat) : (c.count i n).hbase = c.hbase := rfl
@[simp] theorem Core.count_hlim (c : Core) (i : Fin 16) (n : Nat) : (c.count i n).hlim = c.hlim := rfl
@[simp] theorem Core.count_aqDepth (c : Core) (i : Fin 16) (n : Nat) : (c.count i n).aqDepth = c.aqDepth := rfl
@[simp] theorem Core.count_aqBase (c : Core) (i : Fin 16) (n : Nat) : (c.count i n).aqBase = c.aqBase := rfl
@[simp] theorem Core.count_aqHead (c : Core) (i : Fin 16) (n : Nat) : (c.count i n).aqHead = c.aqHead := rfl
@[simp] theorem Core.count_aqTail (c : Core) (i : Fin 16) (n : Nat) : (c.count i n).aqTail = c.aqTail := rfl
@[simp] theorem Core.count_spillptr (c : Core) (i : Fin 16) (n : Nat) : (c.count i n).spillptr = c.spillptr := rfl
@[simp] theorem Core.count_spillHead (c : Core) (i : Fin 16) (n : Nat) : (c.count i n).spillHead = c.spillHead := rfl
@[simp] theorem Core.count_spillTail (c : Core) (i : Fin 16) (n : Nat) : (c.count i n).spillTail = c.spillTail := rfl
@[simp] theorem Core.count_spillStopped (c : Core) (i : Fin 16) (n : Nat) : (c.count i n).spillStopped = c.spillStopped := rfl
@[simp] theorem Core.count_seed (c : Core) (i : Fin 16) (n : Nat) : (c.count i n).seed = c.seed := rfl
@[simp] theorem Core.count_mmprog (c : Core) (i : Fin 16) (n : Nat) : (c.count i n).mmprog = c.mmprog := rfl
@[simp] theorem Core.count_ibBase (c : Core) (i : Fin 16) (n : Nat) : (c.count i n).ibBase = c.ibBase := rfl
@[simp] theorem Core.count_ibCap (c : Core) (i : Fin 16) (n : Nat) : (c.count i n).ibCap = c.ibCap := rfl
@[simp] theorem Core.count_tcfg (c : Core) (i : Fin 16) (n : Nat) : (c.count i n).tcfg = c.tcfg := rfl
@[simp] theorem Core.count_tnode (c : Core) (i : Fin 16) (n : Nat) : (c.count i n).tnode = c.tnode := rfl
@[simp] theorem Core.count_tleaf (c : Core) (i : Fin 16) (n : Nat) : (c.count i n).tleaf = c.tleaf := rfl
@[simp] theorem Core.count_rclk (c : Core) (i : Fin 16) (n : Nat) : (c.count i n).rclk = c.rclk := rfl
@[simp] theorem Core.count_regid (c : Core) (i : Fin 16) (n : Nat) : (c.count i n).regid = c.regid := rfl
@[simp] theorem Core.count_eseq (c : Core) (i : Fin 16) (n : Nat) : (c.count i n).eseq = c.eseq := rfl
@[simp] theorem Core.count_jbase (c : Core) (i : Fin 16) (n : Nat) : (c.count i n).jbase = c.jbase := rfl
@[simp] theorem Core.count_jptr (c : Core) (i : Fin 16) (n : Nat) : (c.count i n).jptr = c.jptr := rfl
@[simp] theorem Core.count_jlim (c : Core) (i : Fin 16) (n : Nat) : (c.count i n).jlim = c.jlim := rfl
@[simp] theorem Core.count_sentmin (c : Core) (i : Fin 16) (n : Nat) : (c.count i n).sentmin = c.sentmin := rfl
@[simp] theorem Core.count_jmode (c : Core) (i : Fin 16) (n : Nat) : (c.count i n).jmode = c.jmode := rfl
@[simp] theorem Core.count_shp (c : Core) (i : Fin 16) (n : Nat) : (c.count i n).shp = c.shp := rfl
@[simp] theorem Core.count_monsel (c : Core) (i : Fin 16) (n : Nat) : (c.count i n).monsel = c.monsel := rfl
@[simp] theorem Core.count_monmin (c : Core) (i : Fin 16) (n : Nat) : (c.count i n).monmin = c.monmin := rfl
@[simp] theorem Core.count_monmax (c : Core) (i : Fin 16) (n : Nat) : (c.count i n).monmax = c.monmax := rfl
@[simp] theorem Core.count_mbin (c : Core) (i : Fin 16) (n : Nat) : (c.count i n).mbin = c.mbin := rfl
@[simp] theorem Core.count_svec (c : Core) (i : Fin 16) (n : Nat) : (c.count i n).svec = c.svec := rfl
@[simp] theorem Core.count_ptroot (c : Core) (i : Fin 16) (n : Nat) : (c.count i n).ptroot = c.ptroot := rfl
@[simp] theorem Core.count_saveptr (c : Core) (i : Fin 16) (n : Nat) : (c.count i n).saveptr = c.saveptr := rfl
@[simp] theorem Core.count_slice (c : Core) (i : Fin 16) (n : Nat) : (c.count i n).slice = c.slice := rfl
@[simp] theorem Core.count_waitbud (c : Core) (i : Fin 16) (n : Nat) : (c.count i n).waitbud = c.waitbud := rfl
@[simp] theorem Core.count_acc (c : Core) (i : Fin 16) (n : Nat) : (c.count i n).acc = c.acc := rfl
@[simp] theorem Core.count_mat (c : Core) (i : Fin 16) (n : Nat) : (c.count i n).mat = c.mat := rfl
@[simp] theorem Core.count_copy (c : Core) (i : Fin 16) (n : Nat) : (c.count i n).copy = c.copy := rfl
@[simp] theorem Core.count_vch (c : Core) (i : Fin 16) (n : Nat) : (c.count i n).vch = c.vch := rfl
@[simp] theorem Core.count_gemvs (c : Core) (i : Fin 16) (n : Nat) : (c.count i n).gemvs = c.gemvs := rfl
@[simp] theorem Core.count_codes (c : Core) (i : Fin 16) (n : Nat) : (c.count i n).codes = c.codes := rfl
@[simp] theorem Core.count_tree (c : Core) (i : Fin 16) (n : Nat) : (c.count i n).tree = c.tree := rfl
@[simp] theorem Core.count_forks (c : Core) (i : Fin 16) (n : Nat) : (c.count i n).forks = c.forks := rfl
@[simp] theorem Core.count_unacked (c : Core) (i : Fin 16) (n : Nat) : (c.count i n).unacked = c.unacked := rfl
@[simp] theorem Core.count_cancels (c : Core) (i : Fin 16) (n : Nat) : (c.count i n).cancels = c.cancels := rfl
@[simp] theorem Core.count_cancelMin (c : Core) (i : Fin 16) (n : Nat) : (c.count i n).cancelMin = c.cancelMin := rfl
@[simp] theorem Core.count_wb (c : Core) (i : Fin 16) (n : Nat) : (c.count i n).wb = c.wb := rfl
@[simp] theorem Core.count_tlb (c : Core) (i : Fin 16) (n : Nat) : (c.count i n).tlb = c.tlb := rfl
@[simp] theorem Core.count_rlb (c : Core) (i : Fin 16) (n : Nat) : (c.count i n).rlb = c.rlb := rfl
@[simp] theorem Core.count_rr (c : Core) (i : Fin 16) (n : Nat) : (c.count i n).rr = c.rr := rfl
@[simp] theorem Core.count_coxFree (c : Core) (i : Fin 16) (n : Nat) : (c.count i n).coxFree = c.coxFree := rfl
@[simp] theorem Core.count_halted (c : Core) (i : Fin 16) (n : Nat) : (c.count i n).halted = c.halted := rfl
@[simp] theorem Core.count_saved (c : Core) (i : Fin 16) (n : Nat) : (c.count i n).saved = c.saved := rfl
@[simp] theorem Core.count_saving (c : Core) (i : Fin 16) (n : Nat) : (c.count i n).saving = c.saving := rfl
@[simp] theorem Core.count_saveSeq (c : Core) (i : Fin 16) (n : Nat) : (c.count i n).saveSeq = c.saveSeq := rfl
@[simp] theorem Core.count_objs (c : Core) (i : Fin 16) (n : Nat) : (c.count i n).objs = c.objs := rfl
@[simp] theorem Core.count_treeSpoiled (c : Core) (i : Fin 16) (n : Nat) : (c.count i n).treeSpoiled = c.treeSpoiled := rfl
@[simp] theorem Core.count_droop (c : Core) (i : Fin 16) (n : Nat) : (c.count i n).droop = c.droop := rfl
@[simp] theorem Core.count_issued (c : Core) (i : Fin 16) (n : Nat) : (c.count i n).issued = c.issued := rfl
@[simp] theorem Core.count_cycles (c : Core) (i : Fin 16) (n : Nat) : (c.count i n).cycles = c.cycles := rfl
@[simp] theorem Core.count_idle (c : Core) (i : Fin 16) (n : Nat) : (c.count i n).idle = c.idle := rfl
@[simp] theorem Core.count_base (c : Core) (i : Fin 16) (n : Nat) : (c.count i n).base = c.base := rfl
@[simp] theorem Core.count_marks (c : Core) (i : Fin 16) (n : Nat) : (c.count i n).marks = c.marks := rfl
@[simp] theorem Core.countEvents_id (c : Core) (e : Events) : (c.countEvents e).id = c.id := by simp only [Core.countEvents, Core.count_id]
@[simp] theorem Core.countEvents_slots (c : Core) (e : Events) : (c.countEvents e).slots = c.slots := by simp only [Core.countEvents, Core.count_slots]
@[simp] theorem Core.countEvents_tenant (c : Core) (e : Events) : (c.countEvents e).tenant = c.tenant := by simp only [Core.countEvents, Core.count_tenant]
@[simp] theorem Core.countEvents_launch (c : Core) (e : Events) : (c.countEvents e).launch = c.launch := by simp only [Core.countEvents, Core.count_launch]
@[simp] theorem Core.countEvents_hbase (c : Core) (e : Events) : (c.countEvents e).hbase = c.hbase := by simp only [Core.countEvents, Core.count_hbase]
@[simp] theorem Core.countEvents_hlim (c : Core) (e : Events) : (c.countEvents e).hlim = c.hlim := by simp only [Core.countEvents, Core.count_hlim]
@[simp] theorem Core.countEvents_aqDepth (c : Core) (e : Events) : (c.countEvents e).aqDepth = c.aqDepth := by simp only [Core.countEvents, Core.count_aqDepth]
@[simp] theorem Core.countEvents_aqBase (c : Core) (e : Events) : (c.countEvents e).aqBase = c.aqBase := by simp only [Core.countEvents, Core.count_aqBase]
@[simp] theorem Core.countEvents_aqHead (c : Core) (e : Events) : (c.countEvents e).aqHead = c.aqHead := by simp only [Core.countEvents, Core.count_aqHead]
@[simp] theorem Core.countEvents_aqTail (c : Core) (e : Events) : (c.countEvents e).aqTail = c.aqTail := by simp only [Core.countEvents, Core.count_aqTail]
@[simp] theorem Core.countEvents_spillptr (c : Core) (e : Events) : (c.countEvents e).spillptr = c.spillptr := by simp only [Core.countEvents, Core.count_spillptr]
@[simp] theorem Core.countEvents_spillHead (c : Core) (e : Events) : (c.countEvents e).spillHead = c.spillHead := by simp only [Core.countEvents, Core.count_spillHead]
@[simp] theorem Core.countEvents_spillTail (c : Core) (e : Events) : (c.countEvents e).spillTail = c.spillTail := by simp only [Core.countEvents, Core.count_spillTail]
@[simp] theorem Core.countEvents_spillStopped (c : Core) (e : Events) : (c.countEvents e).spillStopped = c.spillStopped := by simp only [Core.countEvents, Core.count_spillStopped]
@[simp] theorem Core.countEvents_seed (c : Core) (e : Events) : (c.countEvents e).seed = c.seed := by simp only [Core.countEvents, Core.count_seed]
@[simp] theorem Core.countEvents_mmprog (c : Core) (e : Events) : (c.countEvents e).mmprog = c.mmprog := by simp only [Core.countEvents, Core.count_mmprog]
@[simp] theorem Core.countEvents_ibBase (c : Core) (e : Events) : (c.countEvents e).ibBase = c.ibBase := by simp only [Core.countEvents, Core.count_ibBase]
@[simp] theorem Core.countEvents_ibCap (c : Core) (e : Events) : (c.countEvents e).ibCap = c.ibCap := by simp only [Core.countEvents, Core.count_ibCap]
@[simp] theorem Core.countEvents_tcfg (c : Core) (e : Events) : (c.countEvents e).tcfg = c.tcfg := by simp only [Core.countEvents, Core.count_tcfg]
@[simp] theorem Core.countEvents_tnode (c : Core) (e : Events) : (c.countEvents e).tnode = c.tnode := by simp only [Core.countEvents, Core.count_tnode]
@[simp] theorem Core.countEvents_tleaf (c : Core) (e : Events) : (c.countEvents e).tleaf = c.tleaf := by simp only [Core.countEvents, Core.count_tleaf]
@[simp] theorem Core.countEvents_rclk (c : Core) (e : Events) : (c.countEvents e).rclk = c.rclk := by simp only [Core.countEvents, Core.count_rclk]
@[simp] theorem Core.countEvents_regid (c : Core) (e : Events) : (c.countEvents e).regid = c.regid := by simp only [Core.countEvents, Core.count_regid]
@[simp] theorem Core.countEvents_eseq (c : Core) (e : Events) : (c.countEvents e).eseq = c.eseq := by simp only [Core.countEvents, Core.count_eseq]
@[simp] theorem Core.countEvents_jbase (c : Core) (e : Events) : (c.countEvents e).jbase = c.jbase := by simp only [Core.countEvents, Core.count_jbase]
@[simp] theorem Core.countEvents_jptr (c : Core) (e : Events) : (c.countEvents e).jptr = c.jptr := by simp only [Core.countEvents, Core.count_jptr]
@[simp] theorem Core.countEvents_jlim (c : Core) (e : Events) : (c.countEvents e).jlim = c.jlim := by simp only [Core.countEvents, Core.count_jlim]
@[simp] theorem Core.countEvents_sentmin (c : Core) (e : Events) : (c.countEvents e).sentmin = c.sentmin := by simp only [Core.countEvents, Core.count_sentmin]
@[simp] theorem Core.countEvents_jmode (c : Core) (e : Events) : (c.countEvents e).jmode = c.jmode := by simp only [Core.countEvents, Core.count_jmode]
@[simp] theorem Core.countEvents_shp (c : Core) (e : Events) : (c.countEvents e).shp = c.shp := by simp only [Core.countEvents, Core.count_shp]
@[simp] theorem Core.countEvents_monsel (c : Core) (e : Events) : (c.countEvents e).monsel = c.monsel := by simp only [Core.countEvents, Core.count_monsel]
@[simp] theorem Core.countEvents_monmin (c : Core) (e : Events) : (c.countEvents e).monmin = c.monmin := by simp only [Core.countEvents, Core.count_monmin]
@[simp] theorem Core.countEvents_monmax (c : Core) (e : Events) : (c.countEvents e).monmax = c.monmax := by simp only [Core.countEvents, Core.count_monmax]
@[simp] theorem Core.countEvents_mbin (c : Core) (e : Events) : (c.countEvents e).mbin = c.mbin := by simp only [Core.countEvents, Core.count_mbin]
@[simp] theorem Core.countEvents_svec (c : Core) (e : Events) : (c.countEvents e).svec = c.svec := by simp only [Core.countEvents, Core.count_svec]
@[simp] theorem Core.countEvents_ptroot (c : Core) (e : Events) : (c.countEvents e).ptroot = c.ptroot := by simp only [Core.countEvents, Core.count_ptroot]
@[simp] theorem Core.countEvents_saveptr (c : Core) (e : Events) : (c.countEvents e).saveptr = c.saveptr := by simp only [Core.countEvents, Core.count_saveptr]
@[simp] theorem Core.countEvents_slice (c : Core) (e : Events) : (c.countEvents e).slice = c.slice := by simp only [Core.countEvents, Core.count_slice]
@[simp] theorem Core.countEvents_waitbud (c : Core) (e : Events) : (c.countEvents e).waitbud = c.waitbud := by simp only [Core.countEvents, Core.count_waitbud]
@[simp] theorem Core.countEvents_acc (c : Core) (e : Events) : (c.countEvents e).acc = c.acc := by simp only [Core.countEvents, Core.count_acc]
@[simp] theorem Core.countEvents_mat (c : Core) (e : Events) : (c.countEvents e).mat = c.mat := by simp only [Core.countEvents, Core.count_mat]
@[simp] theorem Core.countEvents_copy (c : Core) (e : Events) : (c.countEvents e).copy = c.copy := by simp only [Core.countEvents, Core.count_copy]
@[simp] theorem Core.countEvents_vch (c : Core) (e : Events) : (c.countEvents e).vch = c.vch := by simp only [Core.countEvents, Core.count_vch]
@[simp] theorem Core.countEvents_gemvs (c : Core) (e : Events) : (c.countEvents e).gemvs = c.gemvs := by simp only [Core.countEvents, Core.count_gemvs]
@[simp] theorem Core.countEvents_codes (c : Core) (e : Events) : (c.countEvents e).codes = c.codes := by simp only [Core.countEvents, Core.count_codes]
@[simp] theorem Core.countEvents_tree (c : Core) (e : Events) : (c.countEvents e).tree = c.tree := by simp only [Core.countEvents, Core.count_tree]
@[simp] theorem Core.countEvents_forks (c : Core) (e : Events) : (c.countEvents e).forks = c.forks := by simp only [Core.countEvents, Core.count_forks]
@[simp] theorem Core.countEvents_unacked (c : Core) (e : Events) : (c.countEvents e).unacked = c.unacked := by simp only [Core.countEvents, Core.count_unacked]
@[simp] theorem Core.countEvents_cancels (c : Core) (e : Events) : (c.countEvents e).cancels = c.cancels := by simp only [Core.countEvents, Core.count_cancels]
@[simp] theorem Core.countEvents_cancelMin (c : Core) (e : Events) : (c.countEvents e).cancelMin = c.cancelMin := by simp only [Core.countEvents, Core.count_cancelMin]
@[simp] theorem Core.countEvents_wb (c : Core) (e : Events) : (c.countEvents e).wb = c.wb := by simp only [Core.countEvents, Core.count_wb]
@[simp] theorem Core.countEvents_tlb (c : Core) (e : Events) : (c.countEvents e).tlb = c.tlb := by simp only [Core.countEvents, Core.count_tlb]
@[simp] theorem Core.countEvents_rlb (c : Core) (e : Events) : (c.countEvents e).rlb = c.rlb := by simp only [Core.countEvents, Core.count_rlb]
@[simp] theorem Core.countEvents_rr (c : Core) (e : Events) : (c.countEvents e).rr = c.rr := by simp only [Core.countEvents, Core.count_rr]
@[simp] theorem Core.countEvents_coxFree (c : Core) (e : Events) : (c.countEvents e).coxFree = c.coxFree := by simp only [Core.countEvents, Core.count_coxFree]
@[simp] theorem Core.countEvents_halted (c : Core) (e : Events) : (c.countEvents e).halted = c.halted := by simp only [Core.countEvents, Core.count_halted]
@[simp] theorem Core.countEvents_saved (c : Core) (e : Events) : (c.countEvents e).saved = c.saved := by simp only [Core.countEvents, Core.count_saved]
@[simp] theorem Core.countEvents_saving (c : Core) (e : Events) : (c.countEvents e).saving = c.saving := by simp only [Core.countEvents, Core.count_saving]
@[simp] theorem Core.countEvents_saveSeq (c : Core) (e : Events) : (c.countEvents e).saveSeq = c.saveSeq := by simp only [Core.countEvents, Core.count_saveSeq]
@[simp] theorem Core.countEvents_objs (c : Core) (e : Events) : (c.countEvents e).objs = c.objs := by simp only [Core.countEvents, Core.count_objs]
@[simp] theorem Core.countEvents_treeSpoiled (c : Core) (e : Events) : (c.countEvents e).treeSpoiled = c.treeSpoiled := by simp only [Core.countEvents, Core.count_treeSpoiled]
@[simp] theorem Core.countEvents_droop (c : Core) (e : Events) : (c.countEvents e).droop = c.droop := by simp only [Core.countEvents, Core.count_droop]
@[simp] theorem Core.countEvents_issued (c : Core) (e : Events) : (c.countEvents e).issued = c.issued := by simp only [Core.countEvents, Core.count_issued]
@[simp] theorem Core.countEvents_cycles (c : Core) (e : Events) : (c.countEvents e).cycles = c.cycles := by simp only [Core.countEvents, Core.count_cycles]
@[simp] theorem Core.countEvents_idle (c : Core) (e : Events) : (c.countEvents e).idle = c.idle := by simp only [Core.countEvents, Core.count_idle]
@[simp] theorem Core.countEvents_base (c : Core) (e : Events) : (c.countEvents e).base = c.base := by simp only [Core.countEvents, Core.count_base]
@[simp] theorem Core.countEvents_marks (c : Core) (e : Events) : (c.countEvents e).marks = c.marks := by simp only [Core.countEvents, Core.count_marks]

/-! ### Reading back what an update wrote -/

/-- A table read at the key just set. -/
@[simp] theorem tabGet_tabPut_same {κ α : Type} [DecidableEq κ] (t : List (κ × α)) (q : κ) (v : α) :
    tabGet? (tabPut t q v) q = some v := by
  induction t with
  | nil => simp [tabPut, tabGet?]
  | cons e t ih =>
    obtain ⟨k, w⟩ := e
    by_cases h : k = q <;> simp [tabPut, tabGet?, h, ih]

/-- A table read at another key than the one just set. -/
theorem tabGet_tabPut_other {κ α : Type} [DecidableEq κ] (t : List (κ × α)) {q r : κ} (v : α) (h : r ≠ q) :
    tabGet? (tabPut t q v) r = tabGet? t r := by
  induction t with
  | nil => simp [tabPut, tabGet?, h.symm]
  | cons e t ih =>
    obtain ⟨k, w⟩ := e
    by_cases hk : k = q
    · subst hk; simp [tabPut, tabGet?, h.symm]
    · by_cases hr : k = r
      · subst hr; simp [tabPut, tabGet?, hk]
      · simp [tabPut, tabGet?, hk, hr, ih]

/-- A core just set reads back. -/
@[simp] theorem State.getCore_putCore (s : State) (c : CoreId) (k : Core) : (s.putCore c k).getCore c = k := by
  simp [State.getCore, State.putCore]

/-- Setting a core leaves every other core. -/
theorem State.getCore_putCore_other (s : State) {c d : CoreId} (k : Core) (h : d ≠ c) :
    (s.putCore c k).getCore d = s.getCore d := by
  simp [State.getCore, State.putCore, tabGet_tabPut_other _ _ h]

/-- A changed core reads back changed. -/
@[simp] theorem State.getCore_onCore (s : State) (c : CoreId) (f : Core → Core) :
    (s.onCore c f).getCore c = f (s.getCore c) := by simp [State.onCore]

/-- Changing a core leaves every other core. -/
theorem State.getCore_onCore_other (s : State) {c d : CoreId} (f : Core → Core) (h : d ≠ c) :
    (s.onCore c f).getCore d = s.getCore d := State.getCore_putCore_other s _ h

/-- A changed slot of a core reads back changed. -/
@[simp] theorem Core.getSlot_onSlot (c : Core) (k : SlotNo) (f : Slot → Slot) : (c.onSlot k f).getSlot k = f (c.getSlot k) := by
  simp [Core.getSlot, Core.onSlot]

/-- Changing a slot of a core leaves its other slots. -/
theorem Core.getSlot_onSlot_other (c : Core) {k j : SlotNo} (f : Slot → Slot) (h : j ≠ k) :
    (c.onSlot k f).getSlot j = c.getSlot j := by
  have h : k.toNat ≠ j.toNat := fun e => h (BitVec.eq_of_toNat_eq e.symm)
  simp [Core.getSlot, Core.onSlot, Vector.getElem_set_ne, h]

/-- The acting core, changed. -/
@[simp] theorem State.core_modCore (s : State) (f : Core → Core) : (s.modCore f).core = f s.core := by
  simp [State.core, State.modCore]

/-- The acting core after a change of the acting slot. -/
@[simp] theorem State.core_modSlot (s : State) (f : Slot → Slot) : (s.modSlot f).core = s.core.onSlot s.cur.slot f := by
  simp [State.core, State.modSlot, State.onSlot]

/-- A changed slot reads back changed. -/
@[simp] theorem State.getSlot_onSlot (s : State) (o : SlotId) (f : Slot → Slot) :
    (s.onSlot o f).getSlot o = f (s.getSlot o) := by simp [State.getSlot, State.onSlot]

/-- Changing a slot leaves every other slot of the module. -/
theorem State.getSlot_onSlot_other (s : State) {o q : SlotId} (f : Slot → Slot) (h : q ≠ o) :
    (s.onSlot o f).getSlot q = s.getSlot q := by
  obtain ⟨c, k⟩ := o
  obtain ⟨d, j⟩ := q
  by_cases hc : d = c
  · subst hc
    have hj : j ≠ k := fun e => h (by rw [e])
    simp [State.getSlot, State.onSlot, Core.getSlot_onSlot_other, hj]
  · simp [State.getSlot, State.onSlot, State.getCore_onCore_other _ _ hc]

/-- The acting slot, changed. -/
@[simp] theorem State.slot_modSlot (s : State) (f : Slot → Slot) : (s.modSlot f).slot = f s.slot := by
  simp [State.slot, State.modSlot]

/-- The acting slot after a change of its core that leaves its slots. -/
theorem State.slot_modCore (s : State) (f : Core → Core) (h : (f s.core).slots = s.core.slots) :
    (s.modCore f).slot = s.slot := by
  have h : (f (s.getCore s.cur.core)).slots = (s.getCore s.cur.core).slots := h
  simp [State.slot, State.modCore, State.getSlot, Core.getSlot, h]

/-! ### Registers -/

/-- x0 reads zero (R19). -/
@[simp] theorem Slot.getX_zero (l : Slot) : l.getX 0#5 = 0 := rfl

/-- p0 reads all ones (R19). -/
@[simp] theorem Slot.getP_zero (l : Slot) : l.getP 0#3 = BitVec.allOnes 16 := rfl

/-- x0 is always full (R19). -/
@[simp] theorem Slot.xIsFull_zero (l : Slot) : l.xIsFull 0#5 = true := rfl

/-- An x register just written reads back, but for x0 (R19). -/
theorem Slot.getX_setX (l : Slot) (n : XReg) (w : Word) : (l.setX n w).getX n = if n = 0 then 0 else w := by
  unfold Slot.setX Slot.getX
  split <;> simp

/-- Writing an x register leaves the others. -/
theorem Slot.getX_setX_other (l : Slot) {n q : XReg} (w : Word) (h : q ≠ n) : (l.setX n w).getX q = l.getX q := by
  have hn : n.toNat ≠ q.toNat := fun e => h (BitVec.eq_of_toNat_eq e.symm)
  by_cases h0 : n = 0
  · rw [Slot.setX, if_pos h0]
  · rw [Slot.setX, if_neg h0]
    simp only [Slot.getX, Vector.getElem_set_ne (h := hn)]

/-- A v register just written reads back. -/
@[simp] theorem Slot.getV_setV (l : Slot) (n : VReg) (w : VVal) : (l.setV n w).getV n = w := by
  simp [Slot.getV, Slot.setV]

/-- Writing a v register leaves the others. -/
theorem Slot.getV_setV_other (l : Slot) {n q : VReg} (w : VVal) (h : q ≠ n) : (l.setV n w).getV q = l.getV q := by
  have hn : n.toNat ≠ q.toNat := fun e => h (BitVec.eq_of_toNat_eq e.symm)
  simp [Slot.getV, Slot.setV, Vector.getElem_set_ne, hn]

end Sys2Proof.Machine
end

