-- ==== Sys2Proof/Laws/Ops.lean ====
section
/-! SUPPORT. What the shared operations do, each said once: how an instruction ends, the issue rule, traps, branches, and the scalar
forms. -/

namespace Sys2Proof.Machine

open Sys2Proof

/-! ### How an instruction ends -/

/-- A body ends in a next state, whatever stopped it. -/
theorem finish_next (s : State) (b : Body State) : ∃ t, finish s b = .next t := by
  unfold finish; split <;> exact ⟨_, rfl⟩

/-- A body that completed leaves its state, counted as issued (R122). -/
@[simp] theorem finish_ok (s t : State) : finish s (.ok t) = .next t.noteIssued := rfl

/-- Counting an instruction leaves memory. -/
@[simp] theorem State.mem_noteIssued (s : State) : s.noteIssued.mem = s.mem := rfl

/-- A changed core leaves memory. -/
@[simp] theorem State.mem_onCore (s : State) (c : CoreId) (f : Core → Core) : (s.onCore c f).mem = s.mem := rfl

/-- A changed slot leaves memory. -/
@[simp] theorem State.mem_onSlot (s : State) (o : SlotId) (f : Slot → Slot) : (s.onSlot o f).mem = s.mem := rfl

/-- A body that waits leaves its slot as it was, but for the wait; what it sent stays (R9). -/
theorem finish_wait (s t : State) (w : WaitRec) : finish s (.error (.wait t w)) = .next ((s.undoSlot t).setWait w) := rfl

/-- An instruction that waits leaves memory as its body did (R9). -/
@[simp] theorem State.mem_undoSlot (s t : State) : (s.undoSlot t).mem = t.mem := rfl

/-- A supervisor cause with CR.SEPC the instruction (R94, R111). -/
theorem finish_sup (s : State) (c : BitVec 16) (v : Word) :
    finish s (.error (.sup c v)) = .next (s.takeSup s.cur c v s.slot.pc) := rfl

/-- A user cause with CR.TEPC the instruction (R94, R110). -/
theorem finish_user (s : State) (c : BitVec 8) (v : Word) :
    finish s (.error (.user c v)) = .next (s.takeUser s.cur c v s.slot.pc s.slot.pc) := rfl

/-! ### Traps -/

/-- Taking a supervisor cause leaves memory (R111). -/
@[simp] theorem State.mem_takeSup (s : State) (o : SlotId) (c : BitVec 16) (v : Word) (e : Off) :
    (s.takeSup o c v e).mem = s.mem := by
  unfold State.takeSup; dsimp only; split
  · rfl
  · split <;> rfl

/-- Taking a user cause leaves memory (R110). -/
@[simp] theorem State.mem_takeUser (s : State) (o : SlotId) (c : BitVec 8) (v : Word) (e se : Off) :
    (s.takeUser o c v e se).mem = s.mem := by
  have r : (s.countRaised o c).mem = s.mem := by
    unfold State.countRaised; split
    · rfl
    · split <;> rfl
  unfold State.takeUser State.enterUser; dsimp only; split
  · rw [State.mem_takeSup, r]
  · split
    · rw [State.mem_takeSup, r]
    · split
      · exact r
      · rw [State.mem_takeSup]; exact r

/-- A runtime failure leaves every other core (R97). -/
theorem State.getCore_runtimeFailure (s : State) (o : SlotId) {d : CoreId} (h : d ≠ o.core) :
    (s.runtimeFailure o).getCore d = s.getCore d :=
  State.getCore_onCore_other s (fun c => c.onSlot o.slot fun l => { l with st := .stopped, wait := none }) h

/-- Taking a supervisor cause leaves every other core (R111). -/
theorem State.getCore_takeSup (s : State) (o : SlotId) (c : BitVec 16) (v : Word) (e : Off) {d : CoreId} (h : d ≠ o.core) :
    (s.takeSup o c v e).getCore d = s.getCore d := by
  unfold State.takeSup; dsimp only; split
  · exact (State.getCore_runtimeFailure _ o h).trans (State.getCore_onCore_other _ _ h)
  · split
    · exact State.getCore_onCore_other _ _ h
    · exact (State.getCore_runtimeFailure _ o h).trans (State.getCore_onCore_other _ _ h)

/-- A user cause outside a handler enters the user handler, where CR.TVEC is a code offset (R110). -/
theorem State.enterUser_enters (s : State) (o : SlotId) (c : BitVec 8) (v : Word) (e : Off) (t : Word) (h : codeOk t.toNat = true) :
    (s.enterUser o c v e t).getSlot o = { s.getSlot o with
      tepc := e, tcause := c, tval := v, intrap := true, wait := none, joinAns := none, pc := t.setWidth 20 } := by
  unfold State.enterUser
  simp only [h, if_true, State.getSlot_onSlot]

/-- What a code offset is (R18). -/
theorem codeOk_iff (t : Nat) : codeOk t = true ↔ t % 4 = 0 ∧ t ≤ 0x5FFFC := by simp [codeOk]

/-- A jump goes to its target, or takes FETCH (R18). -/
theorem State.goto_cases (s : State) (t : Word) :
    (codeOk t.toNat = true ∧ s.goto t = .ok (s.modSlot fun l => { l with pc := t.setWidth 20 })) ∨
      (codeOk t.toNat = false ∧ s.goto t = .error (.sup FKind.fetch.scause t)) := by
  unfold State.goto
  cases h : codeOk t.toNat
  · exact .inr ⟨rfl, rfl⟩
  · exact .inl ⟨rfl, rfl⟩

/-! ### The issue rule (R21, R23, R25) -/

/-- Full x registers pass the issue rule. -/
theorem issueRule_full (s : State) (srcs : List (XReg × Bool)) (dsts : List XReg)
    (hs : ∀ r ∈ srcs, s.slot.xIsFull r.1 = true) (hd : ∀ d ∈ dsts, s.slot.xIsFull d = true) :
    issueRule s (srcs.map fun r => (.x r.1, r.2)) (dsts.map .x) = .ok () := by
  have a : checkSrcs s (srcs.map fun r => (.x r.1, r.2)) = .ok () := by
    induction srcs with
    | nil => rfl
    | cons r l ih => simp_all [checkSrcs, Slot.srcEmpty]
  have b : checkDsts s (dsts.map .x) = .ok () := by
    induction dsts with
    | nil => rfl
    | cons r l ih => simp_all [checkDsts]
  have c : ((srcs.map fun r => (Reg.x r.1, r.2)).any (fun r => s.slot.wrongWay false r.1) ||
      (dsts.map Reg.x).any (s.slot.wrongWay true)) = false := by simp [Slot.wrongWay]
  unfold issueRule
  simp only [a, b, c]
  rfl

/-- The first empty source with its wait bit clear holds the instruction; with it set it takes EMPTY (R21). -/
theorem checkSrcs_empty (s : State) (r : Reg) (w : Bool) (l : List (Reg × Bool)) (h : s.slot.srcEmpty r = true) :
    checkSrcs s ((r, w) :: l) = if w then .error (.user cEMPTY (BitVec.ofNat 64 r.number)) else waitReg s r := by
  unfold checkSrcs; rw [if_pos h]

/-- A full source passes (R21). -/
theorem checkSrcs_full (s : State) (r : Reg) (w : Bool) (l : List (Reg × Bool)) (h : s.slot.srcEmpty r = false) :
    checkSrcs s ((r, w) :: l) = checkSrcs s l := by
  conv => lhs; unfold checkSrcs
  rw [h]; rfl

/-! ### Scalar forms (R98) -/

/-- A scalar operation on two registers, all full. -/
theorem aluRR_full (o : R3) (f : Word → Word → Word) (s : State) (h : s.FullX [o.a, o.b, o.d]) :
    aluRR o f s = .next (s.wroteX o.d (f (s.xv o.a) (s.xv o.b)) 4) := by
  have i := issueRule_full s [(o.a, o.wa), (o.b, o.wb)] [o.d] (by simp_all [State.FullX]) (by simp_all [State.FullX])
  simp only [List.map_cons, List.map_nil] at i
  unfold aluRR
  rw [i]; rfl

/-- A scalar operation on one register, both full. -/
theorem aluR_full (o : R2) (f : Word → Word) (s : State) (h : s.FullX [o.a, o.d]) :
    aluR o f s = .next (s.wroteX o.d (f (s.xv o.a)) 4) := by
  have i := issueRule_full s [(o.a, o.wa)] [o.d] (by simp_all [State.FullX]) (by simp_all [State.FullX])
  simp only [List.map_cons, List.map_nil] at i
  unfold aluR
  rw [i]; rfl

/-- A scalar result leaves memory. -/
@[simp] theorem State.mem_wroteX (s : State) (d : XReg) (v : Word) (n : Off) : (s.wroteX d v n).mem = s.mem := rfl

/-- A scalar result leaves every other core. -/
theorem State.getCore_wroteX (s : State) (d : XReg) (v : Word) (n : Off) {c : CoreId} (h : c ≠ s.cur.core) :
    (s.wroteX d v n).getCore c = s.getCore c :=
  (State.getCore_onCore_other _ _ h).trans <| (State.getCore_onCore_other _ _ h).trans (State.getCore_onCore_other _ _ h)

/-- A scalar result leaves every other context. -/
theorem State.getSlot_wroteX (s : State) (d : XReg) (v : Word) (n : Off) {o : SlotId} (h : o ≠ s.cur) :
    ((s.putX d v).advance n).getSlot o = s.getSlot o :=
  (State.getSlot_onSlot_other _ _ h).trans (State.getSlot_onSlot_other _ _ h)

/-- A power of two as a bit vector. -/
theorem getLsbD_ofNat_pow {w i j : Nat} (h : j < w) : (BitVec.ofNat w (2 ^ i)).getLsbD j = decide (i = j) := by
  rw [BitVec.getLsbD_ofNat, Nat.testBit_two_pow]; simp [h]

/-- A bit vector with a bit set to a value. -/
theorem getLsbD_setBit {w : Nat} (b : BitVec w) (i : Nat) (v : Bool) (h : i < w) : (setBit b i v).getLsbD i = v := by
  unfold setBit
  cases v
  · rw [if_neg (by decide), BitVec.getLsbD_and, BitVec.getLsbD_not, getLsbD_ofNat_pow h]; simp
  · rw [if_pos rfl, BitVec.getLsbD_or, getLsbD_ofNat_pow h]; simp

/-- The other bits of that bit vector. -/
theorem getLsbD_setBit_other {w : Nat} (b : BitVec w) {i j : Nat} (v : Bool) (h : j ≠ i) : (setBit b i v).getLsbD j = b.getLsbD j := by
  by_cases hj : j < w
  · unfold setBit
    cases v
    · rw [if_neg (by decide), BitVec.getLsbD_and, BitVec.getLsbD_not, getLsbD_ofNat_pow hj]; simp [hj, h.symm]
    · rw [if_pos rfl, BitVec.getLsbD_or, getLsbD_ofNat_pow hj]; simp [h.symm]
  · rw [BitVec.getLsbD_of_ge _ _ (by omega), BitVec.getLsbD_of_ge _ _ (by omega)]

end Sys2Proof.Machine
end

