-- ==== Sys2Proof/Laws/Past.lean ====
section
/-! SUPPORT. What the clocks of happens-before hold, what an acquire learns, and what the updates of the record of past writes leave as it
is. -/

namespace Sys2Proof.Machine

open Sys2Proof

/-! ### Clocks -/

/-- Raising a context's entry adds that context's requests below the number, and no others. -/
theorem any_raiseBelow (l : List (Party × Nat)) (p q : Party) (n r : Nat) :
    (raiseBelow l p n).any (fun e => decide (e.1 = q) && decide (r < e.2)) =
      (l.any (fun e => decide (e.1 = q) && decide (r < e.2)) || (decide (p = q) && decide (r < n))) := by
  induction l with
  | nil => simp [raiseBelow]
  | cons e l ih =>
    obtain ⟨k, m⟩ := e
    by_cases h : k = p
    · subst h
      by_cases g : k = q
      · subst g
        have h : r < max m n ↔ r < m ∨ r < n := by omega
        by_cases a : r < m <;> by_cases b : r < n <;> simp [raiseBelow, h, a, b]
      · simp [raiseBelow, g]
    · simp [raiseBelow, h, ih, Bool.or_assoc]

@[simp] theorem Clock.withWrites_below (c : Clock) (l : List Nat) : (c.withWrites l).below = c.below := rfl

@[simp] theorem Clock.contains_withWrites (c : Clock) (l : List Nat) (n : Nat) :
    (c.withWrites l).writes.contains n = (c.writes.contains n || l.contains n) := by
  rw [Bool.eq_iff_iff]
  simp only [Clock.withWrites, List.contains_iff_mem, List.mem_append, List.mem_filter, Bool.or_eq_true]
  by_cases h : n ∈ c.writes <;> simp [h]

/-- A clock of nothing holds no write. -/
@[simp] theorem Clock.holds_zero (w : Past) : Clock.zero.holds w = false := by
  unfold Clock.holds; split <;> simp [Clock.zero]

theorem any_foldl_raiseBelow (bs l : List (Party × Nat)) (q : Party) (r : Nat) :
    (bs.foldl (fun l e => raiseBelow l e.1 e.2) l).any (fun e => decide (e.1 = q) && decide (r < e.2)) =
      (l.any (fun e => decide (e.1 = q) && decide (r < e.2)) || bs.any (fun e => decide (e.1 = q) && decide (r < e.2))) := by
  induction bs generalizing l with
  | nil => simp
  | cons b bs ih => simp [ih, any_raiseBelow, Bool.or_assoc]

/-- The join of two clocks holds what either holds (R250). -/
@[simp] theorem Clock.holds_join (a b : Clock) (w : Past) : (a.join b).holds w = (a.holds w || b.holds w) := by
  unfold Clock.holds
  split
  · exact any_foldl_raiseBelow _ _ _ _
  · exact Clock.contains_withWrites _ _ _

/-- A release holds the requests of its context up to it, besides what the context knew (R244). -/
theorem Clock.holds_upTo (c : Clock) (p : Party) (n : Nat) (w : Past) :
    (c.upTo p n).holds w = (c.holds w || match w.by_ with
      | .ctx q r => decide (p = q) && decide (r < n)
      | _ => false) := by
  unfold Clock.holds
  cases h : w.by_ <;> simp [Clock.upTo, any_raiseBelow]

/-- An acquire learns a write exactly where a release side that it has met, of a scope that covers both contexts as its own does, holds it
(R243, R247). -/
theorem holds_learn (p : Party) (sc : BitVec 3) (l : List Side) (w : Past) :
    (learn p sc l).holds w = true ↔
      ∃ x ∈ l, scopeCovers x.scope x.by_ p = true ∧ scopeCovers sc x.by_ p = true ∧ x.clk.holds w = true := by
  have h : ∀ c : Clock, (l.foldl (fun c x => if scopeCovers x.scope x.by_ p && scopeCovers sc x.by_ p then c.join x.clk else c) c).holds w =
      true ↔ c.holds w = true ∨ ∃ x ∈ l, scopeCovers x.scope x.by_ p = true ∧ scopeCovers sc x.by_ p = true ∧ x.clk.holds w = true := by
    induction l with
    | nil => simp
    | cons x l ih =>
      intro c
      rw [List.foldl_cons, ih]
      by_cases g : (scopeCovers x.scope x.by_ p && scopeCovers sc x.by_ p) = true
      · rw [if_pos g]
        rw [Bool.and_eq_true] at g
        simp [g.1, g.2, or_assoc]
      · rw [if_neg g]
        rw [Bool.and_eq_true] at g
        simp only [List.exists_mem_cons_iff]
        exact or_congr_right ⟨Or.inr, fun h => h.elim (fun h => absurd ⟨h.1, h.2.1⟩ g) id⟩
  simpa [learn] using h Clock.zero

/-! ### Updates -/

@[simp] theorem State.noteReads_mem (s : State) (p : Party) (out : Nat → Nat → Past → Bool) (ps : List Piece) :
    (s.noteReads p out ps).mem = s.mem := rfl
@[simp] theorem State.noteReads_cores (s : State) (p : Party) (out : Nat → Nat → Past → Bool) (ps : List Piece) :
    (s.noteReads p out ps).cores = s.cores := rfl
@[simp] theorem State.noteReads_reqs (s : State) (p : Party) (out : Nat → Nat → Past → Bool) (ps : List Piece) :
    (s.noteReads p out ps).reqs = s.reqs := rfl
@[simp] theorem State.noteReads_poison (s : State) (p : Party) (out : Nat → Nat → Past → Bool) (ps : List Piece) :
    (s.noteReads p out ps).poison = s.poison := rfl
@[simp] theorem State.noteReads_writes (s : State) (p : Party) (out : Nat → Nat → Past → Bool) (ps : List Piece) :
    (s.noteReads p out ps).writes = s.writes := rfl

@[simp] theorem State.madeBy_mem (s : State) (n : Nat) (m : Maker) (c : Clock) (l : List Side) (b : Bool) :
    (s.madeBy n m c l b).mem = s.mem := rfl
@[simp] theorem State.madeBy_cores (s : State) (n : Nat) (m : Maker) (c : Clock) (l : List Side) (b : Bool) :
    (s.madeBy n m c l b).cores = s.cores := rfl
@[simp] theorem State.madeBy_reqs (s : State) (n : Nat) (m : Maker) (c : Clock) (l : List Side) (b : Bool) :
    (s.madeBy n m c l b).reqs = s.reqs := rfl
@[simp] theorem State.madeBy_poison (s : State) (n : Nat) (m : Maker) (c : Clock) (l : List Side) (b : Bool) :
    (s.madeBy n m c l b).poison = s.poison := rfl

@[simp] theorem Core.setMark_slots (c : Core) (k : MarkKey) (v : Clock) : (c.setMark k v).slots = c.slots := rfl
@[simp] theorem Core.setMark_rlb (c : Core) (k : MarkKey) (v : Clock) : (c.setMark k v).rlb = c.rlb := rfl

@[simp] theorem Core.markOf_setMark_same (c : Core) (k : MarkKey) (v : Clock) : (c.setMark k v).markOf k = v := by
  simp [Core.markOf, Core.setMark]

theorem Core.markOf_setMark_other (c : Core) {k j : MarkKey} (v : Clock) (h : j ≠ k) : (c.setMark k v).markOf j = c.markOf j := by
  simp [Core.markOf, Core.setMark, tabGet_tabPut_other _ _ h]

@[simp] theorem State.setMark_mem (s : State) (f : Nat → MarkKey) (key : Nat) (v : Clock) : (s.setMark f key v).mem = s.mem := by
  unfold State.setMark; cases homeCore key <;> rfl
@[simp] theorem State.setMark_reqs (s : State) (f : Nat → MarkKey) (key : Nat) (v : Clock) : (s.setMark f key v).reqs = s.reqs := by
  unfold State.setMark; cases homeCore key <;> rfl
@[simp] theorem State.setMark_past (s : State) (f : Nat → MarkKey) (key : Nat) (v : Clock) : (s.setMark f key v).past = s.past := by
  unfold State.setMark; cases homeCore key <;> rfl

@[simp] theorem State.acquires_mem (s : State) (o : SlotId) (c : Clock) : (s.acquires o c).mem = s.mem := rfl
@[simp] theorem State.acquires_reqs (s : State) (o : SlotId) (c : Clock) : (s.acquires o c).reqs = s.reqs := rfl

end Sys2Proof.Machine
end

