-- ==== Sys2Proof/Tests/Slice0.lean ====
section
/-! SUPPORT. Tests: ill-formed instructions, words written out from the encoding tables, a witness that meets the hypotheses of each
obligation, clause by clause, and single steps whose results come from the spec. -/

namespace Sys2Proof.Tests

open Sys2Proof Sys2Proof.Machine

set_option Elab.async false

/-! ### States -/

/-- Core 0 in a launch, with one context Ready at 0x200. -/
def ready : State :=
  (State.reset.modCore fun c => { c with launch := 1, svec := 0x1000, hbase := 0x100, hlim := 0x5000, tenant := 3, ibBase := 0x50000, ibCap := 1 }).modSlot fun l =>
    { l with st := .ready, pc := 0x200, tvec := 0x2000, gen := 5 }

/-- The same context in supervisor mode. -/
def trapped : State := ready.modSlot fun l => { l with mode := .supervisor, st := .held, sepc := 0x300 }

/-- A state with x registers of the acting context written. -/
def regs (s : State) (l : List (XReg × Word)) : State := l.foldl (fun s p => s.putX p.1 p.2) s

/-- A state with a request of the acting context, number 7, in flight. -/
def asked (s : State) (ea : Word) (op : ReqOp) (applied : Bool := false) (res : ReqRes := .none) : State :=
  { s with nextId := 8, reqs := s.reqs ++ [
      { id := 7, core := s.cur.core, slot := s.cur.slot, gen := s.slot.gen, pc := s.slot.pc, ea := ea, op := op, applied := applied
        registered := false, merged := none, res := res, fpEvents := 0, peers := [], clk := Clock.zero, sides := []
        got := Clock.zero, met := [] }] }

/-- The request number 7 of a state. -/
def req7 (s : State) : Option Req := s.reqs.find? (·.id = 7)

/-- A matrix command of the context of `ready` on tile 2, not started. -/
def matCmd (op : MatOp) : MatCmd :=
  { own := ready.owner, gate := ready.owner, op := op, tile := 2, done := 0, resumed := false, block := none, codes := 0, taken := false,
    ev := Events.zero }

/-- The core, window and offset that an address of `n` bytes names, if it names local memory. -/
def locAt (s : State) (a : Word) (n : Nat) : Option (Nat × Nat × Nat) :=
  match s.target s.cur.core a n with
  | .ok (.loc c win off) => some (c.toNat, win, off)
  | _ => none

/-- Whether an address of `n` bytes is a virtual one. -/
def isVirt (s : State) (a : Word) (n : Nat) : Bool :=
  match s.target s.cur.core a n with
  | .ok (.virt _) => true
  | _ => false

/-- Whether an outcome is a next state with a property. -/
def after (r : Res) (p : State → Bool) : Bool :=
  match r with
  | .next t => p t
  | _ => false

/-- Whether a body completed with a property of what it leaves. -/
def ends {α : Type} (r : Body α) (p : α → Bool) : Bool :=
  match r with
  | .ok a => p a
  | _ => false

/-! ### Ill-formed instructions and words that are no instruction (R93) -/

theorem test_illformed_bfx : ¬(Instr.bfx { d := 1, a := 2, pos := 41, len1 := 23, s := false, wa := false }).WellFormed ∧
    ¬(Instr.bfi { d := 1, a := 2, pos := 1, len1 := 63, wa := false }).WellFormed := by decide +kernel

theorem test_illformed_rounding : ¬(Instr.vcvtI32F32 { vd := 1, va := 2, rnd := 3, p := 0, wa := false }).WellFormed ∧
    ¬(Instr.vcvtF32F64 { vd := 1, va := 2, rnd := 3, p := 0, wa := false }).WellFormed := by decide +kernel

theorem test_illformed_tnext : ¬(Instr.tnext { d := 7 }).WellFormed ∧ ¬(Instr.tnext { d := 0 }).WellFormed := by decide +kernel

/-- One word for each item of R93: a reserved major, an unlisted func, a field that must be zero (the wait bit of an absent source),
bit 0 of an I-form word, a v register number with bit 4 set, a shift amount above 63, a `bfx` beyond bit 63, an odd `tnext`. -/
theorem test_decode_illegal :
    (decode 0b0011011_00000_00000_00000_00000000_0_0#32 0).toOption = none ∧
    (decode 0b0000001_00011_00100_00101_00100100_0_0#32 0).toOption = none ∧
    (decode 0b0000001_00011_00100_00000_00011101_0_1#32 0).toOption = none ∧
    (decode 0b0000010_00001_00010_0000000000001_0_1#32 0).toOption = none ∧
    (decode 0b1100000_00000_00101_11111_00000010_0_0#32 0).toOption = none ∧
    (decode 0b0000110_00001_00010_0000001000000_0_0#32 0).toOption = none ∧
    (decode 0b0001100_00001_00010_101001_010111_1_0_0#32 0).toOption = none ∧
    (decode 0b1100000_00111_00000_00000_00000111_0_0#32 0).toOption = none := by decide +kernel

/-! ### Words written out from the encoding tables -/

/-- Words from the tables of R67, R76. -/
theorem test_decode_alu_1 :
    decode 0b0000001_00011_10001_01001_00000000_0_0#32 0 = .ok (.add { d := 3, a := 17, b := 9, wa := false, wb := false }) ∧
    decode 0b0000001_01010_10110_10100_00000001_1_0#32 0 = .ok (.sub { d := 10, a := 22, b := 20, wa := true, wb := false }) ∧
    decode 0b0000001_10001_11011_11111_00000010_0_1#32 0 = .ok (.mul { d := 17, a := 27, b := 31, wa := false, wb := true }) ∧
    decode 0b0000001_11000_00000_01010_00000011_1_1#32 0 = .ok (.mulh { d := 24, a := 0, b := 10, wa := true, wb := true }) ∧
    decode 0b0000001_11111_00101_10101_00000100_0_0#32 0 = .ok (.mulhz { d := 31, a := 5, b := 21, wa := false, wb := false }) ∧
    decode 0b0000001_00110_01010_00000_00000101_1_0#32 0 = .ok (.div { d := 6, a := 10, b := 0, wa := true, wb := false }) ∧
    decode 0b0000001_01101_01111_01011_00000110_0_1#32 0 = .ok (.divz { d := 13, a := 15, b := 11, wa := false, wb := true }) ∧
    decode 0b0000001_10100_10100_10110_00000111_1_1#32 0 = .ok (.rem { d := 20, a := 20, b := 22, wa := true, wb := true }) ∧
    decode 0b0000001_11011_11001_00001_00001000_0_0#32 0 = .ok (.remz { d := 27, a := 25, b := 1, wa := false, wb := false }) ∧
    decode 0b0000001_00010_11110_01100_00001001_1_0#32 0 = .ok (.and_ { d := 2, a := 30, b := 12, wa := true, wb := false }) ∧
    decode 0b0000001_01001_00011_10111_00001010_0_1#32 0 = .ok (.or_ { d := 9, a := 3, b := 23, wa := false, wb := true }) ∧
    decode 0b0000001_10000_01000_00010_00001011_1_1#32 0 = .ok (.xor_ { d := 16, a := 8, b := 2, wa := true, wb := true }) ∧
    decode 0b0000001_10111_01101_01101_00001100_0_0#32 0 = .ok (.andn { d := 23, a := 13, b := 13, wa := false, wb := false }) ∧
    decode 0b0000001_11110_10010_11000_00001101_1_0#32 0 = .ok (.orn { d := 30, a := 18, b := 24, wa := true, wb := false }) ∧
    decode 0b0000001_00101_10111_00011_00001110_0_1#32 0 = .ok (.shl { d := 5, a := 23, b := 3, wa := false, wb := true }) ∧
    decode 0b0000001_01100_11100_01110_00001111_1_1#32 0 = .ok (.shr { d := 12, a := 28, b := 14, wa := true, wb := true }) ∧
    decode 0b0000001_10011_00001_11001_00010000_0_0#32 0 = .ok (.sra { d := 19, a := 1, b := 25, wa := false, wb := false }) ∧
    decode 0b0000001_11010_00110_00100_00010001_1_0#32 0 = .ok (.rotl { d := 26, a := 6, b := 4, wa := true, wb := false }) ∧
    decode 0b0000001_00001_01011_01111_00010010_0_1#32 0 = .ok (.rotr { d := 1, a := 11, b := 15, wa := false, wb := true }) ∧
    decode 0b0000001_01000_10000_11010_00010011_1_1#32 0 = .ok (.min_ { d := 8, a := 16, b := 26, wa := true, wb := true }) ∧
    decode 0b0000001_01111_10101_00101_00010100_0_0#32 0 = .ok (.max_ { d := 15, a := 21, b := 5, wa := false, wb := false }) ∧
    decode 0b0000001_10110_11010_10000_00010101_1_0#32 0 = .ok (.minz { d := 22, a := 26, b := 16, wa := true, wb := false }) ∧
    decode 0b0000001_11101_11111_11011_00010110_0_1#32 0 = .ok (.maxz { d := 29, a := 31, b := 27, wa := false, wb := true }) ∧
    decode 0b0000001_00100_00100_00110_00010111_1_1#32 0 = .ok (.seq { d := 4, a := 4, b := 6, wa := true, wb := true }) := by
  decide

/-- Words from the tables of R67, R76, continued. -/
theorem test_decode_alu_2 :
    decode 0b0000001_01011_01001_10001_00011000_0_0#32 0 = .ok (.sne { d := 11, a := 9, b := 17, wa := false, wb := false }) ∧
    decode 0b0000001_10010_01110_11100_00011001_1_0#32 0 = .ok (.slt { d := 18, a := 14, b := 28, wa := true, wb := false }) ∧
    decode 0b0000001_11001_10011_00111_00011010_0_1#32 0 = .ok (.sltz { d := 25, a := 19, b := 7, wa := false, wb := true }) ∧
    decode 0b0000001_00000_11000_10010_00011011_1_1#32 0 = .ok (.sle { d := 0, a := 24, b := 18, wa := true, wb := true }) ∧
    decode 0b0000001_00111_11101_11101_00011100_0_0#32 0 = .ok (.slez { d := 7, a := 29, b := 29, wa := false, wb := false }) ∧
    decode 0b0000001_01110_00010_00000_00011101_1_0#32 0 = .ok (.clz { d := 14, a := 2, wa := true }) ∧
    decode 0b0000001_10101_00111_00000_00011110_0_0#32 0 = .ok (.ctz { d := 21, a := 7, wa := false }) ∧
    decode 0b0000001_11100_01100_00000_00011111_1_0#32 0 = .ok (.popc { d := 28, a := 12, wa := true }) ∧
    decode 0b0000001_00011_10001_00000_00100000_0_0#32 0 = .ok (.bswap { d := 3, a := 17, wa := false }) ∧
    decode 0b0000001_01010_10110_10100_00100001_1_0#32 0 = .ok (.addw { d := 10, a := 22, b := 20, wa := true, wb := false }) ∧
    decode 0b0000001_10001_11011_11111_00100010_0_1#32 0 = .ok (.subw { d := 17, a := 27, b := 31, wa := false, wb := true }) ∧
    decode 0b0000001_11000_00000_01010_00100011_1_1#32 0 = .ok (.mulw { d := 24, a := 0, b := 10, wa := true, wb := true }) := by
  decide

/-- Words from the tables of R67, R69, R77. -/
theorem test_decode_immediate :
    decode 0b0000010_01001_10100_1101010111100_0_0#32 0 = .ok (.addi { d := 9, a := 20, imm := 0x1ABC, wa := false }) ∧
    decode 0b0000011_01010_10101_1101010111101_1_0#32 0 = .ok (.andi { d := 10, a := 21, imm := 0x1ABD, wa := true }) ∧
    decode 0b0000100_01011_10110_1101010111110_0_0#32 0 = .ok (.ori { d := 11, a := 22, imm := 0x1ABE, wa := false }) ∧
    decode 0b0000101_01100_10111_1101010111111_1_0#32 0 = .ok (.xori { d := 12, a := 23, imm := 0x1ABF, wa := true }) ∧
    decode 0b0000110_00011_11110_0000000111111_0_0#32 0 = .ok (.shli { d := 3, a := 30, n := 63, wa := false }) ∧
    decode 0b0000111_00100_11101_0000000111110_1_0#32 0 = .ok (.shri { d := 4, a := 29, n := 62, wa := true }) ∧
    decode 0b0001000_00101_11100_0000000111101_0_0#32 0 = .ok (.srai { d := 5, a := 28, n := 61, wa := false }) ∧
    decode 0b0001001_01110_00001_0111111111111_1_0#32 0 = .ok (.slti { d := 14, a := 1, imm := 0xFFF, wa := true }) ∧
    decode 0b0001010_01111_00010_0111111111110_1_0#32 0 = .ok (.sltzi { d := 15, a := 2, imm := 0xFFE, wa := true }) ∧
    decode 0b0001011_10000_00011_0111111111101_1_0#32 0 = .ok (.muli { d := 16, a := 3, imm := 0xFFD, wa := true }) ∧
    decode 0b0001100_00101_00110_1010000101111_1_0#32 0 = .ok (.bfx { d := 5, a := 6, pos := 40, len1 := 23, s := true, wa := true }) ∧
    decode 0b0001101_00101_00110_0000001111110_0_0#32 0 = .ok (.bfi { d := 5, a := 6, pos := 0, len1 := 63, wa := false }) ∧
    decode 0b0001110_10001_10001111111111110001#32 0 = .ok (.lui { d := 17, imm := 0x8FFF1 }) ∧
    decode 0b0001111_10010_01111010101111001101#32 0 = .ok (.auipc { d := 18, imm := 0x7ABCD }) := by
  decide

/-- Words from the tables of R78. -/
theorem test_decode_control :
    decode 0b0010000_00111_10101_1111100000000_0_0#32 0 = .ok (.beq { a := 21, b := 7, off := 0x1F00, wa := false, wb := false }) ∧
    decode 0b0010001_01000_10100_1111100000001_1_0#32 0 = .ok (.bne { a := 20, b := 8, off := 0x1F01, wa := true, wb := false }) ∧
    decode 0b0010010_01001_10011_1111100000010_0_1#32 0 = .ok (.blt { a := 19, b := 9, off := 0x1F02, wa := false, wb := true }) ∧
    decode 0b0010011_01010_10010_1111100000011_1_1#32 0 = .ok (.bge { a := 18, b := 10, off := 0x1F03, wa := true, wb := true }) ∧
    decode 0b0010100_01011_10001_1111100000100_0_0#32 0 = .ok (.bltz { a := 17, b := 11, off := 0x1F04, wa := false, wb := false }) ∧
    decode 0b0010101_01100_10000_1111100000101_1_0#32 0 = .ok (.bgez { a := 16, b := 12, off := 0x1F05, wa := true, wb := false }) ∧
    decode 0b0010110_00001_11111111111111111110#32 0 = .ok (.jal { d := 1, off := 0xFFFFE }) ∧
    decode 0b0010111_00000_11111_1111111111000_1_0#32 0 = .ok (.jalr { d := 0, a := 31, imm := 0x1FF8, wa := true }) ∧
    decode 0b0011000_00000_01100_1111111111101_1_0#32 0 = .ok (.loop { a := 12, off := 0x1FFD, wa := true }) ∧
    decode 0b0011001_11010_00000_00000_00000000_0_0#32 0x89ABCDEF = .ok (.lix { d := 26, lit := 0x89ABCDEF }) ∧
    decode 0b0011010_00100_00101_00110_00000000_1_1#32 0 = .ok (.csel { d := 4, a := 5, b := 6, wa := true, wb := true }) := by
  decide

/-- Words from the tables of R79. -/
theorem test_decode_scalarMemory :
    decode 0b0100000_00001_10110_1000000100000_0_0#32 0 = .ok (.ldb { d := 1, a := 22, imm := 0x1020, wa := false }) ∧
    decode 0b0100001_00010_10111_1000000100001_1_0#32 0 = .ok (.ldzb { d := 2, a := 23, imm := 0x1021, wa := true }) ∧
    decode 0b0100010_00011_11000_1000000100010_0_0#32 0 = .ok (.ldh { d := 3, a := 24, imm := 0x1022, wa := false }) ∧
    decode 0b0100011_00100_11001_1000000100011_1_0#32 0 = .ok (.ldzh { d := 4, a := 25, imm := 0x1023, wa := true }) ∧
    decode 0b0100100_00101_11010_1000000100100_0_0#32 0 = .ok (.ldw { d := 5, a := 26, imm := 0x1024, wa := false }) ∧
    decode 0b0100101_00110_11011_1000000100101_1_0#32 0 = .ok (.ldzw { d := 6, a := 27, imm := 0x1025, wa := true }) ∧
    decode 0b0100110_00111_11100_1000000100110_0_0#32 0 = .ok (.ldd { d := 7, a := 28, imm := 0x1026, wa := false }) ∧
    decode 0b0100111_00010_00011_1011111111000_1_0#32 0 = .ok (.ldaw { d := 2, a := 3, scope := 5, off := 0x3F8, wa := true }) ∧
    decode 0b0101000_00010_00011_1011111111000_1_0#32 0 = .ok (.ldad { d := 2, a := 3, scope := 5, off := 0x3F8, wa := true }) ∧
    decode 0b0101001_01001_10001_0100000101001_1_0#32 0 = .ok (.stb { b := 9, a := 17, imm := 0x829, wa := true, wb := false }) ∧
    decode 0b0101010_01010_10010_0100000101010_0_1#32 0 = .ok (.sth { b := 10, a := 18, imm := 0x82A, wa := false, wb := true }) ∧
    decode 0b0101011_01011_10011_0100000101011_1_0#32 0 = .ok (.stw { b := 11, a := 19, imm := 0x82B, wa := true, wb := false }) ∧
    decode 0b0101100_01100_10100_0100000101100_0_1#32 0 = .ok (.std { b := 12, a := 20, imm := 0x82C, wa := false, wb := true }) ∧
    decode 0b0101111_01111_10111_0100000101111_1_0#32 0 = .ok (.jst { b := 15, a := 23, imm := 0x82F, wa := true, wb := false }) ∧
    decode 0b0101101_11101_11110_0110000010000_0_1#32 0 = .ok (.strw { b := 29, a := 30, scope := 3, off := 0x10, wa := false, wb := true }) ∧
    decode 0b0101110_11101_11110_0110000010000_0_1#32 0 = .ok (.strd { b := 29, a := 30, scope := 3, off := 0x10, wa := false, wb := true }) := by
  decide

/-- Words from the tables of R80. -/
theorem test_decode_vectorMemory :
    decode 0b0110000_1011_10110_101_11111111110_1_0#32 0 = .ok (.vld { v := 11, a := 22, p := 5, imm := 0x7FE, wa := true }) ∧
    decode 0b0110001_1100_10111_110_10000000001_0_1#32 0 = .ok (.vst { v := 12, a := 23, p := 6, imm := 0x401, wa := false, wb := true }) ∧
    decode 0b0110010_0001_10001_1001_011_0000010_1_0#32 0 = .ok (.vldx { v := 1, x := 17, w := 9, p := 3, scale := 2, wa := true, wb := false }) ∧
    decode 0b0110011_0010_10010_1010_100_0000011_0_1#32 0 = .ok (.vstx { v := 2, x := 18, w := 10, p := 4, scale := 3, wa := false, wb := true }) := by
  decide

/-- Words from the tables of R81 to R83. -/
theorem test_decode_atomic_1 :
    decode 0b0110100_00001_00010_00011_00000000_0_0#32 0 = .ok (.amoadd { d := 1, a := 2, b := 3, size := false, order := 0, wa := false, wb := false }) ∧
    decode 0b0110100_00010_00011_00100_00011010_1_1#32 0 = .ok (.amoand { d := 2, a := 3, b := 4, size := true, order := 1, wa := true, wb := true }) ∧
    decode 0b0110100_00011_00100_00101_00100100_0_0#32 0 = .ok (.amoor { d := 3, a := 4, b := 5, size := false, order := 2, wa := false, wb := false }) ∧
    decode 0b0110100_00100_00101_00110_00111110_1_1#32 0 = .ok (.amoxor { d := 4, a := 5, b := 6, size := true, order := 3, wa := true, wb := true }) ∧
    decode 0b0110100_00101_00110_00111_01000000_0_0#32 0 = .ok (.amomin { d := 5, a := 6, b := 7, size := false, order := 0, wa := false, wb := false }) ∧
    decode 0b0110100_00110_00111_01000_01011010_1_1#32 0 = .ok (.amomax { d := 6, a := 7, b := 8, size := true, order := 1, wa := true, wb := true }) ∧
    decode 0b0110100_00111_01000_01001_01100100_0_0#32 0 = .ok (.amominz { d := 7, a := 8, b := 9, size := false, order := 2, wa := false, wb := false }) ∧
    decode 0b0110100_01000_01001_01010_01111110_1_1#32 0 = .ok (.amomaxz { d := 8, a := 9, b := 10, size := true, order := 3, wa := true, wb := true }) ∧
    decode 0b0110100_01001_01010_01011_10000000_0_0#32 0 = .ok (.amoswap { d := 9, a := 10, b := 11, size := false, order := 0, wa := false, wb := false }) ∧
    decode 0b0110100_01010_01011_01100_10011010_1_1#32 0 = .ok (.amocas { d := 10, a := 11, b := 12, size := true, order := 1, wa := true, wb := true }) ∧
    decode 0b0110100_01011_01100_01101_10100100_0_0#32 0 = .ok (.amofadd { d := 11, a := 12, b := 13, size := false, order := 2, wa := false, wb := false }) ∧
    decode 0b0110100_01100_01101_01110_10111110_1_1#32 0 = .ok (.amofmin { d := 12, a := 13, b := 14, size := true, order := 3, wa := true, wb := true }) ∧
    decode 0b0110100_01101_01110_01111_11000000_0_0#32 0 = .ok (.amofmax { d := 13, a := 14, b := 15, size := false, order := 0, wa := false, wb := false }) ∧
    decode 0b0110101_00000_01100_00101_00001000_1_0#32 0 = .ok (.redadd { a := 12, b := 5, size := true, wa := true, wb := false }) ∧
    decode 0b0110101_00000_01101_00110_00010000_0_1#32 0 = .ok (.redand { a := 13, b := 6, size := false, wa := false, wb := true }) ∧
    decode 0b0110101_00000_01110_00111_00101000_1_0#32 0 = .ok (.redor { a := 14, b := 7, size := true, wa := true, wb := false }) ∧
    decode 0b0110101_00000_01111_01000_00110000_0_1#32 0 = .ok (.redxor { a := 15, b := 8, size := false, wa := false, wb := true }) ∧
    decode 0b0110101_00000_10000_01001_01001000_1_0#32 0 = .ok (.redmin { a := 16, b := 9, size := true, wa := true, wb := false }) ∧
    decode 0b0110101_00000_10001_01010_01010000_0_1#32 0 = .ok (.redmax { a := 17, b := 10, size := false, wa := false, wb := true }) ∧
    decode 0b0110101_00000_10010_01011_01101000_1_0#32 0 = .ok (.redminz { a := 18, b := 11, size := true, wa := true, wb := false }) ∧
    decode 0b0110101_00000_10011_01100_01110000_0_1#32 0 = .ok (.redmaxz { a := 19, b := 12, size := false, wa := false, wb := true }) ∧
    decode 0b0110101_00000_10100_01101_10001000_1_0#32 0 = .ok (.redfadd { a := 20, b := 13, size := true, wa := true, wb := false }) ∧
    decode 0b0110101_00000_10101_01110_10010000_0_1#32 0 = .ok (.redfmin { a := 21, b := 14, size := false, wa := false, wb := true }) ∧
    decode 0b0110101_00000_10110_01111_10101000_1_0#32 0 = .ok (.redfmax { a := 22, b := 15, size := true, wa := true, wb := false }) := by
  decide

/-- Words from the tables of R81 to R83, continued. -/
theorem test_decode_atomic_2 :
    decode 0b0110110_01000_01001_00000_00000000_1_0#32 0 = .ok (.joinc { d := 8, a := 9, wa := true }) ∧
    decode 0b0110111_00000_00000_00000_00100000_0_0#32 0 = .ok (.fenceAcq { scope := 4 }) ∧
    decode 0b0110111_00000_00000_00000_01101000_0_0#32 0 = .ok (.fenceRel { scope := 5 }) ∧
    decode 0b0110111_00000_00000_00000_10110000_0_0#32 0 = .ok (.fenceFull { scope := 6 }) ∧
    decode 0b0110111_00000_00000_00000_11000000_0_0#32 0 = .ok (.vfence {}) := by
  decide

/-- Words from the tables of R84, R85. -/
theorem test_decode_barrier :
    decode 0b0111000_00000_10100_00011_00000000_1_0#32 0 = .ok (.cbinit { a := 20, b := 3, wa := true, wb := false }) ∧
    decode 0b0111000_00000_10101_00000_00000001_0_0#32 0 = .ok (.cbarrive { a := 21, wa := false }) ∧
    decode 0b0111000_00000_10110_00101_00000010_1_0#32 0 = .ok (.cbexpect { a := 22, b := 5, wa := true, wb := false }) ∧
    decode 0b0111000_00000_10111_00110_00000011_0_1#32 0 = .ok (.cbwait { a := 23, b := 6, wa := false, wb := true }) ∧
    decode 0b0111000_01110_11000_00111_00000100_1_0#32 0 = .ok (.cbtwait { d := 14, a := 24, b := 7, wa := true, wb := false }) ∧
    decode 0b0111000_01111_11001_01000_00000101_0_1#32 0 = .ok (.cbtest { d := 15, a := 25, b := 8, wa := false, wb := true }) ∧
    decode 0b0111001_00000_10100_00011_00000000_1_0#32 0 = .ok (.wbjoin { a := 20, b := 3, wa := true, wb := false }) ∧
    decode 0b0111001_00000_10101_00000_00000001_0_0#32 0 = .ok (.wbleave { a := 21, wa := false }) ∧
    decode 0b0111001_01100_10110_00101_00000010_1_0#32 0 = .ok (.wbarrive { d := 12, a := 22, b := 5, wa := true, wb := false }) ∧
    decode 0b0111001_00000_10111_00110_00000011_0_1#32 0 = .ok (.wbwait { a := 23, b := 6, wa := false, wb := true }) ∧
    decode 0b0111001_01110_11000_00111_00000100_1_0#32 0 = .ok (.wbtwait { d := 14, a := 24, b := 7, wa := true, wb := false }) ∧
    decode 0b0111001_01111_11001_01000_00000101_0_1#32 0 = .ok (.wbget { d := 15, a := 25, b := 8, wa := false, wb := true }) ∧
    decode 0b0111001_00000_11010_01001_00000110_1_0#32 0 = .ok (.ctrg { a := 26, b := 9, wa := true, wb := false }) ∧
    decode 0b0111010_00000_00001_00010_00000000_1_0#32 0 = .ok (.nbinit { a := 1, b := 2, wa := true, wb := false }) ∧
    decode 0b0111010_00011_00001_00010_10000001_0_1#32 0 = .ok (.postv { d := 3, m := true, a := 1, b := 2, wa := false, wb := true }) ∧
    decode 0b0111010_00000_00110_00000_00000010_1_0#32 0 = .ok (.nbread { m := false, a := 6, wa := true }) ∧
    decode 0b0111010_00111_00110_00000_10000011_1_0#32 0 = .ok (.vtest { d := 7, m := true, a := 6, wa := true }) ∧
    decode 0b0111010_00111_00000_00000_10000100_0_0#32 0 = .ok (.vcount { d := 7, m := true }) := by
  decide

/-- Words from the tables of R86. -/
theorem test_decode_vector_1 :
    decode 0b1000000_0000_0101_0010_0000_001_0000_0_0#32 0 = .ok (.vadd { vd := 0, va := 5, vb := 2, p := 1, wa := false, wb := false }) ∧
    decode 0b1000000_0001_1000_1001_0000_100_0001_1_0#32 0 = .ok (.vsub { vd := 1, va := 8, vb := 9, p := 4, wa := true, wb := false }) ∧
    decode 0b1000000_0010_1011_0000_0000_111_0010_0_1#32 0 = .ok (.vmul { vd := 2, va := 11, vb := 0, p := 7, wa := false, wb := true }) ∧
    decode 0b1000000_0011_1110_0111_1010_010_0011_1_1#32 0 = .ok (.vfma { vd := 3, va := 14, vb := 7, vc := 10, p := 2, wa := true, wb := true }) ∧
    decode 0b1000000_0100_0001_1110_1111_101_0100_0_0#32 0 = .ok (.vfms { vd := 4, va := 1, vb := 14, vc := 15, p := 5, wa := false, wb := false }) ∧
    decode 0b1000000_0101_0100_0101_0000_000_0101_1_0#32 0 = .ok (.vmin { vd := 5, va := 4, vb := 5, p := 0, wa := true, wb := false }) ∧
    decode 0b1000000_0110_0111_1100_0000_011_0110_0_1#32 0 = .ok (.vmax { vd := 6, va := 7, vb := 12, p := 3, wa := false, wb := true }) ∧
    decode 0b1000000_0111_1010_0000_0000_110_0111_1_0#32 0 = .ok (.vabs { vd := 7, va := 10, p := 6, wa := true }) ∧
    decode 0b1000000_1000_1101_0000_0000_001_1000_0_0#32 0 = .ok (.vneg { vd := 8, va := 13, p := 1, wa := false }) ∧
    decode 0b1000000_1001_0000_0001_0000_100_1001_1_0#32 0 = .ok (.vdiv { vd := 9, va := 0, vb := 1, p := 4, wa := true, wb := false }) ∧
    decode 0b1000000_1010_0011_0000_0000_111_1010_0_0#32 0 = .ok (.vsqrt { vd := 10, va := 3, p := 7, wa := false }) ∧
    decode 0b1000000_1011_0110_0000_0000_010_1011_1_0#32 0 = .ok (.vexp2 { vd := 11, va := 6, p := 2, wa := true }) ∧
    decode 0b1000000_1100_1001_0000_0000_101_1100_0_0#32 0 = .ok (.vlog2 { vd := 12, va := 9, p := 5, wa := false }) ∧
    decode 0b1000000_1101_1100_0000_0000_000_1101_1_0#32 0 = .ok (.vfloor { vd := 13, va := 12, p := 0, wa := true }) ∧
    decode 0b1000001_0001_0101_0010_0000_001_0000_0_0#32 0 = .ok (.dadd { vd := 1, va := 5, vb := 2, p := 1, wa := false, wb := false }) ∧
    decode 0b1000001_0010_1000_1001_0000_100_0001_1_0#32 0 = .ok (.dsub { vd := 2, va := 8, vb := 9, p := 4, wa := true, wb := false }) ∧
    decode 0b1000001_0011_1011_0000_0000_111_0010_0_1#32 0 = .ok (.dmul { vd := 3, va := 11, vb := 0, p := 7, wa := false, wb := true }) ∧
    decode 0b1000001_0100_1110_0111_1010_010_0011_1_1#32 0 = .ok (.dfma { vd := 4, va := 14, vb := 7, vc := 10, p := 2, wa := true, wb := true }) ∧
    decode 0b1000001_0101_0001_1110_0000_101_0100_0_0#32 0 = .ok (.dmin { vd := 5, va := 1, vb := 14, p := 5, wa := false, wb := false }) ∧
    decode 0b1000001_0110_0100_0101_0000_000_0101_1_0#32 0 = .ok (.dmax { vd := 6, va := 4, vb := 5, p := 0, wa := true, wb := false }) ∧
    decode 0b1000001_0111_0111_1100_0000_011_0110_0_1#32 0 = .ok (.ddiv { vd := 7, va := 7, vb := 12, p := 3, wa := false, wb := true }) ∧
    decode 0b1000001_1000_1010_0000_0000_110_0111_1_0#32 0 = .ok (.dsqrt { vd := 8, va := 10, p := 6, wa := true }) ∧
    decode 0b1000001_1001_1101_0000_0000_001_1000_0_0#32 0 = .ok (.dln { vd := 9, va := 13, p := 1, wa := false }) ∧
    decode 0b1000001_1010_0000_0000_0000_100_1001_1_0#32 0 = .ok (.dexp { vd := 10, va := 0, p := 4, wa := true }) := by
  decide

/-- Words from the tables of R86, continued. -/
theorem test_decode_vector_2 :
    decode 0b1000010_0010_0101_0010_0000_001_0000_0_0#32 0 = .ok (.viadd { vd := 2, va := 5, vb := 2, p := 1, wa := false, wb := false }) ∧
    decode 0b1000010_0011_1000_1001_0000_100_0001_1_0#32 0 = .ok (.visub { vd := 3, va := 8, vb := 9, p := 4, wa := true, wb := false }) ∧
    decode 0b1000010_0100_1011_0000_0000_111_0010_0_1#32 0 = .ok (.vimul { vd := 4, va := 11, vb := 0, p := 7, wa := false, wb := true }) ∧
    decode 0b1000010_0101_1110_0111_0000_010_0011_1_1#32 0 = .ok (.viand { vd := 5, va := 14, vb := 7, p := 2, wa := true, wb := true }) ∧
    decode 0b1000010_0110_0001_1110_0000_101_0100_0_0#32 0 = .ok (.vior { vd := 6, va := 1, vb := 14, p := 5, wa := false, wb := false }) ∧
    decode 0b1000010_0111_0100_0101_0000_000_0101_1_0#32 0 = .ok (.vixor { vd := 7, va := 4, vb := 5, p := 0, wa := true, wb := false }) ∧
    decode 0b1000010_1000_0111_1100_0000_011_0110_0_1#32 0 = .ok (.vishl { vd := 8, va := 7, vb := 12, p := 3, wa := false, wb := true }) ∧
    decode 0b1000010_1001_1010_0011_0000_110_0111_1_1#32 0 = .ok (.vishr { vd := 9, va := 10, vb := 3, p := 6, wa := true, wb := true }) ∧
    decode 0b1000010_1010_1101_1010_0000_001_1000_0_0#32 0 = .ok (.visra { vd := 10, va := 13, vb := 10, p := 1, wa := false, wb := false }) ∧
    decode 0b1000010_1011_0000_0001_0000_100_1001_1_0#32 0 = .ok (.vimin { vd := 11, va := 0, vb := 1, p := 4, wa := true, wb := false }) ∧
    decode 0b1000010_1100_0011_1000_0000_111_1010_0_1#32 0 = .ok (.vimax { vd := 12, va := 3, vb := 8, p := 7, wa := false, wb := true }) ∧
    decode 0b1000010_1101_0110_1111_0000_010_1011_1_1#32 0 = .ok (.viminz { vd := 13, va := 6, vb := 15, p := 2, wa := true, wb := true }) ∧
    decode 0b1000010_1110_1001_0110_0000_101_1100_0_0#32 0 = .ok (.vimaxz { vd := 14, va := 9, vb := 6, p := 5, wa := false, wb := false }) := by
  decide

/-- Words from the tables of R86, R87. -/
theorem test_decode_vectorMove :
    decode 0b1000011_0000_0001_1000_0000_111_0000_0_1#32 0 = .ok (.vfeq { pd := 0, va := 1, vb := 8, p := 7, wa := false, wb := true }) ∧
    decode 0b1000011_0001_0010_1001_0000_110_0001_1_0#32 0 = .ok (.vflt { pd := 1, va := 2, vb := 9, p := 6, wa := true, wb := false }) ∧
    decode 0b1000011_0010_0011_1010_0000_101_0010_0_1#32 0 = .ok (.vfle { pd := 2, va := 3, vb := 10, p := 5, wa := false, wb := true }) ∧
    decode 0b1000011_0011_0100_1011_0000_100_0011_1_0#32 0 = .ok (.vfne { pd := 3, va := 4, vb := 11, p := 4, wa := true, wb := false }) ∧
    decode 0b1000011_0100_0101_1100_0000_011_0100_0_1#32 0 = .ok (.vieq { pd := 4, va := 5, vb := 12, p := 3, wa := false, wb := true }) ∧
    decode 0b1000011_0101_0110_1101_0000_010_0101_1_0#32 0 = .ok (.vilt { pd := 5, va := 6, vb := 13, p := 2, wa := true, wb := false }) ∧
    decode 0b1000011_0110_0111_1110_0000_001_0110_0_1#32 0 = .ok (.vile { pd := 6, va := 7, vb := 14, p := 1, wa := false, wb := true }) ∧
    decode 0b1000011_0111_1000_1111_0000_000_0111_1_0#32 0 = .ok (.viltz { pd := 7, va := 8, vb := 15, p := 0, wa := true, wb := false }) ∧
    decode 0b1000100_0001_0010_0011_0000_100_0000_1_0#32 0 = .ok (.vsel { vd := 1, va := 2, vb := 3, p := 4, wa := true, wb := false }) ∧
    decode 0b1000100_1111_1110_1101_0000_010_0001_0_1#32 0 = .ok (.vperm { vd := 15, va := 14, vb := 13, p := 2, wa := false, wb := true }) ∧
    decode 0b1000100_0101_0110_0111_1001_001_0010_1_1#32 0 = .ok (.vslide { vd := 5, va := 6, vb := 7, n := 9, p := 1, wa := true, wb := true }) ∧
    decode 0b1000100_1000_1001_0000_0000_011_0011_1_0#32 0 = .ok (.vmov { vd := 8, va := 9, p := 3, wa := true }) ∧
    decode 0b1000100_1010_0000_0000_0000_101_0100_0_0#32 0 = .ok (.viota { vd := 10, p := 5 }) ∧
    decode 0b1000101_0011_10011_0000_010_0000000_0_1#32 0 = .ok (.vbcast { v := 3, x := 19, p := 2, wb := true }) ∧
    decode 0b1000101_0100_10100_1101_000_0000001_1_0#32 0 = .ok (.vext { v := 4, x := 20, w := 13, wa := true }) ∧
    decode 0b1000101_0101_10101_1110_000_0000010_0_1#32 0 = .ok (.vins { v := 5, x := 21, w := 14, wb := true }) ∧
    decode 0b1000101_0110_10110_0000_011_0000011_0_0#32 0 = .ok (.vsum { v := 6, x := 22, p := 3, wa := false }) ∧
    decode 0b1000101_0111_10111_0000_100_0000100_1_0#32 0 = .ok (.vmaxr { v := 7, x := 23, p := 4, wa := true }) ∧
    decode 0b1000101_1000_11000_0000_101_0000101_0_0#32 0 = .ok (.vminr { v := 8, x := 24, p := 5, wa := false }) ∧
    decode 0b1000101_1001_11001_0000_110_0000110_1_0#32 0 = .ok (.visum { v := 9, x := 25, p := 6, wa := true }) ∧
    decode 0b1000101_1010_11010_0000_111_0000111_0_0#32 0 = .ok (.vdsum { v := 10, x := 26, p := 7, wa := false }) ∧
    decode 0b1000101_0000_11011_0000_110_0001000_0_0#32 0 = .ok (.vpcnt { x := 27, p := 6 }) := by
  decide

/-- Words from the tables of R86, R88. -/
theorem test_decode_vectorConvert :
    decode 0b1000110_0000_1111_0000_0000_000_0000_0_0#32 0 = .ok (.vcvtE4m3F32 { vd := 0, va := 15, rnd := 0, p := 0, wa := false }) ∧
    decode 0b1000110_0001_1110_0000_0100_001_0001_1_0#32 0 = .ok (.vcvtE5m2F32 { vd := 1, va := 14, rnd := 1, p := 1, wa := true }) ∧
    decode 0b1000110_0010_1101_0000_1000_010_0010_0_0#32 0 = .ok (.vcvtBf16F32 { vd := 2, va := 13, rnd := 2, p := 2, wa := false }) ∧
    decode 0b1000110_0011_1100_0000_0000_011_0011_1_0#32 0 = .ok (.vcvtF16F32 { vd := 3, va := 12, rnd := 0, p := 3, wa := true }) ∧
    decode 0b1000110_0100_1011_0000_0000_100_0100_0_0#32 0 = .ok (.vcvtF32E4m3 { vd := 4, va := 11, p := 4, wa := false }) ∧
    decode 0b1000110_0101_1010_0000_0000_101_0101_1_0#32 0 = .ok (.vcvtF32E5m2 { vd := 5, va := 10, p := 5, wa := true }) ∧
    decode 0b1000110_0110_1001_0000_0000_110_0110_0_0#32 0 = .ok (.vcvtF32Bf16 { vd := 6, va := 9, p := 6, wa := false }) ∧
    decode 0b1000110_0111_1000_0000_0000_111_0111_1_0#32 0 = .ok (.vcvtF32F16 { vd := 7, va := 8, p := 7, wa := true }) ∧
    decode 0b1000110_1000_0111_0000_1000_000_1000_0_0#32 0 = .ok (.vcvtI32F32 { vd := 8, va := 7, rnd := 2, p := 0, wa := false }) ∧
    decode 0b1000110_1001_0110_0000_0000_001_1001_1_0#32 0 = .ok (.vcvtF32I32 { vd := 9, va := 6, rnd := 0, p := 1, wa := true }) ∧
    decode 0b1000110_1010_0101_0000_0000_010_1010_0_0#32 0 = .ok (.vcvtF64F32 { vd := 10, va := 5, p := 2, wa := false }) ∧
    decode 0b1000110_1011_0100_0000_1000_011_1011_1_0#32 0 = .ok (.vcvtF32F64 { vd := 11, va := 4, rnd := 2, p := 3, wa := true }) ∧
    decode 0b1000110_1100_0011_0000_0000_100_1100_0_0#32 0 = .ok (.vcvtI32F64 { vd := 12, va := 3, rnd := 0, p := 4, wa := false }) ∧
    decode 0b1000110_1101_0010_0000_0000_101_1101_1_0#32 0 = .ok (.vcvtF64I32 { vd := 13, va := 2, p := 5, wa := true }) ∧
    decode 0b1000110_1110_0001_0000_0000_110_1110_0_0#32 0 = .ok (.vcvtI8I32 { vd := 14, va := 1, p := 6, wa := false }) ∧
    decode 0b1000110_1111_0000_0000_0000_111_1111_1_0#32 0 = .ok (.vcvtI32I8 { vd := 15, va := 0, p := 7, wa := true }) ∧
    decode 0b1000111_1001_0000_0000_0000_100_0000_0_0#32 0 = .ok (.vrand { vd := 9, p := 4 }) ∧
    decode 0b1000111_1010_0000_0000_0000_101_0001_0_0#32 0 = .ok (.vunif { vd := 10, p := 5 }) := by
  decide

/-- Words from the tables of R89, R90. -/
theorem test_decode_engine :
    decode 0b1010000_00001_01001_00000_00000000_0_0#32 0xFFFFFFC0 = .ok (.mmaBf16 { tileHi := false, tileLo := 1, a := 9, wa := false, lit := 0xFFFFFFC0 }) ∧
    decode 0b1010000_00010_01010_00000_10000001_1_0#32 0xFFFFFFC0 = .ok (.mmaE4m3 { tileHi := true, tileLo := 2, a := 10, wa := true, lit := 0xFFFFFFC0 }) ∧
    decode 0b1010000_00011_01011_00000_00000010_0_0#32 0xFFFFFFC0 = .ok (.mmaE5m2 { tileHi := false, tileLo := 3, a := 11, wa := false, lit := 0xFFFFFFC0 }) ∧
    decode 0b1010000_00100_01100_00000_10000011_1_0#32 0xFFFFFFC0 = .ok (.mmaXf8 { tileHi := true, tileLo := 4, a := 12, wa := true, lit := 0xFFFFFFC0 }) ∧
    decode 0b1010001_11111_00100_00000_10000000_1_0#32 0 = .ok (.accld { tileHi := true, tileLo := 31, a := 4, b := 0, wa := true, wb := false }) ∧
    decode 0b1010001_11110_00100_00101_00000001_0_1#32 0 = .ok (.accst { tileHi := false, tileLo := 30, a := 4, b := 5, wa := false, wb := true }) ∧
    decode 0b1010001_11101_00000_00000_10000010_0_0#32 0 = .ok (.acczero { tileHi := true, tileLo := 29 }) ∧
    decode 0b1010001_11100_00110_00000_00000011_1_0#32 0 = .ok (.mmresume { tileHi := false, tileLo := 28, a := 6, wa := true }) ∧
    decode 0b1010001_00000_00000_00000_00000100_0_0#32 0 = .ok (.mmwait {}) ∧
    decode 0b1010010_00000_01101_00000_00000000_1_0#32 0x40 = .ok (.vgemv { a := 13, wa := true, lit := 0x40 }) ∧
    decode 0b1010010_00000_01101_01110_00000001_1_1#32 0 = .ok (.vcodes { a := 13, b := 14, wa := true, wb := true }) ∧
    decode 0b1010100_01111_10000_00000_00000000_0_0#32 0 = .ok (.copy { d := 15, a := 16, wa := false }) ∧
    decode 0b1010100_10000_10001_00000_00000001_1_0#32 0 = .ok (.gather { d := 16, a := 17, wa := true }) ∧
    decode 0b1010100_10001_10010_00000_00000010_0_0#32 0 = .ok (.scatter { d := 17, a := 18, wa := false }) ∧
    decode 0b1010100_10010_10011_00000_00000011_1_0#32 0 = .ok (.mcast { d := 18, a := 19, wa := true }) ∧
    decode 0b1010100_10011_10100_00000_00000100_0_0#32 0 = .ok (.ata { d := 19, a := 20, wa := false }) ∧
    decode 0b1010100_00000_10101_00000_00000101_1_0#32 0 = .ok (.castle { a := 21, wa := true }) ∧
    decode 0b1010101_00011_10110_00000_00000000_1_0#32 0 = .ok (.scfg { s := 3, a := 22, wa := true }) ∧
    decode 0b1010101_00010_00000_00000_00000001_0_0#32 0 = .ok (.sstop { s := 2 }) ∧
    decode 0b1010101_00001_00000_00000_00000010_0_0#32 0 = .ok (.sflush { s := 1 }) := by
  decide

/-- Words from the tables of R89. -/
theorem test_decode_task :
    decode 0b1011000_00000_00001_00010_10000000_1_0#32 0 = .ok (.spawn { rel := true, a := 1, b := 2, wa := true, wb := false }) ∧
    decode 0b1011000_00000_00011_00000_00000001_0_0#32 0 = .ok (.spawnd { rel := false, a := 3, wa := false }) ∧
    decode 0b1011000_00000_00100_00000_10000010_1_0#32 0 = .ok (.fork { rel := true, a := 4, wa := true }) ∧
    decode 0b1011000_00000_00101_00110_00000011_0_1#32 0 = .ok (.migrate { rel := false, a := 5, b := 6, wa := false, wb := true }) ∧
    decode 0b1011000_00111_01000_01001_10000100_1_1#32 0 = .ok (.callat { rel := true, d := 7, a := 8, b := 9, wa := true, wb := true }) ∧
    decode 0b1011000_00000_01010_01011_00000101_1_0#32 0 = .ok (.reply { a := 10, b := 11, wa := true, wb := false }) ∧
    decode 0b1011000_00000_00000_00000_00000110_0_0#32 0 = .ok (.done {}) ∧
    decode 0b1011000_00000_00000_00000_00000111_0_0#32 0 = .ok (.trigger {}) := by
  decide

/-- Words from the tables of R91. -/
theorem test_decode_tree :
    decode 0b1100000_00000_00001_00010_00000000_1_0#32 0 = .ok (.tcfg { a := 1, b := 2, wa := true, wb := false }) ∧
    decode 0b1100000_00000_00011_00100_00000001_0_1#32 0 = .ok (.tset { a := 3, b := 4, wa := false, wb := true }) ∧
    decode 0b1100000_00000_00101_01111_00000010_1_1#32 0 = .ok (.tsetv { a := 5, vb := 15, wa := true, wb := true }) ∧
    decode 0b1100000_00110_00111_01110_00000011_1_0#32 0 = .ok (.tsetx { d := 6, a := 7, vb := 14, wa := true, wb := false }) ∧
    decode 0b1100000_01000_01001_00000_00000100_1_0#32 0 = .ok (.tget { d := 8, a := 9, wa := true }) ∧
    decode 0b1100000_01010_00000_00000_00000101_0_0#32 0 = .ok (.troot { d := 10 }) ∧
    decode 0b1100000_00000_00000_00000_00000110_0_0#32 0 = .ok (.tbuild {}) ∧
    decode 0b1100000_11110_00000_00000_00000111_0_0#32 0 = .ok (.tnext { d := 30 }) ∧
    decode 0b1100000_01011_00000_00000_00001000_0_0#32 0 = .ok (.tdraw { d := 11 }) ∧
    decode 0b1100000_01100_01101_00000_00001001_1_0#32 0 = .ok (.tdesc { d := 12, a := 13, wa := true }) ∧
    decode 0b1100000_01110_01111_10000_00001010_0_1#32 0 = .ok (.tthr { d := 14, a := 15, b := 16, wa := false, wb := true }) ∧
    decode 0b1100000_00000_10001_00000_00001011_1_0#32 0 = .ok (.tcut { a := 17, wa := true }) ∧
    decode 0b1100001_00000_10010_10011_00000000_1_0#32 0 = .ok (.bsend { a := 18, b := 19, wa := true, wb := false }) ∧
    decode 0b1100001_10100_10101_00000_00000001_1_0#32 0 = .ok (.tmsg { d := 20, a := 21, wa := true }) ∧
    decode 0b1100001_00000_10110_00000_00000010_1_0#32 0 = .ok (.jundo { a := 22, wa := true }) ∧
    decode 0b1100001_00000_10111_00000_00000011_0_0#32 0 = .ok (.jtrim { a := 23, wa := false }) ∧
    decode 0b1100001_00000_00000_00000_00000100_0_0#32 0 = .ok (.jmark {}) ∧
    decode 0b1100010_11000_00000_00000_00000000_0_0#32 0 = .ok (.rand { d := 24 }) ∧
    decode 0b1100010_11001_00000_00000_00000001_0_0#32 0 = .ok (.unif { d := 25 }) := by
  decide

/-- Words from the tables of R92. -/
theorem test_decode_system :
    decode 0b1110000_00000_00000_00000_00000000_0_0#32 0 = .ok (.nop {}) ∧
    decode 0b1110000_00000_10101_01011_00000001_0_0#32 0 = .ok (.trap { imm := 683 }) ∧
    decode 0b1110000_00000_11111_11110_00000010_0_0#32 0 = .ok (.brk { imm := 1022 }) ∧
    decode 0b1110000_00000_00000_00000_00000011_0_0#32 0 = .ok (.rfe {}) ∧
    decode 0b1110000_00000_00000_00000_00000100_0_0#32 0 = .ok (.yield {}) ∧
    decode 0b1110000_00000_00000_00000_00000101_0_0#32 0 = .ok (.ifence {}) ∧
    decode 0b1110000_00000_00000_00000_00000110_0_0#32 0 = .ok (.halt {}) ∧
    decode 0b1110000_00000_00001_00010_00000111_1_1#32 0 = .ok (.fe { a := 1, b := 2, wa := true, wb := true }) ∧
    decode 0b1110000_00000_00011_00000_00001000_1_0#32 0 = .ok (.tlbinv { a := 3, wa := true }) ∧
    decode 0b1110000_00100_00101_00000_00001001_1_0#32 0 = .ok (.tlbprobe { d := 4, a := 5, wa := true }) ∧
    decode 0b1110000_00110_00000_00000_00001010_0_0#32 0 = .ok (.time { d := 6 }) ∧
    decode 0b1110000_00111_01000_00000_00001011_1_0#32 0 = .ok (.ctrr { d := 7, a := 8, wa := true }) ∧
    decode 0b1110001_01001_00000_0000000001100_0_0#32 0 = .ok (.crr { d := 9, n := 0xC }) ∧
    decode 0b1110010_00000_01010_0001000000100_0_0#32 0 = .ok (.crw { a := 10, n := 0x204, wa := false }) ∧
    decode 0b1110011_00000_01011_0001000000101_1_0#32 0 = .ok (.crs { a := 11, n := 0x205, wa := true }) ∧
    decode 0b1110100_00000_01100_0001000000110_0_0#32 0 = .ok (.crc { a := 12, n := 0x206, wa := false }) := by
  decide

/-! ### Witnesses: decoding, fetching, reset, memory, traps (O1 to O14) -/

theorem witness_DecodeEncode :
    (Instr.bfx { d := 1, a := 2, pos := 40, len1 := 23, s := true, wa := true }).WellFormed ∧
    encode (.bfx { d := 1, a := 2, pos := 40, len1 := 23, s := true, wa := true }) = [0b0001100_00001_00010_101000_010111_1_1_0#32] ∧
    encode (.lix { d := 3, lit := 7 }) = [0b0011001_00011_00000_00000_00000000_0_0#32, 7] := by decide +kernel

theorem witness_EncodeDecode : decode 0b0011001_00011_00000_00000_00000000_0_0#32 7 = .ok (.lix { d := 3, lit := 7 }) := by decide +kernel

/-- The context of `ready` about to issue what stands at its pc. -/
def stepping (w : Word32) : State := { ready.wr (localKey 0 0x200) 4 w.toNat with agenda := [.issue ready.cur] }

theorem witness_StepRunsDecoded :
    (stepping 0xE000_0000).agenda = [.issue ready.cur] ∧ (stepping 0xE000_0000).canTurn ready.cur = true ∧
    ((stepping 0xE000_0000).getSlot ready.cur).causeDue = false ∧
    ends (fetchWords (({ stepping 0xE000_0000 with agenda := [], tick := 1 } : State).issuing ready.cur)) (· = (0xE000_0000, 0)) = true ∧
    decode 0xE000_0000#32 0 = .ok (.nop {}) ∧ (decode 0#32 0).toOption = none ∧
    ends (fetchWords (({ stepping 0 with agenda := [], tick := 1 } : State).issuing ready.cur)) (· = (0, 0)) = true := by decide +kernel

theorem witness_FetchReadsMemory :
    (let s := ready.modSlot fun l => { l with pc := 0x5FFF8 }
     s.slot.prefetched = [] ∧ s.slot.pc.toNat % 4 = 0 ∧ s.slot.pc.toNat ≤ 0x5FFF8 ∧
       s.poisonAt (localKey s.cur.core s.slot.pc.toNat) 8 = none) ∧
    (ready.modSlot fun l => { l with pc := 0x5FFFE }).slot.pc.toNat % 4 ≠ 0 ∧
    0x5FFFC < (ready.modSlot fun l => { l with pc := 0x60000 }).slot.pc.toNat := by decide +kernel

theorem witness_StepKeepsMemory : memWf (stepping 0xE000_0000).mem = true ∧ (exec (.nop {}) ready matches .next _) = true := by decide +kernel

/-- The step of `stepping` is a next state whose pc has moved on. -/
theorem witness_StepKeepsMemory_step : after (step (stepping 0xE000_0000)) (fun t => t.slot.pc = 0x204) = true := by decide +kernel

theorem witness_MemoryReadsBack : memWf ready.mem = true ∧ memWf (stepping 0xE000_0000).mem = true ∧
    (stepping 0xE000_0000).mem.length = 1 := by decide +kernel

theorem witness_TrapEntry_supervisor :
    (ready.slot.mode = .user ∧ ready.core.svec.toNat % 4 = 0 ∧ ready.core.svec.toNat ≤ 0x5FFFC) ∧
    (let s := ready.modCore fun c => { c with svec := 0x60000 }
     s.slot.mode = .user ∧ 0x5FFFC < s.core.svec.toNat) ∧ trapped.slot.mode = .supervisor := by decide +kernel

theorem witness_TrapEntry_user :
    (ready.slot.intrap = false ∧ ready.slot.tvec.toNat % 4 = 0 ∧ ready.slot.tvec.toNat ≤ 0x5FFFC) ∧
    (let s := ready.modSlot fun l => { l with tvec := 0x2002 }
     s.slot.mode = .user ∧ s.slot.tvec.toNat % 4 ≠ 0 ∧ s.core.svec.toNat ≤ 0x5FFFC) ∧
    (ready.modSlot fun l => { l with intrap := true }).slot.intrap = true := by decide +kernel

/-- TRAP in user mode (R111): the frame that `takeSup` leaves. -/
theorem test_trap_entry : (let t := ready.takeSup ready.cur 0x0511 0x77 0x200
    t.slot.sepc = 0x200 ∧ t.slot.scause = 0x0511 ∧ t.slot.sval = 0x77 ∧ t.slot.mode = .supervisor ∧ t.slot.pc = 0x1000) := by decide +kernel

theorem witness_ReturnFromTrap :
    (trapped.slot.mode = .supervisor ∧ trapped.slot.sepc.toNat % 4 = 0 ∧ trapped.slot.sepc.toNat ≤ 0x5FFFC) ∧
    (let s := trapped.modSlot fun l => { l with sepc := 0x60000 }
     s.slot.mode = .supervisor ∧ 0x5FFFC < s.slot.sepc.toNat) ∧
    (let s := ready.modSlot fun l => { l with intrap := true, tepc := 0x5FFFC, cdq := [{ xfer := 1, handler := 0x3000 }] }
     s.slot.mode = .user ∧ s.slot.intrap = true ∧ s.slot.tepc.toNat % 4 = 0 ∧ s.slot.tepc.toNat ≤ 0x5FFFC ∧ s.slot.asyncs = [] ∧
       s.slot.cdq ≠ []) ∧
    (let s := ready.modSlot fun l => { l with intrap := true, tepc := 0x206 }
     s.slot.mode = .user ∧ s.slot.intrap = true ∧ s.slot.tepc.toNat % 4 ≠ 0) ∧
    ready.slot.mode = .user ∧ ready.slot.intrap = false := by decide +kernel

/-- `rfe` from supervisor mode goes to CR.SEPC in user mode (R113). -/
theorem test_rfe : after (exec (.rfe {}) trapped) (fun t => t.slot.pc = 0x300 && t.slot.mode = .user && t.slot.st = .ready) = true := by
  decide +kernel

/-- `trap` enters the user handler with CR.TEPC at the next instruction (R114, R110). -/
theorem test_trap : after (exec (.trap { imm := 9 }) ready)
    (fun t => t.slot.pc = 0x2000 && t.slot.tepc = 0x204 && t.slot.tcause = 7 && t.slot.tval = 9 && t.slot.intrap) = true := by decide +kernel

theorem witness_IssueRule :
    (let s := ready.modSlot fun l => { l with xfull := BitVec.allOnes 32 - 4 }
     (∀ q ∈ [((.x 1 : Reg), false)], s.slot.srcEmpty q.1 = false) ∧ s.slot.srcEmpty (.x 2) = true ∧ s.slot.xIsFull 1 = true ∧
       s.slot.xIsFull 2 = false) ∧
    ends (issueRule ready [(.x 1, false), (.v 2, true)] [.x 3, .v 15]) (fun _ => true) = true := by decide +kernel

theorem witness_PrivilegedIllegal :
    (ready.slot.mode = .user ∧ (∀ n ∈ [(4 : XReg)], ready.slot.xIsFull n = true) ∧ 0x200 ≤ (0x200#13).toNat ∧
      crUser (0x000#13).toNat ≠ .rw) ∧ trapped.slot.mode = .supervisor := by decide +kernel

/-! ### Witnesses: scalar, control and system instructions (O15 to O22) -/

/-- Operand values at the edges: the least signed number, −1, 0, 64 and small ones. -/
def edges : State := regs ready [(1, 0x8000_0000_0000_0000), (2, BitVec.allOnes 64), (4, 64), (5, 7), (6, 0x1234)]

theorem witness_ScalarResults :
    scalarResult edges (.mulh { d := 3, a := 1, b := 2, wa := false, wb := false }) = some ([1, 2, 3], 3, 0) ∧
    scalarResult edges (.sra { d := 0, a := 1, b := 4, wa := false, wb := false }) = some ([1, 4, 0], 0, 0x8000_0000_0000_0000) ∧
    scalarResult edges (.addw { d := 5, a := 5, b := 2, wa := true, wb := true }) = some ([5, 2, 5], 5, 6) ∧
    scalarResult edges (.sltzi { d := 3, a := 1, imm := 0x1FFF, wa := false }) = some ([1, 3], 3, 1) ∧
    scalarResult edges (.lix { d := 3, lit := 0x8000_0000 }) = some ([3], 3, 0xFFFF_FFFF_8000_0000) ∧
    ∀ n : XReg, edges.slot.xIsFull n = true := by decide +kernel

/-- `mulh` of the least number and −1 (R99): the high half of 2^63 is 0. -/
theorem test_mulh : after (exec (.mulh { d := 3, a := 1, b := 2, wa := false, wb := false }) edges) (fun t => t.slot.getX 3 = 0) = true := by
  decide +kernel

/-- `addw` wraps in 32 bits and extends the sign; the destination is a source (R99). -/
theorem test_addw : after (exec (.addw { d := 5, a := 5, b := 2, wa := false, wb := false }) edges)
    (fun t => t.slot.getX 5 = 6 && t.slot.pc = 0x204) = true := by decide +kernel

/-- `lix` moves on by eight bytes (R73). -/
theorem test_lix : after (exec (.lix { d := 3, lit := 0x8000_0000 }) edges)
    (fun t => t.slot.getX 3 = 0xFFFF_FFFF_8000_0000 && t.slot.pc = 0x208) = true := by decide +kernel

/-- x0 ignores the write of `sub` (R19). -/
theorem test_sub_x0 : after (exec (.sub { d := 0, a := 4, b := 5, wa := false, wb := false }) edges)
    (fun t => t.slot.getX 0 = 0 && t.slot.pc = 0x204) = true := by decide +kernel

theorem witness_BitsAndDivision :
    (bitResult edges (.clz { d := 3, a := 5, wa := false })).isSome = true ∧
    (bitResult edges (.bfi { d := 2, a := 6, pos := 32, len1 := 31, wa := false })).isSome = true ∧
    divResult edges (.rem { d := 3, a := 1, b := 2, wa := false, wb := false }) =
      some ({ d := 3, a := 1, b := 2, wa := false, wb := false }, 0, 0x8000_0000_0000_0000) ∧
    divResult edges (.div { d := 3, a := 1, b := 2, wa := false, wb := false }) =
      some ({ d := 3, a := 1, b := 2, wa := false, wb := false }, 0x8000_0000_0000_0000, BitVec.allOnes 64) ∧
    edges.xv 2 ≠ 0 ∧ edges.xv 7 = 0 ∧ edges.slot.mode = .user ∧ edges.slot.axen.getLsbD 5 = false ∧
    (let s := edges.modSlot fun l => { l with axen := 0x20 }
     s.slot.mode = .user ∧ s.slot.axen.getLsbD 5 = true ∧ s.slot.intrap = false ∧ s.slot.tvec.toNat % 4 = 0 ∧
       s.slot.tvec.toNat ≤ 0x5FFFC) := by decide +kernel

/-- Division by zero gives all ones, counts in counter 5 and traps where CR.AXEN enables it (R100, R57). -/
theorem test_div_zero : after (exec (.div { d := 3, a := 5, b := 7, wa := false, wb := false })
      (edges.modSlot fun l => { l with axen := 0x20 }))
    (fun t => t.slot.getX 3 = BitVec.allOnes 64 && t.core.xcnt[5] = 1 && t.slot.pc = 0x2000 && t.slot.tepc = 0x204) = true := by decide +kernel

/-- `bfi` and `bfx` on the upper half (R102). -/
theorem test_bit_fields :
    after (exec (.bfi { d := 2, a := 6, pos := 32, len1 := 31, wa := false }) edges)
      (fun t => t.slot.getX 2 = 0x0000_1234_FFFF_FFFF) = true ∧
    after (exec (.bfx { d := 3, a := 1, pos := 60, len1 := 3, s := true, wa := false }) edges)
      (fun t => t.slot.getX 3 = 0xFFFF_FFFF_FFFF_FFF8) = true ∧
    after (exec (.ctz { d := 3, a := 1, wa := false }) edges) (fun t => t.slot.getX 3 = 63) = true ∧
    after (exec (.bswap { d := 3, a := 6, wa := false }) edges) (fun t => t.slot.getX 3 = 0x3412_0000_0000_0000) = true := by decide +kernel

theorem witness_BranchesAndJumps :
    branchTaken edges (.bltz { a := 5, b := 4, off := 0x1FF0, wa := false, wb := false }) =
      some ({ a := 5, b := 4, off := 0x1FF0, wa := false, wb := false }, (edges.xv 5).toNat < (edges.xv 4).toNat) ∧
    ((edges.xv 5).toNat < (edges.xv 4).toNat ∧ ¬(edges.xv 4).toNat < (edges.xv 5).toNat) ∧
    (let t := edges.slot.pc.setWidth 64 + 4 * (0x1FF0#13).signExtend 64
     t.toNat % 4 = 0 ∧ t.toNat ≤ 0x5FFFC) ∧
    (let t := edges.slot.pc.setWidth 64 + 4 * (0x1000#13).signExtend 64
     ¬t.toNat ≤ 0x5FFFC) ∧
    (let t := (regs ready [(1, 0x0000_1000_0005_FFFC)]).xv 1
     t.extractLsb' 44 20 = 1 ∧ t.extractLsb' 42 2 = 0 ∧ t.extractLsb' 24 18 = ready.cur.core ∧ t.extractLsb' 20 4 = 0 ∧
       (t.extractLsb' 0 20).toNat % 4 = 0 ∧ (t.extractLsb' 0 20).toNat ≤ 0x5FFFC) ∧
    (edges.xv 4).extractLsb' 20 44 = 0 := by
  exact ⟨rfl, by decide, by decide, by decide, by decide, by decide⟩

/-- A taken `bltz` goes back sixteen words; `jal` keeps pc + 4 (R103, R104). -/
theorem test_branches :
    after (exec (.bltz { a := 5, b := 4, off := 0x1FF0, wa := false, wb := false }) edges) (fun t => t.slot.pc = 0x1C0) = true ∧
    after (exec (.bltz { a := 4, b := 5, off := 0x1FF0, wa := false, wb := false }) edges) (fun t => t.slot.pc = 0x204) = true ∧
    after (exec (.jal { d := 1, off := 0x10 }) edges) (fun t => t.slot.pc = 0x240 && t.slot.getX 1 = 0x204) = true ∧
    after (exec (.jalr { d := 4, a := 4, imm := 4, wa := false }) edges) (fun t => t.slot.pc = 0x44 && t.slot.getX 4 = 0x204) = true := by
  decide +kernel

theorem witness_LoopResult :
    ((regs ready [(1, 1)]).xv 1 - 1 = 0 ∧ (regs ready [(1, 2)]).xv 1 - 1 ≠ 0 ∧ ready.xv 1 = 0 ∧ ready.slot.xIsFull 1 = true) ∧
    (let t := ready.slot.pc.setWidth 64 + 4 * (0x1FFD#13).signExtend 64
     t.toNat % 4 = 0 ∧ t.toNat ≤ 0x5FFFC) ∧
    ¬(ready.slot.pc.setWidth 64 + 4 * (0x1000#13).signExtend 64).toNat ≤ 0x5FFFC ∧
    (ready.modSlot fun l => { l with xfull := 0 }).slot.xIsFull 1 = false := by decide +kernel

/-- `loop` of 1 falls through with 0, and of 0 goes back with all ones (R105). -/
theorem test_loop :
    after (exec (.loop { a := 1, off := 0x1FFD, wa := false }) (regs ready [(1, 1)])) (fun t => t.slot.pc = 0x204 && t.slot.getX 1 = 0) =
      true ∧
    after (exec (.loop { a := 1, off := 0x1FFD, wa := false }) ready) (fun t => t.slot.pc = 0x1F4 && t.slot.getX 1 = BitVec.allOnes 64) =
      true := by decide +kernel

theorem witness_ControlRegisterFields :
    (crSup 0x045 = .rw ∧ crSup 0x060 = .rw ∧ crSup 0x204 = .rw ∧ crSup 0x082 = .rw) ∧
    (ready.crWrite 0x045 (BitVec.allOnes 64)).crRead 0x045 = crAfterWrite 0x045 (ready.crRead 0x045) (BitVec.allOnes 64) ∧
    (ready.crWrite 0x060 (BitVec.allOnes 64)).crRead 0x060 = 0x0FFF_FFFF_FFFF_FFFF ∧
    (ready.crWrite 0x204 (BitVec.allOnes 64)).crRead 0x204 = 0xF_FFFF := by decide +kernel

theorem witness_ControlRegisterAccess :
    (crAccess ready.slot.mode (0x004#13).toNat ≠ .none ∧ crHeld (0x004#13).toNat = false) ∧
    (crHeld (0x050#13).toNat = true ∧ ready.core.commandsSettled = true ∧
      (ready.modCore fun c => { c with mat := { queue := [], run := some (matCmd .acczero), parked := none } }).core.commandsSettled = false) ∧
    (crAccess ready.slot.mode (0x003#13).toNat = .rw ∨ crAccess trapped.slot.mode (0x204#13).toNat = .rw) ∧
    (crAccess trapped.slot.mode (0x045#13).toNat = .rw ∧ (0x0006_0000_0000_0000 : Word).extractLsb' 48 4 = 6) := by decide +kernel

theorem witness_SystemResults_fe :
    (47 < (48 : Word).toNat ∧ (let s := ready.modSlot fun l => { l with sm := 1 }
      s.slot.sm.getLsbD (44 - 44) = true)) ∧
    (let s := regs ready [(1, 47)]
     (s.xv 1).toNat = 47 ∧ s.returning s.cur (regOfNumber 47) = false) ∧
    (let s := asked (regs ready [(1, 9)]) 0x400 (.load { key := localKey 0 0x400, len := 4 } .raw false 9)
     s.returning s.cur (regOfNumber 9) = true) := by decide +kernel

/-- `fe` empties x9, and the x9 of a `callat` in flight is let go (R118). -/
theorem test_fe :
    after (exec (.fe { a := 1, b := 2, wa := false, wb := false }) (regs ready [(1, 9)]))
      (fun t => t.slot.xIsFull 9 = false && t.slot.xIsFull 8 && t.slot.pc = 0x204) = true ∧
    after (exec (.fe { a := 1, b := 1, wa := false, wb := false }) ((regs ready [(1, 9)]).modSlot fun l => { l with callp := 0x300 }))
      (fun t => t.slot.xIsFull 9 && t.slot.callp = 0x100) = true := by decide +kernel

theorem witness_SystemResults :
    ((∀ r ∈ ready.reqsOf ready.cur, r.pendingBytes = []) ∧
      (∃ r ∈ (asked ready 0x400 (.store [(localKey 0 0x400, [1])] none)).reqsOf ready.cur, r.pendingBytes ≠ [])) ∧
    (trapped.slot.mode = .supervisor ∧ trapped.slot.xIsFull 1 = true) ∧
    (let s := (regs trapped [(1, 0x8000_0000_0000)]).modCore fun c => { c with tlb := [{ va := 0, size := 65536, leaf := 7 }] }
     8 ≤ (s.xv 1).extractLsb' 44 4 ∧ s.core.tlbFind ((s.xv 1).extractLsb' 0 47).toNat = some { va := 0, size := 65536, leaf := 7 }) ∧
    ((regs trapped [(1, 0x7FFF_FFFF_FFFF)]).xv 1).extractLsb' 44 4 < 8 ∧
    4 < ((regs ready [(1, 5)]).xv 1).toNat := by decide +kernel

/-- Two contexts of core 0 about to run `nop`, slot 1 of age `age`, and the core's next cycle. -/
def racing (age : Nat) : State :=
  let s := ready.modCore fun c => { c with slots := c.slots.set 1 { c.slots[1] with st := .ready, pc := 0x200, prio := 2, age := age } }
  { s.wr (localKey 0 0x200) 4 0xE000_0000 with agenda := [.cycle 0] }

theorem witness_SystemResults_issue : ∀ a ∈ [3, 64],
    let s := racing a
    let b := ({ s with agenda := [], tick := s.tick + 1 } : State)
    s.agenda = [.cycle 0] ∧
    (∀ i : Fin 16, (match b.turn (slotAt 0 i) with
      | .refused _ => false
      | _ => true) = true) ∧
    (∀ i : Fin 2, b.canTurn (slotAt 0 (i.castLE (by decide))) = true ∧
      after (b.turn (slotAt 0 (i.castLE (by decide)))) (fun u => (u.getSlot (slotAt 0 (i.castLE (by decide)))).wait = none) = true) ∧
    ((b.getSlot (slotAt 0 1)).age < 64 ↔ a = 3) := by decide +kernel

/-- The higher priority issues, and the oldest context of age 64 or more before it (R330). -/
theorem test_issue_choice :
    after (step (racing 3)) (fun t => (t.getSlot (slotAt 0 1)).pc = 0x204 && (t.getSlot (slotAt 0 0)).pc = 0x200 &&
      (t.getSlot (slotAt 0 0)).age = 1) = true ∧
    after (step { (racing 64).modSlot (fun l => { l with prio := 3, age := 70 }) with agenda := [.cycle 0] }) (fun t =>
      (t.getSlot (slotAt 0 1)).pc = 0x200 && (t.getSlot (slotAt 0 0)).pc = 0x204 && (t.getSlot (slotAt 0 1)).age = 65) = true := by
  decide +kernel

/-- Monitor 1 of core 0 takes source 5 in bins from 2^3 on (R393, R394). -/
def watching : Core := { ready.core with monsel := ready.core.monsel.set 1 0x305 }

theorem witness_SystemResults_monitors :
    (watching.monsel[(1 : Fin 4)].extractLsb' 0 4).toNat = 5 ∧ (watching.monsel[(0 : Fin 4)].extractLsb' 0 4).toNat ≠ 5 ∧
    (7 : Word).toNat < 2 ^ (watching.monsel[(1 : Fin 4)].extractLsb' 8 4).toNat ∧
    (2 ^ (3 + 15 - 1) ≤ (BitVec.allOnes 64).toNat) ∧ (2 ^ (3 + 1 - 1) ≤ (15 : Word).toNat ∧ (15 : Word).toNat < 2 ^ (3 + 1)) := by decide +kernel

/-! ### Witnesses: accesses and their homes (O23 to O29) -/

/-- A place of raw bytes in the own local memory of core 0. -/
def own (off : Nat) : Place := { key := localKey 0 off, win := .raw }

/-- Addresses at the edges: aligned at the end of local memory, not aligned, past the end, and window 3 of the core. -/
def bases : State := regs ready [(1, 0x5FFF8), (2, 0x5FFFA), (3, 0x5FFFC), (4, 0x60000), (6, 0x3000), (7, 0x30_0000)]

theorem witness_LoadIssue :
    loadForm (.ldd { d := 5, a := 1, imm := 0, wa := false }) = some ({ d := 5, a := 1, imm := 0, wa := false }, 8, true, false) ∧
    (∀ n : XReg, bases.slot.xIsFull n = true) ∧
    ends (scalarPlace bases (bases.xv 1) 8 .r false) (fun r => r.2 = own 0x5FFF8) = true ∧
    ((bases.xv 1).toNat % 8 = 0 ∧ (bases.xv 1).toNat + 8 ≤ 0x60000) ∧
    ((bases.xv 2).toNat % 4 ≠ 0 ∧ (bases.xv 2).toNat + 4 ≤ 0x60000) ∧
    (0x60000 < (bases.xv 3).toNat + 8 ∧ (bases.xv 4).toNat < 2 ^ 20) := by decide +kernel

/-- A load empties its destination, moves on, and waits at its home (R126); one beyond the local memory faults (R35). -/
theorem test_load_issue :
    after (exec (.ldzw { d := 5, a := 6, imm := 4, wa := false }) bases) (fun t => t.slot.xIsFull 5 = false && t.slot.pc = 0x204 &&
      t.reqs.map (·.op) = [.load { key := localKey 0 0x3004, len := 4 } .raw false 5]) = true ∧
    after (exec (.ldd { d := 5, a := 3, imm := 0, wa := false }) bases) (fun t => t.slot.scause = 0x0311 && t.slot.sval = 0x5FFFC) = true ∧
    after (exec (.ldw { d := 5, a := 2, imm := 0, wa := false }) bases) (fun t => t.slot.scause = 0x0511 && t.slot.sval = 0x5FFFA) = true := by
  decide +kernel

theorem witness_StoreIssue :
    storeForm (.stw { b := 5, a := 7, imm := 0, wa := false, wb := false }) =
      some ({ b := 5, a := 7, imm := 0, wa := false, wb := false }, 4, true) ∧
    ends (scalarPlace bases (bases.xv 1) 8 .w false) (fun r => r.2 = own 0x5FFF8 && r.2.win = .raw) = true ∧
    ends (scalarPlace bases (bases.xv 7) 4 .w true) (fun r => r.2.win = .bf16) = true ∧ bases.slot.rmode = false := by decide +kernel

/-- A word store to window 3 sends two bytes, narrowed to BF16 (R36, R127): 1.0 is 0x3F80. -/
theorem test_window_store : after (exec (.stw { b := 5, a := 7, imm := 0, wa := false, wb := false }) (regs bases [(5, 0x3F80_0000)]))
    (fun t => t.reqs.map (·.op) = [.store [(localKey 0 0, [0x80, 0x3F])] none]) = true := by decide +kernel

theorem witness_AcquireReleaseIssue :
    acquireForm (.ldad { d := 5, a := 1, scope := 6, off := 0, wa := false }) =
      some ({ d := 5, a := 1, scope := 6, off := 0, wa := false }, 8) ∧
    ends (scalarPlace bases (bases.xv 1) 8 .r false) (fun r => r.2 = own 0x5FFF8) = true ∧
    (bases.xv 2).toNat % 4 ≠ 0 ∧ ((regs ready [(2, 0x5FFF7)]).xv 2).toNat % 8 ≠ 0 ∧
    ((regs ready [(2, 0x5FFF7)]).xv 2).toNat + 8 ≤ 0x60000 ∧
    releaseForm (.strw { b := 5, a := 1, scope := 2, off := 0, wa := false, wb := false }) =
      some ({ b := 5, a := 1, scope := 2, off := 0, wa := false, wb := false }, 4) ∧
    ends (scalarPlace bases (bases.xv 1) 4 .w false) (fun r => r.2 = own 0x5FFF8) = true := by
  refine ⟨by decide, by decide, by decide, by decide, by decide, by decide, by decide⟩

/-- Memory holding eight bytes at 0x400 of core 0. -/
def filled : State := ready.wr (localKey 0 0x400) 8 0x8877_6655_4433_2211

/-- A load of the byte 0x88 in flight. -/
def loading : State := asked filled 0x407 (.load { key := localKey 0 0x407, len := 1 } .raw true 9)

/-- An acquire load of the word at 0x404 in flight. -/
def acquiring : State := asked filled 0x404 (.acq { key := localKey 0 0x404, len := 4 } 6 9)

theorem witness_HomeAppliesLoads :
    ((req7 loading).any fun r => loading.homeReady r && decide (r.op = .load { key := localKey 0 0x407, len := 1 } .raw true 9) &&
      decide (homeCore (localKey 0 0x407) = some r.core)) = true ∧
    ((req7 acquiring).any fun r => acquiring.homeReady r && decide (r.op = .acq { key := localKey 0 0x404, len := 4 } 6 9)) = true ∧
    ((req7 (asked filled 0 (.load { key := localKey 0 0x407, len := 1 } .raw true 9) true)).any fun r =>
      !(asked filled 0 (.load { key := localKey 0 0x407, len := 1 } .raw true 9) true).homeReady r) = true ∧
    [(1 : Byte)].length = 1 := by decide +kernel

/-- The home of a signed byte load answers its sign extension (R126); an acquire load answers its own way (R128). -/
theorem test_home_load :
    after (exec (.homeAccess 7) loading) (fun t => t.reqs.map (·.res) = [.word 0xFFFF_FFFF_FFFF_FF88 false] && t.mem = loading.mem) = true ∧
    after (exec (.homeAccess 7) acquiring) (fun t => t.reqs.map (·.res) = [.word 0xFFFF_FFFF_8877_6655 false]) = true := by decide +kernel

/-- A two-byte store in flight, and a journaled `jst`. -/
def storing : State := asked filled 0x402 (.store [(localKey 0 0x402, [0xAA, 0xBB])] none)

/-- A `jst` whose record goes to 0x800. -/
def journaling : State := asked filled 0x400 (.jst (localKey 0 0x400) 5 (some (0x800, 0x400, 9)))

theorem witness_HomeAppliesStores :
    ((req7 storing).any fun r => storing.homeReady r && decide (r.op = .store [(localKey 0 0x402, [0xAA, 0xBB])] none)) = true ∧
    memWf storing.mem = true ∧ storing.core.meetsInbox 0x402 2 = false ∧
    (asked filled 0x50000 (.store [(localKey 0 0x50000, [1])] none)).core.meetsInbox 0x50000 1 = true ∧
    ((req7 journaling).any fun r => journaling.homeReady r &&
      decide (r.op = .jst (localKey 0 0x400) 5 (some (0x800, 0x400, 9)))) = true ∧
    ((req7 (asked filled 0x400 (.jst (localKey 0 0x400) 5 none))).any fun r =>
      (asked filled 0x400 (.jst (localKey 0 0x400) 5 none)).homeReady r) = true := by decide +kernel

/-- A store changes its bytes alone; a journaled `jst` keeps the old word in its record (R127, R129, R232). -/
theorem test_home_store :
    after (exec (.homeAccess 7) storing) (fun t => t.rd (localKey 0 0x400) 8 = 0x8877_6655_BBAA_2211) = true ∧
    after (exec (.homeAccess 7) journaling) (fun t => t.rd (localKey 0 0x400) 8 = 5 && t.rd (localKey 0 0x808) 8 = 0x8877_6655_4433_2211 &&
      t.rd (localKey 0 0x800) 8 = 0x400_0000_0002 && t.rd (localKey 0 0x810) 8 = 9) = true := by decide +kernel

/-- An `amo` of a word in flight. -/
def swapping (fn : AmoFn) (dOld : Word) : State :=
  asked filled 0x404 (.amo { key := localKey 0 0x404, len := 4 } fn 0x1111_1111 dOld 0 9)

theorem witness_HomeAppliesAtomics :
    ((req7 (swapping .cas 0)).any fun r => (swapping .cas 0).homeReady r) = true ∧
    (swapping .cas 0).poisonAt (localKey 0 0x404) 4 = none ∧
    (let s := { swapping .cas 0 with poison := [localKey 0 0x400 / 8] }
     (s.poisonAt (localKey 0 0x404) 4).isSome = true ∧ ((req7 s).any fun r => s.homeReady r) = true) ∧
    (let s := asked filled 0x404 (.red { key := localKey 0 0x404, len := 4 } .minz 3)
     ((req7 s).any fun r => s.homeReady r) = true ∧ s.poisonAt (localKey 0 0x404) 4 = none) := by decide +kernel

/-- `amoadd` adds and `amocas` with another expected value stores nothing; both answer the old value (R132). -/
theorem test_home_atomic :
    after (exec (.homeAccess 7) (swapping .add 0)) (fun t => t.rd (localKey 0 0x400) 8 = 0x9988_7766_4433_2211 &&
      t.reqs.map (·.res) = [.word 0xFFFF_FFFF_8877_6655 false]) = true ∧
    after (exec (.homeAccess 7) (swapping .cas 0)) (fun t => t.mem = filled.mem) = true := by decide +kernel

/-- A load of x9 whose answer has come, poisoned or not. -/
def answered (bad : Bool) : State :=
  asked (filled.modSlot fun l => l.markX 9 false) 0x407 (.load { key := localKey 0 0x407, len := 1 } .raw true 9) true (.word 77 bad)

/-- An acquire load whose answer has come. -/
def acquired (bad : Bool) : State := asked filled 0x404 (.acq { key := localKey 0 0x404, len := 4 } 6 9) true (.word 77 bad)

theorem witness_ReturningOperationsComplete :
    ((req7 (answered true)).any fun r => r.applied && decide (r.res = .word 77 true) && (answered true).alive r &&
      decide (homeCore (localKey 0 0x407) = some r.core) && !(answered true).splitPending 7) = true ∧
    ((req7 loading).any fun r => !r.applied && !loading.splitPending 7) = true ∧
    (let s := (answered false).modSlot fun l => { l with gen := 6 }
     ((req7 s).any fun r => r.applied && !s.alive r) = true) ∧
    ((req7 (acquired false)).any fun r => r.applied && decide (r.peers = []) && (acquired false).alive r) = true ∧
    ((req7 (acquired true)).any fun r => decide (((acquired true).getSlot r.slotId).mode = .user) &&
      decide (((acquired true).getCore r.core).svec.toNat ≤ 0x5FFFC)) = true ∧
    (let s := asked filled 0x404 (.amo { key := localKey 0 0x404, len := 4 } .add 1 0 1 9) true (.word 77 false)
     ((req7 s).any fun r => r.applied && decide (r.fpEvents = 0) && s.alive r) = true) := by decide +kernel

/-- The answer fills x9; a poisoned one leaves POISON pending (R124), and for an acquire load is taken at the instruction (R128). -/
theorem test_load_completes :
    after (exec (.returningOperationComplete 7) (answered true)) (fun t => t.slot.getX 9 = 77 && t.slot.xIsFull 9 && t.reqs = [] &&
      t.slot.asyncs = [{ scause := 0x12, val := 0x407, engine := none }] && t.slot.pc = 0x200) = true ∧
    after (exec (.returningOperationComplete 7) (acquired false)) (fun t => t.slot.getX 9 = 77 && t.slot.pc = 0x204) = true ∧
    after (exec (.returningOperationComplete 7) (acquired true)) (fun t => t.slot.scause = 0x12 && t.slot.sval = 0x404 &&
      t.slot.sepc = 0x200 && t.slot.pc = 0x1000) = true := by decide +kernel

/-- A remote load of the byte 0x44 in flight, its line held with another byte there, or one of an older store of the context's own. -/
def remote (rlb : List RlbLine) (before : List Req) : State :=
  let s := (filled.wr (localKey 1 0x400) 8 0x44).modCore fun c => { c with rlb := rlb }
  asked { s with reqs := before } 0x1_0000_0000_0400 (.load { key := localKey 1 0x400, len := 1 } .raw true 9)

/-- The line of `remote`, with 0x55 at its start and its first granule poisoned. -/
def line : RlbLine := { key := localKey 1 0x400, bytes := List.replicate 64 0x55, poison := 1 }

theorem witness_HomeAppliesLoads_remote :
    (∀ l ∈ [[], [line]], ((req7 (remote l [])).any fun r => (remote l []).homeReady r && decide (homeCore (localKey 1 0x400) ≠ some r.core) &&
      decide ((remote l []).passing r.slotId r.gen r.id = [])) = true) ∧
    (let old := (asked filled 0 (.store [(localKey 1 0x400, [0x66])] none)).reqs.map fun r => { r with id := 6 }
     ((req7 (remote [] old)).any fun r => (remote [] old).homeReady r && decide ((remote [] old).passing r.slotId r.gen r.id ≠ [])) = true) ∧
    (({ remote [] [] with poison := [localKey 1 0x400 / 8] } : State).fetchLine (localKey 1 0x400)).poison.getLsbD 0 = true := by decide +kernel

/-- A missing line is fetched and kept; a held one answers, with its poison (R125, R291). -/
theorem test_remote_load :
    after (exec (.homeAccess 7) (remote [] [])) (fun t => t.reqs.map (·.res) = [.word 0x44 false] && t.core.rlb.map (·.key) = [localKey 1 0x400]) =
      true ∧
    after (exec (.homeAccess 7) (remote [line] [])) (fun t => t.reqs.map (·.res) = [.word 0x55 true]) = true := by decide +kernel

/-- A join object at 0x400 with a count and a message to core 77, and a `joinc` to it in flight. -/
def joining (count dest hdr : Nat) : State :=
  let k := localKey 0 0x400
  asked ((((ready.wr k 8 count).wr (k + 8) 8 dest).wr (k + 64) 8 hdr).wr (k + 72) 8 0x77) 0x400 (.joinc k 9)

theorem witness_HomeAppliesAtomics_join :
    (∀ s ∈ [joining 2 77 0x300, joining 1 (2 ^ 19 - 1) (0x300 + 8 * 2 ^ 20), joining 1 (2 ^ 19) 0x300, joining 1 77 (9 * 2 ^ 20),
        joining 1 77 (2 ^ 25), { joining 1 77 0 with poison := [localKey 0 0x400 / 8] }],
      ((req7 s).any fun r => s.homeReady r) = true ∧ homeCore (localKey 0 0x400) = some 0 ∧ memWf s.mem = true) ∧
    (joining 2 77 0x300).rd64 (localKey 0 0x400) - 1 ≠ 0 ∧ (joining 1 77 0x300).rd64 (localKey 0 0x400) - 1 = 0 ∧
    ({ joining 1 77 0 with poison := [localKey 0 0x400 / 8] } : State).poisonAt (localKey 0 0x400) 8 ≠ none ∧
    (let s : State := { asked filled 0x404 (.red { key := localKey 0 0x404, len := 4 } .minz 3) with poison := [localKey 0 0x400 / 8] }
     s.poisonAt (localKey 0 0x404) 4 ≠ none ∧ ((req7 s).any fun r => s.homeReady r) = true) := by decide +kernel

/-- The count that reaches zero dispatches the message with its argument (R134); one that does not answers what is left. -/
theorem test_join :
    after (exec (.homeAccess 7) (joining 1 77 (0x300 + 2 ^ 20))) (fun t => t.rd (localKey 0 0x400) 8 = 0 && t.tmsgs.map (·.dst) = [.core 77] &&
      t.tmsgs.all (fun m => m.held.task.handler = 0x300 && m.held.task.args[0] = 0x77)) = true ∧
    after (exec (.homeAccess 7) (joining 2 77 0x300)) (fun t => t.tmsgs = [] && t.reqs.map (·.res) = [.word 1 false]) = true := by decide +kernel

/-! ### Witnesses: vectors and draws (O30 to O35) -/

/-- Lanes 1.0, 2.0, 3.0, … as FP32 in v1, and integers 0, 1, 2, … in v2; p1 has lanes 0 to 3. -/
def vectors : State :=
  ready.modSlot fun l =>
    ((l.setV 1 (lanes fun i => BitVec.ofNat 32 (fp32.ofInt .rne (i + 1)).bits)).setV 2 (lanes fun i => BitVec.ofNat 32 i)).setP 1 0x000F

/-- Stream s0 (v12) as an input with two elements ready, or one whose address faulted; s1 (v13) as an output. -/
def streaming (e : StreamElem) : State :=
  vectors.modSlot fun l =>
    { l with
      sm := 3, sd := 2
      streams := (l.streams.set 0 { StreamCfg.off with c0 := 9, c1 := 1, c2 := 1, pos := 4, pre := [e, .ok (lanes fun _ => 1) none] }).set 1
        { StreamCfg.off with base := 0x4000, c0 := 8, c1 := 1, c2 := 1 } }

theorem witness_VectorOperands :
    (∀ v ∈ [(1 : VReg), 15], vectors.slot.streamOf v = none) ∧
    (let s := streaming (.ok (lanes fun _ => 7) none)
     s.slot.streamOf 12 = some 0 ∧ (s.slot.streams[(0 : Fin 4)]).pre = [.ok (lanes fun _ => 7) none, .ok (lanes fun _ => 1) none] ∧
     s.slot.streamOf 13 = some 1 ∧ s.slot.rmode = false ∧
     ends (pushPlace s s.slot.streams[(1 : Fin 4)]) (fun r => r.2.1.length = 16 && r.1.slot.rmode = false) = true) ∧
    (let s := streaming (.fault 0x0511 0x44)
     (s.slot.streams[(0 : Fin 4)]).pre = [.fault 0x0511 0x44, .ok (lanes fun _ => 1) none]) := by decide +kernel

theorem witness_VectorLanes :
    (vec32Form (.vfma { vd := 3, va := 1, vb := 1, vc := 1, p := 1, wa := false, wb := false })).isSome = true ∧
    (vec64Form (.ddiv { vd := 3, va := 1, vb := 1, p := 1, wa := false, wb := false })).isSome = true ∧
    (widenForm (.vcvtF64I32 { vd := 3, va := 2, p := 1, wa := false })).isSome = true ∧
    ends (issueRule vectors [(.v 1, false), (.v 1, false), (.v 1, false)] [.v 3]) (fun _ => true) = true ∧
    ends (popStreams vectors (vectors.slot.popsOf [1, 1, 1])) (fun _ => true) = true ∧
    ends (writeV vectors 3 (vectors.slot.getP 1) (lanes fun i => BitVec.ofNat 32 i)) (fun _ => true) = true := by decide +kernel

/-- `vfma` of 2.0 in lane 1 is 2·2 + 2 = 6.0, and lane 4 keeps its zero (R151, R156). -/
theorem test_vfma : after (exec (.vfma { vd := 3, va := 1, vb := 1, vc := 1, p := 1, wa := false, wb := false }) vectors)
    (fun t => laneOf (t.slot.getV 3) 1 = 0x40C0_0000 && laneOf (t.slot.getV 3) 4 = 0 && t.slot.pc = 0x204) = true := by decide +kernel

/-- `visra` of −4 by 1, and `vishl` takes the shift modulo 32 (R158). -/
theorem test_vector_shifts :
    after (exec (.visra { vd := 3, va := 4, vb := 2, p := 0, wa := false, wb := false })
      (vectors.modSlot fun l => l.setV 4 (lanes fun _ => 0xFFFF_FFFC))) (fun t => laneOf (t.slot.getV 3) 1 = 0xFFFF_FFFE) = true ∧
    after (exec (.vishl { vd := 3, va := 2, vb := 4, p := 0, wa := false, wb := false })
      (vectors.modSlot fun l => l.setV 4 (lanes fun _ => 33))) (fun t => laneOf (t.slot.getV 3) 5 = 10) = true := by decide +kernel

theorem witness_VectorMoves :
    (compareForm (.viltz { pd := 2, va := 2, vb := 1, p := 1, wa := false, wb := false })).isSome = true ∧
    (moveForm vectors (.vslide { vd := 3, va := 1, vb := 2, n := 15, p := 0, wa := false, wb := false })).isSome = true ∧
    ends (issueRule vectors [(.v 1, false), (.v 2, false)] []) (fun _ => true) = true ∧
    ends (issueRule vectors [(.x 1, false)] [.v 3]) (fun _ => true) = true ∧
    ends (issueRule vectors [(.v 1, false)] [.x 3]) (fun _ => true) = true ∧ vectors.slot.xIsFull 1 = true ∧
    (vectors.slot.vIsFull 3 = true ∧ vectors.slot.streamOf 3 = none) ∧ ((streaming (.fault 0 0)).slot.streamOf 13).isSome = true := by
  decide +kernel

/-- `vslide` by 15 takes lane 15 of a and lanes 0 to 14 of b (R160); `vext` extends the sign (R161). -/
theorem test_vslide :
    after (exec (.vslide { vd := 3, va := 1, vb := 2, n := 15, p := 0, wa := false, wb := false }) vectors)
      (fun t => laneOf (t.slot.getV 3) 0 = 0x4180_0000 && laneOf (t.slot.getV 3) 1 = 0 && laneOf (t.slot.getV 3) 15 = 14) = true ∧
    after (exec (.vext { v := 4, x := 3, w := 2, wa := false }) (vectors.modSlot fun l => l.setV 4 (lanes fun _ => 0x8000_0001)))
      (fun t => t.slot.getX 3 = 0xFFFF_FFFF_8000_0001) = true := by decide +kernel

theorem witness_VectorReductionsConversions :
    (reduceForm (.vdsum { v := 1, x := 3, p := 1, wa := false })).isSome = true ∧
    (convert16Form (.vcvtE4m3F32 { vd := 3, va := 1, rnd := 2, p := 1, wa := false })).isSome = true ∧
    (narrow8Form (.vcvtF32F64 { vd := 3, va := 1, rnd := 0, p := 1, wa := false })).isSome = true ∧
    ends (draws vectors 16) (fun _ => true) = true ∧ ends (convModes vectors 2 16) (fun r => r.2.length = 16) = true ∧
    (∀ r, r < 16 → (0xFF03 : BitVec 16).getLsbD r = if r < 8 then ((0x000F : BitVec 16)).getLsbD (2 * r) else true) := by decide +kernel

/-- `vsum` of 1.0 to 16.0 is 136.0; with lanes 0 to 3 it is 10.0; `visum` of 0 to 3 is 6 (R162). -/
theorem test_vsum :
    after (exec (.vsum { v := 1, x := 3, p := 0, wa := false }) vectors) (fun t => t.slot.getX 3 = 0x4308_0000) = true ∧
    after (exec (.vsum { v := 1, x := 3, p := 1, wa := false }) vectors) (fun t => t.slot.getX 3 = 0x4120_0000) = true ∧
    after (exec (.visum { v := 2, x := 3, p := 1, wa := false }) vectors) (fun t => t.slot.getX 3 = 6) = true := by decide +kernel

/-- 16.0 as E4M3 is 0x58 and 3.0 as BF16 is 0x4040 (R47, R163). -/
theorem test_vcvt :
    after (exec (.vcvtE4m3F32 { vd := 3, va := 1, rnd := 0, p := 0, wa := false }) vectors) (fun t => laneOf (t.slot.getV 3) 15 = 0x58) = true ∧
    after (exec (.vcvtBf16F32 { vd := 3, va := 1, rnd := 0, p := 0, wa := false }) vectors) (fun t => laneOf (t.slot.getV 3) 2 = 0x4040) =
      true := by decide +kernel

theorem witness_VectorMemoryIssue :
    (let s := regs vectors [(1, 0x5FFC0), (2, 0x5FFA0)]
     ends (issueRule s [(.x 1, false)] [.v 3]) (fun _ => true) = true ∧
     ends (blockPlaces s (s.xv 1) .r (activeLanes (s.slot.getP 0))) (fun r => r.2.length = 16) = true ∧
     ends (blockPlaces s (s.xv 1) .r (activeLanes (s.slot.getP 2))) (fun r => r.2 = []) = true ∧
     ((s.xv 1).toNat + 64 ≤ 0x60000 ∧ (s.xv 1).toNat % 64 = 0 ∧ (s.xv 2).toNat + 64 ≤ 0x60000 ∧ (s.xv 2).toNat % 64 ≠ 0) ∧
     ends (gatherPlaces s (s.xv 1) (s.slot.srcV 2) 2 .w (activeLanes (s.slot.getP 1))) (fun r => r.2.length = 4) = true ∧
     baseWindow (s.xv 1) = .raw ∧ ends (narrowLanes s (s.xv 1) (s.slot.srcV 1) [(0, own 0x5FFC0)]) (fun r => r.2.1.length = 1) = true ∧
     s.slot.streamOf 3 = none) := by decide +kernel

theorem witness_RandomDraws :
    (vectors.slot.rsrc = false ∧ vectors.slot.xIsFull 9 = true ∧ vectors.slot.vIsFull 3 = true ∧
      ends (draw vectors) (fun _ => true) = true ∧ ends (draws vectors 8) (fun r => r.2.length = 8 && r.1.slot.streamOf 3 = none) = true) ∧
    (let s := fun (base : Off) (len idx : BitVec 16) => ready.modSlot fun l => { l with rsrc := true, rtbase := base, rtlen := len, rtidx := idx }
     ((s 0x400 0 0).slot.rtlen = 0) ∧ ((s 0x404 1 0).slot.rtbase.toNat % 8 ≠ 0) ∧
     (0x60000 ≤ (s 0x5FFF8 2 1).slot.rtbase.toNat + 8 * (s 0x5FFF8 2 1).slot.rtidx.toNat) ∧
     ((s 0x5FFF8 1 0).slot.rtbase.toNat + 8 * (s 0x5FFF8 1 0).slot.rtidx.toNat < 0x60000 ∧ (s 0x5FFF8 1 0).reqsOf ready.cur = [] ∧
       (s 0x5FFF8 1 0).poisonAt (localKey 0 0x5FFF8) 8 = none) ∧
     (draw (s 0x400 0 0) matches .error (.sup 0x0311 0x400)) = true) := by decide +kernel

/-! ### Witnesses: atomics, fences, barriers and boards (O36 to O41) -/

theorem witness_AtomicIssue :
    atomicForm (.amocas { d := 5, a := 1, b := 2, size := true, order := 3, wa := false, wb := false }) =
      some ({ d := 5, a := 1, b := 2, size := true, order := 3, wa := false, wb := false }, .cas) ∧
    ends (scalarPlace bases (bases.xv 1) 8 .rw false) (fun r => r.2 = own 0x5FFF8) = true ∧
    (bases.released bases.cur = true ∧ storing.released storing.cur = false) ∧
    ((bases.xv 2).toNat % 8 ≠ 0 ∧ ((regs ready [(2, 0x5FFF7)]).xv 2).toNat + 8 ≤ 0x60000) ∧
    (match bases.target bases.cur.core (bases.xv 7) 8 with
      | .ok (.loc _ w _) => decide (w ≠ 0)
      | _ => false) = true ∧
    reductionForm (.redmax { a := 1, b := 2, size := false, wa := false, wb := false }) =
      some ({ a := 1, b := 2, size := false, wa := false, wb := false }, .max) ∧
    ends (localObject bases (bases.xv 6) 64 128) (· = localKey 0 0x3000) = true ∧
    ((0x5FF80 : Word).toNat % 64 = 0 ∧ (0x5FF80 : Word).toNat + 128 ≤ 0x60000) := by
  decide +kernel

theorem witness_Fences :
    (ready.loadsDone ready.cur = true ∧ ready.releasedBefore ready.cur ready.nextId 6 = true ∧ ready.reqsOf ready.cur = []) ∧
    (loading.loadsDone loading.cur = false ∧ storing.releasedBefore storing.cur storing.nextId 6 = false) ∧
    (∃ r ∈ storing.reqsOf storing.cur, r.isStoreLike = true ∧ r.id < storing.nextId ∧ r.applied = false) ∧
    (∃ r ∈ loading.reqsOf loading.cur, r.isLoadLike = true) ∧
    (let s := ready.modCore fun c => { c with gemvs := [ready.owner] }
     (∀ r ∈ s.reqsOf s.cur, r.isStoreLike = false) ∧ ∃ w ∈ s.core.gemvs, w.slot = s.cur.slot ∧ w.gen = s.slot.gen) := by decide +kernel

theorem witness_CountBarrierIssue :
    (let s := regs ready [(1, 0x5FFF0), (2, 0xFFFF_FFFF), (3, 0x1_0000_0001), (4, 0x5FFF1), (5, 0x8000_0000_0000)]
     ends (localObject s (s.xv 1) 16 16) (· = localKey 0 0x5FFF0) = true ∧ (s.xv 2).toNat < 2 ^ 32 ∧ 2 ^ 32 ≤ (s.xv 3).toNat ∧
     s.released s.cur = true ∧ ((s.xv 1).toNat % 16 = 0 ∧ (s.xv 1).toNat + 16 ≤ 0x60000) ∧
     ((0x5FFE8 : Word).toNat % 16 ≠ 0 ∧ (0x5FFE8 : Word).toNat + 16 ≤ 0x60000) ∧
     (match s.target s.cur.core 0x8000_0000_0000 16 with
      | .ok (.virt _) => true
      | _ => false) = true) ∧ storing.released storing.cur = false := by decide +kernel

/-- A barrier at 0x400 with the value `v`, and an operation on it in flight. -/
def barrier (v : Nat) (op : ReqOp) : State := asked (ready.wr (localKey 0 0x400) 16 v) 0x400 op

theorem witness_CountBarrierHome :
    (∀ s ∈ [barrier (cbFields 3 1 0 1 1 0) (.cbarrive (localKey 0 0x400)), barrier (cbFields 3 0 0 0 1 0) (.cbarrive (localKey 0 0x400)),
        barrier (cbFields 3 0 0x7FFF_FFFF 0 1 0) (.cbexpect (localKey 0 0x400) 1), barrier (cbFields 3 0 8 0 1 0) (.cbexpect (localKey 0 0x400) (-8)),
        barrier 0 (.cbinit (localKey 0 0x400) 0x1_FFFF), barrier (cbFields 3 1 0 1 1 0) (.cbwait (localKey 0 0x400) true none .wait)],
      ((req7 s).any fun r => decide (r.barrier = some (localKey 0 0x400)) && s.barrierReady r (localKey 0 0x400)) = true) ∧
    (let s := asked ready 0x400 (.cbwait (localKey 0 0x400) true (some 9) .wait) true (.word 1 false)
     ((req7 s).any fun r => s.alive r && !s.splitPending 7) = true ∧ (s.reqsOf s.cur).length = 1) ∧
    (barrier 0 (.cbarrive (localKey 0 0x400))).undefinedAt (localKey 0 0x400) = false ∧ homeCore (localKey 0 0x400) = some 0 := by decide +kernel

/-- The last arrival flips the phase and reloads PEND; one beyond the expected count sets ERR (R137, R138). -/
theorem test_barrier_arrive :
    after (exec (.cbHomeOperation 7) (barrier (cbFields 3 1 0 1 1 0) (.cbarrive (localKey 0 0x400))))
      (fun t => t.rd (localKey 0 0x400) 16 = cbFields 3 3 0 0 1 0) = true ∧
    after (exec (.cbHomeOperation 7) (barrier (cbFields 3 0 0 0 1 0) (.cbarrive (localKey 0 0x400))))
      (fun t => t.rd (localKey 0 0x400) 16 = cbFields 3 0 0 0 1 1) = true ∧
    after (exec (.cbHomeOperation 7) (barrier (cbFields 3 0 8 0 1 0) (.cbexpect (localKey 0 0x400) (-8))))
      (fun t => t.rd (localKey 0 0x400) 16 = cbFields 3 3 0 1 1 0) = true ∧
    after (exec (.cbHomeOperation 7) (barrier (cbFields 3 1 0 1 1 0) (.cbwait (localKey 0 0x400) true none .wait)))
      (fun t => t.reqs.all fun r => r.registered) = true := by decide +kernel

/-- A barrier made at 0x400, stored over, and made again: defined, undefined, defined (R137). -/
def spoiling : List State :=
  let s0 := barrier 0 (.cbinit (localKey 0 0x400) 2)
  let run := fun (s : State) (f : State → Res) (op : ReqOp) =>
    match f s with
    | .next t => asked { t with reqs := [] } 0x400 op
    | _ => s
  let s1 := run s0 (execCbHomeOperation 7) (.store [(localKey 0 0x40F, [0])] none)
  let s2 := run s1 (execHomeAccess 7) (.cbinit (localKey 0 0x400) 2)
  [s1, s2, run s2 (execCbHomeOperation 7) (.cbarrive (localKey 0 0x400))]

/-- A plain store to a barrier leaves it undefined until the next `cbinit` (R137). -/
theorem test_barrier_spoiled : spoiling.map (·.undefinedAt (localKey 0 0x400)) = [false, true, false] := by decide +kernel

theorem witness_NoticeBoards :
    (let s := regs ready [(1, 0x5F000 - 0x200), (2, 256), (3, 0x100), (4, 257)]
     ends (boardAt s (s.xv 1) (128 + 16 * 1)) (· = localKey 0 0x5EE00) = true ∧ (s.xv 1).toNat % 512 = 0 ∧ (s.xv 2).toNat ≤ 256 ∧
     (s.xv 1).toNat + (128 + 16 * 1) ≤ 0x60000 ∧ (s.xv 1).toNat < 0x5F000 ∧ (s.xv 3).toNat % 512 ≠ 0 ∧ 256 < (s.xv 4).toNat) ∧
    (let s := asked ready 0x400 (.nbinit (localKey 0 0x400) 3)
     ((req7 s).any fun r => s.homeReady r) = true) ∧
    (let s := asked ready 0x400 (.nbread (localKey 0 0x400) true)
     ((req7 s).any fun r => s.homeReady r) = true ∧ s.undefinedAt (localKey 0 0x400) = false) ∧
    (let s := asked ready 0x400 (.nbread (localKey 0 0x400) true) true (.view false 0 5 0)
     ((req7 s).any fun r => r.applied && s.alive r && decide (r.peers = []) && !s.splitPending 7) = true) ∧
    (ready.slot.xIsFull 1 = true ∧ ready.slot.xIsFull 2 = true) := by decide +kernel

/-- A board of three slots at 0x400 of core 0 with a mask and an AHEAD, and a post to slot `k` in flight. -/
def posting (mask ahead k : Nat) (applied : Bool := false) (res : ReqRes := .none) : State :=
  asked (((ready.wr (localKey 0 0x400) 8 (3 + 9 * 2 ^ 16)).wr (localKey 0 0x420) 32 mask).wr (localKey 0 0x440) 32 ahead) 0x400
    (.postv (localKey 0 0x400) k 0x55 9 false false) applied res

theorem witness_BoardPosts :
    (let s := regs ready [(1, 0x5E502), (2, 5), (3, 0x400), (4, 0x502)]
     ends (boardAt s (s.xv 3) 128) (· = localKey 0 0x400) = true ∧ (s.xv 3).getLsbD 8 = false ∧ (s.xv 4).getLsbD 8 = true ∧
     s.refusedOf s.cur = none ∧ s.released s.cur = true ∧
     ({ s with refused := [{ id := 3, core := 0, slot := 0, gen := 5, board := localKey 0 0x400, level := 9 }] } : State).refusedOf s.cur ≠ none) ∧
    (∀ s ∈ [posting 0 0 3, posting 7 7 2, posting 0 0 0, posting 3 0 2, posting 3 7 2, posting 4 3 2],
      ((req7 s).any fun r => !r.applied) = true ∧ s.homeSaved (localKey 0 0x400) = false ∧ s.undefinedAt (localKey 0 0x400) = false) ∧
    (∀ s ∈ [posting 0 0 0 true (.view false 9 5 1), posting 0 0 0 true (.view true 9 0 0), posting 0 0 0 true .badSlot],
      ((req7 s).any fun r => r.applied && s.alive r && decide ((s.getSlot r.slotId).mode = .user) &&
        decide ((s.getSlot r.slotId).intrap = false)) = true) ∧
    (let s : State := { posting 0 0 0 with refused := [{ id := 3, core := 0, slot := 0, gen := 5, board := localKey 0 0x400, level := 8 }] }
     s.refused.find? (·.id = 3) ≠ none ∧ s.homeSaved (localKey 0 0x400) = false ∧ s.undefinedAt (localKey 0 0x400) = false ∧
     bits (s.rd64 (localKey 0 0x400)).toNat 16 48 ≠ 8) := by decide +kernel

/-- A post that fills the mask advances the level and takes AHEAD for the mask; one that a slot has made ahead is refused (R147). -/
theorem test_board_post :
    after (exec (.boardPostAtHome 7) (posting 3 1 2)) (fun t => t.rd (localKey 0 0x400) 8 = 3 + 10 * 2 ^ 16 &&
      t.rd (localKey 0 0x420) 32 = 1 && t.rd (localKey 0 0x440) 32 = 0 && t.rd (localKey 0 0x408) 8 = 1) = true ∧
    after (exec (.boardPostAtHome 7) (posting 7 4 2)) (fun t => t.mem = (posting 7 4 2).mem &&
      t.reqs.map (·.res) = [.view true 9 0 0]) = true := by decide +kernel

/-- Streams s0 and s1 as inputs: an element ready in the first, an address fault next in the second. -/
def twoInputs : State :=
  (streaming (.ok (lanes fun _ => 7) none)).modSlot fun l =>
    { l with sd := 0, streams := l.streams.set 1 { StreamCfg.off with c0 := 9, c1 := 1, c2 := 1, pos := 2, pre := [.fault 0x0511 0x44] } }

theorem witness_VectorOperands_two :
    twoInputs.slot.streamOf 12 = some 0 ∧ twoInputs.slot.streamOf 13 = some 1 ∧
    (twoInputs.slot.streams[(0 : Fin 4)]).pre = [.ok (lanes fun _ => 7) none, .ok (lanes fun _ => 1) none] ∧
    (twoInputs.slot.streams[(1 : Fin 4)]).pre = [.fault 0x0511 0x44] := by decide +kernel

/-- A fault of the second source loses no element of the first (R9, R194). -/
theorem test_pop_fault : after (exec (.viadd { vd := 3, va := 12, vb := 13, p := 0, wa := false, wb := false }) twoInputs)
    (fun t => t.slot.scause = 0x0511 && (t.slot.streams[(0 : Fin 4)]).pos = 4 && (t.slot.streams[(0 : Fin 4)]).pre.length = 2) = true := by
  decide +kernel

/-- One operand for each kind of value that the clauses of VectorLanes name: zero of both signs, one, a negative, the least and the
greatest numbers, infinities, a NaN. -/
theorem witness_VectorLanes_values :
    (fp32.decode 0 = .fin false 0 (-149) ∧ fp32.decode 0x8000_0000 = .fin true 0 (-149) ∧ fp32.decode 1 = .fin false 1 (-149) ∧
      fp32.decode 0x3F80_0000 = .fin false (2 ^ 23) (-23) ∧ fp32.decode 0xBF80_0000 = .fin true (2 ^ 23) (-23) ∧
      fp32.decode 0x7F7F_FFFF = .fin false (2 ^ 24 - 1) 104 ∧ fp32.decode 0x7F80_0000 = .inf false ∧ fp32.decode 0xFF80_0000 = .inf true ∧
      fp32.decode 0x7F80_0001 = .nan) ∧
    (fp64.decode 0 = .fin false 0 (-1074) ∧ fp64.decode (2 ^ 63) = .fin true 0 (-1074) ∧ fp64.decode 0x3FF0_0000_0000_0000 = .fin false (2 ^ 52) (-52) ∧
      fp64.decode 0xBFF0_0000_0000_0000 = .fin true (2 ^ 52) (-52) ∧ fp64.decode 0x7FF0_0000_0000_0000 = .inf false ∧
      fp64.decode 0xFFF0_0000_0000_0000 = .inf true ∧ fp64.decode (2 ^ 64 - 1) = .nan) ∧ (2 ^ 64 - 1 < 2 * 2 ^ 63 ∧ 0xFFFF_FFFF < 2 * 2 ^ 31) := by
  decide +kernel

theorem witness_VectorMemoryIssue_faults :
    (let s := regs vectors [(1, 0x5FFA0), (2, 0x5FFC0), (3, 0x60_0000), (4, 0x0030_0001)]
     (s.slot.getP 0 ≠ 0 ∧ s.slot.getP 1 ≠ 0) ∧
     (∀ r, r < 16 → (match s.target s.cur.core (s.xv 1 + BitVec.ofNat 64 (r * (baseWindow (s.xv 1)).width)) 4 with
       | .ok _ => true
       | _ => false) = true) ∧ baseWindow (s.xv 1) = .raw ∧ (s.xv 1).toNat % 64 ≠ 0 ∧
     baseSpace (s.xv 3) = some (0, 6) ∧ (∀ r, r < 4 → (match s.target s.cur.core (s.xv 3 + BitVec.ofNat 64 (r * (baseWindow (s.xv 3)).width)) 4 with
       | .ok _ => true
       | _ => false) = true) ∧
     (baseWindow (s.xv 4)).width = 2 ∧ (s.xv 4).toNat % 2 ≠ 0 ∧
     ends (issueRule s [(.x 1, false)] [.v 3]) (fun _ => true) = true ∧ ends (issueRule s [(.x 1, false), (.v 1, false)] []) (fun _ => true) = true) ∧
    (let s := (regs vectors [(1, 0x5FF00)]).modSlot fun l => l.setV 4 (lanes fun r => if r = 2 then 0xF1 else BitVec.ofNat 32 (4 * r))
     let lane := fun i => s.xv 1 + (laneOf (s.slot.srcV 4) i).signExtend 64 * BitVec.ofNat 64 (2 ^ (0 : Nat))
     (s.xv 1).toNat < 0x60000 ∧ (s.slot.getP 1).getLsbD 2 = true ∧ (∀ i, i ≤ 2 → (lane i).toNat + 4 ≤ 0x60000) ∧
     (∀ i, i < 2 → (lane i).toNat % 4 = 0) ∧ (lane 2).toNat % 4 ≠ 0 ∧
     ends (issueRule s [(.v 4, false), (.x 1, false)] [.v 3]) (fun _ => true) = true ∧
     ends (issueRule s [(.v 1, false), (.v 4, false), (.x 1, false)] []) (fun _ => true) = true) ∧
    (let s := regs (streaming (.ok (lanes fun _ => 7) none)) [(1, 0x400)]
     s.slot.streamOf 13 = some 1 ∧ ends (issueRule s [(.x 1, false)] [.v 13]) (fun _ => true) = true ∧
     ends (blockPlaces s (s.xv 1) .r (activeLanes (s.slot.getP 0))) (fun r => r.2.length = 16 &&
       ends (pushPlace r.1 r.1.slot.streams[(1 : Fin 4)]) (fun _ => true)) = true) := by decide +kernel

theorem witness_RandomDraws_more :
    (let s := asked (ready.modSlot fun l => { l with rsrc := true, rtbase := 0x400, rtlen := 2 }) 0x400
       (.red { key := localKey 0 0x400, len := 8 } .add 1)
     (draw s matches .error (.wait _ _)) = true ∧ (draws s 8 matches .error (.wait _ _)) = true ∧
       ends (issueRule s [] [.v 3]) (fun _ => true) = true) ∧
    (let s := streaming (.ok VVal.zero none)
     ends (issueRule s [] [.v 13]) (fun _ => true) = true ∧
     ends (draws s 8) (fun r => r.1.slot.streamOf 13 = some 1 && ends (writeV r.1 13 (s.slot.getP 0) VVal.zero) (fun _ => true)) = true) := by
  decide +kernel

/-- A draw that must wait leaves RTIDX where it was (R9, R65). -/
theorem test_draw_waits :
    let s := asked (ready.modSlot fun l => { l with rsrc := true, rtbase := 0x400, rtlen := 4 }) 0x408 (.red { key := localKey 0 0x408, len := 8 } .add 1)
    after (exec (.vrand { vd := 3, p := 0 }) s) (fun t => t.slot.rtidx = 0 && t.slot.wait ≠ none && t.slot.vIsFull 3) = true := by decide +kernel

/-- Core 9's local memory at an offset that is no multiple of 4, its window 2, and a virtual address. -/
theorem witness_AtomicIssue_faults :
    locAt ready 0x1000_0900_0FFE 4 = some (9, 0, 0xFFE) ∧ locAt ready 0x5FFF2 8 = some (0, 0, 0x5FFF2) ∧
    locAt ready 0x1000_0920_1000 8 = some (9, 2, 0x1000) ∧ isVirt ready 0x8000_0000_0004 8 = true ∧
    locAt ready 0x20 128 = some (0, 0, 0x20) ∧ isVirt ready 0x8000_0000_0000 128 = true ∧ locAt ready 0x60_0000 128 = some (0, 6, 0) := by
  decide +kernel

/-- A misaligned barrier, one in a window, and boards likewise. -/
theorem witness_ObjectFaults :
    locAt ready 0x1000_0900_0FF8 16 = some (9, 0, 0xFF8) ∧ locAt ready 0x10_0000 16 = some (0, 1, 0) ∧ isVirt ready 0x8000_0000_0000 16 = true ∧
    locAt ready (0x5F010 - BitVec.ofNat 64 ((0x5F010 : Word).toNat % 512)) 128 = some (0, 0, 0x5F000) ∧ (0x5F010 : Word).toNat % 512 ≠ 0 ∧
    locAt ready 0x1000_0960_0000 (128 + 16 * 256) = some (9, 6, 0) ∧ isVirt ready 0x8000_0000_0000 128 = true ∧
    ends (boardAt ready 0x400 128) (· = localKey 0 0x400) = true ∧ (0x400 : Word).toNat % 512 = 0 := by decide +kernel

theorem test_object_faults :
    after (exec (.cbtest { d := 3, a := 1, b := 2, wa := false, wb := false }) (regs ready [(1, 0x1000_0900_0FF8)]))
      (fun t => t.slot.scause = 0x0511 && t.slot.sval = 0x1000_0900_0FF8) = true ∧
    after (exec (.nbread { a := 1, m := false, wa := false }) (regs ready [(1, 0x8000_0000_0000)])) (fun t => t.slot.scause = 0x0C11) = true := by
  decide +kernel

/-- The last arrival of a phase at 0x400, for whose completion request 8 of context 1 waits at the home. -/
def flipping : State :=
  let s := barrier (cbFields 3 1 0 0 1 0) (.cbarrive (localKey 0 0x400))
  { s with nextId := 9, reqs := s.reqs ++ s.reqs.map fun r =>
      { r with id := 8, slot := 1, op := .cbwait (localKey 0 0x400) false none .wait, applied := true, registered := true } }

theorem witness_CountBarrierHome_flip :
    (flipping.reqs.map fun r => (r.id, r.registered)) = [(7, false), (8, true)] ∧ (homeCore (localKey 0 0x400)).isSome = true ∧
    (req7 flipping).any (fun r => flipping.barrierReady r (localKey 0 0x400)) = true ∧ flipping.undefinedAt (localKey 0 0x400) = false ∧
    (let v := flipping.cbGet (localKey 0 0x400)
     bits v 16 16 = 1 ∧ bits v 32 32 = 0 ∧ bits v 64 1 = 0 ∧ bits v 65 1 = 1) := by decide +kernel

theorem witness_CountBarrierHome_canonical : flipping.MemoryCanonical := by
  show memWf flipping.mem = true
  decide +kernel

/-! ### Witnesses: wire barriers, translation, peers (O42 to O45) -/

/-- Barrier 2 as core 0 knows it: contexts of a mask joined, phase 6 next, an operation, `n` arrivals in the lead. -/
def member (joined : BitVec 16) (lead : Nat) : WbMember :=
  { op := 0, joined := joined, next := 6, ctxNext := Vector.replicate 16 6, arrivals := [], lead := lead, done := 5, values := [(4, 44)],
    recs := [], launch := 1 }

/-- Core 0 a member of barrier 2, with the barrier's number in x1 and 7 in x2. -/
def joined (m : WbMember) : State := (regs ready [(1, 2), (2, 7)]).modCore fun c => { c with wb := c.wb.set 2 (some m) }

/-- A message to the root of barrier 2, in flight. -/
def toRoot (kind : WbKind) (root : List WbRoot) : State :=
  { ready with wbroots := root, wbmsgs := [{ id := 4, core := 0, tenant := 3, launch := 1, bar := 2, kind := kind }] }

/-- The root of barrier 2 with its members and arrivals of phase 6. -/
def root (ms : List WbRootMember) (as : List WbRootArrival) : WbRoot :=
  { tenant := 3, bar := 2, launch := 1, op := 0, phase := 6, members := ms, arrivals := as, values := [] }

theorem witness_WireBarrierMembership :
    (16 ≤ ((regs ready [(1, 16)]).xv 1).toNat ∧ ((regs ready [(1, 15)]).xv 1).toNat = (15 : Fin 16).val) ∧
    (let s := regs ready [(1, 2), (2, 3)]
     (s.xv 2).setWidth 2 = 3#2 ∧ s.core.member 2 = none ∧ s.slot.joinAns ≠ some { bar := 2, ok := false } ∧
     s.joinPending s.cur.core 2 = false ∧ (s.modSlot fun l => { l with joinAns := some { bar := 2, ok := false } }).slot.joinAns =
       some { bar := 2, ok := false }) ∧
    ((member 1 0).joined.getLsbD 0 = true ∧ (member 2 0).joined.getLsbD 0 = false ∧ (joined (member 1 0)).core.member 2 = some (member 1 0)) ∧
    (setBit (member 1 0).joined 0 false = 0 ∧ (setBit (member 3 0).joined 0 false).getLsbD 1 = true ∧ (member 3 0).ctxNext[1] ≤ (member 3 0).next) ∧
    (∀ s ∈ [toRoot (.join 0 0 5 0x200) [], toRoot .leave [root [{ core := 0, first := 6 }] []],
        toRoot (.join 0 1 5 0x200) [root [{ core := 9, first := 6 }] [{ core := 9, phase := 6, val := 1, counters := [] }]]],
      (s.wbmsgs.find? (·.id = 4)).any s.wbMayReach = true) ∧
    (let a : WbJoinAck := { id := 4, core := 0, bar := 2, slot := 0, gen := 5, pc := 0x200, ok := true, op := 0, first := 6, done := 6, values := [] }
     let s := ready.setWait { kind := 6, obj := 0x200, ph := 0 }
     s.joinWaits a = true ∧ ready.joinWaits { a with gen := 4 } = false ∧ (ready.getCore 0).saved = false) := by decide +kernel

/-- A join after an arrival for the phase now collecting takes part from the next phase on (R141). -/
theorem test_root_join : after (exec (.wbRootArrival 4)
      (toRoot (.join 0 1 5 0x200) [root [{ core := 9, first := 6 }] [{ core := 9, phase := 6, val := 1, counters := [] }]]))
    (fun t => (t.wbRoot 3 2).members = [{ core := 9, first := 6 }, { core := 0, first := 7 }] && t.wbacks.map (·.first) = [7] &&
      t.wbacks.map (·.done) = [6]) = true := by decide +kernel

theorem witness_WireBarrierPhases :
    (let s := joined (member 3 0)
     (∀ i : Fin 16, i.val ≠ 0 → (member 3 0).joined.getLsbD i.val = true → (member 3 0).ctxNext[i] ≤ (member 3 0).next) ∧
     (member 3 0).joined.getLsbD 1 = true ∧ (member 3 0).next ≤ (member 3 0).ctxNext.getD 0 0 ∧ s.released s.cur = true) ∧
    ((∀ i : Fin 16, (member 1 2).joined.getLsbD i.val = true → i.val = 0) ∧ (member 1 2).ctxNext.getD 0 0 = (member 1 2).next ∧
      (member 1 2).lead < 3 ∧ (member 1 3).lead = 3) ∧
    ends (ownOffset (regs (joined (member 1 0)) [(2, 0x5FF80)]) 0x5FF80 64 128) (· = 0x5FF80) = true ∧
    (let r := root [{ core := 0, first := 6 }, { core := 9, first := 6 }] [{ core := 9, phase := 6, val := 1, counters := [2] }]
     let s := toRoot (.arrive 6 10 [3] false) [r]
     (s.wbmsgs.find? (·.id = 4)).any s.wbMayReach = true ∧ s.wbRoot 3 2 = r ∧ (∀ a ∈ r.arrivals, a.phase = r.phase) ∧
     ∀ q ∈ r.members, ∃ a ∈ r.arrivals ++ [{ core := 0, phase := 6, val := 10, counters := [3] }], a.core = q.core) ∧
    (∃ q ∈ (root [{ core := 0, first := 6 }, { core := 9, first := 6 }] []).members, q.first ≤ 6 ∧ q.core ≠ 0) ∧
    (let s : State := { joined (member 1 0) with wbdones := [{ id := 4, core := 0, launch := 1, bar := 2, phase := 5, val := 8, counters := [] }] }
     (s.wbdones.find? (·.id = 4)).any s.wbDoneReady = true) ∧
    (let s := joined (member 1 0)
     (4 : Word).toNat < (member 1 0).done ∧ (member 1 0).done ≤ (s.xv 2).toNat ∧ tabGet? (member 1 0).values 4 = some 44 ∧
     tabGet? (member 1 0).values 3 = none ∧ (s.xv 2).toNat < 2 ^ 32) ∧
    (((joined (member 1 0)).setWait { kind := 2, obj := 2, ph := 7, dest := some 9 }).slot.wait.any fun w => decide (w.dest = some 9)) = true := by
  decide +kernel

/-- The last arrival completes the phase with the sum of the values and of the counters (R142, R144). -/
theorem test_root_arrival :
    after (exec (.wbRootArrival 4) (toRoot (.arrive 6 10 [3] false)
      [root [{ core := 0, first := 6 }, { core := 9, first := 6 }] [{ core := 9, phase := 6, val := 1, counters := [2] }]]))
    (fun t => t.wbdones.map (·.val) = [11, 11] && t.wbdones.map (·.core) = [0, 9] && t.wbdones.all (fun d => d.counters.getD 0 0 = 5) &&
      (t.wbRoot 3 2).phase = 7 && (t.wbRoot 3 2).values = [(6, 11)]) = true := by decide +kernel

/-- `wbget` of a completed phase gives its value; of one too old it faults with RANGE (R143). -/
theorem test_wbget :
    after (exec (.wbget { d := 9, a := 1, b := 2, wa := false, wb := false }) (regs (joined (member 1 0)) [(2, 4)])) (fun t => t.slot.getX 9 = 44) =
      true ∧
    after (exec (.wbget { d := 9, a := 1, b := 2, wa := false, wb := false }) (regs (joined (member 1 0)) [(2, 3)]))
      (fun t => t.slot.scause = 0x0311 && t.slot.sval = 3) = true := by decide +kernel

/-- Page tables with the root at 2^11, the levels at 2^12 and 2^13, a 2 MiB leaf for VA 0 and a pointer to 64 KiB leaves for VA 2^21. -/
def tables : State :=
  let e := fun (s : State) (pa v : Nat) => s.wr pa 8 v
  let s := e ready 0x800 (0x1000 + 1)
  let s := e s 0x1000 (0x2000 + 1)
  let s := e s 0x2000 (3 + 2 ^ 2 + 2 ^ 3 + 2 ^ 21 + 3 * 2 ^ 48)
  let s := e s 0x2008 (0x4000 + 1)
  let s := e s 0x4000 (3 + 2 ^ 2 + 5 * 2 ^ 16 + 3 * 2 ^ 48)
  s.modCore fun c => { c with ptroot := 0x800 }

theorem witness_Translation :
    ((0x800 : Word).toNat % 2048 = 0 ∧ tables.isDram 0x800 = true ∧ (0x801 : Word).toNat % 2048 ≠ 0) ∧
    ((tables.walk (some 0) 0x800 0x1234 matches .ok ({ va := 0, size := 0x20_0000, leaf := _ }, _)) = true ∧
      (tables.walk (some 0) 0x800 0x20_5678 matches .ok ({ va := 0x20_0000, size := 0x1_0000, leaf := _ }, _)) = true) ∧
    (tables.poisonAt 0x800 8 = none ∧ tables.rd 0x800 8 % 2 = 1 ∧ ready.rd 0x800 8 % 2 = 0 ∧
      (match tables.walk (some 0) 0x800 (2 ^ 39) with
        | .error .absent => true
        | _ => false) = true ∧ tables.walks = []) ∧
    (let e : TlbEntry := { va := 0x20_0000, size := 0x1_0000, leaf := BitVec.ofNat 64 (3 + 2 ^ 2 + 5 * 2 ^ 16 + 3 * 2 ^ 48) }
     let s := tables.modCore fun c => { c with tlb := [e] }
     s.core.tlbFind 0x20_5678 = some e ∧ s.paCheck s.core.tenant (5 * 65536 + 0x5678) = none ∧ e.leaf.extractLsb' 48 12 = s.core.tenant ∧
     e.leaf.getLsbD 2 = true ∧ e.leaf.getLsbD 3 = false ∧ s.core.tlbFind 0 = none) ∧
    (({ tables with walks := [{ id := 4, core := 0, va := 0x1234 }] } : State).walks.find? (·.id = 4)).isSome = true := by decide +kernel

/-- `tables` with the walk cache of die 0 holding the pointers of VA 2^21, from the root on or of the last two levels alone. -/
def cached (es : List WalkEntry) : State :=
  { tables with walkCache := [(0, es)], walks := [{ id := 4, core := 0, va := 0x20_1234 }] }

/-- The pointer entry at level 2 for VA 0 to 2^30, and the one at level 3 for VA 2^21. -/
def pointers : List WalkEntry :=
  [{ root := 0x800, level := 3, tag := 1, at_ := 0x2008, next := 0x4000 }, { root := 0x800, level := 2, tag := 0, at_ := 0x1000, next := 0x2000 }]

theorem witness_Translation_cache :
    ((cached pointers).cachedTable (some 0) 0x800 3 0x20_1234 = some 0x4000 ∧ (cached pointers).cachedTable (some 0) 0x800 3 0x1234 = none ∧
      (cached pointers).cachedTable (some 0) 0x800 2 0x1234 = some 0x2000 ∧ (∀ l < 4, tables.cachedTable (some 0) 0x800 l 0x1234 = none)) ∧
    (let s : State := { tables with walks := (List.range 17).map fun i => { id := i, core := BitVec.ofNat 18 i, va := 0 } }
     let mine := s.walks.filter fun v => decide (dieOf v.core = dieOf 0)
     mine.length = 17 ∧ (s.walks.find? (·.id = 16)).any (fun w => !(mine.take 16).contains w) = true ∧
       (s.walks.find? (·.id = 15)).any (fun w => (mine.take 16).contains w) = true) ∧
    (let s : State := { tables with walks := (List.range 4).map fun i => { id := i, core := 0, va := 0x1234 } }
     4 ≤ (s.walks.filter fun w => decide (w.core = s.cur.core)).length ∧ ∃ w ∈ s.walks, w.core = s.cur.core ∧ w.va / 0x20_0000 = 0x1F_FFFF / 0x20_0000) ∧
    ((cached pointers).wrPieces [(0x2000, [1])]).walkCache = [(0, [{ root := 0x800, level := 2, tag := 0, at_ := 0x1000, next := 0x2000 }])] ∧
    (let pa := 2 ^ 47 + 5 * 2 ^ 38 + 64
     let s : State := { ready with bar0 := { ready.bar0 with peerwin := [(5, BitVec.ofNat 128 (2 ^ 63 + 9 * 2 ^ 48 + 0x77 * 2 ^ 32 + 3 * 2 ^ 64))] } }
     pa / 2 ^ 46 % 4 = 2 ∧ (tabGet? s.bar0.peerwin (BitVec.ofNat 8 (pa / 2 ^ 38 % 256))).isSome = true ∧
       s.paKey pa = peerKey 0x77 (3 * 65536 + 64)) := by decide +kernel

/-- A walk that reads its pointers anew puts them into its die's walk cache; one that they serve reads the leaf alone (R298, R299). -/
theorem test_walk_cache :
    after (exec (.pageWalkComplete 4) (cached [])) (fun t => t.walkCache.map (fun p => p.2.map (·.next)) = [[0x4000, 0x2000, 0x1000]] &&
      t.core.tlb.map (·.va) = [0x20_0000]) = true ∧
    after (exec (.pageWalkComplete 4) ((cached pointers).wr 0x2008 8 0)) (fun t => t.core.tlb = [] ) = true := by decide +kernel

/-- The entries of `tables` are pointers and leaves as the statement of translation says. -/
theorem witness_Translation_entries : tables.pointsTo 0x800 0x1000 4096 ∧ tables.pointsTo 0x1000 0x2000 4096 ∧
    tables.leafAt 0x2000 (2 ^ 21) 0x1234 (BitVec.ofNat 64 (3 + 2 ^ 2 + 2 ^ 3 + 2 ^ 21 + 3 * 2 ^ 48)) ∧ tables.pointsTo 0x2008 0x4000 256 ∧
    tables.leafAt 0x4000 65536 0x20_5678 (BitVec.ofNat 64 (3 + 2 ^ 2 + 5 * 2 ^ 16 + 3 * 2 ^ 48)) := by
  unfold State.pointsTo State.leafAt; decide +kernel

/-- A load through the TLB reaches the frame; a store without W permission faults (R297). -/
theorem test_translated : (let s := tables.modCore fun c => { c with tlb := [
        { va := 0x20_0000, size := 0x1_0000, leaf := BitVec.ofNat 64 (3 + 2 ^ 2 + 5 * 2 ^ 16 + 3 * 2 ^ 48) }] }
    let s := regs s [(1, 0x8000_0020_5678)]
    after (exec (.ldd { d := 9, a := 1, imm := 0, wa := false }) s)
      (fun t => t.reqs.map (·.op) = [.load { key := 0x5_5678, len := 8 } .raw true 9]) = true ∧
    after (exec (.std { b := 9, a := 1, imm := 0, wa := false, wb := false }) s) (fun t => t.slot.scause = 0x0711) = true) := by decide +kernel

/-- Two `amoadd`s of the same word, numbers 7 and 8, bound for core 1. -/
def merging : State :=
  let op := fun (b : Word) (d : XReg) => ReqOp.amo { key := localKey 1 0x400, len := 4 } .add b 0 0 d
  let s := asked ready 0x400 (op 2 9)
  { s with nextId := 9, reqs := s.reqs ++ s.reqs.map fun r => { r with id := 8, slot := 1, op := op 3 10 } }

theorem witness_RoutingAndPeers :
    (let s := asked ready 0x400 (.store [(localKey 0 0x400, [1])] none) true
     ((req7 s).any fun r => r.acked && r.applied && decide (r.peers = []) && !s.splitPending 7) = true) ∧
    (amoMerges .minz = true ∧ amoMerges .cas = false ∧ (0xFFFF_FFFF : Nat) < 2 ^ (8 * 4)) ∧
    ((req7 merging).any merging.homeReady = true ∧ (merging.reqs.find? (·.id = 8)).any merging.homeReady = true ∧
      homeRouter (localKey 1 0x400) 0 = false ∧ peerOf (localKey 1 0x400) = none ∧ merging.splits = []) ∧
    (let s : State := { ready with bar0 := { ready.bar0 with peerwin := [(5, BitVec.ofNat 128 (2 ^ 63 + 9 * 2 ^ 48 + 0x77 * 2 ^ 32))] } }
     s.windowOn 5 = true ∧ s.windowOn 6 = false ∧ s.windowInc 5 = 9 ∧ s.windowPeer 5 = 0x77 ∧
     (let t := asked s 0 (.load { key := peerKey 0x77 64, len := 4 } .raw false 9) true (.word 1 false)
      let u := ({ t with reqs := t.reqs.map fun r => { r with peers := [0x77] } } : State)
      (u.answered 5 7).isSome = true ∧ (u.reqs.filter (u.awaits · 0x77)).length = 1 ∧
        (let v : State := { t with reqs := t.reqs.map fun r => { r with peers := [0x78, 0x77] } }
         (v.answered 5 7).any fun r => decide (r.peers.erase 0x77 ≠ [])) = true) ∧
     (let t := asked s 0 (.load { key := peerKey 0x77 64, len := 4 } .raw false 9)
      (t.answered 5 7).isSome = true ∧ (req7 t).any (fun r => t.homeReady r && t.awaits r 0x77 && t.alive r) = true ∧
        (let v := t.modCore fun c => { c with rlb := [{ key := peerKey 0x77 64, bytes := List.replicate 64 1, poison := 0 }] }
         (req7 v).any fun r => v.homeReady r && !v.awaits r 0x77) = true) ∧
     (let t := asked s 0 (.acq { key := peerKey 0x77 64, len := 4 } 6 9)
      t.reqs.all (t.awaits · 0x77) = true ∧ (req7 t).any (fun r => t.alive r) = true ∧ t.slot.mode = .user ∧ t.core.svec.toNat ≤ 0x5FFFC) ∧
     (let t := asked s 0 (.store [(peerKey 0x77 64, [1])] none)
      t.reqs.all (t.awaits · 0x77) = true ∧ (req7 t).any (fun r => t.homeReady r) = true)) := by decide +kernel

/-- Two `redadd`s of the same word, numbers 7 and 8. -/
def mergingReds (fn : AmoFn) : State :=
  { merging with reqs := merging.reqs.map fun r => { r with op := .red { key := localKey 1 0x400, len := 4 } (if r.id = 7 then .add else fn) 3 } }

theorem witness_RoutingAndPeers_reds :
    ((req7 (mergingReds .add)).any (mergingReds .add).homeReady = true ∧ ((mergingReds .add).reqs.find? (·.id = 8)).any (mergingReds .add).homeReady = true ∧
      (mergingReds .add).splits.length < 16 ∧ homeRouter (localKey 1 0x400) 0 = false ∧ (AmoFn.xor ≠ .add)) ∧
    (∀ ap ∈ [true, false], let s := { mergingReds .add with
        splits := [{ id := 9, router := 0, first := 7, second := 8, fn := .add, a1 := 3 }]
        reqs := (mergingReds .add).reqs.map fun r => if r.id = 7 then { r with applied := ap } else r }
      (req7 s).any (fun r => decide (r.applied = ap) && decide (r.res = .none)) = true ∧ (s.splits.find? (·.id = 9)).isSome = true) := by
  decide +kernel

/-- Reductions of one function merge to their sum; of two functions they do not (R366). -/
theorem test_merge_red :
    after (exec (.enPassantMerge { router := 0, first := 7, second := 8 }) (mergingReds .add)) (fun t => t.splits.length = 1 &&
      t.reqs.map (·.op) = [.red { key := localKey 1 0x400, len := 4 } .add 6, .red { key := localKey 1 0x400, len := 4 } .add 3]) = true ∧
    after (exec (.enPassantMerge { router := 0, first := 7, second := 8 }) (mergingReds .xor)) (fun t => t.splits = []) = true := by
  decide +kernel

/-- A module with an open peer window 5 to module 0x77 in its incarnation 9, and a granule of DRAM poisoned. -/
def peered : State :=
  { ready with
    poison := [0x800 / 8]
    bar0 := { ready.bar0 with bootst := 4, peerwin := [(5, BitVec.ofNat 128 (2 ^ 63 + 9 * 2 ^ 48 + 0x77 * 2 ^ 32))] } }

/-- Where the host has granted the range (log 14), `peered` serves the peer's requests to it. -/
theorem witness_RoutingAndPeers_serves (h : Config.peerGranted 0 = true) : peered.serves 0x400 8 = true ∧ peered.serves 0x800 4 = true := by
  have d : (peered.isDram 0x400 && peered.isDram (0x400 + 7) && !peered.closed (keyDie 0x400)) = true ∧
      (peered.isDram 0x800 && peered.isDram (0x800 + 3) && !peered.closed (keyDie 0x800)) = true := by decide +kernel
  have f : ∀ pa n, peered.serves pa n =
      (Config.peerGranted 0 && (peered.isDram pa.toNat && peered.isDram (pa.toNat + (n - 1)) && !peered.closed (keyDie pa.toNat))) := by
    intro pa n; rw [← Bool.and_assoc, ← Bool.and_assoc]; rfl
  rw [f, f, h]
  exact d

theorem witness_RoutingAndPeers_frames :
    peered.poisonAt 0x400 8 = none ∧ peered.poisonAt 0x800 8 ≠ none ∧ peered.windowOn 5 = true ∧ peered.windowPeer 5 = 0x77 ∧
    peered.windowInc 5 = 9 ∧ peered.windowOn 6 = false := by decide +kernel

/-- Where it has not, no request is served. -/
theorem witness_RoutingAndPeers_refuses (h : Config.peerGranted 0 = false) : peered.serves 0x400 8 = false := by
  unfold State.serves
  rw [show peered.tick = 0 from rfl, h]
  rfl

/-- Two requests merge into one whose operand is the sum, and the second's reply is the first's old value plus the first operand (R366,
R367). -/
theorem test_merge :
    after (exec (.enPassantMerge { router := 0, first := 7, second := 8 }) merging) (fun t => t.splits.map (·.a1) = [2] &&
      t.reqs.map (·.op) = [.amo { key := localKey 1 0x400, len := 4 } .add 5 0 0 9, .amo { key := localKey 1 0x400, len := 4 } .add 3 0 0 10]) =
      true ∧
    after (exec (.mergedReplySplit 9) { merging with
        splits := [{ id := 9, router := 0, first := 7, second := 8, fn := .add, a1 := 2 }]
        reqs := merging.reqs.map fun r => if r.id = 7 then { r with applied := true, res := .word 100 false } else r })
      (fun t => t.splits = [] && t.reqs.map (·.res) = [.word 100 false, .word 102 false]) = true := by decide +kernel

/-- A member of barrier 2 whose context 0 has made its arrival for phase 6 that waits, with a recorded arrival. -/
def early (mask : BitVec 16) (lead : Nat) : WbMember :=
  { member mask lead with ctxNext := Vector.replicate 16 7, arrivals := [{ slot := 1, phase := 6, val := 8, dest := some 0x400 }], recs := [(5, 0x800)] }

/-- The completion of phase 5 of barrier 2 at core 0. -/
def completing (m : WbMember) : State :=
  { joined m with wbdones := [{ id := 4, core := 0, launch := 1, bar := 2, phase := 5, val := 8, counters := List.replicate 16 3 }] }

theorem witness_WireBarrierPhases_more :
    ((early 1 3).joined = 1 ∧ (early 1 3).ctxNext[(0 : Fin 16)] = (early 1 3).next + 1 ∧ (early 1 3).next - (early 1 3).lead ≤ 5 ∧
      5 < (early 1 3).next ∧ (early 1 3).lead - 1 < 3) ∧
    ((early 0 1).joined = 0 ∧ (early 0 1).lead - 1 = 0) ∧
    (∀ m ∈ [early 1 3, early 0 1, member 1 0], ((completing m).wbdones.find? (·.id = 4)).any (completing m).wbDoneReady = true) ∧
    (let s := joined (early 3 2)
     setBit (early 3 2).joined s.cur.slot.toNat false = 2 ∧ (early 3 2).ctxNext[(1 : Fin 16)] = (early 3 2).next + 1 ∧ (early 3 2).lead < 3 ∧
     ((early 3 2).arrivals.filter fun a => decide (a.phase = (early 3 2).next)).length = 1) ∧
    (let s := (asked (joined (member 1 2)) 0x402 (.store [(localKey 0 0x402, [0xAA, 0xBB])] none))
     s.released s.cur = false) ∧
    (let s := regs (joined (member 1 0)) [(2, 0x1_0000_0004), (3, 0xFFFF)]
     (4 : Nat) % 65536 = (s.xv 2).toNat % 65536 ∧ ((6 : Int) - (4 : Nat)).natAbs = 2 ∧ 2 ^ 32 ≤ (s.xv 2).toNat ∧ (4 : Nat) < (member 1 0).done) ∧
    (joined (member 1 0)).core.wb[(3 : Fin 16)] = none := by decide +kernel

/-- `wbarrive` of the last joined context sends the arrival with the combined value; `ctrg` names the record; a completion writes the
record and sends the arrival that waited for the lead (R142-R144). -/
theorem test_wire_barriers :
    after (exec (.wbarrive { d := 9, a := 1, b := 2, wa := false, wb := false }) (joined (member 1 2))) (fun t =>
      t.wbmsgs.map (·.kind) = [.arrive 6 7 (List.replicate 16 0) false] && t.slot.getX 9 = 6 && t.slot.pc = 0x204) = true ∧
    after (exec (.wbarrive { d := 9, a := 1, b := 2, wa := false, wb := false }) (joined (member 1 3))) (fun t =>
      t.wbmsgs = [] && t.slot.wait.any (fun w => w.kind = 2)) = true ∧
    after (exec (.ctrg { a := 1, b := 2, wa := false, wb := false }) (regs (joined (member 3 0)) [(2, 0x5FF80)])) (fun t =>
      t.core.wb.toList.any (fun m => m.any fun m => m.arrivals.map (·.dest) = [some 0x5FF80])) = true ∧
    after (exec (.wbPhaseCompletion 4) (completing (early 2 3))) (fun t => t.rd (localKey 0 0x800) 8 = 3 &&
      t.wbmsgs.map (·.kind) = [.arrive 6 8 (List.replicate 16 0) true]) = true := by decide +kernel

/-- `wbwait`, `wbtwait` and its expiry (R143). -/
theorem test_wire_waits :
    after (exec (.wbwait { a := 1, b := 2, wa := false, wb := false }) (regs (joined (member 1 0)) [(2, 4)])) (fun t => t.slot.pc = 0x204) = true ∧
    after (exec (.wbtwait { d := 9, a := 1, b := 2, wa := false, wb := false }) (joined (member 1 0))) (fun t => t.slot.getX 9 = 0 && t.slot.pc = 0x204) =
      true ∧
    after (exec (.wbtwaitExpiry ready.cur) ((regs (joined (member 1 0)) [(9, 5)]).setWait { kind := 2, obj := 2, ph := 7, dest := some 9 })) (fun t =>
      t.slot.getX 9 = 0 && t.slot.wait = none && t.slot.pc = 0x204) = true := by decide +kernel

/-! ### Witnesses: tasks (O46, O47) -/

/-- A message at 0x400 with handler 0x300, `narg` arguments and more bits of the header. -/
def message (narg extra : Nat) : State :=
  regs ((ready.wr (localKey 0 0x400) 8 (0x300 + narg * 2 ^ 20 + extra)).wr (localKey 0 0x408) 8 0x1111) [(2, 0x400), (3, 0x404), (4, 0x5FFC0)]

theorem witness_TaskSends :
    (let s := message 8 (2 ^ 24)
     (s.xv 2).toNat % 8 = 0 ∧ (s.xv 4).toNat + 64 ≤ 0x60000 ∧ s.reqsOf s.cur = [] ∧ s.poisonAt (localKey 0 0x400) 64 = none ∧
     (s.rd64 (localKey 0 0x400)).toNat < 2 ^ 25 ∧ (s.rd64 (localKey 0 0x400)).toNat / 2 ^ 20 % 16 ≤ 8 ∧ (s.xv 3).toNat % 8 ≠ 0) ∧
    (2 ^ 25 ≤ ((message 0 (2 ^ 25)).rd64 (localKey 0 0x400)).toNat ∧ 8 < ((message 9 0).rd64 (localKey 0 0x400)).toNat / 2 ^ 20 % 16) ∧
    ends (readMessage (message 8 0) 0x400) (fun r => r.1 / 2 ^ 20 % 16 = 8) = true ∧
    (match ready.target ready.cur.core 0x1000_0100_0400 8 with
      | .ok (.loc c _ _) => decide (c ≠ ready.cur.core)
      | _ => false) = true ∧
    (2 ^ 18 ≤ (0x40000 : Word).toNat ∧ (0x3FFFF : Word).toNat < 2 ^ 18 ∧ ready.fenced (dieOf 0x3FFFF) = false ∧
      ({ ready with auth := [(.compute 63, .fenced, 0)] } : State).fenced (dieOf 0x3FFFF) = true) ∧
    (ready.slot.spawns < max ready.slot.spnlim.toNat 1 ∧ (let s := ready.modSlot fun l => { l with spawns := 1 }
      max s.slot.spnlim.toNat 1 ≤ s.slot.spawns)) ∧
    (0x300 % 4 = 0 ∧ ready.core.hbase.toNat ≤ 0x300 ∧ 0x300 < ready.core.hlim.toNat ∧ ready.core.forks.length < 16 ∧
      ready.core.hlim.toNat ≤ 0x5000) ∧
    ((0x0001_0000_0000_0000 : Word).toNat ≥ 2 ^ 48 ∧ (0x0800_0000 : Word).toNat / 2 ^ 27 % 32 ≠ 0 ∧ (0x0000_0005_0123_4567 : Word).toNat / 2 ^ 27 % 32 = 0) ∧
    (ready.released ready.cur = true ∧ storing.released storing.cur = false ∧ ready.core.ownsWork ready.cur.slot = false ∧
      ready.pushPending ready.cur = false ∧ (let s := ready.modCore fun c => { c with mat := { queue := [matCmd .acczero], run := none, parked := none } }
        s.core.ownsWork s.cur.slot = true)) ∧
    (∀ n : XReg, ready.slot.xIsFull n = true) := by decide +kernel

/-- `spawn` sends the message's task with its arguments, and counts it (R199, R205). -/
theorem test_spawn : after (exec (.spawn { rel := false, a := 1, b := 2, wa := false, wb := false }) (regs (message 1 0) [(1, 77)]))
    (fun t => t.slot.spawns = 1 && t.slot.pc = 0x204 && t.tmsgs.map (·.dst) = [.core 77] &&
      t.tmsgs.all fun m => m.held.task.handler = 0x300 && m.held.task.args[0] = 0x1111 && m.held.task.args[1] = 0 && m.held.counted) = true := by
  decide +kernel

/-- `callat` empties d, marks it pending and names it in A7 (R211). -/
theorem test_callat : after (exec (.callat { rel := false, d := 9, a := 1, b := 2, wa := false, wb := false }) (regs (message 1 0) [(1, 77)]))
    (fun t => t.slot.xIsFull 9 = false && t.slot.callp = 0x200 && t.tmsgs.all fun m => m.held.task.args[7] = 9 && m.held.task.flags = 2 &&
      m.held.task.cgen = 5) = true := by decide +kernel

/-- A task of core 0's launch with a handler. -/
def task (h : Off) : HeldTask :=
  { launch := 1, origin := 5, slot := 2, gen := 9, counted := true
    task := { handler := h, flags := 2, sender := 5, cgen := 9, args := Vector.ofFn fun i => BitVec.ofNat 64 (i.val + 70) } }

/-- A message with a task bound for core 0 or a cox. -/
def arriving (d : TaskDest) (h : Off) (free : Bool) : State :=
  let s := if free then State.fresh ready else State.fresh (ready.modCore fun c =>
    { c with slots := c.slots.map fun l => { l with st := .ready }, aqDepth := 8, aqBase := 0x8000 })
  { s with tmsgs := [{ id := 4, dst := d, held := task h, initial := none, refused := false }] }

theorem witness_TaskEvents_arrivals :
    (∀ s ∈ [arriving (.core 0) 0x300 true, arriving (.core 0) 0x300 false, arriving (.core 0) 0x302 true, arriving (.cox 3) 0x300 true],
      (s.tmsgs.find? (·.id = 4)).any s.taskMayArrive = true) ∧
    (let k := (arriving (.core 0) 0x4FFC true).getCore 0
     k.launch = (task 0x4FFC).launch ∧ k.hbase.toNat ≤ 0x4FFC ∧ 0x4FFC < k.hlim.toNat ∧ (k.getSlot 1).st = .free ∧ (k.getSlot 0).st ≠ .free ∧
     k.dispatches = true ∧ k.backlog = false) ∧
    (let k := (arriving (.core 0) 0x300 false).getCore 0
     (∀ i, (k.getSlot i).st ≠ .free) ∧ k.spillTail ≤ k.spillHead ∧ k.aqTail - k.aqHead < k.aqDepth.toNat ∧
     ({ k with aqDepth := 0 } : Core).aqDepth.toNat ≤ k.aqTail - k.aqHead) ∧
    (ready.coxOf 3).length < 256 := by decide +kernel

/-- The task starts in the lowest free slot with its arguments, flags and sender, and the reply token of its call (R17, R200, R211). -/
theorem test_task_arrival : after (exec (.taskMessageArrival 4) (arriving (.core 0) 0x300 true)) (fun t =>
    let l := (t.getCore 0).getSlot 1
    l.st = .ready && l.pc = 0x300 && l.getX 1 = 70 && l.getX 7 = 76 && l.getX 8 = BitVec.ofNat 64 (9 * 2 ^ 32 + 13 * 2 ^ 22 + 2 * 2 ^ 18 + 5) &&
    l.getX 9 = BitVec.ofNat 64 (2 * 2 ^ 32 + 5) && t.tmsgs = [] && t.sacks.map (·.core) = [5]) = true := by decide +kernel

/-- `ready` with core 0 held by its launch. -/
def heldCore : State :=
  { ready with launcher := { ready.launcher with launches := [
      { newLaunch ready 0 0 { parseRecord [] with id := 1 } none with stage := .running, clusters := [0] }] } }

theorem witness_TaskEvents :
    (let s : State := { ready with sacks := [{ id := 4, core := 0, slot := 0, gen := 5 }]
                                   bads := [{ id := 4, core := 0, slot := 0, gen := 5, launch := 1, sender := 0, val := 0x300 }] }
     (s.sacks.find? (·.id = 4)).isSome = true ∧ (s.bads.find? (·.id = 4)).isSome = true ∧ (s.getCore 0).saved = false ∧ s.slot.gen = 5 ∧
     s.slot.st ≠ .free ∧ s.slot.st ≠ .stopped) ∧
    (let k := (ready.modCore fun c => { c with forks := [task 0x300, task 0x304] }).getCore 0
     k.freeSlot = some 1 ∧ k.dispatches = true ∧ k.spillTail ≤ k.spillHead ∧ k.aqTail ≤ k.aqHead ∧ k.forks = [task 0x300] ++ [task 0x304]) ∧
    (let s := (ready.wrPieces [(localKey 0 0x8000, (task 0x300).task.bytes)]).modCore fun c => { c with aqDepth := 8, aqBase := 0x8000, aqTail := 1 }
     s.core.aqHead < s.core.aqTail ∧ (entryOf (memReads s.mem (localKey s.core.id 0x8000) 64)).handler = 0x300) ∧
    (let w : Word := BitVec.ofNat 64 (5 * 2 ^ 32 + 9 * 2 ^ 22)
     w.extractLsb' 22 5 = 9 ∧ w.extractLsb' 32 16 = ready.slot.gen ∧ (ready.modSlot fun l => { l with callp := 0x200 }).slot.callp.getLsbD 9 = true ∧
     ready.slot.callp.getLsbD 9 = false) ∧
    (let s : State := { heldCore with cox := [(0, [task 0x300])] }
     s.coxOf 0 = [] ++ task 0x300 :: [] ∧ s.placeable 0 0 1 = true) ∧
    (let s : State := { heldCore with cox := [(1, [task 0x300])] }
     s.coxOf 0 = [] ∧ s.placeable 0 0 1 = true ∧ s.nearest 0 (dieOf 4096) 1 = true ∧ dieOf 4096 ≠ 0 ∧ s.coxOf (dieOf 4096) = [] ++ task 0x300 :: []) ∧
    (let s := ready.onCore 9 fun c => { c with launch := 1, forks := [task 0x300] }
     s.nearest 0 (dieOf 9) 1 = true ∧ (s.getCore 9).forks = [] ++ task 0x300 :: []) := by decide +kernel

/-- A reply fills the register that its token names and ends the mark; a stray one counts in counter 6 (R212). -/
theorem test_reply :
    (let s : State := { heldCore.modSlot fun l => { l.markX 9 false with callp := 0x200 } with
        replies := [{ id := 4, token := BitVec.ofNat 64 (5 * 2 ^ 32 + 9 * 2 ^ 22), val := 42, launch := 1, sender := 3 }] }
     after (exec (.replyArrival 4) s) (fun t => t.slot.getX 9 = 42 && t.slot.xIsFull 9 && t.slot.callp = 0 && t.replies = []) = true ∧
     after (exec (.replyArrival 4) (s.modSlot fun l => { l with callp := 0 })) (fun t => t.slot.getX 9 = 0 && t.core.xcnt[6] = 1) = true) := by
  decide +kernel

/-- The newest fork is dispatched (R209); its record keeps PLACED clear. -/
theorem test_dispatch_fork : after (exec (.taskDispatch 0) (ready.modCore fun c => { c with forks := [task 0x300, task 0x304] }))
    (fun t => ((t.getCore 0).getSlot 1).pc = 0x304 && (t.getCore 0).forks.length = 1) = true := by decide +kernel

/-! ### Witnesses: engines (O48 to O53) -/

/-- A block of 64 bytes at 0x800: `mma` operands at 0x1000 and 0x2000 in window 3, strides of 2 and 16 bytes, K one. -/
def mmaReady : State :=
  let s := ready.wrPieces [(localKey 0 0x800, natBytes 8 0x30_1000 ++ natBytes 8 0x30_2000 ++ natBytes 4 2 ++ natBytes 4 16 ++ natBytes 4 1),
    (localKey 0 0x1000, natBytes 2 0x3F80 ++ natBytes 2 0x4000), (localKey 0 0x2000, natBytes 2 0x4040 ++ natBytes 2 0x4080)]
  s.modCore fun c => { c with mat := { queue := [matCmd (.mma .bf16 0x800)], run := none, parked := none } }

theorem witness_MatrixIssue :
    (mmaForm (.mmaE4m3 { tileHi := true, tileLo := 3, a := 1, wa := false, lit := 0xFFFF_FFC0 })).isSome = true ∧
    (ends (blockOffset ready 0x5FFC0 64) (· = 0x5FFC0) = true ∧ (0x5FFC0 : Word).toNat % 64 = 0 ∧ (0x5FFC0 : Word).toNat + 64 ≤ 0x60000 ∧
      (0x5FFA0 : Word).toNat % 64 ≠ 0) ∧
    (ready.core.mat.queue.length < 2 ∧
      2 ≤ (ready.modCore fun c => { c with mat := { queue := [matCmd .acczero, matCmd .acczero], run := none, parked := none } }).core.mat.queue.length) ∧
    (let s := ready.modCore fun c => { c with mmprog := 2 ^ 63, mat := { queue := [], run := none, parked := some (matCmd (.accld 0x800 32)) } }
     s.core.mat.parked = some (matCmd (.accld 0x800 32)) ∧ s.core.mmprog.getLsbD 63 = true ∧ (matCmd .acczero).tile = 2 ∧
     ∃ m ∈ s.core.mat.parked.toList, m.own.slot = s.cur.slot ∧ m.own.gen = s.slot.gen) ∧ ready.core.mat.parked = none := by decide +kernel

theorem witness_MatrixEngine :
    (mmaReady.core.mat.queue = matCmd (.mma .bf16 0x800) :: [] ∧ mmaReady.core.saving = false ∧ mmaReady.core.saved = false ∧
      mmaReady.ownerReleased 0 (matCmd .acczero).gate = true ∧ mmaReady.poisonAt (localKey 0 0x800) 64 = none ∧
      (mmaBlock .bf16 (memReads mmaReady.mem (localKey 0 0x800) 64)).isSome = true ∧
      mmaBlock .bf16 (memReads ready.mem (localKey 0 0x800) 64) = none ∧
      storing.ownerReleased 0 { slot := 0, gen := 5, pc := 0x300, after := 9 } = false) ∧
    (let m := { matCmd (.accld 0x5FF00 32) with done := 6 }
     (0x5FF00 : Word) + BitVec.ofNat 64 m.done * 32 = BitVec.ofNat 64 0x5FFC0 ∧ 0x5FFC0 + 32 ≤ 0x60000 ∧ 0x5FFC0 % 4 = 0 ∧ (0x5FFC2 : Nat) % 4 ≠ 0) := by
  decide +kernel

/-- The step of an `mma`: row 0 of the tile is 1.0·(3.0, 4.0) and row 1 is 2.0·(3.0, 4.0), and the command of one k value ends (R171). -/
theorem test_mma :
    (match exec (.matrixCommandStart 0) mmaReady with
      | .next s => after (exec (.matrixStep 0) s) (fun t => (t.core.tile 2)[0] = 0x4040_0000 && (t.core.tile 2)[1] = 0x4080_0000 &&
          (t.core.tile 2)[8] = 0x40C0_0000 && (t.core.tile 2)[9] = 0x4100_0000 && t.core.mat.run = none && t.core.mat.queue = [])
      | _ => false) = true := by decide +kernel

/-- A row of an `accst` at a bad address parks the command with its progress in CR.MMPROG (R174). -/
theorem test_accst_parks : after (exec (.matrixStep 0) (ready.modCore fun c =>
      { c with mat := { queue := [], run := some { matCmd (.accst 0x402 32) with done := 3 }, parked := none } }))
    (fun t => t.core.mmprog = 2 ^ 63 + 2 * 2 ^ 48 + 3 && t.core.mat.run = none && t.core.mat.parked.isSome &&
      t.slot.asyncs = [{ scause := 0x0511, val := 0x462, engine := some .matrix }]) = true := by decide +kernel

/-- A `vgemv` of two rows of three E4M3 weights at PA 0x10000 in vault 0, x at 0x1000 and y at 0x2000. -/
def gemv : GemvCmd :=
  { core := 0, own := ready.owner, blk := 0x800, pages := [(1, 0x10000)], prog := 0, prog0 := 0, started := true, xbuf := [0x3F80_0000, 0x4000_0000, 0x4040_0000],
    codes := 0, ev := Events.zero
    block := natBytes 8 0x10000 ++ natBytes 4 2 ++ natBytes 4 3 ++ natBytes 8 0x1000 ++ natBytes 8 0x2000 ++ List.replicate 32 0 }

theorem witness_VaultUnits :
    (7 < (8 : Word).toNat ∧ (7 : Word).toNat ≤ 7 ∧ ready.core.vch.length < 2) ∧
    (let s := ready.modCore fun c => { c with vch := [.codes ready.owner 3 5] }
     (s.getCore 0).vch = [.codes ready.owner 3 5]) ∧
    (let s := ready.wrPieces [(localKey 0 0x800, natBytes 8 0x8000_0000_0000 ++ natBytes 4 65537 ++ natBytes 4 8192)]
     (0x800 : Word).toNat % 64 = 0 ∧ s.reqsOf s.cur = [] ∧ s.poison = [] ∧ 65536 < s.rd (localKey 0 0x808) 4 ∧ ¬8192 < s.rd (localKey 0 0x80C) 4) ∧
    (let s := ready.onUnit 0 fun u => { u with queue := [gemv] }
     (s.getUnit 0).run = none ∧ (s.getUnit 0).queue = [gemv] ∧ s.ownerReleased 0 gemv.own = true ∧ gemv.prog < gemv.rows ∧
     s.poisonAt (localKey 0 0x1000) (gemv.xWidth * gemv.cols) = none ∧ ({ gemv with prog := 2 } : GemvCmd).rows ≤ 2) ∧
    (gemv.rowVault 0 = 0 ∧ gemv.rowVault 1 = 0 ∧ gemv.comp = 0 ∧ gemv.fmt ≠ 2 ∧ 0 < gemv.cols ∧ gemv.cols ≤ 32 ∧ gemv.xbuf.length = gemv.cols) ∧
    (match gemv.row ready 0 with
      | .ok y => decide (y.bits = 0)
      | _ => false) = true ∧
    (match ({ gemv with block := gemv.block }).row { ready with poison := [0x10000 / 8] } 0 with
      | .error (.fault sc _ _) => decide (sc = 0x12)
      | _ => false) = true := by decide +kernel

/-- A row: weights 1.0, 1.0 and 2.0 by x of 1.0, 2.0 and 3.0 give 9.0 (R54, R180). -/
theorem test_vgemv_row : after (exec (.vgemvRow 0) ((ready.wrPieces [(0x10000, [0x38, 0x38, 0x40])]).onUnit 0 fun u => { u with run := some gemv }))
    (fun t => t.rd (localKey 0 0x2000) 4 = 0x4110_0000 && t.rd (localKey 0 0x830) 8 = 1 && (t.getUnit 0).run.isSome) = true := by decide +kernel

/-- A `copy` of `n` bytes from 0x1000 to 0x20F0, running, its owner's COMP 2 and handler 0x3000. -/
def copying (n prog : Nat) (comp : Nat) : XferCmd :=
  { own := ready.owner, kind := .copy, blk := 0x800, xfer := 7, msg := [], handler := some 0x3000, prog := prog, started := true, opMade := false,
    shp := Vector.replicate 16 0, snapshot := none, snapAt := 0, taken := false
    block := natBytes 8 comp ++ List.replicate 24 0 ++ natBytes 8 0x1000 ++ natBytes 8 0x20F0 ++ natBytes 4 n ++ natBytes 2 1 ++ natBytes 2 1 ++
      List.replicate 16 0 }

/-- Core 0's copy engine running a transfer. -/
def runs (x : XferCmd) : State := (ready.wr (localKey 0 0x1000) 8 0x0807_0605_0403_0201).copyRuns 0 (some x)

theorem witness_TransferIssue :
    transferForm (.ata { d := 5, a := 1, wa := false }) = some ({ d := 5, a := 1, wa := false }, .ata) ∧
    ((0x5FF80 : Word).toNat % 64 = 0 ∧ (0x5FF80 : Word).toNat + 128 ≤ 0x60000 ∧ ready.core.copy.queue.length < 2 ∧
      (0x5FF20 : Word).toNat % 64 ≠ 0) ∧
    (let s := ready.modCore fun k => { k with shp := k.shp.set 0 (0x0000_4000_4000_1000) }
     s.core.shp[(0 : Fin 16)].extractLsb' 40 20 ≠ 0 ∧ s.core.shp[(1 : Fin 16)].extractLsb' 40 20 = 0 ∧ s.released s.cur = true ∧
     (s.core.shp[(0 : Fin 16)].extractLsb' 0 20).toNat = 0x1000) ∧ storing.released storing.cur = false ∧
    (let m : DimMap := { axis := 1, b := 4, cyclic := true }
     m.axis < 3 ∧ 0 < m.b ∧ m.owner 3 17 < 3) := by decide +kernel

theorem witness_TransferEngine :
    (let x := { copying 20 0 0 with started := false, block := [] }
     let s := (ready.wrPieces [(localKey 0 0x800, (copying 20 0 0).block)]).modCore fun k => { k with copy := { k.copy with queue := [x] } }
     s.core.copy.queue = x :: [] ∧ s.core.copy.run = none ∧ s.ownerReleased 0 x.own = true ∧ s.poisonAt (localKey 0 0x800) 72 = none ∧
     s.xferFields 0 { x with block := memReads s.mem (localKey 0 0x800) 72 } = true) ∧
    (let x := copying 20 0 0
     x.shd = false ∧ 0 < x.c0 ∧ x.prog < x.c0 * x.c1 * x.c2 ∧ x.copyElem 0 = (BitVec.ofNat 64 0x1000, BitVec.ofNat 64 0x20F0) ∧
     min (x.c0 - 0 % x.c0) (256 - 0x20F0 % 256) = 16) ∧
    ((runs (copying 20 20 2)).xferTotal 0 (copying 20 20 2) ≤ (copying 20 20 2).prog ∧ (copying 20 20 2).comp = 2 ∧ ready.slot.cdq.length < 8 ∧
      ready.slot.gen = (copying 20 20 2).own.gen) ∧
    (let x := { copying 20 0 0 with kind := .mcast }
     x.prog < x.bytes ∧ mcastOk 0 ready.core.tenant = false) := by decide +kernel

/-- A run of a `copy` ends at a 256-byte line of the destination; the COMP 2 transfer that has ended queues its COPYDONE (R182, R186). -/
theorem test_copy_run :
    after (exec (.copyRunDelivered 0) (runs (copying 20 0 0))) (fun t => t.rd (localKey 0 0x20F0) 8 = 0x0807_0605_0403_0201 &&
      t.core.copy.run.map (·.prog) = some 16) = true ∧
    after (exec (.copyRunDelivered 0) (runs (copying 20 20 2))) (fun t => t.slot.cdq.map (fun d => (d.xfer, d.handler)) = [(7, 0x3000)] && t.core.copy.run = none) =
      true := by decide +kernel

theorem witness_BoundaryCauses :
    (let s := ready.modSlot fun l => { l with asyncs := [{ scause := 0x12, val := 8, engine := none }], cdq := [{ xfer := 1, handler := 0x3000 }] }
     s.slot.mode = .user ∧ s.slot.asyncs ≠ [] ∧ s.slot.st = .ready ∧ s.mayTake s.cur = true ∧ s.core.svec.toNat ≤ 0x5FFFC) ∧
    (let s := ready.modSlot fun l => { l with cdq := [{ xfer := 1, handler := 0x3000 }] }
     s.slot.asyncs = [] ∧ s.slot.cdq ≠ [] ∧ s.slot.intrap = false ∧ s.mayTake s.cur = true ∧ (s.modSlot fun l => { l with intrap := true }).slot.intrap = true) ∧
    trapped.slot.mode = .supervisor := by decide +kernel

theorem witness_TaskSends_more :
    (let s := message 8 0
     (s.xv 2).toNat + 8 ≤ 0x60000 ∧ 7 < (s.rd64 (localKey 0 0x400)).toNat / 2 ^ 20 % 16 ∧
       ends (readMessage s 0x400) (fun r => r.1 / 2 ^ 20 % 16 = 8) = true) ∧
    (isVirt ready 0x8000_0000_0000 8 = true ∧ locAt ready 0x1000_0900_0400 8 = some (9, 0, 0x400) ∧ locAt ready 0x30_0400 8 = some (0, 3, 0x400)) ∧
    (let s := asked (message 1 0) 0x800 (.store [(localKey 0 0x800, [1])] none)
     s.released s.cur = false ∧ ends (readMessage s 0x400) (fun r => r.1 % 4 = 0 && decide (s.core.hbase.toNat ≤ r.1 % 2 ^ 20) &&
       decide (r.1 % 2 ^ 20 < s.core.hlim.toNat)) = true) ∧
    (ready.modCore fun c => { c with forks := List.replicate 16 (task 0x300) }).core.forks.length = 16 ∧
    ((ready.modSlot fun l => { l with triggered := true }).slot.triggered = true ∧ 2 ^ 20 ≤ (0x10_0000 : Word).toNat) := by decide +kernel

/-- A message that names eight arguments is no `callat`'s, whatever stands in them; a `spawn` of it reads all eight (R200, R211). -/
theorem test_callat_narg : after (exec (.callat { rel := false, d := 9, a := 1, b := 2, wa := false, wb := false })
      { regs (message 8 0) [(1, 77)] with poison := [localKey 0 0x438 / 8] })
    (fun t => t.slot.scause = 0x0D11 && t.tmsgs = []) = true := by decide +kernel

/-- Core 0 with its spill area at VA 2^20, in the page of VA 0 at PA 2^21, room for two tasks, one of them there. -/
def spilling (cap tail depth : Nat) (free : Bool) : State :=
  let s := arriving (.core 0) 0x300 free
  (s.wrPieces [(0x30_0000, natBytes 8 cap ++ natBytes 8 0 ++ natBytes 8 tail), (0x30_0040, (task 0x304).task.bytes)]).modCore fun c =>
    { c with
      tlb := [{ va := 0, size := 0x20_0000, leaf := BitVec.ofNat 64 (3 + 2 ^ 2 + 2 ^ 3 + 2 ^ 21 + 3 * 2 ^ 48) }]
      spillptr := 0x8000_0010_0000, spillTail := tail, aqDepth := BitVec.ofNat 16 depth, aqBase := 0x8000 }

/-- The place of a byte of the spill area, if it has one. -/
def spillKey (s : State) (off : Nat) (p : Perm) : Option Nat :=
  match s.spillPlace 0 off p with
  | .ok r => some r.2
  | .error _ => none

theorem witness_TaskEvents_spill :
    (let s := spilling 2 1 0 false
     let k := s.getCore 0
     (s.tmsgs.find? (·.id = 4)).any s.taskMayArrive = true ∧ (∀ i, (k.getSlot i).st ≠ .free) ∧ k.spillHead < k.spillTail ∧ k.spillStopped = false ∧
     spillKey s 0 .rw = some 0x30_0000 ∧ spillKey s (64 + 64 * 1) .w = some 0x30_0080 ∧ k.spillTail - k.spillHead < (s.rd64 0x30_0000).toNat ∧
     (spilling 1 1 0 false).rd64 0x30_0000 = 1) ∧
    spillKey ((spilling 2 1 0 false).modCore fun c => { c with spillptr := 0x400 }) 0 .rw = none ∧
    (let s := spilling 2 1 8 true
     let k := s.getCore 0
     k.id = 0 ∧ k.freeSlot = some 1 ∧ k.dispatches = true ∧ k.spillTail = k.spillHead + 1 ∧ k.aqTail - k.aqHead < k.aqDepth.toNat ∧
     spillKey s (64 + 64 * (0 % max 1 2)) .r = some 0x30_0040) ∧
    ((spilling 2 1 0 false).modCore fun c => { c with spillStopped := true }).core.spillStopped = true := by decide +kernel

/-- A task that finds the slots and the arrival queue full goes into the spill area, whose tail it moves (R202); a dispatch refills the
queue from there and starts the oldest (R203). -/
theorem test_spill :
    after (exec (.taskMessageArrival 4) (spilling 2 1 0 false)) (fun t => t.tmsgs = [] && t.core.spillTail = 2 && t.rd 0x30_0010 8 = 2 &&
      t.core.xcnt[7] = 1) = true ∧
    after (exec (.taskMessageArrival 4) (spilling 1 1 0 false)) (fun t => t.tmsgs.map (·.refused) = [true]) = true ∧
    after (exec (.taskDispatch 0) (spilling 2 1 8 true)) (fun t => t.core.spillHead = 1 && (t.core.getSlot 1).pc = 0x304 && t.rd 0x30_0008 8 = 1) =
      true := by decide +kernel

theorem witness_TaskEvents_replies :
    (let w : Word := BitVec.ofNat 64 (5 * 2 ^ 32)
     w.extractLsb' 22 5 = 0 ∧ (ready.modSlot fun l => { l with callp0 := 1 }).slot.callp0 = 1) ∧
    ((ready.modSlot fun l => { l with st := .stopped }).slot.st ≠ .free ∧ ready.core.launch ≠ 2) ∧
    (let s : State := { ready with cox := [(1, List.replicate 256 (task 0x300))] }
     256 ≤ (s.coxOf 1).length) := by decide +kernel

/-- A reply to a `callat` to x0 ends its mark; a second one is stray (R212). -/
theorem test_reply_x0 :
    (let s := { heldCore.modSlot fun l => { l with callp0 := 1 } with
        replies := [{ id := 4, token := BitVec.ofNat 64 (5 * 2 ^ 32), val := 42, launch := 1, sender := 3 }] }
     after (exec (.replyArrival 4) s) (fun t => t.slot.callp0 = 0 && t.core.xcnt[6] = 0) = true ∧
     after (exec (.replyArrival 4) (s.modSlot fun l => { l with callp0 := 0 })) (fun t => t.core.xcnt[6] = 1) = true) := by decide +kernel

theorem witness_MatrixEngine_steps :
    (match exec (.matrixCommandStart 0) mmaReady with
      | .next s =>
        match s.core.mat.run with
        | some m => decide (m.op = .mma .bf16 0x800) && m.block.any fun b => decide (m.done < b.k) && decide (s.poison = []) &&
            decide (b.aaddr = BitVec.ofNat 64 (0x300000 + 0x1000)) && decide (b.baddr = BitVec.ofNat 64 (0x300000 + 0x2000)) &&
            decide (b.astr % 2 = 0) && decide (b.bstr % 2 = 0) && decide (0x1000 + 7 * b.astr + 2 * m.done + 2 ≤ 0x60000) &&
            decide (0x2000 + m.done * b.bstr + 16 ≤ 0x60000)
        | none => false
      | _ => false) = true ∧
    (∀ j, j < 8 → locAt ready ((0x1000_0900_0400 : Word) + BitVec.ofNat 64 7 * 32 + BitVec.ofNat 64 (4 * j)) 4 = some (9, 0, 0x4E0 + 4 * j)) ∧
    (0x4E0 % 4 = 0) ∧ (ready.getCore 9).saved = false := by decide +kernel

/-- Rows of an `accst` to a held remote line show in it (R176, R257). -/
theorem test_accst_line : after (exec (.matrixStep 0) (ready.modCore fun c =>
      { c with
        rlb := [{ line with poison := 0 }], acc := c.acc.set 2 (Vector.replicate 64 7)
        mat := { queue := [], run := some (matCmd (.accst 0x1000_0100_0400 32)), parked := none } }))
    (fun t => t.core.rlb.map (fun l => leNat (l.bytes.take 4)) = [7] && t.rd (localKey 1 0x400) 4 = 7) = true := by decide +kernel

/-- Blocks for `vgemv` with its weights in the page of VA 0, and that page translated. -/
def gemvAt (w rows ctl : Nat) : State :=
  let s := ready.wrPieces [(localKey 0 0x800, natBytes 8 w ++ natBytes 4 rows ++ natBytes 4 3 ++ natBytes 8 0x1000 ++ natBytes 8 0x2000 ++ natBytes 8 ctl)]
  s.modCore fun c => { c with tlb := [{ va := 0, size := 0x20_0000, leaf := BitVec.ofNat 64 (3 + 2 ^ 2 + 2 ^ 5 + 2 ^ 6 + 2 ^ 9 + 2 ^ 21 + 3 * 2 ^ 48) }] }

theorem witness_VaultUnits_issue :
    (let s := gemvAt 0x8000_0000_0000 2 0
     ends (gemvCheck s 0x800) (fun r => r.2.rows = 2 && r.2.pages = [(2 ^ 31, 2 ^ 21)]) = true ∧ s.reqsOf s.cur = [] ∧ s.poison = []) ∧
    (let s := gemvAt 0x400 2 0
     s.rd (localKey 0 0x800) 8 < 7 * 2 ^ 20 ∧ s.rd (localKey 0 0x838) 8 = 0 ∧ s.rd (localKey 0 0x820) 8 < 512) ∧
    (let s := gemvAt 0x8000_0000_0000 2 512
     512 ≤ s.rd (localKey 0 0x820) 8 ∧ (gemvCheck s 0x800 matches .error (.sup 0x0D11 0x800)) = true) ∧
    2 ≤ (ready.modCore fun c => { c with vch := [.codes ready.owner 3 5, .codes ready.owner 3 5] }).core.vch.length := by decide +kernel

/-- A `vgemv` like `gemv`: not yet at a unit, or with COMP 1, or with a second row in vault 1. -/
theorem witness_VaultUnits_units :
    (let g := { gemv with started := false, xbuf := [] }
     let s := (ready.wrPieces [(localKey 0 0x830, natBytes 8 1)]).onUnit 0 fun u => { u with queue := [g] }
     s.ownerReleased 0 g.own = true ∧ s.core.saved = false ∧ s.poisonAt (localKey 0 (0x800 % 2 ^ 20)) 64 = none ∧
       s.rd (localKey 0 (0x800 % 2 ^ 20) + 0x30) 8 = 1 ∧ 1 < g.rows ∧ g.rows ≤ 2) ∧
    (let g := { gemv with prog := 1, block := gemv.block.take 0x20 ++ natBytes 8 0x80 ++ natBytes 8 0x400 ++ List.replicate 16 0 }
     g.comp = 1 ∧ g.rows ≤ g.prog + 1 ∧ locAt ready g.caddr 16 = some (0, 0, 0x400) ∧ g.rowVault g.prog = 0 ∧
       (match g.row ready g.prog with
         | .ok _ => true
         | _ => false) = true) ∧
    (let g := { gemv with pages := [(0, 0x10000), (1, 2 ^ 28)], block := natBytes 8 0xFFE0 ++ gemv.block.drop 8 }
     g.rowVault 0 = 0 ∧ g.rowVault 1 = 1 ∧ g.prog + 1 < g.rows ∧ (ready.getUnit 1).queue.length < 8) := by decide +kernel

/-- A start reads PROG again, and loads x (R168, R178); a unit hands the next row to its vault (R304). -/
theorem test_vgemv_start :
    after (exec (.vgemvStart 0) ((ready.wrPieces [(localKey 0 0x800, gemv.block), (localKey 0 0x830, natBytes 8 1),
        (localKey 0 0x1000, natBytes 4 0x3F80_0000)]).onUnit 0 fun u => { u with queue := [{ gemv with started := false, xbuf := [] }] }))
      (fun t => (t.getUnit 0).run.map (fun g => (g.prog, g.prog0, g.started, g.xbuf)) = some (1, 1, true, [0x3F80_0000, 0, 0])) = true ∧
    after (exec (.vgemvRow 0) (ready.onUnit 0 fun u =>
        { u with run := some { gemv with pages := [(0, 0x10000), (1, 2 ^ 28)], block := natBytes 8 0xFFE0 ++ gemv.block.drop 8 } }))
      (fun t => (t.getUnit 0).run = none && (t.getUnit 1).queue.map (·.prog) = [1]) = true := by decide +kernel

/-- Shadow pair 0 of core 0: 0x1000 and 0x4000, of 0x400 bytes, turned or not. -/
def paired (turned : Bool) : Core :=
  { ready.core with shp := ready.core.shp.set 0 (BitVec.ofNat 64 (0x1000 + 0x4000 * 2 ^ 20 + 0x400 * 2 ^ 40 + (if turned then 2 ^ 60 else 0))) }

theorem witness_TransferIssue_pairs :
    (∀ n : Fin 16, ready.core.shp[n].extractLsb' 40 20 = 0) ∧ (paired false).shp[(0 : Fin 16)].getLsbD 60 = false ∧
    (paired true).shp[(0 : Fin 16)].getLsbD 60 = true ∧ (paired false).resolve 0x13FF = 0x43FF ∧ (paired false).resolve 0x1400 = 0x1400 ∧
    (paired true).resolve 0x43FF = 0x13FF ∧ (paired true).resolve 0x13FF = 0x13FF ∧
    (let m : DimMap := { axis := 0, b := 2, cyclic := false }
     m.axis < 3 ∧ 0 < m.b ∧ 5 < m.b * 3 ∧ m.owner 3 5 = 2) ∧
    2 ≤ (ready.modCore fun c => { c with copy := { c.copy with queue := [copying 20 0 0, copying 20 0 0] } }).core.copy.queue.length ∧
    (ready.core.shp[(3 : Fin 16)].extractLsb' 40 20 = 0) := by decide +kernel

/-- The start of a `copy` with COMP and CADDR, its block in memory. -/
def starting (comp caddr : Nat) : State :=
  let x := { copying 20 0 0 with started := false, block := [], handler := none }
  (ready.wrPieces [(localKey 0 0x800, natBytes 8 comp ++ natBytes 8 caddr ++ (copying 20 0 0).block.drop 16),
    (localKey 0 0x400, natBytes 8 (0x300 + 2 ^ 20)), (localKey 0 0x440, natBytes 8 (2 ^ 25))]).modCore fun k =>
      { k with copy := { k.copy with queue := [x] } }

/-- An `ata` of four 4-byte elements at 0x1000 to 0x2000 on a grid of one core, COMP and CADDR as given; it stands at 0x800. -/
def ataBlock (comp : Nat) : List Byte :=
  natBytes 8 (comp + 2 * 16) ++ natBytes 8 0x400 ++ List.replicate 16 0 ++ natBytes 2 4 ++ natBytes 2 1 ++ natBytes 2 1 ++ natBytes 2 1 ++
    natBytes 2 1 ++ natBytes 2 1 ++ natBytes 2 1 ++ natBytes 2 0 ++ natBytes 8 0 ++ natBytes 8 (0x1000 + 0x2000 * 2 ^ 32) ++
    (List.replicate 4 3 ++ natBytes 1 0xE4 ++ List.replicate 11 0 ++ natBytes 4 4 ++ List.replicate 12 0) ++
    (List.replicate 4 3 ++ natBytes 1 0xE4 ++ List.replicate 11 0 ++ natBytes 4 4 ++ List.replicate 12 0)

/-- That `ata` at the head of core 0's queue. -/
def ataStarting (comp : Nat) (made : Bool) : State :=
  let x := { copying 20 0 0 with kind := .ata, started := false, block := [], handler := none, opMade := made }
  (ready.wrPieces [(localKey 0 0x800, ataBlock comp)]).modCore fun k => { k with copy := { k.copy with queue := [x] } }

theorem witness_TransferEngine_start :
    (∀ s ∈ [starting 0 0, starting 2 0x3000, starting 3 0x400, starting 3 0x440],
      s.core.copy.run = none ∧ s.core.copy.parked = none ∧ (s.core.copy.queue.head?.any fun x => s.ownerReleased 0 x.own &&
        s.xferFields 0 { x with block := memReads s.mem (localKey 0 0x800) 72 }) = true) ∧
    (let s := starting 3 0x400
     s.poisonAt (localKey 0 0x400) 64 = none ∧ (BitVec.ofNat 64 (s.rd (localKey 0 0x400) 8)).extractLsb' 25 39 = 0 ∧
       (BitVec.ofNat 64 (s.rd (localKey 0 0x440) 8)).extractLsb' 25 39 ≠ 0) ∧
    (starting 1 0).xferFields 0 { copying 0 0 0 with block := (copying 0 0 0).block } = false ∧
    (dimMap (ataBlock 1) 0x40 0).axis = 3 ∧ ({ copying 20 0 0 with kind := .ata, block := ataBlock 1 } : XferCmd).comp = 1 ∧
    (∀ b ∈ [0x400, 0x5FFF0], b % 16 = 0 ∧ b + 16 ≤ 0x60000) := by decide +kernel

/-- An `mcast` of 16 bytes from 0x1000 to 0x20F8 of group 7, whose entry names cores 0 and 1 of tenant 3. -/
def casting : XferCmd :=
  { copying 0 0 0 with
    kind := .mcast, snapshot := some (BitVec.ofNat 64 (2 ^ 63 + 3 * 2 ^ 51 + 1 * 2 ^ 24))
    block := List.replicate 32 0 ++ natBytes 8 0x1000 ++ natBytes 8 0x20F8 ++ natBytes 4 16 ++ natBytes 4 7 ++ List.replicate 8 0 }

/-- A `gather` of two 4-byte elements by the index list at 0x3000: indices 1 and 0x7FFFFFFF. -/
def gathering (prog : Nat) : XferCmd :=
  { copying 0 prog 0 with
    kind := .gather
    block := natBytes 8 (2 * 16) ++ List.replicate 24 0 ++ natBytes 8 0x1000 ++ natBytes 8 0x2000 ++ natBytes 8 0x3000 ++ natBytes 8 2 }

/-- The state in which such a transfer runs. -/
def sending (x : XferCmd) : State :=
  (runs x).wrPieces [(localKey 0 0x3000, natBytes 4 1 ++ natBytes 4 0x7FFF_FFFF)]

/-- Whether element `n` of a transfer can be sent, and the fault where it cannot. -/
def partsOf (s : State) (x : XferCmd) (n : Nat) : Option (Nat × BitVec 16) :=
  match s.xferParts 0 x n with
  | .ok r => some (r.2.length, 0)
  | .error (.fault sc _ _) => some (0, sc)
  | .error _ => none

theorem witness_TransferEngine_runs :
    ((runs (copying 20 0 0)).core.copy.flights = [] ∧ (runs (copying 20 0 0)).core.copy.landing = [] ∧
      (∀ i, i < 16 → locAt ready ((0x20F0 : Word) + BitVec.ofNat 64 i) 1 = some (0, 0, 0x20F0 + i))) ∧
    (let x := copying 20 16 3
     x.comp = 3 ∧ x.prog + 4 = x.c0 * x.c1 * x.c2 ∧ min (x.c0 - x.prog % x.c0) (256 - 0x2100 % 256) = 4) ∧
    (let x := { copying 20 0 4 with shp := (paired false).shp }
     x.shd = true ∧ x.comp = 0 ∧ (paired false).shp[(0 : Fin 16)].extractLsb' 0 20 = 0x1000) ∧
    ((copying 20 0 1).comp = 1 ∧ 0x400 % 16 = 0) ∧
    (let s := sending (gathering 0)
     (gathering 0).prog < (gathering 0).count ∧ partsOf s (gathering 0) 0 = some (1, 0) ∧ (gathering 1).prog < (gathering 1).count ∧
       (match s.indexAt 0 (gathering 1) 1 with
         | .ok i => decide (i = 0x7FFF_FFFF)
         | _ => false) = true ∧ (partsOf s (gathering 1) 1).any (fun r => r.2 ≠ 0) = true) ∧
    (let w := casting.snapshot.getD 0
     casting.prog < casting.bytes ∧ mcastOk w ready.core.tenant = true ∧ mcastMembers w 0 = [coreAt 0 0 0, coreAt 0 0 1] ∧
     ready.core.launch = 1 ∧ (ready.getCore (coreAt 0 0 1)).launch ≠ 1 ∧ (casting.src + BitVec.ofNat 64 0).toNat = 0x1000 ∧
     casting.doff = BitVec.ofNat 64 0x20F8 ∧ min (casting.bytes - 0) (256 - (0x20F8 + 0) % 256) = 8 ∧ casting.comp = 0 ∧ casting.shd = false) ∧
    (let x := { casting with snapshot := some 0 }
     x.snapshot = some 0 ∧ mcastOk 0 ready.core.tenant = false) := by decide +kernel

/-- A gathered element comes from its index; a run of an `mcast` writes the members in the launch and reports the others; SHD sends a
run to the other buffer; the arrival task of COMP 3 goes to the core written (R182-R185, R188, R369). -/
theorem test_transfers :
    after (exec (.copyRunDelivered 0) (sending (gathering 0))) (fun t => t.rd (localKey 0 0x2000) 4 = 0x0807_0605 &&
      t.core.copy.run.map (·.prog) = some 1) = true ∧
    after (exec (.copyRunDelivered 0) (runs casting)) (fun t => t.rd (localKey 0 0x20F8) 8 = 0x0807_0605_0403_0201 &&
      t.errors.map (·.kind) = [9] && t.core.copy.run.map (·.prog) = some 8) = true ∧
    after (exec (.copyRunDelivered 0) (runs { copying 4 0 4 with
        shp := Vector.replicate 16 0 |>.set 0 (BitVec.ofNat 64 (0x2000 + 0x4000 * 2 ^ 20 + 0x400 * 2 ^ 40)) }))
      (fun t => t.rd (localKey 0 0x40F0) 4 = 0x0403_0201) = true ∧
    after (exec (.copyRunDelivered 0) (runs { copying 20 16 3 with msg := natBytes 8 (0x300 + 2 ^ 20) ++ natBytes 8 99 ++ List.replicate 48 0 }))
      (fun t => t.tmsgs.map (fun m => (m.dst, m.held.task.handler, m.held.task.args[(0 : Fin 8)])) = [(.core 0, 0x300, 99)]) = true := by
  decide +kernel

/-- Two runs of core 0's copy engine in flight, of one transfer or of two, that write a byte in common or none. -/
def flying (xfer : BitVec 16) (at_ : Nat) : State :=
  let f : Flight := { id := 1, x := copying 20 0 0, n := 4, parts := [{ elem := 0, key := localKey 0 0x2000, addr := 0x2000, bytes := [1, 2, 3, 4] }], bars := [] }
  let g : Flight := { f with id := 2, x := { copying 20 4 0 with xfer := xfer }, parts := [{ elem := 0, key := localKey 0 at_, addr := 0x2000, bytes := [5, 6] }] }
  ready.modCore fun k => { k with copy := { k.copy with flights := [f, g] } }

/-- Whether run 2 lands, and what core 0 then holds at 0x2000. -/
def lands (s : State) : Option (Nat × Nat) :=
  match s.landTry 0 2 with
  | .ok t => some (t.core.copy.flights.length, t.rd (localKey 0 0x2000) 8)
  | .error _ => none

/-- The younger run may land first, but not over bytes that an older run of its transfer is still to write (R183, R257). -/
theorem test_landing : lands (flying 7 0x2004) = some (1, 0x0605_0000_0000) ∧ lands (flying 7 0x2003) = some (2, 0) ∧
    lands (flying 8 0x2003) = some (1, 0x06_0500_0000) := by decide +kernel

theorem witness_TransferEngine_flights :
    (flying 7 0x2003).core.copy.flights.length = 2 ∧
    (flying 7 0x2003).core.copy.flights.all (fun f => f.parts.length = 1 && f.x.shd = false && f.x.comp = 0 && f.bars = [] &&
      decide (f.x.kind = .copy) && f.x.own = ready.owner) = true ∧ homeCore (localKey 0 0x2003) = some 0 ∧ ready.core.saved = false := by
  decide +kernel

/-- What the source of an element gives a transfer: the bytes read, or the fault. -/
def sourceOf (s : State) (x : XferCmd) : Option (Nat × BitVec 16) :=
  match s.xferRead 0 x (x.src + BitVec.ofNat 64 x.prog) with
  | .ok r => some (r.2.length, 0)
  | .error (.fault sc _ _) => some (0, sc)
  | .error _ => none

/-- A group refused with its source read, the same with a source that faults, and a run with nothing parked or refused before it. -/
theorem witness_TransferEngine_refused :
    (let x := { casting with snapshot := some 0 }
     sourceOf (runs x) x = some (1, 0) ∧ (sourceOf { runs x with poison := [localKey 0 0x1000 / 8] } x).any (fun r => r.2 ≠ 0) = true ∧
     (runs x).core.copy.parked = none ∧ x.badDst = none) ∧
    ((copying 20 16 3).due = [] ∧ (copying 20 16 3).badDst = none ∧ (flying 7 0x2003).core.copy.run = none ∧
      (flying 7 0x2003).core.copy.landing = [] ∧ localKey 0 0x2003 % 2 ^ 20 + 2 ≤ 0x60000) ∧
    (let x := { copying 20 0 4 with shp := Vector.replicate 16 0 |>.set 0 (BitVec.ofNat 64 (0x2000 + 0x5FF00 * 2 ^ 20 + 0x400 * 2 ^ 40)) }
     x.shd = true ∧ 0x60000 ≤ resolvePairs x.shp.toList 0x2100) := by decide +kernel

/-- A group refused parks its transfer with 0x0611, but a source that faults parks it with the source's cause (R187, R369). -/
theorem test_group_refused :
    let x := { casting with snapshot := some 0 }
    let cause := fun (s : State) => after (exec (.copyRunDelivered 0) s) fun t => t.core.copy.run = none && t.core.copy.parked.isSome &&
      t.slot.asyncs.map (·.scause) = [0x0611]
    cause (runs x) = true ∧ cause { runs x with poison := [localKey 0 0x1000 / 8] } = false := by decide +kernel

/-- A reply of the launch that holds the core, whose CR.LAUNCH agrees or has been written (R212, R213). -/
theorem witness_TaskEvents_served :
    let holder := fun (s : State) => ((s.launcher.launches.find? fun l =>
      decide (l.stage = .running ∨ l.stage = .saving ∨ l.stage = .awaitHost) && l.clusters.contains (clusterOf 0)).map (·.record.id)).getD 0
    holder heldCore = 1 ∧ heldCore.core.launch = 1 ∧ (heldCore.modCore fun k => { k with launch := 2 }).core.launch ≠ 1 ∧
      heldCore.core.saved = false := by decide +kernel

/-- A run that SHD sends outside local memory parks its transfer with RANGE (R188). -/
theorem test_landing_range :
    let x := { copying 20 16 4 with shp := Vector.replicate 16 0 |>.set 0 (BitVec.ofNat 64 (0x2000 + 0x5FF00 * 2 ^ 20 + 0x400 * 2 ^ 40)) }
    after (exec (.copyRunDelivered 0) (runs x)) (fun t => t.core.copy.run = none && t.core.copy.parked.isSome &&
      t.slot.asyncs.map (·.scause) = [0x0311] && t.rd (localKey 0 0x810) 8 = 16) = true := by decide +kernel

/-! ### Witnesses: streams, trees, regions (O54 to O56) -/

/-- A stream descriptor at 0x400 with a base, counts of 4, 1 and 1, and a control word; its address in x1. -/
def descriptor (base ctl : Nat) : State :=
  regs (ready.wrPieces [(localKey 0 0x400, natBytes 8 base ++ natBytes 8 (4 + 2 ^ 16 + 2 ^ 32) ++ natBytes 8 0 ++ natBytes 8 ctl)]) [(1, 0x400)]

/-- s0 an input of 64-byte elements from a base of local memory, with some elements prefetched. -/
def fetching (base : Word) (pre : List StreamElem) : State :=
  (ready.wr (localKey 0 0x3040) 4 77).modSlot fun l =>
    { l with sm := 1, streams := l.streams.set 0 { StreamCfg.off with base := base, c0 := 4, c1 := 1, c2 := 1, pre := pre } }

theorem witness_Streams :
    (let s := descriptor 0x3000 1
     (s.xv 1).toNat % 32 = 0 ∧ (s.xv 1).toNat + 32 ≤ 0x60000 ∧ s.poisonAt (localKey 0 0x400) 32 = none ∧ s.reqsOf s.cur = [] ∧
     (s.rd64 (localKey 0 0x408)).extractLsb' 0 16 ≠ 0 ∧ (s.rd64 (localKey 0 0x418)).extractLsb' 4 60 = 0 ∧
     ends (readStream s 0x400) (fun _ => true) = true ∧
     (match s.target s.cur.core 0x3000 with
      | .ok (.loc _ w _) => decide (w = 0)
      | _ => false) = true ∧
     (match s.target s.cur.core 0x60_3000 with
      | .ok (.loc _ w _) => decide (w = 6)
      | _ => false) = true ∧
     (match s.target s.cur.core 0x1_0000_0000_0000 with
      | .error _ => true
      | _ => false) = true) ∧
    (ready.slot.sm.getLsbD 0 = false ∧ (fetching 0x3000 []).slot.sm.getLsbD 0 = true ∧ (fetching 0x3000 []).slot.sd.getLsbD 0 = false ∧
      (let s := ((asked (fetching 0x3000 []) 0x3000 (.store [(0, [1])] none)).modSlot fun l => { l with sd := 1 })
       let t : State := { s with reqs := s.reqs.map fun r => { r with registered := true } }
       t.slot.sd.getLsbD 0 = true ∧ 0 < t.pushesOut t.cur 0)) ∧
    (let s := fetching 0x3000 [.ok VVal.zero none]
     (∀ e ∈ (s.slot.streams[(0 : Fin 4)]).pre, e = .ok VVal.zero none) ∧ s.core.saving = false ∧
     (match s.target 0 0x3040 4 with
      | .ok (.loc c w off) => decide (c = 0 ∧ w = 0 ∧ off % 64 = 0 ∧ off + 64 ≤ 0x60000)
      | _ => false) = true ∧
     (match s.target 0 0x3044 4 with
      | .ok (.loc _ _ off) => decide (off % 64 ≠ 0)
      | _ => false) = true) := by decide +kernel

/-- `scfg` sets the stream's mode and direction; a prefetch reads the next element, or takes its fault (R193, R194). -/
theorem test_streams :
    after (exec (.scfg { s := 2, a := 1, wa := false }) (descriptor 0x3000 1)) (fun t => t.slot.sm = 4 && t.slot.sd = 4 &&
      (t.slot.streams[(2 : Fin 4)]).base = 0x3000 && (t.slot.streams[(2 : Fin 4)]).total = 4) = true ∧
    after (exec (.streamPrefetch { ctx := ready.cur, s := 0 }) (fetching 0x3000 [.ok VVal.zero none])) (fun t =>
      (t.slot.streams[(0 : Fin 4)]).pre.map (fun e => match e with | .ok v _ => laneOf v 0 | _ => 1) = [0, 77]) = true ∧
    after (exec (.streamPrefetch { ctx := ready.cur, s := 0 }) (fetching 0x3004 [])) (fun t =>
      (t.slot.streams[(0 : Fin 4)]).pre = [.fault 0x0511 0x3004]) = true := by decide +kernel

/-- A tree of four leaves, 1.0 to 4.0, at 0x3000, its nodes of FP64 sums at 0x2000. -/
def tree : State :=
  let w := [(0x2008, natBytes 8 0x4024_0000_0000_0000 ++ natBytes 8 0x4008_0000_0000_0000 ++ natBytes 8 0x401C_0000_0000_0000),
    (0x3000, natBytes 4 0x3F80_0000 ++ natBytes 4 0x4000_0000 ++ natBytes 4 0x4040_0000 ++ natBytes 4 0x4080_0000)]
  (ready.wrPieces (w.map fun p => (localKey 0 p.1, p.2))).modCore fun c => { c with tcfg := 2, tnode := 0x2000, tleaf := 0x3000 }

/-- A command at the head of the tree unit's queue. -/
def treeRuns (s : State) (op : TreeOp) : State :=
  s.modCore fun c => { c with tree := [{ own := ready.owner, cfg := { n := 4, node := 0x2000, leaf := 0x3000 }, op := op }] }

theorem witness_RateTree :
    (tree.core.TreeOf 2 ∧ ¬(tree.modCore fun c => { c with tnode := 0x2004 }).core.TreeOf 2) ∧
    (tree.core.tcfg.toNat = 2 ∧ ready.core.tcfg = 0 ∧ tree.core.tree = [] ∧ tree.treeReady 0 tree.owner = true ∧ tree.reqs = [] ∧
      tree.poison = [] ∧ memWf tree.mem = true ∧ tree.core.jmode = false ∧ tree.core.treeSpoiled = false ∧
      (tree.spoil (localKey 0 0x300C) 4).core.treeSpoiled = true) ∧
    (let a : Word := 0x3000_0000_2000
     a.extractLsb' 52 12 = 0 ∧ a.extractLsb' 20 12 = 0 ∧ (a.extractLsb' 0 20).toNat % 8 = 0 ∧ (a.extractLsb' 32 20).toNat = 0x3000 ∧
     (8192 : Word).toNat = 2 ^ 13 ∧ (3 : Word).toNat ≠ 2 ^ 1) ∧
    (leafForm tree 4 (.tset { a := 1, b := 2, wa := false, wb := false })).isSome = true ∧
    (treeReturnForm tree (.tthr { d := 5, a := 1, b := 2, wa := false, wb := false })).isSome = true ∧
    ((acceptedRates [(0, 0x8000_0000), (1, 0x7F80_0000), (2, 5)]).2 = some 1 ∧ (acceptedRates [(0, 0x8000_0000)]).2 = none) ∧
    (let s := tree.modCore fun c => { c with jmode := true, jbase := 0x8000, jptr := 0x8000, jlim := 0x8020 }
     s.core.jptr.toNat % 32 = 0 ∧ s.core.jptr.toNat + 32 ≤ s.core.jlim.toNat ∧ s.core.jlim.toNat < s.core.jptr.toNat + 64) ∧
    ((treeRuns tree .build).core.tree.map (·.cfg.fits) = [true] ∧ (treeRuns tree .build).treeReady 0 ready.owner = true) ∧
    (fp64.decode (tree.rd (localKey 0 0x2008) 8)).isZero = false ∧ (fp64.decode (ready.rd (localKey 0 0x2008) 8)).isZero = true ∧
    (({ tree with poison := [localKey 0 0x3000 / 8] } : State).poison.find? fun g => localKey 0 0x3000 < 8 * g + 8 && 8 * g < localKey 0 0x3000 + 4) =
      some (localKey 0 0x3000 / 8) := by
  unfold Core.TreeOf; decide +kernel

/-- The sums of `tree` are those of the statement, and a descent with 3.5 of 10 reaches leaf 2 (R221, R223). -/
theorem witness_RateTree_sums : (∀ p, p < 4 → 1 ≤ p → tree.nodeSums 0 { n := 4, node := 0x2000, leaf := 0x3000 } p) ∧
    (tree.descent 0 { n := 4, node := 0x2000, leaf := 0x3000 } 2 1 0x400C_0000_0000_0000).1 = 6 := by
  unfold State.nodeSums; decide +kernel

/-- A leaf write raises its ancestors; a draw of half the mass reaches leaf 2; the least value that three leaves reach is 2.0 (R220, R225,
R226). -/
theorem test_tree :
    after (exec (.treeCommandRun 0) (treeRuns tree (.write [(3, 0)]))) (fun t => t.rd (localKey 0 0x2008) 8 = 0x4018_0000_0000_0000 &&
      t.rd (localKey 0 0x2018) 8 = 0x4008_0000_0000_0000 && t.rd (localKey 0 0x300C) 4 = 0 && t.core.tree = []) = true ∧
    after (exec (.treeCommandRun 0) (treeRuns tree (.draw 9 0x3FE0_0000_0000_0000))) (fun t => t.slot.getX 9 = 0x4000_0000_0000_0002) = true ∧
    after (exec (.treeCommandRun 0) (treeRuns tree (.thr 9 false 3))) (fun t => t.slot.getX 9 = 0x4000_0000) = true ∧
    after (exec (.treeCommandRun 0) (treeRuns tree (.cut 0x4040_0000))) (fun t => t.rd (localKey 0 0x2008) 8 = 0x401C_0000_0000_0000) = true := by
  decide +kernel

/-- A region: the inbox at 0x6000 with `n` entries of room, one entry pending at time `t` with key sequence 9. -/
def region (cap : Byte) (count : Nat) (t : Nat) (st : Nat) : State :=
  (tree.wrPieces [(localKey 0 0x6000, natBytes 8 count), (localKey 0 0x6040, natBytes 8 t ++ natBytes 8 9 ++ natBytes 8 (3 + st * 2 ^ 32))]).modCore
    fun c => { c with ibBase := 0x6000, ibCap := cap, regid := 3, rclk := 0x3FF0_0000_0000_0000, jbase := 0x8000, jptr := 0x8000, jlim := 0x8100 }

/-- A boundary message or cancel to core 0 with a key of time 2.0. -/
def bound (s : State) (cancel : Bool) (launch : Word32) : State :=
  { s with nextId := 8, bmsgs := [
      { id := 4, src := 5, dst := 0, launch := launch, cancel := cancel, key := { time := 0x4000_0000_0000_0000, region := 3, seq := 9 }
        nw := 1, payload := Vector.ofFn fun i => BitVec.ofNat 64 (i.val + 60), refused := false }] }

theorem witness_Regions_instructions :
    (let s := region 4 1 0x4000_0000_0000_0000 1
     memWf s.mem = true ∧ s.core.tree = [] ∧ s.reqs = [] ∧ s.poison = [] ∧ s.ctl 0 / 2 ^ 16 % 4 = 0 ∧ s.core.jmode = false ∧ s.core.treeSpoiled = false ∧
     s.leastPending 0 = some 0 ∧ s.entryState 0 0 = 1 ∧ timeLe (s.entry 0 0).time 0x4000_0000_0000_0000 = true ∧
     timeLe (s.entry 0 0).time 0x3FF0_0000_0000_0000 = false) ∧
    (region 4 0 0 1).leastPending 0 = none ∧
    ((region 4 (2 ^ 16) 0 0).ctl 0 / 2 ^ 16 % 2 = 1 ∧ (region 4 (2 ^ 17) 0 0).ctl 0 / 2 ^ 17 % 2 = 1) ∧
    (let s := (region 4 (1 + 2 ^ 18) 0x4000_0000_0000_0000 2).wrPieces [(localKey 0 0x6020, natBytes 8 0x4000_0000_0000_0000 ++ natBytes 8 9 ++ natBytes 8 3)]
     s.ctl 0 / 2 ^ 18 % 2 = 1 ∧ s.findEntry 0 (s.currentKey 0) (fun _ => true) = some 0) ∧
    (let s := (region 4 0 0 0).modCore fun c => { c with jmode := true }
     s.core.jptr.toNat + 32 ≤ s.core.jlim.toNat ∧ s.core.jptr.toNat % 32 = 0 ∧ s.core.inbox + 64 ≤ localKey 0 0x8000) ∧
    (let s := (region 4 0 0 0).modCore fun c => { c with jmode := true, jptr := 0x80E0 }
     s.core.jlim.toNat < s.core.jptr.toNat + 64 ∧ ¬s.core.jlim.toNat < s.core.jptr.toNat + 32) ∧
    ends (draw (region 4 0 0 0)) (fun _ => true) = true := by decide +kernel

/-- `tnext` with a pending entry at 1.0 takes it; a full inbox and a straggler stop it first (R224). -/
theorem test_tnext :
    after (exec (.tnext { d := 10 }) (region 4 1 0x3FF0_0000_0000_0000 1)) (fun t => t.slot.getX 10 = 0xFFFF_FFFF &&
      t.slot.getX 11 = 0x3FF0_0000_0000_0000 && t.core.eseq = 1 && t.entryState 0 0 = 2 && t.ctl 0 / 2 ^ 18 % 2 = 1) = true ∧
    after (exec (.tnext { d := 10 }) (region 4 (2 ^ 17 + 7 * 2 ^ 32) 0 0)) (fun t => t.slot.scause = 0x15 && t.slot.sval = 7 && t.ctl 0 / 2 ^ 17 % 2 = 0) =
      true ∧
    after (exec (.tnext { d := 10 }) (region 4 (2 ^ 16) 0 0)) (fun t => t.slot.tcause = 2 && t.slot.pc = 0x2000) = true := by decide +kernel

/-- An event opened by `jmark` and a journaled `tset` of leaf 1 in it (R232, R238). -/
def written : State :=
  let s := (region 4 0 0 0).wrPieces [(localKey 0 0x9000, natBytes 8 0x3FF0_0000_0000_0000 ++ natBytes 8 1)]
  let s := regs (s.modCore fun c => { c with jmode := true }) [(1, 1), (2, 0x4100_0000), (3, 0x9000)]
  match execJmark {} s with
  | .next t =>
    match execTset { a := 1, b := 2, wa := false, wb := false } t with
    | .next u => u
    | _ => s
  | _ => s

theorem witness_Regions_journal :
    written.rd (localKey 0 0x3004) 4 = 0x4100_0000 ∧ written.core.jptr = 0x8040 ∧ written.rd (localKey 0 0x8000) 8 % 16 = 5 ∧
    written.rd (localKey 0 0x8020) 8 % 16 = 1 ∧ (written.currentKey 0).lt { time := 0x3FF0_0000_0000_0000, region := 0, seq := 1 } = false ∧
    (written.currentKey 0).lt { time := 0x4000_0000_0000_0000, region := 0, seq := 0 } = true ∧ written.core.jbase.toNat < written.core.jptr.toNat ∧
    (written.xv 3).toNat % 8 = 0 ∧ (written.xv 3).toNat + 24 ≤ 0x60000 ∧ fp64.decode (written.xv 4).toNat ≠ .nan ∧
    fp64.decode (BitVec.allOnes 64).toNat = .nan ∧ localKey 0 0x8040 > written.core.inbox ∧
    written.core.inbox + written.core.inboxSize ≤ localKey 0 written.core.jbase.toNat := by decide +kernel

/-- `jundo` to a key before the event puts the leaf back with its ancestors, and the event's record undone leaves the journal empty (R236). -/
theorem test_jundo : after (exec (.jundo { a := 3, wa := false }) written) (fun t => t.rd (localKey 0 0x3004) 4 = 0x4000_0000 &&
    t.rd (localKey 0 0x2008) 8 = 0x4024_0000_0000_0000 && t.core.jptr = 0x8000 && t.slot.pc = 0x20C &&
    t.core.eseq = 0) = true := by decide +kernel

theorem witness_Regions_messages :
    (∀ s ∈ [bound (region 4 1 0x4010_0000_0000_0000 1) false 1, bound (region 4 1 0x4000_0000_0000_0000 1) true 1,
        bound (region 4 1 0x4000_0000_0000_0000 2) true 1, bound (region 1 1 0x4000_0000_0000_0000 1) false 1],
      (s.bmsgs.find? (·.id = 4)).any s.boundMayArrive = true ∧ memWf s.mem = true ∧ s.core.launch = 1) ∧
    ((bound (region 4 1 0 1) false 2).core.launch ≠ 2 ∧ (region 1 1 0 1).core.inboxCap ≤ ((region 1 1 0 1).entries 0).length ∧
      ((region 4 1 0 1).entries 0).length < (region 4 1 0 1).core.inboxCap) ∧
    (let k : Key := { time := 0x4000_0000_0000_0000, region := 3, seq := 9 }
     (region 4 1 0x4000_0000_0000_0000 1).findEntry 0 k (fun st => st = 1) = some 0 ∧
     (region 4 1 0x4000_0000_0000_0000 2).findEntry 0 k (fun st => st = 2) = some 0 ∧ (region 4 0 0 0).findEntry 0 k (fun st => st = 1) = none ∧
     k.lt ((region 4 0 0 0).currentKey 0) = false) ∧
    (let s : State := { region 4 0 0 0 with backs := [{ id := 4, core := 0, msg := 7, cancel := false }] }
     (s.backs.find? (·.id = 4)).isSome = true ∧ s.core.saved = false) ∧
    (let s := regs ((region 4 0 0 0).wrPieces [(localKey 0 0x9000, natBytes 8 0x4000_0000_0000_0000 ++ natBytes 8 1 ++ natBytes 8 5)]) [(1, 77), (2, 0x9000)]
     timeLt 0x4000_0000_0000_0000 s.core.rclk = false ∧ s.rd (localKey 0 0x9008) 8 ≤ 4 ∧ s.ctl 0 / 2 ^ 24 % 256 < 255 ∧ s.core.unacked.length < 64 ∧
     (s.xv 2).toNat % 8 = 0 ∧ (s.xv 2).toNat + 48 ≤ 0x60000) := by decide +kernel

/-- A message is entered before a later one, with its payload; a cancel of a pending entry takes it out (R231). -/
theorem test_boundary :
    after (exec (.boundaryMessageArrival 4) (bound (region 4 1 0x4010_0000_0000_0000 1) false 1)) (fun t => t.ctl 0 = 2 &&
      (t.entry 0 0).time = 0x4000_0000_0000_0000 && (t.entry 0 1).time = 0x4010_0000_0000_0000 && t.rd (localKey 0 0x6060) 8 = 60 &&
      t.rd (localKey 0 0x6068) 8 = 0 && t.backs.map (·.core) = [5] && t.bmsgs = []) = true ∧
    after (exec (.cancelArrival 4) (bound (region 4 1 0x4000_0000_0000_0000 1) true 1)) (fun t => t.ctl 0 = 0 && t.core.xcnt[12] = 1) = true ∧
    after (exec (.boundaryMessageArrival 4) (bound (region 1 1 0x4000_0000_0000_0000 1) false 1)) (fun t => t.ctl 0 = 1 + 2 ^ 17 + 3 * 2 ^ 32 &&
      t.bmsgs.all (·.refused)) = true := by decide +kernel

theorem witness_RateTree_more :
    (let s := treeRuns ready (.root 9)
     let m : TreeCmd := { own := ready.owner, cfg := { n := 0, node := 0, leaf := 0 }, op := .root 9 }
     ((ready.modCore fun c => { c with tree := [m] }).core.tree = m :: [] ∧ s.core.saved = false ∧ s.treeReady 0 ready.owner = true ∧
       ready.core.tcfg = 0 ∧ ready.core.tree.length < 5)) ∧
    (let s := (regs tree [(1, 3), (2, 0x4100_0000)]).modCore fun c => { c with jmode := true, jbase := 0x8000, jptr := 0x8000, jlim := 0x8020 }
     s.core.jptr.toNat % 32 = 0 ∧ s.core.jptr.toNat + 32 ≤ s.core.jlim.toNat ∧ s.core.tnode.toNat + 8 * 2 ^ 2 ≤ s.core.jptr.toNat ∧
       s.core.tleaf.toNat + 4 * 2 ^ 2 ≤ s.core.jptr.toNat ∧ (s.xv 1).toNat < 2 ^ 2 ∧ (s.xv 2).extractLsb' 0 32 < 0x7F80_0000 ∧
       s.treeReady s.cur.core s.owner = true) ∧
    ((treeRuns (tree.spoil (localKey 0 0x300C) 4) (.get 3 9)).core.treeSpoiled = true) := by decide +kernel

/-- `troot` with CR.TCFG = 0 gives 0 (R222). -/
theorem test_troot : after (exec (.treeCommandRun 0) ((ready.putX 9 5).modCore fun c =>
      { c with tree := [{ own := ready.owner, cfg := { n := 0, node := 0, leaf := 0 }, op := .root 9 }] }))
    (fun t => t.slot.getX 9 = 0 && t.slot.xIsFull 9) = true := by decide +kernel

/-- A region with the root of its tree given, journaling with room for `room` bytes. -/
def rooted (root room : Nat) : State :=
  ((region 4 1 0x7FE0_0000_0000_0000 1).wr (localKey 0 0x2008) 8 root).modCore fun c =>
    { c with jmode := true, jlim := BitVec.ofNat 20 (0x8000 + room) }

theorem witness_Regions_tnext :
    (∀ r ∈ [0x4024_0000_0000_0000, 0xC024_0000_0000_0000, 0x7FF8_0000_0000_0000, 0, 2 ^ 63],
      let s := rooted r 64
      memWf s.mem = true ∧ s.ctl 0 / 2 ^ 16 % 4 = 0 ∧ s.core.jptr.toNat % 32 = 0 ∧ s.core.jptr.toNat + 64 ≤ s.core.jlim.toNat ∧
        s.core.inbox + s.core.inboxSize ≤ localKey 0 0x8000 ∧ s.core.treeSpoiled = false) ∧
    (rooted 0 63).core.jlim.toNat < (rooted 0 63).core.jptr.toNat + 64 ∧
    FVal.lt false (.fin false 0 0) (fp64.decode 0x4024_0000_0000_0000) = true ∧
    FVal.lt false (.fin false 0 0) (fp64.decode 0xC024_0000_0000_0000) = false ∧ (fp64.decode 0xC024_0000_0000_0000).isZero = false ∧
    FVal.lt false (.fin false 0 0) (fp64.decode 0x7FF8_0000_0000_0000) = false ∧ (fp64.decode (2 ^ 63)).isZero = true ∧
    (rooted 0 64).leastPending 0 = some 0 ∧
    timeLe ((rooted 0 64).entry 0 0).time (BitVec.ofNat 64 (fp64.add (rooted 0 64).core.rclk.toNat infBits.toNat).bits) = true ∧
    timeLe ((rooted 0 64).entry 0 0).time 0x4000_0000_0000_0000 = false ∧
    ends (draw (rooted 0 64)) (fun r => ends (draw r.1) (fun _ => true)) = true := by decide +kernel

/-- A negative or NaN root draws nothing: the pending entry before infinity is the next event (R224). -/
theorem test_tnext_negative : ∀ r ∈ [0xC024_0000_0000_0000, 0x7FF8_0000_0000_0000],
    after (exec (.tnext { d := 10 }) (rooted r 64)) (fun t => t.slot.getX 10 = 0xFFFF_FFFF && t.slot.rctr = 0 && t.core.jptr = 0x8040 &&
      t.rd (localKey 0 0x8020) 8 % 16 = 4) = true := by decide +kernel

/-- A `bsend` of core 0 with one word to core 77, journaling or not. -/
def boundSending (j : Bool) : State :=
  (regs ((region 4 0 0 0).wrPieces [(localKey 0 0x9000, natBytes 8 0x4000_0000_0000_0000 ++ natBytes 8 1 ++ natBytes 8 5)]) [(1, 77), (2, 0x9000)]).modCore
    fun c => { c with jmode := j }

theorem witness_Regions_bsend :
    (let s := boundSending true
     s.core.jptr.toNat % 32 = 0 ∧ s.core.jptr.toNat + 32 ≤ s.core.jlim.toNat ∧ s.core.inbox + 8 ≤ localKey 0 s.core.jptr.toNat ∧
       memWf s.mem = true ∧ s.core.unacked.length < 64 ∧ s.core.tree = [] ∧ s.reqs = [] ∧ s.poison = []) ∧
    (let op : TreeOp := .bsend 77 [0x4000_0000_0000_0000, 5, 0, 0, 0] 1 (localKey 0 0x6000)
     let s := treeRuns (boundSending false) op
     s.core.tree.map (·.op) = [op] ∧ s.treeReady 0 ready.owner = true ∧ s.rd (localKey 0 0x6000) 8 / 2 ^ 24 % 256 < 255) ∧
    64 ≤ ((boundSending false).modCore fun c => { c with unacked := List.replicate 64 (1, 2) }).core.unacked.length := by decide +kernel

/-- A journaled `bsend` writes its record and sends at once (R233, R234); one that is queued keeps the inbox of its issue (R29). -/
theorem test_bsend :
    after (exec (.bsend { a := 1, b := 2, wa := false, wb := false }) (boundSending true)) (fun t => t.core.jptr = 0x8020 && t.core.tree = [] &&
      t.rd (localKey 0 0x8000) 8 = 3 + 77 * 2 ^ 32 && t.bmsgs.map (fun m => (m.dst, m.nw, m.payload[(0 : Fin 4)])) = [(77, 1, 5)]) = true ∧
    after (exec (.bsend { a := 1, b := 2, wa := false, wb := false }) (boundSending false)) (fun t => t.bmsgs = [] &&
      t.core.tree.map (·.op) = [.bsend 77 [0x4000_0000_0000_0000, 5, 0, 0, 0] 1 (localKey 0 0x6000)]) = true := by decide +kernel

/-- Stream elements that leave local memory: aligned, and not (R35). -/
theorem witness_Streams_range :
    (match addrForm 0 0x5FFC4 with
      | .ok (.loc c w off) => decide (c = 0 ∧ w = 0 ∧ 0x60000 < off + 16 * (windowOf w).width ∧ off % 64 ≠ 0)
      | _ => false) = true ∧
    (fetching 0x60000 []).core.saved = false ∧ (fetching 0x60000 []).slot.sm.getLsbD 0 = true := by decide +kernel

/-- RANGE of an element comes before its ALIGN (R35). -/
theorem test_stream_range : after (exec (.streamPrefetch { ctx := ready.cur, s := 0 }) (fetching 0x5FFC4 [])) (fun t =>
      (t.slot.streams[(0 : Fin 4)]).pre = [.fault 0x0311 0x5FFC4]) = true := by decide +kernel

/-! ### Witnesses: launches and pre-emption (O57, O58) -/

/-- A launch record of KIND 0 (R314): id, tenant 3, one cluster, an image of 64 bytes at VA 0, one inbox and one activation queue entry. -/
def recordHead (id early : Nat) : List Byte :=
  natBytes 8 id ++ natBytes 8 (4 * early + 4 * 2 ^ 8 + 3 * 2 ^ 16) ++ natBytes 8 0x8000_0000_0000 ++ natBytes 8 (64 + 2 ^ 40 + 2 ^ 53) ++
    natBytes 8 0 ++ natBytes 8 (4 * 2 ^ 32) ++ natBytes 8 (1000 + 50 * 2 ^ 32) ++ natBytes 8 77 ++ natBytes 8 0x800 ++
    natBytes 8 0x8000_0010_0000 ++ natBytes 8 0x8000_0018_0000 ++ natBytes 8 1 ++ natBytes 4 (1 + 8 + 64)

/-- The whole record. -/
def recordBytes (id early : Nat) : List Byte := recordHead id early ++ List.replicate 924 0

/-- A record of KIND 0 at the head of the ring of `module`. -/
def record (id early : Nat) : List (Nat × List Byte) := [(0x11_0000, recordHead id early)]

/-- A record of KIND 1 to 3 (R314). -/
def shortBytes (id kind graph : Nat) : List Byte :=
  natBytes 8 id ++ natBytes 8 (kind + 3 * 2 ^ 16) ++ List.replicate 0x100 0 ++ natBytes 8 graph ++ List.replicate 0x2E8 0

/-- A record of KIND 1 to 3 at the head of the ring of `module`. -/
def short (id kind graph : Nat) : List (Nat × List Byte) :=
  [(0x11_0000, natBytes 8 id ++ natBytes 8 (kind + 3 * 2 ^ 16)), (0x11_0110, natBytes 8 graph)]

/-- A running module: queue blocks at 2^20, the ring of queue 2 at 2^20 + 2^16 with the record given, its completions at 2^20 + 2^17,
cluster 0 in the partition of tenant 3, which wants two. -/
def module (rec_ : List (Nat × List Byte)) : State :=
  let t : State := { tables with
    cores := []
    linkA := .pcie
    tenancy := { owner := [(0, 3)], moving := none }
    bar0 := { Bar0.reset with run := true, bootst := 4, qbase := 0x10_0000, diemap := 3, tgt := [(3, 2)], inc := 2 } }
  t.wrPieces ((0x10_0080, natBytes 8 0x11_0000 ++ natBytes 8 1 ++ natBytes 8 0 ++ natBytes 8 0x12_0000) :: rec_)

/-- A launch of record 7, as it is accepted. -/
def taken : Launch := newLaunch (module []) 0 2 (parseRecord (recordBytes 7 0)) none

/-- A module with one accepted launch changed. -/
def holding (f : Launch → Launch) : State := (module (record 7 0)).addLaunches [f taken]

/-- The launch on cluster 0. -/
def placed (stage : Stage) (l : Launch) : Launch :=
  { l with stage := stage, clusters := [0], initialSent := true, startTime := some 5 }

theorem witness_Launches_accept :
    (ready.visits 2 = false ∧ (module (record 7 0)).bar0.run = true ∧ (module (record 7 0)).passedOver 2 = false ∧
      ({ module (record 7 0) with launcher := { State.reset.launcher with nextQueue := 2 } } : State).launcher.nextQueue = 2) ∧
    ((module (record 7 0)).visits 2 = true ∧ (module (record 7 0)).nextRecord 2 = recordBytes 7 0 ∧
      fieldOf (recordBytes 7 0) 8 8 % 4 = 0 ∧ recordReason State.reset.launcher (recordBytes 7 0) false = 0 ∧
      recordReason State.reset.launcher (recordBytes 0 0) false = 1 ∧ recordReason (holding id).launcher (recordBytes 7 0) false = 5 ∧
      (module (record 0 0)).visits 2 = true) ∧
    ((module (short 7 1 0)).visits 2 = true ∧ fieldOf (shortBytes 7 1 0) 8 8 % 4 = 1 ∧ shortZero (shortBytes 7 1 0) 1 = true ∧
      (parseRecord (shortBytes 7 1 0)).id = 7 ∧ (module (short 7 1 0)).launcher.idUsed 7 = false ∧
      (module (short 7 1 0)).readGraph 7 3 0 = none) ∧
    (∀ k ∈ [2, 3], let s := (module (short 7 k 0)).addLaunches [placed .awaitHost taken]
      s.visits 2 = true ∧ fieldOf (shortBytes 7 k 0) 8 8 % 4 = k ∧ shortZero (shortBytes 7 k 0) k = true ∧
      s.launcher.launches.find? (fun l => l.record.id = 7 && l.record.tenant = 3 && l.stage = .awaitHost && !l.resume) =
        some (placed .awaitHost taken) ∧ (placed .awaitHost taken).node = none ∧
      (let t := s.onCore 5 fun c => { c with launch := 7 }
       (5 : CoreId) ∈ (placed .awaitHost taken).cores ∧ (t.getCore 5).launch = 7)) := by decide +kernel

/-- The graph of replay 7 at VA 0x8000, bound to a revision of one node at VA 0x10000, read with the page tables of `tables`. The root is
a free value (log 19); the clause is met where it is 0x800. -/
def graphed : State :=
  let s := module (short 7 1 0x8000_0000_8000)
  s.wrPieces [(2 ^ 21 + 0x8000, natBytes 8 0x8000_0001_0000), (2 ^ 21 + 0x1_0000, natBytes 8 1), (2 ^ 21 + 0x1_0400, recordHead 0 0)]

theorem graphed_entries :
    graphed.isDram 0x800 = true ∧ graphed.ptEntry 0x800 = .ok 0x1001 ∧ graphed.ptPointer 0x1001 4096 = .ok 0x1000 ∧
    graphed.ptEntry 0x1000 = .ok 0x2001 ∧ graphed.ptPointer 0x2001 4096 = .ok 0x2000 ∧
    graphed.ptEntry 0x2000 = .ok (3 + 2 ^ 2 + 2 ^ 3 + 2 ^ 21 + 3 * 2 ^ 48) ∧ graphed.fenced 0 = false := by
  have p : ∀ k ∈ [0x800, 0x1000, 0x2000], graphed.poisonAt k 8 = none := by decide +kernel
  have v : graphed.rd 0x800 8 = 0x1001 ∧ graphed.rd 0x1000 8 = 0x2001 ∧
      graphed.rd 0x2000 8 = 3 + 2 ^ 2 + 2 ^ 3 + 2 ^ 21 + 3 * 2 ^ 48 := by decide +kernel
  have d : ∀ k ∈ [0x800, 0x1000, 0x2000], graphed.isDram k = true := by decide +kernel
  unfold State.ptEntry State.ptPointer
  rw [p _ (by decide), p _ (by decide), p _ (by decide), v.1, v.2.1, v.2.2]
  refine ⟨d _ (by decide), rfl, ?_, rfl, ?_, rfl, by decide +kernel⟩
  · simp [bits, d 0x1000 (by decide)]
  · simp [bits, d 0x2000 (by decide)]

/-- The page of VA 0 of `graphed`. -/
theorem graphed_key (va : Nat) (h : va < 2 ^ 21) :
    graphed.launchKey 3 0x800 (BitVec.ofNat 64 (2 ^ 47 + va)) .r = some (2 ^ 21 + va) := by
  obtain ⟨h1, h2, h3, h4, h5, h6, h7⟩ := graphed_entries
  have hn : (BitVec.ofNat 64 (2 ^ 47 + va)).toNat = 2 ^ 47 + va := by simp; omega
  have pa : ∀ t, graphed.paCheck t (2 ^ 21 + va) = none := by
    intro t
    have : bits (2 ^ 21 + va) 46 2 = 0 := by unfold bits; omega
    have c : bits (2 ^ 21 + va) 42 4 = 0 := by unfold bits; omega
    have d : bits (2 ^ 21 + va) 36 6 = 0 := by unfold bits; omega
    unfold State.paCheck; rw [this, c, d, show BitVec.ofNat 6 0 = 0 from rfl, h7]; rfl
  have lp : leafPa (BitVec.ofNat 64 (3 + 2 ^ 2 + 2 ^ 3 + 2 ^ 21 + 3 * 2 ^ 48)) (2 ^ 21) va = 2 ^ 21 + va := by
    simp [leafPa, bits]; omega
  have w : ∃ es, graphed.walk none 0x800 va =
      .ok ({ va := 0, size := 2 ^ 21, leaf := BitVec.ofNat 64 (3 + 2 ^ 2 + 2 ^ 3 + 2 ^ 21 + 3 * 2 ^ 48) }, es) := by
    have e1 : bits va 39 8 = 0 := by unfold bits; omega
    have e2 : bits va 30 9 = 0 := by unfold bits; omega
    have e3 : bits va 21 9 = 0 := by unfold bits; omega
    have e4 : va / 2 ^ 21 * 2 ^ 21 = 0 := by omega
    have ok : leafOk (3 + 2 ^ 2 + 2 ^ 3 + 2 ^ 21 + 3 * 2 ^ 48) (2 ^ 21) = true := by decide
    have lf : graphed.ptLeaf (3 + 2 ^ 2 + 2 ^ 3 + 2 ^ 21 + 3 * 2 ^ 48) (2 ^ 21) va =
        .ok { va := 0, size := 2 ^ 21, leaf := BitVec.ofNat 64 (3 + 2 ^ 2 + 2 ^ 3 + 2 ^ 21 + 3 * 2 ^ 48) } := by
      unfold State.ptLeaf; simp only [lp, ok, pa, e4]; rfl
    have p3 : bits (3 + 2 ^ 2 + 2 ^ 3 + 2 ^ 21 + 3 * 2 ^ 48) 0 2 = 3 := by decide
    have no : ∀ l, graphed.cachedTable none 0x800 l va = none := fun _ => rfl
    refine ⟨[{ root := 0x800, level := 2, tag := va / 2 ^ 30, at_ := 0x1000, next := 0x2000 },
      { root := 0x800, level := 1, tag := va / 2 ^ 39, at_ := 0x800, next := 0x1000 }], ?_⟩
    simp only [State.walk, State.tableAfter, State.pointerAt, no, levelShift, nextSize, show (0x800 : Word).toNat = 0x800 from rfl, h1, e1, e2, e3,
      Nat.mul_zero, Nat.add_zero, if_true, h2, h3, h4, h5, h6, bind, Except.bind, p3, reduceIte, Nat.reduceAdd, Nat.reduceEqDiff, lf]
    rfl
  have b0 : bits (2 ^ 47 + va) 48 16 = 0 := by unfold bits; omega
  have b1 : bits (2 ^ 47 + va) 47 1 = 1 := by unfold bits; omega
  have b2 : bits (2 ^ 47 + va) 0 47 = va := by unfold bits; omega
  have u : ∀ c : Core, c.tenant = 3 → graphed.useEntry c
      { va := 0, size := 2 ^ 21, leaf := BitVec.ofNat 64 (3 + 2 ^ 2 + 2 ^ 3 + 2 ^ 21 + 3 * 2 ^ 48) } va .r = .ok (2 ^ 21 + va) := by
    intro c hc
    have k : graphed.paKey (2 ^ 21 + va) = 2 ^ 21 + va := by
      have : bits (2 ^ 21 + va) 46 2 = 0 := by unfold bits; omega
      unfold State.paKey; rw [this]; rfl
    unfold State.useEntry; simp only [lp, pa, hc, k]; rfl
  obtain ⟨es, w⟩ := w
  unfold State.launchKey
  simp only [hn, b0, b1, b2, w]
  rw [u _ rfl]; rfl

/-- What the launcher reads in that page. -/
theorem graphed_read (va n : Nat) (h : va + n ≤ 2 ^ 21) :
    graphed.launchRead 3 0x800 (BitVec.ofNat 64 (2 ^ 47 + va)) n = (List.range n).map fun i => memRead graphed.mem (2 ^ 21 + va + i) := by
  unfold State.launchRead
  apply List.map_congr_left
  intro i hi
  rw [List.mem_range] at hi
  rw [← BitVec.ofNat_add, Nat.add_assoc]
  simp only [graphed_key (va + i) (by omega), Nat.add_assoc]

theorem witness_Launches_graph (h : Config.graphRoot 3 = 0x800) :
    graphed.visits 2 = true ∧ (graphed.readGraph 7 3 0x8000_0000_8000).map List.length = some 1 := by
  have r0 := graphed_read 0x8000 64 (by decide)
  have r1 := graphed_read 0x1_0000 1024 (by decide)
  have r2 := graphed_read 0x1_0400 1024 (by decide)
  have k0 := graphed_key 0x8000 (by decide)
  have k1 := graphed_key 0x1_0000 (by decide)
  have v : BitVec.ofNat 64 (fieldOf ((List.range 64).map fun i => memRead graphed.mem (2 ^ 21 + 0x8000 + i)) 0 8) =
      BitVec.ofNat 64 (2 ^ 47 + 0x1_0000) := by decide +kernel
  have n : fieldOf ((List.range 1024).map fun i => memRead graphed.mem (2 ^ 21 + 0x1_0000 + i)) 0 8 = 1 := by decide +kernel
  refine ⟨by decide +kernel, ?_⟩
  unfold State.readGraph
  rw [h, show (0x8000_0000_8000 : Word) = BitVec.ofNat 64 (2 ^ 47 + 0x8000) from rfl]
  simp only [r0, v, r1, k0, k1, n]
  have r3 : (List.range 1).map (fun i => graphed.launchRead 3 0x800 (BitVec.ofNat 64 (2 ^ 47 + 0x1_0000) + BitVec.ofNat 64 (1024 * (i + 1))) 1024) =
      [(List.range 1024).map fun i => memRead graphed.mem (2 ^ 21 + 0x1_0400 + i)] := by
    rw [← r2]; rfl
  rw [r3]
  decide +kernel

theorem witness_Launches_start :
    (let s := holding id
     s.launch? 0 = some taken ∧ taken.node = none ∧ taken.stage = .accepted ∧ s.nextStart taken = true ∧ taken.record.sizesOk = true ∧
     memWf s.mem = true ∧ ready.nextStart taken = false) ∧
    (let l : Launch := { taken with node := some { replay := 9, node := 0 } }
     let s := holding fun _ => l
     s.launch? 0 = some l ∧ l.node ≠ none ∧ l.stage = .accepted ∧ s.nextStart l = true ∧ l.record.sizesOk = true) := by decide +kernel

/-- The table of initial messages at VA 0x2000: a message with one argument to rank 3, and an entry of a reserved bit. -/
def initials : State :=
  (holding fun l => { placed .running l with initialSent := false, record := { l.record with ninit := 2, init := 0x8000_0000_2000 } }).wrPieces [
    (2 ^ 21 + 0x2000, natBytes 8 3 ++ List.replicate 56 0 ++ natBytes 8 (0x40 + 2 ^ 20) ++ natBytes 8 99),
    (2 ^ 21 + 0x2080, natBytes 8 3 ++ List.replicate 56 0 ++ natBytes 8 (2 ^ 25))]

theorem witness_Launches_run :
    (let l := { placed .running taken with initialSent := false }
     (holding fun _ => l).launch? 0 = some l ∧ l.stage = .running ∧ l.initialSent = false ∧ l.record.ninit = 0 ∧
     (initials.launch? 0).any (fun l => l.stage = .running && !l.initialSent && decide (l.record.ninit ≠ 0)) = true ∧ taken.stage ≠ .running) ∧
    (let l : Launch := { placed .running taken with node := some { replay := 9, node := 0 } }
     let r : Replay := { num := 9, queue := 2, id := 1, early := true, note := false, prio := 0, tenant := 3, nnode := 2, completed := [], triggered := [], startTime := none }
     let s : State := { holding (fun _ => l) with launcher := { (holding fun _ => l).launcher with replays := [r] } }
     l.node = some { replay := 9, node := 0 } ∧ s.launcher.replays = [r] ∧ r.completed.length + 1 < r.nnode ∧
     ({ r with nnode := 1 } : Replay).nnode ≤ r.completed.length + 1) := by decide +kernel

/-- Every core as at reset is idle. -/
theorem idle (c : CoreId) : (Core.reset c).backlog = false ∧ (Core.reset c).forks = [] ∧ (Core.reset c).unitsIdle = true ∧
    (Core.reset c).slots.toList.all (fun t => decide (t.st = .free)) = true := ⟨rfl, rfl, rfl, rfl⟩

/-- A launch that runs on cluster 0 of a module with nothing in its cores. -/
def calm : State := { State.reset with launcher := { State.reset.launcher with launches := [placed .running taken] } }

theorem witness_Launches_end :
    calm.launch? 0 = some (placed .running taken) ∧ (placed .running taken).stage = .running ∧
    (placed .running taken).initialSent = true ∧ (placed .running taken).triggered = false ∧
    calm.tmsgs = [] ∧ calm.cox = [] ∧ calm.bmsgs = [] ∧ calm.replies = [] ∧ (placed .running taken).node = none ∧
    (∀ c ∈ (placed .running taken).cores, (calm.getCore c).backlog = false ∧ (calm.getCore c).forks = [] ∧
      (calm.getCore c).unitsIdle = true ∧ (calm.getCore c).slots.toList.all (fun t => decide (t.st = .free)) = true) ∧
    calm.triggersNow { placed .running taken with triggered := true } = false ∧
    calm.completesNow { placed .running taken with initialSent := false } = false :=
  ⟨by decide +kernel, rfl, rfl, rfl, rfl, rfl, rfl, rfl, rfl, fun c _ => idle c, rfl, rfl⟩

/-- The launch of `calm` has completed (R325). -/
theorem witness_Launches_completes : calm.completesNow (placed .running taken) = true := by
  have h : (placed .running taken).cores.all (fun c => (calm.getCore c).unitsIdle &&
      (calm.getCore c).slots.toList.all fun t => decide (t.st = .free)) = true := by
    rw [List.all_eq_true]; exact fun c _ => by rw [show calm.getCore c = Core.reset c from rfl, (idle c).2.2.1, (idle c).2.2.2]; rfl
  have g : (placed .running taken).cores.all (fun c => !(calm.getCore c).backlog && (calm.getCore c).forks.isEmpty) = true := by
    rw [List.all_eq_true]; exact fun c _ => by rw [show calm.getCore c = Core.reset c from rfl, (idle c).1, (idle c).2.1]; rfl
  unfold State.completesNow State.noTaskMessages; rw [h, g]; rfl

/-- Entry 0 sends its message to rank 3 with one argument; entry 1 is reported with kind 6 (R320). -/
theorem test_initialMessages : after (exec (.initialMessages 0) initials) (fun t =>
    t.tmsgs.map (fun m => (m.held.task.handler, m.held.task.args[(0 : Fin 8)], m.held.task.args[(1 : Fin 8)])) = [(0x40, 99, 0)] &&
      t.errors.map (fun e => (e.kind, e.word3)) = [(6, 1)]) = true := by decide +kernel

/-- A refused record's completion: no launch, the interrupt of queue 2, and the next visit to queue 3 (R315, R316). -/
theorem test_refusedRecord : after (exec (.launchRecordAccept 2) (module (record 0 0))) (fun t =>
    t.msix = [3] && t.launcher.launches = [] && t.launcher.nextQueue = 3) = true := by
  decide +kernel

/-- A record with bytes written at an offset. -/
def patched (bs : List Byte) (off : Nat) (v : List Byte) : List Byte := bs.take off ++ v ++ bs.drop (off + v.length)

theorem getD_tail (l : List Byte) (n i : Nat) (h : l.length ≤ i) : (l ++ List.replicate n 0).getD i 0 = 0 := by
  rw [List.getD_append_right _ _ _ _ h]
  by_cases k : i - l.length < n <;> simp [List.getD_eq_getElem?_getD, k]

theorem patched_tail (bs v : List Byte) (off i : Nat) (h : bs.length ≤ i) (k : off + v.length ≤ 100) (o : bs.length = 100) :
    (patched (bs ++ List.replicate 924 0) off v).getD i 0 = 0 := by
  have t : (patched (bs ++ List.replicate 924 0) off v) = bs.take off ++ v ++ bs.drop (off + v.length) ++ List.replicate 924 0 := by
    unfold patched
    rw [List.take_append_of_le_length (by omega), List.drop_append_of_le_length (by omega), List.append_assoc, List.append_assoc, List.append_assoc]
  rw [t]
  exact getD_tail _ _ _ (by simp; omega)

theorem clean : ∀ p ∈ [(0, natBytes 8 7), (0x58, natBytes 8 0), (0x60, [0]), (0x28, natBytes 8 (8 + 4 * 2 ^ 32))],
    recordClean (patched (recordBytes 7 0) p.1 p.2) false := by
  intro p h
  have tail : ∀ i, 0x120 ≤ i → (patched (recordBytes 7 0) p.1 p.2).getD i 0 = 0 := by
    intro i hi
    have k : p.1 + p.2.length ≤ 100 := by revert p; decide
    exact patched_tail _ _ _ _ (by rw [show (recordHead 7 0).length = 100 by decide]; omega) k (by decide)
  unfold recordClean
  refine ⟨?_, ?_, ?_, ?_, ?_, ?_, ?_, ?_, ?_, ?_, ?_, ?_, ?_, ?_, fun i h _ => tail i h, fun i h _ => tail i (by omega)⟩ <;>
    clear tail <;> revert p <;> decide +kernel

/-- Records of R315's reasons: a clean one, ill levels after good sizes, ill handlers after good levels, and the ids in use. -/
theorem witness_Launches_reasons :
    (recordClean (recordBytes 7 0) false ∧ recordSizes (recordBytes 7 0) ∧ recordLevels (recordBytes 7 0) ∧ recordHandlers (recordBytes 7 0) ∧
      recordField (recordBytes 7 0) 0 0 32 ≠ 0 ∧ recordField (recordBytes 0 0) 0 0 32 = 0) ∧
    ¬recordClean (patched (recordBytes 7 0) 0x240 [1]) false ∧ ¬recordClean (patched (recordBytes 7 0) 0x118 [1]) false ∧
    ¬recordSizes (patched (recordBytes 7 0) 0x58 (natBytes 8 0)) ∧
    ¬recordSizes (patched (recordBytes 7 0) 0x18 (natBytes 8 (32 + 2 ^ 40 + 2 ^ 53))) ∧
    (recordSizes (patched (recordBytes 7 0) 0x60 [0]) ∧ ¬recordLevels (patched (recordBytes 7 0) 0x60 [0])) ∧
    (recordSizes (patched (recordBytes 7 0) 0x28 (natBytes 8 (8 + 4 * 2 ^ 32))) ∧
      recordLevels (patched (recordBytes 7 0) 0x28 (natBytes 8 (8 + 4 * 2 ^ 32))) ∧
      ¬recordHandlers (patched (recordBytes 7 0) 0x28 (natBytes 8 (8 + 4 * 2 ^ 32)))) ∧
    (let r : Replay := { num := 9, queue := 2, id := 1, early := true, note := false, prio := 0, tenant := 3, nnode := 2, completed := [0], triggered := [], startTime := none }
     let l : Launcher := { State.reset.launcher with replays := [r] }
     (65 : Word32).toNat = r.id.toNat * 64 + 1 ∧ l.idUsed 65 = true ∧ l.idUsed 64 = true ∧ l.idUsed 66 = false) := by
  refine ⟨⟨clean (0, natBytes 8 7) (by simp), by unfold recordSizes; decide +kernel, ⟨1, by decide +kernel⟩, by unfold recordHandlers; decide +kernel,
    by decide +kernel, by decide +kernel⟩, ?_, ?_, ?_, ?_, ⟨?_, ?_⟩, ⟨?_, ⟨1, by decide +kernel⟩, ?_⟩, by decide +kernel⟩
  · unfold recordClean; decide +kernel
  · unfold recordClean; decide +kernel
  · unfold recordSizes; decide +kernel
  · unfold recordSizes; decide +kernel
  · unfold recordSizes; decide +kernel
  · rintro ⟨n, h1, -, h, -⟩
    exact absurd ((h 0 (by decide)).2 h1) (by decide +kernel)
  · unfold recordSizes; decide +kernel
  · unfold recordHandlers; decide +kernel

/-- The reasons of records with one ill field, in R315's order (R314, R315, R318, R321). -/
theorem test_recordReasons :
    ([patched (recordBytes 7 0) 0x240 [1], patched (recordBytes 7 0) 0x58 (natBytes 8 0), patched (recordBytes 7 0) 0x60 [0],
      patched (recordBytes 7 0) 0x28 (natBytes 8 (8 + 4 * 2 ^ 32)), patched (recordBytes 0 0) 0x60 [0]].map
        fun bs => recordReason State.reset.launcher bs false) = [1, 2, 3, 4, 1] := by decide +kernel

/-- A store of a core of the launch is in flight: it has not completed (R255, R261). -/
theorem witness_Launches_inFlight :
    (let s := asked (holding fun _ => placed .running taken) 0 (.store [(0, [1])] none)
     s.completesNow (placed .running taken) = false ∧ (∃ r ∈ s.reqs, r.core ∈ (placed .running taken).cores)) ∧
    calm.reqs = [] := by
  refine ⟨⟨by decide +kernel, _, List.mem_singleton.mpr rfl, by decide +kernel⟩, rfl⟩

/-- The launch of `calm` with core 0 running that `ata`, its four elements next. -/
def ataRunning : State :=
  let x := { copying 20 0 0 with kind := .ata, block := ataBlock 0, handler := none, opMade := true }
  { ready with launcher := { State.reset.launcher with launches := [placed .running taken] } }.modCore fun k =>
    { k with launch := 7, copy := { k.copy with run := some x } }

/-- The same launch with an `ata` of COMP 1 at the head of core 0's queue. -/
def ataLaunched : State :=
  { ataStarting 1 false with launcher := { State.reset.launcher with launches := [placed .running taken] } }.modCore fun k => { k with launch := 7 }

theorem ata_participants (x : XferCmd) (h : bits (fieldOf x.block 0x30 8) 0 3 = 0) (g : x.grid 0 * x.grid 1 * x.grid 2 = 1) :
    ∀ s ∈ [ataRunning, ataLaunched], s.participants 0 x = [0] := by
  intro s hs
  have l : s.launcher.launches.find? (fun l => l.record.id = (s.getCore 0).launch) = some (placed .running taken) := by
    revert s; decide +kernel
  have r : (placed .running taken).record.levels[0]? = some (1, 1) := by decide +kernel
  have f : ((placed .running taken).clusters.flatMap clusterCores).filter (State.levelCores.sameDomain 1 0) = [0] := by decide +kernel
  unfold State.participants State.levelCores
  rw [h, g, l]
  simp only [r]
  rw [show (1 : BitVec 3).toNat = 1 from rfl, f]
  simp

/-- The elements of the run, which all lie in one granule and in local memory, come to the core of rank 0. -/
theorem witness_TransferEngine_ata :
    ∃ x a, (ataRunning.getCore 0).copy.run = some x ∧ x.kind = .ata ∧ x.comp = 0 ∧ x.shd = false ∧ ataRunning.poison = [] ∧
      (ataRunning.participants 0 x).idxOf 0 = 0 ∧ (x.ataElems 0)[x.prog]? = some a ∧ (ataRunning.participants 0 x)[a.rank]? = some 0 ∧
      (∀ i, i < 4 → (x.ataElems 0)[x.prog + i]? = some { src := a.src + i * x.esize, rank := a.rank, dst := a.dst + i * x.esize }) ∧
      x.ataElems 0 = [{ src := 0x1000, rank := 0, dst := 0x2000 }, { src := 0x1004, rank := 0, dst := 0x2004 },
        { src := 0x1008, rank := 0, dst := 0x2008 }, { src := 0x100C, rank := 0, dst := 0x200C }] ∧
      (x.ataElems 0)[x.prog + 4]? = none ∧ (a.dst + 3 * x.esize) / 256 = a.dst / 256 ∧
      (ataRunning.getCore 0).saved = false ∧ (∀ d, d < 4 → ∃ k, k < 4 ∧ ordAt x.block 0x40 k = d) := by
  refine ⟨_, { src := 0x1000, rank := 0, dst := 0x2000 }, rfl, rfl, by decide +kernel, by decide +kernel, rfl, ?_, by decide +kernel, ?_,
    by decide +kernel, by decide +kernel, by decide +kernel, by decide +kernel, by decide +kernel, by decide +kernel⟩
  all_goals rw [ata_participants _ (by decide +kernel) (by decide +kernel) _ (by simp)]; rfl

/-- The start of an `ata` whose barrier is at 0x400 (R190, R192). -/
theorem witness_TransferEngine_ata_start :
    let x := { copying 20 0 0 with kind := .ata, started := false, block := [], handler := none }
    let y := { x with block := memReads ataLaunched.mem (localKey 0 0x800) XferKind.ata.blockSize }
    ataLaunched.core.copy.queue = [x] ∧ ataLaunched.core.copy.run = none ∧ ataLaunched.ownerReleased 0 x.own = true ∧
      ataLaunched.poisonAt (localKey 0 0x800) 128 = none ∧ ataLaunched.xferFields 0 y = true ∧ y.comp = 1 ∧ y.caddr = 0x400 ∧
      x.opMade = false ∧ ataLaunched.rd (localKey 0 0x810) 8 = 0 := by
  intro x y
  refine ⟨by decide +kernel, by decide +kernel, by decide +kernel, by decide +kernel, ?_, by decide +kernel, by decide +kernel, rfl,
    by decide +kernel⟩
  unfold State.xferFields
  rw [show y.kind = .ata from rfl]
  simp only [ata_participants y (by decide +kernel) (by decide +kernel) ataLaunched (by simp)]
  decide +kernel

/-! ### Witnesses: pre-emption (O58) -/

/-- Core 0 of `tables` in launch 7 on cluster 0, which is at a stage; its save area at VA 2^20, in the page of VA 0. -/
def preempting (l : Launch) : State :=
  { tables with launcher := { tables.launcher with launches := [l], count := 1 }, tenancy := { owner := [(0, 3)], moving := some (0, 4) } }.modCore
    fun c => { c with launch := 7, saveptr := 0x8000_0010_0000 }

/-- The pieces of the save area of `preempting`. -/
def pieces : List (Nat × Nat × Nat) :=
  [(0, 0x30_0000, 0x10000), (0x10000, 0x31_0000, 0x10000), (0x20000, 0x32_0000, 0x10000), (0x30000, 0x33_0000, 0x10000),
    (0x40000, 0x34_0000, 0x10000), (0x50000, 0x35_0000, 0x10000), (0x60000, 0x36_0000, 0x10000)]

/-- Whether a state has those pieces for core 0. -/
def hasPieces (s : State) (base : Word) : Bool :=
  match s.saveChunks 0 base with
  | .ok ch => ch == pieces
  | .error _ => false

theorem pieces_of {s : State} {base : Word} (h : hasPieces s base = true) : s.saveChunks 0 base = .ok pieces := by
  unfold hasPieces at h
  split at h
  · next ch hc => rw [hc, eq_of_beq h]
  · simp at h

theorem pieces_key (a : Nat) (h : a < 0x70000) : chunkKey pieces a = 0x30_0000 + a := by
  have hi : ∃ i, i < 7 ∧ 0x10000 * i ≤ a ∧ a < 0x10000 * i + 0x10000 := ⟨a / 0x10000, by omega, by omega, by omega⟩
  obtain ⟨i, hi, h1, h2⟩ := hi
  have f : pieces.find? (fun p => decide (p.1 ≤ a) && decide (a < p.1 + p.2.2)) =
      some (0x10000 * i, 0x30_0000 + 0x10000 * i, 0x10000) := by
    simp only [pieces, List.find?]
    rcases (show i = 0 ∨ i = 1 ∨ i = 2 ∨ i = 3 ∨ i = 4 ∨ i = 5 ∨ i = 6 by omega) with h | h | h | h | h | h | h <;> subst h <;>
      simp (disch := omega) only [decide_eq_true, decide_eq_false, Bool.and_true, Bool.and_false, Nat.zero_le, decide_true]
  unfold chunkKey
  rw [f]; simp only; omega

/-- The pieces of a save area do not overlap. -/
theorem pieces_apart : saveApart pieces := by
  intro a b ha hb h
  rw [pieces_key a ha, pieces_key b hb] at h
  omega

theorem witness_Preemptions_reasons :
    (let l := placed .running taken
     let s := preempting l
     s.launchOn 0 = some l ∧ l.stage = .running ∧ ((s.getCore 0).getSlot 0).st ≠ .free ∧ ((s.getCore 0).getSlot 0).wait = none ∧
     s.contested l = false ∧ l.record.waitbud ≠ 0 ∧ (placed .saving taken).stage ≠ .running ∧
     (preempting (placed .saving taken)).launchOn 0 = some (placed .saving taken)) ∧
    (let l := placed .running taken
     let s := (preempting l).addLaunches [{ taken with num := 1 }]
     let t := s.onSlot { core := 0, slot := 0 } fun k => { k with wait := some { kind := 2, obj := 2, ph := 7 } }
     s.launchOn 0 = some l ∧ s.contested l = true ∧ t.launchOn 0 = some l ∧ ((t.getCore 0).getSlot 0).wait ≠ none ∧
     ({ l with record := { l.record with waitbud := 0 } } : Launch).record.waitbud = 0) ∧
    (let s : State := { preempting (placed .running taken) with fails := [{ id := 4, core := 0, launch := 7, halt := none }, { id := 5, core := 0, launch := 8, halt := none }] }
     s.fails.find? (·.id = 4) = some { id := 4, core := 0, launch := 7, halt := none } ∧
     s.launcher.launches.find? (fun l => l.record.id = 7 && l.stage = .running && l.cores.contains 0) = some (placed .running taken) ∧
     s.launcher.launches.find? (fun l => l.record.id = 8 && l.stage = .running && l.cores.contains 0) = none) ∧
    (let l := placed .running taken
     let s := preempting l
     s.launch? 0 = some l ∧ s.tenancy.moving = some (0, 4) ∧ (0 : BitVec 10) ∈ l.clusters ∧ saveReason .leaving = .leaving ∧
     (let u : Launch := { l with report := some (.slice, 0) }
      (preempting u).launch? 0 = some u ∧ u.report = some (saveReason .slice, u.cores.idxOf 0) ∧ u.report ≠ some (saveReason .failure, u.cores.idxOf 0))) := by
  decide +kernel

/-- The core of `preempting` told to save itself. -/
def saving (base : Word) : State :=
  (preempting (placed .saving taken)).onCore 0 fun c => { c with saving := true, saveptr := base }

theorem witness_Preemptions_save :
    (let s := saving 0x8000_0010_0000
     s.launchOn 0 = some (placed .saving taken) ∧ (s.getCore 0).saving = true ∧ (s.getCore 0).saved = false ∧ s.drained 0 = true ∧
     memWf s.mem = true ∧ (s.getCore 0).copy.run = none ∧ (preempting (placed .saving taken)).drained 0 = true ∧
     ((preempting (placed .saving taken)).getCore 0).saving = false) ∧
    (let s := saving 0x9000_0010_0000
     s.launchOn 0 = some (placed .saving taken) ∧ (s.getCore 0).saving = true ∧ (s.getCore 0).saved = false ∧ s.drained 0 = true ∧
     (match s.saveChunks 0 (s.getCore 0).saveptr with
      | .error _ => true
      | .ok _ => false) = true ∧ (placed .saving taken).node = none) := by decide +kernel

/-- The pieces of the save area of `saving`, also of a saved core, do not overlap. -/
theorem witness_Preemptions_pieces :
    ((saving 0x8000_0010_0000).saveChunks 0 ((saving 0x8000_0010_0000).getCore 0).saveptr = .ok pieces ∧ saveApart pieces) ∧
    (20 + [1, 2, 3].length ≤ 0x60000 ∧ 0x5FFFF + [1].length ≤ 0x60000) :=
  ⟨⟨pieces_of (by decide +kernel), pieces_apart⟩, by decide⟩

/-- Core 0 of `saving` saved, with traffic for it in flight. -/
def arrivals : State :=
  let s := (saving 0x8000_0010_0000).onCore 0 fun c => { c with saved := true }
  { s with
    sacks := [{ id := 4, core := 0, slot := 0, gen := 5 }]
    replies := [{ id := 5, token := 0, val := 9, launch := 7, sender := 9 }]
    reqs := [{ id := 6, core := 9, slot := 0, gen := 0, pc := 0, ea := 0, op := .store [(localKey 0 0x400, [1])] none, applied := false
               registered := false, merged := none, res := .none, fpEvents := 0, peers := [], clk := Clock.zero
               sides := [], got := Clock.zero, met := [] }] }

theorem witness_Preemptions_arrivals :
    (∃ k, arrivals.sacks.find? (·.id = 4) = some k ∧ (arrivals.getCore k.core).saved = true) ∧
    (∃ r, arrivals.replies.find? (·.id = 5) = some r ∧ (arrivals.getCore (r.token.setWidth 18)).saved = true) ∧
    (∃ r, arrivals.reqs.find? (·.id = 6) = some r ∧ r.applied = false ∧ arrivals.savedHomes r = [0] ∧ r.plainHome = true ∧
      (arrivals.inImage 0 fun s => afterEvent s (execHomeAccess 6 s)).reqs.contains r = false) ∧
    (∃ r, r ∈ arrivals.reqs ∧ (saving 0x8000_0010_0000).savedHomes r = []) := by
  refine ⟨⟨_, rfl, by decide +kernel⟩, ⟨_, rfl, by decide +kernel⟩, ⟨_, rfl, rfl, by decide +kernel, rfl, ?_⟩, ⟨_, List.mem_singleton.mpr rfl, by decide +kernel⟩⟩
  unfold State.inImage
  rw [pieces_of (s := arrivals) (by decide +kernel)]
  decide +kernel

/-- A launch on no cores stands for one all of whose cores have saved: `report` takes any reason. -/
theorem witness_Preemptions_report : ∀ why ∈ [SaveReason.slice, .leaving, .stalemate, .failure],
    let l : Launch := { placed .saving taken with clusters := [], report := some (why, 0) }
    let s := preempting l
    s.launch? 0 = some l ∧ l.stage = .saving ∧ s.allSaved l = true ∧ l.report = some (why, 0) ∧ (placed .running taken).stage ≠ .saving ∧
    (preempting (placed .saving taken)).allSaved (placed .saving taken) = false := by decide +kernel

/-- Core 0 as it was when it saved. -/
def keptCore : Core := { (tables.getCore 0) with launch := 7, saveptr := 0x8000_0010_0000, saving := true, saved := true, saveSeq := 0 }

/-- A launch saved on core 0, with the bytes of its core-state region zero, as they are where the free bytes of log 12 are. -/
def resuming : State := preempting { placed .awaitHost taken with saved := [keptCore], resume := true, asked := true }

theorem witness_Preemptions_resume :
    (∀ l ∈ resuming.launcher.launches, resuming.launch? 0 = some l ∧ l.stage = .awaitHost ∧ l.resume = true ∧ l.asked = true ∧ (l.saved.map (·.id)).Nodup) ∧
    memWf resuming.mem = true ∧
    (let l := { placed .saved taken with asked := true }
     let s := preempting l
     let t : State := { s with launcher := { s.launcher with savedOrder := [0] }, bar0 := { s.bar0 with run := true } }
     t.launch? 0 = some l ∧ l.stage = .saved ∧ t.nextStart l = true) ∧
    (let k := { (tables.getCore 0) with saveptr := 0x9000_0010_0000 }
     (resuming.resumeChunks [k]).isNone = true) ∧
    ((placed .running taken).stage ≠ .saved ∧ (placed .running taken).stage ≠ .awaitHost) ∧
    (let l := { placed .awaitHost taken with resume := true }
     l.asked = false ∧ (preempting l).tenancy.moving = some (0, 4) ∧ (0 : BitVec 10) ∈ l.clusters) := by decide +kernel

theorem memRead_past (m : List Host.Cell) (k : Nat) (h : ∀ c ∈ m, c.1 ≠ k) : memRead m k = 0 := by
  induction m with
  | nil => rfl
  | cons c m ih =>
    unfold memRead
    rw [if_neg (h c (by simp)), ih fun d hd => h d (by simp [hd])]
    split <;> rfl

/-- The state in which the resume of `resuming` translates its save area. -/
def resumeView : State :=
  resuming.onCore keptCore.id fun c => { c with ptroot := keptCore.ptroot, tenant := keptCore.tenant, tlb := [] }

/-- The resume finds the save area where the free bytes of the core-state region are zero (log 12). -/
theorem witness_Preemptions_found (h : ∀ i, Config.coreStateByte 0 i = 0) :
    resuming.resumeChunks [keptCore] = some [(keptCore, pieces)] := by
  have low : ∀ c ∈ resuming.mem, c.1 < 0x30_0000 := by decide +kernel
  have z : resuming.saveRead pieces 0x6C000 0x4000 = coreStateBytes keptCore.saveSeq := by
    unfold State.saveRead coreStateBytes
    apply List.map_congr_left
    intro i hi
    rw [List.mem_range] at hi
    rw [pieces_key _ (by omega), memRead_past _ _ fun c hc => by have := low c hc; omega]
    exact (h i).symm
  have p : resumeView.saveChunks keptCore.id keptCore.saveptr = .ok pieces := pieces_of (by decide +kernel)
  unfold State.resumeChunks State.resumeChunks
  change (match resumeView.saveChunks keptCore.id keptCore.saveptr with
    | .error _ => none
    | .ok ch => if resuming.saveRead ch 0x6C000 0x4000 ≠ coreStateBytes keptCore.saveSeq then none
      else (some []).map fun l => (keptCore, ch) :: l) = _
  rw [p]
  simp only [z, ne_eq, not_true, if_false, Option.map_some]

/-- A slice that expires while a launch of the tenant waits for clusters is reported, and the pre-emption tells the core to save itself
(R334, R335). -/
theorem test_preemption :
    after (exec (.sliceExpiry 0) ((preempting (placed .running taken)).addLaunches [{ taken with num := 1 }]))
      (fun t => t.launcher.launches.map (·.report) = [some (.slice, 0), none]) = true ∧
    after (exec (.sliceExpiry 0) ((preempting (placed .running taken)).onCore 0 fun c => { c with slice := 1 }))
      (fun t => (t.getCore 0).slice = 1000) = true := by decide +kernel

/-- Core 0 of `saving` saved, with a task message and a boundary message for it, and a run of core 9's copy engine that lands in it. -/
def deliveries : State :=
  let s := (saving 0x8000_0010_0000).onCore 0 fun c => { c with saved := true, hbase := 0x100, hlim := 0x5000 }
  let f : Flight := { id := 1, x := copying 20 0 0, n := 2, parts := [{ elem := 0, key := localKey 0 0x2000, addr := 0x2000, bytes := [1, 2] }], bars := [] }
  { s with
    tmsgs := [{ id := 4, dst := .core 0, initial := none, refused := false
                held := { launch := 7, origin := 9, slot := 0, gen := 1, counted := true
                          task := { handler := 0x200, flags := 1, sender := 9, cgen := 0, args := Vector.replicate 8 0 } } }]
    bmsgs := [{ id := 5, src := 9, dst := 0, launch := 8, cancel := false, key := ⟨0, 0, 0⟩, nw := 0, payload := Vector.replicate 4 0, refused := false },
              { id := 6, src := 9, dst := 0, launch := 8, cancel := true, key := ⟨0, 0, 0⟩, nw := 0, payload := Vector.replicate 4 0, refused := false }]
  }.onCore 9 fun k => { k with copy := { k.copy with flights := [f] } }

/-- What a try of core 9's copy engine answers: the core that has saved, or none. -/
def stopped (s : State) : Option CoreId :=
  match s.copyTry 9 with
  | .ok _ => none
  | .error d => some d

theorem witness_Preemptions_deliveries :
    (∃ m, deliveries.tmsgs.find? (·.id = 4) = some m ∧ m.dst = .core 0 ∧ (deliveries.getCore 0).saved = true ∧ deliveries.taskFirst m = true ∧
      (deliveries.getCore 0).admits m.held = true) ∧
    (∃ m, deliveries.bmsgs.find? (·.id = 5) = some m ∧ (deliveries.getCore m.dst).saved = true ∧
      (deliveries.inImage m.dst fun s => afterEvent s (execBoundaryMessageArrival 5 s)).bmsgs.contains m = false) ∧
    (stopped deliveries = some 0 ∧ deliveries.cores.length = 1 + 1 ∧ stopped (saving 0x8000_0010_0000) = none) := by
  refine ⟨⟨_, rfl, rfl, by decide +kernel, by decide +kernel, by decide +kernel⟩, ⟨_, rfl, by decide +kernel, ?_⟩, by decide +kernel⟩
  unfold State.inImage
  rw [pieces_of (s := deliveries) (by decide +kernel)]
  decide +kernel

/-- A failure reported while the launch saves replaces the reason that the save was for, but not an earlier failure (log 38), and a
pre-emption for a leaving cluster keeps the reason already reported. -/
theorem test_failureWhileSaving :
    (∀ r ∈ [some (SaveReason.slice, 9), some (.failure, 9)],
      let s := { preempting { placed .saving taken with report := r } with fails := [{ id := 4, core := 0, launch := 7, halt := none }] }
      after (exec (.failureReport 4) s) (fun t => t.launcher.launches.map (·.report) =
        [if r = some (.failure, 9) then r else some (.failure, 0)]) = true) ∧
    after (exec (.preemption { launch := 0, core := 0, reason := .leaving }) (preempting { placed .running taken with report := some (.failure, 2) }))
      (fun t => t.launcher.launches.map (fun l => (l.stage, l.report)) = [(.saving, some (.failure, 2))]) = true := by decide +kernel

/-- What keeps a core from saving (R335 item 3, R22): a tree command that returns a value, its messages, its acknowledgements, its runs. -/
theorem test_drained :
    let s := saving 0x8000_0010_0000
    let tree (op : TreeOp) := s.onCore 0 fun c => { c with tree := [{ own := ready.owner, cfg := { n := 0, node := 0, leaf := 0 }, op := op }] }
    let m : TaskMsg := { id := 4, dst := .core 5, initial := none, refused := false
                         held := { launch := 7, origin := 0, slot := 0, gen := 1, counted := true
                                   task := { handler := 0x200, flags := 1, sender := 0, cgen := 0, args := Vector.replicate 8 0 } } }
    (tree (.root 5)).drained 0 = false ∧ (tree .build).drained 0 = true ∧ ({ s with tmsgs := [m] } : State).drained 0 = false ∧
      ({ s with cox := [(0, [m.held])] } : State).drained 0 = false ∧
      ({ s with sacks := [{ id := 4, core := 0, slot := 0, gen := 5 }] } : State).drained 0 = false ∧
      (s.onCore 0 fun c => { c with copy := { c.copy with run := some { copying 20 0 0 with snapshot := some 1 } } }).drained 0 = false := by
  decide +kernel

/-! ### Witnesses: tenancy, health, the host, the boot (O59, O60) -/

/-- A running module whose tenants 3 and 4 want clusters, with a launch of tenant 3 on cluster 0. -/
def tenants (owner : List (BitVec 10 × BitVec 12)) (dies : BitVec 64) (busy : Bool) (tgt : BitVec 16) : State :=
  let s := { module [] with tenancy := { owner := owner, moving := none } }
  let t : State := { s with bar0 := { s.bar0 with diemap := dies, tgt := [(3, tgt), (4, 0)] } }
  (if busy then t.addLaunches [placed .running { taken with record := { taken.record with tenant := 4 } }] else t).addLaunches
    [{ taken with num := 1 }]

/-- The hypotheses on the cluster that moves, over the tenants and clusters that can be meant. -/
def lacks (s : State) (t : BitVec 12) : Int := (s.target? t : Int) - s.holds t

/-- An unassigned cluster of a present die: 31 is the highest of dies 0 and 1. -/
theorem witness_TenancyHealth_spare :
    (let s := tenants [(0, 4)] 3 false 2
     s.bar0.run = true ∧ s.tenancy.moving = none ∧ (3 : BitVec 12) ∈ s.tenants ∧ s.demand 3 = true ∧ 0 < lacks s 3 ∧
     (∀ u ∈ s.tenants, s.demand u = true ∧ 0 < lacks s u → u = 3)) ∧
    (let s := tenants [(0, 4)] 3 false 2
     s.bar0.diemap.getLsbD ((31 : BitVec 10).toNat / 16) = true ∧ tabGet? s.tenancy.owner 31 = none ∧
     (∀ j : Fin 1024, s.bar0.diemap.getLsbD (j.val / 16) = true → j.val ≤ 31)) ∧
    ready.bar0.run = false ∧ (module []).bar0.run = true := by decide +kernel

/-- No unassigned cluster: tenant 4 gives, its idle cluster 15 rather than its occupied cluster 0, or an occupied one where it has no other. -/
theorem witness_TenancyHealth_gives :
    (let s := tenants ((0, 4) :: ((List.range 15).map fun i => (BitVec.ofNat 10 (i + 1), 4))) 1 true 2
     s.bar0.run = true ∧ s.demand 3 = true ∧ 0 < lacks s 3 ∧ lacks s 4 < 0 ∧ (4 : BitVec 12) ∈ s.tenants ∧
     (∀ u ∈ s.tenants, lacks s u < 0 → u = 4) ∧ s.tenancy.owner.length = 16 ∧ (15, 4) ∈ s.tenancy.owner ∧
     s.occupied 15 = false ∧ s.occupied 0 = true) := by decide +kernel

theorem witness_TenancyHealth_gives_occupied :
    let s := tenants [(0, 4)] 0 true 2
    s.demand 3 = true ∧ s.occupied 0 = true ∧ 0 < lacks s 3 ∧ lacks s 4 < 0 ∧ s.bar0.diemap = 0 ∧ tabGet? s.tenancy.owner 0 = some 4 ∧ s.tenancy.owner.length = 1 ∧
      (3 : BitVec 12) ∈ s.tenants ∧ (∀ u ∈ s.tenants, 0 < lacks s u → u = 3) := by
  exact ⟨by decide +kernel, by decide +kernel, by decide +kernel, by decide +kernel, by decide +kernel, by decide +kernel, by decide +kernel, by decide +kernel, by decide +kernel⟩

/-- The tenancy controller takes the highest unassigned cluster, then the giver's highest idle one (R343). -/
theorem test_tenancyMove :
    after (exec .tenancyMove (tenants [(0, 4)] 3 false 2)) (fun t => t.tenancy.moving = some (31, 3)) = true ∧
    after (exec .tenancyMove (tenants ((0, 4) :: ((List.range 15).map fun i => (BitVec.ofNat 10 (i + 1), 4))) 1 true 2))
      (fun t => t.tenancy.moving = some (15, 3)) = true := by decide +kernel

theorem witness_TenancyHealth_rest :
    (let s := { tenants [(0, 4)] 3 false 2 with tenancy := { owner := [(0, 4)], moving := some (1, 3) } }
     s.tenancy.moving = some (1, 3) ∧ s.occupied 1 = false ∧ memWf s.mem = true ∧
     (let t := { tenants [(0, 4)] 3 true 2 with tenancy := { owner := [(0, 4)], moving := some (0, 3) } }
      t.tenancy.moving = some (0, 3) ∧ t.occupied 0 = true)) ∧
    (∀ g ∈ [0, 2 ^ 39 - 1, 2 ^ 45, 2 ^ 45 + 0xBFFF, 2 ^ 45 + 2 ^ 35 - 2 ^ 17], (g < 2 ^ 39 ∨ (2 ^ 45 ≤ g ∧ g < 2 ^ 45 + 2 ^ 35 ∧
      (8 * g - 2 ^ 48) % 2 ^ 20 < 0x60000)) ∧ ready.fenced (keyDie (8 * g)) = false) ∧
    (∀ g ∈ [2 ^ 39, 2 ^ 45 - 1, 2 ^ 45 + 0xC000, 2 ^ 45 + 2 ^ 35], ¬(g < 2 ^ 39 ∨ (2 ^ 45 ≤ g ∧ g < 2 ^ 45 + 2 ^ 35 ∧
      (8 * g - 2 ^ 48) % 2 ^ 20 < 0x60000))) := by decide +kernel

/-- An uncorrectable error of the last granule of DRAM poisons it; one outside the memory does nothing (R307, R309). -/
theorem test_patrol :
    after (exec (.patrolRead { granule := 2 ^ 39 - 1, ecc := .uncorrectable }) ready) (fun t => t.poison = [2 ^ 39 - 1]) = true ∧
    after (exec (.patrolRead { granule := 2 ^ 45 + 0xC000, ecc := .uncorrectable }) ready) (fun t => t.poison = []) = true := by decide +kernel

/-- While a cluster moves, the controller may ask for the resume of what is saved on it (log 44). -/
theorem witness_TenancyHealth_asks :
    let s := { (tenants [(0, 4)] 3 false 2).addLaunches [placed .saved { taken with num := 2 }] with
      tenancy := { owner := [(0, 4)], moving := some (0, 3) } }
    s.tenancy.moving = some (0, 3) ∧ s.bar0.run = true ∧
      (s.launcher.launches.any fun l => (l.stage = .saved || l.stage = .awaitHost) && l.clusters.contains 0) = true := by decide +kernel

/-- Core 0 with a held line. -/
def lined : State := ready.onCore 0 fun c => { c with rlb := [{ key := 64, bytes := List.replicate 64 1, poison := 0 }] }

/-- A read of a held line may find an error in its granule 9 (R306, R307). -/
theorem test_lineError :
    (((lined.lineError 0 64 9 .uncorrectable).getCore 0).rlb.map (·.poison) = [2] ∧ (lined.lineError 0 64 9 .uncorrectable).poison = []) ∧
    tabGet? (lined.lineError 0 64 9 .single).bar0.ecc 0 = some 1 ∧ tabGet? (lined.lineError 0 128 9 .single).bar0.ecc 0 = none ∧
    (∃ l ∈ (lined.getCore 0).rlb, l.key = 64) ∧ ¬∃ l ∈ (lined.getCore 0).rlb, l.key = 128 := by decide +kernel

/-- A module whose host link A has trained, in a boot state. -/
def linked (boot : BitVec 3) : State := { ready with linkA := .pcie, bar0 := { ready.bar0 with bootst := boot } }

/-- The same with die 63 fenced. -/
def fencedDie : State := { linked 4 with auth := [(.compute 63, .fenced, 0), (.io 4, .ok, 1), (.compute 0, .ok, 5)] }

theorem witness_HostAndBoot_accesses :
    ((linked 4).linkUp false = true ∧ (linked 4).linkUp true = false ∧ (linked 7).linkUp false = false) ∧
    (∀ pa ∈ [0, 2 ^ 42 - 8], (pa + 8 ≤ 2 ^ 42) ∧ (linked 4).closed (BitVec.ofNat 6 (pa / 2 ^ 36)) = false ∧
      (linked 4).closed (BitVec.ofNat 6 ((pa + (8 - 1)) / 2 ^ 36)) = false ∧ (linked 4).poisonAt pa 8 = none ∧
      ({ linked 4 with poison := [pa / 8] } : State).poisonAt pa 8 ≠ none) ∧
    (fencedDie.linkUp false = true ∧ fencedDie.closed (BitVec.ofNat 6 ((2 ^ 42 - 8) / 2 ^ 36)) = true ∧
      fencedDie.closed (BitVec.ofNat 6 ((63 * 2 ^ 36 - 8) / 2 ^ 36)) = false ∧
      fencedDie.closed (BitVec.ofNat 6 ((63 * 2 ^ 36 - 8 + (16 - 1)) / 2 ^ 36)) = true) ∧
    ((linked 1).closed 0 = true ∧ tabGet? (linked 1).auth (.compute 0) = none ∧ tabGet? fencedDie.auth (.compute 63) = some (.fenced, 0) ∧
      fencedDie.fenced 63 = true ∧ tabGet? fencedDie.auth (.compute 0) = some (.ok, 5) ∧
      ({ fencedDie with bar0 := { fencedDie.bar0 with bootst := 1 } } : State).closed 0 = false) ∧
    ((∀ bs, HostOp.read 4 ≠ .write bs) ∧
      ∀ o ∈ [HostOp.fetchAdd true 1, .swap false 2, .cas true 3 4], (hostAtomicOf o).isSome = true) := by
  refine ⟨by decide +kernel, by decide +kernel, by decide +kernel, by decide +kernel, fun _ => nofun, by decide +kernel⟩

/-- FetchAdd of 32 bits gives the old word and adds (R381); a write to a fenced die is dropped with kind 14. -/
theorem test_hostAccess :
    after (exec (.hostMemoryAccess { linkB := false, pa := 0x100, op := .fetchAdd false 5 }) ((linked 4).wr 0x100 4 0xFFFF_FFFE)) (fun t =>
      t.rd 0x100 8 = 3 && t.hostReads.map (·.data) = [some (natBytes 4 0xFFFF_FFFE)]) = true ∧
    after (exec (.hostMemoryAccess { linkB := false, pa := BitVec.ofNat 42 (2 ^ 42 - 8), op := .write [1] }) fencedDie) (fun t =>
      t.mem = [] && t.errors.map (·.kind) = [14]) = true := by decide +kernel

theorem witness_HostAndBoot_control :
    (¬ready.anyLink ∧ (linked 3).anyLink ∧ (linked 3).bar0.bootst = 3 ∧ (linked 3).bar0.run = false ∧ (linked 2).bar0.bootst ≠ 3) ∧
    ((linked 4).bar0.attgo = false ∧ (let s : State := { fencedDie with bar0 := { fencedDie.bar0 with attgo := true } }
      s.bar0.attgo = true ∧ tabGet? s.auth (.compute (BitVec.ofFin 0)) = some (.ok, 5) ∧ tabGet? s.auth (.io (BitVec.ofFin 4)) = some (.ok, 1))) ∧
    (fencedDie.fenced 63 = true ∧ fencedDie.fenced 62 = false ∧ fencedDie.anyLink) ∧
    ((∀ d ∈ [(0x00 : Nat), 0x28, 0x30, 0x38, 0x48], (barWrite d 5).isSome = true) ∧ (0x5FFFF : Off).toNat % 8 ≠ 0 ∧ 0x60000 ≤ (0x60000 : Off).toNat ∧
      (0x10008 : Off).toNat = 0x10000 + 8 * ((7 : BitVec 12).toNat / 4) ∧ (7 : BitVec 12).toNat % 4 = (3 : Fin 4).val ∧
      (0x107F8 : Off).toNat = 0x10000 + 8 * ((1020 : BitVec 12).toNat / 4) ∧ (0x3FFF8 : Off).toNat = 0x20000 + 8 * (2 ^ 14 - 1)) := by
  unfold State.anyLink; decide +kernel

/-- The offsets of the registers that a write of BAR0 reaches, at the ends of each table. -/
theorem witness_HostAndBoot_registers :
    ((0x1000 : Off).toNat = 0x1000 + 8 * 0 ∧ (0x1028 : Off).toNat = 0x1000 + 8 * 5 ∧
      ({ linked 4 with bar0 := { (linked 4).bar0 with attgo := true } } : State).bar0.attgo = true ∧ (linked 4).bar0.attgo = false) ∧
    ((0x40000 : Off).toNat = 0x40000 + 8 * ((7 : BitVec 12).toNat / 8) ∧ (0x40FF8 : Off).toNat = 0x40000 + 8 * ((0xFFF : BitVec 12).toNat / 8) ∧
      (8 : BitVec 12).toNat / 8 ≠ (7 : BitVec 12).toNat / 8) ∧
    ((0x41000 : Off).toNat = 0x41000 + 8 * (1 - 1) ∧ (0x41030 : Off).toNat = 0x41000 + 8 * (7 - 1)) ∧
    ((0x50000 : Off).toNat = 0x50000 + 16 * (0 : BitVec 8).toNat + 0 ∧ (0x50FF8 : Off).toNat = 0x50000 + 16 * (0xFF : BitVec 8).toNat + 8) ∧
    ((0x20000 : Off).toNat = 0x20000 + 8 * 0 ∧ (0x3FFF8 : Off).toNat = 0x20000 + 8 * (2 ^ 14 - 1)) := by decide +kernel

/-- Writes of a VC map, a weight of 0, the reserved bits of a peer window, and the nonce while a report is under way (R383, R368). -/
theorem test_registers :
    after (exec (.bar0RegisterWrite { off := 0x40008, val := 0x0706_0504_0302_0100 }) (linked 4)) (fun t =>
      tabGet? t.bar0.vcmap 8 = some 0 && tabGet? t.bar0.vcmap 15 = some 7) = true ∧
    after (exec (.bar0RegisterWrite { off := 0x41000, val := 0x100 }) (linked 4)) (fun t => tabGet? t.bar0.vcw 1 = some 1) = true ∧
    after (exec (.bar0RegisterWrite { off := 0x50008, val := BitVec.allOnes 64 }) (linked 4)) (fun t =>
      tabGet? t.bar0.peerwin 0 = some (0x003F_FFFF_FFFF_FFFF * 2 ^ 64)) = true ∧
    after (exec (.bar0RegisterWrite { off := 0x1000, val := 5 }) { linked 4 with bar0 := { (linked 4).bar0 with attgo := true } })
      (fun t => t.bar0.attn = 0) = true := by decide +kernel

/-- Multicast copies under the table's old entry 7 of die 0: one that runs, of the entry as it was before tick 5, or after. -/
def mcasting (at_ : Nat) : State :=
  let x := { casting with block := List.replicate 0x34 0 ++ [7], snapshot := some 1, snapAt := at_ }
  let s := { linked 4 with bar0 := { (linked 4).bar0 with mcast := [(7, BitVec.allOnes 64)], mcastStale := [(7, 5), (300, 6)] } }
  s.modCore fun c => { c with copy := { c.copy with run := some x } }

theorem witness_HostAndBoot_drained :
    ((7, 5) ∈ (mcasting 5).bar0.mcastStale ∧ (300, 6) ∈ (mcasting 5).bar0.mcastStale ∧ 7 / 256 = (0 : Die).toNat ∧ 300 / 256 ≠ (0 : Die).toNat ∧
      (linked 4).bar0.mcastStale = []) ∧
    (∀ n ∈ [5, 6], ∀ p ∈ (mcasting n).cores, dieOf p.1 = 0 ∧ (p.2.copy.run.any fun x =>
      x.kind = .mcast && x.snapshot.isSome && x.group = 7 && x.snapAt = n) = true) ∧
    ((linked 7).bar0.bootst = 7 ∧ (mcasting 5).bar0.bootst ≠ 7 ∧ (∃ t, (7, t) ∈ (mcasting 5).bar0.mcastStale) ∧
      ∀ t, (8, t) ∉ (mcasting 5).bar0.mcastStale) :=
  ⟨by decide +kernel, by decide +kernel, by decide +kernel, by decide +kernel, ⟨5, by decide +kernel⟩, fun t => by
      rw [show (mcasting 5).bar0.mcastStale = [(7, 5), (300, 6)] from rfl]; simp⟩

/-- A stale entry is not read until its older copies are delivered; a read shows the reserved bits as zero; in STATE 7 only the state
shows (R6, R368, R370, R384, R388). -/
theorem test_mcastEntry :
    after (exec (.mcastWriteDrained 0) (mcasting 5)) (fun t => t.bar0.mcastStale = [(7, 5), (300, 6)] && t.bar0Read 0x20038 = none) = true ∧
    after (exec (.mcastWriteDrained 0) (mcasting 6)) (fun t => t.bar0.mcastStale = [(300, 6)] &&
      t.bar0Read 0x20038 = some 0xFFF8_03FF_FFFF_F000) = true ∧
    (linked 7).bar0Read 8 = some 7 ∧ (linked 7).bar0Read 0 = some 0 := by decide +kernel

/-- An error report in a log of 16 records, empty or full. -/
def logging (idx ctl : Word) : State :=
  { linked 4 with
    errors := [{ kind := 14, core := 0, launch := 0, time := 3, word1 := 9, word3 := 0 }]
    bar0 := { (linked 4).bar0 with elctl := ctl, elidx := idx } }

theorem witness_HostAndBoot_log :
    (∀ s ∈ [logging 16 4, logging 0 3], s.bar0.elctl.toNat < 4 ∨ (s.bar0.elidx - s.bar0.elhidx).toNat = 2 ^ s.bar0.elctl.toNat) ∧
    (∀ s ∈ [logging 0 4, logging 15 4], ¬(s.bar0.elctl.toNat < 4 ∨ (s.bar0.elidx - s.bar0.elhidx).toNat = 2 ^ s.bar0.elctl.toNat)) := by
  decide +kernel

/-- A full log counts the record it loses; one with room takes it, and its first record sends vector 0 (R385). -/
theorem test_errorLog : after (exec .errorLogReport (logging 16 4)) (fun t => t.errors = [] && t.bar0.ellost = 1 && t.bar0.elidx = 16) = true ∧
    after (exec .errorLogReport (logging 0 4)) (fun t => t.errors = [] && t.bar0.ellost = 0 && t.bar0.elidx = 1 && t.msix = [0]) = true := by
  decide +kernel

/-- Every die but one has answered. -/
def deciding (d : DieId) (boot : BitVec 3) : State :=
  { linked boot with auth := (allDies.filter (· ≠ d)).map fun e => (e, .ok, 3) }

theorem witness_HostAndBoot_boot :
    ((linked 1).bar0.bootst = 1 ∧ tabGet? (linked 1).auth (.io 0) = none ∧ (linked 2).bar0.bootst ≠ 1 ∧ tabGet? (deciding (.io 1) 1).auth (.io 0) ≠ none) ∧
    ((deciding (.compute 63) 1).bar0.bootst = 1 ∧ tabGet? (deciding (.compute 63) 1).auth (.compute 63) = none ∧
      (∀ e ∈ allDies, e ≠ .compute 63 → tabGet? (deciding (.compute 63) 1).auth e ≠ none) ∧
      tabGet? ({ linked 1 with auth := [(.io 0, .ok, 3)] } : State).auth (.io 4) = none) ∧
    ((linked 2).bar0.bootst = 2 ∧ memWf (linked 2).mem = true ∧ (linked 3).bar0.bootst ≠ 2 ∧ (linked 2).present (.compute 0) = false ∧
      ({ linked 2 with auth := [(.compute 0, .ok, 3)] } : State).present (.compute 0) = true) ∧
    (fencedDie.present (.io 4) = true ∧ (linked 4).present (.io 4) = false ∧ (DieId.io 1 ≠ .io 0)) := by decide +kernel

/-- What a die returns. -/
def answer (d : DieId) : AuthArg := { die := d, cert := [1], nonce := 2, measure := 9, sign := 4 }

/-- The free values of the checks of I/O die 0 and of compute die 63 (log 13): either answer. -/
theorem witness_HostAndBoot_authentication (b : Bool) (f : firmwareOk (answer (.io 0)) = b) :
    (linked 1).authOk (answer (.io 0)) = b ∧ (deciding (.compute 63) 1).authOk (answer (.compute 63)) = false ∧
    tabGet? (deciding (.compute 63) 1).auth (.io 0) ≠ none ∧ (answer (.compute 63)).die ≠ .io 0 ∧ (answer (.io 0)).die = .io 0 := by
  refine ⟨f, ?_, by decide +kernel, nofun, rfl⟩
  unfold State.authOk answer; simp [show certificateOk Config.caKey [1#8] = false from rfl]

/-- A certificate and signatures that pass. -/
theorem witness_HostAndBoot_passes (a : AuthArg) (d : a.die = .compute 63) (c : certificateOk Config.caKey a.cert = true)
    (v : signatureOk (certKey a.cert) (dieMessage (Config.rootNonce 0) a) a.sign = true)
    (w : signatureOk rootKey (rootMessage (Config.rootNonce 0) a) (rootSign 0 (rootMessage (Config.rootNonce 0) a)) = true) :
    (deciding (.compute 63) 1).authOk a = true := by
  unfold State.authOk
  rw [if_neg (by rw [d]; nofun), show (deciding (.compute 63) 1).tick = 0 from rfl, c, v, w]; rfl

theorem witness_HostAndBoot_timeout :
    (DieId.io 1 ≠ .io 0 ∧ (deciding (.io 1) 1).bar0.bootst = 1 ∧ tabGet? (deciding (.io 1) 1).auth (.io 1) = none ∧
      tabGet? (deciding (.io 1) 1).auth (.io 0) ≠ none) ∧
    ((deciding (.io 1) 2).bar0.bootst ≠ 1 ∧ tabGet? (linked 1).auth (.io 0) = none) := by decide +kernel

/-- The last die's answer moves the boot to STATE 2; a refusal of I/O die 0 ends it in STATE 7 (R386, R388). -/
theorem test_authentication (f : firmwareOk (answer (.io 0)) = false) :
    after (exec (.dieAuthentication (answer (.compute 63))) (deciding (.compute 63) 1))
      (fun t => t.bar0.bootst = 2 && t.msix = [9] && t.errors.map (fun e => (e.kind, e.word1, e.word3)) = [(14, 63, 0)]) = true ∧
    after (exec (.dieAuthentication (answer (.io 0))) (linked 1)) (fun t => t.bar0.bootst = 7 && t.msix = [9]) = true := by
  have p := (witness_HostAndBoot_authentication false f)
  change after (execDieAuthentication _ _) _ = true ∧ after (execDieAuthentication _ _) _ = true
  unfold execDieAuthentication
  rw [p.1, p.2.1]
  decide +kernel

/-! ### Witnesses: clauses on halts, reads of older writes, answers, draws, walks and units -/

/-- A halt of core 0, which launch 1 holds, with its report 4 still with the core; `busy` where a load of the core is on its way. -/
def halting (busy : Bool) : State :=
  let s := if busy then asked heldCore 0x407 (.load { key := localKey 0 0x407, len := 1 } .raw true 9) else heldCore
  { s with fails := [{ id := 4, core := 0, launch := 1, halt := some (0x300, 2) }] }

theorem witness_SystemResults_halt :
    trapped.slot.mode = .supervisor ∧
    (∀ b ∈ [true, false], ((halting b).fails.find? (·.id = 4)).any (fun f => decide (f.halt = some (0x300, 2)) &&
      decide (f.core = 0) && decide (f.launch = 1)) = true) ∧
    (halting false).quiet 0 = true ∧ (halting true).quiet 0 = false ∧ ((halting true).getCore 0).saved = false ∧
    ((halting true).launcher.launches.any fun l => l.record.id = 1 && l.stage = .running && decide ((0 : CoreId) ∈ l.cores)) = true := by
  decide +kernel

/-- A report of a halt is kept while a load of the core is on its way, and then names SEPC and the slot (R117). -/
theorem test_halt_report :
    after (exec (.failureReport 4) (halting true)) (fun t => t.errors = [] && t.fails.length = 1) = true ∧
    after (exec (.failureReport 4) (halting false)) (fun t => t.fails = [] && t.errors.map (fun e => (e.kind, e.word1, e.word3)) = [(2, 0x300, 2)]) =
      true := by decide +kernel

/-- `bases` in SR mode with the table of `len` entries at `base`. -/
def tabled (base : Off) (len : BitVec 16) : State :=
  bases.modSlot fun l => { l with rmode := true, rsrc := true, rtbase := base, rtlen := len, rtidx := 0 }

theorem witness_StoreIssue_table :
    (∀ s ∈ [tabled 0x400 0, tabled 0x404 2, tabled 0x400 2], ends (scalarPlace s (s.xv 7) 4 .w true) (fun r => r.2.win = .bf16) = true ∧
      s.slot.rmode = true ∧ s.slot.rsrc = true) ∧
    (tabled 0x400 0).slot.rtlen.toNat = 0 ∧ (tabled 0x404 2).slot.rtbase.toNat % 8 ≠ 0 ∧
    (let s := tabled 0x400 2
     s.slot.rtlen.toNat ≠ 0 ∧ s.slot.rtbase.toNat % 8 = 0 ∧ s.reqsOf s.cur = [] ∧ s.poisonAt (localKey 0 0x400) 8 = none) ∧
    (let s := regs (tabled 0x400 2) [(7, 0x50_0000)]
     ends (scalarPlace s (s.xv 7) 4 .w true) (fun r => r.2.win = .int8) = true) := by decide +kernel

/-- Request 6 of the acting context, or of slot `m` beside it, in flight or applied, and then request 7 of the acting context. -/
def behind (m : SlotNo) (q : ReqOp) (applied : Bool) (r : ReqOp) : State :=
  let t := asked filled 0x400 q applied
  asked { t with reqs := t.reqs.map fun q => { q with id := 6, slot := m } } 0x400 r

/-- A load of the byte 0x400 of core `c` to x9. -/
def byteLoad (c : CoreId) : ReqOp := .load { key := localKey c 0x400, len := 1 } .raw true 9

/-- A store of one byte to 0x400 of core `c`, plain or a release at scope 6. -/
def byteStore (c : CoreId) (rel : Bool) : ReqOp := .store [(localKey c 0x400, [0x66])] (if rel then some 6 else none)

theorem witness_HomeAppliesLoads_order :
    (∀ x ∈ [(byteStore 0 false, byteStore 0 false), (byteLoad 0, byteStore 0 false), (byteLoad 1, byteLoad 1), (byteStore 0 false, byteLoad 0),
        (.amo { key := localKey 1 0x400, len := 4 } .add 1 0 0 9, byteLoad 1),
        (byteStore 1 false, .acq { key := localKey 1 0x400, len := 4 } 6 9)],
      let s := behind 0 x.1 false x.2
      ((req7 s).any fun r => (s.before r).any fun q => !q.applied && mustPrecede q r) = true) ∧
    (let s := behind 0 (byteStore 1 false) true (byteStore 0 true)
     ((req7 s).any fun r => (s.before r).any fun q => q.isStoreLike && !q.performedAt 6) = true) ∧
    (let s := behind 0 (byteStore 1 false) true (.store [(localKey 1 0x410, [1])] none)
     ((req7 s).any fun r => (s.before r).any fun q => lineHeld q r) = true) ∧
    (let s := behind 1 (byteStore 1 false) false (byteLoad 1)
     ((req7 s).any fun r => r.isPlainLoad && s.reqs.any fun q => q.core = r.core && q.slot ≠ r.slot && q.id < r.id && !q.applied &&
       q.isStore && s.releaseReady q && q.writes.any fun w => !q.ownPiece w && piecesMeet [w] r.reads) = true) := by decide +kernel

/-- A load of the core waits for the store of another context of it (R250); one of the context itself sees its store on the way (R292). -/
theorem test_order :
    after (exec (.homeAccess 7) (behind 1 (byteStore 1 false) false (byteLoad 1))) (fun t => t.reqs.all fun r => !r.applied) = true ∧
    after (exec (.homeAccess 7) (behind 0 (byteStore 1 false) false (byteLoad 1)))
      (fun t => (req7 t).any fun r => decide (r.res = .word 0x66 false)) = true := by decide +kernel

/-- The two lanes of a vector load at 0x400 of core 1, with their lines held or not. -/
def gathering2 (hits : Bool) : State :=
  let lane := fun (j : BitVec 4) (off : Nat) =>
    ({ lane := j, piece := { key := localKey 1 off, len := 4 }, ea := 0x1_0000_0000_0000 + BitVec.ofNat 64 off } : LaneRead)
  asked ((filled.wr (localKey 1 0x400) 8 0x2_0000_0001).modCore fun c => { c with rlb := if hits then [line] else [] }) 0x400
    (.vload [lane 0 0x404, lane 1 0x400] .raw 3 false [])

theorem witness_HomeAppliesLoads_lanes :
    ∀ h ∈ [true, false], let s := gathering2 h
      ((req7 s).any fun r => s.homeReady r) = true ∧ s.core.rlb.length ≤ 16 ∧
        ∀ off ∈ [0x404, 0x400], (s.core.rlb.find? (·.key = localKey 1 off / 64 * 64)).isSome = h := by decide +kernel

/-- A gather answers each of its lanes, from the line that it fetched (R131). -/
theorem test_home_gather : after (exec (.homeAccess 7) (gathering2 false))
    (fun t => t.reqs.map (·.res) = [.lanes [(0, 2), (1, 1)] none] && t.reqs.all (·.registered)) = true := by decide +kernel

/-- The write of two that `remote` has had at 0x400 of core 1 with number `n`, the byte that it replaced, and what happens before it. -/
def replaced (b : Byte) (n : Nat) (below : List Nat) : Past :=
  { num := n, old := [(localKey 1 0x400, [b])], cleared := [], by_ := .machine, clk := { below := [], writes := below }, sides := []
    rmw := false, readers := [] }

/-- `remote` after the byte was 0x11 and 0x22 there, by writes that happen before the read or do not, with a read that leaves the writes of
`skip` out next. -/
def reading (known : Bool) (skip : List Nat) : State :=
  let s := remote [] []
  { s with past := [replaced 0x22 1 [0], replaced 0x11 0 []], agenda := [.stale 7 skip]
           reqs := s.reqs.map fun r => { r with clk := { below := [], writes := if known then [0, 1] else [] } } }

theorem witness_HomeAppliesLoads_past :
    (let s := reading false [0]
     ((req7 s).any fun r => s.homeReady r && decide (s.staleAnswer r [0] = some (.word 0x22 false)) &&
       decide (s.passing r.slotId r.gen r.id = []) &&
       decide (s.staleByte r.party r.clk [0] (localKey 1 0x400) = some (0x22, false))) = true ∧
     (replaced 0x22 1 [0]).byteAt (localKey 1 0x400) = some 0x22 ∧ (replaced 0x22 1 [0]).knownTo (s.cur, 5) Clock.zero = false) ∧
    (let s := reading true [0]
     ((req7 s).any fun r => decide (s.staleAnswer r [0] = none)) = true ∧
      s.staleByte (s.cur, 5) { below := [], writes := [0, 1] } [] (localKey 1 0x400) = some (0x44, false) ∧
      (∀ w ∈ s.past, w.knownTo (s.cur, 5) { below := [], writes := [0, 1] } = true) ∧
      (s.past.Pairwise fun w v => (w.byteAt (localKey 1 0x400)).isSome = true → (v.byteAt (localKey 1 0x400)).isSome = true →
        v.precedes w = true)) := by decide +kernel

/-- A read may leave the newest write, or both, out (R251); not where they happen before it, one before the other (R250). -/
theorem test_past :
    after (step (reading false [0])) (fun t => (req7 t).any fun r => decide (r.res = .word 0x22 false)) = true ∧
    after (step (reading false [0, 1])) (fun t => (req7 t).any fun r => decide (r.res = .word 0x11 false)) = true ∧
    after (step (reading true [0])) (fun t => (req7 t).any fun r => !r.applied) = true := by decide +kernel

theorem witness_HomeAppliesStores_jst :
    (let s := asked filled 0x50000 (.jst (localKey 0 0x50000) 5 none)
     ((req7 s).any fun r => s.homeReady r) = true ∧ memWf s.mem = true ∧ s.core.meetsInbox 0x50000 8 = true) := by decide +kernel

/-- `gathering2` with its answer, into v3 or into the output stream of v13, poisoned or not. -/
def gathered (push : Bool) (bad : Option Word) : State :=
  let s := streaming (.ok VVal.zero none)
  asked (s.modSlot fun l => l.markV 3 false) 0x400 (.vload [] .raw (if push then 13 else 3) push []) true (.lanes [(0, 2), (1, 1)] bad)

theorem witness_ReturningOperationsComplete_lanes :
    (∀ s ∈ [gathered false none, gathered false (some 0x400), gathered true none],
      ((req7 s).any fun r => r.applied && !s.splitPending 7 && decide (r.peers = []) && s.alive r) = true) ∧
    (let s := (gathered false none).modSlot fun l => { l with gen := 6 }
     ((req7 s).any fun r => r.applied && !s.alive r && !s.splitPending 7) = true) ∧
    (gathered true none).slot.streamOf 13 = some 1 ∧
    (let c := { gathered true none with reqs := [] }
     ends (popStreams c []) (fun u => ends (pushStream u 1 VVal.zero) fun _ => true) = true ∧
     ends (popStreams c []) (fun _ => true) = true) := by decide +kernel

/-- A pop of an input stream with nothing fetched waits. -/
theorem witness_ReturningOperationsComplete_pops :
    let s := (gathered true none).modSlot fun l => { l with streams := l.streams.set 0 { StreamCfg.off with c0 := 9, c1 := 1, c2 := 1 } }
    (popStreams { s with reqs := [] } [0] matches .error (.wait _ _)) = true := by decide +kernel

theorem witness_ReturningOperationsComplete_more :
    (let s := asked filled 0x404 (.amo { key := localKey 0 0x404, len := 4 } .fadd 1 0 0 9) true (.word 77 false)
     ((req7 s).any fun r => r.applied && s.alive r && !s.splitPending 7) = true ∧ (2#2).getLsbD 0 = false) ∧
    (∀ v ∈ [none, some 3], let s := asked vectors 0 (.rand v 9 0xFFFF VVal.zero Events.zero) true (.word 77 false)
     ((req7 s).any fun r => r.applied && s.alive r && !s.splitPending 7) = true) := by decide +kernel

/-- A vector load fills its lanes and keeps the others (R130), or pushes one element (R25); an `amofadd` counts its events (R56). -/
theorem test_lanes_complete :
    after (exec (.returningOperationComplete 7) (gathered false none)) (fun t => laneOf (t.slot.getV 3) 0 = 2 && laneOf (t.slot.getV 3) 1 = 1 &&
      laneOf (t.slot.getV 3) 2 = laneOf (vectors.slot.getV 3) 2 && t.slot.vIsFull 3 && t.reqs = [] && t.slot.pc = 0x200) = true ∧
    after (exec (.returningOperationComplete 7) (gathered true none)) (fun t => t.slot.pc = 0x204 && (t.reqs.map (·.id)).contains 7 = false) =
      true := by decide +kernel

/-- A context drawing from a table whose entry it has just stored over poisoned bytes. -/
def storedOver : State :=
  let s := asked (ready.modSlot fun l => { l with rsrc := true, rtbase := 0x400, rtlen := 2 }) 0x400
    (.store [(localKey 0 0x400, natBytes 8 0x1234)] none)
  { s with poison := [localKey 0 0x400 / 8] }

theorem witness_RandomDraws_stored :
    (∃ r ∈ storedOver.reqsOf storedOver.cur, r.op = .store [(localKey 0 0x400, natBytes 8 0x1234)] none ∧ r.applied = false) ∧
    (natBytes 8 0x1234).length = 8 ∧ localKey 0 0x400 % 8 = 0 ∧ (storedOver.reqsOf storedOver.cur).length = 1 ∧
    storedOver.ctxPoison storedOver.cur (localKey 0 0x400) 8 = none ∧
    (∀ r ∈ storedOver.reqsOf storedOver.cur, r.applied = true ∨ r.isStore = true) := by decide +kernel

/-- The draw reads the store of its own context (R65, R244). -/
theorem test_draw_stored : ends (draw storedOver) (fun r => r.2 = 0x1234) = true := by decide +kernel

/-- Context 0 one phase ahead of what the core has sent, with three phases in the lead when it arrives again. -/
theorem witness_WireBarrierPhases_ahead :
    let m := { early 1 2 with ctxNext := Vector.replicate 16 7 }
    (joined m).core.member 2 = some m ∧ m.joined.getLsbD 0 = true ∧ m.next < m.ctxNext.getD 0 0 ∧
      (∀ j : Fin 16, j.val ≠ 0 → m.joined.getLsbD j.val = true → m.ctxNext.getD 0 0 < m.ctxNext[j]) ∧
      3 ≤ m.lead + (m.ctxNext.getD 0 0 - m.next) := by decide +kernel

/-- Translations without an entry in the TLB: of an address that is not mapped, and by a poisoned pointer. -/
theorem witness_Translation_walked :
    tables.core.tlbFind (2 ^ 39) = none ∧
    (match tables.walk (some (dieOf tables.cur.core)) tables.core.ptroot (2 ^ 39) with
      | .error .absent => true
      | _ => false) = true ∧
    (match ({ tables with poison := [0x800 / 8] } : State).walk (some (dieOf tables.cur.core)) tables.core.ptroot 0x1234 with
      | .error .poison => true
      | _ => false) = true := by decide +kernel

/-- A load of an address that is not mapped faults with UNMAPPED at the instruction (R297). -/
theorem test_unmapped : after (exec (.ldd { d := 9, a := 1, imm := 0, wa := false }) (regs tables [(1, 0x8080_0000_0000)]))
    (fun t => t.slot.scause = 0x0611 && t.slot.sval = 0x8080_0000_0000 && t.slot.sepc = 0x200) = true := by decide +kernel

/-- The command of an `mma` of a format with its operands at `a` and `b` and K two, running at core 0, with the page of VA 0 in the TLB
for BF16. -/
def running (fmt : MmaFmt) (a b : Word) : State :=
  let m := { matCmd (.mma fmt 0x800) with block := some { aaddr := a, baddr := b, astr := 2, bstr := 16, k := 2, tbl := 0, aoff := 0, boff := 0 } }
  ready.modCore fun c => { c with
    mat := { queue := [], run := some m, parked := none }
    tlb := [{ va := 0, size := 0x20_0000, leaf := BitVec.ofNat 64 (3 + 2 ^ 2 + 3 * 2 ^ 6 + 2 ^ 21 + 3 * 2 ^ 48) }] }

/-- An operand in local memory is one of an engine's. -/
theorem operand_local {s : State} {c d : CoreId} {ea : Word} {n win page off : Nat} (h : s.target c ea n = .ok (.loc d win off))
    (a : off % n = 0) (u : (s.getCore d).saved = false) : s.operandAt c ea n win page (localKey d off) := .inl ⟨d, off, h, a, u, rfl⟩

/-- A command of E4M3 with both operands in local memory, and one of BF16 whose first operand is in a linear page. -/
theorem witness_MatrixEngine_formats :
    (let s := running .e4m3 0x10_1000 0x10_2000
     (s.core.mat.run.any fun m => m.block.any fun b => decide (m.op = .mma .e4m3 0x800) && decide (m.done < b.k)) = true ∧ s.poison = [] ∧
     (∀ i x, i < 8 → x < 2 → s.operandAt 0 ((0x10_1000 : Word) + BitVec.ofNat 64 (i * 2 + (0 + x) * 1)) 1 1 1 (localKey 0 (0x1000 + i * 2 + x))) ∧
     ∀ x j, x < 2 → j < 8 → s.operandAt 0 ((0x10_2000 : Word) + BitVec.ofNat 64 ((0 + x) * 16 + j * 1)) 1 1 1 (localKey 0 (0x2000 + x * 16 + j))) ∧
    (let s := running .bf16 0x8000_0000_1000 0x30_2000
     (∀ i x, i < 8 → x < 1 → s.operandAt 0 ((0x8000_0000_1000 : Word) + BitVec.ofNat 64 (i * 2 + (0 + x) * 2)) 2 3 3 (0x20_1000 + i * 2 + x * 2)) ∧
     ∀ x j, x < 1 → j < 8 → s.operandAt 0 ((0x30_2000 : Word) + BitVec.ofNat 64 ((0 + x) * 16 + j * 2)) 2 3 3 (localKey 0 (0x2000 + x * 16 + j * 2))) := by
  have a : ∀ i < 8, ∀ x < 2, (running .e4m3 0x10_1000 0x10_2000).target 0 ((0x10_1000 : Word) + BitVec.ofNat 64 (i * 2 + (0 + x) * 1)) 1 =
      .ok (.loc 0 1 (0x1000 + i * 2 + x)) := by decide +kernel
  have b : ∀ x < 2, ∀ j < 8, (running .e4m3 0x10_1000 0x10_2000).target 0 ((0x10_2000 : Word) + BitVec.ofNat 64 ((0 + x) * 16 + j * 1)) 1 =
      .ok (.loc 0 1 (0x2000 + x * 16 + j)) := by decide +kernel
  have e : ∀ i < 8, ∀ x < 1, (running .bf16 0x8000_0000_1000 0x30_2000).target 0 ((0x8000_0000_1000 : Word) + BitVec.ofNat 64 (i * 2 + (0 + x) * 2)) 2 =
      .ok (.virt (0x1000 + i * 2 + x * 2)) ∧ (0x1000 + i * 2 + x * 2) % 2 = 0 ∧ ((0x1000 + i * 2 + x * 2) < 0x20_0000) ∧
      (running .bf16 0x8000_0000_1000 0x30_2000).useEntry (running .bf16 0x8000_0000_1000 0x30_2000).core
        { va := 0, size := 0x20_0000, leaf := BitVec.ofNat 64 (3 + 2 ^ 2 + 3 * 2 ^ 6 + 2 ^ 21 + 3 * 2 ^ 48) } (0x1000 + i * 2 + x * 2) .r =
          .ok (0x20_1000 + i * 2 + x * 2) ∧ 0x20_1000 + i * 2 + x * 2 < 2 ^ 64 := by decide +kernel
  have f : ∀ x < 1, ∀ j < 8, (running .bf16 0x8000_0000_1000 0x30_2000).target 0 ((0x30_2000 : Word) + BitVec.ofNat 64 ((0 + x) * 16 + j * 2)) 2 =
      .ok (.loc 0 3 (0x2000 + x * 16 + j * 2)) ∧ (0x2000 + x * 16 + j * 2) % 2 = 0 := by decide +kernel
  refine ⟨⟨by decide +kernel, rfl, fun i x hi hx => operand_local (a i hi x hx) (Nat.mod_one _) rfl,
    fun x j hx hj => operand_local (b x hx j hj) (Nat.mod_one _) rfl⟩, fun i x hi hx => ?_,
    fun x j hx hj => operand_local (f x hx j hj).1 (f x hx j hj).2 rfl⟩
  obtain ⟨h, h2, lt, u, v⟩ := e i hi x hx
  refine .inr ⟨_, _, h, h2, by decide, fun e' m => ?_, List.mem_singleton_self _, u, v, by decide, by decide⟩
  rw [List.mem_singleton.mp m]
  exact ⟨fun _ => rfl, fun _ => ⟨Nat.zero_le _, (Nat.zero_add _).symm ▸ lt⟩⟩

/-- Commands of XF8 with frames of zeros. -/
theorem witness_MatrixEngine_xf8 :
    (let s := running .xf8 0x60_1000 0x60_2000
     (s.core.mat.run.any fun m => m.block.any fun b => decide (m.op = .mma .xf8 0x800) && decide (m.done < b.k)) = true ∧
     (0x60_1000 : Word).toNat % 1024 = 0 ∧
     (∀ k ∈ [0x1000, 0x2000], decodeFrame 0 (memReads s.mem (localKey 0 k) 1024) = some (List.replicate 1024 0)) ∧
     ∀ i x, i < 8 → x < 2 → s.operandAt 0 ((0x60_1000 : Word) + BitVec.ofNat 64 (1024 * ((0 + i * 2 + (0 + x)) / 1024))) 1024 6 5 (localKey 0 0x1000)) := by
  have a : ∀ i < 8, ∀ x < 2, (running .xf8 0x60_1000 0x60_2000).target 0
      ((0x60_1000 : Word) + BitVec.ofNat 64 (1024 * ((0 + i * 2 + (0 + x)) / 1024))) 1024 = .ok (.loc 0 6 0x1000) := by decide +kernel
  exact ⟨by decide +kernel, rfl, by decide +kernel, fun i x hi hx => operand_local (a i hi x hx) (by decide) rfl⟩

/-- A step of an E4M3 `mma` takes two k values: 1.0·2.0 + 0.5·1.0 is 2.5 (R171, R172). -/
theorem test_mma_e4m3 : after (exec (.matrixStep 0) ((running .e4m3 0x10_1000 0x10_2000).wrPieces
      [(localKey 0 0x1000, [0x38, 0x30]), (localKey 0 0x2000, [0x40]), (localKey 0 0x2010, [0x38])]))
    (fun t => (t.core.tile 2)[0] = 0x4020_0000 && t.core.mat.run = none) = true := by decide +kernel

/-- A block of `vgemv` with its weights at an address that is not mapped. -/
theorem witness_VaultUnits_walked :
    (gemvCheck (tables.wrPieces [(localKey 0 0x800, natBytes 8 0x8080_0000_0000 ++ natBytes 4 2 ++ natBytes 4 3 ++ natBytes 8 0x1000 ++ natBytes 8 0x2000)])
      0x800 matches .error (.walked 0x0611 0x8080_0000_0000)) = true := by decide +kernel

/-- The block of a queued `vgemv`, as it was checked or stored over with zeros, with rows left or none. -/
theorem witness_VaultUnits_start :
    let g := { gemv with started := false, xbuf := [] }
    let s := fun (bs : List Byte) (p : Nat) => (ready.wrPieces [(localKey 0 0x800, bs), (localKey 0 0x830, natBytes 8 p)]).onUnit 0 fun u =>
      { u with queue := [g] }
    (∀ p ∈ [0, 2], let bs := memReads (s gemv.block p).mem (localKey 0 0x800) 64
      bs.take 0x30 = g.block.take 0x30 ∧ bs.drop 0x38 = g.block.drop 0x38 ∧ (s gemv.block p).rd (localKey 0 0x830) 8 = p ∧
        (s gemv.block p).poison = []) ∧
    (let bs := memReads (s [] 0).mem (localKey 0 0x800) 64
     bs.take 0x30 ≠ g.block.take 0x30 ∧ ({ g with block := bs } : GemvCmd).rows = 0) := by decide +kernel

/-- A start with its block stored over reads it whole, and faults with ILLEGAL (R168, R178). -/
theorem test_vgemv_changed : after (exec (.vgemvStart 0) (ready.onUnit 0 fun u => { u with queue := [{ gemv with started := false, xbuf := [] }] }))
    (fun t => (t.getUnit 0).run = none && t.slot.asyncs.map (·.scause) = [0x0D11]) = true := by decide +kernel

/-- `gemv` with its weights in XF8 frames. -/
def gemvXf8 : GemvCmd := { gemv with block := gemv.block.take 0x20 ++ natBytes 8 2 ++ List.replicate 24 0 }

/-- The sum of a row of a `vgemv` with some weights, chunk by chunk. -/
def sums (g : GemvCmd) (weight : Nat → FVal) : Nat → Rounded
  | 0 => { bits := 0, ev := Events.zero }
  | i + 1 =>
    let q := fp32.dot ((List.range (min 32 (g.cols - 32 * i))).map fun j => (weight (32 * i + j), fp32.decode (g.xbuf.getD (32 * i + j) 0).toNat))
      [fp32.decode (sums g weight i).bits]
    { bits := q.bits, ev := (sums g weight i).ev.plus q.ev }

/-- A frame of zeros decodes, and the row that it holds has its sum by chunks. -/
theorem witness_VaultUnits_chunks :
    ∃ (weight : Nat → FVal) (es : Nat → List Nat) (ys : Nat → Rounded),
      (gemvXf8.fmt = 2 ∧ gemvXf8.xbuf.length = gemvXf8.cols ∧ gemvXf8.acc = false ∧ gemvXf8.comp = 0 ∧ gemvXf8.rowVault gemvXf8.prog = 0 ∧
        ready.poison = []) ∧
      (∀ j, weight j = fmtE4m3.decode ((es ((gemvXf8.prog * gemvXf8.pitch + j) / 1024)).getD ((gemvXf8.prog * gemvXf8.pitch + j) % 1024) 0)) ∧
      (∀ i, i ≤ (gemvXf8.prog * gemvXf8.pitch + gemvXf8.pitch - 1) / 1024 →
        decodeFrame gemvXf8.codes (memReads ready.mem (gemvXf8.pa (1024 * i)) 1024) = some (es i)) ∧
      ys 0 = { bits := 0, ev := Events.zero } ∧
      (∀ i, let q := fp32.dot ((List.range (min 32 (gemvXf8.cols - 32 * i))).map fun j =>
          (weight (32 * i + j), fp32.decode (gemvXf8.xbuf.getD (32 * i + j) 0).toNat)) [fp32.decode (ys i).bits]
        ys (i + 1) = { bits := q.bits, ev := (ys i).ev.plus q.ev }) := by
  let w : Nat → FVal := fun j => fmtE4m3.decode ((List.replicate 1024 0).getD ((gemvXf8.prog * gemvXf8.pitch + j) % 1024) 0)
  refine ⟨w, fun _ => List.replicate 1024 0, sums gemvXf8 w, by decide +kernel, fun _ => rfl, fun i hi => ?_, rfl, fun _ => rfl⟩
  have h : ∀ i ≤ 0, decodeFrame gemvXf8.codes (memReads ready.mem (gemvXf8.pa (1024 * i)) 1024) = some (List.replicate 1024 0) := by
    decide +kernel
  exact h i hi

/-- A row of 33 columns: the 33rd product is added to the rounded sum of the first 32 (R54). -/
theorem test_vgemv_chunks :
    let g := { gemv with xbuf := List.replicate 32 0x3F80_0000 ++ [0x4B80_0000], block := gemv.block.take 12 ++ natBytes 4 33 ++ gemv.block.drop 16 }
    after (exec (.vgemvRow 0) ((ready.wrPieces [(0x10000, List.replicate 33 0x38)]).onUnit 0 fun u => { u with run := some g }))
      (fun t => t.rd (localKey 0 0x2000) 4 = 0x4B80_0010) = true := by decide +kernel

/-- Bases that are no address, one of a tensor window and one of an XF8 page that may be written. -/
theorem witness_Streams_bases :
    (match addrForm 0 0x1_0000_0000_0000 with
      | .error k => decide (k.scause = 0x0111)
      | _ => false) = true ∧
    (match addrForm 0 0x60_3000 with
      | .ok (.loc _ w _) => decide (w = 6)
      | _ => false) = true ∧
    (match addrForm 0 0x7_0000 with
      | .ok (.loc c w off) => decide (c = 0 ∧ w = 0 ∧ off = 0x7_0000)
      | _ => false) = true ∧
    (match addrForm 0 0x8000_0000_1000 with
      | .ok (.virt va) => decide (va = 0x1000)
      | _ => false) = true ∧
    (descriptor 0x8000_0000_1000 1).xf8Page 0x8000_0000_1000 = false ∧
    (let s := (descriptor 0x8000_0000_1000 1).modCore fun c => { c with
        tlb := [{ va := 0, size := 0x20_0000, leaf := BitVec.ofNat 64 (3 + 2 ^ 2 + 2 ^ 3 + 5 * 2 ^ 6 + 2 ^ 21 + 3 * 2 ^ 48) }] }
     s.xf8Page 0x8000_0000_1000 = true) := by decide +kernel

/-- A base outside local memory configures the stream, whose first access then faults (R193, R194); an output into an XF8 page is BLOCK. -/
theorem test_scfg_base :
    after (exec (.scfg { s := 2, a := 1, wa := false }) (descriptor 0x7_0000 1)) (fun t => t.slot.sm = 4) = true ∧
    after (exec (.scfg { s := 2, a := 1, wa := false }) (descriptor 0x1_0000_0000_0000 1)) (fun t => t.slot.scause = 0x0111) = true := by
  decide +kernel

/-- `bsend`s queued behind 63 messages without an acknowledgement. -/
theorem witness_Regions_queued :
    let s := (treeRuns (boundSending false) (.bsend 77 [0x4000_0000_0000_0000, 5, 0, 0, 0] 1 (localKey 0 0x6000))).modCore fun c =>
      { c with unacked := List.replicate 63 (1, 2) }
    64 ≤ s.core.unacked.length + s.core.queuedSends ∧ s.core.jmode = false ∧ s.reqs = [] ∧ s.poison = [] ∧
      s.ctl s.cur.core / 2 ^ 24 % 256 + s.core.queuedSends < 255 := by decide +kernel

/-- A boundary message of core 0 that was refused. -/
def turnedAway : State :=
  let s := saving 0x8000_0010_0000
  { s with bmsgs := [{ id := 5, src := 0, dst := 9, launch := 7, cancel := false, key := ⟨0, 0, 0⟩, nw := 0, payload := Vector.replicate 4 0,
                       refused := true }] }.onCore 0 fun c => { c with unacked := [(5, 2)] }

/-- The completion of a phase of a wire barrier for core 0, which has saved. -/
def completed : State := { deliveries with wbdones := [{ id := 8, core := 0, launch := 7, bar := 2, phase := 5, val := 8, counters := [] }] }

theorem witness_Preemptions_refused :
    turnedAway.drained 0 = true ∧
    (let l : Launch := { placed .saving taken with clusters := [], report := some (.slice, 0) }
     let s := { preempting l with bmsgs := turnedAway.bmsgs }
     s.launch? 0 = some l ∧ s.allSaved l = true ∧ s.bmsgs.all (·.launch = l.record.id) = true ∧
       (let t : State := { s with wbdones := completed.wbdones }
        t.allSaved l = false)) := by decide +kernel

theorem witness_Preemptions_wbDone :
    ∃ d, completed.wbdones.find? (·.id = 8) = some d ∧ (completed.getCore d.core).saved = true ∧
      (completed.inImage d.core fun s => afterEvent s (execWbPhaseCompletion 8 s)).wbdones.contains d = false := by
  refine ⟨_, rfl, by decide +kernel, ?_⟩
  unfold State.inImage
  rw [pieces_of (s := completed) (by decide +kernel)]
  decide +kernel

/-- A report of a halt whose core is quiet, one that waits, and one that no launch holds any more. -/
theorem witness_Preemptions_halts :
    (let found := fun (s : State) => s.launcher.launches.find? fun l => l.record.id = 1 && (l.stage = .running || l.stage = .saving) && l.cores.contains 0
     (found (halting false)).isSome = true ∧ (found (halting true)).isSome = true ∧
       found { halting false with launcher := ready.launcher } = none) ∧
    (halting true).quiet 0 = false ∧ (halting false).quiet 0 = true ∧
    (let s := barrier 0 (.cbwait (localKey 0 0x400) true none .wait)
     s.reqs ≠ [] ∧ s.quiet 0 = true) := by decide +kernel

/-- A message of the core's own stores: its header is still on its way. -/
theorem witness_TaskSends_stored :
    let s := { asked (message 1 0) 0x400 (.store [(localKey 0 0x400, natBytes 8 0x304)] none) with poison := [localKey 0 0x400 / 8] }
    (∀ r ∈ s.reqsOf s.cur, r.applied = true ∨ r.isStore = true) ∧ s.ctxPoison s.cur (localKey 0 0x400) 64 = none ∧
      leNat (s.ctxRead s.cur (localKey 0 0x400) 8) = 0x304 := by decide +kernel

/-- `spawn` sends what its own context has stored over poison (R206, R245, R307). -/
theorem test_spawn_stored :
    after (exec (.spawnd { rel := false, a := 2, wa := false })
      { asked (message 1 0) 0x400 (.store [(localKey 0 0x400, natBytes 8 0x304)] none) with poison := [localKey 0 0x400 / 8] })
    (fun t => t.tmsgs.map (·.held.task.handler) = [0x304]) = true := by decide +kernel

/-- The SHA-384 of no bytes begins 38B060A7 51AC9638 (FIPS 180-4). -/
theorem test_sha384 : sha384 [] / 2 ^ 320 = 0x38B0_60A7_51AC_9638 := by decide +kernel

/-- A public key with which the signature (r, r) over the byte 0 verifies, r the digest modulo the order: its sum with the base point has
the x coordinate r. -/
def someKey : CurvePoint :=
  some (0x30e3528fe7db8ef938777151bb05417b78a8f861f8d8574ee605af629c30dd6cd2875190571a43dd87d63c63252d0a1c,
    0x67062ea015a106048e311d0569f2d43e351e482dbc06774c069ebff851c95519ff3a56984f3d5ea79f8d6e31a781f3aa)

/-- That signature. -/
def someSign : BitVec 768 :=
  packSign 0x32070332503075de81d7709471cdee916ea438b3e4b28b9b3ff71874916210bd89f9357bd5b4a2862c8f77bf1f9cb1b2
    0x32070332503075de81d7709471cdee916ea438b3e4b28b9b3ff71874916210bd89f9357bd5b4a2862c8f77bf1f9cb1b2

theorem witness_HostAndBoot_signature : signatureOk someKey [0] someSign = true := by decide +kernel

/-- A key that is no point of the curve verifies nothing; the base point is one (RFC 5639). -/
theorem test_key : keyOk bpG = true ∧ keyOk (some (1, 1)) = false ∧ signatureOk (some (1, 1)) [0] someSign = false := by decide +kernel


/-- An acquire learns from a release only where both scopes cover both contexts (R247, R267). -/
theorem test_learn_scopes :
    let by_ : Party := ({ core := 1, slot := 0 }, 5)
    let side := fun (sc : BitVec 3) => ({ by_ := by_, scope := sc, clk := { below := [(by_, 4)], writes := [] } } : Side)
    let p : Party := ({ core := 0, slot := 0 }, 5)
    learn p 6 [side 1] = Clock.zero ∧ learn p 1 [side 6] = Clock.zero ∧ learn p 6 [side 6] = { below := [(by_, 4)], writes := [] } ∧
      learn p 3 [side 4] = { below := [(by_, 4)], writes := [] } := by decide +kernel

end Sys2Proof.Tests
end

/-! No instruction, event or step stops the machine (O6), and a control register keeps the fields it has (O20). -/

namespace Sys2Proof.Machine

open Sys2Proof

/-! ### No instruction, event or step stops the module (R9, R93) -/

/-- An event, and an instruction that waits for no register, names its next state; every other instruction ends by `finish`, which
takes what stopped its body as a next state too (R9). -/
theorem exec_next (i : Instr) (s : State) : ∃ t, exec i s = .next t := by
  cases i with
  | nop | trap | brk | yield | illegal
  | asyncSupervisorCause | copydone | sliceExpiry | waitBudgetExpiry
  | returningOperationComplete | storeAcknowledgement | homeAccess | pageWalkComplete | cbHomeOperation | cbtwaitExpiry
  | mergedReplySplit | enPassantMerge | synelmFrameArrival | peerIncarnationChange
  | wbJoinAck | wbPhaseCompletion | wbtwaitExpiry | wbRootArrival
  | boardPostAtHome | boardViewReturn | boardLevelAdvanceReport
  | taskMessageArrival | badhandlerReport | taskDispatch | messageResend | spawnAcknowledgement | replyArrival | coxPlacement | coxSteal
  | mcastAnchorSnapshot | matrixCommandStart | matrixStep | copyCommandStart | copyRunDelivered | vcodesArrival | vgemvStart | vgemvRow
  | streamPrefetch | treeCommandRun | boundaryMessageArrival | cancelArrival | boundaryAckArrival
  | launchRecordAccept | launchStart | initialMessages | launchTriggered | launchCompletion | replayNodeDispatch
  | preemption | coreSave | saveImageArrival | launchSavedReport | failureReport | launchResume
  | tenancyMove | clusterScrub | patrolRead | timebaseReference | supplyDroop | railRecovery
  | hostMemoryAccess | ctlRun | attgo | mcastTableWrite | mcastWriteDrained | bar0RegisterWrite | errorLogReport
  | moduleReset | dieAuthentication | authenticationTimeout | bootInitialisationComplete | hostLinkTraining => exact ⟨_, rfl⟩
  | _ => exact finish_next _ _

/-- An instruction performed ends in a next state. -/
theorem State.perform_next (s : State) (i : Instr) : ∃ t, s.perform i = .next t := by
  obtain ⟨t, ht⟩ := exec_next i s
  exact ⟨s.ordered t i, by rw [State.perform, ht]⟩

/-- A slot that issues ends in a next state, a fetch that fails included (R18). -/
theorem State.run_next (s : State) (o : SlotId) : ∃ t, s.run o = .next t := by
  unfold State.run
  dsimp only
  split
  · exact State.perform_next _ _
  · exact ⟨_, rfl⟩

/-- An instruction boundary ends in a next state, whichever cause it takes (R112). -/
theorem State.turn_next (s : State) (o : SlotId) : ∃ t, s.turn o = .next t := by
  unfold State.turn
  dsimp only
  split
  · split <;> exact exec_next _ _
  · exact s.run_next o

/-- Every candidate of a core acts into a next state. -/
theorem State.candidates_next (s : State) (c : CoreId) : ∀ k ∈ s.candidates c, ∃ t, k.res = .next t := by
  intro k hk
  obtain ⟨i, -, rfl⟩ := List.mem_map.mp hk
  exact s.turn_next (slotAt c i)

/-- The oldest candidate is one of the candidates. -/
theorem oldest_mem {l : List Candidate} {k : Candidate} (h : oldest l = some k) : k ∈ l := by
  refine List.foldlRecOn (motive := fun b => ∀ m, b = some m → m ∈ l) l _ (by simp) ?_ k h
  intro b hb a ha m hm
  split at hm
  · cases hm; exact ha
  · split at hm
    · cases hm; exact ha
    · exact hb m hm

/-- The first candidate after a slot is one of the candidates. -/
theorem afterSlot_mem {l : List Candidate} {r : SlotNo} {k : Candidate} (h : afterSlot l r = some k) : k ∈ l := by
  unfold afterSlot at h
  split at h
  · next hf => cases h; exact List.mem_of_find?_eq_some hf
  · exact List.mem_of_head? h

/-- The candidate picked is one of the candidates (R330). -/
theorem pick_mem {e : List Candidate} {rr : Vector (BitVec 4) 5} {k : Candidate} {b : Bool} (h : pick e rr = some (k, b)) : k ∈ e := by
  unfold pick at h
  split at h
  · next hk => cases h; exact List.mem_of_mem_filter (oldest_mem hk)
  · obtain ⟨m, hm, he⟩ := Option.map_eq_some_iff.mp h
    cases he
    exact List.mem_of_mem_filter (afterSlot_mem hm)

/-- A cycle of candidates that all act into next states ends in a next state (R330). -/
theorem State.cycleOf_next (s : State) (c : CoreId) {all : List Candidate} (h : ∀ k ∈ all, ∃ t, k.res = .next t) {r : Res}
    (hr : s.cycleOf c all = some r) : ∃ t, r = .next t := by
  unfold State.cycleOf at hr
  dsimp only at hr
  split at hr
  · next k inTurn hk =>
    obtain ⟨t, ht⟩ := h k (List.mem_of_mem_filter (pick_mem hk))
    rw [ht] at hr
    exact ⟨_, (Option.some.inj hr).symm⟩
  · split at hr
    · exact ⟨_, (Option.some.inj hr).symm⟩
    · cases hr

/-- A cycle of a core ends in a next state (R330). -/
theorem State.cycle_next (s : State) (c : CoreId) {r : Res} (hr : s.cycle c = some r) : ∃ t, r = .next t :=
  s.cycleOf_next c (s.candidates_next c) hr

/-- A cycle in which one slot alone may issue ends in a next state (R330). -/
theorem State.issueOf_next (s : State) (o : SlotId) {r : Res} (hr : s.issueOf o = some r) : ∃ t, r = .next t :=
  s.cycleOf_next o.core (fun k hk => s.candidates_next o.core k (List.mem_of_mem_filter hk)) hr

/-- A cycle of the default order ends in a next state. -/
theorem State.coreStep_next (s : State) {r : Res} (hr : s.coreStep = some r) : ∃ t, r = .next t := by
  obtain ⟨c, -, hc⟩ := List.exists_of_findSome?_eq_some hr
  exact State.cycle_next _ c hc

/-- A cycle that may not be made, or else ends in a next state, ends in a next state. -/
theorem getD_next (s : State) {o : Option Res} (h : ∀ r, o = some r → ∃ t, r = .next t) : ∃ t, o.getD (.next s) = .next t := by
  cases o with
  | none => exact ⟨s, rfl⟩
  | some r => exact h r rfl

/-- Every move of the agenda ends in a next state. -/
theorem State.move_next (s : State) (m : Move) : ∃ t, s.move m = .next t := by
  cases m with
  | cycle c => exact getD_next s fun _ => s.cycle_next c
  | issue o => exact getD_next s fun _ => s.issueOf_next o
  | outside k bs => simp only [State.move]; split <;> exact ⟨_, rfl⟩
  | event e =>
    simp only [State.move]
    split
    · exact exec_next e s
    · exact ⟨s, rfl⟩
  | prefetch | send | land | bitError | lineError | stale | stalePrefetch | dropWalks => exact ⟨_, rfl⟩

/-- The default order ends in a next state. -/
theorem State.default_next (s : State) : ∃ t, s.default = .next t := by
  unfold State.default
  split
  · exact exec_next _ s
  · split
    · next hr => exact s.coreStep_next hr
    · split
      · exact exec_next _ s
      · exact ⟨s, rfl⟩

/-- Every step ends in a next state. -/
theorem step_next (s : State) : ∃ t, step s = .next t := by
  unfold step
  split
  · exact State.move_next _ _
  · exact State.default_next _

/-- A run of any length goes through. -/
theorem safeRun (n : Nat) (s : State) : SafeRun n s := by
  induction n generalizing s with
  | zero => exact ⟨s, rfl⟩
  | succ n ih =>
    obtain ⟨u, hu⟩ := step_next s
    obtain ⟨t, ht⟩ := ih u
    exact ⟨t, u, hu, ht⟩

/-- Settles O6: instructions and events end in next states, so every move of the agenda and the default order do, and so does every
run by induction on its length. -/
theorem neverStops : Obligations.NeverStops := by
  unfold Obligations.NeverStops
  exact ⟨exec_next, step_next, safeRun⟩

/-! ### Fields and masks -/

/-- A field of `k` bits read back as a word is the word under the mask of its low `k` bits. -/
theorem setWidth_setWidth_eq_and (k : Nat) (w : Word) (hk : k ≤ 64 := by decide) :
    (w.setWidth k).setWidth 64 = w &&& BitVec.ofNat 64 (2 ^ k - 1) := by
  have hle : 2 ^ k ≤ 2 ^ 64 := Nat.pow_le_pow_right (by decide) hk
  have hpos : 0 < 2 ^ k := Nat.two_pow_pos k
  apply BitVec.eq_of_toNat_eq
  rw [BitVec.toNat_and, BitVec.toNat_ofNat, Nat.mod_eq_of_lt (by omega : 2 ^ k - 1 < 2 ^ 64), Nat.and_two_pow_sub_one_eq_mod,
    BitVec.toNat_setWidth, BitVec.toNat_setWidth]
  exact Nat.mod_eq_of_lt ((Nat.mod_lt _ hpos).trans_le hle)

/-- A flag of bit 0 read back as a word is the word under the mask of bit 0. -/
theorem ite_getLsbD_zero_eq_and (w : Word) : (if w.getLsbD 0 then 1 else 0 : Word) = w &&& 1 := by
  apply BitVec.eq_of_toNat_eq
  rw [BitVec.toNat_and, BitVec.getLsbD, Nat.testBit_zero]
  rcases Nat.mod_two_eq_zero_or_one w.toNat with h | h <;> simp [Nat.and_one_is_mod, h]

/-- A register of 64 bits holds the whole word. -/
theorem eq_and_full (w : Word) : w = w &&& 0xFFFF_FFFF_FFFF_FFFF := (BitVec.and_allOnes (x := w)).symm

/-- A field above another, as the number of the two appended. -/
theorem mul_two_pow_add_toNat {m n : Nat} (x : BitVec m) (y : BitVec n) : x.toNat * 2 ^ n + y.toNat = (x ++ y).toNat := by
  rw [BitVec.toNat_append, ← Nat.shiftLeft_add_eq_or_of_lt y.isLt, Nat.shiftLeft_eq]

/-- CR.AQCTL as its fields from the top: ESZ, the depth and the base (R32). -/
theorem Core.aqctl_eq_append (c : Core) : c.aqctl = 6#16 ++ (c.aqDepth ++ (0#12 ++ c.aqBase)) := by
  apply BitVec.eq_of_toNat_eq
  simp only [← mul_two_pow_add_toNat, Core.aqctl, BitVec.toNat_ofNat]
  omega

/-- CR.IBCTL as its fields from the top: the capacity and the base (R28). -/
theorem Core.ibctl_eq_append (c : Core) : c.ibctl = 0#32 ++ (c.ibCap ++ (0#4 ++ c.ibBase)) := by
  apply BitVec.eq_of_toNat_eq
  simp only [← mul_two_pow_add_toNat, Core.ibctl, BitVec.toNat_ofNat]
  omega

/-- CR.AQCTL after a write: ESZ still reads 6 (R32). -/
theorem Core.aqctl_crWrite (c : Core) (w : Word) :
    (c.crWrite 0x045 w).aqctl = (w &&& 0x0000_FFFF_000F_FFFF) ||| 0x0006_0000_0000_0000 := by
  have hd : (c.crWrite 0x045 w).aqDepth = w.extractLsb' 32 16 := by
    apply BitVec.eq_of_toNat_eq
    simp [Core.crWrite, bits, BitVec.extractLsb'_toNat, Nat.shiftRight_eq_div_pow]
  have hb : (c.crWrite 0x045 w).aqBase = w.setWidth 20 := rfl
  rw [Core.aqctl_eq_append, hd, hb]
  ext i hi
  simp only [BitVec.getElem_append, BitVec.getElem_or, BitVec.getElem_and]
  interval_cases i <;> simp

/-- CR.IBCTL after a write (R28). -/
theorem Core.ibctl_crWrite (c : Core) (w : Word) : (c.crWrite 0x049 w).ibctl = w &&& 0xFF0F_FFFF := by
  have hc : (c.crWrite 0x049 w).ibCap = w.extractLsb' 24 8 := by
    apply BitVec.eq_of_toNat_eq
    simp [Core.crWrite, bits, BitVec.extractLsb'_toNat, Nat.shiftRight_eq_div_pow]
  have hb : (c.crWrite 0x049 w).ibBase = w.setWidth 20 := rfl
  rw [Core.ibctl_eq_append, hc, hb]
  ext i hi
  simp only [BitVec.getElem_append, BitVec.getElem_and]
  interval_cases i <;> simp

/-! ### Which registers the runtime may write (R28) -/

/-- A number in none of the catalogue's ranges is not listed for user mode. -/
theorem crUser_eq_none {n : Nat} (h : (0x011 < n ∧ n < 0x040) ∨ (0x04C < n ∧ n < 0x050) ∨ (0x057 < n ∧ n < 0x060) ∨
    (0x08B < n ∧ n < 0x090) ∨ 0x0CF < n) : crUser n = .none := by
  unfold crUser
  rcases h with h | h | h | h | h <;> simp (disch := omega) only [if_neg, if_pos]

/-- The ranges of the registers that the runtime may write. -/
theorem range_of_crSup_eq_rw {n : Nat} (h : crSup n = .rw) :
    (0x002 ≤ n ∧ n ≤ 0x011) ∨ (0x041 ≤ n ∧ n ≤ 0x04C) ∨ (0x050 ≤ n ∧ n ≤ 0x057) ∨ (0x060 ≤ n ∧ n ≤ 0x08B) ∨
      (0x090 ≤ n ∧ n ≤ 0x0CF) ∨ (0x200 ≤ n ∧ n ≤ 0x208) := by
  unfold crSup at h
  simp only [Bool.and_eq_true, decide_eq_true_eq] at h
  split_ifs at h with h₁ h₂ h₃ h₄ hu
  · omega
  · omega
  · have := mt crUser_eq_none hu
    omega

/-- Whether a register's number is one of a context's own registers; the others are its core's (R28). -/
def crPerContext (n : Nat) : Bool := n < 0x040 || (0x200 ≤ n && n ≤ 0x203)

/-- The numbers of a context's registers. -/
theorem crPerContext_iff (n : Nat) : crPerContext n = true ↔ n < 0x040 ∨ (0x200 ≤ n ∧ n ≤ 0x203) := by simp [crPerContext]

/-- A write of a context's register changes the acting slot. -/
theorem State.crWrite_perContext (s : State) {n : Nat} (w : Word) (h : crPerContext n = true) :
    s.crWrite n w = s.modSlot (·.crWrite n w) := if_pos h

/-- A write of another register changes the acting core. -/
theorem State.crWrite_perCore (s : State) {n : Nat} (w : Word) (h : ¬crPerContext n = true) :
    s.crWrite n w = s.modCore (·.crWrite n w) := if_neg h

/-- A read of a context's register. -/
theorem State.crRead_perContext (s : State) {n : Nat} (h : crPerContext n = true) : s.crRead n = s.crSlot n := if_pos h

/-- The core's registers that the runtime may write, but for CR.MMPROG (R174) and the cycle counts CR.SLICE and CR.WAITBUD (log 4): the
tables, then the rest. -/
def crCoreWritable (n : Nat) : Prop :=
  ((0x060 ≤ n ∧ n ≤ 0x08B) ∨ (0x090 ≤ n ∧ n ≤ 0x0CF)) ∨
    (0x041 ≤ n ∧ n ≤ 0x047) ∨ (0x049 ≤ n ∧ n ≤ 0x04C) ∨ (0x050 ≤ n ∧ n ≤ 0x057) ∨ (0x204 ≤ n ∧ n ≤ 0x206)

/-! ### A context's registers -/

/-- A write of a context's register leaves the fields that CR.STAT shows (R30). -/
theorem Slot.stat_crWrite (l : Slot) (n : Nat) (w : Word) : (l.crWrite n w).stat = l.stat := by
  unfold Slot.crWrite
  split <;> rfl

/-- A context's register reads what the bits that it holds received. -/
theorem State.crSlot_modSlot_same (s : State) {n : Nat} (w : Word) (h : (0x002 ≤ n ∧ n ≤ 0x011) ∨ (0x200 ≤ n ∧ n ≤ 0x203)) :
    (s.modSlot (·.crWrite n w)).crSlot n = crAfterWrite n (s.crSlot n) w := by
  unfold State.crSlot
  rw [State.slot_modSlot]
  have hw : n = 0x002 ∨ n = 0x003 ∨ (n = 0x006 ∨ n = 0x00A) ∨ (n = 0x008 ∨ n = 0x010 ∨ n = 0x011 ∨ n = 0x201) ∨
      (n = 0x004 ∨ n = 0x005 ∨ n = 0x00F ∨ n = 0x200) ∨ n = 0x009 ∨ (n = 0x00B ∨ n = 0x00E) ∨
      (n = 0x007 ∨ n = 0x00C ∨ n = 0x00D ∨ n = 0x202 ∨ n = 0x203) := by omega
  rcases hw with rfl | rfl | h8 | h16 | h20 | rfl | hflag | h64
  · exact Slot.stat_crWrite s.slot 0x002 w
  · exact setWidth_setWidth_eq_and 2 w
  · rcases h8 with rfl | rfl <;> exact setWidth_setWidth_eq_and 8 w
  · rcases h16 with rfl | rfl | rfl | rfl <;> exact setWidth_setWidth_eq_and 16 w
  · rcases h20 with rfl | rfl | rfl | rfl <;> exact setWidth_setWidth_eq_and 20 w
  · exact setWidth_setWidth_eq_and 32 w
  · rcases hflag with rfl | rfl <;> exact ite_getLsbD_zero_eq_and w
  · rcases h64 with rfl | rfl | rfl | rfl | rfl <;> exact eq_and_full w

/-- The other registers of the context read as before: each has a field of its own. -/
theorem State.crSlot_modSlot_other (s : State) {n m : Nat} (w : Word) (h : m ≠ n) :
    (s.modSlot (·.crWrite n w)).crSlot m = s.crSlot m := by
  unfold State.crSlot
  rw [State.slot_modSlot]
  unfold Slot.crWrite
  -- Either the two numbers are one, against `h`, or the field that is read is not the one that was written.
  split <;> split <;> first | contradiction | rfl

/-- A changed slot leaves what the core's own registers read. -/
theorem State.crCore_modSlot (s : State) (f : Slot → Slot) (n : Nat) : (s.modSlot f).crCore n = s.crCore n := by
  unfold State.crCore
  rw [State.core_modSlot]
  rfl

/-- A changed slot leaves what every register of its core reads. -/
theorem State.crRead_modSlot_perCore (s : State) (f : Slot → Slot) {n : Nat} (h : ¬crPerContext n = true) :
    (s.modSlot f).crRead n = s.crRead n := by
  unfold State.crRead
  rw [State.crCore_modSlot, State.core_modSlot]
  exact (if_neg h).trans (if_neg h).symm

/-! ### A core's registers -/

/-- What a write of a core's register makes of each table of registers; the core's slots stay. -/
theorem Core.crWrite_tables (c : Core) {n : Nat} (w : Word) (h : crCoreWritable n) :
    (c.crWrite n w).slots = c.slots ∧
    (c.crWrite n w).shp =
      (if 0x060 ≤ n && n < 0x070 then c.shp.setIfInBounds (n - 0x060) (shpWrite (c.shp.getD (n - 0x060) 0) w) else c.shp) ∧
    (c.crWrite n w).xcnt = (if 0x070 ≤ n && n < 0x080 then c.xcnt.setIfInBounds (n - 0x070) (w.setWidth 32) else c.xcnt) ∧
    (c.crWrite n w).monsel = (if 0x080 ≤ n && n < 0x084 then c.monsel.setIfInBounds (n - 0x080) (w &&& 0xF0F) else c.monsel) ∧
    (c.crWrite n w).monmin = (if 0x084 ≤ n && n < 0x088 then c.monmin.setIfInBounds (n - 0x084) w else c.monmin) ∧
    (c.crWrite n w).monmax = (if 0x088 ≤ n && n < 0x08C then c.monmax.setIfInBounds (n - 0x088) w else c.monmax) ∧
    (c.crWrite n w).mbin = (if 0x090 ≤ n && n < 0x0D0 then c.mbin.setIfInBounds (n - 0x090) (w.setWidth 32) else c.mbin) := by
  rcases h with (⟨h₁, h₂⟩ | ⟨h₁, h₂⟩) | ⟨h₁, h₂⟩ | ⟨h₁, h₂⟩ | ⟨h₁, h₂⟩ | ⟨h₁, h₂⟩ <;> interval_cases n <;>
    exact ⟨rfl, rfl, rfl, rfl, rfl, rfl, rfl⟩

/-- An entry of a table just set reads back. -/
theorem getD_setIfInBounds_same {α : Type} {len i : Nat} (v : Vector α len) (x d : α) (h : i < len) :
    (v.setIfInBounds i x).getD i d = x := by
  simp [Vector.getD, h]

/-- Entry `m` of a table of the registers from `base` to below `top`, after a write of another register. -/
theorem getD_ite_set_other {α : Type} {len : Nat} (v : Vector α len) (x d : α) {base top n m : Nat}
    (hm : (base ≤ m && m < top) = true) (h : m ≠ n) :
    (if base ≤ n && n < top then v.setIfInBounds (n - base) x else v).getD (m - base) d = v.getD (m - base) d := by
  simp only [Bool.and_eq_true, decide_eq_true_eq] at hm ⊢
  split
  · next hn =>
    have hi : n - base ≠ m - base := by omega
    simp [Vector.getD, Array.getElem?_setIfInBounds_ne, hi]
  · rfl

/-- What a shadow pair's register reads after a write: SEL stays (R31). -/
theorem crAfterWrite_shp {n : Nat} (old w : Word) (h : 0x060 ≤ n ∧ n < 0x070) : crAfterWrite n old w = shpWrite old w := by
  obtain ⟨h₁, h₂⟩ := h
  interval_cases n <;> rfl

/-- What a counter or a bin of 32 bits reads after a write. -/
theorem crAfterWrite_counter {n : Nat} (old w : Word) (h : (0x070 ≤ n ∧ n < 0x080) ∨ (0x090 ≤ n ∧ n < 0x0D0)) :
    crAfterWrite n old w = (w.setWidth 32).setWidth 64 := by
  rw [setWidth_setWidth_eq_and 32]
  rcases h with ⟨h₁, h₂⟩ | ⟨h₁, h₂⟩ <;> interval_cases n <;> rfl

/-- What a monitor's selection reads after a write (R393). -/
theorem crAfterWrite_monsel {n : Nat} (old w : Word) (h : 0x080 ≤ n ∧ n < 0x084) : crAfterWrite n old w = w &&& 0xF0F := by
  obtain ⟨h₁, h₂⟩ := h
  interval_cases n <;> rfl

/-- What a monitor's least or greatest sample reads after a write. -/
theorem crAfterWrite_extreme {n : Nat} (old w : Word) (h : 0x084 ≤ n ∧ n < 0x08C) : crAfterWrite n old w = w := by
  obtain ⟨h₁, h₂⟩ := h
  refine Eq.trans ?_ (eq_and_full w).symm
  interval_cases n <;> rfl

/-- A core's register outside its tables reads what the bits that it holds received. -/
theorem State.crCore_modCore_same (s : State) {n : Nat} (w : Word)
    (h : (0x041 ≤ n ∧ n ≤ 0x047) ∨ (0x049 ≤ n ∧ n ≤ 0x04C) ∨ (0x050 ≤ n ∧ n ≤ 0x057) ∨ (0x204 ≤ n ∧ n ≤ 0x206)) :
    (s.modCore (·.crWrite n w)).crCore n = crAfterWrite n (s.crCore n) w := by
  unfold State.crCore
  rw [State.core_modCore]
  have hw : n = 0x04A ∨ n = 0x041 ∨
      (n = 0x043 ∨ n = 0x044 ∨ n = 0x04B ∨ n = 0x04C ∨ n = 0x053 ∨ n = 0x054 ∨ n = 0x055 ∨ n = 0x204) ∨
      (n = 0x042 ∨ n = 0x051) ∨ n = 0x057 ∨ n = 0x045 ∨ n = 0x049 ∨
      (n = 0x046 ∨ n = 0x047 ∨ n = 0x050 ∨ n = 0x052 ∨ n = 0x056 ∨ n = 0x205 ∨ n = 0x206) := by omega
  rcases hw with rfl | rfl | h20 | h32 | rfl | rfl | rfl | h64
  · exact setWidth_setWidth_eq_and 4 w
  · exact setWidth_setWidth_eq_and 12 w
  · rcases h20 with rfl | rfl | rfl | rfl | rfl | rfl | rfl | rfl <;> exact setWidth_setWidth_eq_and 20 w
  · rcases h32 with rfl | rfl <;> exact setWidth_setWidth_eq_and 32 w
  · exact ite_getLsbD_zero_eq_and w
  · exact s.core.aqctl_crWrite w
  · exact s.core.ibctl_crWrite w
  · rcases h64 with rfl | rfl | rfl | rfl | rfl | rfl | rfl <;> exact eq_and_full w

/-- A write of a register of a table changes the tables alone. -/
theorem Core.crWrite_of_table (c : Core) {n : Nat} (w : Word) (h : (0x060 ≤ n ∧ n ≤ 0x08B) ∨ (0x090 ≤ n ∧ n ≤ 0x0CF)) :
    ∃ sh xc ms mi ma mb, c.crWrite n w =
      { c with shp := sh, xcnt := xc, monsel := ms, monmin := mi, monmax := ma, mbin := mb } := by
  rcases h with ⟨h₁, h₂⟩ | ⟨h₁, h₂⟩ <;> interval_cases n <;> exact ⟨_, _, _, _, _, _, rfl⟩

/-- The other registers outside the tables read as before: each has a field of its own. -/
theorem State.crCore_modCore_other (s : State) {n m : Nat} (w : Word) (hn : crCoreWritable n) (h : m ≠ n) :
    (s.modCore (·.crWrite n w)).crCore m = s.crCore m := by
  unfold State.crCore
  rw [State.core_modCore]
  rcases hn with ht | hf
  · obtain ⟨_, _, _, _, _, _, e⟩ := s.core.crWrite_of_table w ht
    rw [e]
    rfl
  · have h48 : n ≠ 0x048 := by omega
    unfold Core.crWrite
    iterate 6 rw [if_neg (by simp; omega)]
    -- As for a context's registers: one number, against `h` or `h48`, or two fields.
    split <;> split <;> first | contradiction | rfl

/-- A write of a core's register leaves what every register of the context reads. -/
theorem State.crSlot_modCore (s : State) {n : Nat} (m : Nat) (w : Word) (hn : crCoreWritable n) :
    (s.modCore (·.crWrite n w)).crSlot m = s.crSlot m := by
  unfold State.crSlot
  rw [State.slot_modCore s _ (s.core.crWrite_tables w hn).1]
  rfl

/-- Every register but the one of the core that was written reads as before. -/
theorem State.crRead_modCore_other (s : State) {n m : Nat} (w : Word) (hn : crCoreWritable n) (h : m ≠ n) :
    (s.modCore (·.crWrite n w)).crRead m = s.crRead m := by
  obtain ⟨-, hshp, hxcnt, hsel, hmin, hmax, hbin⟩ := s.core.crWrite_tables w hn
  unfold State.crRead
  rw [State.core_modCore, State.crSlot_modCore s m w hn, State.crCore_modCore_other s w hn h, hshp, hxcnt, hsel, hmin, hmax, hbin]
  refine ite_congr rfl (fun _ => rfl) fun _ => ite_congr rfl (fun hm => getD_ite_set_other _ _ _ hm h) fun _ =>
    ite_congr rfl (fun hm => congrArg _ (getD_ite_set_other _ _ _ hm h)) fun _ =>
    ite_congr rfl (fun hm => getD_ite_set_other _ _ _ hm h) fun _ =>
    ite_congr rfl (fun hm => getD_ite_set_other _ _ _ hm h) fun _ =>
    ite_congr rfl (fun hm => getD_ite_set_other _ _ _ hm h) fun _ =>
    ite_congr rfl (fun hm => congrArg _ (getD_ite_set_other _ _ _ hm h)) fun _ => rfl

/-- A core's register reads what the bits that it holds received. -/
theorem State.crRead_modCore_same (s : State) {n : Nat} (w : Word) (hn : crCoreWritable n) :
    (s.modCore (·.crWrite n w)).crRead n = crAfterWrite n (s.crRead n) w := by
  obtain ⟨-, hshp, hxcnt, hsel, hmin, hmax, hbin⟩ := s.core.crWrite_tables w hn
  unfold State.crRead
  rw [State.core_modCore, hshp, hxcnt, hsel, hmin, hmax, hbin]
  simp only [Bool.or_eq_true, Bool.and_eq_true, decide_eq_true_eq]
  unfold crCoreWritable at hn
  split
  · omega
  split
  · next h => rw [getD_setIfInBounds_same s.core.shp _ _ (by omega), crAfterWrite_shp _ _ h]
  split
  · next h => rw [getD_setIfInBounds_same s.core.xcnt _ _ (by omega), crAfterWrite_counter _ _ (.inl h)]
  split
  · next h => rw [getD_setIfInBounds_same s.core.monsel _ _ (by omega), crAfterWrite_monsel _ _ h]
  split
  · next h => rw [getD_setIfInBounds_same s.core.monmin _ _ (by omega), crAfterWrite_extreme _ _ (by omega)]
  split
  · next h => rw [getD_setIfInBounds_same s.core.monmax _ _ (by omega), crAfterWrite_extreme _ _ (by omega)]
  split
  · next h => rw [getD_setIfInBounds_same s.core.mbin _ _ (by omega), crAfterWrite_counter _ _ (.inr h)]
  · next => exact s.crCore_modCore_same w (by omega)

/-! ### Every register -/

/-- What the runtime may write, but for the registers excepted, is a context's register or a core's. -/
theorem writable_of_crSup {n : Nat} (h : crSup n = .rw) (h₁ : n ≠ 0x048) (h₂ : n ≠ 0x207) (h₃ : n ≠ 0x208) :
    (crPerContext n = true ∧ ((0x002 ≤ n ∧ n ≤ 0x011) ∨ (0x200 ≤ n ∧ n ≤ 0x203))) ∨
      (¬crPerContext n = true ∧ crCoreWritable n) := by
  have hr := range_of_crSup_eq_rw h
  rw [crPerContext_iff]
  unfold crCoreWritable
  omega

/-- A write of a context's register leaves the registers that instructions name, their full bits, the pc and the mode. -/
theorem Slot.crWrite_frame (l : Slot) (n : Nat) (w : Word) :
    (l.crWrite n w).x = l.x ∧ (l.crWrite n w).v = l.v ∧ (l.crWrite n w).p = l.p ∧ (l.crWrite n w).m = l.m ∧
    (l.crWrite n w).xfull = l.xfull ∧ (l.crWrite n w).vfull = l.vfull ∧ (l.crWrite n w).pc = l.pc ∧
    (l.crWrite n w).mode = l.mode := by
  unfold Slot.crWrite
  split <;> exact ⟨rfl, rfl, rfl, rfl, rfl, rfl, rfl, rfl⟩

/-- A write of a context's register, and what every register reads after it. -/
theorem State.crRead_modSlot (s : State) {n : Nat} (w : Word) (hc : crPerContext n = true)
    (hn : (0x002 ≤ n ∧ n ≤ 0x011) ∨ (0x200 ≤ n ∧ n ≤ 0x203)) :
    (s.modSlot (·.crWrite n w)).crRead n = crAfterWrite n (s.crRead n) w ∧
      ∀ m, m ≠ n → (s.modSlot (·.crWrite n w)).crRead m = s.crRead m := by
  refine ⟨?_, fun m hm => ?_⟩
  · rw [State.crRead_perContext _ hc, State.crRead_perContext _ hc]
    exact s.crSlot_modSlot_same w hn
  · by_cases hmc : crPerContext m = true
    · rw [State.crRead_perContext _ hmc, State.crRead_perContext _ hmc]
      exact s.crSlot_modSlot_other w hm
    · exact s.crRead_modSlot_perCore _ hmc

/-- Settles O20: a register of a context has a field of its slot, a register of a core an entry of a table or a field of the core. -/
theorem controlRegisterFields : Obligations.ControlRegisterFields := by
  unfold Obligations.ControlRegisterFields
  intro s n w h h₁ h₂ h₃
  dsimp only
  rcases writable_of_crSup h h₁ h₂ h₃ with ⟨hc, hn⟩ | ⟨hc, hn⟩
  · obtain ⟨hsame, hother⟩ := s.crRead_modSlot w hc hn
    rw [State.crWrite_perContext s w hc, State.slot_modSlot]
    exact ⟨hsame, hother, rfl, s.slot.crWrite_frame n w⟩
  · rw [State.crWrite_perCore s w hc, State.slot_modCore s _ (s.core.crWrite_tables w hn).1]
    exact ⟨s.crRead_modCore_same w hn, fun m hm => s.crRead_modCore_other w hn hm, rfl, rfl, rfl, rfl, rfl, rfl, rfl, rfl, rfl⟩

end Sys2Proof.Machine

/-! What the state of a core holds and how a context takes its operands: fetching (O5), the issue rule (O13), the frame of a scalar result
(O17), the module after reset (O7), the step that issues a slot (O4), stream operands (O30), the completion
of returning operations (O29), and an `mcast` over memory out of order (O52). -/

namespace Sys2Proof.Machine

open Sys2Proof

/-! ### Fetching (R17, R18, R73) -/

/-- A range without poison has none in a part of it (R307). -/
theorem State.poisonAt_none_of_subrange {s : State} {k n j m : Nat} (h : s.poisonAt k n = none) (hj : k ≤ j) (hm : j + m ≤ k + n) :
    s.poisonAt j m = none := by
  simp only [State.poisonAt, List.find?_eq_none, Bool.and_eq_true, decide_eq_true_eq] at h ⊢
  exact fun g hg hgr => h g hg (by omega)

/-- A fetch at a code offset, of a word that is not prefetched and not poisoned, reads own local memory (R17, R18). -/
theorem fetchAt_ok {s : State} {pc : Nat} (hpre : s.slot.prefetched = []) (hpc : codeOk pc = true)
    (hp : s.poisonAt (localKey s.cur.core pc) 4 = none) : fetchAt s pc = .ok (s.rd32 (localKey s.cur.core pc)) := by
  simp [fetchAt, hpc, hpre, tabGet?, hp]

/-- A fetch at what is no code offset is FETCH (R18). -/
theorem fetchAt_fetch {s : State} {pc : Nat} (hpc : codeOk pc = false) :
    fetchAt s pc = .error (.sup FKind.fetch.scause (BitVec.ofNat 64 pc)) := by
  simp [fetchAt, hpc, trapFault]

/-- Settles O5: the fetch of the first word, and of the second where the first asks for it, each by the case of its offset. -/
theorem fetchReadsMemory : Obligations.FetchReadsMemory := by
  unfold Obligations.FetchReadsMemory
  intro s
  refine ⟨fun hpre hal hle hp => ?_, fun hbad => ?_⟩
  · have hkey : localKey s.cur.core (s.slot.pc.toNat + 4) = localKey s.cur.core s.slot.pc.toNat + 4 := rfl
    have first := fetchAt_ok hpre ((codeOk_iff _).mpr ⟨hal, by omega⟩)
      (State.poisonAt_none_of_subrange hp (Nat.le_refl _) (by omega))
    have second := fetchAt_ok (pc := s.slot.pc.toNat + 4) hpre ((codeOk_iff _).mpr ⟨by omega, by omega⟩)
      (State.poisonAt_none_of_subrange hp (by omega) (by omega))
    unfold fetchWords
    rw [first]
    by_cases htwo : twoWord (s.rd32 (localKey s.cur.core s.slot.pc.toNat)) = true
    · simp [bind, Except.bind, htwo, second]
    · simp [bind, Except.bind, htwo]
  · have hcode : codeOk s.slot.pc.toNat = false := by
      rw [Bool.eq_false_iff, ne_eq, codeOk_iff]
      omega
    have hval : BitVec.ofNat 64 s.slot.pc.toNat = s.slot.pc.setWidth 64 := BitVec.ofNat_toNat 64 _
    unfold fetchWords
    rw [fetchAt_fetch hcode, hval]
    rfl

/-! ### The frame of a scalar result (R19, R98, R122) -/

/-- What a core's slots are does not depend on its other fields. -/
theorem Core.getSlot_congr {c d : Core} (h : c.slots = d.slots) (i : SlotNo) : c.getSlot i = d.getSlot i := by
  simp only [Core.getSlot, h]

/-- A slot whose instruction counts as issued (R122). -/
@[simp] theorem State.getSlot_noteIssuedAt (s : State) (o : SlotId) :
    (s.noteIssuedAt o).getSlot o = { s.getSlot o with issued := (s.getSlot o).issued + 1 } := by
  rw [State.noteIssuedAt, State.getSlot, State.getCore_onCore]
  exact Core.getSlot_onSlot (s.getCore o.core) o.slot fun l => { l with issued := l.issued + 1 }

/-- Counting an instruction leaves every other slot (R122). -/
theorem State.getSlot_noteIssuedAt_other (s : State) {o q : SlotId} (h : q ≠ o) : (s.noteIssuedAt o).getSlot q = s.getSlot q := by
  obtain ⟨c, i⟩ := o
  obtain ⟨d, j⟩ := q
  by_cases hc : d = c
  · subst hc
    have hi : j ≠ i := fun e => h (e ▸ rfl)
    rw [State.noteIssuedAt, State.getSlot, State.getCore_onCore]
    exact Core.getSlot_onSlot_other (s.getCore d) (fun l => { l with issued := l.issued + 1 }) hi
  · rw [State.getSlot, State.noteIssuedAt, State.getCore_onCore_other _ _ hc]
    rfl

/-- The acting slot after a scalar result. -/
theorem State.slot_wroteX (s : State) (d : XReg) (v : Word) (n : Off) :
    (s.wroteX d v n).slot = { s.slot.setX d v with pc := s.slot.pc + n, issued := s.slot.issued + 1 } := by
  have hcount : (s.wroteX d v n).slot = { ((s.putX d v).advance n).slot with issued := ((s.putX d v).advance n).slot.issued + 1 } :=
    State.getSlot_noteIssuedAt _ _
  rw [hcount, State.advance, State.slot_modSlot, State.putX, State.slot_modSlot]
  simp only [Slot.setX_pc, Slot.setX_issued]

/-- A scalar result leaves a core but for its slots and its count of issued instructions. -/
theorem State.getCore_wroteX_frame (s : State) (d : XReg) (v : Word) (n : Off) (c : CoreId) :
    { (s.wroteX d v n).getCore c with slots := (s.getCore c).slots, issued := (s.getCore c).issued } = s.getCore c := by
  by_cases hc : c = s.cur.core
  · subst hc
    simp only [State.wroteX, State.noteIssued, State.noteIssuedAt, State.advance, State.putX, State.modSlot, State.onSlot, State.onCore_cur,
      State.getCore_onCore]
    rfl
  · rw [State.getCore_wroteX s d v n hc]

/-- Settles O17: the acting slot by `State.slot_wroteX`, its core by `State.getCore_wroteX_frame`, and nothing else is written. -/
theorem registerFrame : Obligations.RegisterFrame := by
  unfold Obligations.RegisterFrame
  intro s d v len
  have hslot := s.slot_wroteX d v len
  have hothers : ∀ q, q ≠ s.cur → (s.wroteX d v len).getSlot q = s.getSlot q := fun q hq =>
    (State.getSlot_noteIssuedAt_other _ hq).trans (s.getSlot_wroteX d v len hq)
  have hissued : (s.wroteX d v len).core.issued = s.core.issued + 1 := by
    simp only [State.core, State.wroteX, State.noteIssued, State.noteIssuedAt, State.advance, State.putX, State.modSlot, State.onSlot,
      State.onCore_cur, State.getCore_onCore]
    rfl
  refine ⟨?_, ?_, hslot, ?_, ?_, ?_, ?_, ?_, hothers, s.getCore_wroteX_frame d v len, hissued, rfl, fun k => rfl⟩
  · exact (congrArg (·.getX d) hslot).trans (s.slot.getX_setX d v)
  · exact fun n hn => (congrArg (·.getX n) hslot).trans (s.slot.getX_setX_other v hn)
  all_goals simp [hslot]

/-- A key's entry set twice holds the second value. -/
@[simp] theorem tabPut_tabPut {κ α : Type} [DecidableEq κ] (t : List (κ × α)) (q : κ) (v w : α) :
    tabPut (tabPut t q v) q w = tabPut t q w := by
  induction t with
  | nil => simp [tabPut]
  | cons e t ih =>
    obtain ⟨k, u⟩ := e
    by_cases h : k = q <;> simp [tabPut, h, ih]

/-! ### The issue rule (R21, R23, R25) -/

/-- The sources pass exactly when none is empty (R21). -/
theorem checkSrcs_ok_iff (s : State) (l : List (Reg × Bool)) : checkSrcs s l = .ok () ↔ ∀ r ∈ l, s.slot.srcEmpty r.1 = false := by
  induction l with
  | nil => simp [checkSrcs]
  | cons r l ih =>
    obtain ⟨r, w⟩ := r
    cases h : s.slot.srcEmpty r with
    | false => rw [checkSrcs_full s r w l h, ih]; simp [h]
    | true =>
      rw [checkSrcs_empty s r w l h]
      cases w <;> simp [h, waitReg, waitFor]

/-- Whether a destination can take what an instruction writes: it is full, or an output stream with room (R21, R25; log 16). -/
def State.dstReady (s : State) (d : Reg) : Prop :=
  match d with
  | .x n => s.slot.xIsFull n = true
  | .v n =>
    match s.slot.streamOf n with
    | some i => s.slot.sd.getLsbD i.val = false ∨ s.pushesOut s.cur i < pushLimit
    | none => s.slot.vIsFull n = true

/-- The destinations pass exactly when each can take what is written (R21). -/
theorem checkDsts_ok_iff (s : State) (l : List Reg) : checkDsts s l = .ok () ↔ ∀ d ∈ l, s.dstReady d := by
  induction l with
  | nil => simp [checkDsts]
  | cons d l ih =>
    rw [List.forall_mem_cons, ← ih]
    cases d with
    | x n => cases h : s.slot.xIsFull n <;> simp [checkDsts, State.dstReady, h, waitReg, waitFor]
    | v n =>
      cases hs : s.slot.streamOf n with
      | none => cases h : s.slot.vIsFull n <;> simp [checkDsts, State.dstReady, hs, h, waitReg, waitFor]
      | some i =>
        have hheld : (s.slot.sd.getLsbD i.val && decide (pushLimit ≤ s.pushesOut s.cur i)) = true ↔
            ¬(s.slot.sd.getLsbD i.val = false ∨ s.pushesOut s.cur i < pushLimit) := by
          rw [Bool.and_eq_true, decide_eq_true_eq, not_or, Bool.not_eq_false, Nat.not_lt]
        simp only [checkDsts, State.dstReady, hs]
        split
        · next h => exact ⟨fun e => (by cases e), fun e => absurd e.1 (hheld.mp h)⟩
        · next h => exact ⟨fun e => ⟨by_contra fun g => h (hheld.mpr g), e⟩, fun e => e.2⟩

/-- The issue rule passes exactly when its sources, its destinations and the directions of its streams do (R21, R25). -/
theorem issueRule_ok_iff (s : State) (srcs : List (Reg × Bool)) (dsts : List Reg) :
    issueRule s srcs dsts = .ok () ↔
      (∀ r ∈ srcs, s.slot.srcEmpty r.1 = false ∧ s.slot.wrongWay false r.1 = false) ∧
        ∀ d ∈ dsts, s.slot.wrongWay true d = false ∧ s.dstReady d := by
  have hdir : (srcs.any (fun r => s.slot.wrongWay false r.1) || dsts.any (s.slot.wrongWay true)) = false ↔
      (∀ r ∈ srcs, s.slot.wrongWay false r.1 = false) ∧ ∀ d ∈ dsts, s.slot.wrongWay true d = false := by
    simp only [Bool.or_eq_false_iff, List.any_eq_false, Bool.not_eq_true]
  have hsplit : issueRule s srcs dsts = .ok () ↔ checkSrcs s srcs = .ok () ∧ checkDsts s dsts = .ok () ∧
      (srcs.any (fun r => s.slot.wrongWay false r.1) || dsts.any (s.slot.wrongWay true)) = false := by
    unfold issueRule
    cases hs : checkSrcs s srcs with
    | error e => simp [bind, Except.bind]
    | ok _ =>
      cases hd : checkDsts s dsts with
      | error e => simp [bind, Except.bind]
      | ok _ =>
        cases hw : srcs.any (fun r => s.slot.wrongWay false r.1) || dsts.any (s.slot.wrongWay true) <;>
          simp [bind, Except.bind, trapIllegal]
  rw [hsplit, checkSrcs_ok_iff, checkDsts_ok_iff, hdir]
  constructor
  · rintro ⟨hs, hd, hsw, hdw⟩
    exact ⟨fun r hr => ⟨hs r hr, hsw r hr⟩, fun d hd' => ⟨hdw d hd', hd d hd'⟩⟩
  · rintro ⟨hs, hd⟩
    exact ⟨fun r hr => (hs r hr).1, fun d hd' => (hd d hd').2, fun r hr => (hs r hr).2, fun d hd' => (hd d hd').1⟩

/-- Sources that are not empty are passed over (R21). -/
theorem checkSrcs_append {s : State} {before : List (Reg × Bool)} (after : List (Reg × Bool))
    (h : ∀ q ∈ before, s.slot.srcEmpty q.1 = false) : checkSrcs s (before ++ after) = checkSrcs s after := by
  induction before with
  | nil => rfl
  | cons q l ih =>
    obtain ⟨q, w⟩ := q
    rw [List.cons_append, checkSrcs_full s q w _ (h (q, w) List.mem_cons_self), ih fun p hp => h p (List.mem_cons_of_mem _ hp)]

/-- The first empty source decides what the issue rule answers (R21, R23). -/
theorem issueRule_empty {s : State} {before : List (Reg × Bool)} {r : Reg} (wait : Bool) (after : List (Reg × Bool)) (dsts : List Reg)
    (hbefore : ∀ q ∈ before, s.slot.srcEmpty q.1 = false) (hr : s.slot.srcEmpty r = true) :
    issueRule s (before ++ (r, wait) :: after) dsts =
      if wait then .error (.user cEMPTY (BitVec.ofNat 64 r.number))
      else .error (.wait s { kind := 4, obj := BitVec.ofNat 64 r.number, ph := 0 }) := by
  unfold issueRule
  rw [checkSrcs_append _ hbefore, checkSrcs_empty s r wait after hr]
  cases wait <;> rfl

/-- A slot set back and then made to wait only waits (R9). -/
theorem State.setWait_undoSlot_self (s : State) (w : WaitRec) : (s.undoSlot s).setWait w = s.setWait w := by
  simp only [State.undoSlot, State.setWait, State.modSlot, State.onSlot, State.onCore, State.putCore, State.slot, State.getSlot, State.getCore,
    tabGet_tabPut_same, tabPut_tabPut, Core.onSlot, Core.getSlot, Option.getD_some, Vector.getElem_set_self, Vector.set_set]

/-- A scalar operation on two registers whose issue rule meets an empty x source traps or waits as that source's wait bit says (R9, R21). -/
theorem aluRR_empty {s : State} {o : R3} (f : Word → Word → Word) {r : XReg} {wait : Bool}
    (h : issueRule s [(.x o.a, o.wa), (.x o.b, o.wb)] [.x o.d] =
      if wait then .error (.user cEMPTY (BitVec.ofNat 64 (Reg.x r).number))
      else .error (.wait s { kind := 4, obj := BitVec.ofNat 64 (Reg.x r).number, ph := 0 })) :
    aluRR o f s = .next (if wait then s.takeUser s.cur cEMPTY (r.setWidth 64) s.slot.pc s.slot.pc
      else s.setWait { kind := 4, obj := r.setWidth 64, ph := 0 }) := by
  have hnum : BitVec.ofNat 64 (Reg.x r).number = r.setWidth 64 := BitVec.ofNat_toNat 64 r
  rw [hnum] at h
  unfold aluRR
  rw [h]
  cases wait with
  | true => rfl
  | false => exact (finish_wait s s _).trans (congrArg Host.Outcome.next (s.setWait_undoSlot_self _))

/-- Settles O13: what passes, what the first empty source does, and the two sources of `add` in slot order. -/
theorem issueRule_obligation : Obligations.IssueRule := by
  unfold Obligations.IssueRule
  refine ⟨fun s srcs dsts => issueRule_ok_iff s srcs dsts, fun s before after r wait dsts hb hr => issueRule_empty wait after dsts hb hr,
    fun s o => ⟨fun ha => ?_, fun ha hb => ?_⟩⟩
  · have hempty : s.slot.srcEmpty (.x o.a) = true := by simp [Slot.srcEmpty, ha]
    exact aluRR_empty (· + ·) (issueRule_empty (before := []) o.wa [(.x o.b, o.wb)] [.x o.d] (by simp) hempty)
  · have hfull : s.slot.srcEmpty (.x o.a) = false := by simp [Slot.srcEmpty, ha]
    have hempty : s.slot.srcEmpty (.x o.b) = true := by simp [Slot.srcEmpty, hb]
    exact aluRR_empty (· + ·) (issueRule_empty (before := [(.x o.a, o.wa)]) o.wb [] [.x o.d] (by simpa using hfull) hempty)

/-! ### The module after reset (R28, R310, R383) -/

/-- Every x register is full after a scrub, and every v register (R28). -/
theorem Slot.reset_xIsFull (n : XReg) : Slot.reset.xIsFull n = true := by
  simp only [Slot.xIsFull, Slot.reset, BitVec.getLsbD_allOnes, Bool.or_eq_true, decide_eq_true_eq]
  exact .inr n.isLt

theorem Slot.reset_vIsFull (n : VReg) : Slot.reset.vIsFull n = true := by
  simp only [Slot.vIsFull, Slot.reset, BitVec.getLsbD_allOnes, decide_eq_true_eq]
  exact n.isLt

/-- The registers read zero after a scrub: x and v, p but for p0, and m (R28; log 2). -/
theorem Slot.reset_getX (n : XReg) : Slot.reset.getX n = 0 := by
  simp [Slot.getX, Slot.reset]

theorem Slot.reset_getV (n : VReg) : Slot.reset.getV n = VVal.zero := by
  simp [Slot.getV, Slot.reset]

theorem Slot.reset_getP (n : PReg) (h : n ≠ 0) : Slot.reset.getP n = 0 := by
  rw [Slot.getP, if_neg h]
  simp [Slot.reset]

theorem Slot.reset_getM (n : Bool) : Slot.reset.getM n = 0 := by
  cases n <;> rfl

/-- Every slot of a core after a scrub is as after a scrub (R28). -/
theorem Core.reset_getSlot (c : CoreId) (i : SlotNo) : (Core.reset c).getSlot i = Slot.reset := by
  simp [Core.getSlot, Core.reset]

/-- Settles O7: no core is listed after reset, so each is as after a scrub. -/
theorem resetState : Obligations.ResetState := by
  unfold Obligations.ResetState
  refine ⟨⟨rfl, rfl⟩, rfl, rfl, rfl, rfl, rfl, rfl, rfl, rfl, fun _ => rfl, fun c => ?_⟩
  have hcore : State.reset.getCore c = Core.reset c := rfl
  simp only [hcore, Core.reset_getSlot]
  refine ⟨rfl, rfl, fun n => ?_, rfl, rfl, rfl, rfl, rfl, rfl, fun i => ?_⟩
  · simp [Core.reset]
  · refine ⟨rfl, rfl, Slot.reset_getX, Slot.reset_xIsFull, Slot.reset_vIsFull, rfl, Slot.reset_getV, Slot.reset_getP, Slot.reset_getM,
      fun n j => ?_⟩
    simp [Core.tile, Core.reset]

/-! ### A step of the module that issues a slot (R73, R330) -/

/-- Marking a write as read changes its readers alone (R253). -/
theorem map_markRead (p : Party) (out : Nat → Past → Bool) (k : Nat) (ws : List Past) (i : Nat) :
    ((markRead p out k ws i).map fun w => { w with readers := [] }) = ws.map fun w => { w with readers := [] } := by
  induction ws generalizing i with
  | nil => rfl
  | cons w ws ih =>
    unfold markRead
    split
    · rw [List.map_cons, ih, List.map_cons]
    · split <;> rfl

/-- A read noted changes the readers of the past writes alone (R253). -/
theorem State.noteReads_past_map (s : State) (p : Party) (out : Nat → Nat → Past → Bool) (ps : List Piece) :
    ((s.noteReads p out ps).past.map fun w => { w with readers := [] }) = s.past.map fun w => { w with readers := [] } := by
  unfold State.noteReads
  generalize s.past = ws
  induction pieceKeys ps generalizing ws with
  | nil => rfl
  | cons k ks ih => exact (ih _).trans (map_markRead p (out k) k ws 0)

/-- What a trigger or an end publishes in a launch: two of its clocks (R214, R261). -/
def State.publishIn (s : State) (done : Bool) (l : Launch) : Launch :=
  if !(l.holds && l.clusters.contains (clusterOf s.cur.core)) then l
  else { l with pub := if s.slot.triggered then l.pub else l.pub.join s.relClock, fin := if done then l.fin.join s.relClock else l.fin }

theorem State.publish_eq (s t : State) (done : Bool) :
    s.publish t done = { t with launcher := { t.launcher with launches := t.launcher.launches.map (s.publishIn done) } } := rfl

theorem State.publishIn_frame (s : State) (done : Bool) (l : Launch) :
    ({ s.publishIn done l with pub := Clock.zero, fin := Clock.zero } : Launch) = { l with pub := Clock.zero, fin := Clock.zero } := by
  unfold State.publishIn
  split <;> rfl

/-- The record of the order of events changes the readers of the past writes, and two clocks of launches (R253, R261; log 60). -/
theorem State.ordered_eq (s t : State) (i : Instr) : ∃ ws ls,
    s.ordered t i = { t with past := ws, launcher := { t.launcher with launches := ls } } ∧
      (ws.map fun w => { w with readers := [] }) = (t.past.map fun w => { w with readers := [] }) ∧
        (ls.map fun l => ({ l with pub := Clock.zero, fin := Clock.zero } : Launch)) =
          t.launcher.launches.map fun l => { l with pub := Clock.zero, fin := Clock.zero } := by
  have hread := t.noteReads_past_map (s.party s.cur) (fun _ _ _ => false) (s.ownReads i)
  have hpub : ∀ done, ((t.launcher.launches.map (s.publishIn done)).map fun l => ({ l with pub := Clock.zero, fin := Clock.zero } : Launch)) =
      t.launcher.launches.map fun l => { l with pub := Clock.zero, fin := Clock.zero } := by
    intro done
    rw [List.map_map]
    exact List.map_congr_left fun l _ => s.publishIn_frame done l
  unfold State.ordered
  split
  · exact ⟨_, _, rfl, rfl, rfl⟩
  · dsimp only
    split
    · exact ⟨_, _, s.publish_eq _ false, hread, hpub false⟩
    · exact ⟨_, _, s.publish_eq _ true, hread, hpub true⟩
    · exact ⟨_, _, s.publish_eq _ true, hread, hpub true⟩
    · exact ⟨_, t.launcher.launches, rfl, hread, rfl⟩

/-- Of the numbers of sixteen slots, a filter that one of them alone passes leaves that one. -/
theorem finRange_filter_eq {p : Fin 16 → Bool} {i : Fin 16} (h : ∀ j, p j = true ↔ j = i) : (List.finRange 16).filter p = [i] := by
  have hp : p = fun j => decide (j = i) := funext fun j => by rw [Bool.eq_iff_iff, h, decide_eq_true_eq]
  rw [hp]
  clear h hp
  revert i
  decide

/-- A slot of a core by its number. -/
theorem slotAt_toFin (o : SlotId) : slotAt o.core o.slot.toFin = o := rfl

/-- A slot that may act is the one candidate of a cycle that the pipeline leaves to it (R153, R330). -/
theorem candidates_filter_of_canTurn {s : State} {o : SlotId} (h : s.canTurn o = true) :
    ((s.candidates o.core).filter fun k => slotAt o.core k.slot = o) =
      [{ slot := o.slot.toFin, level := (s.getSlot o).level, age := (s.getSlot o).age, res := s.turn o }] := by
  have hslot : ∀ j : Fin 16, slotAt o.core j = o ↔ j = o.slot.toFin := by
    intro j
    refine ⟨fun e => ?_, fun e => by rw [e, slotAt_toFin]⟩
    exact congrArg (fun q : SlotId => q.slot.toFin) e
  unfold State.candidates
  rw [List.filter_map, List.filter_filter]
  rw [finRange_filter_eq (i := o.slot.toFin) fun j => by
    rw [Bool.and_eq_true, Function.comp, decide_eq_true_eq, hslot]
    exact ⟨fun e => e.1, fun e => ⟨e, by rw [e, slotAt_toFin]; exact h⟩⟩]
  rfl

/-- Of one candidate that can issue, that one is picked: in turn, unless it is promoted (R330). -/
theorem pick_single (k : Candidate) (rr : Vector (BitVec 4) 5) : pick [k] rr = some (k, decide (k.age < 64)) := by
  by_cases hage : 64 ≤ k.age
  · simp [pick, oldest, hage]
  · have hlevel : (if (0 : Fin 5) < k.level then k.level else 0) = k.level := by
      split
      · rfl
      · next h => exact (Fin.le_zero_iff.mp (not_lt.mp h)).symm
    have hafter : ∀ r, afterSlot [k] r = some k := by
      intro r
      unfold afterSlot
      split
      · next k' hk => rw [List.find?_singleton] at hk; split at hk <;> simp_all
      · rfl
    simp [pick, oldest, hage, hlevel, hafter]
    omega

/-- A cycle of one candidate whose slot issues moves on the ages, and RR unless the slot was promoted (R330). -/
theorem cycleOf_single_issues (s : State) (c : CoreId) (k : Candidate) {t : State} (hr : k.res = .next t)
    (hw : (t.getSlot (slotAt c k.slot)).wait = none) :
    s.cycleOf c [k] = some (.next (t.tickCore s c [k.slot] (some (k, decide (k.age < 64))))) := by
  have hissues : [k].filter (·.issues c) = [k] := by simp [Candidate.issues, hr, hw]
  unfold State.cycleOf
  dsimp only
  rw [hissues, pick_single]
  simp only [hr, List.map_cons, List.map_nil]

/-- A cycle of one candidate whose slot waits keeps what it did only where its wait is new or it has sent something (R330). -/
theorem cycleOf_single_waits (s : State) (c : CoreId) (k : Candidate) {t : State} (hr : k.res = .next t)
    (hw : (t.getSlot (slotAt c k.slot)).wait ≠ none) :
    s.cycleOf c [k] = if t.nextId ≠ s.nextId ∨ (t.getSlot (slotAt c k.slot)).wait ≠ (s.getSlot (slotAt c k.slot)).wait then
      some (.next (t.tickCore s c [] none)) else none := by
  have hissues : [k].filter (·.issues c) = [] := by simp [Candidate.issues, hr, hw]
  unfold State.cycleOf
  dsimp only
  rw [hissues]
  by_cases hnew : t.nextId ≠ s.nextId ∨ (t.getSlot (slotAt c k.slot)).wait ≠ (s.getSlot (slotAt c k.slot)).wait
  · simp [pick, oldest, afterSlot, resState, hr, hnew]
  · simp [pick, oldest, afterSlot, resState, hr, hnew]

/-- A slot with no cause pending runs what its words decode to, or ILLEGAL (R73, R93, R112). -/
theorem turn_fetched {s : State} {o : SlotId} {w lit : Word32} (hcause : (s.getSlot o).causeDue = false)
    (hf : fetchWords ((s.issuing o).banked o.core) = .ok (w, lit)) :
    (∀ i, decode w lit = .ok i → s.turn o = ((s.issuing o).banked o.core).perform i) ∧
      ∀ e, decode w lit = .error e → s.turn o = ((s.issuing o).banked o.core).perform (.illegal w) := by
  have hturn : s.turn o = s.run o := by simp [State.turn, hcause]
  rw [hturn]
  constructor
  · intro i hi
    simp [State.run, fetch, hf, bind, Except.bind, hi]
  · intro e he
    simp [State.run, fetch, hf, bind, Except.bind, he]

/-- A step whose next move is the issue of a slot that can act, by what the slot's turn answers (R330). -/
theorem step_issue {s : State} {o : SlotId} {ms : List Move} {v : State} (ha : s.agenda = .issue o :: ms) (hc : s.canTurn o = true)
    (hv : ({ s with agenda := ms, tick := s.tick + 1 } : State).turn o = .next v) :
    let b := ({ s with agenda := ms, tick := s.tick + 1 } : State)
    ((v.getSlot o).wait = none → step s = .next (v.tickCore b o.core [o.slot.toFin]
      (some ({ slot := o.slot.toFin, level := (s.getSlot o).level, age := (s.getSlot o).age, res := .next v },
        decide ((s.getSlot o).age < 64))))) ∧
    ((v.getSlot o).wait ≠ none →
      step s = .next (if v.nextId ≠ s.nextId ∨ (v.getSlot o).wait ≠ (s.getSlot o).wait then v.tickCore b o.core [] none else b)) := by
  intro b
  have hcb : b.canTurn o = true := hc
  have hstep : step s = (b.cycleOf o.core
      [{ slot := o.slot.toFin, level := (s.getSlot o).level, age := (s.getSlot o).age, res := .next v }]).getD (.next b) := by
    unfold step
    rw [ha]
    change (b.issueOf o).getD (.next b) = _
    unfold State.issueOf
    rw [candidates_filter_of_canTurn hcb]
    change (b.cycleOf o.core [{ slot := o.slot.toFin, level := (s.getSlot o).level, age := (s.getSlot o).age, res := b.turn o }]).getD _ = _
    rw [hv]
  constructor
  · intro hw
    rw [hstep, cycleOf_single_issues b o.core _ rfl (by rw [slotAt_toFin]; exact hw)]
    rfl
  · intro hw
    rw [hstep, cycleOf_single_waits b o.core _ rfl (by rw [slotAt_toFin]; exact hw)]
    rw [slotAt_toFin]
    have hb : (b.getSlot o).wait = (s.getSlot o).wait := rfl
    rw [hb]
    split <;> rfl

/-- Settles O4: the one candidate of the issue is the slot, and its turn performs what its words decode to. -/
theorem stepRunsDecoded : Obligations.StepRunsDecoded := by
  unfold Obligations.StepRunsDecoded
  intro s o ms w lit ha hc hcause b l t runs hf
  have hruns : ∀ i, b.turn o = t.perform i → runs i := by
    intro i hi
    obtain ⟨u, hu⟩ := exec_next i t
    obtain ⟨ws, ls, hv, hpast, hlaunches⟩ := t.ordered_eq u i
    have hres : b.turn o = .next (t.ordered u i) := by rw [hi, State.perform, hu]
    obtain ⟨hissues, hwaits⟩ := step_issue ha hc hres
    have hslot : (t.ordered u i).getSlot o = u.getSlot o := by rw [hv]; rfl
    have hid : (t.ordered u i).nextId = u.nextId := by rw [hv]
    rw [hslot, hid] at hwaits
    rw [hslot] at hissues
    refine ⟨u, hu, ?_, ?_, ?_, ?_, hissues, hwaits⟩
    · rw [hv]
    · rw [hv]; exact hpast
    · rw [hv]
    · rw [hv]; exact hlaunches
  obtain ⟨hok, herr⟩ := turn_fetched (s := b) hcause hf
  exact ⟨fun i hi => hruns i (hok i hi), fun e he => hruns (.illegal w) (herr e he)⟩

/-! ### Stream registers as sources (R25, R151, R194) -/

/-- What a plain read has met is kept in the acting slot's record alone (R247). -/
theorem State.slot_hears (s : State) (l : List Side) :
    (s.hears l).slot = { s.slot with heard := s.slot.heard ++ l.filter fun x => !s.slot.heard.contains x } := by
  unfold State.hears
  split
  · next h => rw [List.isEmpty_iff.mp h]; simp
  · exact s.slot_modSlot _

@[simp] theorem State.hears_mem (s : State) (l : List Side) : (s.hears l).mem = s.mem := by unfold State.hears; split <;> rfl
@[simp] theorem State.hears_cur (s : State) (l : List Side) : (s.hears l).cur = s.cur := by unfold State.hears; split <;> rfl
@[simp] theorem State.hears_reqs (s : State) (l : List Side) : (s.hears l).reqs = s.reqs := by unfold State.hears; split <;> rfl

/-- A stream with its next element popped (R25). -/
def StreamCfg.popped (c : StreamCfg) : StreamCfg := { c with pos := c.pos + 1, pre := c.pre.drop 1, met := c.met.drop 1 }

/-- A stream whose faulting element is to be fetched again (R194). -/
def StreamCfg.refetched (c : StreamCfg) : StreamCfg := { c with pre := [], met := [] }

/-- The state with the configuration of a stream of the acting slot set. -/
def State.putStream (s : State) (i : Fin 4) (c : StreamCfg) : State :=
  s.modSlot fun l => { l with streams := l.streams.set i.val c }

@[simp] theorem State.slot_putStream (s : State) (i : Fin 4) (c : StreamCfg) :
    (s.putStream i c).slot = { s.slot with streams := s.slot.streams.set i.val c } := s.slot_modSlot _

@[simp] theorem State.putStream_mem (s : State) (i : Fin 4) (c : StreamCfg) : (s.putStream i c).mem = s.mem := rfl

/-- A pop of an element without poison moves its stream on and records what its read has met (R25, R247). -/
theorem popStream_ok {s : State} {i : Fin 4} {e : VVal} {rest : List StreamElem} (h : (s.slot.streams[i]).pre = .ok e none :: rest) :
    popStream s i = (s.putStream i (s.slot.streams[i]).popped).hears ((s.slot.streams[i]).met.headD []) := by
  simp only [popStream, State.putStream, StreamCfg.popped, h]

/-- Streams whose elements have come are ready (R194). -/
theorem popsReady_ok {s : State} {i : Fin 4} {e : VVal} {bad : Option Word} {rest : List StreamElem} (l : List (Fin 4))
    (h : (s.slot.streams[i]).pre = .ok e bad :: rest) : popsReady s (i :: l) = popsReady s l := by
  rw [popsReady]
  simp only [h]

/-- The fault of an element is taken at its pop, and the element is fetched again (R194). -/
theorem popsReady_fault {s : State} {i : Fin 4} {sc : BitVec 16} {a : Word} {rest : List StreamElem} (l : List (Fin 4))
    (h : (s.slot.streams[i]).pre = .fault sc a :: rest) :
    popsReady s (i :: l) = .error (.keep (s.putStream i (s.slot.streams[i]).refetched) sc a) := by
  rw [popsReady]
  simp only [h]
  rfl

/-- Streams that are ready are popped in order (R25). -/
theorem popStreams_ok {s : State} {is : List (Fin 4)} (h : popsReady s is = .ok ()) : popStreams s is = .ok (is.foldl popStream s) := by
  rw [popStreams, h]
  rfl

/-- What keeps an element from being popped keeps all of them (R194). -/
theorem popStreams_error {s : State} {is : List (Fin 4)} {e : Stop} (h : popsReady s is = .error e) : popStreams s is = .error e := by
  rw [popStreams, h]
  rfl

/-- Registers that are no streams pop nothing (R25). -/
theorem Slot.popsOf_nil {l : Slot} {vs : List VReg} (h : ∀ v ∈ vs, l.streamOf v = none) : l.popsOf vs = [] := by
  rw [Slot.popsOf, List.filterMap_eq_nil_iff.mpr h]
  rfl

/-- A stream register names its stream. -/
theorem Slot.popsOf_singleton {l : Slot} {v : VReg} {i : Fin 4} (h : l.streamOf v = some i) : l.popsOf [v] = [i] := by
  simp [Slot.popsOf, h]
  rfl

/-- A stream that two sources name is popped once (R25, R155). -/
theorem Slot.popsOf_twice {l : Slot} {v : VReg} {i : Fin 4} (h : l.streamOf v = some i) : l.popsOf [v, v] = [i] := by
  simp [Slot.popsOf, h, List.eraseDups_cons]

/-- Two streams are popped in slot order (R25, R155). -/
theorem Slot.popsOf_pair {l : Slot} {v w : VReg} {i j : Fin 4} (hi : l.streamOf v = some i) (hj : l.streamOf w = some j) (h : i ≠ j) :
    l.popsOf [v, w] = [i, j] := by
  simp [Slot.popsOf, hi, hj, List.eraseDups_cons, h.symm]

/-! ### Stream registers as destinations (R155, R194) -/

/-- A window that does not round asks for no draw, and so does CR.RMODE 0: every mode is RNE (R38, R63). -/
theorem modes_rne {s : State} {w : Window} (n : Nat) (h : s.slot.rmode = false ∨ w = .raw ∨ w = .int8) :
    modes s (s.slot.rmode && w.rounds) n = .ok (s, List.replicate n .rne) := by
  have hno : (s.slot.rmode && w.rounds) = false := by
    rcases h with h | rfl | rfl
    · simp [h]
    · simp [Window.rounds]
    · simp [Window.rounds]
  rw [hno]
  rfl

/-- A lane of merged values below sixteen (R151). -/
theorem laneOf_mergeLanes (mask : BitVec 16) (a b : VVal) {r : Nat} (h : r < 16) :
    laneOf (mergeLanes mask a b) r = if mask.getLsbD r then laneOf a r else laneOf b r := by
  simp [laneOf, mergeLanes, lanes, Vector.getD, h]

/-- A lane of zero (R151). -/
theorem laneOf_zero {r : Nat} (h : r < 16) : laneOf VVal.zero r = 0 := by
  simp [laneOf, VVal.zero, Vector.getD, h]

/-- A list paired with the values of a function on its places. -/
theorem zip_map_range {α : Type} {keys : List Nat} {n : Nat} (g : Nat → α) (h : keys.length = n) :
    keys.zip ((List.range n).map g) = (List.range n).map fun r => (keys.getD r 0, g r) := by
  subst h
  refine List.ext_getElem (by simp) fun r h₁ h₂ => ?_
  have hr : r < keys.length := by simpa using h₂
  simp [hr]

/-- An element pushed where nothing rounds goes out as one store of its sixteen narrowed lanes (R194). -/
theorem pushStream_rne {s t : State} {i : Fin 4} {keys : List Nat} {f : ElemForm} (val : VVal)
    (hplace : pushPlace s s.slot.streams[i] = .ok (t, keys, f)) (hround : t.slot.rmode = false ∨ f.win = .raw ∨ f.win = .int8) :
    pushStream s i val = .ok
      (((t.sendStore (s.slot.streams[i]).base (joinPieces (keys.zip ((List.range 16).map fun r =>
        natBytes f.width (f.win.narrow .rne (laneOf val r)).bits))) none).markPush.putStream i
          { s.slot.streams[i] with pos := (s.slot.streams[i]).pos + 1 }),
        Events.sum ((List.range 16).map fun r => (f.win.narrow .rne (laneOf val r)).ev)) := by
  have hmode : ∀ k ∈ List.range 16, f.win.narrow ((List.replicate 16 RMode.rne).getD k .rne) (laneOf val k) =
      f.win.narrow .rne (laneOf val k) := by
    intro k hk
    rw [List.getD_replicate _ (List.mem_range.mp hk)]
  unfold pushStream
  dsimp only
  rw [hplace]
  simp only [bind, Except.bind, modes_rne 16 hround, List.map_congr_left hmode, List.map_map, Function.comp_def]
  rfl

/-- Setting one stream of a table leaves the others. -/
theorem vector_set_get_other {α : Type} {n : Nat} (v : Vector α n) (x : α) {i j : Fin n} (h : j ≠ i) : (v.set i.val x)[j] = v[j] :=
  Vector.getElem_set_ne _ _ fun e => h (Fin.ext e.symm)

/-- The stream set reads back. -/
theorem vector_set_get_same {α : Type} {n : Nat} (v : Vector α n) (x : α) (i : Fin n) : (v.set i.val x)[i] = x :=
  Vector.getElem_set_self _

/-- Settles O30: sources by what `popsReady` finds of each stream, destinations by `writeV`'s two forms. -/
theorem vectorOperands : Obligations.VectorOperands := by
  unfold Obligations.VectorOperands
  intro s
  refine ⟨fun vs hvs => ?_, fun v mask val hv => ?_, fun v i e rest hv hpre => ?_, fun v i sc a rest hv hpre => ?_,
    fun v w i j e bad sc a rest rest' hv hw hij hpre hpre' => ?_, fun v i mask val t keys f hv hplace hlen hround hmode => ?_⟩
  · have hnil := Slot.popsOf_nil hvs
    exact ⟨hnil, by rw [hnil]; rfl, fun v hv => by simp [Slot.srcV, hvs v hv]⟩
  · simp only [writeV, hv]
    rfl
  · have hslot := congrArg State.slot (popStream_ok hpre)
    rw [State.slot_hears, State.slot_putStream] at hslot
    refine ⟨by simp only [Slot.srcV, hv, hpre], Slot.popsOf_twice hv, popStream s i, ?_, ?_, ?_, ?_, ?_, fun j hj => ?_⟩
    · rw [Slot.popsOf_twice hv, popStreams_ok ((popsReady_ok [] hpre).trans rfl)]
      rfl
    · rw [hslot, vector_set_get_same]
      rfl
    · rw [hslot, vector_set_get_same, StreamCfg.popped, hpre]
      rfl
    · rw [popStream_ok hpre, State.hears_mem, State.putStream_mem]
    · rw [hslot]
    · rw [hslot, vector_set_get_other _ _ hj]
  · refine ⟨s.putStream i (s.slot.streams[i]).refetched, ?_, ?_, ?_, rfl⟩
    · rw [Slot.popsOf_singleton hv, popStreams_error (popsReady_fault [] hpre)]
    all_goals
      rw [State.slot_putStream, vector_set_get_same]
      rfl
  · refine ⟨s.putStream j (s.slot.streams[j]).refetched, ?_, ?_, ?_, ?_, ?_, rfl⟩
    · rw [Slot.popsOf_pair hv hw hij, popStreams_error ((popsReady_ok [j] hpre).trans (popsReady_fault [] hpre'))]
    · rw [State.slot_putStream, vector_set_get_other _ _ hij]
    · rw [State.slot_putStream, vector_set_get_same]
      rfl
    · rw [State.slot_putStream, vector_set_get_same]
      rfl
    · rw [State.slot_putStream]
  · have hround' : t.slot.rmode = false ∨ f.win = .raw ∨ f.win = .int8 := by rw [hmode]; exact hround
    have hlane : ∀ r ∈ List.range 16, laneOf (mergeLanes mask val VVal.zero) r = if mask.getLsbD r then laneOf val r else 0 := by
      intro r hr
      rw [laneOf_mergeLanes _ _ _ (List.mem_range.mp hr), laneOf_zero (List.mem_range.mp hr)]
    have hbytes : ((List.range 16).map fun r => natBytes f.width (f.win.narrow .rne (laneOf (mergeLanes mask val VVal.zero) r)).bits) =
        (List.range 16).map fun r => natBytes f.width (f.win.narrow .rne (if mask.getLsbD r then laneOf val r else 0)).bits :=
      List.map_congr_left fun r hr => by rw [hlane r hr]
    have hevents : ((List.range 16).map fun r => (f.win.narrow .rne (laneOf (mergeLanes mask val VVal.zero) r)).ev) =
        (List.range 16).map fun r => (f.win.narrow .rne (if mask.getLsbD r then laneOf val r else 0)).ev :=
      List.map_congr_left fun r hr => by rw [hlane r hr]
    dsimp only
    simp only [writeV, hv]
    rw [pushStream_rne _ hplace hround', hbytes, hevents, zip_map_range _ hlen]
    rfl

/-! ### Updates that change one context (R22) -/

/-- State `t` differs from `s` in one context's slot, by `f`, and in none of the things that the completion of its request may not touch:
every other slot, memory, the requests in flight, the acting context; a remote line buffer that is empty stays empty. -/
structure ContextStep (s t : State) (o : SlotId) (f : Slot → Slot) : Prop where
  cur : t.cur = s.cur
  mem : t.mem = s.mem
  reqs : t.reqs = s.reqs
  same : t.getSlot o = f (s.getSlot o)
  other : ∀ q, q ≠ o → t.getSlot q = s.getSlot q
  rlb : ∀ c, (s.getCore c).rlb = [] → (t.getCore c).rlb = []

namespace ContextStep

variable {s t u : State} {o : SlotId} {f g : Slot → Slot}

theorem refl (s : State) (o : SlotId) : ContextStep s s o id := ⟨rfl, rfl, rfl, rfl, fun _ _ => rfl, fun _ h => h⟩

/-- Two such updates one after the other. -/
theorem trans (h : ContextStep s t o f) (k : ContextStep t u o g) : ContextStep s u o fun l => g (f l) :=
  ⟨k.cur.trans h.cur, k.mem.trans h.mem, k.reqs.trans h.reqs, by rw [k.same, h.same], fun q hq => (k.other q hq).trans (h.other q hq),
    fun c hc => k.rlb c (h.rlb c hc)⟩

/-- The same update, the change of the slot said otherwise. -/
theorem congr (h : ContextStep s t o f) (hfg : ∀ l, f l = g l) : ContextStep s t o g :=
  ⟨h.cur, h.mem, h.reqs, h.same.trans (hfg _), h.other, h.rlb⟩

/-- A change of the slot itself. -/
theorem onSlot (s : State) (o : SlotId) (f : Slot → Slot) : ContextStep s (s.onSlot o f) o f := by
  refine ⟨rfl, rfl, rfl, s.getSlot_onSlot o f, fun q hq => s.getSlot_onSlot_other f hq, fun c hc => ?_⟩
  by_cases h : c = o.core
  · subst h
    rw [State.onSlot, State.getCore_onCore]
    exact hc
  · rw [State.onSlot, State.getCore_onCore_other _ _ h]
    exact hc

/-- A change of a core that leaves its slots. -/
theorem onCore (s : State) (o : SlotId) (c : CoreId) {f : Core → Core} (hslots : ∀ k, (f k).slots = k.slots)
    (hrlb : ∀ k, k.rlb = [] → (f k).rlb = []) : ContextStep s (s.onCore c f) o id := by
  have hcore : ∀ d, ((s.onCore c f).getCore d).slots = (s.getCore d).slots ∧
      ((s.getCore d).rlb = [] → ((s.onCore c f).getCore d).rlb = []) := by
    intro d
    by_cases h : d = c
    · subst h
      rw [State.getCore_onCore]
      exact ⟨hslots _, hrlb _⟩
    · rw [State.getCore_onCore_other _ _ h]
      exact ⟨rfl, id⟩
  exact ⟨rfl, rfl, rfl, Core.getSlot_congr (hcore o.core).1 o.slot, fun q _ => Core.getSlot_congr (hcore q.core).1 q.slot,
    fun d => (hcore d).2⟩

end ContextStep

/-- A monitor sample leaves a core's slots and its line buffer (R393). -/
theorem Core.sample_frame (k : Core) (src : Nat) (v : Word) : (k.sample src v).slots = k.slots ∧ (k.sample src v).rlb = k.rlb := by
  unfold Core.sample
  induction List.finRange 4 generalizing k with
  | nil => exact ⟨rfl, rfl⟩
  | cons n l ih =>
    rw [List.foldl_cons]
    split
    · exact ih (k.sampleOne n v)
    · exact ih k

section
variable (s : State) (o : SlotId)

theorem contextStep_sampleCycles (c : CoreId) (src : Nat) : ContextStep s (s.sampleCycles c src) o id :=
  .onCore s o c (fun k => (k.sample_frame src _).1) fun k h => (k.sample_frame src _).2.trans h

theorem contextStep_countEvents (e : Events) : ContextStep s (s.countEvents e) o id :=
  .onCore s o _ (fun k => k.countEvents_slots e) fun k h => (k.countEvents_rlb e).trans h

theorem contextStep_noteIssuedAt : ContextStep s (s.noteIssuedAt o) o fun l => { l with issued := l.issued + 1 } := by
  refine ⟨rfl, rfl, rfl, s.getSlot_noteIssuedAt o, fun q hq => s.getSlot_noteIssuedAt_other hq, fun c hc => ?_⟩
  by_cases h : c = o.core
  · subst h
    rw [State.noteIssuedAt, State.getCore_onCore]
    exact hc
  · rw [State.noteIssuedAt, State.getCore_onCore_other _ _ h]
    exact hc

/-- A held instruction completed (R123, R128). -/
theorem contextStep_complete :
    ContextStep s (s.complete o) o fun l => { l with pc := l.pc + 4, wait := none, issued := l.issued + 1 } :=
  (ContextStep.onSlot s o _).trans (contextStep_noteIssuedAt _ o)

/-- Release sides heard (R247). -/
theorem contextStep_hears (m : List Side) (h : s.cur = o) :
    ContextStep s (s.hears m) o fun l => { l with heard := l.heard ++ m.filter fun x => !l.heard.contains x } := by
  subst h
  by_cases hm : m.isEmpty = true
  · have he : s.hears m = s := if_pos hm
    refine ⟨by rw [he], by rw [he], by rw [he], ?_, fun q _ => by rw [he], fun c hc => by rw [he]; exact hc⟩
    exact (congrArg (fun c => s.hears m |>.getSlot c) (s.hears_cur m).symm).trans (s.slot_hears m)
  · have he : s.hears m = s.modSlot fun k => { k with heard := k.heard ++ m.filter fun x => !k.heard.contains x } := if_neg hm
    rw [he]
    exact .onSlot s s.cur _

/-- An acquire of the acting context (R247, R256). -/
theorem contextStep_acquireAt (sc : BitVec 3) (c : Clock) (h : s.cur = o) :
    ContextStep s (s.acquireAt sc c) o fun l => { l with clk := l.clk.join c } := by
  subst h
  have hacq := ContextStep.onSlot s s.cur fun l => { l with clk := l.clk.join c }
  unfold State.acquireAt
  dsimp only
  split
  · have hflush : ContextStep (s.acquires s.cur c) ((s.acquires s.cur c).flushRlb s.cur.core) s.cur id :=
      .onCore _ _ _ (fun _ => rfl) fun _ _ => rfl
    have hsync : ContextStep ((s.acquires s.cur c).flushRlb s.cur.core) ((s.acquires s.cur c).acquired s.cur.core) s.cur id :=
      ⟨rfl, rfl, rfl, rfl, fun _ _ => rfl, fun _ h => h⟩
    exact hacq.trans (hflush.trans hsync)
  · exact hacq

end

/-- An acquire of scope 2 or more leaves the line buffer of its core empty (R256). -/
theorem rlb_acquireAt (s : State) {sc : BitVec 3} (c : Clock) (h : 2 ≤ sc) : ((s.acquireAt sc c).getCore s.cur.core).rlb = [] := by
  have : s.acquireAt sc c = (s.acquires s.cur c).acquired s.cur.core := if_pos h
  rw [this]
  show (((s.acquires s.cur c).flushRlb s.cur.core).getCore s.cur.core).rlb = []
  rw [State.flushRlb, State.getCore_onCore]

/-- The state with the POISON of a lane that was poisoned, if one was (R124). -/
def State.addPoisons (s : State) (bad : Option Word) : State :=
  match bad with
  | some a => s.addPoison s.cur a
  | none => s

/-- Its context gets an asynchronous cause. -/
theorem contextStep_addPoisons (s : State) (bad : Option Word) {o : SlotId} (h : s.cur = o) : ContextStep s (s.addPoisons bad) o fun l =>
    { l with asyncs := l.asyncs ++ bad.toList.map fun a => { scause := 0x0012, val := a, engine := none } } := by
  subst h
  cases bad with
  | none => exact (ContextStep.refl s s.cur).congr fun l => by simp
  | some a => exact .onSlot s s.cur _

/-- Events that raise no counter owe nothing (R57). -/
theorem withEvents_of_no_raise (s : State) {e : Events} (h : e.raised = []) : s.withEvents e = s.countEvents e := by
  have : s.slot.arith e = none := by
    unfold Slot.arith
    split
    · rfl
    · rw [h]; rfl
  rw [State.withEvents, this]
  rfl

/-! ### RETURNING_OPERATION_COMPLETE (R21, R22) -/

/-- Walk caches lose nothing to a write of no bytes (R299). -/
@[simp] theorem State.dropWalks_nil (s : State) : s.dropWalks [] = s := by
  simp [State.dropWalks]

/-- The state in which the context of a request completes it: the request is gone, and the walk caches hold nothing from the lines that it
wrote. -/
def State.completing (s : State) (r : Req) : State :=
  { (s.dropReq r.id).dropWalks (r.writes.map fun p => (p.key, p.len)) with cur := r.slotId }

/-- The identifier of a request that a search has found. -/
theorem id_of_find {l : List Req} {n : Nat} {r : Req} (h : l.find? (·.id = n) = some r) : r.id = n := by
  simpa using List.find?_some h

section
variable {s : State} {n : Nat} {r : Req}

/-- A request whose answer may be delivered is (R21). -/
theorem exec_complete_deliver (hfind : s.reqs.find? (·.id = n) = some r) (hret : r.returned = true) (hpeers : r.peers = [])
    (hsplit : s.splitPending n = false) : exec (.returningOperationComplete n) s = .next (s.deliver r) := by
  show execReturningOperationComplete n s = _
  simp [execReturningOperationComplete, hfind, hret, hpeers, hsplit]

/-- A request whose home or peer has not answered is left alone (R242, R378). -/
theorem exec_complete_pending (hfind : s.reqs.find? (·.id = n) = some r) (h : r.applied = false ∨ r.peers ≠ []) :
    exec (.returningOperationComplete n) s = .next s := by
  have hnot : (r.returned && r.peers.isEmpty && !s.splitPending n) = false := by
    rcases h with h | h
    · simp [Req.returned, h]
    · simp [h]
  show execReturningOperationComplete n s = _
  simp only [execReturningOperationComplete, hfind, hnot]
  rfl

/-- The answer of a request of a task that has ended is discarded (R22). -/
theorem deliver_dead (hclass : r.class0 = false) (halive : s.alive r = false) :
    s.deliver r = (s.dropReq r.id).dropWalks (r.writes.map fun p => (p.key, p.len)) := by
  simp [State.deliver, hclass, halive]

/-- The answer of a request of a task that still runs ends its instruction, by what its body answers (R21). -/
theorem deliver_alive (hclass : r.class0 = false) (halive : s.alive r = true) :
    s.deliver r = match completeBody r (s.completing r) with
      | .ok u => { u with cur := s.cur }
      | .error (.wait u w) => { ((s.completing r).undoSlot u).setWait w with cur := s.cur, reqs := s.reqs }
      | .error e => { (s.completing r).stop e with cur := s.cur } := by
  simp only [State.deliver, hclass, halive, State.completing]
  rfl

/-- What an update of the completing context leaves after its request is gone, the context that acted before acting again. -/
theorem ContextStep.delivered {u : State} {f : Slot → Slot} (hid : r.id = n) (h : ContextStep (s.completing r) u r.slotId f) :
    let t : State := { u with cur := s.cur }
    t.mem = s.mem ∧ t.cur = s.cur ∧ t.reqs = s.reqs.filter (·.id ≠ n) ∧ (∀ q, q ≠ r.slotId → t.getSlot q = s.getSlot q) ∧
      t.getSlot r.slotId = f (s.getSlot r.slotId) := by
  subst hid
  exact ⟨h.mem, rfl, h.reqs, h.other, h.same⟩

/-- The body of an answered request that ends well is delivered (R21). -/
theorem exec_complete_ok {u : State} (hfind : s.reqs.find? (·.id = n) = some r) (hret : r.returned = true) (hpeers : r.peers = [])
    (hsplit : s.splitPending n = false) (hclass : r.class0 = false) (halive : s.alive r = true)
    (hbody : completeBody r (s.completing r) = .ok u) :
    exec (.returningOperationComplete n) s = .next { u with cur := s.cur } := by
  rw [exec_complete_deliver hfind hret hpeers hsplit, deliver_alive hclass halive, hbody]

end

/-! ### Loads (R124, R126, R130) -/

/-- A sample taken where an access has missed leaves every context (R393). -/
theorem contextStep_sampleIf (s : State) (o : SlotId) (b : Bool) (c : CoreId) (src : Nat) :
    ContextStep s (if b then s.sampleCycles c src else s) o id := by
  cases b with
  | false => exact .refl s o
  | true => exact contextStep_sampleCycles s o c src

/-- The acting context's register filled (R21). -/
theorem contextStep_fillX (s : State) {o : SlotId} (d : XReg) (w : Word) (h : s.cur = o) :
    ContextStep s (s.fillX d w) o fun l => (l.setX d w).markX d true := by
  subst h
  exact .onSlot s s.cur _

/-- The completion of a plain load: its register, what its read has met, and a POISON where its bytes were (R124, R126). -/
theorem completeBody_load (r : Req) (s : State) {p : Piece} {win : Window} {signed : Bool} {d : XReg} {w : Word} {bad : Bool}
    (hop : r.op = .load p win signed d) (hres : r.res = .word w bad) (hcur : s.cur = r.slotId) :
    ∃ u, completeBody r s = .ok u ∧ ContextStep s u r.slotId fun l =>
      { (l.setX d w).markX d true with
        asyncs := l.asyncs ++ (if bad then some r.ea else none).toList.map fun a => { scause := 0x0012, val := a, engine := none }
        heard := l.heard ++ r.met.filter fun x => !l.heard.contains x } := by
  let s₁ := if homeCore p.key ≠ some r.core && r.registered then s.sampleCycles r.core 1 else s
  let s₂ := (s₁.fillX d w).hears r.met
  have h₁ : ContextStep s s₁ r.slotId id := contextStep_sampleIf s r.slotId _ r.core 1
  have hcur₁ : s₁.cur = r.slotId := h₁.cur.trans hcur
  have hcur₂ : s₂.cur = r.slotId := (State.hears_cur _ _).trans hcur₁
  have hstep := ((h₁.trans (contextStep_fillX s₁ d w hcur₁)).trans (contextStep_hears _ r.slotId r.met hcur₁)).trans
    (contextStep_addPoisons s₂ (if bad then some r.ea else none) hcur₂)
  refine ⟨s₂.addPoisons (if bad then some r.ea else none), ?_, hstep.congr fun l => ?_⟩
  · unfold completeBody
    rw [hop, hres]
    cases bad <;> rfl
  · simp only [id_eq, Slot.markX_heard, Slot.setX_heard, Slot.markX_asyncs, Slot.setX_asyncs]

/-- A lane of a value that loaded lanes are put into is the last one loaded for it, else the old one (R130). -/
theorem fillLanes_get (old : VVal) (ws : List (BitVec 4 × Word32)) (j : Fin 16) :
    (fillLanes old ws)[j] = ((ws.reverse.find? fun x => x.1.toNat = j.val).map (·.2)).getD old[j] := by
  induction ws using List.reverseRecOn with
  | nil => rfl
  | append_singleton ws w ih =>
    have hstep : fillLanes old (ws ++ [w]) = (fillLanes old ws).setIfInBounds w.1.toNat w.2 := by simp [fillLanes]
    rw [hstep, List.reverse_append, List.reverse_singleton, List.singleton_append, List.find?_cons]
    by_cases h : w.1.toNat = j.val
    · simp [h]
    · have hget : ((fillLanes old ws).setIfInBounds w.1.toNat w.2)[j] = (fillLanes old ws)[j] :=
        Vector.getElem_setIfInBounds_ne _ h
      rw [hget, ih]
      simp [h]

/-- The lanes of an element that a load into an output stream pushes (R25, R130). -/
theorem fillLanes_zero (ws : List (BitVec 4 × Word32)) :
    (Vector.ofFn fun j : Fin 16 => ((ws.reverse.find? fun x => x.1.toNat = j.val).map (·.2)).getD 0 : VVal) = fillLanes VVal.zero ws := by
  refine Vector.ext fun j hj => ?_
  have := fillLanes_get VVal.zero ws ⟨j, hj⟩
  simpa [VVal.zero] using this.symm

/-- The completion of a vector load into a register: its lanes, what its read has met, and a POISON where one of them was (R124, R130). -/
theorem completeBody_vload (r : Req) (s : State) {ls : List LaneRead} {win : Window} {v : VReg} {pops : List (Fin 4)}
    {ws : List (BitVec 4 × Word32)} {bad : Option Word}
    (hop : r.op = .vload ls win v false pops) (hres : r.res = .lanes ws bad) (hcur : s.cur = r.slotId) :
    ∃ u, completeBody r s = .ok u ∧ ContextStep s u r.slotId fun l =>
      { (l.setV v (fillLanes (l.getV v) ws)).markV v true with
        asyncs := l.asyncs ++ bad.toList.map fun a => { scause := 0x0012, val := a, engine := none }
        heard := l.heard ++ r.met.filter fun x => !l.heard.contains x } := by
  let fill := fun (l : Slot) => (l.setV v (fillLanes (l.getV v) ws)).markV v true
  let s₁ := if r.registered then s.sampleCycles r.core 1 else s
  let s₂ := (s₁.hears r.met).modSlot fill
  have h₁ : ContextStep s s₁ r.slotId id := contextStep_sampleIf s r.slotId r.registered r.core 1
  have hcur₁ : s₁.cur = r.slotId := h₁.cur.trans hcur
  have hcur₂ : s₂.cur = r.slotId := (State.hears_cur _ _).trans hcur₁
  have hfill : ContextStep (s₁.hears r.met) s₂ r.slotId fill := hcur₂ ▸ ContextStep.onSlot (s₁.hears r.met) s₂.cur fill
  have hstep := ((h₁.trans (contextStep_hears _ r.slotId r.met hcur₁)).trans hfill).trans (contextStep_addPoisons s₂ bad hcur₂)
  refine ⟨s₂.addPoisons bad, ?_, hstep.congr fun l => rfl⟩
  unfold completeBody
  rw [hop, hres]
  rfl

/-! ### Acquires, atomics and draws (R123, R128, R132, R240) -/

/-- A held instruction that owes nothing completes: its context goes on (R57, R123). -/
theorem completeWith_step {t : State} {o : SlotId} {e : Events} (hcur : t.cur = o) (he : e.raised = []) :
    ∃ u, completeWith t e = .ok u ∧
      ContextStep t u o fun l => { l with pc := l.pc + 4, wait := none, issued := l.issued + 1 } := by
  subst hcur
  refine ⟨(t.complete t.cur).withEvents e, rfl, ?_⟩
  rw [withEvents_of_no_raise _ he]
  exact (contextStep_complete t t.cur).trans (contextStep_countEvents _ t.cur e)

/-- What an answered acquire or atomic makes of its slot: the register, the pc and count, and where it acquires what it has learned (R123). -/
def Slot.answered (d : XReg) (w : Word) (acq : Bool) (got : Clock) (l : Slot) : Slot :=
  { (l.setX d w).markX d true with
    pc := l.pc + 4, wait := none, issued := l.issued + 1, clk := if acq then l.clk.join got else l.clk }

/-- A register filled in a slot whose clock is set. -/
theorem Slot.fill_clk (l : Slot) (d : XReg) (w : Word) (c : Clock) :
    (({ l with clk := c } : Slot).setX d w).markX d true = { (l.setX d w).markX d true with clk := c } := by
  unfold Slot.setX Slot.markX
  split <;> rfl

/-- A held acquire of the acting context completes: the slot, and the line buffer where its scope is wide (R128, R247, R256). -/
theorem acquire_completes {s : State} {o : SlotId} (sc : BitVec 3) (c : Clock) (d : XReg) (w : Word) {e : Events} (hcur : s.cur = o)
    (he : e.raised = []) : ∃ u, completeWith ((s.acquireAt sc c).fillX d w) e = .ok u ∧
      ContextStep s u o (Slot.answered d w true c) ∧ (2 ≤ sc → (u.getCore o.core).rlb = []) := by
  have hacq := contextStep_acquireAt s o sc c hcur
  have hcur' : (s.acquireAt sc c).cur = o := hacq.cur.trans hcur
  have hfill := contextStep_fillX (s.acquireAt sc c) d w hcur'
  obtain ⟨u, hu, hdone⟩ := completeWith_step (t := (s.acquireAt sc c).fillX d w) hcur' he
  refine ⟨u, hu, ((hacq.trans hfill).trans hdone).congr fun l => ?_, fun hsc => hdone.rlb _ (hfill.rlb _ ?_)⟩
  · rw [Slot.fill_clk]
    simp only [Slot.answered, Slot.markX_pc, Slot.setX_pc, Slot.markX_issued, Slot.setX_issued]
    rfl
  · subst hcur
    exact rlb_acquireAt s c hsc

/-- A held operation that acquires nothing completes. -/
theorem fill_completes {s : State} {o : SlotId} (c : Clock) (d : XReg) (w : Word) {e : Events} (hcur : s.cur = o) (he : e.raised = []) :
    ∃ u, completeWith (s.fillX d w) e = .ok u ∧ ContextStep s u o (Slot.answered d w false c) := by
  have hfill := contextStep_fillX s d w hcur
  obtain ⟨u, hu, hdone⟩ := completeWith_step (t := s.fillX d w) hcur he
  refine ⟨u, hu, (hfill.trans hdone).congr fun l => ?_⟩
  simp only [Slot.answered, Slot.markX_pc, Slot.setX_pc, Slot.markX_issued, Slot.setX_issued, Bool.false_eq_true, if_false]
  rw [← Slot.setX_clk l d w, ← Slot.markX_clk (l.setX d w) d true]

/-- The completion of an acquire load without poison (R128). -/
theorem completeBody_acq (r : Req) (s : State) {p : Piece} {sc : BitVec 3} {d : XReg} {w : Word} (hop : r.op = .acq p sc d)
    (hres : r.res = .word w false) (hcur : s.cur = r.slotId) :
    ∃ u, completeBody r s = .ok u ∧ ContextStep s u r.slotId (Slot.answered d w true r.got) ∧
      (2 ≤ sc → (u.getCore r.core).rlb = []) := by
  have hsample := contextStep_sampleCycles s r.slotId r.core 2
  obtain ⟨u, hu, hstep, hrlb⟩ := acquire_completes (s := s.sampleCycles r.core 2) sc r.got d w (hsample.cur.trans hcur) (e := Events.zero) rfl
  refine ⟨u, ?_, hsample.trans hstep, hrlb⟩
  unfold completeBody
  rw [hop, hres]
  exact hu

/-- Flags of no event raise no counter (R57). -/
theorem flagEvents_zero_raised : (flagEvents 0).raised = [] := by decide

/-- The completion of an `amo` without events (R132). -/
theorem completeBody_amo (r : Req) (s : State) {p : Piece} {fn : AmoFn} {x dOld : Word} {order : BitVec 2} {d : XReg} {w : Word}
    (hop : r.op = .amo p fn x dOld order d) (hres : r.res = .word w false) (hev : r.fpEvents = 0) (hcur : s.cur = r.slotId) :
    ∃ u, completeBody r s = .ok u ∧ ContextStep s u r.slotId (Slot.answered d w (order.getLsbD 0) r.got) ∧
      (order.getLsbD 0 = true → (u.getCore r.core).rlb = []) := by
  have hsample := contextStep_sampleCycles s r.slotId r.core 3
  have hcur' : (s.sampleCycles r.core 3).cur = r.slotId := hsample.cur.trans hcur
  have hraise : (flagEvents r.fpEvents).raised = [] := by rw [hev]; exact flagEvents_zero_raised
  cases horder : order.getLsbD 0 with
  | true =>
    obtain ⟨u, hu, hstep, hrlb⟩ := acquire_completes 6 r.got d w hcur' hraise
    refine ⟨u, ?_, hsample.trans hstep, fun _ => hrlb (by decide)⟩
    unfold completeBody
    rw [hop, hres]
    simp only [horder]
    exact hu
  | false =>
    obtain ⟨u, hu, hstep⟩ := fill_completes r.got d w hcur' hraise
    refine ⟨u, ?_, hsample.trans hstep, fun h => by cases h⟩
    unfold completeBody
    rw [hop, hres]
    simp only [horder]
    exact hu

/-- The completion of a draw into a vector register (R165, R240). -/
theorem completeBody_rand (r : Req) (s : State) {v : VReg} {d : XReg} {a : BitVec 16} {x : VVal} {ev : Events} {w : Word}
    (hop : r.op = .rand (some v) d a x ev) (hres : r.res = .word w false) (hcur : s.cur = r.slotId) :
    ∃ u, completeBody r s = .ok u ∧ ContextStep s u r.slotId fun l =>
      { (l.setV v (mergeLanes a x (l.getV v))).markV v true with pc := l.pc + 4, wait := none, issued := l.issued + 1 } := by
  let fill := fun (l : Slot) => (l.setV v (mergeLanes a x (l.getV v))).markV v true
  have hfill : ContextStep s (s.modSlot fill) r.slotId fill := hcur ▸ ContextStep.onSlot s s.cur fill
  obtain ⟨u, hu, hdone⟩ := completeWith_step (t := s.modSlot fill) (e := Events.zero) hcur rfl
  refine ⟨u, ?_, (hfill.trans hdone).congr fun l => rfl⟩
  unfold completeBody
  rw [hop, hres]
  exact hu

/-- A supervisor cause at a user-mode slot of a core whose CR.SVEC is a code offset (R111). -/
theorem getSlot_takeSup_user {s : State} {o : SlotId} (sc : BitVec 16) (v : Word) (epc : Off) (hmode : (s.getSlot o).mode = .user)
    (hsvec : codeOk (s.getCore o.core).svec.toNat = true) :
    (s.takeSup o sc v epc).reqs = s.reqs ∧ (s.takeSup o sc v epc).getSlot o = { s.getSlot o with
      sepc := epc, scause := sc, sval := v, mode := .supervisor, st := .held, pc := (s.getCore o.core).svec, wait := none, joinAns := none } := by
  have htake : s.takeSup o sc v epc = s.onSlot o fun l => { l with
      sepc := epc, scause := sc, sval := v, mode := .supervisor, st := .held, pc := (s.getCore o.core).svec, wait := none, joinAns := none } := by
    unfold State.takeSup
    simp [hmode, hsvec]
  rw [htake]
  exact ⟨rfl, s.getSlot_onSlot o _⟩

/-! ### A vector load into an output stream (R25) -/

/-- A translation leaves the acting context (R298). -/
theorem translate_cur {s t : State} {ea : Word} {va : Nat} {p : Perm} {x : Nat × Word} (h : s.translate ea va p = .ok (t, x)) :
    t.cur = s.cur := by
  unfold State.translate at h
  split at h
  · split at h
    · cases h; rfl
    · cases h
  · split at h <;> cases h

/-- Two bodies in sequence end well where both do. -/
theorem body_bind_eq_ok {α β : Type} {x : Body α} {f : α → Body β} {r : β} : (x >>= f) = .ok r ↔ ∃ a, x = .ok a ∧ f a = .ok r := by
  cases x <;> simp [bind, Except.bind]

/-- Finding the place of a pushed element leaves the acting context (R194). -/
theorem pushPlace_cur {s t : State} {c : StreamCfg} {x : List Nat × ElemForm} (h : pushPlace s c = .ok (t, x)) : t.cur = s.cur := by
  unfold pushPlace at h
  split at h
  · cases h
  obtain ⟨⟨s₁, f, win⟩, hform, h⟩ := body_bind_eq_ok.mp h
  have h₁ : s₁.cur = s.cur := by
    split at hform
    · cases hform
    · cases hform; rfl
    · obtain ⟨⟨s', y⟩, htr, hform⟩ := body_bind_eq_ok.mp hform
      cases hform
      exact translate_cur htr
  obtain ⟨place, -, h⟩ := body_bind_eq_ok.mp h
  split at h
  · split at h
    · cases h
    · cases h; exact h₁
  · split at h
    · cases h
    obtain ⟨⟨s₂, pa, leaf⟩, htr, h⟩ := body_bind_eq_ok.mp h
    obtain ⟨⟨s₃, next, leaf₂⟩, hnext, h⟩ := body_bind_eq_ok.mp h
    have h₂ : s₂.cur = s.cur := (translate_cur htr).trans h₁
    have h₃ : s₃.cur = s.cur := by
      split at hnext
      · cases hnext; exact h₂
      · exact (translate_cur hnext).trans h₂
    dsimp only at h
    split at h
    · cases h
    · cases h; exact h₃

/-- A draw leaves the acting context (R63). -/
theorem draw_cur {s t : State} {w : Word} (h : draw s = .ok (t, w)) : t.cur = s.cur := by
  unfold draw at h
  dsimp only at h
  split at h
  · split at h
    · cases h
    split at h
    · cases h
    split at h
    · cases h
    obtain ⟨v, -, h⟩ := body_bind_eq_ok.mp h
    cases h
    rfl
  · cases h
    rfl

/-- Several draws leave the acting context (R63). -/
theorem draws_cur {n : Nat} {s t : State} {ws : List Word} (h : draws s n = .ok (t, ws)) : t.cur = s.cur := by
  induction n generalizing s ws with
  | zero => cases h; rfl
  | succ n ih =>
    rw [draws] at h
    obtain ⟨⟨s₁, w⟩, h₁, h⟩ := body_bind_eq_ok.mp h
    obtain ⟨⟨s₂, ws'⟩, h₂, h⟩ := body_bind_eq_ok.mp h
    cases h
    exact (ih h₂).trans (draw_cur h₁)

/-- The rounding modes of a push leave the acting context (R38). -/
theorem modes_cur {s t : State} {sr : Bool} {n : Nat} {ms : List RMode} (h : modes s sr n = .ok (t, ms)) : t.cur = s.cur := by
  unfold modes at h
  split at h
  · obtain ⟨⟨s₁, ws⟩, h₁, h⟩ := body_bind_eq_ok.mp h
    cases h
    exact draws_cur h₁
  · cases h
    rfl

/-- A push leaves the acting context (R194). -/
theorem pushStream_cur {s t : State} {i : Fin 4} {val : VVal} {ev : Events} (h : pushStream s i val = .ok (t, ev)) : t.cur = s.cur := by
  unfold pushStream at h
  dsimp only at h
  obtain ⟨⟨s₁, keys, f⟩, h₁, h⟩ := body_bind_eq_ok.mp h
  obtain ⟨⟨s₂, ms⟩, h₂, h⟩ := body_bind_eq_ok.mp h
  cases h
  exact (modes_cur h₂).trans (pushPlace_cur h₁)

/-- A pop leaves the acting context (R25). -/
theorem popStream_cur (s : State) (i : Fin 4) : (popStream s i).cur = s.cur := by
  unfold popStream
  dsimp only
  split <;> exact State.hears_cur _ _

/-- Pops leave the acting context (R25). -/
theorem popStreams_cur {s t : State} {is : List (Fin 4)} (h : popStreams s is = .ok t) : t.cur = s.cur := by
  unfold popStreams at h
  obtain ⟨_, -, h⟩ := body_bind_eq_ok.mp h
  cases h
  clear h
  induction is generalizing s with
  | nil => rfl
  | cons i l ih => exact ih.trans (popStream_cur s i)

/-- The state in which a load into an output stream pops and pushes: what it has met is heard, its miss sampled (R25, R247, R393). -/
def State.pushing (s : State) (r : Req) : State := (if r.registered then s.sampleCycles r.core 1 else s).hears r.met

/-- The completion of a vector load into an output stream without poison: its pops, its push, and its context goes on (R25; log 16). -/
theorem completeBody_push (r : Req) (s : State) {ls : List LaneRead} {win : Window} {v : VReg} {pops : List (Fin 4)}
    {ws : List (BitVec 4 × Word32)} {i : Fin 4} (hop : r.op = .vload ls win v true pops) (hres : r.res = .lanes ws none)
    (hv : (s.pushing r).slot.streamOf v = some i) :
    completeBody r s = (popStreams (s.pushing r) pops).bind fun u =>
      (pushStream u i (fillLanes VVal.zero ws)).bind fun x => completeWith x.1 x.2 := by
  unfold completeBody
  rw [hop, hres]
  unfold State.pushing at hv ⊢
  simp only [if_true]
  rw [hv]
  rfl

/-- The stream that a register names is the same while its load completes. -/
theorem streamOf_pushing {s : State} {r : Req} (h : s.cur = r.slotId) (v : VReg) :
    (s.pushing r).slot.streamOf v = (s.getSlot r.slotId).streamOf v := by
  have h₁ := contextStep_sampleIf s r.slotId r.registered r.core 1
  have h₂ := h₁.trans (contextStep_hears _ r.slotId r.met (h₁.cur.trans h))
  have hslot : (s.pushing r).slot = (s.pushing r).getSlot r.slotId := congrArg (s.pushing r).getSlot (h₂.cur.trans h)
  have hsame : (s.pushing r).getSlot r.slotId = _ := h₂.same
  rw [hslot, hsame]
  rfl

/-- The state in which a request that writes nothing is completed. -/
theorem completing_of_no_writes {s : State} {r : Req} {n : Nat} (hid : r.id = n) (h : r.writes = []) :
    s.completing r = { s with reqs := s.reqs.filter (·.id ≠ n), cur := r.slotId } := by
  subst hid
  rw [State.completing, h]
  simp [State.dropReq]

/-- Settles O29: each kind of request by what `completeBody` does for it, delivered to a task that still runs. -/
theorem returningOperationsComplete : Obligations.ReturningOperationsComplete := by
  unfold Obligations.ReturningOperationsComplete
  refine ⟨fun s n r hfind => ⟨exec_complete_pending hfind, fun happ hdead hpeers hsplit hload => ?_⟩,
    fun s n r hfind happ hsplit hpeers halive => ?_⟩
  · have hid := id_of_find hfind
    have hret : r.returned = true ∧ r.class0 = false ∧ r.writes = [] := by
      rcases hload with ⟨p, win, signed, d, w, bad, hop, hres⟩ | ⟨ls, win, v, push, pops, ws, bad, hop, hres⟩ <;>
        simp [Req.returned, Req.acked, Req.class0, Req.writes, hop, hres, happ]
    obtain ⟨hret, hclass, hwrites⟩ := hret
    refine ⟨s.dropReq n, ?_, rfl, rfl, fun q => rfl⟩
    rw [exec_complete_deliver hfind hret hpeers hsplit, deliver_dead hclass hdead, hwrites, hid]
    simp
  intro o poisoned b after heard
  have hid := id_of_find hfind
  have hcur : (s.completing r).cur = r.slotId := rfl
  have hcompletes : ∀ u, r.returned = true → r.class0 = false → completeBody r (s.completing r) = .ok u →
      exec (.returningOperationComplete n) s = .next { u with cur := s.cur } := fun u hret hclass =>
    exec_complete_ok hfind hret hpeers hsplit hclass halive
  refine ⟨?_, ?_, ?_, ?_, ?_, ?_, ?_, ?_⟩
  · intro p win signed d w bad hop hres
    obtain ⟨u, hu, hstep⟩ := completeBody_load r (s.completing r) hop hres hcur
    obtain ⟨hmem, hc, hreqs, hother, hsame⟩ := hstep.delivered hid
    exact ⟨_, hcompletes u (by simp [Req.returned, Req.acked, hop, hres, happ]) (by simp [Req.class0, hop]) hu, hmem, hc, hreqs, hother, hsame⟩
  · intro ls win v pops ws bad hop hres
    obtain ⟨u, hu, hstep⟩ := completeBody_vload r (s.completing r) hop hres hcur
    obtain ⟨hmem, hc, hreqs, hother, hsame⟩ := hstep.delivered hid
    have hget : (({ u with cur := s.cur } : State).getSlot o).getV v = fillLanes ((s.getSlot o).getV v) ws := by
      rw [hsame]
      exact Slot.getV_setV _ _ _
    refine ⟨_, hcompletes u (by simp [Req.returned, Req.acked, hop, hres, happ]) (by simp [Req.class0, hop]) hu, hmem, hc, hreqs, hother, ?_, ?_⟩
    · rw [hget]
      exact hsame
    · intro j
      rw [hget]
      exact fillLanes_get _ _ _
  · intro ls win v pops ws i hop hres hv c elem
    have hret : r.returned = true := by simp [Req.returned, Req.acked, hop, hres, happ]
    have hclass : r.class0 = false := by simp [Req.class0, hop]
    have hpushing : (s.completing r).pushing r = c := by
      rw [completing_of_no_writes hid (by simp [Req.writes, hop])]
      cases hreg : r.registered <;> simp only [c, State.pushing, hreg] <;> rfl
    have hc : c.cur = o := by
      rw [← hpushing]
      exact (State.hears_cur _ _).trans ((contextStep_sampleIf _ o r.registered r.core 1).cur.trans hcur)
    have hbody := completeBody_push r (s.completing r) hop hres ((streamOf_pushing hcur v).trans hv)
    rw [hpushing] at hbody
    have helem : elem = fillLanes VVal.zero ws := fillLanes_zero ws
    refine ⟨fun u w ev hpop hpush => ?_, fun u w hpop => ?_⟩
    · have hw : w.cur = o := (pushStream_cur hpush).trans ((popStreams_cur hpop).trans hc)
      refine hcompletes ((w.complete o).withEvents ev) hret hclass ?_
      rw [hbody, hpop]
      change (pushStream u i (fillLanes VVal.zero ws)).bind _ = _
      rw [← helem, hpush]
      change completeWith w ev = _
      rw [completeWith, hw]
    · rw [exec_complete_deliver hfind hret hpeers hsplit, deliver_alive hclass halive, hbody, hpop]
      exact ⟨_, rfl, rfl⟩
  · intro p sc d w hop hres
    obtain ⟨u, hu, hstep, hrlb⟩ := completeBody_acq r (s.completing r) hop hres hcur
    obtain ⟨hmem, hc, hreqs, hother, hsame⟩ := hstep.delivered hid
    exact ⟨_, hcompletes u (by simp [Req.returned, Req.acked, hop, hres, happ]) (by simp [Req.class0, hop]) hu, hmem, hreqs, hsame, hrlb⟩
  · intro p fn x dOld order d w hop hres
    have hret : r.returned = true := by simp [Req.returned, Req.acked, hop, hres, happ]
    have hclass : r.class0 = false := by simp [Req.class0, hop]
    refine ⟨fun hev => ?_, fun horder => ?_⟩
    · obtain ⟨u, hu, hstep, hrlb⟩ := completeBody_amo r (s.completing r) hop hres hev hcur
      obtain ⟨hmem, hc, hreqs, hother, hsame⟩ := hstep.delivered hid
      exact ⟨_, hcompletes u hret hclass hu, hmem, hreqs, hsame, hrlb⟩
    · have hcompleting : s.completing r = { (s.dropReq n).dropWalks [(p.key, p.len)] with cur := o } := by
        simp [State.completing, Req.writes, hop, hid, o]
      refine hcompletes (((((b (some 3)).dropWalks [(p.key, p.len)]).fillX d w).complete o).withEvents (flagEvents r.fpEvents)) hret hclass ?_
      unfold completeBody
      rw [hcompleting, hop, hres]
      simp only [horder]
      rfl
  · intro d a x ev w hop hres
    refine hcompletes ((((b none).fillX d w).complete o).withEvents ev) (by simp [Req.returned, Req.acked, hop, hres, happ])
      (by simp [Req.class0, hop]) ?_
    unfold completeBody
    rw [completing_of_no_writes hid (by simp [Req.writes, hop]), hop, hres]
    rfl
  · intro d v a x ev w hop hres
    obtain ⟨u, hu, hstep⟩ := completeBody_rand r (s.completing r) hop hres hcur
    obtain ⟨hmem, hc, hreqs, hother, hsame⟩ := hstep.delivered hid
    exact ⟨_, hcompletes u (by simp [Req.returned, Req.acked, hop, hres, happ]) (by simp [Req.class0, hop]) hu, hmem, hreqs, hsame⟩
  · intro p sc d w hop hres hmode hsvec
    have hbody : completeBody r (s.completing r) = .error (.sup 0x0012 r.ea) := by
      unfold completeBody
      rw [hop, hres]
      rfl
    obtain ⟨hreqs, hslot⟩ := getSlot_takeSup_user (s := s.completing r) (o := o) 0x0012 r.ea (s.getSlot o).pc hmode
      ((codeOk_iff _).mpr hsvec)
    refine ⟨{ (s.completing r).takeSup o 0x0012 r.ea (s.getSlot o).pc with cur := s.cur }, ?_, ?_, ?_⟩
    · rw [exec_complete_deliver hfind (by simp [Req.returned, Req.acked, hop, hres, happ]) hpeers hsplit,
        deliver_alive (by simp [Req.class0, hop]) halive, hbody]
      rfl
    · rw [← hid]
      exact hreqs
    · have hget : ({ (s.completing r).takeSup o 0x0012 r.ea (s.getSlot o).pc with cur := s.cur } : State).getSlot o = _ := hslot
      rw [hget]
      exact ⟨rfl, rfl, rfl, rfl, rfl, rfl⟩

/-! ### An `mcast` over memory that is not in canonical form (R241, R369)

`TransferEngine` asks for no canonical memory where it gives the bytes that an `mcast` leaves. It lists the writes byte by byte, each to
every member; the machine's run lands member by member (`groupParts`). The two orders leave the same list of cells only where the
list is canonical. -/

/-- The entry of a multicast group: the cores of columns 1 and 2 in row 0 of the die, for tenant 0 (R368). -/
def pairEntry : Word := BitVec.ofNat 64 (2 ^ 63 + 1 * 2 ^ 18 + 2 * 2 ^ 24)

/-- An `mcast` of the two bytes at own offset 0 to offset 0 of each member, its snapshot taken (R185, R369). -/
def pairCast : XferCmd :=
  { own := { slot := 0, gen := 0, pc := 0, after := 0 }, kind := .mcast, blk := 0, xfer := 0,
    block := (List.replicate 64 0).set 0x30 2, msg := [], handler := none, prog := 0, started := true, opMade := false,
    shp := Vector.replicate 16 0, snapshot := some pairEntry, snapAt := 0, taken := false }

/-- The module after reset, but that core 0 runs the `mcast`, and memory lists three cells of which the last stands out of order: source
byte 1, byte 0 of the second member, and the byte at physical address 0. -/
def unsortedCast : State :=
  { State.reset.copyRuns 0 (some pairCast) with mem := [(localKey 0 1, 5), (localKey 2 0, 9), (0, 7)] }

/-- The members of the group (R368). -/
theorem mcastMembers_pairEntry : mcastMembers pairEntry (dieOf 0) = [1, 2] := by decide +kernel

/-- What the machine's run leaves: both bytes land at the first member before the zero byte removes the second member's cell. -/
theorem mem_exec_unsortedCast : (resState (exec (.copyRunDelivered 0) unsortedCast) unsortedCast).mem =
    [(localKey 0 1, 5), (localKey 1 1, 5), (0, 7), (localKey 2 1, 5)] := by decide +kernel

/-- No member of the group has saved itself. -/
theorem saved_unsortedCast (m : CoreId) (h : m ∈ mcastMembers pairEntry (dieOf 0)) : (unsortedCast.getCore m).saved = false := by
  rw [mcastMembers_pairEntry, List.mem_cons, List.mem_singleton] at h
  rcases h with rfl | rfl <;> rfl

/-- Refutes O52: memory that is not in canonical form tells the two orders of an `mcast`'s writes apart. From `unsortedCast` the machine lands the
run member by member and leaves the cells of `mem_exec_unsortedCast`; the statement lists the writes byte by byte, so that the zero byte
removes the second member's cell first. The clause lacks the hypothesis `MemoryCanonical`. -/
theorem not_transferEngine : ¬ Obligations.TransferEngine := by
  unfold Obligations.TransferEngine
  rintro ⟨-, -, hdelivered, -, -⟩
  obtain ⟨-, -, -, hmcast, -⟩ := hdelivered unsortedCast 0 pairCast rfl rfl rfl rfl rfl rfl rfl
  obtain ⟨-, hsnapshot⟩ := hmcast rfl (by decide +kernel)
  obtain ⟨-, -, -, hrun⟩ := hsnapshot pairEntry rfl
  obtain ⟨t, hexec, hmem, -⟩ := hrun 0 0 (by decide +kernel) (by decide +kernel) (by decide +kernel) rfl saved_unsortedCast
    (by decide +kernel) (by decide +kernel) (by decide +kernel) (by decide +kernel)
  have hstated : t.mem = [(localKey 0 1, 5), (0, 7), (localKey 1 1, 5), (localKey 2 1, 5)] := hmem.trans (by decide +kernel)
  have hlanded : t.mem = [(localKey 0 1, 5), (localKey 1 1, 5), (0, 7), (localKey 2 1, 5)] := by
    have hleft := mem_exec_unsortedCast
    rw [hexec] at hleft
    exact hleft
  exact absurd (hstated.symm.trans hlanded) (by decide +kernel)

end Sys2Proof.Machine

/-! Draws (O35): ten rounds of Philox or an entry of a table, what a context finds of its own bytes on their way, the numbers of `unif` and
`vunif`, and the four instructions. -/

namespace Sys2Proof.Machine

open Sys2Proof

/-! ### Philox (R64) -/

/-- The four words of the generator as numbers. -/
def wordsNat (c : (Word32 × Word32) × (Word32 × Word32)) : Nat × Nat × Nat × Nat := (c.1.1.toNat, c.1.2.toNat, c.2.1.toNat, c.2.2.toNat)

/-- A word's high half, as a number. -/
theorem toNat_highHalf (w : Word) : (w.extractLsb' 32 32).toNat = w.toNat / 2 ^ 32 := by
  rw [BitVec.extractLsb'_toNat, Nat.shiftRight_eq_div_pow]
  omega

/-- A product of two 32-bit numbers is exact in 64 bits. -/
theorem toNat_wideProduct (m : Nat) (x : Word32) (hm : m < 2 ^ 32) : (BitVec.ofNat 64 m * x.setWidth 64).toNat = m * x.toNat := by
  have hx := x.isLt
  have hlt : m * x.toNat < 2 ^ 64 := lt_of_lt_of_eq (Nat.mul_lt_mul'' hm hx) (by decide)
  rw [BitVec.toNat_mul, BitVec.toNat_ofNat, BitVec.toNat_setWidth, Nat.mod_eq_of_lt (by omega : m < 2 ^ 64),
    Nat.mod_eq_of_lt (by omega : x.toNat < 2 ^ 64), Nat.mod_eq_of_lt hlt]

/-- A round on numbers is the round on words. -/
theorem philoxRound_eq_specRound (k c d : Word32 × Word32) :
    philoxRound k.1.toNat k.2.toNat c.1.toNat c.2.toNat d.1.toNat d.2.toNat = wordsNat (specRound k c d) := by
  have hp : ((0xD2511F53 : Word) * c.1.setWidth 64).toNat = 0xD2511F53 * c.1.toNat := toNat_wideProduct 0xD2511F53 c.1 (by decide)
  have hq : ((0xCD9E8D57 : Word) * d.1.setWidth 64).toNat = 0xCD9E8D57 * d.1.toNat := toNat_wideProduct 0xCD9E8D57 d.1 (by decide)
  simp only [philoxRound, wordsNat, specRound, BitVec.toNat_xor, toNat_highHalf, BitVec.toNat_setWidth, hp, hq]

/-- Rounds on numbers are the rounds on words, the key raised modulo 2^32 after each. -/
theorem philox_eq_specRounds (n : Nat) (k : Word32 × Word32) (c : (Word32 × Word32) × (Word32 × Word32)) :
    philox n k.1.toNat k.2.toNat (wordsNat c) = wordsNat (specRounds n k c) := by
  induction n generalizing k c with
  | zero => rfl
  | succ n ih =>
    calc philox (n + 1) k.1.toNat k.2.toNat (wordsNat c)
        = philox n (k.1 + 0x9E3779B9).toNat (k.2 + 0xBB67AE85).toNat (wordsNat (specRound k c.1 c.2)) := by
          rw [← philoxRound_eq_specRound, BitVec.toNat_add, BitVec.toNat_add]
          rfl
      _ = wordsNat (specRounds (n + 1) k c) := ih (k.1 + 0x9E3779B9, k.2 + 0xBB67AE85) (specRound k c.1 c.2)

/-- The draw on numbers is the draw on words. -/
theorem philoxDraw_eq_specDraw (seed ctr : Word) (core : CoreId) (slot : SlotNo) :
    philoxDraw seed ctr core slot = specDraw seed ctr core slot := by
  have hcounter : ((ctr.toNat % 2 ^ 32, ctr.toNat / 2 ^ 32, core.toNat * 16 + slot.toNat, 0) : Nat × Nat × Nat × Nat) =
      wordsNat ((ctr.setWidth 32, ctr.extractLsb' 32 32), ((core ++ slot).setWidth 32, 0)) := by
    have happend := mul_two_pow_add_toNat core slot
    have hsize := (core ++ slot).isLt
    simp only [wordsNat, toNat_highHalf, BitVec.toNat_setWidth, ← happend]
    rw [Nat.mod_eq_of_lt (by omega : core.toNat * 2 ^ 4 + slot.toNat < 2 ^ 32)]
    rfl
  have hkey : (seed.setWidth 32).toNat = seed.toNat % 2 ^ 32 := BitVec.toNat_setWidth _ _
  unfold philoxDraw specDraw
  dsimp only
  rw [hcounter, ← hkey, ← toNat_highHalf, philox_eq_specRounds 10 (seed.setWidth 32, seed.extractLsb' 32 32)]
  simp only [wordsNat]
  rw [mul_two_pow_add_toNat, BitVec.ofNat_toNat, BitVec.setWidth_eq]

/-! ### What a context finds of its own bytes (R65, R244, R245, R307) -/

/-- Nothing written leaves bytes as they were. -/
@[simp] theorem overlay_nil (k : Nat) (bs : List Byte) : overlay k bs [] = bs := by
  refine List.ext_getElem (by simp [overlay]) fun i _ hi => ?_
  simp [overlay, hi]

/-- A piece over a whole range of bytes replaces them. -/
theorem overlay_whole (k : Nat) {bs cs : List Byte} (h : bs.length = cs.length) : overlay k bs [(k, cs)] = cs := by
  refine List.ext_getElem (by simp [overlay, h]) fun i _ hi => ?_
  simp [overlay, hi]

/-- A range of bytes read is as long as asked. -/
@[simp] theorem length_memReads (m : List Host.Cell) (k n : Nat) : (memReads m k n).length = n := by
  rw [memReads_eq, List.length_map, List.length_range]

section
variable {s : State} {o : SlotId}

/-- A context with nothing on its way reads memory. -/
theorem ctxRead_of_no_reqs (k n : Nat) (h : s.reqsOf o = []) : s.ctxRead o k n = memReads s.mem k n := by
  rw [State.ctxRead, h, List.flatMap_nil, overlay_nil]

/-- A context with nothing on its way finds the poison of memory. -/
theorem ctxPoison_of_no_reqs (k n : Nat) (h : s.reqsOf o = []) : s.ctxPoison o k n = s.poisonAt k n := by
  simp [State.ctxPoison, State.poisonAt, h, covers]

variable {r : Req} {k : Nat} {bs : List Byte} {rel : Option (BitVec 3)}

/-- The bytes of a store on its way. -/
theorem pendingBytes_store {ps : List (Nat × List Byte)} (hop : r.op = .store ps rel) (happ : r.applied = false) :
    r.pendingBytes = ps := by
  simp [Req.pendingBytes, hop, happ]

/-- A doubleword that a store on its way replaces whole is clean for its context (R307). -/
theorem ctxPoison_of_stored (hr : r ∈ s.reqsOf o) (hop : r.op = .store [(k, bs)] rel) (happ : r.applied = false)
    (hlen : bs.length = 8) (hk : k % 8 = 0) : s.ctxPoison o k 8 = none := by
  simp only [State.ctxPoison, List.find?_eq_none, Bool.and_eq_true, decide_eq_true_eq, Bool.not_eq_true', not_and, Bool.not_eq_false]
  intro g _ hg
  have hsame : k = 8 * g := by omega
  refine List.any_eq_true.mpr ⟨(k, bs), List.mem_flatMap.mpr ⟨r, hr, ?_⟩, ?_⟩
  · rw [pendingBytes_store hop happ]
    exact List.mem_singleton_self _
  · simp [hsame, hlen]

/-- A context whose one request is a store of a range of bytes reads what it stores (R245). -/
theorem ctxRead_of_stored {n : Nat} (hone : s.reqsOf o = [r]) (hop : r.op = .store [(k, bs)] rel) (happ : r.applied = false)
    (hlen : bs.length = n) : s.ctxRead o k n = bs := by
  rw [State.ctxRead, hone, List.flatMap_singleton, pendingBytes_store hop happ,
    overlay_whole k ((length_memReads _ _ _).trans hlen.symm)]

/-- A request that its home has applied, and a plain store, delay no read of their context (R244, R245). -/
theorem delays_of_applied_or_store (p : Piece) (h : r.applied = true ∨ r.isStore = true) : r.delays p = false := by
  rcases h with happ | hstore
  · simp [Req.delays, happ]
  · have hreads : r.reads = [] := by
      unfold Req.isStore at hstore
      split at hstore
      · next hop => simp [Req.reads, hop]
      · cases hstore
    simp [Req.delays, hstore, hreads, piecesMeet]

end

/-- A read of own local memory that nothing delays and that meets no poison (R65). -/
theorem readOwn_ok {s : State} {off n : Nat} (hreqs : ∀ r ∈ s.reqsOf s.cur, r.applied = true ∨ r.isStore = true)
    (hclean : s.ctxPoison s.cur (localKey s.cur.core off) n = none) :
    readOwn s off n = .ok (s.ctxRead s.cur (localKey s.cur.core off) n) := by
  have hnone : (s.reqsOf s.cur).any (·.delays { key := localKey s.cur.core off, len := n }) = false :=
    List.any_eq_false.mpr fun r hr => by simp [delays_of_applied_or_store _ (hreqs r hr)]
  simp [readOwn, hnone, hclean]

/-! ### The draw (R63-R65) -/

/-- A draw in Philox mode (R64). -/
theorem draw_philox {s : State} (h : s.slot.rsrc = false) :
    draw s = .ok (s.modSlot (fun l => { l with rctr := l.rctr + 1 }), specDraw s.core.seed s.slot.rctr s.cur.core s.cur.slot) := by
  simp [draw, h, philoxDraw_eq_specDraw]

section
variable {s : State} (hsrc : s.slot.rsrc = true)
include hsrc

/-- A table of no entries is RANGE (R65). -/
theorem draw_table_empty (hlen : s.slot.rtlen = 0) : draw s = .error (.sup 0x0311 (s.slot.rtbase.setWidth 64)) := by
  simp [draw, hsrc, hlen, trapFault, FKind.scause]

variable (hlen : s.slot.rtlen ≠ 0)
include hlen

/-- A misaligned table is ALIGN (R65). -/
theorem draw_table_misaligned (hal : s.slot.rtbase.toNat % 8 ≠ 0) : draw s = .error (.sup 0x0511 (s.slot.rtbase.setWidth 64)) := by
  simp only [draw, hsrc, if_true, if_neg hlen, if_pos hal]
  rfl

variable (hal : s.slot.rtbase.toNat % 8 = 0)
include hal

/-- An entry past local memory is RANGE (R65). -/
theorem draw_table_outside (hoff : 0x60000 ≤ s.slot.rtbase.toNat + 8 * s.slot.rtidx.toNat) :
    draw s = .error (.sup 0x0311 (BitVec.ofNat 64 (s.slot.rtbase.toNat + 8 * s.slot.rtidx.toNat))) := by
  have h : localSize ≤ s.slot.rtbase.toNat + 8 * s.slot.rtidx.toNat := hoff
  simp only [draw, hsrc, if_true, if_neg hlen, hal, ne_eq, not_true_eq_false, if_false, if_pos h]
  rfl

/-- A draw of a table's entry, which its context's own stores may be replacing (R65). -/
theorem draw_table_entry (hoff : s.slot.rtbase.toNat + 8 * s.slot.rtidx.toNat < 0x60000)
    (hreqs : ∀ r ∈ s.reqsOf s.cur, r.applied = true ∨ r.isStore = true)
    (hclean : s.ctxPoison s.cur (localKey s.cur.core (s.slot.rtbase.toNat + 8 * s.slot.rtidx.toNat)) 8 = none) :
    draw s = .ok ((s.noteOwn [{ key := localKey s.cur.core (s.slot.rtbase.toNat + 8 * s.slot.rtidx.toNat), len := 8 }]).modSlot fun l =>
        { l with rtidx := BitVec.ofNat 16 ((l.rtidx.toNat + 1) % l.rtlen.toNat) },
      BitVec.ofNat 64 (leNat (s.ctxRead s.cur (localKey s.cur.core (s.slot.rtbase.toNat + 8 * s.slot.rtidx.toNat)) 8))) := by
  have hinside : ¬localSize ≤ s.slot.rtbase.toNat + 8 * s.slot.rtidx.toNat := Nat.not_le.mpr hoff
  simp only [draw, hsrc, if_true, if_neg hlen, hal, ne_eq, not_true_eq_false, if_false, if_neg hinside, readOwnNat,
    readOwn_ok hreqs hclean, bind, Except.bind]

end

/-- Two bodies in sequence stop where the first does, or where the second does after it. -/
theorem body_bind_eq_error {α β : Type} {x : Body α} {f : α → Body β} {e : Stop} :
    (x >>= f) = .error e ↔ x = .error e ∨ ∃ a, x = .ok a ∧ f a = .error e := by
  cases x <;> simp [bind, Except.bind]

/-- A read of own local memory that waits has changed nothing (R9). -/
theorem readOwn_wait {s t : State} {off n : Nat} {w : WaitRec} (h : readOwn s off n = .error (.wait t w)) : t = s := by
  unfold readOwn at h
  dsimp only at h
  split at h
  · cases h
    rfl
  · split at h <;> cases h

/-- A draw that waits has changed nothing (R9). -/
theorem draw_wait {s t : State} {w : WaitRec} (h : draw s = .error (.wait t w)) : t = s := by
  unfold draw at h
  dsimp only at h
  split at h
  · split at h
    · cases h
    split at h
    · cases h
    split at h
    · cases h
    rcases body_bind_eq_error.mp h with h | ⟨v, -, h⟩
    · rcases body_bind_eq_error.mp h with h | ⟨bs, -, h⟩
      · exact readOwn_wait h
      · cases h
    · cases h
  · cases h

/-- Draws one of which waits leave the acting context (R63). -/
theorem draws_wait_cur {n : Nat} {s t : State} {w : WaitRec} (h : draws s n = .error (.wait t w)) : t.cur = s.cur := by
  induction n generalizing s with
  | zero => cases h
  | succ n ih =>
    rcases body_bind_eq_error.mp h with h | ⟨⟨s₁, v⟩, hdraw, h⟩
    · rw [draw_wait h]
    · rcases body_bind_eq_error.mp h with h | ⟨_, -, h⟩
      · exact (ih h).trans (draw_cur hdraw)
      · cases h

/-! ### Numbers that a format holds exactly (R40, R66) -/

section
variable {f : Fmt}

/-- A pattern of a normal exponent field `ex` and a fraction field `fr`, its sign bit clear (R40). -/
theorem Fmt.decode_normal (hf : f.e4m3 = false) {ex fr : Nat} (hpos : 0 < ex) (hex : ex < f.emax) (hfr : fr < 2 ^ f.fbits) :
    f.decode (ex * 2 ^ f.fbits + fr) = .fin false (2 ^ f.fbits + fr) ((ex : Int) - f.bias - f.fbits) := by
  have hlt : ex < 2 ^ f.ebits := by unfold Fmt.emax at hex; omega
  have hquot : (ex * 2 ^ f.fbits + fr) / 2 ^ f.fbits = ex := by
    rw [Nat.mul_comm, Nat.mul_add_div (Nat.two_pow_pos _), Nat.div_eq_of_lt hfr, Nat.add_zero]
  have hfrac : (ex * 2 ^ f.fbits + fr) % 2 ^ f.fbits = fr := by rw [Nat.mul_add_mod_self_right, Nat.mod_eq_of_lt hfr]
  have hsign : (ex * 2 ^ f.fbits + fr) / f.signBit = 0 := by
    rw [Fmt.signBit, Nat.add_comm f.ebits, Nat.pow_add, ← Nat.div_div_eq_div_mul, hquot, Nat.div_eq_of_lt hlt]
  simp [Fmt.decode, hquot, hfrac, hsign, Nat.mod_eq_of_lt hlt, hf, hex.ne, hpos.ne']

/-- A mantissa moved up so that its leading bit is bit `k`. -/
theorem normalized_bounds {m k : Nat} (hm : m ≠ 0) (hk : m.log2 ≤ k) :
    2 ^ k ≤ m * 2 ^ (k - m.log2) ∧ m * 2 ^ (k - m.log2) < 2 ^ (k + 1) := by
  have hsplit : ∀ j, 2 ^ (m.log2 + j) * 2 ^ (k - m.log2) = 2 ^ (k + j) := fun j => by rw [← Nat.pow_add]; congr 1; omega
  have hbase := hsplit 0
  simp only [Nat.add_zero] at hbase
  rw [← hbase, ← hsplit 1]
  exact ⟨Nat.mul_le_mul_right _ (Nat.log2_self_le hm), Nat.mul_lt_mul_of_pos_right Nat.lt_log2_self (Nat.two_pow_pos _)⟩

variable {m : Nat} {e : Int} (hf : f.e4m3 = false) (hm : m ≠ 0) (hlen : m.log2 ≤ f.fbits)
  (hlow : 1 - (f.bias : Int) ≤ m.log2 + e) (hhigh : (m.log2 : Int) + e + f.bias < f.emax)
include hf hm hlen hlow hhigh

/-- A number whose bits all fit, of a normal exponent, is rounded to its own fields: nothing is lost (R44). -/
theorem Fmt.round_exact (mode : RMode) : (f.round mode false m e).bits =
    ((m.log2 : Int) + e + f.bias).toNat * 2 ^ f.fbits + (m * 2 ^ (f.fbits - m.log2) - 2 ^ f.fbits) := by
  obtain ⟨hge, hlt⟩ := normalized_bounds hm hlen
  have hq : max ((bitLen m : Int) - 1 + e) (1 - f.bias) - f.fbits = (m.log2 : Int) + e - f.fbits := by
    simp only [bitLen, hm, if_false]
    omega
  have hfits : (m.log2 : Int) + e - f.fbits ≤ e := by omega
  have hshift : (e - ((m.log2 : Int) + e - f.fbits)).toNat = f.fbits - m.log2 := by omega
  have hinside : ¬(((f.emax : Int) - 1 - f.bias - f.fbits ≤ (m.log2 : Int) + e - f.fbits) ∧
      2 ^ (f.fbits + 1) - 1 <
        m * 2 ^ (f.fbits - m.log2) * 2 ^ ((m.log2 : Int) + e - f.fbits - ((f.emax : Int) - 1 - f.bias - f.fbits)).toNat) := by
    rintro ⟨hle, hbig⟩
    rw [show ((m.log2 : Int) + e - f.fbits - ((f.emax : Int) - 1 - f.bias - f.fbits)).toNat = 0 by omega, Nat.pow_zero, Nat.mul_one] at hbig
    omega
  have hpos := Nat.two_pow_pos f.fbits
  unfold Fmt.round
  simp only [hq, hf, hfits, hshift, Bool.false_eq_true, if_false, if_true, Bool.and_eq_true, decide_eq_true_eq, hinside]
  rw [if_neg (by omega), if_neg (by omega), if_neg (by omega), if_neg (by omega)]
  simp only [Fmt.zero, Bool.false_eq_true, if_false, Nat.add_zero]
  congr 3
  omega

/-- The pattern of such a number leaves the sign bit clear. -/
theorem Fmt.round_exact_lt (mode : RMode) : (f.round mode false m e).bits < f.signBit := by
  obtain ⟨hge, hlt⟩ := normalized_bounds hm hlen
  rw [Nat.pow_succ] at hlt
  have hex : ((m.log2 : Int) + e + f.bias).toNat + 1 ≤ 2 ^ f.ebits := by unfold Fmt.emax at hhigh; omega
  have hmul := Nat.mul_le_mul_right (2 ^ f.fbits) hex
  rw [Nat.add_mul, Nat.one_mul] at hmul
  rw [Fmt.round_exact hf hm hlen hlow hhigh, Fmt.signBit, Nat.pow_add]
  omega

/-- The pattern of such a number decodes to it (R40, R44). -/
theorem Fmt.decode_round_exact (mode : RMode) : f.decode (f.round mode false m e).bits =
    .fin false (m * 2 ^ (f.fbits - m.log2)) ((m.log2 : Int) + e - f.fbits) := by
  obtain ⟨hge, hlt⟩ := normalized_bounds hm hlen
  rw [Nat.pow_succ] at hlt
  rw [Fmt.round_exact hf hm hlen hlow hhigh, Fmt.decode_normal hf (by omega) (by omega) (by omega)]
  congr 1 <;> omega

end

/-- The uniform k * 2^-(F + 1) of a number `k` of F + 1 bits, F those of the format's fraction, is exact in a word of `n` bits (R66). -/
theorem Fmt.decode_uniform {f : Fmt} {k n : Nat} {e q : Int} (hf : f.e4m3 = false) (hk : k ≠ 0) (hsize : k < 2 ^ (f.fbits + 1))
    (he : e = -(f.fbits + 1)) (hq : q = 2 * f.fbits + 1) (hlow : f.fbits + 2 ≤ f.bias) (hhigh : f.bias ≤ f.emax)
    (hword : f.signBit ≤ 2 ^ n) :
    f.decode (BitVec.ofNat n (f.round .rne false k e).bits).toNat = .fin false (k * 2 ^ (f.fbits - k.log2)) ((k.log2 : Int) - q) := by
  have hlog : k.log2 < f.fbits + 1 := (Nat.log2_lt hk).mpr hsize
  have hlen : k.log2 ≤ f.fbits := Nat.le_of_lt_succ hlog
  have hleast : 1 - (f.bias : Int) ≤ k.log2 + e := by omega
  have hmost : (k.log2 : Int) + e + f.bias < f.emax := by omega
  have hbits := Fmt.round_exact_lt hf hk hlen hleast hmost .rne
  rw [BitVec.toNat_ofNat, Nat.mod_eq_of_lt (hbits.trans_le hword), Fmt.decode_round_exact hf hk hlen hleast hmost]
  congr 1
  omega

/-- The pick uniform of a draw: 0, or the FP64 number k * 2^-53 of its top 53 bits (R66). -/
theorem decode_pick64 (w : Word) :
    (w.toNat / 2048 = 0 → BitVec.ofNat 64 (pick64 w) = 0) ∧
    (w.toNat / 2048 ≠ 0 → fp64.decode (BitVec.ofNat 64 (pick64 w)).toNat =
      .fin false (w.toNat / 2048 * 2 ^ (52 - (w.toNat / 2048).log2)) (((w.toNat / 2048).log2 : Int) - 105)) := by
  unfold pick64
  refine ⟨fun hk => by rw [if_pos hk]; rfl, fun hk => ?_⟩
  rw [if_neg hk]
  have hsize : w.toNat / 2048 < 2 ^ (fp64.fbits + 1) := by simp only [fp64]; omega
  exact Fmt.decode_uniform rfl hk hsize rfl rfl (by decide) (by decide) (by decide)

/-- The pick uniform of a 32-bit word: 0, or the FP32 number k * 2^-24 of its top 24 bits (R66). -/
theorem decode_pick32 {w : Nat} (hw : w < 2 ^ 32) :
    (w / 256 = 0 → BitVec.ofNat 32 (pick32 w) = 0) ∧
    (w / 256 ≠ 0 → fp32.decode (BitVec.ofNat 32 (pick32 w)).toNat =
      .fin false (w / 256 * 2 ^ (23 - (w / 256).log2)) (((w / 256).log2 : Int) - 47)) := by
  unfold pick32
  refine ⟨fun hk => by rw [if_pos hk]; rfl, fun hk => ?_⟩
  rw [if_neg hk]
  have hsize : w / 256 < 2 ^ (fp32.fbits + 1) := by simp only [fp32]; omega
  exact Fmt.decode_uniform rfl hk hsize rfl rfl (by decide) (by decide) (by decide)

/-- Lane `i` of the lanes of a function is its value there (R151). -/
theorem laneOf_lanes (f : Nat → Word32) {i : Nat} (h : i < 16) : laneOf (lanes f) i = f i := by
  simp [laneOf, lanes, Vector.getD, h]

/-! ### The instructions (R165, R240) -/

/-- A body that leaves its context held leaves its own state (R9, R165). -/
theorem finish_held (s t : State) : finish s (.error (.held t)) = .next t := rfl

/-- An instruction that waits leaves its slot as it was, but for the wait (R9). -/
theorem slot_setWait_undoSlot {s t : State} (w : WaitRec) (h : t.cur = s.cur) :
    ((s.undoSlot t).setWait w).slot = { s.slot with wait := some w } := by
  have hback : (s.undoSlot t).slot = s.slot := by
    rw [State.slot, State.undoSlot]
    exact (congrArg _ h).trans (State.getSlot_onSlot t s.cur fun _ => s.slot)
  rw [State.setWait, State.slot_modSlot, hback]

/-- A context with a request on its way that holds it, and that no cause interrupts, may not act (R123, R150). -/
theorem canTurn_of_held {s : State} {o : SlotId} {r : Req} (hr : r ∈ s.reqsOf o) (hblocks : r.blocks = true)
    (hint : r.interruptible = false) : s.canTurn o = false := by
  have hmem : r ∈ (s.reqsOf o).filter (·.blocks) := List.mem_filter.mpr ⟨hr, hblocks⟩
  have hempty : ((s.reqsOf o).filter (·.blocks)).isEmpty = false := by
    rw [List.isEmpty_eq_false_iff]
    exact List.ne_nil_of_mem hmem
  have hall : ((s.reqsOf o).filter (·.blocks)).all (·.interruptible) = false := by
    rw [List.all_eq_false]
    exact ⟨r, hmem, by simp [hint]⟩
  simp [State.canTurn, hempty, hall]

/-- A draw on its way holds its context until its registers are full (R165, R240). -/
theorem canTurn_of_draw_sent {r : Res} {t u : State} {v : Option VReg} {d : XReg} {p : BitVec 16} {x : VVal} {ev : Events} {res : ReqRes}
    (hsent : r = .next (t.sendAnswered 0 (.rand v d p x ev) res)) (hu : r = .next u) : u.canTurn u.cur = false := by
  cases hsent.symm.trans hu
  refine canTurn_of_held (r := t.newReq 0 (.rand v d p x ev) true res) (List.mem_filter.mpr ⟨?_, ?_⟩) rfl rfl
  · exact List.mem_append_right _ (List.mem_singleton_self _)
  · show (decide (t.cur.core = t.cur.core) && decide (t.cur.slot = t.cur.slot) && decide (t.slot.gen = t.slot.gen)) = true
    simp

section
variable {s t : State} {o : RD} (g : Word → Word)

/-- A full destination passes the issue rule of a scalar draw (R21). -/
theorem issueRule_draw (hfull : s.slot.xIsFull o.d = true) : issueRule s [] [.x o.d] = .ok () :=
  issueRule_full s [] [o.d] (by simp) (by simpa using hfull)

/-- A scalar draw that is taken (R240). -/
theorem scalarDraw_ok {w : Word} (hfull : s.slot.xIsFull o.d = true) (h : draw s = .ok (t, w)) :
    scalarDraw o g s = .next ((t.emptyX o.d).sendAnswered 0 (.rand none o.d 0 VVal.zero Events.zero) (.word (g w) false)) := by
  unfold scalarDraw
  rw [issueRule_draw hfull, h]
  rfl

/-- A scalar draw ends as its draw does where that stops (R9). -/
theorem scalarDraw_error {e : Stop} (hfull : s.slot.xIsFull o.d = true) (h : draw s = .error e) :
    scalarDraw o g s = finish s (.error e) := by
  unfold scalarDraw
  rw [issueRule_draw hfull, h]
  rfl

end

section
variable {s t : State} {o : V0} (g : Nat → Nat)

/-- A vector draw ends as its draws do where one stops (R9). -/
theorem vectorDraw_error {e : Stop} (hissue : issueRule s [] [.v o.vd] = .ok ()) (h : draws s 8 = .error e) :
    vectorDraw o g s = finish s (.error e) := by
  unfold vectorDraw
  rw [hissue, h]
  rfl

/-- A vector draw into a register (R165). -/
theorem vectorDraw_register {ws : List Word} (hissue : issueRule s [] [.v o.vd] = .ok ()) (h : draws s 8 = .ok (t, ws))
    (hv : t.slot.streamOf o.vd = none) :
    vectorDraw o g s = .next ((t.modSlot fun l => l.markV o.vd false).sendAnswered 0
      (.rand (some o.vd) 0 (s.slot.getP o.p) (drawLanes ws g) Events.zero) (.word 0 false)) := by
  unfold vectorDraw
  rw [hissue, h]
  simp only [bind, Except.bind, hv]
  rfl

/-- A vector draw into an output stream is pushed at issue (R154, R165). -/
theorem vectorDraw_stream {u : State} {ws : List Word} {i : Fin 4} {ev : Events} (hissue : issueRule s [] [.v o.vd] = .ok ())
    (h : draws s 8 = .ok (t, ws)) (hv : t.slot.streamOf o.vd = some i)
    (hpush : writeV t o.vd (s.slot.getP o.p) (drawLanes ws g) = .ok (u, ev)) :
    vectorDraw o g s = .next (u.sendAnswered 0 (.rand none 0 (s.slot.getP o.p) VVal.zero ev) (.word 0 false)) := by
  unfold vectorDraw
  rw [hissue, h]
  simp only [bind, Except.bind, hv, Option.isSome_some, if_true, hpush]
  rfl

/-- A full v register that is no stream passes the issue rule of a vector draw (R21, R25). -/
theorem issueRule_vectorDraw (hv : s.slot.streamOf o.vd = none) (hfull : s.slot.vIsFull o.vd = true) :
    issueRule s [] [.v o.vd] = .ok () :=
  (issueRule_ok_iff s [] [.v o.vd]).mpr (by simp [Slot.wrongWay, State.dstReady, hv, hfull])

end

/-- Settles O35: the draw by its mode and the checks of its table, then each instruction by what its draws answer. -/
theorem randomDraws : Obligations.RandomDraws := by
  unfold Obligations.RandomDraws
  refine ⟨fun s hsrc => draw_philox hsrc, fun s hsrc => ⟨draw_table_empty hsrc, draw_table_misaligned hsrc, draw_table_outside hsrc,
      fun hnone => ⟨ctxRead_of_no_reqs _ _ hnone, ctxPoison_of_no_reqs _ _ hnone⟩,
      fun r hr bs rel hop happ hlen hk => ⟨ctxPoison_of_stored hr hop happ hlen hk, fun hone => ctxRead_of_stored hone hop happ hlen⟩,
      draw_table_entry hsrc⟩,
    fun s t o w hfull hdraw => ?_, fun s o sc a hfull hdraw => ⟨?_, ?_⟩, fun s t w o r => ⟨fun hdraw hfull => ?_, fun hdraws hissue => ?_⟩,
    fun s t u o ws i ev hissue hdraws hv hpush => vectorDraw_stream id hissue hdraws hv hpush,
    fun s t o ws hv hfull hdraws hv' _ => ?_⟩
  · have hrand : exec (.rand o) s = _ := scalarDraw_ok id hfull hdraw
    have hunif : exec (.unif o) s = _ := scalarDraw_ok (fun w => BitVec.ofNat 64 (pick64 w)) hfull hdraw
    exact ⟨fun u hu => hu.elim (canTurn_of_draw_sent hrand) (canTurn_of_draw_sent hunif), hrand, _, hunif, decode_pick64 w⟩
  · exact scalarDraw_error id hfull hdraw
  · exact scalarDraw_error (fun w => BitVec.ofNat 64 (pick64 w)) hfull hdraw
  · exact ⟨_, scalarDraw_error id hfull hdraw, scalarDraw_error (fun w => BitVec.ofNat 64 (pick64 w)) hfull hdraw,
      slot_setWait_undoSlot w (congrArg State.cur (draw_wait hdraw))⟩
  · exact ⟨_, vectorDraw_error id hissue hdraws, vectorDraw_error pick32 hissue hdraws, slot_setWait_undoSlot w (draws_wait_cur hdraws)⟩
  · have hissue := issueRule_vectorDraw hv hfull
    have hrand : exec (.vrand o) s = _ := vectorDraw_register id hissue hdraws hv'
    have hunif : exec (.vunif o) s = _ := vectorDraw_register pick32 hissue hdraws hv'
    refine ⟨fun u hu => hu.elim (canTurn_of_draw_sent hrand) (canTurn_of_draw_sent hunif), hrand, _, hunif, fun i hi => ?_⟩
    rw [drawLanes, laneOf_lanes _ hi]
    exact decode_pick32 (Nat.mod_lt _ (by decide))

end Sys2Proof.Machine

/-! Instruction words: the layout of every operand form, and from it that the decoder and the encoder are inverse (O1, O2); words written
out (O3), the software traps (O12) and what a mode may not run or reach (O14). -/

namespace Sys2Proof.Encoding

open Sys2Proof

/-! ### Words as lists of fields (R67) -/

/-- A field of a word: its width and its bits. -/
abbrev WordField := (n : Nat) × BitVec n

/-- A flag bit. -/
def flag (b : Bool) : WordField := ⟨1, BitVec.ofBool b⟩

/-- Bits that hold no operand, which are zero (R70). -/
def gap (n : Nat) : WordField := ⟨n, 0#n⟩

/-- The number whose fields from bit 0 up are those listed. -/
def pack : List WordField → Nat
  | [] => 0
  | p :: l => p.2.toNat + 2 ^ p.1 * pack l

/-- The number of bits of the fields listed. -/
def span : List WordField → Nat
  | [] => 0
  | p :: l => p.1 + span l

/-- The fields of `w` from bit `lo` up are those listed. -/
def Holds (w : Nat) : Nat → List WordField → Prop
  | _, [] => True
  | lo, p :: l => BitVec.ofNat p.1 (fld w lo p.1) = p.2 ∧ Holds w (lo + p.1) l

/-- What a list packs to fits in its bits. -/
theorem pack_lt (l : List WordField) : pack l < 2 ^ span l := by
  induction l with
  | nil => exact Nat.one_pos
  | cons p l ih =>
    have hp := p.2.isLt
    rw [pack, span, pow_add]
    nlinarith

/-- A number is its fields: read one by one they are those listed exactly when the number is what the list packs to. -/
theorem holds_iff (l : List WordField) {w lo : Nat} (hw : w < 2 ^ (lo + span l)) : Holds w lo l ↔ w / 2 ^ lo = pack l := by
  induction l generalizing lo with
  | nil => simpa [Holds, pack, span] using hw
  | cons p l ih =>
    rw [Holds, ih (by rwa [Nat.add_assoc]), pack, pow_add, ← Nat.div_div_eq_div_mul, ← BitVec.toNat_inj, BitVec.toNat_ofNat, fld,
      Nat.mod_mod]
    have hsplit := Nat.mod_add_div (w / 2 ^ lo) (2 ^ p.1)
    refine ⟨fun ⟨h, k⟩ => by rw [← h, ← k, hsplit], fun h => ?_⟩
    rw [h, Nat.add_mul_mod_self_left, Nat.mod_eq_of_lt p.2.isLt, Nat.add_mul_div_left _ _ (Nat.two_pow_pos _),
      Nat.div_eq_of_lt p.2.isLt, Nat.zero_add]
    exact ⟨rfl, rfl⟩

/-- What a list packs to has the fields listed. -/
theorem holds_pack {l : List WordField} : Holds (pack l) 0 l :=
  (holds_iff l (by simpa using pack_lt l)).mpr (Nat.div_one _)

/-- The fields listed, which are all of a word's, make the word. -/
theorem eq_pack_of_holds {l : List WordField} {w : Nat} (hw : w < 2 ^ span l) (h : Holds w 0 l) : w = pack l := by
  simpa using (holds_iff l (by simpa using hw)).mp h

/-! ### WordFields as bit vectors -/

/-- A field fits in its width. -/
theorem fld_lt (w lo n : Nat) : fld w lo n < 2 ^ n := Nat.mod_lt _ (Nat.two_pow_pos n)

/-- A field as a bit vector has its value. -/
theorem toNat_fld (w lo n : Nat) : (BitVec.ofNat n (fld w lo n)).toNat = fld w lo n := by
  rw [BitVec.toNat_ofNat, Nat.mod_eq_of_lt (fld_lt w lo n)]

/-- A field is a bit vector exactly when it has the vector's value. -/
theorem ofNat_fld_eq_iff {w lo n : Nat} {v : BitVec n} : BitVec.ofNat n (fld w lo n) = v ↔ fld w lo n = v.toNat := by
  rw [← BitVec.toNat_inj, toNat_fld]

/-- A field of one bit is the flag that the decoder reads from it. -/
theorem ofNat_fld_eq_ofBool {w lo : Nat} {b : Bool} : BitVec.ofNat 1 (fld w lo 1) = BitVec.ofBool b ↔ bf w lo = b := by
  have := fld_lt w lo 1
  rw [ofNat_fld_eq_iff, BitVec.toNat_ofBool, bf, beq_eq_decide]
  cases b
  · rw [decide_eq_false_iff_not, Bool.toNat_false]; omega
  · rw [decide_eq_true_iff, Bool.toNat_true]

/-! The lists below are read by these rules, one for each kind of field. -/

@[simp] theorem pack_nil : pack [] = 0 := rfl

@[simp] theorem pack_field (n : Nat) (v : BitVec n) (l : List WordField) : pack (⟨n, v⟩ :: l) = v.toNat + 2 ^ n * pack l := rfl

@[simp] theorem pack_flag (b : Bool) (l : List WordField) : pack (flag b :: l) = bn b + 2 * pack l := by
  cases b <;> rfl

@[simp] theorem pack_gap (n : Nat) (l : List WordField) : pack (gap n :: l) = 2 ^ n * pack l := by
  simp [gap]

@[simp] theorem holds_nil (w lo : Nat) : Holds w lo [] := trivial

@[simp] theorem holds_field {w lo n : Nat} {v : BitVec n} {l : List WordField} :
    Holds w lo (⟨n, v⟩ :: l) ↔ BitVec.ofNat n (fld w lo n) = v ∧ Holds w (lo + n) l := Iff.rfl

@[simp] theorem holds_flag {w lo : Nat} {b : Bool} {l : List WordField} :
    Holds w lo (flag b :: l) ↔ bf w lo = b ∧ Holds w (lo + 1) l := by
  rw [flag, holds_field, ofNat_fld_eq_ofBool]

@[simp] theorem holds_gap {w lo n : Nat} {l : List WordField} : Holds w lo (gap n :: l) ↔ fld w lo n = 0 ∧ Holds w (lo + n) l := by
  rw [gap, holds_field, ofNat_fld_eq_iff, BitVec.toNat_zero]

/-- A check passed on the way to an instruction (R93). -/
@[simp] theorem need_eq_ok {c : Bool} {r : Reject} {k : Decoded} {i : Instr} : need c r k = .ok i ↔ c = true ∧ k = .ok i := by
  cases c <;> simp [need]

/-! ### Operand forms -/

/-- An operand form: the decoder's reader `get`, the encoder's writer `put`, the func field of `n` bits at bit `lo` (`n` is 0 for a major
without funcs), the check `ok` on the operands, and the layout `lay`, which lists the fields of a word of major `M`, func `f` and operands
`o` (R67, R70, R93). -/
structure Form {O : Type} (get : Nat → (O → Instr) → Decoded) (put : O → Nat) (lo n : Nat) (ok : O → Prop)
    (lay : BitVec 7 → BitVec n → O → List WordField) : Prop where
  /-- The layout fills a word. -/
  span_eq M f o : span (lay M f o) = 32
  /-- The encoder writes the layout. -/
  packs M f o : pack (lay M f o) = M.toNat * 2 ^ 25 + f.toNat * 2 ^ lo + put o
  /-- The decoder reads from the layout what stands there. -/
  reads w mk M f o : ok o → Holds w 0 (lay M f o) →
    BitVec.ofNat 7 (fld w 25 7) = M ∧ BitVec.ofNat n (fld w lo n) = f ∧ get w mk = .ok (mk o)
  /-- A word that the decoder reads has the layout of what it read. -/
  holds w mk i : get w mk = .ok i →
    ∃ o, (ok o ∧ Holds w 0 (lay (BitVec.ofNat 7 (fld w 25 7)) (BitVec.ofNat n (fld w lo n)) o)) ∧ mk o = i

namespace Form

variable {O : Type} {get : Nat → (O → Instr) → Decoded} {put : O → Nat} {lo n : Nat} {ok : O → Prop}
  {lay : BitVec 7 → BitVec n → O → List WordField}

/-- The word of a major, a func and operands holds all three, and its operands are read back. -/
theorem get_put (F : Form get put lo n ok lay) {base w : Nat} {o : O} (hbase : base = fld base 25 7 * 2 ^ 25 + fld base lo n * 2 ^ lo)
    (hw : w = base + put o) (ho : ok o) (mk : O → Instr) :
    w < 2 ^ 32 ∧ fld w 25 7 = fld base 25 7 ∧ fld w lo n = fld base lo n ∧ get w mk = .ok (mk o) := by
  have hpack := F.packs (BitVec.ofNat 7 (fld base 25 7)) (BitVec.ofNat n (fld base lo n)) o
  rw [toNat_fld, toNat_fld, ← hbase, ← hw] at hpack
  obtain ⟨hM, hf, hget⟩ := F.reads w mk _ _ o ho (hpack ▸ holds_pack)
  rw [ofNat_fld_eq_iff, toNat_fld] at hM hf
  exact ⟨hpack ▸ F.span_eq _ _ o ▸ pack_lt _, hM, hf, hget⟩

/-- A word whose operands are read is the one that they are written to. -/
theorem put_of_get (F : Form get put lo n ok lay) {w : Nat} {mk : O → Instr} {i : Instr} (hw : w < 2 ^ 32) (h : get w mk = .ok i) :
    ∃ o, ok o ∧ mk o = i ∧ w = fld w 25 7 * 2 ^ 25 + fld w lo n * 2 ^ lo + put o := by
  obtain ⟨o, ⟨ho, hold⟩, hi⟩ := F.holds w mk i h
  have hpack := eq_pack_of_holds (by rwa [F.span_eq]) hold
  rw [F.packs, toNat_fld, toNat_fld] at hpack
  exact ⟨o, ho, hi, hpack⟩

end Form

/-! The checks on operands, said of the fields of a word (R77, R88, R91). -/

/-- A bit field that fits, said of its two fields. -/
theorem bitFieldFits_fld (w i j : Nat) :
    bitFieldFits (BitVec.ofNat 6 (fld w i 6)) (BitVec.ofNat 6 (fld w j 6)) = true ↔ fld w i 6 + fld w j 6 < 64 := by
  rw [bitFieldFits, decide_eq_true_iff, toNat_fld, toNat_fld, ← Nat.add_assoc, Nat.succ_le_iff]

/-- A listed rounding code, said of its field. -/
theorem roundingListed_fld (w i : Nat) : roundingListed (BitVec.ofNat 2 (fld w i 2)) = true ↔ fld w i 2 ≠ 3 := by
  rw [roundingListed, bne_iff_ne, ne_eq, ofNat_fld_eq_iff]; rfl

/-- A register that starts a pair, said of its field. -/
theorem pairRegister_fld (w : Nat) : pairRegister (xf w 20) = true ↔ fld w 20 1 = 0 ∧ fld w 20 5 ≠ 0 := by
  have hlow : fld w 20 5 % 2 = fld w 20 1 := Nat.mod_mod_of_dvd _ (by decide)
  simp [pairRegister, xf, ofNat_fld_eq_iff, hlow]

/-- Operands of R form with d, a and b (R67, R71). -/
theorem formR3 : Form getR3 putR3 2 8 (fun _ => True)
    fun M f o => [flag o.wb, flag o.wa, ⟨8, f⟩, ⟨5, o.b⟩, ⟨5, o.a⟩, ⟨5, o.d⟩, ⟨7, M⟩] where
  span_eq _ _ _ := rfl
  packs M f o := by simp only [pack_nil, pack_field, pack_flag, putR3]; ring
  reads w mk M f o ho h := by simp_all [getR3, xf]
  holds w mk i h := by simp only [getR3, Except.ok.injEq] at h; exact ⟨_, by simp_all [xf], h⟩

/-- Operands of R form with d and a. -/
theorem formR2 : Form getR2 putR2 2 8 (fun _ => True)
    fun M f o => [gap 1, flag o.wa, ⟨8, f⟩, gap 5, ⟨5, o.a⟩, ⟨5, o.d⟩, ⟨7, M⟩] where
  span_eq _ _ _ := rfl
  packs M f o := by simp only [pack_nil, pack_field, pack_flag, pack_gap, putR2]; ring
  reads w mk M f o ho h := by simp_all [getR2, xf]
  holds w mk i h := by simp only [getR2, need_eq_ok, Except.ok.injEq] at h; exact ⟨_, by simp_all [xf], h.2⟩

/-- Operands of R form with a and b. -/
theorem formRAB : Form getRAB putRAB 2 8 (fun _ => True)
    fun M f o => [flag o.wb, flag o.wa, ⟨8, f⟩, ⟨5, o.b⟩, ⟨5, o.a⟩, gap 5, ⟨7, M⟩] where
  span_eq _ _ _ := rfl
  packs M f o := by simp only [pack_nil, pack_field, pack_flag, pack_gap, putRAB]; ring
  reads w mk M f o ho h := by simp_all [getRAB, xf]
  holds w mk i h := by simp only [getRAB, need_eq_ok, Except.ok.injEq] at h; exact ⟨_, by simp_all [xf], h.2⟩

/-- Operands of R form with a. -/
theorem formRA : Form getRA putRA 2 8 (fun _ => True)
    fun M f o => [gap 1, flag o.wa, ⟨8, f⟩, gap 5, ⟨5, o.a⟩, gap 5, ⟨7, M⟩] where
  span_eq _ _ _ := rfl
  packs M f o := by simp only [pack_nil, pack_field, pack_flag, pack_gap, putRA]; ring
  reads w mk M f o ho h := by simp_all [getRA, xf]
  holds w mk i h := by simp only [getRA, need_eq_ok, Except.ok.injEq] at h; exact ⟨_, by simp_all [xf], h.2⟩

/-- Operands of R form with d. -/
theorem formRD : Form getRD putRD 2 8 (fun _ => True)
    fun M f o => [gap 1, gap 1, ⟨8, f⟩, gap 5, gap 5, ⟨5, o.d⟩, ⟨7, M⟩] where
  span_eq _ _ _ := rfl
  packs M f o := by simp only [pack_nil, pack_field, pack_gap, putRD]; ring
  reads w mk M f o ho h := by simp_all [getRD, xf]
  holds w mk i h := by simp only [getRD, need_eq_ok, Except.ok.injEq] at h; exact ⟨_, by simp_all [xf], h.2⟩

/-- Operands of a word with no operand. -/
theorem formR0 : Form getR0 putR0 2 8 (fun _ => True)
    fun M f _ => [gap 1, gap 1, ⟨8, f⟩, gap 5, gap 5, gap 5, ⟨7, M⟩] where
  span_eq _ _ _ := rfl
  packs M f o := by simp only [pack_nil, pack_field, pack_gap, putR0]; ring
  reads w mk M f o ho h := by simp_all [getR0]
  holds w mk i h := by simp only [getR0, need_eq_ok, Except.ok.injEq] at h; exact ⟨_, by simp_all, h.2⟩

/-- Operands of I form: d, a and imm13. -/
theorem formIOp : Form getIOp putIOp 0 0 (fun _ => True)
    fun M f o => [⟨0, f⟩, gap 1, flag o.wa, ⟨13, o.imm⟩, ⟨5, o.a⟩, ⟨5, o.d⟩, ⟨7, M⟩] where
  span_eq _ _ _ := rfl
  packs M f o := by simp only [pack_nil, pack_field, pack_flag, pack_gap, putIOp]; ring
  reads w mk M f o ho h := by simp_all [getIOp, xf]
  holds w mk i h := by simp only [getIOp, need_eq_ok, Except.ok.injEq] at h; exact ⟨_, by simp_all [xf], h.2⟩

/-- Operands of I form with a shift amount 0-63 (R77). -/
theorem formShOp : Form getShOp putShOp 0 0 (fun _ => True)
    fun M f o => [⟨0, f⟩, gap 1, flag o.wa, ⟨6, o.n⟩, gap 7, ⟨5, o.a⟩, ⟨5, o.d⟩, ⟨7, M⟩] where
  span_eq _ _ _ := rfl
  packs M f o := by simp only [pack_nil, pack_field, pack_flag, pack_gap, putShOp]; ring
  reads w mk M f o ho h := by simp_all [getShOp, xf]
  holds w mk i h := by simp only [getShOp, need_eq_ok, Except.ok.injEq] at h; exact ⟨_, by simp_all [xf], h.2.2⟩

/-- Operands of `bfx`: pos, len - 1 and s (R77). -/
theorem formBfxOp : Form getBfxOp putBfxOp 0 0 (fun o => bitFieldFits o.pos o.len1 = true)
    fun M f o => [⟨0, f⟩, gap 1, flag o.wa, flag o.s, ⟨6, o.len1⟩, ⟨6, o.pos⟩, ⟨5, o.a⟩, ⟨5, o.d⟩, ⟨7, M⟩] where
  span_eq _ _ _ := rfl
  packs M f o := by simp only [pack_nil, pack_field, pack_flag, pack_gap, putBfxOp]; ring
  reads w mk M f o ho h := by
    have hfits := bitFieldFits_fld w 9 3
    simp_all [getBfxOp, xf]
  holds w mk i h := by simp only [getBfxOp, need_eq_ok, Except.ok.injEq] at h; exact ⟨_, by simp_all [xf, bitFieldFits_fld], h.2.2⟩

/-- Operands of `bfi`: pos and len - 1 (R77). -/
theorem formBfiOp : Form getBfiOp putBfiOp 0 0 (fun o => bitFieldFits o.pos o.len1 = true)
    fun M f o => [⟨0, f⟩, gap 1, flag o.wa, gap 1, ⟨6, o.len1⟩, ⟨6, o.pos⟩, ⟨5, o.a⟩, ⟨5, o.d⟩, ⟨7, M⟩] where
  span_eq _ _ _ := rfl
  packs M f o := by simp only [pack_nil, pack_field, pack_flag, pack_gap, putBfiOp]; ring
  reads w mk M f o ho h := by
    have hfits := bitFieldFits_fld w 9 3
    simp_all [getBfiOp, xf]
  holds w mk i h := by simp only [getBfiOp, need_eq_ok, Except.ok.injEq] at h; exact ⟨_, by simp_all [xf, bitFieldFits_fld], h.2.2⟩

/-- Operands of U form. -/
theorem formUOp : Form getUOp putUOp 0 0 (fun _ => True)
    fun M f o => [⟨0, f⟩, ⟨20, o.imm⟩, ⟨5, o.d⟩, ⟨7, M⟩] where
  span_eq _ _ _ := rfl
  packs M f o := by simp only [pack_nil, pack_field, putUOp]; ring
  reads w mk M f o ho h := by simp_all [getUOp, xf]
  holds w mk i h := by simp only [getUOp, Except.ok.injEq] at h; exact ⟨_, by simp_all [xf], h⟩

/-- Operands of B form: a, b and off13. -/
theorem formBOp : Form getBOp putBOp 0 0 (fun _ => True)
    fun M f o => [⟨0, f⟩, flag o.wb, flag o.wa, ⟨13, o.off⟩, ⟨5, o.a⟩, ⟨5, o.b⟩, ⟨7, M⟩] where
  span_eq _ _ _ := rfl
  packs M f o := by simp only [pack_nil, pack_field, pack_flag, putBOp]; ring
  reads w mk M f o ho h := by simp_all [getBOp, xf]
  holds w mk i h := by simp only [getBOp, Except.ok.injEq] at h; exact ⟨_, by simp_all [xf], h⟩

/-- Operands of J form. -/
theorem formJOp : Form getJOp putJOp 0 0 (fun _ => True)
    fun M f o => [⟨0, f⟩, ⟨20, o.off⟩, ⟨5, o.d⟩, ⟨7, M⟩] where
  span_eq _ _ _ := rfl
  packs M f o := by simp only [pack_nil, pack_field, putJOp]; ring
  reads w mk M f o ho h := by simp_all [getJOp, xf]
  holds w mk i h := by simp only [getJOp, Except.ok.injEq] at h; exact ⟨_, by simp_all [xf], h⟩

/-- Operands of `loop`: a and off13 (R78). -/
theorem formLoopOp : Form getLoopOp putLoopOp 0 0 (fun _ => True)
    fun M f o => [⟨0, f⟩, gap 1, flag o.wa, ⟨13, o.off⟩, ⟨5, o.a⟩, gap 5, ⟨7, M⟩] where
  span_eq _ _ _ := rfl
  packs M f o := by simp only [pack_nil, pack_field, pack_flag, pack_gap, putLoopOp]; ring
  reads w mk M f o ho h := by simp_all [getLoopOp, xf]
  holds w mk i h := by simp only [getLoopOp, need_eq_ok, Except.ok.injEq] at h; exact ⟨_, by simp_all [xf], h.2⟩

/-- Operands of `lix`: d (R78). -/
theorem formLixOp (lit : Word32) : Form (fun w mk => getLixOp w lit mk) putLixOp 0 0 (fun o => o.lit = lit)
    fun M f o => [⟨0, f⟩, gap 1, gap 1, gap 8, gap 5, gap 5, ⟨5, o.d⟩, ⟨7, M⟩] where
  span_eq _ _ _ := rfl
  packs M f o := by simp only [pack_nil, pack_field, pack_gap, putLixOp]; ring
  reads w mk M f o ho h := by subst ho; simp_all [getLixOp, xf]
  holds w mk i h := by simp only [getLixOp, need_eq_ok, Except.ok.injEq] at h; exact ⟨_, by simp_all [xf], h.2⟩

/-- Operands of acquire load: scope and signed offset (R79). -/
theorem formAcqOp : Form getAcqOp putAcqOp 0 0 (fun _ => True)
    fun M f o => [⟨0, f⟩, gap 1, flag o.wa, ⟨10, o.off⟩, ⟨3, o.scope⟩, ⟨5, o.a⟩, ⟨5, o.d⟩, ⟨7, M⟩] where
  span_eq _ _ _ := rfl
  packs M f o := by simp only [pack_nil, pack_field, pack_flag, pack_gap, putAcqOp]; ring
  reads w mk M f o ho h := by simp_all [getAcqOp, xf]
  holds w mk i h := by simp only [getAcqOp, need_eq_ok, Except.ok.injEq] at h; exact ⟨_, by simp_all [xf], h.2⟩

/-- Operands of release store: scope and signed offset (R79). -/
theorem formRelOp : Form getRelOp putRelOp 0 0 (fun _ => True)
    fun M f o => [⟨0, f⟩, flag o.wb, flag o.wa, ⟨10, o.off⟩, ⟨3, o.scope⟩, ⟨5, o.a⟩, ⟨5, o.b⟩, ⟨7, M⟩] where
  span_eq _ _ _ := rfl
  packs M f o := by simp only [pack_nil, pack_field, pack_flag, putRelOp]; ring
  reads w mk M f o ho h := by simp_all [getRelOp, xf]
  holds w mk i h := by simp only [getRelOp, Except.ok.injEq] at h; exact ⟨_, by simp_all [xf], h⟩

/-- Operands of S form: b the data, a the base. -/
theorem formSOp : Form getSOp putSOp 0 0 (fun _ => True)
    fun M f o => [⟨0, f⟩, flag o.wb, flag o.wa, ⟨13, o.imm⟩, ⟨5, o.a⟩, ⟨5, o.b⟩, ⟨7, M⟩] where
  span_eq _ _ _ := rfl
  packs M f o := by simp only [pack_nil, pack_field, pack_flag, putSOp]; ring
  reads w mk M f o ho h := by simp_all [getSOp, xf]
  holds w mk i h := by simp only [getSOp, Except.ok.injEq] at h; exact ⟨_, by simp_all [xf], h⟩

/-- Operands of VM form of `vld` (R80). -/
theorem formVldOp : Form getVldOp putVldOp 0 0 (fun _ => True)
    fun M f o => [⟨0, f⟩, gap 1, flag o.wa, ⟨11, o.imm⟩, ⟨3, o.p⟩, ⟨5, o.a⟩, ⟨4, o.v⟩, ⟨7, M⟩] where
  span_eq _ _ _ := rfl
  packs M f o := by simp only [pack_nil, pack_field, pack_flag, pack_gap, putVldOp]; ring
  reads w mk M f o ho h := by simp_all [getVldOp, xf, vf, pf]
  holds w mk i h := by simp only [getVldOp, need_eq_ok, Except.ok.injEq] at h; exact ⟨_, by simp_all [xf, vf, pf], h.2⟩

/-- Operands of VM form of `vst` (R80). -/
theorem formVstOp : Form getVstOp putVstOp 0 0 (fun _ => True)
    fun M f o => [⟨0, f⟩, flag o.wb, flag o.wa, ⟨11, o.imm⟩, ⟨3, o.p⟩, ⟨5, o.a⟩, ⟨4, o.v⟩, ⟨7, M⟩] where
  span_eq _ _ _ := rfl
  packs M f o := by simp only [pack_nil, pack_field, pack_flag, putVstOp]; ring
  reads w mk M f o ho h := by simp_all [getVstOp, xf, vf, pf]
  holds w mk i h := by simp only [getVstOp, Except.ok.injEq] at h; exact ⟨_, by simp_all [xf, vf, pf], h⟩

/-- Operands of VX form of `vldx` and `vstx` (R80). -/
theorem formVxmOp : Form getVxmOp putVxmOp 0 0 (fun _ => True)
    fun M f o => [⟨0, f⟩, flag o.wb, flag o.wa, ⟨2, o.scale⟩, gap 5, ⟨3, o.p⟩, ⟨4, o.w⟩, ⟨5, o.x⟩, ⟨4, o.v⟩, ⟨7, M⟩] where
  span_eq _ _ _ := rfl
  packs M f o := by simp only [pack_nil, pack_field, pack_flag, pack_gap, putVxmOp]; ring
  reads w mk M f o ho h := by simp_all [getVxmOp, xf, vf, pf]
  holds w mk i h := by simp only [getVxmOp, need_eq_ok, Except.ok.injEq] at h; exact ⟨_, by simp_all [xf, vf, pf], h.2⟩

/-- Operands of `amo`: size bit and order field (R81). -/
theorem formAmoOp : Form getAmoOp putAmoOp 6 4 (fun _ => True)
    fun M f o => [flag o.wb, flag o.wa, gap 1, ⟨2, o.order⟩, flag o.size, ⟨4, f⟩, ⟨5, o.b⟩, ⟨5, o.a⟩, ⟨5, o.d⟩, ⟨7, M⟩] where
  span_eq _ _ _ := rfl
  packs M f o := by simp only [pack_nil, pack_field, pack_flag, pack_gap, putAmoOp]; ring
  reads w mk M f o ho h := by simp_all [getAmoOp, xf]
  holds w mk i h := by simp only [getAmoOp, need_eq_ok, Except.ok.injEq] at h; exact ⟨_, by simp_all [xf], h.2⟩

/-- Operands of `red`: size bit (R82). -/
theorem formRedOp : Form getRedOp putRedOp 6 4 (fun _ => True)
    fun M f o => [flag o.wb, flag o.wa, gap 3, flag o.size, ⟨4, f⟩, ⟨5, o.b⟩, ⟨5, o.a⟩, gap 5, ⟨7, M⟩] where
  span_eq _ _ _ := rfl
  packs M f o := by simp only [pack_nil, pack_field, pack_flag, pack_gap, putRedOp]; ring
  reads w mk M f o ho h := by simp_all [getRedOp, xf]
  holds w mk i h := by simp only [getRedOp, need_eq_ok, Except.ok.injEq] at h; exact ⟨_, by simp_all [xf], h.2⟩

/-- Operands of `fence`: scope (R83). -/
theorem formFenceOp : Form getFenceOp putFenceOp 8 2 (fun _ => True)
    fun M f o => [gap 1, gap 1, gap 3, ⟨3, o.scope⟩, ⟨2, f⟩, gap 5, gap 5, gap 5, ⟨7, M⟩] where
  span_eq _ _ _ := rfl
  packs M f o := by simp only [pack_nil, pack_field, pack_gap, putFenceOp]; ring
  reads w mk M f o ho h := by simp_all [getFenceOp]
  holds w mk i h := by simp only [getFenceOp, need_eq_ok, Except.ok.injEq] at h; exact ⟨_, by simp_all, h.2⟩

/-- Operands of `vfence` (R83). -/
theorem formVfenceOp : Form getVfenceOp putVfenceOp 8 2 (fun _ => True)
    fun M f _ => [gap 1, gap 1, gap 3, gap 3, ⟨2, f⟩, gap 5, gap 5, gap 5, ⟨7, M⟩] where
  span_eq _ _ _ := rfl
  packs M f o := by simp only [pack_nil, pack_field, pack_gap, putVfenceOp]; ring
  reads w mk M f o ho h := by simp_all [getVfenceOp]
  holds w mk i h := by simp only [getVfenceOp, need_eq_ok, Except.ok.injEq] at h; exact ⟨_, by simp_all, h.2⟩

/-- Operands of `postv` (R85). -/
theorem formPostvOp : Form getPostvOp putPostvOp 2 3 (fun _ => True)
    fun M f o => [flag o.wb, flag o.wa, ⟨3, f⟩, gap 4, flag o.m, ⟨5, o.b⟩, ⟨5, o.a⟩, ⟨5, o.d⟩, ⟨7, M⟩] where
  span_eq _ _ _ := rfl
  packs M f o := by simp only [pack_nil, pack_field, pack_flag, pack_gap, putPostvOp]; ring
  reads w mk M f o ho h := by simp_all [getPostvOp, xf]
  holds w mk i h := by simp only [getPostvOp, need_eq_ok, Except.ok.injEq] at h; exact ⟨_, by simp_all [xf], h.2⟩

/-- Operands of `nbinit` (R85). -/
theorem formNbinitOp : Form getNbinitOp putNbinitOp 2 3 (fun _ => True)
    fun M f o => [flag o.wb, flag o.wa, ⟨3, f⟩, gap 4, gap 1, ⟨5, o.b⟩, ⟨5, o.a⟩, gap 5, ⟨7, M⟩] where
  span_eq _ _ _ := rfl
  packs M f o := by simp only [pack_nil, pack_field, pack_flag, pack_gap, putNbinitOp]; ring
  reads w mk M f o ho h := by simp_all [getNbinitOp, xf]
  holds w mk i h := by simp only [getNbinitOp, need_eq_ok, Except.ok.injEq] at h; exact ⟨_, by simp_all [xf], h.2⟩

/-- Operands of `nbread` (R85). -/
theorem formNbreadOp : Form getNbreadOp putNbreadOp 2 3 (fun _ => True)
    fun M f o => [gap 1, flag o.wa, ⟨3, f⟩, gap 4, flag o.m, gap 5, ⟨5, o.a⟩, gap 5, ⟨7, M⟩] where
  span_eq _ _ _ := rfl
  packs M f o := by simp only [pack_nil, pack_field, pack_flag, pack_gap, putNbreadOp]; ring
  reads w mk M f o ho h := by simp_all [getNbreadOp, xf]
  holds w mk i h := by simp only [getNbreadOp, need_eq_ok, Except.ok.injEq] at h; exact ⟨_, by simp_all [xf], h.2⟩

/-- Operands of `vtest` (R85). -/
theorem formVtestOp : Form getVtestOp putVtestOp 2 3 (fun _ => True)
    fun M f o => [gap 1, flag o.wa, ⟨3, f⟩, gap 4, flag o.m, gap 5, ⟨5, o.a⟩, ⟨5, o.d⟩, ⟨7, M⟩] where
  span_eq _ _ _ := rfl
  packs M f o := by simp only [pack_nil, pack_field, pack_flag, pack_gap, putVtestOp]; ring
  reads w mk M f o ho h := by simp_all [getVtestOp, xf]
  holds w mk i h := by simp only [getVtestOp, need_eq_ok, Except.ok.injEq] at h; exact ⟨_, by simp_all [xf], h.2⟩

/-- Operands of `vcount` (R85). -/
theorem formVcountOp : Form getVcountOp putVcountOp 2 3 (fun _ => True)
    fun M f o => [gap 1, gap 1, ⟨3, f⟩, gap 4, flag o.m, gap 5, gap 5, ⟨5, o.d⟩, ⟨7, M⟩] where
  span_eq _ _ _ := rfl
  packs M f o := by simp only [pack_nil, pack_field, pack_flag, pack_gap, putVcountOp]; ring
  reads w mk M f o ho h := by simp_all [getVcountOp, xf]
  holds w mk i h := by simp only [getVcountOp, need_eq_ok, Except.ok.injEq] at h; exact ⟨_, by simp_all [xf], h.2⟩

/-- Operands of V form with three sources (R86). -/
theorem formV3 : Form getV3 putV3 2 4 (fun _ => True)
    fun M f o => [flag o.wb, flag o.wa, ⟨4, f⟩, ⟨3, o.p⟩, ⟨4, o.vc⟩, ⟨4, o.vb⟩, ⟨4, o.va⟩, ⟨4, o.vd⟩, ⟨7, M⟩] where
  span_eq _ _ _ := rfl
  packs M f o := by simp only [pack_nil, pack_field, pack_flag, putV3]; ring
  reads w mk M f o ho h := by simp_all [getV3, vf, pf]
  holds w mk i h := by simp only [getV3, Except.ok.injEq] at h; exact ⟨_, by simp_all [vf, pf], h⟩

/-- Operands of V form with two sources (R86). -/
theorem formV2 : Form getV2 putV2 2 4 (fun _ => True)
    fun M f o => [flag o.wb, flag o.wa, ⟨4, f⟩, ⟨3, o.p⟩, gap 4, ⟨4, o.vb⟩, ⟨4, o.va⟩, ⟨4, o.vd⟩, ⟨7, M⟩] where
  span_eq _ _ _ := rfl
  packs M f o := by simp only [pack_nil, pack_field, pack_flag, pack_gap, putV2]; ring
  reads w mk M f o ho h := by simp_all [getV2, vf, pf]
  holds w mk i h := by simp only [getV2, need_eq_ok, Except.ok.injEq] at h; exact ⟨_, by simp_all [vf, pf], h.2⟩

/-- Operands of V form with one source (R86). -/
theorem formV1 : Form getV1 putV1 2 4 (fun _ => True)
    fun M f o => [gap 1, flag o.wa, ⟨4, f⟩, ⟨3, o.p⟩, gap 4, gap 4, ⟨4, o.va⟩, ⟨4, o.vd⟩, ⟨7, M⟩] where
  span_eq _ _ _ := rfl
  packs M f o := by simp only [pack_nil, pack_field, pack_flag, pack_gap, putV1]; ring
  reads w mk M f o ho h := by simp_all [getV1, vf, pf]
  holds w mk i h := by simp only [getV1, need_eq_ok, Except.ok.injEq] at h; exact ⟨_, by simp_all [vf, pf], h.2⟩

/-- Operands of V form with no source (R86). -/
theorem formV0 : Form getV0 putV0 2 4 (fun _ => True)
    fun M f o => [gap 1, gap 1, ⟨4, f⟩, ⟨3, o.p⟩, gap 4, gap 4, gap 4, ⟨4, o.vd⟩, ⟨7, M⟩] where
  span_eq _ _ _ := rfl
  packs M f o := by simp only [pack_nil, pack_field, pack_gap, putV0]; ring
  reads w mk M f o ho h := by simp_all [getV0, vf, pf]
  holds w mk i h := by simp only [getV0, need_eq_ok, Except.ok.injEq] at h; exact ⟨_, by simp_all [vf, pf], h.2⟩

/-- Operands of V form with a p destination (R86). -/
theorem formVcmpOp : Form getVcmpOp putVcmpOp 2 4 (fun _ => True)
    fun M f o => [flag o.wb, flag o.wa, ⟨4, f⟩, ⟨3, o.p⟩, gap 4, ⟨4, o.vb⟩, ⟨4, o.va⟩, ⟨3, o.pd⟩, gap 1, ⟨7, M⟩] where
  span_eq _ _ _ := rfl
  packs M f o := by simp only [pack_nil, pack_field, pack_flag, pack_gap, putVcmpOp]; ring
  reads w mk M f o ho h := by simp_all [getVcmpOp, vf, pf]
  holds w mk i h := by simp only [getVcmpOp, need_eq_ok, Except.ok.injEq] at h; exact ⟨_, by simp_all [vf, pf], h.2.2⟩

/-- Operands of `vslide`: vc is the immediate n (R86). -/
theorem formVslideOp : Form getVslideOp putVslideOp 2 4 (fun _ => True)
    fun M f o => [flag o.wb, flag o.wa, ⟨4, f⟩, ⟨3, o.p⟩, ⟨4, o.n⟩, ⟨4, o.vb⟩, ⟨4, o.va⟩, ⟨4, o.vd⟩, ⟨7, M⟩] where
  span_eq _ _ _ := rfl
  packs M f o := by simp only [pack_nil, pack_field, pack_flag, putVslideOp]; ring
  reads w mk M f o ho h := by simp_all [getVslideOp, vf, pf]
  holds w mk i h := by simp only [getVslideOp, Except.ok.injEq] at h; exact ⟨_, by simp_all [vf, pf], h⟩

/-- Operands of conversion with a rounding code (R88). -/
theorem formVcvtOp : Form getVcvtOp putVcvtOp 2 4 (fun o => roundingListed o.rnd = true)
    fun M f o => [gap 1, flag o.wa, ⟨4, f⟩, ⟨3, o.p⟩, gap 2, ⟨2, o.rnd⟩, gap 4, ⟨4, o.va⟩, ⟨4, o.vd⟩, ⟨7, M⟩] where
  span_eq _ _ _ := rfl
  packs M f o := by simp only [pack_nil, pack_field, pack_flag, pack_gap, putVcvtOp]; ring
  reads w mk M f o ho h := by
    have hlisted := roundingListed_fld w 11
    simp_all [getVcvtOp, vf, pf]
  holds w mk i h := by
    simp only [getVcvtOp, need_eq_ok, Except.ok.injEq] at h
    exact ⟨_, by simp_all [vf, pf, roundingListed_fld], h.2.2⟩

/-- Operands of exact conversion (R88). -/
theorem formVcvtXOp : Form getVcvtXOp putVcvtXOp 2 4 (fun _ => True)
    fun M f o => [gap 1, flag o.wa, ⟨4, f⟩, ⟨3, o.p⟩, gap 2, gap 2, gap 4, ⟨4, o.va⟩, ⟨4, o.vd⟩, ⟨7, M⟩] where
  span_eq _ _ _ := rfl
  packs M f o := by simp only [pack_nil, pack_field, pack_flag, pack_gap, putVcvtXOp]; ring
  reads w mk M f o ho h := by simp_all [getVcvtXOp, vf, pf]
  holds w mk i h := by simp only [getVcvtXOp, need_eq_ok, Except.ok.injEq] at h; exact ⟨_, by simp_all [vf, pf], h.2.2⟩

/-- Operands of `vbcast` (R87). -/
theorem formVbcastOp : Form getVbcastOp putVbcastOp 2 7 (fun _ => True)
    fun M f o => [flag o.wb, gap 1, ⟨7, f⟩, ⟨3, o.p⟩, gap 4, ⟨5, o.x⟩, ⟨4, o.v⟩, ⟨7, M⟩] where
  span_eq _ _ _ := rfl
  packs M f o := by simp only [pack_nil, pack_field, pack_flag, pack_gap, putVbcastOp]; ring
  reads w mk M f o ho h := by simp_all [getVbcastOp, xf, vf, pf]
  holds w mk i h := by simp only [getVbcastOp, need_eq_ok, Except.ok.injEq] at h; exact ⟨_, by simp_all [xf, vf, pf], h.2⟩

/-- Operands of `vext` (R87). -/
theorem formVextOp : Form getVextOp putVextOp 2 7 (fun _ => True)
    fun M f o => [gap 1, flag o.wa, ⟨7, f⟩, gap 3, ⟨4, o.w⟩, ⟨5, o.x⟩, ⟨4, o.v⟩, ⟨7, M⟩] where
  span_eq _ _ _ := rfl
  packs M f o := by simp only [pack_nil, pack_field, pack_flag, pack_gap, putVextOp]; ring
  reads w mk M f o ho h := by simp_all [getVextOp, xf, vf]
  holds w mk i h := by simp only [getVextOp, need_eq_ok, Except.ok.injEq] at h; exact ⟨_, by simp_all [xf, vf], h.2⟩

/-- Operands of `vins` (R87). -/
theorem formVinsOp : Form getVinsOp putVinsOp 2 7 (fun _ => True)
    fun M f o => [flag o.wb, gap 1, ⟨7, f⟩, gap 3, ⟨4, o.w⟩, ⟨5, o.x⟩, ⟨4, o.v⟩, ⟨7, M⟩] where
  span_eq _ _ _ := rfl
  packs M f o := by simp only [pack_nil, pack_field, pack_flag, pack_gap, putVinsOp]; ring
  reads w mk M f o ho h := by simp_all [getVinsOp, xf, vf]
  holds w mk i h := by simp only [getVinsOp, need_eq_ok, Except.ok.injEq] at h; exact ⟨_, by simp_all [xf, vf], h.2⟩

/-- Operands of lane reduction (R87). -/
theorem formVredOp : Form getVredOp putVredOp 2 7 (fun _ => True)
    fun M f o => [gap 1, flag o.wa, ⟨7, f⟩, ⟨3, o.p⟩, gap 4, ⟨5, o.x⟩, ⟨4, o.v⟩, ⟨7, M⟩] where
  span_eq _ _ _ := rfl
  packs M f o := by simp only [pack_nil, pack_field, pack_flag, pack_gap, putVredOp]; ring
  reads w mk M f o ho h := by simp_all [getVredOp, xf, vf, pf]
  holds w mk i h := by simp only [getVredOp, need_eq_ok, Except.ok.injEq] at h; exact ⟨_, by simp_all [xf, vf, pf], h.2⟩

/-- Operands of `vpcnt` (R87). -/
theorem formVpcntOp : Form getVpcntOp putVpcntOp 2 7 (fun _ => True)
    fun M f o => [gap 1, gap 1, ⟨7, f⟩, ⟨3, o.p⟩, gap 4, ⟨5, o.x⟩, gap 4, ⟨7, M⟩] where
  span_eq _ _ _ := rfl
  packs M f o := by simp only [pack_nil, pack_field, pack_gap, putVpcntOp]; ring
  reads w mk M f o ho h := by simp_all [getVpcntOp, xf, pf]
  holds w mk i h := by simp only [getVpcntOp, need_eq_ok, Except.ok.injEq] at h; exact ⟨_, by simp_all [xf, pf], h.2⟩

/-- Operands of `mma`: tile and block base (R89). -/
theorem formMmaOp (lit : Word32) : Form (fun w mk => getMmaOp w lit mk) putMmaOp 2 3 (fun o => o.lit = lit)
    fun M f o => [gap 1, flag o.wa, ⟨3, f⟩, gap 4, flag o.tileHi, gap 5, ⟨5, o.a⟩, ⟨5, o.tileLo⟩, ⟨7, M⟩] where
  span_eq _ _ _ := rfl
  packs M f o := by simp only [pack_nil, pack_field, pack_flag, pack_gap, putMmaOp]; ring
  reads w mk M f o ho h := by subst ho; simp_all [getMmaOp, xf]
  holds w mk i h := by simp only [getMmaOp, need_eq_ok, Except.ok.injEq] at h; exact ⟨_, by simp_all [xf], h.2⟩

/-- Operands of `accld`, `accst`: tile, address and stride (R89). -/
theorem formAccOp : Form getAccOp putAccOp 2 3 (fun _ => True)
    fun M f o => [flag o.wb, flag o.wa, ⟨3, f⟩, gap 4, flag o.tileHi, ⟨5, o.b⟩, ⟨5, o.a⟩, ⟨5, o.tileLo⟩, ⟨7, M⟩] where
  span_eq _ _ _ := rfl
  packs M f o := by simp only [pack_nil, pack_field, pack_flag, pack_gap, putAccOp]; ring
  reads w mk M f o ho h := by simp_all [getAccOp, xf]
  holds w mk i h := by simp only [getAccOp, need_eq_ok, Except.ok.injEq] at h; exact ⟨_, by simp_all [xf], h.2⟩

/-- Operands of `acczero` (R89). -/
theorem formAccZOp : Form getAccZOp putAccZOp 2 3 (fun _ => True)
    fun M f o => [gap 1, gap 1, ⟨3, f⟩, gap 4, flag o.tileHi, gap 5, gap 5, ⟨5, o.tileLo⟩, ⟨7, M⟩] where
  span_eq _ _ _ := rfl
  packs M f o := by simp only [pack_nil, pack_field, pack_flag, pack_gap, putAccZOp]; ring
  reads w mk M f o ho h := by simp_all [getAccZOp]
  holds w mk i h := by simp only [getAccZOp, need_eq_ok, Except.ok.injEq] at h; exact ⟨_, by simp_all, h.2⟩

/-- Operands of `mmresume` (R89). -/
theorem formMmresOp : Form getMmresOp putMmresOp 2 3 (fun _ => True)
    fun M f o => [gap 1, flag o.wa, ⟨3, f⟩, gap 4, flag o.tileHi, gap 5, ⟨5, o.a⟩, ⟨5, o.tileLo⟩, ⟨7, M⟩] where
  span_eq _ _ _ := rfl
  packs M f o := by simp only [pack_nil, pack_field, pack_flag, pack_gap, putMmresOp]; ring
  reads w mk M f o ho h := by simp_all [getMmresOp, xf]
  holds w mk i h := by simp only [getMmresOp, need_eq_ok, Except.ok.injEq] at h; exact ⟨_, by simp_all [xf], h.2⟩

/-- Operands of `mmwait` (R89). -/
theorem formMmwaitOp : Form getMmwaitOp putMmwaitOp 2 3 (fun _ => True)
    fun M f _ => [gap 1, gap 1, ⟨3, f⟩, gap 4, gap 1, gap 5, gap 5, gap 5, ⟨7, M⟩] where
  span_eq _ _ _ := rfl
  packs M f o := by simp only [pack_nil, pack_field, pack_gap, putMmwaitOp]; ring
  reads w mk M f o ho h := by simp_all [getMmwaitOp]
  holds w mk i h := by simp only [getMmwaitOp, need_eq_ok, Except.ok.injEq] at h; exact ⟨_, by simp_all, h.2⟩

/-- Operands of `vgemv` (R90). -/
theorem formVgemvOp (lit : Word32) : Form (fun w mk => getVgemvOp w lit mk) putVgemvOp 2 8 (fun o => o.lit = lit)
    fun M f o => [gap 1, flag o.wa, ⟨8, f⟩, gap 5, ⟨5, o.a⟩, gap 5, ⟨7, M⟩] where
  span_eq _ _ _ := rfl
  packs M f o := by simp only [pack_nil, pack_field, pack_flag, pack_gap, putVgemvOp]; ring
  reads w mk M f o ho h := by subst ho; simp_all [getVgemvOp, xf]
  holds w mk i h := by simp only [getVgemvOp, need_eq_ok, Except.ok.injEq] at h; exact ⟨_, by simp_all [xf], h.2⟩

/-- Operands of `scfg`: stream and descriptor (R90). -/
theorem formScfgOp : Form getScfgOp putScfgOp 2 8 (fun _ => True)
    fun M f o => [gap 1, flag o.wa, ⟨8, f⟩, gap 5, ⟨5, o.a⟩, ⟨2, o.s⟩, gap 3, ⟨7, M⟩] where
  span_eq _ _ _ := rfl
  packs M f o := by simp only [pack_nil, pack_field, pack_flag, pack_gap, putScfgOp]; ring
  reads w mk M f o ho h := by simp_all [getScfgOp, xf]
  holds w mk i h := by simp only [getScfgOp, need_eq_ok, Except.ok.injEq] at h; exact ⟨_, by simp_all [xf], h.2⟩

/-- Operands of `sstop`, `sflush`: stream (R90). -/
theorem formStrmOp : Form getStrmOp putStrmOp 2 8 (fun _ => True)
    fun M f o => [gap 1, gap 1, ⟨8, f⟩, gap 5, gap 5, ⟨2, o.s⟩, gap 3, ⟨7, M⟩] where
  span_eq _ _ _ := rfl
  packs M f o := by simp only [pack_nil, pack_field, pack_gap, putStrmOp]; ring
  reads w mk M f o ho h := by simp_all [getStrmOp]
  holds w mk i h := by simp only [getStrmOp, need_eq_ok, Except.ok.injEq] at h; exact ⟨_, by simp_all, h.2⟩

/-- Operands of `spawn`, `migrate`: release flag, a and b (R89). -/
theorem formSpawnOp : Form getSpawnOp putSpawnOp 2 3 (fun _ => True)
    fun M f o => [flag o.wb, flag o.wa, ⟨3, f⟩, gap 4, flag o.rel, ⟨5, o.b⟩, ⟨5, o.a⟩, gap 5, ⟨7, M⟩] where
  span_eq _ _ _ := rfl
  packs M f o := by simp only [pack_nil, pack_field, pack_flag, pack_gap, putSpawnOp]; ring
  reads w mk M f o ho h := by simp_all [getSpawnOp, xf]
  holds w mk i h := by simp only [getSpawnOp, need_eq_ok, Except.ok.injEq] at h; exact ⟨_, by simp_all [xf], h.2⟩

/-- Operands of `spawnd`, `fork`: release flag and a (R89). -/
theorem formSend1Op : Form getSend1Op putSend1Op 2 3 (fun _ => True)
    fun M f o => [gap 1, flag o.wa, ⟨3, f⟩, gap 4, flag o.rel, gap 5, ⟨5, o.a⟩, gap 5, ⟨7, M⟩] where
  span_eq _ _ _ := rfl
  packs M f o := by simp only [pack_nil, pack_field, pack_flag, pack_gap, putSend1Op]; ring
  reads w mk M f o ho h := by simp_all [getSend1Op, xf]
  holds w mk i h := by simp only [getSend1Op, need_eq_ok, Except.ok.injEq] at h; exact ⟨_, by simp_all [xf], h.2⟩

/-- Operands of `callat` (R89). -/
theorem formCallatOp : Form getCallatOp putCallatOp 2 3 (fun _ => True)
    fun M f o => [flag o.wb, flag o.wa, ⟨3, f⟩, gap 4, flag o.rel, ⟨5, o.b⟩, ⟨5, o.a⟩, ⟨5, o.d⟩, ⟨7, M⟩] where
  span_eq _ _ _ := rfl
  packs M f o := by simp only [pack_nil, pack_field, pack_flag, pack_gap, putCallatOp]; ring
  reads w mk M f o ho h := by simp_all [getCallatOp, xf]
  holds w mk i h := by simp only [getCallatOp, need_eq_ok, Except.ok.injEq] at h; exact ⟨_, by simp_all [xf], h.2⟩

/-- Operands of `reply` (R89). -/
theorem formReplyOp : Form getReplyOp putReplyOp 2 3 (fun _ => True)
    fun M f o => [flag o.wb, flag o.wa, ⟨3, f⟩, gap 4, gap 1, ⟨5, o.b⟩, ⟨5, o.a⟩, gap 5, ⟨7, M⟩] where
  span_eq _ _ _ := rfl
  packs M f o := by simp only [pack_nil, pack_field, pack_flag, pack_gap, putReplyOp]; ring
  reads w mk M f o ho h := by simp_all [getReplyOp, xf]
  holds w mk i h := by simp only [getReplyOp, need_eq_ok, Except.ok.injEq] at h; exact ⟨_, by simp_all [xf], h.2⟩

/-- Operands of `done`, `trigger` (R89). -/
theorem formTaskEndOp : Form getTaskEndOp putTaskEndOp 2 3 (fun _ => True)
    fun M f _ => [gap 1, gap 1, ⟨3, f⟩, gap 4, gap 1, gap 5, gap 5, gap 5, ⟨7, M⟩] where
  span_eq _ _ _ := rfl
  packs M f o := by simp only [pack_nil, pack_field, pack_gap, putTaskEndOp]; ring
  reads w mk M f o ho h := by simp_all [getTaskEndOp]
  holds w mk i h := by simp only [getTaskEndOp, need_eq_ok, Except.ok.injEq] at h; exact ⟨_, by simp_all, h.2⟩

/-- Operands of `tsetv` (R91). -/
theorem formTsetvOp : Form getTsetvOp putTsetvOp 2 8 (fun _ => True)
    fun M f o => [flag o.wb, flag o.wa, ⟨8, f⟩, ⟨4, o.vb⟩, gap 1, ⟨5, o.a⟩, gap 5, ⟨7, M⟩] where
  span_eq _ _ _ := rfl
  packs M f o := by simp only [pack_nil, pack_field, pack_flag, pack_gap, putTsetvOp]; ring
  reads w mk M f o ho h := by simp_all [getTsetvOp, xf, vf]
  holds w mk i h := by simp only [getTsetvOp, need_eq_ok, Except.ok.injEq] at h; exact ⟨_, by simp_all [xf, vf], h.2.2⟩

/-- Operands of `tsetx` (R91). -/
theorem formTsetxOp : Form getTsetxOp putTsetxOp 2 8 (fun _ => True)
    fun M f o => [flag o.wb, flag o.wa, ⟨8, f⟩, ⟨4, o.vb⟩, gap 1, ⟨5, o.a⟩, ⟨5, o.d⟩, ⟨7, M⟩] where
  span_eq _ _ _ := rfl
  packs M f o := by simp only [pack_nil, pack_field, pack_flag, pack_gap, putTsetxOp]; ring
  reads w mk M f o ho h := by simp_all [getTsetxOp, xf, vf]
  holds w mk i h := by simp only [getTsetxOp, need_eq_ok, Except.ok.injEq] at h; exact ⟨_, by simp_all [xf, vf], h.2⟩

/-- Operands of `trap`, `brk`: the 10-bit immediate (R92). -/
theorem formTrapOp : Form getTrapOp putTrapOp 2 8 (fun _ => True)
    fun M f o => [gap 1, gap 1, ⟨8, f⟩, ⟨10, o.imm⟩, gap 5, ⟨7, M⟩] where
  span_eq _ _ _ := rfl
  packs M f o := by simp only [pack_nil, pack_field, pack_gap, putTrapOp]; ring
  reads w mk M f o ho h := by simp_all [getTrapOp]
  holds w mk i h := by simp only [getTrapOp, need_eq_ok, Except.ok.injEq] at h; exact ⟨_, by simp_all, h.2⟩

/-- Operands of `crr` (R92). -/
theorem formCrrOp : Form getCrrOp putCrrOp 0 0 (fun _ => True)
    fun M f o => [⟨0, f⟩, gap 1, gap 1, ⟨13, o.n⟩, gap 5, ⟨5, o.d⟩, ⟨7, M⟩] where
  span_eq _ _ _ := rfl
  packs M f o := by simp only [pack_nil, pack_field, pack_gap, putCrrOp]; ring
  reads w mk M f o ho h := by simp_all [getCrrOp, xf]
  holds w mk i h := by simp only [getCrrOp, need_eq_ok, Except.ok.injEq] at h; exact ⟨_, by simp_all [xf], h.2⟩

/-- Operands of `crw`, `crs`, `crc` (R92). -/
theorem formCrwOp : Form getCrwOp putCrwOp 0 0 (fun _ => True)
    fun M f o => [⟨0, f⟩, gap 1, flag o.wa, ⟨13, o.n⟩, ⟨5, o.a⟩, gap 5, ⟨7, M⟩] where
  span_eq _ _ _ := rfl
  packs M f o := by simp only [pack_nil, pack_field, pack_flag, pack_gap, putCrwOp]; ring
  reads w mk M f o ho h := by simp_all [getCrwOp, xf]
  holds w mk i h := by simp only [getCrwOp, need_eq_ok, Except.ok.injEq] at h; exact ⟨_, by simp_all [xf], h.2⟩

/-- Operands of `tnext`, which are those of R form with d, and the check that the register starts a pair (R91, R93). -/
theorem formTnext : Form (fun w mk => need (fld w 20 1 == 0 && fld w 20 5 != 0) .badImmediate (getRD w mk)) putRD 2 8
    (fun o => pairRegister o.d = true) fun M f o => [gap 1, gap 1, ⟨8, f⟩, gap 5, gap 5, ⟨5, o.d⟩, ⟨7, M⟩] where
  span_eq _ _ _ := rfl
  packs := formRD.packs
  reads w mk M f o ho h := by
    obtain ⟨hM, hf, hget⟩ := formRD.reads w mk M f o trivial h
    have hd : xf w 20 = o.d := by simp_all [xf]
    have hchecks := (pairRegister_fld w).mp (hd ▸ ho)
    simp_all
  holds w mk i h := by
    simp only [need_eq_ok] at h
    obtain ⟨o, ⟨-, hold⟩, hi⟩ := formRD.holds w mk i h.2
    have hd : xf w 20 = o.d := by simp_all [xf]
    exact ⟨o, ⟨hd ▸ (pairRegister_fld w).mpr (by simpa using h.1), hold⟩, hi⟩

/-! ### Rows of the decoder: from an instruction to its words and back (O1) -/

/-- Decoding the words of `i` gives `i` back; `lit` is the word after a one-word instruction. -/
def RoundTrips (lit : Word32) (i : Instr) : Prop :=
  (∀ w, encode i = [w] → decode w lit = .ok i) ∧ ∀ w l, encode i = [w, l] → decode w l = .ok i

/-- An event has no words. -/
theorem roundTrips_event {lit : Word32} {i : Instr} (h : encode i = []) : RoundTrips lit i := by
  simp [RoundTrips, h]

section

variable {O : Type} {get : Nat → (O → Instr) → Decoded} {put : O → Nat} {lo n : Nat} {ok : O → Prop}
  {lay : BitVec 7 → BitVec n → O → List WordField} {base : Nat} {mk : O → Instr} {o : O} {lit : Word32}

/-- A first word that a form makes is decoded when the decoder sends the major to the row, and the row the func to the form. -/
theorem Form.decode_put {row : Nat → Decoded} (F : Form get put lo n ok lay) (ho : ok o)
    (hmajor : ∀ w, fld w 25 7 = fld base 25 7 → decodeNat w lit = row w)
    (hrow : ∀ w, fld w lo n = fld base lo n → row w = get w mk)
    (hbase : base = fld base 25 7 * 2 ^ 25 + fld base lo n * 2 ^ lo) : decode (BitVec.ofNat 32 (base + put o)) lit = .ok (mk o) := by
  obtain ⟨hlt, hM, hf, hget⟩ := F.get_put hbase rfl ho mk
  have hnat : (BitVec.ofNat 32 (base + put o)).toNat = base + put o := by rw [BitVec.toNat_ofNat, Nat.mod_eq_of_lt hlt]
  unfold decode
  rw [hnat, hmajor _ hM, hrow _ hf]
  exact hget

/-- A one-word instruction of a row of the decoder. -/
theorem Form.roundTrips {row : Nat → Decoded} (F : Form get put lo n ok lay) (ho : ok o)
    (henc : encode (mk o) = word1 (base + put o)) (hrow : ∀ w, fld w lo n = fld base lo n → row w = get w mk)
    (hmajor : ∀ w, fld w 25 7 = fld base 25 7 → decodeNat w lit = row w := by exact fun w h => by rw [decodeNat, h]; rfl)
    (hbase : base = fld base 25 7 * 2 ^ 25 + fld base lo n * 2 ^ lo := by rfl) : RoundTrips lit (mk o) := by
  rw [RoundTrips, henc]
  refine ⟨fun w hw => ?_, fun w l hw => by simp [word1] at hw⟩
  obtain rfl : BitVec.ofNat 32 (base + put o) = w := List.singleton_inj.mp hw
  exact F.decode_put ho hmajor hrow hbase

/-- A two-word instruction of a row of the decoder. -/
theorem Form.roundTrips_word2 {row : Nat → Word32 → Decoded} {get : Nat → Word32 → (O → Instr) → Decoded} {litOf : O → Word32}
    (F : ∀ l, Form (fun w mk => get w l mk) put lo n (fun o => litOf o = l) lay)
    (henc : encode (mk o) = word2 (base + put o) (litOf o)) (hrow : ∀ w l, fld w lo n = fld base lo n → row w l = get w l mk)
    (hmajor : ∀ w l, fld w 25 7 = fld base 25 7 → decodeNat w l = row w l := by exact fun w l h => by rw [decodeNat, h]; rfl)
    (hbase : base = fld base 25 7 * 2 ^ 25 + fld base lo n * 2 ^ lo := by rfl) : RoundTrips lit (mk o) := by
  rw [RoundTrips, henc]
  refine ⟨fun w hw => by simp [word2] at hw, fun w l hw => ?_⟩
  obtain ⟨rfl, rfl⟩ : BitVec.ofNat 32 (base + put o) = w ∧ litOf o = l := by simpa [word2] using hw
  exact (F (litOf o)).decode_put rfl (fun w => hmajor w _) (fun w => hrow w _) hbase

end

/-- Every instruction comes back from its words, by the form and the row of the decoder that its operands and its words have. -/
theorem roundTrips (lit : Word32) (i : Instr) (h : i.WellFormed) : RoundTrips lit i := by
  cases i with
  | add | sub | mul | mulh | mulhz | div | divz | rem | remz | and_ | or_ | xor_ | andn | orn | shl | shr | sra | rotl | rotr | min_
    | max_ | minz | maxz | seq | sne | slt | sltz | sle | slez | addw | subw | mulw =>
    exact formR3.roundTrips trivial (row := decodeMajor01) rfl fun w hf => by rw [decodeMajor01, hf]; rfl
  | clz | ctz | popc | bswap => exact formR2.roundTrips trivial (row := decodeMajor01) rfl fun w hf => by rw [decodeMajor01, hf]; rfl
  | addi | andi | ori | xori | slti | sltzi | muli | jalr | ldb | ldzb | ldh | ldzh | ldw | ldzw | ldd =>
    exact formIOp.roundTrips trivial rfl fun _ _ => rfl
  | shli | shri | srai => exact formShOp.roundTrips trivial rfl fun _ _ => rfl
  | bfx => exact formBfxOp.roundTrips h rfl fun _ _ => rfl
  | bfi => exact formBfiOp.roundTrips h rfl fun _ _ => rfl
  | lui | auipc => exact formUOp.roundTrips trivial rfl fun _ _ => rfl
  | beq | bne | blt | bge | bltz | bgez => exact formBOp.roundTrips trivial rfl fun _ _ => rfl
  | jal => exact formJOp.roundTrips trivial rfl fun _ _ => rfl
  | loop => exact formLoopOp.roundTrips trivial rfl fun _ _ => rfl
  | lix => exact Form.roundTrips_word2 formLixOp rfl fun _ _ _ => rfl
  | csel => exact formR3.roundTrips trivial (row := decodeMajor1A) rfl fun w hf => by rw [decodeMajor1A, hf]; rfl
  | ldaw | ldad => exact formAcqOp.roundTrips trivial rfl fun _ _ => rfl
  | stb | sth | stw | std | jst => exact formSOp.roundTrips trivial rfl fun _ _ => rfl
  | strw | strd => exact formRelOp.roundTrips trivial rfl fun _ _ => rfl
  | vld => exact formVldOp.roundTrips trivial rfl fun _ _ => rfl
  | vst => exact formVstOp.roundTrips trivial rfl fun _ _ => rfl
  | vldx | vstx => exact formVxmOp.roundTrips trivial rfl fun _ _ => rfl
  | amoadd | amoand | amoor | amoxor | amomin | amomax | amominz | amomaxz | amoswap | amocas | amofadd | amofmin | amofmax =>
    exact formAmoOp.roundTrips trivial (row := decodeMajor34) rfl fun w hf => by rw [decodeMajor34, hf]; rfl
  | redadd | redand | redor | redxor | redmin | redmax | redminz | redmaxz | redfadd | redfmin | redfmax =>
    exact formRedOp.roundTrips trivial (row := decodeMajor35) rfl fun w hf => by rw [decodeMajor35, hf]; rfl
  | joinc => exact formR2.roundTrips trivial (row := decodeMajor36) rfl fun w hf => by rw [decodeMajor36, hf]; rfl
  | fenceAcq | fenceRel | fenceFull =>
    exact formFenceOp.roundTrips trivial (row := decodeMajor37) rfl fun w hf => by rw [decodeMajor37, hf]; rfl
  | vfence => exact formVfenceOp.roundTrips trivial (row := decodeMajor37) rfl fun w hf => by rw [decodeMajor37, hf]; rfl
  | cbinit | cbexpect | cbwait => exact formRAB.roundTrips trivial (row := decodeMajor38) rfl fun w hf => by rw [decodeMajor38, hf]; rfl
  | cbarrive => exact formRA.roundTrips trivial (row := decodeMajor38) rfl fun w hf => by rw [decodeMajor38, hf]; rfl
  | cbtwait | cbtest => exact formR3.roundTrips trivial (row := decodeMajor38) rfl fun w hf => by rw [decodeMajor38, hf]; rfl
  | wbjoin | wbwait | ctrg => exact formRAB.roundTrips trivial (row := decodeMajor39) rfl fun w hf => by rw [decodeMajor39, hf]; rfl
  | wbleave => exact formRA.roundTrips trivial (row := decodeMajor39) rfl fun w hf => by rw [decodeMajor39, hf]; rfl
  | wbarrive | wbtwait | wbget => exact formR3.roundTrips trivial (row := decodeMajor39) rfl fun w hf => by rw [decodeMajor39, hf]; rfl
  | nbinit => exact formNbinitOp.roundTrips trivial (row := decodeMajor3A) rfl fun w hf => by rw [decodeMajor3A, hf]; rfl
  | postv => exact formPostvOp.roundTrips trivial (row := decodeMajor3A) rfl fun w hf => by rw [decodeMajor3A, hf]; rfl
  | nbread => exact formNbreadOp.roundTrips trivial (row := decodeMajor3A) rfl fun w hf => by rw [decodeMajor3A, hf]; rfl
  | vtest => exact formVtestOp.roundTrips trivial (row := decodeMajor3A) rfl fun w hf => by rw [decodeMajor3A, hf]; rfl
  | vcount => exact formVcountOp.roundTrips trivial (row := decodeMajor3A) rfl fun w hf => by rw [decodeMajor3A, hf]; rfl
  | vadd | vsub | vmul | vmin | vmax | vdiv =>
    exact formV2.roundTrips trivial (row := decodeMajor40) rfl fun w hf => by rw [decodeMajor40, hf]; rfl
  | vfma | vfms => exact formV3.roundTrips trivial (row := decodeMajor40) rfl fun w hf => by rw [decodeMajor40, hf]; rfl
  | vabs | vneg | vsqrt | vexp2 | vlog2 | vfloor =>
    exact formV1.roundTrips trivial (row := decodeMajor40) rfl fun w hf => by rw [decodeMajor40, hf]; rfl
  | dadd | dsub | dmul | dmin | dmax | ddiv =>
    exact formV2.roundTrips trivial (row := decodeMajor41) rfl fun w hf => by rw [decodeMajor41, hf]; rfl
  | dfma => exact formV3.roundTrips trivial (row := decodeMajor41) rfl fun w hf => by rw [decodeMajor41, hf]; rfl
  | dsqrt | dln | dexp => exact formV1.roundTrips trivial (row := decodeMajor41) rfl fun w hf => by rw [decodeMajor41, hf]; rfl
  | viadd | visub | vimul | viand | vior | vixor | vishl | vishr | visra | vimin | vimax | viminz | vimaxz =>
    exact formV2.roundTrips trivial (row := decodeMajor42) rfl fun w hf => by rw [decodeMajor42, hf]; rfl
  | vfeq | vflt | vfle | vfne | vieq | vilt | vile | viltz =>
    exact formVcmpOp.roundTrips trivial (row := decodeMajor43) rfl fun w hf => by rw [decodeMajor43, hf]; rfl
  | vsel | vperm => exact formV2.roundTrips trivial (row := decodeMajor44) rfl fun w hf => by rw [decodeMajor44, hf]; rfl
  | vslide => exact formVslideOp.roundTrips trivial (row := decodeMajor44) rfl fun w hf => by rw [decodeMajor44, hf]; rfl
  | vmov => exact formV1.roundTrips trivial (row := decodeMajor44) rfl fun w hf => by rw [decodeMajor44, hf]; rfl
  | viota => exact formV0.roundTrips trivial (row := decodeMajor44) rfl fun w hf => by rw [decodeMajor44, hf]; rfl
  | vbcast => exact formVbcastOp.roundTrips trivial (row := decodeMajor45) rfl fun w hf => by rw [decodeMajor45, hf]; rfl
  | vext => exact formVextOp.roundTrips trivial (row := decodeMajor45) rfl fun w hf => by rw [decodeMajor45, hf]; rfl
  | vins => exact formVinsOp.roundTrips trivial (row := decodeMajor45) rfl fun w hf => by rw [decodeMajor45, hf]; rfl
  | vsum | vmaxr | vminr | visum | vdsum =>
    exact formVredOp.roundTrips trivial (row := decodeMajor45) rfl fun w hf => by rw [decodeMajor45, hf]; rfl
  | vpcnt => exact formVpcntOp.roundTrips trivial (row := decodeMajor45) rfl fun w hf => by rw [decodeMajor45, hf]; rfl
  | vcvtE4m3F32 | vcvtE5m2F32 | vcvtBf16F32 | vcvtF16F32 | vcvtI32F32 | vcvtF32I32 | vcvtF32F64 | vcvtI32F64 =>
    exact formVcvtOp.roundTrips h (row := decodeMajor46) rfl fun w hf => by rw [decodeMajor46, hf]; rfl
  | vcvtF32E4m3 | vcvtF32E5m2 | vcvtF32Bf16 | vcvtF32F16 | vcvtF64F32 | vcvtF64I32 | vcvtI8I32 | vcvtI32I8 =>
    exact formVcvtXOp.roundTrips trivial (row := decodeMajor46) rfl fun w hf => by rw [decodeMajor46, hf]; rfl
  | vrand | vunif => exact formV0.roundTrips trivial (row := decodeMajor47) rfl fun w hf => by rw [decodeMajor47, hf]; rfl
  | mmaBf16 | mmaE4m3 | mmaE5m2 | mmaXf8 =>
    exact Form.roundTrips_word2 formMmaOp (row := decodeMajor50) rfl fun w l hf => by rw [decodeMajor50, hf]; rfl
  | accld | accst => exact formAccOp.roundTrips trivial (row := decodeMajor51) rfl fun w hf => by rw [decodeMajor51, hf]; rfl
  | acczero => exact formAccZOp.roundTrips trivial (row := decodeMajor51) rfl fun w hf => by rw [decodeMajor51, hf]; rfl
  | mmresume => exact formMmresOp.roundTrips trivial (row := decodeMajor51) rfl fun w hf => by rw [decodeMajor51, hf]; rfl
  | mmwait => exact formMmwaitOp.roundTrips trivial (row := decodeMajor51) rfl fun w hf => by rw [decodeMajor51, hf]; rfl
  | vgemv => exact Form.roundTrips_word2 formVgemvOp (row := decodeMajor52) rfl fun w l hf => by rw [decodeMajor52, hf]; rfl
  | vcodes => exact formRAB.roundTrips trivial (row := (decodeMajor52 · lit)) rfl fun w hf => by rw [decodeMajor52, hf]; rfl
  | copy | gather | scatter | mcast | ata =>
    exact formR2.roundTrips trivial (row := decodeMajor54) rfl fun w hf => by rw [decodeMajor54, hf]; rfl
  | castle => exact formRA.roundTrips trivial (row := decodeMajor54) rfl fun w hf => by rw [decodeMajor54, hf]; rfl
  | scfg => exact formScfgOp.roundTrips trivial (row := decodeMajor55) rfl fun w hf => by rw [decodeMajor55, hf]; rfl
  | sstop | sflush => exact formStrmOp.roundTrips trivial (row := decodeMajor55) rfl fun w hf => by rw [decodeMajor55, hf]; rfl
  | spawn | migrate => exact formSpawnOp.roundTrips trivial (row := decodeMajor58) rfl fun w hf => by rw [decodeMajor58, hf]; rfl
  | spawnd | fork => exact formSend1Op.roundTrips trivial (row := decodeMajor58) rfl fun w hf => by rw [decodeMajor58, hf]; rfl
  | callat => exact formCallatOp.roundTrips trivial (row := decodeMajor58) rfl fun w hf => by rw [decodeMajor58, hf]; rfl
  | reply => exact formReplyOp.roundTrips trivial (row := decodeMajor58) rfl fun w hf => by rw [decodeMajor58, hf]; rfl
  | done | trigger => exact formTaskEndOp.roundTrips trivial (row := decodeMajor58) rfl fun w hf => by rw [decodeMajor58, hf]; rfl
  | tcfg | tset => exact formRAB.roundTrips trivial (row := decodeMajor60) rfl fun w hf => by rw [decodeMajor60, hf]; rfl
  | tsetv => exact formTsetvOp.roundTrips trivial (row := decodeMajor60) rfl fun w hf => by rw [decodeMajor60, hf]; rfl
  | tsetx => exact formTsetxOp.roundTrips trivial (row := decodeMajor60) rfl fun w hf => by rw [decodeMajor60, hf]; rfl
  | tget | tdesc => exact formR2.roundTrips trivial (row := decodeMajor60) rfl fun w hf => by rw [decodeMajor60, hf]; rfl
  | troot | tdraw => exact formRD.roundTrips trivial (row := decodeMajor60) rfl fun w hf => by rw [decodeMajor60, hf]; rfl
  | tbuild => exact formR0.roundTrips trivial (row := decodeMajor60) rfl fun w hf => by rw [decodeMajor60, hf]; rfl
  | tnext => exact formTnext.roundTrips h (row := decodeMajor60) rfl fun w hf => by rw [decodeMajor60, hf]; rfl
  | tthr => exact formR3.roundTrips trivial (row := decodeMajor60) rfl fun w hf => by rw [decodeMajor60, hf]; rfl
  | tcut => exact formRA.roundTrips trivial (row := decodeMajor60) rfl fun w hf => by rw [decodeMajor60, hf]; rfl
  | bsend => exact formRAB.roundTrips trivial (row := decodeMajor61) rfl fun w hf => by rw [decodeMajor61, hf]; rfl
  | tmsg => exact formR2.roundTrips trivial (row := decodeMajor61) rfl fun w hf => by rw [decodeMajor61, hf]; rfl
  | jundo | jtrim => exact formRA.roundTrips trivial (row := decodeMajor61) rfl fun w hf => by rw [decodeMajor61, hf]; rfl
  | jmark => exact formR0.roundTrips trivial (row := decodeMajor61) rfl fun w hf => by rw [decodeMajor61, hf]; rfl
  | rand | unif => exact formRD.roundTrips trivial (row := decodeMajor62) rfl fun w hf => by rw [decodeMajor62, hf]; rfl
  | nop | rfe | yield | ifence | halt =>
    exact formR0.roundTrips trivial (row := decodeMajor70) rfl fun w hf => by rw [decodeMajor70, hf]; rfl
  | trap | brk => exact formTrapOp.roundTrips trivial (row := decodeMajor70) rfl fun w hf => by rw [decodeMajor70, hf]; rfl
  | fe => exact formRAB.roundTrips trivial (row := decodeMajor70) rfl fun w hf => by rw [decodeMajor70, hf]; rfl
  | tlbinv => exact formRA.roundTrips trivial (row := decodeMajor70) rfl fun w hf => by rw [decodeMajor70, hf]; rfl
  | tlbprobe | ctrr => exact formR2.roundTrips trivial (row := decodeMajor70) rfl fun w hf => by rw [decodeMajor70, hf]; rfl
  | time => exact formRD.roundTrips trivial (row := decodeMajor70) rfl fun w hf => by rw [decodeMajor70, hf]; rfl
  | crr => exact formCrrOp.roundTrips trivial rfl fun _ _ => rfl
  | crw | crs | crc => exact formCrwOp.roundTrips trivial rfl fun _ _ => rfl
  | asyncSupervisorCause | copydone | returningOperationComplete | storeAcknowledgement | homeAccess | pageWalkComplete | cbHomeOperation
    | cbtwaitExpiry | wbJoinAck | wbPhaseCompletion | wbtwaitExpiry | boardPostAtHome | boardViewReturn | boardLevelAdvanceReport
    | mergedReplySplit | mcastAnchorSnapshot | taskMessageArrival | badhandlerReport | taskDispatch | messageResend | spawnAcknowledgement
    | replyArrival | coxPlacement | coxSteal | matrixCommandStart | matrixStep | copyCommandStart | copyRunDelivered | vcodesArrival
    | vgemvStart | vgemvRow | streamPrefetch | treeCommandRun | boundaryMessageArrival | cancelArrival | boundaryAckArrival | sliceExpiry
    | waitBudgetExpiry | launchRecordAccept | launchStart | initialMessages | launchTriggered | launchCompletion | replayNodeDispatch
    | preemption | coreSave | saveImageArrival | launchSavedReport | failureReport | launchResume | tenancyMove | clusterScrub
    | patrolRead | timebaseReference | supplyDroop | hostMemoryAccess | ctlRun | attgo | mcastTableWrite | mcastWriteDrained
    | bar0RegisterWrite | errorLogReport | moduleReset | dieAuthentication | authenticationTimeout | synelmFrameArrival
    | peerIncarnationChange | illegal | enPassantMerge | wbRootArrival | railRecovery | bootInitialisationComplete | hostLinkTraining =>
    exact roundTrips_event rfl

/-- Settles O1, by the rows of the decoder, each with the form of its operands. -/
theorem decodeEncode : Obligations.DecodeEncode := by
  unfold Obligations.DecodeEncode
  exact fun i lit h => roundTrips lit i h

/-! ### Rows of the decoder: from a word to its instruction and back (O2) -/

/-- What `d` answers is well-formed and has the words `ws`. -/
def Answers (ws : List Word32) (d : Decoded) : Prop :=
  ∀ i, d = .ok i → i.WellFormed ∧ encode i = ws

/-- A rejected word has no instruction to answer for. -/
theorem answers_error (ws : List Word32) (r : Reject) : Answers ws (.error r) := by simp [Answers]

section

variable {O : Type} {get : Nat → (O → Instr) → Decoded} {put : O → Nat} {lo n : Nat} {ok : O → Prop}
  {lay : BitVec 7 → BitVec n → O → List WordField} {w base M f : Nat} {words : Nat → List Word32} {mk : O → Instr}

/-- The decoder's answer at a word of major `M` and func `f`, read by a form, has that word as its encoding. -/
theorem Form.answers (F : Form get put lo n ok lay) (hw : w < 2 ^ 32) (hM : fld w 25 7 = M) (hf : fld w lo n = f)
    (henc : ∀ o, ok o → (mk o).WellFormed ∧ encode (mk o) = words (base + put o)) (hbase : base = M * 2 ^ 25 + f * 2 ^ lo) :
    Answers (words w) (get w mk) := by
  intro i hi
  obtain ⟨o, ho, rfl, heq⟩ := F.put_of_get hw hi
  rw [hM, hf, ← hbase] at heq
  exact heq ▸ henc o ho

/-- The answer at a word of a form that takes a second word, `lit`. -/
theorem Form.answers_word2 {get : Nat → Word32 → (O → Instr) → Decoded} {litOf : O → Word32} {lit : Word32}
    (F : Form (fun w mk => get w lit mk) put lo n (fun o => litOf o = lit) lay) (hw : w < 2 ^ 32) (hM : fld w 25 7 = M)
    (hf : fld w lo n = f) (henc : ∀ o, (mk o).WellFormed ∧ encode (mk o) = word2 (base + put o) (litOf o))
    (hbase : base = M * 2 ^ 25 + f * 2 ^ lo) : Answers (word2 w lit) (get w lit mk) :=
  F.answers (words := fun w => word2 w lit) (mk := mk) hw hM hf (fun o ho => ho ▸ henc o) hbase

end

/-! One theorem for each major that has funcs; the rows stand in the order of the decoder's own, runs of one form together. -/

theorem answers_major01 {w : Nat} (hw : w < 2 ^ 32) (hM : fld w 25 7 = 0x01) : Answers (word1 w) (decodeMajor01 w) := by
  unfold decodeMajor01
  split
  iterate 29 next hf => exact formR3.answers hw hM hf (fun _ _ => ⟨rfl, rfl⟩) rfl
  iterate 4 next hf => exact formR2.answers hw hM hf (fun _ _ => ⟨rfl, rfl⟩) rfl
  iterate 3 next hf => exact formR3.answers hw hM hf (fun _ _ => ⟨rfl, rfl⟩) rfl
  next => exact answers_error _ _

theorem answers_major1A {w : Nat} (hw : w < 2 ^ 32) (hM : fld w 25 7 = 0x1A) : Answers (word1 w) (decodeMajor1A w) := by
  unfold decodeMajor1A
  split
  next hf => exact formR3.answers hw hM hf (fun _ _ => ⟨rfl, rfl⟩) rfl
  next => exact answers_error _ _

theorem answers_major34 {w : Nat} (hw : w < 2 ^ 32) (hM : fld w 25 7 = 0x34) : Answers (word1 w) (decodeMajor34 w) := by
  unfold decodeMajor34
  split
  iterate 13 next hf => exact formAmoOp.answers hw hM hf (fun _ _ => ⟨rfl, rfl⟩) rfl
  next => exact answers_error _ _

theorem answers_major35 {w : Nat} (hw : w < 2 ^ 32) (hM : fld w 25 7 = 0x35) : Answers (word1 w) (decodeMajor35 w) := by
  unfold decodeMajor35
  split
  iterate 11 next hf => exact formRedOp.answers hw hM hf (fun _ _ => ⟨rfl, rfl⟩) rfl
  next => exact answers_error _ _

theorem answers_major36 {w : Nat} (hw : w < 2 ^ 32) (hM : fld w 25 7 = 0x36) : Answers (word1 w) (decodeMajor36 w) := by
  unfold decodeMajor36
  split
  next hf => exact formR2.answers hw hM hf (fun _ _ => ⟨rfl, rfl⟩) rfl
  next => exact answers_error _ _

theorem answers_major37 {w : Nat} (hw : w < 2 ^ 32) (hM : fld w 25 7 = 0x37) : Answers (word1 w) (decodeMajor37 w) := by
  unfold decodeMajor37
  split
  iterate 3 next hf => exact formFenceOp.answers hw hM hf (fun _ _ => ⟨rfl, rfl⟩) rfl
  next hf => exact formVfenceOp.answers hw hM hf (fun _ _ => ⟨rfl, rfl⟩) rfl
  next => exact answers_error _ _

theorem answers_major38 {w : Nat} (hw : w < 2 ^ 32) (hM : fld w 25 7 = 0x38) : Answers (word1 w) (decodeMajor38 w) := by
  unfold decodeMajor38
  split
  next hf => exact formRAB.answers hw hM hf (fun _ _ => ⟨rfl, rfl⟩) rfl
  next hf => exact formRA.answers hw hM hf (fun _ _ => ⟨rfl, rfl⟩) rfl
  iterate 2 next hf => exact formRAB.answers hw hM hf (fun _ _ => ⟨rfl, rfl⟩) rfl
  iterate 2 next hf => exact formR3.answers hw hM hf (fun _ _ => ⟨rfl, rfl⟩) rfl
  next => exact answers_error _ _

theorem answers_major39 {w : Nat} (hw : w < 2 ^ 32) (hM : fld w 25 7 = 0x39) : Answers (word1 w) (decodeMajor39 w) := by
  unfold decodeMajor39
  split
  next hf => exact formRAB.answers hw hM hf (fun _ _ => ⟨rfl, rfl⟩) rfl
  next hf => exact formRA.answers hw hM hf (fun _ _ => ⟨rfl, rfl⟩) rfl
  next hf => exact formR3.answers hw hM hf (fun _ _ => ⟨rfl, rfl⟩) rfl
  next hf => exact formRAB.answers hw hM hf (fun _ _ => ⟨rfl, rfl⟩) rfl
  iterate 2 next hf => exact formR3.answers hw hM hf (fun _ _ => ⟨rfl, rfl⟩) rfl
  next hf => exact formRAB.answers hw hM hf (fun _ _ => ⟨rfl, rfl⟩) rfl
  next => exact answers_error _ _

theorem answers_major3A {w : Nat} (hw : w < 2 ^ 32) (hM : fld w 25 7 = 0x3A) : Answers (word1 w) (decodeMajor3A w) := by
  unfold decodeMajor3A
  split
  next hf => exact formNbinitOp.answers hw hM hf (fun _ _ => ⟨rfl, rfl⟩) rfl
  next hf => exact formPostvOp.answers hw hM hf (fun _ _ => ⟨rfl, rfl⟩) rfl
  next hf => exact formNbreadOp.answers hw hM hf (fun _ _ => ⟨rfl, rfl⟩) rfl
  next hf => exact formVtestOp.answers hw hM hf (fun _ _ => ⟨rfl, rfl⟩) rfl
  next hf => exact formVcountOp.answers hw hM hf (fun _ _ => ⟨rfl, rfl⟩) rfl
  next => exact answers_error _ _

theorem answers_major40 {w : Nat} (hw : w < 2 ^ 32) (hM : fld w 25 7 = 0x40) : Answers (word1 w) (decodeMajor40 w) := by
  unfold decodeMajor40
  split
  iterate 3 next hf => exact formV2.answers hw hM hf (fun _ _ => ⟨rfl, rfl⟩) rfl
  iterate 2 next hf => exact formV3.answers hw hM hf (fun _ _ => ⟨rfl, rfl⟩) rfl
  iterate 2 next hf => exact formV2.answers hw hM hf (fun _ _ => ⟨rfl, rfl⟩) rfl
  iterate 2 next hf => exact formV1.answers hw hM hf (fun _ _ => ⟨rfl, rfl⟩) rfl
  next hf => exact formV2.answers hw hM hf (fun _ _ => ⟨rfl, rfl⟩) rfl
  iterate 4 next hf => exact formV1.answers hw hM hf (fun _ _ => ⟨rfl, rfl⟩) rfl
  next => exact answers_error _ _

theorem answers_major41 {w : Nat} (hw : w < 2 ^ 32) (hM : fld w 25 7 = 0x41) : Answers (word1 w) (decodeMajor41 w) := by
  unfold decodeMajor41
  split
  iterate 3 next hf => exact formV2.answers hw hM hf (fun _ _ => ⟨rfl, rfl⟩) rfl
  next hf => exact formV3.answers hw hM hf (fun _ _ => ⟨rfl, rfl⟩) rfl
  iterate 3 next hf => exact formV2.answers hw hM hf (fun _ _ => ⟨rfl, rfl⟩) rfl
  iterate 3 next hf => exact formV1.answers hw hM hf (fun _ _ => ⟨rfl, rfl⟩) rfl
  next => exact answers_error _ _

theorem answers_major42 {w : Nat} (hw : w < 2 ^ 32) (hM : fld w 25 7 = 0x42) : Answers (word1 w) (decodeMajor42 w) := by
  unfold decodeMajor42
  split
  iterate 13 next hf => exact formV2.answers hw hM hf (fun _ _ => ⟨rfl, rfl⟩) rfl
  next => exact answers_error _ _

theorem answers_major43 {w : Nat} (hw : w < 2 ^ 32) (hM : fld w 25 7 = 0x43) : Answers (word1 w) (decodeMajor43 w) := by
  unfold decodeMajor43
  split
  iterate 8 next hf => exact formVcmpOp.answers hw hM hf (fun _ _ => ⟨rfl, rfl⟩) rfl
  next => exact answers_error _ _

theorem answers_major44 {w : Nat} (hw : w < 2 ^ 32) (hM : fld w 25 7 = 0x44) : Answers (word1 w) (decodeMajor44 w) := by
  unfold decodeMajor44
  split
  iterate 2 next hf => exact formV2.answers hw hM hf (fun _ _ => ⟨rfl, rfl⟩) rfl
  next hf => exact formVslideOp.answers hw hM hf (fun _ _ => ⟨rfl, rfl⟩) rfl
  next hf => exact formV1.answers hw hM hf (fun _ _ => ⟨rfl, rfl⟩) rfl
  next hf => exact formV0.answers hw hM hf (fun _ _ => ⟨rfl, rfl⟩) rfl
  next => exact answers_error _ _

theorem answers_major45 {w : Nat} (hw : w < 2 ^ 32) (hM : fld w 25 7 = 0x45) : Answers (word1 w) (decodeMajor45 w) := by
  unfold decodeMajor45
  split
  next hf => exact formVbcastOp.answers hw hM hf (fun _ _ => ⟨rfl, rfl⟩) rfl
  next hf => exact formVextOp.answers hw hM hf (fun _ _ => ⟨rfl, rfl⟩) rfl
  next hf => exact formVinsOp.answers hw hM hf (fun _ _ => ⟨rfl, rfl⟩) rfl
  iterate 5 next hf => exact formVredOp.answers hw hM hf (fun _ _ => ⟨rfl, rfl⟩) rfl
  next hf => exact formVpcntOp.answers hw hM hf (fun _ _ => ⟨rfl, rfl⟩) rfl
  next => exact answers_error _ _

theorem answers_major46 {w : Nat} (hw : w < 2 ^ 32) (hM : fld w 25 7 = 0x46) : Answers (word1 w) (decodeMajor46 w) := by
  unfold decodeMajor46
  split
  iterate 4 next hf => exact formVcvtOp.answers hw hM hf (fun _ ho => ⟨ho, rfl⟩) rfl
  iterate 4 next hf => exact formVcvtXOp.answers hw hM hf (fun _ _ => ⟨rfl, rfl⟩) rfl
  iterate 2 next hf => exact formVcvtOp.answers hw hM hf (fun _ ho => ⟨ho, rfl⟩) rfl
  next hf => exact formVcvtXOp.answers hw hM hf (fun _ _ => ⟨rfl, rfl⟩) rfl
  iterate 2 next hf => exact formVcvtOp.answers hw hM hf (fun _ ho => ⟨ho, rfl⟩) rfl
  iterate 3 next hf => exact formVcvtXOp.answers hw hM hf (fun _ _ => ⟨rfl, rfl⟩) rfl
  next => exact answers_error _ _

theorem answers_major47 {w : Nat} (hw : w < 2 ^ 32) (hM : fld w 25 7 = 0x47) : Answers (word1 w) (decodeMajor47 w) := by
  unfold decodeMajor47
  split
  iterate 2 next hf => exact formV0.answers hw hM hf (fun _ _ => ⟨rfl, rfl⟩) rfl
  next => exact answers_error _ _

theorem answers_major50 {w : Nat} {lit : Word32} (hw : w < 2 ^ 32) (hM : fld w 25 7 = 0x50) :
    Answers (word2 w lit) (decodeMajor50 w lit) := by
  unfold decodeMajor50
  split
  iterate 4 next hf => exact (formMmaOp lit).answers_word2 hw hM hf (fun _ => ⟨rfl, rfl⟩) rfl
  next => exact answers_error _ _

theorem answers_major51 {w : Nat} (hw : w < 2 ^ 32) (hM : fld w 25 7 = 0x51) : Answers (word1 w) (decodeMajor51 w) := by
  unfold decodeMajor51
  split
  iterate 2 next hf => exact formAccOp.answers hw hM hf (fun _ _ => ⟨rfl, rfl⟩) rfl
  next hf => exact formAccZOp.answers hw hM hf (fun _ _ => ⟨rfl, rfl⟩) rfl
  next hf => exact formMmresOp.answers hw hM hf (fun _ _ => ⟨rfl, rfl⟩) rfl
  next hf => exact formMmwaitOp.answers hw hM hf (fun _ _ => ⟨rfl, rfl⟩) rfl
  next => exact answers_error _ _

theorem answers_major54 {w : Nat} (hw : w < 2 ^ 32) (hM : fld w 25 7 = 0x54) : Answers (word1 w) (decodeMajor54 w) := by
  unfold decodeMajor54
  split
  iterate 5 next hf => exact formR2.answers hw hM hf (fun _ _ => ⟨rfl, rfl⟩) rfl
  next hf => exact formRA.answers hw hM hf (fun _ _ => ⟨rfl, rfl⟩) rfl
  next => exact answers_error _ _

theorem answers_major55 {w : Nat} (hw : w < 2 ^ 32) (hM : fld w 25 7 = 0x55) : Answers (word1 w) (decodeMajor55 w) := by
  unfold decodeMajor55
  split
  next hf => exact formScfgOp.answers hw hM hf (fun _ _ => ⟨rfl, rfl⟩) rfl
  iterate 2 next hf => exact formStrmOp.answers hw hM hf (fun _ _ => ⟨rfl, rfl⟩) rfl
  next => exact answers_error _ _

theorem answers_major58 {w : Nat} (hw : w < 2 ^ 32) (hM : fld w 25 7 = 0x58) : Answers (word1 w) (decodeMajor58 w) := by
  unfold decodeMajor58
  split
  next hf => exact formSpawnOp.answers hw hM hf (fun _ _ => ⟨rfl, rfl⟩) rfl
  iterate 2 next hf => exact formSend1Op.answers hw hM hf (fun _ _ => ⟨rfl, rfl⟩) rfl
  next hf => exact formSpawnOp.answers hw hM hf (fun _ _ => ⟨rfl, rfl⟩) rfl
  next hf => exact formCallatOp.answers hw hM hf (fun _ _ => ⟨rfl, rfl⟩) rfl
  next hf => exact formReplyOp.answers hw hM hf (fun _ _ => ⟨rfl, rfl⟩) rfl
  iterate 2 next hf => exact formTaskEndOp.answers hw hM hf (fun _ _ => ⟨rfl, rfl⟩) rfl
  next => exact answers_error _ _

theorem answers_major60 {w : Nat} (hw : w < 2 ^ 32) (hM : fld w 25 7 = 0x60) : Answers (word1 w) (decodeMajor60 w) := by
  unfold decodeMajor60
  split
  iterate 2 next hf => exact formRAB.answers hw hM hf (fun _ _ => ⟨rfl, rfl⟩) rfl
  next hf => exact formTsetvOp.answers hw hM hf (fun _ _ => ⟨rfl, rfl⟩) rfl
  next hf => exact formTsetxOp.answers hw hM hf (fun _ _ => ⟨rfl, rfl⟩) rfl
  next hf => exact formR2.answers hw hM hf (fun _ _ => ⟨rfl, rfl⟩) rfl
  next hf => exact formRD.answers hw hM hf (fun _ _ => ⟨rfl, rfl⟩) rfl
  next hf => exact formR0.answers hw hM hf (fun _ _ => ⟨rfl, rfl⟩) rfl
  next hf => exact formTnext.answers hw hM hf (fun _ ho => ⟨ho, rfl⟩) rfl
  next hf => exact formRD.answers hw hM hf (fun _ _ => ⟨rfl, rfl⟩) rfl
  next hf => exact formR2.answers hw hM hf (fun _ _ => ⟨rfl, rfl⟩) rfl
  next hf => exact formR3.answers hw hM hf (fun _ _ => ⟨rfl, rfl⟩) rfl
  next hf => exact formRA.answers hw hM hf (fun _ _ => ⟨rfl, rfl⟩) rfl
  next => exact answers_error _ _

theorem answers_major61 {w : Nat} (hw : w < 2 ^ 32) (hM : fld w 25 7 = 0x61) : Answers (word1 w) (decodeMajor61 w) := by
  unfold decodeMajor61
  split
  next hf => exact formRAB.answers hw hM hf (fun _ _ => ⟨rfl, rfl⟩) rfl
  next hf => exact formR2.answers hw hM hf (fun _ _ => ⟨rfl, rfl⟩) rfl
  iterate 2 next hf => exact formRA.answers hw hM hf (fun _ _ => ⟨rfl, rfl⟩) rfl
  next hf => exact formR0.answers hw hM hf (fun _ _ => ⟨rfl, rfl⟩) rfl
  next => exact answers_error _ _

theorem answers_major62 {w : Nat} (hw : w < 2 ^ 32) (hM : fld w 25 7 = 0x62) : Answers (word1 w) (decodeMajor62 w) := by
  unfold decodeMajor62
  split
  iterate 2 next hf => exact formRD.answers hw hM hf (fun _ _ => ⟨rfl, rfl⟩) rfl
  next => exact answers_error _ _

theorem answers_major70 {w : Nat} (hw : w < 2 ^ 32) (hM : fld w 25 7 = 0x70) : Answers (word1 w) (decodeMajor70 w) := by
  unfold decodeMajor70
  split
  next hf => exact formR0.answers hw hM hf (fun _ _ => ⟨rfl, rfl⟩) rfl
  iterate 2 next hf => exact formTrapOp.answers hw hM hf (fun _ _ => ⟨rfl, rfl⟩) rfl
  iterate 4 next hf => exact formR0.answers hw hM hf (fun _ _ => ⟨rfl, rfl⟩) rfl
  next hf => exact formRAB.answers hw hM hf (fun _ _ => ⟨rfl, rfl⟩) rfl
  next hf => exact formRA.answers hw hM hf (fun _ _ => ⟨rfl, rfl⟩) rfl
  next hf => exact formR2.answers hw hM hf (fun _ _ => ⟨rfl, rfl⟩) rfl
  next hf => exact formRD.answers hw hM hf (fun _ _ => ⟨rfl, rfl⟩) rfl
  next hf => exact formR2.answers hw hM hf (fun _ _ => ⟨rfl, rfl⟩) rfl
  next => exact answers_error _ _

/-- Major 0x52, of which `vgemv` alone takes a second word (R73). -/
theorem answers_major52 {w : Nat} {lit : Word32} (hw : w < 2 ^ 32) (hM : fld w 25 7 = 0x52) :
    Answers (if fld w 2 8 = 0 then word2 w lit else word1 w) (decodeMajor52 w lit) := by
  split
  next hf =>
    rw [decodeMajor52, hf]
    exact (formVgemvOp lit).answers_word2 hw hM hf (fun _ => ⟨rfl, rfl⟩) rfl
  next hne =>
    unfold decodeMajor52
    split
    next hf => exact absurd hf hne
    next hf => exact formRAB.answers hw hM hf (fun _ _ => ⟨rfl, rfl⟩) rfl
    next => exact answers_error _ _

/-- A field of no bits. -/
theorem fld_zero_width (w lo : Nat) : fld w lo 0 = 0 := Nat.mod_one _

/-- The words of an instruction whose first word is `w`, where `lit` follows it (R73). -/
def wordsAt (w lit : Word32) : List Word32 := if twoWord w then [w, lit] else [w]

section

variable {w lit : Word32} {d : Decoded}

/-- The words that a first word of a one-word major makes. -/
theorem Answers.oneWord {M : Nat} (hM : fld w.toNat 25 7 = M) (h : Answers (word1 w.toNat) d)
    (hone : M ≠ 0x19 ∧ M ≠ 0x50 ∧ M ≠ 0x52 := by decide) : Answers (wordsAt w lit) d := by
  have htwo : twoWord w = false := by simp [twoWord, hM, hone]
  simpa [wordsAt, htwo, word1] using h

/-- A word of a one-word major without funcs, read by a form. -/
theorem Form.answers_noFunc {O : Type} {get : Nat → (O → Instr) → Decoded} {put : O → Nat} {lo M base : Nat} {ok : O → Prop}
    {lay : BitVec 7 → BitVec 0 → O → List WordField} {mk : O → Instr} (F : Form get put lo 0 ok lay) (hM : fld w.toNat 25 7 = M)
    (henc : ∀ o, ok o → (mk o).WellFormed ∧ encode (mk o) = word1 (base + put o)) (hbase : base = M * 2 ^ 25)
    (hone : M ≠ 0x19 ∧ M ≠ 0x50 ∧ M ≠ 0x52 := by decide) : Answers (wordsAt w lit) (get w.toNat mk) :=
  Answers.oneWord hM (F.answers w.isLt hM (fld_zero_width _ _) henc (by rw [hbase, Nat.zero_mul, Nat.add_zero])) hone

/-- The words that a first word makes that takes a second one. -/
theorem Answers.twoWords (htwo : twoWord w = true) (h : Answers (word2 w.toNat lit) d) :
    Answers (wordsAt w lit) d := by
  simpa [wordsAt, htwo, word2] using h

end

/-- Whatever the decoder accepts, by its major (R73-R92). -/
theorem answers_decode (w lit : Word32) : Answers (wordsAt w lit) (decode w lit) := by
  have hw := w.isLt
  unfold decode decodeNat
  split
  next hM => exact Answers.oneWord hM (answers_major01 hw hM)
  iterate 4 next hM => exact formIOp.answers_noFunc hM (fun _ _ => ⟨rfl, rfl⟩) rfl
  iterate 3 next hM => exact formShOp.answers_noFunc hM (fun _ _ => ⟨rfl, rfl⟩) rfl
  iterate 3 next hM => exact formIOp.answers_noFunc hM (fun _ _ => ⟨rfl, rfl⟩) rfl
  next hM => exact formBfxOp.answers_noFunc hM (fun _ ho => ⟨ho, rfl⟩) rfl
  next hM => exact formBfiOp.answers_noFunc hM (fun _ ho => ⟨ho, rfl⟩) rfl
  iterate 2 next hM => exact formUOp.answers_noFunc hM (fun _ _ => ⟨rfl, rfl⟩) rfl
  iterate 6 next hM => exact formBOp.answers_noFunc hM (fun _ _ => ⟨rfl, rfl⟩) rfl
  next hM => exact formJOp.answers_noFunc hM (fun _ _ => ⟨rfl, rfl⟩) rfl
  next hM => exact formIOp.answers_noFunc hM (fun _ _ => ⟨rfl, rfl⟩) rfl
  next hM => exact formLoopOp.answers_noFunc hM (fun _ _ => ⟨rfl, rfl⟩) rfl
  next hM =>
    exact Answers.twoWords (by simp [twoWord, hM]) ((formLixOp lit).answers_word2 hw hM (fld_zero_width _ _) (fun _ => ⟨rfl, rfl⟩) rfl)
  next hM => exact Answers.oneWord hM (answers_major1A hw hM)
  iterate 7 next hM => exact formIOp.answers_noFunc hM (fun _ _ => ⟨rfl, rfl⟩) rfl
  iterate 2 next hM => exact formAcqOp.answers_noFunc hM (fun _ _ => ⟨rfl, rfl⟩) rfl
  iterate 4 next hM => exact formSOp.answers_noFunc hM (fun _ _ => ⟨rfl, rfl⟩) rfl
  iterate 2 next hM => exact formRelOp.answers_noFunc hM (fun _ _ => ⟨rfl, rfl⟩) rfl
  next hM => exact formSOp.answers_noFunc hM (fun _ _ => ⟨rfl, rfl⟩) rfl
  next hM => exact formVldOp.answers_noFunc hM (fun _ _ => ⟨rfl, rfl⟩) rfl
  next hM => exact formVstOp.answers_noFunc hM (fun _ _ => ⟨rfl, rfl⟩) rfl
  iterate 2 next hM => exact formVxmOp.answers_noFunc hM (fun _ _ => ⟨rfl, rfl⟩) rfl
  next hM => exact Answers.oneWord hM (answers_major34 hw hM)
  next hM => exact Answers.oneWord hM (answers_major35 hw hM)
  next hM => exact Answers.oneWord hM (answers_major36 hw hM)
  next hM => exact Answers.oneWord hM (answers_major37 hw hM)
  next hM => exact Answers.oneWord hM (answers_major38 hw hM)
  next hM => exact Answers.oneWord hM (answers_major39 hw hM)
  next hM => exact Answers.oneWord hM (answers_major3A hw hM)
  next hM => exact Answers.oneWord hM (answers_major40 hw hM)
  next hM => exact Answers.oneWord hM (answers_major41 hw hM)
  next hM => exact Answers.oneWord hM (answers_major42 hw hM)
  next hM => exact Answers.oneWord hM (answers_major43 hw hM)
  next hM => exact Answers.oneWord hM (answers_major44 hw hM)
  next hM => exact Answers.oneWord hM (answers_major45 hw hM)
  next hM => exact Answers.oneWord hM (answers_major46 hw hM)
  next hM => exact Answers.oneWord hM (answers_major47 hw hM)
  next hM => exact Answers.twoWords (by simp [twoWord, hM]) (answers_major50 hw hM)
  next hM => exact Answers.oneWord hM (answers_major51 hw hM)
  next hM =>
    by_cases hf : fld w.toNat 2 8 = 0
    · have htwo : twoWord w = true := by simp [twoWord, hM, hf]
      exact Answers.twoWords htwo (by simpa [hf] using answers_major52 hw hM)
    · have htwo : twoWord w = false := by simp [twoWord, hM, hf]
      simpa [wordsAt, htwo, hf, word1] using answers_major52 hw hM
  next hM => exact Answers.oneWord hM (answers_major54 hw hM)
  next hM => exact Answers.oneWord hM (answers_major55 hw hM)
  next hM => exact Answers.oneWord hM (answers_major58 hw hM)
  next hM => exact Answers.oneWord hM (answers_major60 hw hM)
  next hM => exact Answers.oneWord hM (answers_major61 hw hM)
  next hM => exact Answers.oneWord hM (answers_major62 hw hM)
  next hM => exact Answers.oneWord hM (answers_major70 hw hM)
  next hM => exact formCrrOp.answers_noFunc hM (fun _ _ => ⟨rfl, rfl⟩) rfl
  iterate 3 next hM => exact formCrwOp.answers_noFunc hM (fun _ _ => ⟨rfl, rfl⟩) rfl
  next => exact answers_error _ _

/-- Settles O2, by the decoder's rows: each reads its operands by a form, whose word they give back. -/
theorem encodeDecode : Obligations.EncodeDecode := by
  unfold Obligations.EncodeDecode
  exact answers_decode

/-! ### Words written out, and the software traps (O3, O12) -/

/-- Settles O3, by evaluating the decoder on each word. -/
theorem decodedWords : Obligations.DecodedWords := by
  unfold Obligations.DecodedWords
  decide +kernel

end Sys2Proof.Encoding

namespace Sys2Proof.Machine

open Sys2Proof

/-- A user cause with CR.TEPC the next instruction, of an instruction that counts as issued (R94, R114, R122). -/
theorem finish_userNext (s : State) (c : BitVec 8) (v : Word) :
    finish s (.error (.userNext c v)) = .next (s.noteIssued.takeUser s.cur c v (s.slot.pc + 4) s.slot.pc) := by
  have hpc : s.noteIssued.slot.pc = s.slot.pc := by
    change (s.noteIssued.getSlot s.cur).pc = _
    rw [State.noteIssued, State.getSlot_noteIssuedAt]; rfl
  rw [← hpc]
  rfl

/-- Settles O12, by how an instruction ends that stops with a user cause at the next instruction or a supervisor cause at its own. -/
theorem softwareTraps : Obligations.SoftwareTraps := by
  unfold Obligations.SoftwareTraps
  exact fun s => ⟨fun o => finish_userNext s cSOFT (o.imm.setWidth 64), fun o => finish_sup s cBREAK (o.imm.setWidth 64),
    fun w => finish_sup s cILLEGAL (w.setWidth 64)⟩

/-! ### What a mode may not run or reach (R27, R28, R93) -/

/-- The runtime reaches no register that the catalogue does not list. -/
theorem crSup_eq_none {n : Nat} (h : ¬crListed n) : crSup n = .none := by
  unfold crListed at h
  have hu : crUser n = .none := crUser_eq_none (by omega)
  unfold crSup
  rw [if_neg (by omega), if_neg (by omega), if_neg (by omega), if_neg (by simp; omega), if_pos hu]

/-- Neither mode reaches a register that the catalogue does not list. -/
theorem crAccess_eq_none {n : Nat} (m : Mode) (h : ¬crListed n) : crAccess m n = .none := by
  cases m with
  | user => exact crUser_eq_none (by unfold crListed at h; omega)
  | supervisor => exact crSup_eq_none h

/-- A register that the mode does not reach is ILLEGAL. -/
theorem crCheck_of_none {s : State} {n : Nat} (write : Bool) (h : crAccess s.slot.mode n = .none) : crCheck s n write = trapIllegal s := by
  unfold crCheck
  rw [h]

/-- A write of a register that the mode may not write is ILLEGAL. -/
theorem crCheck_write_of_ne_rw {s : State} {n : Nat} (h : crAccess s.slot.mode n ≠ .rw) : crCheck s n true = trapIllegal s := by
  unfold crCheck
  cases ha : crAccess s.slot.mode n with
  | none => rfl
  | ro => rfl
  | rw => exact absurd ha h

section

variable {s : State}

/-- `crr` of a register that the access check refuses (R107). -/
theorem execCrr_illegal {o : CrrOp} (hfull : s.FullX [o.d]) (hcheck : crCheck s o.n.toNat false = trapIllegal s) :
    execCrr o s = .next (s.takeSup s.cur cILLEGAL s.instrWord s.slot.pc) := by
  have hissue : issueRule s [] [.x o.d] = .ok () := issueRule_full s [] [o.d] (by simp) (by simpa [State.FullX] using hfull)
  unfold execCrr
  rw [hissue, hcheck]
  rfl

/-- A control-register write that the access check refuses (R107). -/
theorem crModify_illegal {o : CrwOp} (f : Word → Word → Word) (hfull : s.FullX [o.a])
    (hcheck : crCheck s o.n.toNat true = trapIllegal s) :
    crModify o f s = .next (s.takeSup s.cur cILLEGAL s.instrWord s.slot.pc) := by
  have hissue : issueRule s [(.x o.a, o.wa)] [] = .ok () :=
    issueRule_full s [(o.a, o.wa)] [] (by simpa [State.FullX] using hfull) (by simp)
  unfold crModify
  rw [hissue, hcheck]
  rfl

/-- `crw`, `crs` and `crc` of a register that the mode may not write. -/
theorem writes_illegal {o : CrwOp} (hfull : s.FullX [o.a]) (h : crAccess s.slot.mode o.n.toNat ≠ .rw) :
    let bad := s.takeSup s.cur cILLEGAL s.instrWord s.slot.pc
    exec (.crw o) s = .next bad ∧ exec (.crs o) s = .next bad ∧ exec (.crc o) s = .next bad := by
  have hcheck := crCheck_write_of_ne_rw h
  exact ⟨crModify_illegal (fun _ a => a) hfull hcheck, crModify_illegal (fun c a => c ||| a) hfull hcheck,
    crModify_illegal (fun c a => c &&& ~~~a) hfull hcheck⟩

end

/-- CR.CTXID, CR.GEN and CR.COREID stay read-only for the runtime (R28). -/
theorem crSup_readOnly {n : BitVec 13} (h : n = 0x000 ∨ n = 0x001 ∨ n = 0x040) : crSup n.toNat = .ro := by
  rcases h with rfl | rfl | rfl <;> rfl

/-- Settles O14, by the modes of the privileged instructions and the access check of the control registers. -/
theorem privilegedIllegal : Obligations.PrivilegedIllegal := by
  unfold Obligations.PrivilegedIllegal
  intro s
  refine ⟨fun hmode => ⟨fun o => ?_, fun o => ?_, fun o => ?_, fun o hfull hn => ?_, fun o hfull hn => ?_⟩, fun o hfull hn => ?_,
    fun o hfull hn => ?_⟩
  · exact congrArg (finish s) (if_pos hmode)
  · exact congrArg (finish s) (if_pos hmode)
  · exact congrArg (finish s) (if_pos hmode)
  · have hnone : crAccess s.slot.mode o.n.toNat = .none := by rw [hmode]; exact crUser_eq_none (by omega)
    exact execCrr_illegal hfull (crCheck_of_none false hnone)
  · exact writes_illegal hfull (by rwa [hmode])
  · exact execCrr_illegal hfull (crCheck_of_none false (crAccess_eq_none _ hn))
  · refine writes_illegal hfull ?_
    rcases hn with hn | ⟨hmode, hn⟩
    · rw [crAccess_eq_none _ hn]; decide
    · rw [hmode, crAccess, crSup_readOnly hn]; decide

end Sys2Proof.Machine

/-! The entries of supervisor and user-level causes (O10). -/

namespace Sys2Proof.Machine

open Sys2Proof

/-! ### What taking a cause leaves as it was (R97, R110, R111) -/

/-- State `t` differs from `s` in one slot, and in none of the things that the entry of a cause may not touch: which context acts, memory and
its poison, the slot's x registers, every other slot, and the cores' own registers. -/
structure SlotFrame (s t : State) (o : SlotId) : Prop where
  cur : t.cur = s.cur
  mem : t.mem = s.mem
  poison : t.poison = s.poison
  x : (t.getSlot o).x = (s.getSlot o).x
  other : ∀ q, q ≠ o → t.getSlot q = s.getSlot q
  core : ∀ c, { t.getCore c with slots := (s.getCore c).slots } = s.getCore c

namespace SlotFrame

variable {s t u : State} {o : SlotId}

theorem refl (s : State) (o : SlotId) : SlotFrame s s o := ⟨rfl, rfl, rfl, rfl, fun _ _ => rfl, fun _ => rfl⟩

theorem trans (h : SlotFrame s t o) (k : SlotFrame t u o) : SlotFrame s u o :=
  ⟨k.cur.trans h.cur, k.mem.trans h.mem, k.poison.trans h.poison, k.x.trans h.x, fun q hq => (k.other q hq).trans (h.other q hq), fun c =>
    (congrArg (fun d : Core => { d with slots := (s.getCore c).slots }) (k.core c)).trans (h.core c)⟩

/-- A change of the slot itself. -/
theorem onSlot (s : State) (o : SlotId) (f : Slot → Slot) (hx : ∀ l, (f l).x = l.x := by exact fun _ => rfl) :
    SlotFrame s (s.onSlot o f) o := by
  refine ⟨rfl, rfl, rfl, by rw [State.getSlot_onSlot]; exact hx _, fun q hq => s.getSlot_onSlot_other f hq, fun c => ?_⟩
  by_cases h : c = o.core
  · subst h
    rw [State.onSlot, State.getCore_onCore]
    rfl
  · rw [State.onSlot, State.getCore_onCore_other _ _ h]

/-- A runtime failure stops the slot and tells the host and the launcher (R97). -/
theorem runtimeFailure (s : State) (o : SlotId) : SlotFrame s (s.runtimeFailure o) o :=
  let h := onSlot s o fun l => { l with st := .stopped, wait := none }
  ⟨h.cur, h.mem, h.poison, h.x, h.other, h.core⟩

/-- Taking a supervisor cause (R111). -/
theorem takeSup (s : State) (o : SlotId) (sc : BitVec 16) (v : Word) (epc : Off) : SlotFrame s (s.takeSup o sc v epc) o := by
  unfold State.takeSup
  dsimp only
  split
  · exact (onSlot s o _).trans (runtimeFailure _ o)
  · split
    · exact onSlot s o _
    · exact (onSlot s o _).trans (runtimeFailure _ o)

/-- Entering a user handler (R110). -/
theorem enterUser (s : State) (o : SlotId) (cause : BitVec 8) (v : Word) (epc : Off) (target : Word) :
    SlotFrame s (s.enterUser o cause v epc target) o := by
  unfold State.enterUser
  dsimp only
  split
  · exact (onSlot s o _).trans (onSlot _ o _)
  · exact (onSlot s o _).trans (takeSup _ o _ _ _)

/-- Taking a user-level cause, once it is counted (R34, R110). -/
theorem takeUser (s : State) (o : SlotId) (cause : BitVec 8) (v : Word) (epc sepc : Off) :
    SlotFrame (s.countRaised o cause) (s.takeUser o cause v epc sepc) o := by
  unfold State.takeUser
  dsimp only
  split
  · exact takeSup _ o _ _ _
  · split
    · exact takeSup _ o _ _ _
    · exact enterUser _ o _ _ _ _

/-- The exception counters are a core's own registers (R34). -/
theorem xcnt (h : SlotFrame s t o) (c : CoreId) : (t.getCore c).xcnt = (s.getCore c).xcnt :=
    (congrArg Core.xcnt (h.core c) :)

/-- So is CR.SVEC (R111). -/
theorem svec (h : SlotFrame s t o) (c : CoreId) : (t.getCore c).svec = (s.getCore c).svec :=
  (congrArg Core.svec (h.core c) :)

end SlotFrame

/-! ### The supervisor cause (R97, R111) -/

/-- The slot of a runtime failure stops, and no longer waits (R97). -/
theorem State.getSlot_runtimeFailure (s : State) (o : SlotId) :
    (s.runtimeFailure o).getSlot o = { s.getSlot o with st := .stopped, wait := none } :=
  s.getSlot_onSlot o fun l => { l with st := .stopped, wait := none }

/-- A runtime failure makes one report to the launcher (R97). -/
theorem State.fails_runtimeFailure (s : State) (o : SlotId) : (s.runtimeFailure o).fails.length = s.fails.length + 1 :=
  List.length_append

/-- A runtime failure makes one report to the host (R97). -/
theorem State.errors_runtimeFailure (s : State) (o : SlotId) : (s.runtimeFailure o).errors.length = s.errors.length + 1 :=
  List.length_append

section

variable {s : State} {o : SlotId}

/-- What is no code offset, as the pc's check says it. -/
theorem codeOk_eq_false {t : Nat} (h : t % 4 ≠ 0 ∨ 0x5FFFC < t) : codeOk t = false := by
  rw [Bool.eq_false_iff, ne_eq, codeOk_iff]
  omega

/-- A supervisor cause of a user-mode slot goes to CR.SVEC (R111). -/
theorem State.takeSup_user (sc : BitVec 16) (v : Word) (epc : Off) (hmode : (s.getSlot o).mode = .user)
    (hsvec : codeOk (s.getCore o.core).svec.toNat = true) :
    s.takeSup o sc v epc = s.onSlot o fun l => { l with
      sepc := epc, scause := sc, sval := v, mode := .supervisor, st := .held, pc := (s.getCore o.core).svec, wait := none,
      joinAns := none } := by
  simp [State.takeSup, hmode, hsvec]

/-- At a CR.SVEC that is no code offset it is a runtime failure, with FETCH as its cause (R97, R111). -/
theorem State.takeSup_badVector (sc : BitVec 16) (v : Word) (epc : Off) (hmode : (s.getSlot o).mode = .user)
    (hsvec : codeOk (s.getCore o.core).svec.toNat = false) :
    s.takeSup o sc v epc = (s.onSlot o fun l => { l with
      sepc := epc, scause := 0x0911, sval := (s.getCore o.core).svec.setWidth 64 }).runtimeFailure o := by
  simp [State.takeSup, hmode, hsvec, FKind.scause]

/-- In supervisor mode it is a runtime failure (R97). -/
theorem State.takeSup_supervisor (sc : BitVec 16) (v : Word) (epc : Off) (hmode : (s.getSlot o).mode = .supervisor) :
    s.takeSup o sc v epc = (s.onSlot o fun l => { l with sepc := epc, scause := sc, sval := v }).runtimeFailure o := by
  simp [State.takeSup, hmode]

/-! ### The user-level cause (R34, R110) -/

/-- Counting a raised cause leaves every slot. -/
theorem State.getSlot_countRaised (cause : BitVec 8) (q : SlotId) : (s.countRaised o cause).getSlot q = s.getSlot q := by
  have hcount : ∀ i : Fin 16, (s.onCore o.core (·.count i 1)).getSlot q = s.getSlot q := by
    intro i
    by_cases h : q.core = o.core
    · rw [State.getSlot, h, State.getCore_onCore, State.getSlot, h]
      rfl
    · rw [State.getSlot, State.getCore_onCore_other _ _ h]
      rfl
  unfold State.countRaised
  split
  · exact hcount 10
  · split
    · exact hcount 9
    · rfl

/-- Counting a raised cause leaves CR.SVEC. -/
theorem State.svec_countRaised (cause : BitVec 8) : ((s.countRaised o cause).getCore o.core).svec = (s.getCore o.core).svec := by
  unfold State.countRaised
  split
  · rw [State.getCore_onCore]; rfl
  · split
    · rw [State.getCore_onCore]; rfl
    · rfl

/-- Counting a raised cause leaves memory. -/
theorem State.mem_countRaised (cause : BitVec 8) : (s.countRaised o cause).mem = s.mem := by
  unfold State.countRaised
  split
  · rfl
  · split <;> rfl

/-- A counter after another, or it, has counted one event (R34). -/
theorem Core.xcnt_count (c : Core) (i n : Fin 16) :
    (c.count i 1).xcnt[n] = if n = i then BitVec.ofNat 32 (min (c.xcnt[n].toNat + 1) 0xFFFF_FFFF) else c.xcnt[n] := by
  by_cases h : n = i
  · subst h
    simp [Core.count, satAdd32]
  · have hval : i.val ≠ n.val := fun e => h (Fin.ext e.symm)
    simp [Core.count, h, Vector.getElem_set_ne, hval]

/-- EMPTY counts in counter 10, TREEVAL in 9, and no other cause counts (R34). -/
theorem State.xcnt_countRaised (cause : BitVec 8) (n : Fin 16) :
    ((s.countRaised o cause).getCore o.core).xcnt[n] =
      if (cause = 0x01 ∧ n = 10) ∨ (cause = 0x05 ∧ n = 9) then
        BitVec.ofNat 32 (min ((s.getCore o.core).xcnt[n].toNat + 1) 0xFFFF_FFFF)
      else (s.getCore o.core).xcnt[n] := by
  unfold State.countRaised
  by_cases hempty : cause = cEMPTY
  · rw [if_pos hempty, State.getCore_onCore, Core.xcnt_count]
    simp [hempty, cEMPTY]
  · rw [if_neg hempty]
    by_cases htree : cause = cTREEVAL
    · rw [if_pos htree, State.getCore_onCore, Core.xcnt_count]
      simp [htree, cTREEVAL]
    · rw [if_neg htree, if_neg fun h => h.elim (fun h => hempty h.1) fun h => htree h.1]

/-- A user-level cause outside a handler enters the user handler at CR.TVEC (R110). -/
theorem State.takeUser_enters (cause : BitVec 8) (v : Word) (epc sepc : Off) (hmode : (s.getSlot o).mode = .user)
    (hintrap : (s.getSlot o).intrap = false) :
    s.takeUser o cause v epc sepc = (s.countRaised o cause).enterUser o cause v epc ((s.getSlot o).tvec.setWidth 64) := by
  simp [State.takeUser, hmode, hintrap]

/-- Inside a handler it is the supervisor cause DOUBLE (R33, R111). -/
theorem State.takeUser_double (cause : BitVec 8) (v : Word) (epc sepc : Off) (hmode : (s.getSlot o).mode = .user)
    (hintrap : (s.getSlot o).intrap = true) :
    s.takeUser o cause v epc sepc = (s.countRaised o cause).takeSup o cDOUBLE (cause.setWidth 64) sepc := by
  simp [State.takeUser, hmode, hintrap]

/-- What the entry of a user handler writes before it looks at its target (R110). -/
def Slot.caught (l : Slot) (cause : BitVec 8) (v : Word) (epc : Off) : Slot :=
  { l with tepc := epc, tcause := cause, tval := v, intrap := true, wait := none, joinAns := none }

/-- A handler at what is no code offset is the supervisor cause FETCH, with the entry's writes kept (R110). -/
theorem State.enterUser_badTarget (cause : BitVec 8) (v : Word) (epc : Off) {target : Word} (h : codeOk target.toNat = false) :
    s.enterUser o cause v epc target = (s.onSlot o (·.caught cause v epc)).takeSup o 0x0911 target (target.setWidth 20) := by
  unfold State.enterUser
  simp only [h, Bool.false_eq_true, if_false]
  rfl

/-- A code offset as a word is that offset. -/
theorem toNat_setWidth_off (t : Off) : (t.setWidth 64).toNat = t.toNat :=
  BitVec.toNat_setWidth_of_le (by decide)

/-- A code offset taken back from a word. -/
theorem setWidth_setWidth_off (t : Off) : (t.setWidth 64).setWidth 20 = t :=
  (BitVec.setWidth_setWidth_of_le t (by decide)).trans (BitVec.setWidth_eq t)

/-- A user-level cause outside a handler, with a CR.TVEC that is a code offset (R110). -/
theorem State.getSlot_takeUser_enters (cause : BitVec 8) (v : Word) (epc sepc : Off) (hmode : (s.getSlot o).mode = .user)
    (hintrap : (s.getSlot o).intrap = false) (htvec : codeOk (s.getSlot o).tvec.toNat = true) :
    (s.takeUser o cause v epc sepc).getSlot o = { s.getSlot o with
      tepc := epc, tcause := cause, tval := v, intrap := true, pc := (s.getSlot o).tvec, wait := none, joinAns := none } := by
  rw [State.takeUser_enters cause v epc sepc hmode hintrap,
    State.enterUser_enters _ o cause v epc _ (by rwa [toNat_setWidth_off]), State.getSlot_countRaised, setWidth_setWidth_off]

/-- With a CR.TVEC that is no code offset, FETCH follows and the entry's four writes stay (R110). -/
theorem State.getSlot_takeUser_badVector (cause : BitVec 8) (v : Word) (epc sepc : Off) (hmode : (s.getSlot o).mode = .user)
    (hintrap : (s.getSlot o).intrap = false) (htvec : codeOk (s.getSlot o).tvec.toNat = false)
    (hsvec : codeOk (s.getCore o.core).svec.toNat = true) :
    (s.takeUser o cause v epc sepc).getSlot o = { s.getSlot o with
      tepc := epc, tcause := cause, tval := v, intrap := true, sepc := (s.getSlot o).tvec, scause := 0x0911,
      sval := (s.getSlot o).tvec.setWidth 64, mode := .supervisor, st := .held, pc := (s.getCore o.core).svec, wait := none,
      joinAns := none } := by
  have hslot : ((s.countRaised o cause).onSlot o (·.caught cause v epc)).getSlot o = (s.getSlot o).caught cause v epc := by
    rw [State.getSlot_onSlot, State.getSlot_countRaised]
  have hvec : (((s.countRaised o cause).onSlot o (·.caught cause v epc)).getCore o.core).svec = (s.getCore o.core).svec :=
    ((SlotFrame.onSlot (s.countRaised o cause) o _).svec o.core).trans (State.svec_countRaised cause)
  rw [State.takeUser_enters cause v epc sepc hmode hintrap, State.enterUser_badTarget _ _ _ (by rwa [toNat_setWidth_off]),
    setWidth_setWidth_off, State.takeSup_user _ _ _ (by rw [hslot]; exact hmode) (by rwa [hvec]), State.getSlot_onSlot, hslot, hvec]
  rfl

/-- A user-level cause in a handler, with a CR.SVEC that is a code offset (R111). -/
theorem State.getSlot_takeUser_double (cause : BitVec 8) (v : Word) (epc sepc : Off) (hmode : (s.getSlot o).mode = .user)
    (hintrap : (s.getSlot o).intrap = true) (hsvec : codeOk (s.getCore o.core).svec.toNat = true) :
    (s.takeUser o cause v epc sepc).getSlot o = { s.getSlot o with
      sepc := sepc, scause := 0x0018, sval := cause.setWidth 64, mode := .supervisor, st := .held, pc := (s.getCore o.core).svec,
      wait := none, joinAns := none } := by
  rw [State.takeUser_double cause v epc sepc hmode hintrap,
    State.takeSup_user _ _ _ (by rwa [State.getSlot_countRaised]) (by rwa [State.svec_countRaised]), State.getSlot_onSlot,
    State.getSlot_countRaised, State.svec_countRaised]
  rfl

end

/-- Settles O10: each case of the two entries by its equation, and what they leave by `SlotFrame`. -/
theorem trapEntry : Obligations.TrapEntry := by
  unfold Obligations.TrapEntry
  refine ⟨fun s o sc v epc => ?_, fun s o cause v epc sepc => ?_⟩
  · have hframe := SlotFrame.takeSup s o sc v epc
    refine ⟨fun hmode hal hle => ?_, fun hmode hbad => ?_, fun hmode => ?_, hframe.mem, hframe.poison, hframe.other, hframe.core⟩
    · rw [State.takeSup_user sc v epc hmode ((codeOk_iff _).mpr ⟨hal, hle⟩)]
      exact ⟨s.getSlot_onSlot o _, rfl, rfl⟩
    · rw [State.takeSup_badVector sc v epc hmode (codeOk_eq_false hbad)]
      exact ⟨by rw [State.getSlot_runtimeFailure, State.getSlot_onSlot], State.fails_runtimeFailure _ o, State.errors_runtimeFailure _ o⟩
    · rw [State.takeSup_supervisor sc v epc hmode]
      exact ⟨by rw [State.getSlot_runtimeFailure, State.getSlot_onSlot], State.fails_runtimeFailure _ o, State.errors_runtimeFailure _ o⟩
  · have hframe := SlotFrame.takeUser s o cause v epc sepc
    refine ⟨fun hmode hin hal hle => State.getSlot_takeUser_enters cause v epc sepc hmode hin ((codeOk_iff _).mpr ⟨hal, hle⟩),
      fun hmode hin hbad hal hle =>
        State.getSlot_takeUser_badVector cause v epc sepc hmode hin (codeOk_eq_false hbad) ((codeOk_iff _).mpr ⟨hal, hle⟩),
      fun hmode hin hal hle => State.getSlot_takeUser_double cause v epc sepc hmode hin ((codeOk_iff _).mpr ⟨hal, hle⟩),
      fun n => ?_, hframe.mem.trans (State.mem_countRaised cause),
      fun q hq => (hframe.other q hq).trans (State.getSlot_countRaised cause q)⟩
    rw [hframe.xcnt]
    exact State.xcnt_countRaised cause n

end Sys2Proof.Machine

/-! Returns from a cause (O11) and the causes that a boundary takes (O53). -/

namespace Sys2Proof.Machine

open Sys2Proof

/-! ### What a boundary takes (R112) -/

section

variable {s : State} {o : SlotId}

/-- A pending asynchronous supervisor cause comes first (R112). -/
theorem State.turn_async (hmode : (s.getSlot o).mode = .user) (h : (s.getSlot o).asyncs ≠ []) :
    s.turn o = exec (.asyncSupervisorCause o) s := by
  simp [State.turn, Slot.causeDue, hmode, h]

/-- Then a queued COPYDONE with INTRAP clear (R112). -/
theorem State.turn_copydone (hmode : (s.getSlot o).mode = .user) (ha : (s.getSlot o).asyncs = []) (hc : (s.getSlot o).cdq ≠ [])
    (hin : (s.getSlot o).intrap = false) : s.turn o = exec (.copydone o) s := by
  simp [State.turn, Slot.causeDue, hmode, ha, hc, hin]

/-- With neither the next instruction issues (R112). -/
theorem State.turn_run (h : (s.getSlot o).causeDue = false) : s.turn o = s.run o := by
  simp [State.turn, h]

end

/-! ### Returning from a cause (R113) -/

section

variable {s : State}

/-- A return to a code offset (R18, R113). -/
theorem State.goto_ok {t : Off} (hal : t.toNat % 4 = 0) (hle : t.toNat ≤ 0x5FFFC) :
    s.goto (t.setWidth 64) = .ok (s.modSlot fun l => { l with pc := t }) := by
  unfold State.goto
  rw [toNat_setWidth_off, if_pos ((codeOk_iff _).mpr ⟨hal, hle⟩), setWidth_setWidth_off]

/-- A return to what is no code offset is FETCH at the instruction (R18, R113). -/
theorem State.finish_goto_fetch {t : Off} {k : State → Body State} (h : t.toNat % 4 ≠ 0 ∨ 0x5FFFC < t.toNat) :
    finish s (s.goto (t.setWidth 64) >>= k) = .next (s.takeSup s.cur 0x0911 (t.setWidth 64) s.slot.pc) := by
  unfold State.goto
  rw [toNat_setWidth_off, if_neg (by simp [codeOk_eq_false h])]
  rfl

/-- The acting slot, its instruction counted as issued (R122). -/
theorem State.slot_noteIssued (s : State) : s.noteIssued.slot = { s.slot with issued := s.slot.issued + 1 } :=
  s.getSlot_noteIssuedAt s.cur

/-- A parked transfer that continues leaves its core's slots (R182). -/
theorem Core.resumeXfer_slots (c : Core) (k : SlotNo) (gen : BitVec 16) : (c.resumeXfer k gen).slots = c.slots := by
  unfold Core.resumeXfer
  split
  · split <;> rfl
  · rfl

end

/-- Settles O11: the two returns, each to a code offset or to FETCH, and ILLEGAL where there is nothing to return from. -/
theorem returnFromTrap : Obligations.ReturnFromTrap := by
  unfold Obligations.ReturnFromTrap
  intro o s
  have hexec : exec (.rfe o) s = execRfe o s := rfl
  rw [hexec]
  unfold execRfe
  refine ⟨fun hmode hal hle => ?_, fun hmode h => ?_, fun hmode hin hal hle => ?_, fun hmode hin h => ?_, fun hmode hin => ?_⟩
  · rw [if_pos hmode, State.goto_ok hal hle]
    refine ⟨_, rfl, rfl, rfl, ?_⟩
    rw [State.slot_noteIssued, State.slot_modCore _ _ (Core.resumeXfer_slots _ _ _), State.slot_modSlot, State.slot_modSlot]
  · rw [if_pos hmode]
    exact State.finish_goto_fetch h
  · rw [if_neg (by simp [hmode]), if_pos hin, State.goto_ok hal hle]
    have hslot := State.slot_noteIssued ((s.modSlot fun l => { l with pc := s.slot.tepc }).modSlot
      fun l => { l with intrap := false })
    rw [State.slot_modSlot, State.slot_modSlot] at hslot
    refine ⟨_, rfl, rfl, rfl, hslot, fun ha hc => State.turn_copydone ?_ ?_ ?_ ?_⟩
    · exact (congrArg Slot.mode hslot).trans hmode
    · exact (congrArg Slot.asyncs hslot).trans ha
    · exact fun h => hc ((congrArg Slot.cdq hslot).symm.trans h)
    · exact (congrArg Slot.intrap hslot :)
  · rw [if_neg (by simp [hmode]), if_pos hin]
    exact State.finish_goto_fetch h
  · rw [if_neg (by simp [hmode]), if_neg (by simp [hin])]
    rfl

/-! ### The causes of a boundary (R110, R111, R182, R186) -/

/-- A change of a core that leaves its slots leaves every slot. -/
theorem State.getSlot_onCore (s : State) (c : CoreId) {f : Core → Core} (h : ∀ k, (f k).slots = k.slots) (q : SlotId) :
    (s.onCore c f).getSlot q = s.getSlot q := by
  by_cases hq : q.core = c
  · subst hq
    rw [State.getSlot, State.getCore_onCore]
    exact Core.getSlot_congr (h _) q.slot
  · rw [State.getSlot, State.getCore_onCore_other _ _ hq]
    rfl

/-- The engines of a core once a cause of theirs is taken: the parked command whose fault it is waits for the runtime (R169, R174,
R187). -/
def Core.causeTaken (c : Core) : Option Engine → Core
  | some .matrix => { c with mat := { c.mat with parked := c.mat.parked.map fun m => { m with taken := true } } }
  | some .copy => { c with copy := { c.copy with parked := c.copy.parked.map fun x => { x with taken := true } } }
  | none => c

theorem Core.causeTaken_slots (e : Option Engine) (c : Core) : (c.causeTaken e).slots = c.slots := by
  unfold Core.causeTaken
  split <;> rfl

theorem Core.causeTaken_svec (e : Option Engine) (c : Core) : (c.causeTaken e).svec = c.svec := by
  unfold Core.causeTaken
  split <;> rfl

section

variable {s : State} {o : SlotId}

/-- The state in which a slot's oldest asynchronous cause has left its queue, with the slot's waits given up (R111, R112). -/
def State.causeRemoved (s : State) (o : SlotId) (a : AsyncCause) (as : List AsyncCause) : State :=
  ((s.cancelWaits o).onSlot o fun l => { l with asyncs := as }).onCore o.core (·.causeTaken a.engine)

/-- An acquire of a core leaves every slot (R256, R263). -/
theorem State.getSlot_acquired (s : State) (c : CoreId) (q : SlotId) : (s.acquired c).getSlot q = s.getSlot q :=
  s.getSlot_onCore c (f := fun k => { k with rlb := [] }) (fun _ => rfl) q

/-- An acquire of a core empties its remote line buffer (R256). -/
theorem State.rlb_acquired (s : State) (c : CoreId) : ((s.acquired c).getCore c).rlb = [] :=
  congrArg Core.rlb (s.getCore_onCore c fun k => { k with rlb := [] })

/-- The oldest asynchronous cause of a Ready user-mode slot that stands at a boundary (R111, R112). -/
theorem execAsyncSupervisorCause_takes {a : AsyncCause} {as : List AsyncCause} (hasync : (s.getSlot o).asyncs = a :: as)
    (hmode : (s.getSlot o).mode = .user) (hst : (s.getSlot o).st = .ready) (hmay : s.mayTake o = true) :
    exec (.asyncSupervisorCause o) s =
      .next ((s.causeRemoved o a as).takeSup o a.scause a.val (s.getSlot o).pc) := by
  have hexec : exec (.asyncSupervisorCause o) s = execAsyncSupervisorCause o s := rfl
  rw [hexec]
  unfold execAsyncSupervisorCause
  simp only [hasync, hmode, hst, hmay]
  rfl

/-- The oldest delivery of a Ready user-mode slot with INTRAP clear that stands at a boundary without such a cause (R110, R112, R186). -/
theorem execCopydone_takes {d : CopyDone} {ds : List CopyDone} (hcdq : (s.getSlot o).cdq = d :: ds) (hmode : (s.getSlot o).mode = .user)
    (hst : (s.getSlot o).st = .ready) (hin : (s.getSlot o).intrap = false) (hasync : (s.getSlot o).asyncs = []) (hmay : s.mayTake o = true) :
    exec (.copydone o) s =
      .next (((((s.cancelWaits o).onSlot o fun l => { l with cdq := ds, xferid := d.xfer }).enterUser o cCOPYDONE (d.xfer.setWidth 64)
        (s.getSlot o).pc d.handler).acquires o d.clk).acquired o.core) := by
  have hexec : exec (.copydone o) s = execCopydone o s := rfl
  rw [hexec]
  unfold execCopydone
  simp only [hcdq, hmode, hst, hin, hasync, hmay]
  rfl

end

/-- Settles O53: the order of a boundary, then the entry of each cause that it takes. -/
theorem boundaryCauses : Obligations.BoundaryCauses := by
  unfold Obligations.BoundaryCauses
  refine ⟨fun s o => ⟨State.turn_async, State.turn_copydone, fun hmode ha hc => State.turn_run ?_, fun hmode => State.turn_run ?_⟩,
    fun s o a as hasync => ⟨fun hmode => ?_, fun hmode hst hmay hsvec => ?_⟩,
    fun s o d ds hcdq => ⟨fun h => ?_, fun hmode hst hin hasync hmay hhandler => ?_⟩⟩
  · rcases hc with hc | hc <;> simp [Slot.causeDue, hmode, ha, hc]
  · simp [Slot.causeDue, hmode]
  · have hexec : exec (.asyncSupervisorCause o) s = execAsyncSupervisorCause o s := rfl
    rw [hexec]
    unfold execAsyncSupervisorCause
    simp [hasync, hmode]
  · rw [execAsyncSupervisorCause_takes hasync hmode hst hmay]
    have hslot : (s.causeRemoved o a as).getSlot o = { s.getSlot o with asyncs := as } := by
      rw [State.causeRemoved, State.getSlot_onCore _ _ (Core.causeTaken_slots a.engine), State.getSlot_onSlot]
      rfl
    have hvec : ((s.causeRemoved o a as).getCore o.core).svec = (s.getCore o.core).svec := by
      rw [State.causeRemoved, State.getCore_onCore, Core.causeTaken_svec]
      exact (SlotFrame.onSlot (s.cancelWaits o) o _).svec o.core
    rw [State.takeSup_user _ _ _ (by rw [hslot]; exact hmode) (by rw [hvec]; exact (codeOk_iff _).mpr hsvec)]
    refine ⟨_, rfl, rfl, fun q hq => ?_, ?_⟩
    · rw [State.getSlot_onSlot_other _ _ hq, State.causeRemoved, State.getSlot_onCore _ _ (Core.causeTaken_slots a.engine)]
      exact State.getSlot_onSlot_other (s.cancelWaits o) _ hq
    · rw [State.getSlot_onSlot, hslot, hvec]
  · have hexec : exec (.copydone o) s = execCopydone o s := rfl
    rw [hexec]
    unfold execCopydone
    rcases h with h | h | h <;> simp [hcdq, h]
  · rw [execCopydone_takes hcdq hmode hst hin hasync hmay]
    have hslot := State.enterUser_enters ((s.cancelWaits o).onSlot o fun l => { l with cdq := ds, xferid := d.xfer }) o cCOPYDONE
      (d.xfer.setWidth 64) (s.getSlot o).pc d.handler ((codeOk_iff _).mpr hhandler)
    have hframe := (SlotFrame.onSlot (s.cancelWaits o) o fun l => { l with cdq := ds, xferid := d.xfer }).trans
      (SlotFrame.enterUser _ o cCOPYDONE (d.xfer.setWidth 64) (s.getSlot o).pc d.handler)
    refine ⟨_, rfl, hframe.mem, fun q hq => ?_, State.rlb_acquired _ o.core, ?_⟩
    · rw [State.getSlot_acquired, State.acquires, State.getSlot_onSlot_other _ _ hq]
      exact hframe.other q hq
    · rw [State.getSlot_acquired, State.acquires, State.getSlot_onSlot, hslot, State.getSlot_onSlot]
      rfl

end Sys2Proof.Machine

/-! The scalar results (O15). -/

namespace Sys2Proof.Machine

open Sys2Proof

/-! ### Instructions whose x registers are full (R21, R98) -/

section

variable {s : State}

/-- An instruction whose x registers are full goes on past the issue rule (R21). -/
theorem finish_full {srcs : List (XReg × Bool)} {dsts : List XReg} (h : s.FullX (srcs.map (·.1) ++ dsts)) (k : Body State) :
    finish s (issueRule s (srcs.map fun r => (.x r.1, r.2)) (dsts.map .x) >>= fun _ => k) = finish s k := by
  rw [issueRule_full s srcs dsts (fun r hr => h r.1 (List.mem_append_left _ (List.mem_map_of_mem hr)))
    fun d hd => h d (List.mem_append_right _ hd)]
  rfl

/-- An operation on two registers, by its function and the result. -/
theorem aluRR_result {o : R3} (f : Word → Word → Word) {v : Word} (h : s.FullX [o.a, o.b, o.d]) (hv : f (s.xv o.a) (s.xv o.b) = v) :
    aluRR o f s = .next (s.wroteX o.d v 4) :=
  hv ▸ aluRR_full o f s h

/-- An operation on a register and an immediate. -/
theorem aluImm_result {o : IOp} (f : Word → Word → Word) {v : Word} (h : s.FullX [o.a, o.d])
    (hv : f (s.xv o.a) (o.imm.signExtend 64) = v) : aluImm o f s = .next (s.wroteX o.d v 4) :=
  hv ▸ finish_full (srcs := [(o.a, o.wa)]) (dsts := [o.d]) h _

/-- A shift by an immediate amount. -/
theorem aluShift_result {o : ShOp} (f : Word → Nat → Word) {v : Word} (h : s.FullX [o.a, o.d]) (hv : f (s.xv o.a) o.n.toNat = v) :
    aluShift o f s = .next (s.wroteX o.d v 4) :=
  hv ▸ finish_full (srcs := [(o.a, o.wa)]) (dsts := [o.d]) h _

end

/-! ### The functions of the tables (R99, R101, R106) -/

theorem mul_eq_ofNat (a b : Word) : a * b = BitVec.ofNat 64 (a.toNat * b.toNat) := by
  apply BitVec.eq_of_toNat_eq
  rw [BitVec.toNat_mul, BitVec.toNat_ofNat]

/-- An arithmetic shift right divides, rounding down. -/
theorem sshiftRight_eq_ofInt (a : Word) (n : Nat) : a.sshiftRight n = BitVec.ofInt 64 (a.toInt / 2 ^ n) := by
  rw [BitVec.sshiftRight, Int.shiftRight_eq_div_pow]
  rfl

theorem flag_eq_ite {b : Bool} {p : Prop} [Decidable p] (h : b = true ↔ p) : flag b = if p then 1 else 0 := by
  simp [flag, h]

theorem flag_ne_eq_ite (a b : Word) : flag (a != b) = if a = b then 0 else 1 := by
  simp [flag]

/-- A comparison with an immediate compares with the number that it stands for. -/
theorem slt_signExtend_iff (a : Word) (i : BitVec 13) : a.slt (i.signExtend 64) = true ↔ a.toInt < i.toInt := by
  rw [BitVec.slt_iff_toInt_lt, BitVec.toInt_signExtend_of_le (by decide)]

/-- The low word of a product is the product of the low words. -/
theorem sx32_mul (a b : Word) : sx32 (a * b) = (a.setWidth 32 * b.setWidth 32).signExtend 64 := by
  rw [sx32, BitVec.setWidth_mul _ _ (by decide)]

/-- A choice by a signed comparison, said from the other side. -/
theorem ite_slt (a b x y : Word) : (if a.slt b then x else y) = if b.toInt ≤ a.toInt then y else x := by
  by_cases h : b.toInt ≤ a.toInt <;> simp [BitVec.slt_iff_toInt_lt, h, Int.not_lt.mpr, Int.not_le.mp]

/-- A choice by an unsigned comparison, said from the other side. -/
theorem ite_ult (a b x y : Word) : (if a.ult b then x else y) = if b.toNat ≤ a.toNat then y else x := by
  by_cases h : b.toNat ≤ a.toNat <;> simp [BitVec.ult_iff_lt, BitVec.lt_def, h, Nat.not_lt.mpr, Nat.not_le.mp]

/-- Settles O15: the result that the table gives is the one that the instruction's function computes. -/
theorem scalarResults : Obligations.ScalarResults := by
  unfold Obligations.ScalarResults
  intro i s rs d v h hfull
  cases i with
  | add o => cases h; exact aluRR_result (fun a b => a + b) hfull rfl
  | sub o => cases h; exact aluRR_result (fun a b => a - b) hfull rfl
  | and_ o => cases h; exact aluRR_result (fun a b => a &&& b) hfull rfl
  | or_ o => cases h; exact aluRR_result (fun a b => a ||| b) hfull rfl
  | xor_ o => cases h; exact aluRR_result (fun a b => a ^^^ b) hfull rfl
  | andn o => cases h; exact aluRR_result (fun a b => a &&& ~~~b) hfull rfl
  | orn o => cases h; exact aluRR_result (fun a b => a ||| ~~~b) hfull rfl
  | shl o => cases h; exact aluRR_result (fun a b => a <<< shamt b) hfull rfl
  | shr o => cases h; exact aluRR_result (fun a b => a >>> shamt b) hfull rfl
  | rotl o => cases h; exact aluRR_result (fun a b => a.rotateLeft (shamt b)) hfull rfl
  | rotr o => cases h; exact aluRR_result (fun a b => a.rotateRight (shamt b)) hfull rfl
  | sra o => cases h; exact aluRR_result (fun a b => a.sshiftRight (shamt b)) hfull (sshiftRight_eq_ofInt _ _)
  | mul o => cases h; exact aluRR_result (fun a b => a * b) hfull (mul_eq_ofNat _ _)
  | mulh o => cases h; exact aluRR_result mulHigh hfull rfl
  | mulhz o => cases h; exact aluRR_result mulHighZ hfull rfl
  | addw o => cases h; exact aluRR_result (fun a b => sx32 (a + b)) hfull rfl
  | subw o => cases h; exact aluRR_result (fun a b => sx32 (a - b)) hfull rfl
  | mulw o => cases h; exact aluRR_result (fun a b => sx32 (a * b)) hfull (sx32_mul _ _)
  | min_ o => cases h; exact aluRR_result (fun a b => if b.slt a then b else a) hfull (ite_slt _ _ _ _)
  | max_ o => cases h; exact aluRR_result (fun a b => if a.slt b then b else a) hfull (ite_slt _ _ _ _)
  | minz o => cases h; exact aluRR_result (fun a b => if b.ult a then b else a) hfull (ite_ult _ _ _ _)
  | maxz o => cases h; exact aluRR_result (fun a b => if a.ult b then b else a) hfull (ite_ult _ _ _ _)
  | seq o => cases h; exact aluRR_result (fun a b => flag (a == b)) hfull (flag_eq_ite beq_iff_eq)
  | sne o => cases h; exact aluRR_result (fun a b => flag (a != b)) hfull (flag_ne_eq_ite _ _)
  | slt o => cases h; exact aluRR_result (fun a b => flag (a.slt b)) hfull (flag_eq_ite BitVec.slt_iff_toInt_lt)
  | sle o => cases h; exact aluRR_result (fun a b => flag (a.sle b)) hfull (flag_eq_ite BitVec.sle_iff_toInt_le)
  | sltz o => cases h; exact aluRR_result (fun a b => flag (a.ult b)) hfull (flag_eq_ite BitVec.ult_iff_lt)
  | slez o => cases h; exact aluRR_result (fun a b => flag (a.ule b)) hfull (flag_eq_ite BitVec.ule_iff_le)
  | addi o => cases h; exact aluImm_result (fun a i => a + i) hfull rfl
  | andi o => cases h; exact aluImm_result (fun a i => a &&& i) hfull rfl
  | ori o => cases h; exact aluImm_result (fun a i => a ||| i) hfull rfl
  | xori o => cases h; exact aluImm_result (fun a i => a ^^^ i) hfull rfl
  | muli o => cases h; exact aluImm_result (fun a i => a * i) hfull rfl
  | slti o => cases h; exact aluImm_result (fun a i => flag (a.slt i)) hfull (flag_eq_ite (slt_signExtend_iff _ _))
  | sltzi o => cases h; exact aluImm_result (fun a i => flag (a.ult i)) hfull (flag_eq_ite BitVec.ult_iff_lt)
  | shli o => cases h; exact aluShift_result (fun a n => a <<< n) hfull rfl
  | shri o => cases h; exact aluShift_result (fun a n => a >>> n) hfull rfl
  | srai o => cases h; exact aluShift_result (fun a n => a.sshiftRight n) hfull (sshiftRight_eq_ofInt _ _)
  | csel o =>
    cases h
    refine (finish_full (srcs := [(o.a, o.wa), (o.b, o.wb)]) (dsts := [o.d]) hfull _).trans ?_
    rw [ite_not]
    rfl
  | lui o | auipc o | lix o => cases h; exact finish_full (srcs := []) (dsts := [o.d]) hfull _
  | _ => cases h

end Sys2Proof.Machine

/-! Counts, byte swap and bit fields, bit by bit (R99, R102). -/

namespace Sys2Proof.Machine

open Sys2Proof

/-- The leading zeros of the low `n` bits: that many bits are 0, and the next, if there is one, is 1. -/
theorem clzNat_spec (n v : Nat) : clzNat n v ≤ n ∧ (∀ i, n - clzNat n v ≤ i → i < n → v.testBit i = false) ∧
    (clzNat n v < n → v.testBit (n - 1 - clzNat n v) = true) := by
  induction n with
  | zero => exact ⟨Nat.le_refl _, fun _ _ h => absurd h (Nat.not_lt_zero _), fun h => absurd h (Nat.not_lt_zero _)⟩
  | succ n ih =>
    obtain ⟨hle, hzero, hone⟩ := ih
    have hbit : v.testBit n = decide (v / 2 ^ n % 2 = 1) := Nat.testBit_eq_decide_div_mod_eq
    unfold clzNat
    split
    · next h => exact ⟨Nat.zero_le _, fun i _ _ => by omega, fun _ => by simpa [hbit] using h⟩
    · next h =>
      refine ⟨by omega, fun i hi hlt => ?_, fun hlt => ?_⟩
      · by_cases hin : i = n
        · subst hin
          simpa [hbit] using h
        · exact hzero i (by omega) (by omega)
      · have hidx : n + 1 - 1 - (clzNat n v + 1) = n - 1 - clzNat n v := by omega
        rw [hidx]
        exact hone (by omega)

/-- The trailing zeros of the low `n` bits. -/
theorem ctzNat_spec (n v : Nat) : ctzNat n v ≤ n ∧ (∀ i, i < ctzNat n v → v.testBit i = false) ∧
    (ctzNat n v < n → v.testBit (ctzNat n v) = true) := by
  induction n generalizing v with
  | zero => exact ⟨Nat.le_refl _, fun _ h => absurd h (Nat.not_lt_zero _), fun h => absurd h (Nat.not_lt_zero _)⟩
  | succ n ih =>
    obtain ⟨hle, hzero, hone⟩ := ih (v / 2)
    unfold ctzNat
    split
    · next h => exact ⟨Nat.zero_le _, fun i hi => absurd hi (Nat.not_lt_zero _), fun _ => by simpa [Nat.testBit_zero] using h⟩
    · next h =>
      refine ⟨by omega, fun i hi => ?_, fun hlt => ?_⟩
      · cases i with
        | zero => simpa [Nat.testBit_zero] using h
        | succ i => rw [Nat.testBit_succ]; exact hzero i (by omega)
      · rw [Nat.testBit_succ]
        exact hone (by omega)

/-- The ones among the low `n` bits. -/
theorem popNat_eq (n v : Nat) : popNat n v = ((List.range n).filter v.testBit).length := by
  induction n generalizing v with
  | zero => rfl
  | succ n ih =>
    have htail : ((List.range n).map Nat.succ).filter v.testBit = ((List.range n).filter (v / 2).testBit).map Nat.succ := by
      rw [List.filter_map]
      congr 2
      funext i
      exact Nat.testBit_succ v i
    rw [popNat, ih, List.range_succ_eq_map, List.filter_cons, htail]
    rcases Nat.mod_two_eq_zero_or_one v with h | h <;> simp [Nat.testBit_zero, h, Nat.add_comm]

/-- A byte of a value laid out in memory order. -/
theorem natBytes_getD (n v i : Nat) (h : i < n) : (natBytes n v).getD i 0 = BitVec.ofNat 8 (v / 256 ^ i) := by
  induction n generalizing v i with
  | zero => exact absurd h (Nat.not_lt_zero _)
  | succ n ih =>
    cases i with
    | zero => simp [natBytes]
    | succ i =>
      have := ih (v / 256) i (by omega)
      rw [natBytes, List.getD_cons_succ, this, Nat.div_div_eq_div_mul, Nat.pow_succ']

/-- A byte of the value that bytes in memory order make. -/
theorem leNat_byte (bs : List Byte) (i : Nat) : leNat bs / 256 ^ i % 256 = (bs.getD i 0).toNat := by
  induction bs generalizing i with
  | nil => simp [leNat]
  | cons b bs ih =>
    have hb := b.isLt
    cases i with
    | zero => simp [leNat]; omega
    | succ i =>
      have hdiv : (b.toNat + 256 * leNat bs) / 256 = leNat bs := by omega
      rw [leNat, List.getD_cons_succ, ← ih i, Nat.pow_succ', ← Nat.div_div_eq_div_mul, hdiv]

/-- Bytes in memory order make a number of as many bytes. -/
theorem leNat_lt (bs : List Byte) : leNat bs < 256 ^ bs.length := by
  induction bs with
  | nil => exact Nat.one_pos
  | cons b bs ih =>
    have hb := b.isLt
    rw [leNat, List.length_cons, Nat.pow_succ']
    omega

/-- A byte of a word is a byte of its number. -/
theorem extractLsb'_byte (a : Word) (i : Nat) : a.extractLsb' (8 * i) 8 = BitVec.ofNat 8 (a.toNat / 256 ^ i) := by
  rw [BitVec.extractLsb', Nat.shiftRight_eq_div_pow, Nat.pow_mul]

/-- `bswap` reverses the bytes. -/
theorem byteSwap_byte (a : Word) (i : Nat) (h : i < 8) :
    (byteSwap a).extractLsb' (8 * i) 8 = a.extractLsb' (56 - 8 * i) 8 := by
  have hlt : leNat (natBytes 8 a.toNat).reverse < 2 ^ 64 := by simpa using leNat_lt (natBytes 8 a.toNat).reverse
  have hidx : 56 - 8 * i = 8 * (7 - i) := by omega
  rw [hidx, extractLsb'_byte, extractLsb'_byte, byteSwap, BitVec.toNat_ofNat, Nat.mod_eq_of_lt hlt]
  apply BitVec.eq_of_toNat_eq
  rw [BitVec.toNat_ofNat]
  refine (leNat_byte _ i).trans ?_
  congr 1
  rw [List.getD_eq_getElem?_getD, List.getElem?_reverse (by simpa), ← List.getD_eq_getElem?_getD, length_natBytes,
    natBytes_getD _ _ _ (by omega)]

/-- The field of `bfx` is the low bits of the shifted word, extended. -/
theorem bitField_eq (a : Word) (pos len : Nat) (signed : Bool) :
    bitField a pos len signed = if signed then ((a >>> pos).setWidth len).signExtend 64 else ((a >>> pos).setWidth len).setWidth 64 := by
  have hv : ((a >>> pos).setWidth len).toNat = a.toNat / 2 ^ pos % 2 ^ len := by
    rw [BitVec.toNat_setWidth, BitVec.toNat_ushiftRight, Nat.shiftRight_eq_div_pow]
  have hmsb : ((a >>> pos).setWidth len).msb = decide (a.toNat / 2 ^ pos % 2 ^ len / 2 ^ (len - 1) % 2 = 1) := by
    rw [BitVec.msb_eq_getLsbD_last, BitVec.getLsbD, hv, Nat.testBit_eq_decide_div_mod_eq]
  have hzero : ((a >>> pos).setWidth len).setWidth 64 = BitVec.ofNat 64 (a.toNat / 2 ^ pos % 2 ^ len) := by
    rw [← hv, BitVec.ofNat_toNat]
  unfold bitField
  cases signed with
  | false => exact hzero.symm
  | true =>
    by_cases h : a.toNat / 2 ^ pos % 2 ^ len / 2 ^ (len - 1) % 2 = 1
    · have hint : ((a >>> pos).setWidth len).toInt = (a.toNat / 2 ^ pos % 2 ^ len : Nat) - 2 ^ len := by
        rw [BitVec.toInt_eq_msb_cond, hmsb, if_pos (by simp [h]), hv, Int.natCast_pow]
        rfl
      simp only [h, decide_true, Bool.and_self, if_true, BitVec.signExtend, hint]
    · rw [if_pos rfl, BitVec.signExtend_eq_setWidth_of_msb_false (by simp [hmsb, h]), hzero]
      simp [h]

/-- `bfx` extracts and extends. -/
theorem getLsbD_bitField (a : Word) (pos len1 : Nat) (signed : Bool) (i : Nat) (hi : i < 64) :
    (bitField a pos (len1 + 1) signed).getLsbD i = if i ≤ len1 then a.getLsbD (pos + i) else signed && a.getLsbD (pos + len1) := by
  have hmsb : ((a >>> pos).setWidth (len1 + 1)).msb = a.getLsbD (pos + len1) := by
    simp [BitVec.msb_eq_getLsbD_last]
  rw [bitField_eq a pos (len1 + 1) signed]
  cases signed <;> by_cases h : i ≤ len1 <;>
    simp [BitVec.getElem_signExtend, hi, hmsb, h]

/-- A field's mask. -/
theorem getLsbD_fieldMask (pos len i : Nat) (hi : i < 64) :
    (BitVec.ofNat 64 ((2 ^ len - 1) * 2 ^ pos)).getLsbD i = decide (pos ≤ i ∧ i < pos + len) := by
  rw [BitVec.getLsbD_ofNat, Nat.testBit_mul_two_pow, Nat.testBit_two_pow_sub_one, Bool.eq_iff_iff]
  simp only [hi, decide_true, Bool.true_and, Bool.and_eq_true, decide_eq_true_eq]
  omega

/-- `bfi` replaces a field. -/
theorem getLsbD_insertField (d a : Word) (pos len1 : Nat) (i : Nat) (hi : i < 64) :
    (insertField d a pos (len1 + 1)).getLsbD i = if pos ≤ i && i ≤ pos + len1 then a.getLsbD (i - pos) else d.getLsbD i := by
  unfold insertField
  rw [BitVec.getLsbD_or, BitVec.getLsbD_and, BitVec.getLsbD_and, BitVec.getLsbD_not, BitVec.getLsbD_shiftLeft, getLsbD_fieldMask _ _ _ hi]
  by_cases h : pos ≤ i ∧ i ≤ pos + len1
  · have hin : pos ≤ i ∧ i < pos + (len1 + 1) := by omega
    simp [h, hin, hi, Nat.not_lt.mpr h.1]
  · have hout : ¬(pos ≤ i ∧ i < pos + (len1 + 1)) := by omega
    simp [h, hout, hi]

end Sys2Proof.Machine

/-! Division, by zero too, and with it O16. -/

namespace Sys2Proof.Machine

open Sys2Proof

/-! ### Division (R57, R99, R100) -/

/-- The state after a division by zero whose result is `z`, before an ARITH that it owes: the event is counted in counter 5 (R57, R100). -/
def State.dividedByZero (s : State) (d : XReg) (z : Word) : State := ((s.putX d z).advance 4).modCore (·.count 5 1)

/-- Counting no event leaves a core (R34). -/
theorem Core.count_zero (c : Core) (i : Fin 16) : c.count i 0 = c := by
  have h : satAdd32 c.xcnt[i.val] 0 = c.xcnt[i.val] := by
    apply BitVec.eq_of_toNat_eq
    have := c.xcnt[i.val].isLt
    simp only [satAdd32, BitVec.toNat_ofNat]
    omega
  unfold Core.count
  rw [h, Vector.set_getElem_self]

/-- A division by zero counts in counter 5 alone (R34, R100). -/
theorem Core.countEvents_divz (c : Core) : c.countEvents evDivz = c.count 5 1 := by
  simp only [Core.countEvents, evDivz, Events.zero, Core.count_zero]

/-- A division by zero owes ARITH in user mode with CR.AXEN[5] set (R57). -/
theorem Slot.arith_divz (l : Slot) :
    l.arith evDivz = if l.mode = .user ∧ l.axen.getLsbD 5 = true then some (cARITH, 5) else none := by
  have hraised : evDivz.raised = [5] := by decide
  unfold Slot.arith
  rw [hraised, List.find?_singleton]
  cases hmode : l.mode with
  | supervisor => rfl
  | user =>
    by_cases h : l.axen.getLsbD 5 = true
    · exact (congrArg (Option.map _) (if_pos h)).trans (if_pos ⟨rfl, h⟩).symm
    · exact (congrArg (Option.map _) (if_neg h)).trans (if_neg fun hp => h hp.2).symm

section

variable {s : State}

/-- A divisor that is not zero (R100). -/
theorem aluDiv_nonzero {o : R3} (f : Word → Word → Word) {v : Word} (h : s.FullX [o.a, o.b, o.d]) (hb : s.xv o.b ≠ 0)
    (hv : f (s.xv o.a) (s.xv o.b) = v) : aluDiv o f s = .next (s.wroteX o.d v 4) := by
  subst hv
  refine (finish_full (srcs := [(o.a, o.wa), (o.b, o.wb)]) (dsts := [o.d]) h _).trans ?_
  dsimp only
  rw [if_neg hb]
  rfl

/-- The acting slot after a division by zero. -/
theorem State.slot_dividedByZero (d : XReg) (z : Word) :
    (s.dividedByZero d z).slot = { s.slot.setX d z with pc := s.slot.pc + 4 } := by
  rw [State.dividedByZero, State.slot_modCore _ _ (Core.count_slots _ _ _), State.advance, State.slot_modSlot, State.putX, State.slot_modSlot]
  rw [Slot.setX_pc]

/-- The counters after a division by zero (R34, R100). -/
theorem State.xcnt_dividedByZero (d : XReg) (z : Word) (n : Fin 16) :
    (s.dividedByZero d z).core.xcnt[n] =
      if n = 5 then BitVec.ofNat 32 (min (s.core.xcnt[n].toNat + 1) 0xFFFF_FFFF) else s.core.xcnt[n] := by
  rw [State.dividedByZero, State.core_modCore, Core.xcnt_count, State.advance, State.core_modSlot, State.putX, State.core_modSlot]
  rfl

/-- A zero divisor (R57, R100). -/
theorem aluDiv_zero {o : R3} (f : Word → Word → Word) {z : Word} (h : s.FullX [o.a, o.b, o.d]) (hb : s.xv o.b = 0)
    (hz : f (s.xv o.a) (s.xv o.b) = z) :
    aluDiv o f s = .next ((s.dividedByZero o.d z).owe (s.slot.arith evDivz)).noteIssued := by
  subst hz
  refine (finish_full (srcs := [(o.a, o.wa), (o.b, o.wb)]) (dsts := [o.d]) h _).trans ?_
  dsimp only
  rw [if_pos hb, State.withEvents, Slot.arith_divz, State.advance, State.slot_modSlot, State.putX, State.slot_modSlot,
    Slot.setX_mode, Slot.setX_axen, ← Slot.arith_divz]
  rw [State.countEvents, funext Core.countEvents_divz]
  rfl

/-- An ARITH owed at a boundary changes the acting slot alone, and none of its x registers (R57, R110). -/
theorem SlotFrame.owe_arith (s : State) (l : Slot) (e : Events) : SlotFrame s (s.owe (l.arith e)) s.cur := by
  unfold State.owe
  split
  · exact .refl s s.cur
  · next cause v h =>
    have hcause : cause = cARITH := by
      unfold Slot.arith at h
      split at h
      · cases h
      · obtain ⟨n, -, hn⟩ := Option.map_eq_some_iff.mp h
        exact (congrArg Prod.fst hn).symm
    subst hcause
    exact SlotFrame.takeUser s s.cur cARITH v s.slot.pc (s.slot.pc - 4)

/-- What is read of an x register depends on the x registers alone. -/
theorem Slot.getX_congr {l k : Slot} (h : l.x = k.x) (n : XReg) : l.getX n = k.getX n := by
  simp only [Slot.getX, h]

/-- Counting an instruction leaves the exception counters. -/
theorem State.xcnt_noteIssued (s : State) : s.noteIssued.core.xcnt = s.core.xcnt := by
  simp only [State.core, State.noteIssued, State.noteIssuedAt, State.onCore_cur, State.getCore_onCore]
  rfl

end

/-- The state after a division by zero whose result is `z`, with the ARITH that it owes (R57, R100). -/
def State.divisionByZero (s : State) (d : XReg) (z : Word) : State := ((s.dividedByZero d z).owe (s.slot.arith evDivz)).noteIssued

section

variable (s : State) (d : XReg) (z : Word)

/-- The x registers after a division by zero. -/
theorem State.getX_divisionByZero (n : XReg) : (s.divisionByZero d z).slot.getX n = (s.slot.setX d z).getX n := by
  have hframe := SlotFrame.owe_arith (s.dividedByZero d z) s.slot evDivz
  have hx : (s.divisionByZero d z).slot.x = (s.dividedByZero d z).slot.x := by
    rw [State.divisionByZero, State.slot_noteIssued, State.slot, hframe.cur]
    exact hframe.x
  rw [Slot.getX_congr hx, State.slot_dividedByZero]
  rfl

/-- The counters after a division by zero (R34, R100). -/
theorem State.xcnt_divisionByZero (n : Fin 16) : (s.divisionByZero d z).core.xcnt[n] =
    if n = 5 then BitVec.ofNat 32 (min (s.core.xcnt[n].toNat + 1) 0xFFFF_FFFF) else s.core.xcnt[n] := by
  have hframe := SlotFrame.owe_arith (s.dividedByZero d z) s.slot evDivz
  have hx : (s.divisionByZero d z).core.xcnt = (s.dividedByZero d z).core.xcnt := by
    rw [State.divisionByZero, State.xcnt_noteIssued, State.core, hframe.cur]
    exact hframe.xcnt _
  rw [hx]
  exact State.xcnt_dividedByZero d z n

/-- Without ARITH the next instruction follows (R57). -/
theorem State.pc_divisionByZero (h : s.slot.mode = .supervisor ∨ s.slot.axen.getLsbD 5 = false) :
    (s.divisionByZero d z).slot.pc = s.slot.pc + 4 := by
  have hnone : s.slot.arith evDivz = none := by
    rw [Slot.arith_divz, if_neg]
    rintro ⟨hmode, haxen⟩
    rcases h with h | h
    · exact absurd (hmode.symm.trans h) (by decide)
    · exact absurd (haxen.symm.trans h) (by decide)
  rw [State.divisionByZero, hnone, State.slot_noteIssued]
  exact congrArg Slot.pc (State.slot_dividedByZero d z)

/-- With ARITH the user handler is entered (R57, R110). -/
theorem State.slot_divisionByZero_arith (hmode : s.slot.mode = .user) (haxen : s.slot.axen.getLsbD 5 = true)
    (hin : s.slot.intrap = false) (htvec : codeOk s.slot.tvec.toNat = true) :
    (s.divisionByZero d z).slot = { s.slot.setX d z with
      tepc := s.slot.pc + 4, tcause := cARITH, tval := 5, intrap := true, pc := s.slot.tvec, wait := none, joinAns := none,
      issued := s.slot.issued + 1 } := by
  have hslot : (s.dividedByZero d z).getSlot s.cur = { s.slot.setX d z with pc := s.slot.pc + 4 } := State.slot_dividedByZero d z
  have henters := State.getSlot_takeUser_enters (s := s.dividedByZero d z) (o := s.cur) cARITH 5 (s.dividedByZero d z).slot.pc
    ((s.dividedByZero d z).slot.pc - 4) (by rw [hslot, Slot.setX_mode]; exact hmode) (by rw [hslot, Slot.setX_intrap]; exact hin)
    (by rw [hslot, Slot.setX_tvec]; exact htvec)
  rw [hslot, Slot.setX_tvec] at henters
  have howe : (s.dividedByZero d z).owe (s.slot.arith evDivz) = (s.dividedByZero d z).takeUser s.cur cARITH 5
      (s.dividedByZero d z).slot.pc ((s.dividedByZero d z).slot.pc - 4) := by
    rw [Slot.arith_divz, if_pos ⟨hmode, haxen⟩]
    rfl
  rw [State.divisionByZero, howe, State.slot_noteIssued, State.slot, (SlotFrame.takeUser _ _ _ _ _ _).cur]
  have hcur : ((s.dividedByZero d z).countRaised s.cur cARITH).cur = s.cur := rfl
  rw [hcur, henters]
  have hpc : (s.dividedByZero d z).slot.pc = s.slot.pc + 4 := congrArg Slot.pc hslot
  rw [hpc, Slot.setX_issued]

end

/-- The function of each division, for a divisor that is not zero and for zero (R99, R100). -/
theorem divResult_form {i : Instr} {s : State} {o : R3} {v z : Word} (h : divResult s i = some (o, v, z)) :
    ∃ f, exec i s = aluDiv o f s ∧ (s.xv o.b ≠ 0 → f (s.xv o.a) (s.xv o.b) = v) ∧
      (s.xv o.b = 0 → f (s.xv o.a) (s.xv o.b) = z) := by
  cases i with
  | div o => cases h; exact ⟨divS, rfl, fun hb => if_neg hb, fun hb => if_pos hb⟩
  | divz o => cases h; exact ⟨divU, rfl, fun hb => if_neg hb, fun hb => if_pos hb⟩
  | rem o => cases h; exact ⟨remS, rfl, fun hb => (if_neg hb).trans (by rw [Int.tmod_def]), fun hb => if_pos hb⟩
  | remz o => cases h; exact ⟨remU, rfl, fun hb => if_neg hb, fun hb => if_pos hb⟩
  | _ => cases h

/-- Settles O16: the bits of each result, and the two cases of the divisor. -/
theorem bitsAndDivision : Obligations.BitsAndDivision := by
  unfold Obligations.BitsAndDivision
  refine ⟨fun i s rs d p h hfull => ?_, fun i s o v z h hfull => ?_⟩
  · cases i with
    | clz o =>
      cases h
      obtain ⟨hle, hzero, hone⟩ := clzNat_spec 64 (s.xv o.a).toNat
      exact ⟨_, ⟨_, rfl, hle, hzero, hone⟩, aluR_full o (fun a => BitVec.ofNat 64 (clzNat 64 a.toNat)) s hfull⟩
    | ctz o =>
      cases h
      obtain ⟨hle, hzero, hone⟩ := ctzNat_spec 64 (s.xv o.a).toNat
      exact ⟨_, ⟨_, rfl, hle, hzero, hone⟩, aluR_full o (fun a => BitVec.ofNat 64 (ctzNat 64 a.toNat)) s hfull⟩
    | popc o =>
      cases h
      exact ⟨_, congrArg (BitVec.ofNat 64) (popNat_eq 64 _), aluR_full o (fun a => BitVec.ofNat 64 (popNat 64 a.toNat)) s hfull⟩
    | bswap o => cases h; exact ⟨_, byteSwap_byte _, aluR_full o byteSwap s hfull⟩
    | bfx o =>
      cases h
      exact ⟨_, getLsbD_bitField _ _ _ _, finish_full (srcs := [(o.a, o.wa)]) (dsts := [o.d]) hfull _⟩
    | bfi o =>
      cases h
      exact ⟨_, getLsbD_insertField _ _ _ _, finish_full (srcs := [(o.a, o.wa)]) (dsts := [o.d]) hfull _⟩
    | _ => cases h
  · obtain ⟨f, hexec, hv, hz⟩ := divResult_form h
    rw [hexec]
    refine ⟨fun hb => aluDiv_nonzero f hfull hb (hv hb), fun hb => ⟨s.divisionByZero o.d z, aluDiv_zero f hfull hb (hz hb), ?_⟩⟩
    have hframe := SlotFrame.owe_arith (s.dividedByZero o.d z) s.slot evDivz
    refine ⟨hframe.mem, ?_, fun n hn => ?_, s.xcnt_divisionByZero o.d z, s.pc_divisionByZero o.d z, fun hmode haxen hin htvec => ?_⟩
    · rw [State.getX_divisionByZero]
      exact s.slot.getX_setX o.d z
    · rw [State.getX_divisionByZero]
      exact s.slot.getX_setX_other z hn
    · rw [s.slot_divisionByZero_arith o.d z hmode haxen hin ((codeOk_iff _).mpr htvec)]
      exact ⟨rfl, rfl, rfl, rfl, rfl⟩

end Sys2Proof.Machine

/-! Branches and jumps (O18) and `loop` (O19). -/

namespace Sys2Proof.Machine

open Sys2Proof

/-! ### Branches and jumps (R18, R103, R104) -/

theorem codeOk_iff_isCode (t : Nat) : codeOk t = true ↔ isCode t := codeOk_iff t

section

variable {s : State}

/-- A jump to a code offset, from the state `u` that it has made of `s` (R18). -/
theorem finish_goto_code {u : State} {t : Word} (h : isCode t.toNat) : finish s (u.goto t) = .next (u.jumped t) := by
  rw [State.goto, if_pos ((codeOk_iff_isCode _).mpr h)]
  rfl

/-- A jump to what is no code offset is FETCH at the instruction, with nothing else done (R18). -/
theorem finish_goto_bad {u : State} {t : Word} (h : ¬isCode t.toNat) :
    finish s (u.goto t) = .next (s.takeSup s.cur 0x0911 t s.slot.pc) := by
  rw [State.goto, if_neg (mt (codeOk_iff_isCode _).mp h)]
  rfl

/-- A conditional branch with both registers full (R103). -/
theorem branch_full {o : BOp} (f : Word → Word → Bool) (h : s.FullX [o.a, o.b]) :
    branch o f s = finish s (if f (s.xv o.a) (s.xv o.b) then s.goto (s.slot.pc.setWidth 64 + 4 * o.off.signExtend 64)
      else .ok (s.advance 4)) :=
  finish_full (srcs := [(o.a, o.wa), (o.b, o.wb)]) (dsts := []) h _

/-- The comparison of each conditional branch (R103). -/
theorem branchTaken_form {i : Instr} {o : BOp} {taken : Prop} (h : branchTaken s i = some (o, taken)) :
    ∃ f, exec i s = branch o f s ∧ (f (s.xv o.a) (s.xv o.b) = true ↔ taken) := by
  cases i with
  | beq o => cases h; exact ⟨fun a b => a == b, rfl, beq_iff_eq⟩
  | bne o => cases h; exact ⟨fun a b => a != b, rfl, bne_iff_ne⟩
  | blt o => cases h; exact ⟨fun a b => a.slt b, rfl, BitVec.slt_iff_toInt_lt⟩
  | bge o => cases h; exact ⟨fun a b => b.sle a, rfl, BitVec.sle_iff_toInt_le⟩
  | bltz o => cases h; exact ⟨fun a b => a.ult b, rfl, BitVec.ult_iff_lt⟩
  | bgez o => cases h; exact ⟨fun a b => b.ule a, rfl, BitVec.ule_iff_le⟩
  | _ => cases h

end

/-- The two forms of an own-local code address: [63:20] zero, or the 0x1 form that names the core and window 0 (R18, R104). -/
theorem ownCode_iff (c : CoreId) (t : Word) : ownCode c t = true ↔ t.extractLsb' 20 44 = 0 ∨
    (t.extractLsb' 44 20 = 1 ∧ t.extractLsb' 42 2 = 0 ∧ t.extractLsb' 24 18 = c ∧ t.extractLsb' 20 4 = 0) := by
  have hc := c.isLt
  have ht := t.isLt
  simp only [ownCode, Bool.or_eq_true, beq_iff_eq, ← BitVec.toNat_inj, BitVec.extractLsb'_toNat, Nat.shiftRight_eq_div_pow]
  simp only [BitVec.ofNat_eq_ofNat, BitVec.toNat_ofNat]
  omega

section

variable {s : State}

/-- The end of `jalr`, from the state `u` that holds its link (R104). -/
def State.jumpOwn (s u : State) (t : Word) : Body State :=
  if ownCode s.cur.core t && codeOk (t.toNat % 2 ^ 20) then .ok (u.modSlot fun l => { l with pc := t.setWidth 20 }) else trapFault .fetch t

theorem jumpOwn_check (t : Word) : (ownCode s.cur.core t && codeOk (t.toNat % 2 ^ 20)) = true ↔
    ownCode s.cur.core t = true ∧ isCode (t.extractLsb' 0 20).toNat := by
  rw [Bool.and_eq_true, codeOk_iff_isCode, ← BitVec.setWidth_eq_extractLsb' (by decide), BitVec.toNat_setWidth]

/-- `jalr` to a code offset of the own core (R104). -/
theorem finish_jumpOwn {u : State} {t : Word} (hown : ownCode s.cur.core t = true) (hcode : isCode (t.extractLsb' 0 20).toNat) :
    finish s (s.jumpOwn u t) = .next (u.jumped ((t.extractLsb' 0 20).setWidth 64)) := by
  rw [State.jumpOwn, if_pos ((jumpOwn_check t).mpr ⟨hown, hcode⟩), State.jumped, setWidth_setWidth_off,
    ← BitVec.setWidth_eq_extractLsb' (by decide)]
  rfl

/-- `jalr` to anything else is FETCH, with no link written (R18, R104). -/
theorem finish_jumpOwn_bad {u : State} {t : Word} (h : ¬(ownCode s.cur.core t = true ∧ isCode (t.extractLsb' 0 20).toNat)) :
    finish s (s.jumpOwn u t) = .next (s.takeSup s.cur 0x0911 t s.slot.pc) := by
  rw [State.jumpOwn, if_neg (mt (jumpOwn_check t).mp h)]
  rfl

/-- An instruction whose issue rule meets an empty x source traps or waits as that source's wait bit says (R9, R21). -/
theorem finish_empty {srcs : List (Reg × Bool)} {dsts : List Reg} {r : XReg} (wait : Bool) (after : List (Reg × Bool)) (k : Body State)
    (hr : s.slot.xIsFull r = false) (hsrcs : srcs = (.x r, wait) :: after) :
    finish s (issueRule s srcs dsts >>= fun _ => k) = .next (if wait then s.takeUser s.cur cEMPTY (r.setWidth 64) s.slot.pc s.slot.pc
      else s.setWait { kind := 4, obj := r.setWidth 64, ph := 0 }) := by
  have hempty : s.slot.srcEmpty (.x r) = true := by simp [Slot.srcEmpty, hr]
  have hnum : BitVec.ofNat 64 (Reg.x r).number = r.setWidth 64 := BitVec.ofNat_toNat 64 r
  have hissue := issueRule_empty (before := []) wait after dsts (by simp) hempty
  rw [List.nil_append, hnum] at hissue
  rw [hsrcs, hissue]
  cases wait with
  | true => rfl
  | false => exact (finish_wait s s _).trans (congrArg Host.Outcome.next (s.setWait_undoSlot_self _))

end

/-- Settles O18: each branch by its comparison, and each jump by its target. -/
theorem branchesAndJumps : Obligations.BranchesAndJumps := by
  unfold Obligations.BranchesAndJumps
  refine ⟨fun i s o taken h hfull => ?_, fun o s hfull => ?_, fun o s hfull => ?_⟩
  · obtain ⟨f, hexec, htaken⟩ := branchTaken_form h
    rw [hexec, branch_full f hfull]
    refine ⟨fun hnot => ?_, fun htake hcode => ?_, fun htake hbad => ?_⟩
    · rw [if_neg (mt htaken.mp hnot)]
      rfl
    · rw [if_pos (htaken.mpr htake)]
      exact finish_goto_code hcode
    · rw [if_pos (htaken.mpr htake)]
      exact finish_goto_bad hbad
  · have hexec : exec (.jal o) s = finish s ((s.putX o.d s.link).goto (branchTarget s.slot.pc o.off)) :=
      finish_full (srcs := []) (dsts := [o.d]) hfull _
    rw [hexec]
    exact ⟨finish_goto_code, finish_goto_bad⟩
  · have hexec : exec (.jalr o) s = finish s (s.jumpOwn (s.putX o.d s.link) (s.xv o.a + o.imm.signExtend 64)) :=
      finish_full (srcs := [(o.a, o.wa)]) (dsts := [o.d]) hfull _
    rw [hexec]
    dsimp only
    rw [← ownCode_iff]
    exact ⟨finish_jumpOwn, finish_jumpOwn_bad⟩

/-- Settles O19: by the number of iterations left, and by the issue rule where a is empty. -/
theorem loopResult : Obligations.LoopResult := by
  unfold Obligations.LoopResult
  intro o s
  have hexec : s.FullX [o.a] → exec (.loop o) s = finish s (
      if s.xv o.a - 1 = 0 then .ok ((s.putX o.a (s.xv o.a - 1)).advance 4)
      else (s.putX o.a (s.xv o.a - 1)).goto (branchTarget s.slot.pc o.off)) := fun hfull =>
    finish_full (srcs := [(o.a, o.wa)]) (dsts := [o.a]) (by simpa [State.FullX] using hfull) _
  refine ⟨fun hfull hn => ?_, fun hfull hn hcode => ?_, fun hfull hn hbad => ?_, fun ha => ?_, fun hempty => ?_⟩
  · rw [hexec hfull, if_pos hn]
    rfl
  · rw [hexec hfull, if_neg hn]
    exact finish_goto_code hcode
  · rw [hexec hfull, if_neg hn]
    exact finish_goto_bad hbad
  · rw [ha]
    rfl
  · have hempty : s.slot.xIsFull o.a = false := by simpa [State.FullX] using hempty
    exact finish_empty o.wa [] _ hempty rfl

end Sys2Proof.Machine

/-! Control registers (O21). -/

namespace Sys2Proof.Machine

open Sys2Proof

/-! ### Control registers (R32, R107, R108) -/

section

variable {s : State}

/-- A wait of an instruction that has done nothing yet (R9, R340). -/
theorem finish_waitHere (kind : Nat) (ph : Word) :
    finish s (waitHere s kind ph) = .next (s.setWait { kind := kind, obj := s.slot.pc.setWidth 64, ph := ph }) :=
  (finish_wait s s _).trans (congrArg Host.Outcome.next (s.setWait_undoSlot_self _))

/-- The access check of a register that the mode may access so is the wait of R108. -/
theorem crCheck_of_allowed {n : Nat} {write : Bool} (h : crAccess s.slot.mode n = .rw ∨ (crAccess s.slot.mode n = .ro ∧ write = false)) :
    crCheck s n write = if crHeld n && !s.core.commandsSettled then waitHere s 10 (BitVec.ofNat 64 n) else .ok () := by
  unfold crCheck
  rcases h with h | ⟨h, hw⟩
  · rw [h]
  · rw [h, hw]
    rfl

/-- Past that check with the core's commands settled, or for a register that no unit writes (R108). -/
theorem finish_crCheck_ok {n : Nat} {write : Bool} (k : Body State)
    (h : crAccess s.slot.mode n = .rw ∨ (crAccess s.slot.mode n = .ro ∧ write = false))
    (hsettled : crHeld n = false ∨ s.core.commandsSettled = true) :
    finish s (crCheck s n write >>= fun _ => k) = finish s k := by
  rw [crCheck_of_allowed h, if_neg (by rcases hsettled with h | h <;> simp [h])]
  rfl

/-- The wait for the core's commands (R108, R340). -/
theorem finish_crCheck_wait {n : BitVec 13} {write : Bool} (k : Body State)
    (h : crAccess s.slot.mode n.toNat = .rw ∨ (crAccess s.slot.mode n.toNat = .ro ∧ write = false))
    (hheld : crHeld n.toNat = true) (hunsettled : s.core.commandsSettled = false) :
    finish s (crCheck s n.toNat write >>= fun _ => k) =
      .next (s.setWait { kind := 10, obj := s.slot.pc.setWidth 64, ph := n.setWidth 64 }) := by
  have hnum : BitVec.ofNat 64 n.toNat = n.setWidth 64 := BitVec.ofNat_toNat 64 n
  rw [crCheck_of_allowed h, if_pos (by simp [hheld, hunsettled]), hnum]
  exact finish_waitHere 10 _

/-- A control-register write past its checks: the value, unless it would change AQCTL.ESZ (R32, R107). -/
theorem crModify_writes {o : CrwOp} (f : Word → Word → Word) {w : Word} (hfull : s.FullX [o.a])
    (hrw : crAccess s.slot.mode o.n.toNat = .rw) (hsettled : crHeld o.n.toNat = false ∨ s.core.commandsSettled = true)
    (hw : f (s.crRead o.n.toNat) (s.xv o.a) = w) :
    crModify o f s = .next (if o.n = 0x045 → w.extractLsb' 48 4 = 6 then ((s.crWrite o.n.toNat w).advance 4).noteIssued
      else s.takeSup s.cur 0x0010 s.instrWord s.slot.pc) := by
  have hbits : bits w.toNat 48 4 = 6 ↔ w.extractLsb' 48 4 = 6 := by
    rw [← BitVec.toNat_inj, BitVec.extractLsb'_toNat, Nat.shiftRight_eq_div_pow]
    rfl
  have hrefuse : (decide (o.n = 0x045) && decide (bits w.toNat 48 4 ≠ 6)) = true ↔ ¬(o.n = 0x045 → w.extractLsb' 48 4 = 6) := by
    rw [Bool.and_eq_true, decide_eq_true_eq, decide_eq_true_eq, ne_eq, hbits, Classical.not_imp]
  subst hw
  refine (finish_full (srcs := [(o.a, o.wa)]) (dsts := []) hfull _).trans ((finish_crCheck_ok _ (.inl hrw) hsettled).trans ?_)
  dsimp only
  by_cases h : o.n = 0x045 → (f (s.crRead o.n.toNat) (s.xv o.a)).extractLsb' 48 4 = 6
  · rw [if_pos h, if_neg (mt hrefuse.mp (not_not_intro h))]
    rfl
  · rw [if_neg h, if_pos (hrefuse.mpr h)]
    rfl

/-- A control-register write that waits (R108). -/
theorem crModify_waits {o : CrwOp} (f : Word → Word → Word) (hfull : s.FullX [o.a]) (hrw : crAccess s.slot.mode o.n.toNat = .rw)
    (hheld : crHeld o.n.toNat = true) (hunsettled : s.core.commandsSettled = false) :
    crModify o f s = .next (s.setWait { kind := 10, obj := s.slot.pc.setWidth 64, ph := o.n.setWidth 64 }) :=
  (finish_full (srcs := [(o.a, o.wa)]) (dsts := []) hfull _).trans (finish_crCheck_wait _ (.inl hrw) hheld hunsettled)

end

/-- Settles O21: each access past its issue rule and its check, which waits or goes on. -/
theorem controlRegisterAccess : Obligations.ControlRegisterAccess := by
  unfold Obligations.ControlRegisterAccess
  intro s
  refine ⟨fun o hfull hacc => ?_, fun o hfull hrw => ⟨fun hsettled => ?_, fun hheld hunsettled => ?_⟩⟩
  · have hread : crAccess s.slot.mode o.n.toNat = .rw ∨ (crAccess s.slot.mode o.n.toNat = .ro ∧ false = false) := by
      cases h : crAccess s.slot.mode o.n.toNat with
      | none => exact absurd h hacc
      | ro => exact .inr ⟨rfl, rfl⟩
      | rw => exact .inl rfl
    have hfinish := finish_full (srcs := []) (dsts := [o.d]) hfull (crCheck s o.n.toNat false >>= fun _ =>
      .ok ((s.putX o.d (s.crRead o.n.toNat)).advance 4))
    exact ⟨fun hsettled => hfinish.trans (finish_crCheck_ok _ hread hsettled), fun hheld hunsettled =>
      hfinish.trans (finish_crCheck_wait _ hread hheld hunsettled)⟩
  · refine ⟨?_, ?_, ?_⟩
    · exact crModify_writes (fun _ a => a) hfull hrw hsettled rfl
    · exact crModify_writes (fun c a => c ||| a) hfull hrw hsettled rfl
    · exact crModify_writes (fun c a => c &&& ~~~a) hfull hrw hsettled rfl
  · exact ⟨crModify_waits (fun _ a => a) hfull hrw hheld hunsettled, crModify_waits (fun c a => c ||| a) hfull hrw hheld hunsettled,
      crModify_waits (fun c a => c &&& ~~~a) hfull hrw hheld hunsettled⟩

end Sys2Proof.Machine

/-! The system instructions: `fe`, `yield`, `ifence`, `halt` and its report, `tlbinv`, `tlbprobe`, `time`, `ctrr` (for O22). -/

namespace Sys2Proof.Machine

open Sys2Proof

/-! ### A state left by an instruction that moves on and counts (R9, R122) -/

section

variable (u : State) (n : Off)

/-- The acting slot moves on and counts. -/
theorem State.slot_advance_noteIssued : (u.advance n).noteIssued.slot = { u.slot with pc := u.slot.pc + n, issued := u.slot.issued + 1 } := by
  rw [State.slot_noteIssued, State.advance, State.slot_modSlot]

/-- The acting core keeps all but its slots and its count. -/
theorem State.core_advance_noteIssued :
    { (u.advance n).noteIssued.core with slots := u.core.slots, issued := u.core.issued } = u.core := by
  simp only [State.core, State.noteIssued, State.noteIssuedAt, State.advance, State.modSlot, State.onSlot, State.onCore_cur,
    State.getCore_onCore]
  rfl

end

/-! ### `fe` (R118) -/

/-- Any bit of a bit vector with one bit set to a value. -/
theorem getLsbD_setBit_ite {w : Nat} (b : BitVec w) {i : Nat} (j : Nat) (v : Bool) (h : i < w) :
    (setBit b i v).getLsbD j = if j = i then v else b.getLsbD j := by
  by_cases hj : j = i
  · rw [hj, getLsbD_setBit b i v h, if_pos rfl]
  · rw [getLsbD_setBit_other b v hj, if_neg hj]

/-- A register marked full or empty by `fe`: filling an x register detaches its pending reply (R118). -/
def Slot.feMark (l : Slot) (full : Bool) : Reg → Slot
  | .x r => { l.markX r full with callp := if full then setBit l.callp r.toNat false else l.callp }
  | .v r => l.markV r full

/-- The numbers 1 to 31 name the x registers but x0 (R23). -/
theorem regOfNumber_x {n : Nat} (hpos : 0 < n) (h : n < 32) : ∃ r : XReg, regOfNumber n = .x r ∧ r ≠ 0 ∧ r.toNat = n := by
  have hval : (BitVec.ofNat 5 n).toNat = n := by rw [BitVec.toNat_ofNat, Nat.mod_eq_of_lt h]
  refine ⟨BitVec.ofNat 5 n, if_pos h, fun h0 => ?_, hval⟩
  rw [h0] at hval
  exact absurd hval (by simp; omega)

/-- The numbers 32 to 47 name the v registers (R23). -/
theorem regOfNumber_v {n : Nat} (hle : 32 ≤ n) (h : n ≤ 47) : ∃ r : VReg, regOfNumber n = .v r ∧ 32 + r.toNat = n :=
  ⟨BitVec.ofNat 4 (n - 32), if_neg (by omega), by rw [BitVec.toNat_ofNat]; omega⟩

/-- What `fe` changes of a slot: the named register's full bit, and the pending reply of an x register that is filled. -/
theorem Slot.feMark_spec (l : Slot) (full : Bool) {n : Nat} (hpos : 0 < n) (hle : n ≤ 47) :
    let k := l.feMark full (regOfNumber n)
    k.x = l.x ∧ k.v = l.v ∧ k.pc = l.pc ∧
      (∀ i, i < 32 → k.xfull.getLsbD i = if i = n then full else l.xfull.getLsbD i) ∧
      (∀ i, i < 16 → k.vfull.getLsbD i = if 32 + i = n then full else l.vfull.getLsbD i) ∧
      ∀ i, i < 32 → k.callp.getLsbD i = if i = n ∧ full = true then false else l.callp.getLsbD i := by
  by_cases hx : n < 32
  · obtain ⟨r, hr, hr0, hn⟩ := regOfNumber_x hpos hx
    rw [hr]
    have hmark : l.feMark full (.x r) =
        { l with xfull := setBit l.xfull n full, callp := if full then setBit l.callp n false else l.callp } := by
      simp only [Slot.feMark, Slot.markX, if_neg hr0, hn]
    rw [hmark]
    refine ⟨rfl, rfl, rfl, fun i _ => getLsbD_setBit_ite _ _ _ hx, fun i _ => (if_neg (by omega)).symm, fun i _ => ?_⟩
    cases full with
    | true => simpa only [and_true] using! getLsbD_setBit_ite l.callp i false hx
    | false => exact (if_neg (by simp)).symm
  · obtain ⟨r, hr, hn⟩ := regOfNumber_v (by omega) hle
    rw [hr]
    have hlt : r.toNat < 16 := r.isLt
    refine ⟨rfl, rfl, rfl, fun i _ => (if_neg (by omega)).symm, fun i _ => ?_, fun i _ => (if_neg (by omega)).symm⟩
    have hidx : 32 + i = n ↔ i = r.toNat := by omega
    simp only [hidx]
    exact getLsbD_setBit_ite _ _ _ hlt

section

variable {s : State}

/-- The body of `fe` once both its registers are full. -/
def State.feBody (s : State) (n : Nat) (full : Bool) : Body State :=
  if 47 < n || (44 ≤ n && s.slot.sm.getLsbD (n - 44)) then trapIllegal s
  else if n = 0 then .ok (s.advance 4)
  else if s.returning s.cur (regOfNumber n) then waitHere s 11 (BitVec.ofNat 64 n)
  else .ok ((s.modSlot fun l => l.feMark full (regOfNumber n)).advance 4)

theorem exec_fe {o : RAB} (h : s.FullX [o.a, o.b]) : exec (.fe o) s = finish s (s.feBody (s.xv o.a).toNat ((s.xv o.b).getLsbD 0)) :=
  finish_full (srcs := [(o.a, o.wa), (o.b, o.wb)]) (dsts := []) h _

/-- `fe` of a number above 47, or of a stream (R118). -/
theorem finish_feBody_illegal {n : Nat} (full : Bool) (h : 47 < n ∨ (44 ≤ n ∧ s.slot.sm.getLsbD (n - 44) = true)) :
    finish s (s.feBody n full) = .next (s.takeSup s.cur 0x0010 s.instrWord s.slot.pc) := by
  rw [State.feBody, if_pos (by simpa using h)]
  rfl

/-- `fe` of number 0 only moves on (R118). -/
theorem finish_feBody_zero (full : Bool) : finish s (s.feBody 0 full) = .next (s.advance 4).noteIssued := by
  simp [State.feBody]

section

variable {n : Nat} (full : Bool) (hpos : 0 < n) (hle : n ≤ 47) (hstream : ¬(44 ≤ n ∧ s.slot.sm.getLsbD (n - 44) = true))
include hpos hle hstream

/-- `fe` of a register that names no stream (R118). -/
theorem feBody_register : s.feBody n full = if s.returning s.cur (regOfNumber n) then waitHere s 11 (BitVec.ofNat 64 n)
    else .ok ((s.modSlot fun l => l.feMark full (regOfNumber n)).advance 4) := by
  rw [State.feBody, if_neg (by simpa [Nat.not_lt.mpr hle] using hstream), if_neg (by omega)]

/-- `fe` waits while a returning operation targets its register (R118). -/
theorem finish_feBody_returning (hret : s.returning s.cur (regOfNumber n) = true) :
    finish s (s.feBody n full) = .next (s.setWait { kind := 11, obj := s.slot.pc.setWidth 64, ph := BitVec.ofNat 64 n }) := by
  rw [feBody_register full hpos hle hstream, if_pos hret]
  exact finish_waitHere 11 _

/-- Otherwise it marks the register (R118). -/
theorem finish_feBody_marks (hret : s.returning s.cur (regOfNumber n) = false) :
    finish s (s.feBody n full) = .next ((s.modSlot fun l => l.feMark full (regOfNumber n)).advance 4).noteIssued := by
  rw [feBody_register full hpos hle hstream, if_neg (by simp [hret])]
  rfl

end

end

/-! ### `yield`, `ifence` and `halt` (R115, R116, R117) -/

section

variable {s : State}

/-- The issue level as the rule gives it (R330). -/
theorem Slot.level_val (l : Slot) : l.level.val = if l.mode = .supervisor then 4 else l.prio.toNat := by
  have hprio := l.prio.isLt
  unfold Slot.level
  split
  · rfl
  · exact Nat.mod_eq_of_lt (by omega)

/-- A vector read at an index after a write at another, or it. -/
theorem vector_set_get_ite {α : Type} {n : Nat} (v : Vector α n) (x : α) (i j : Fin n) :
    (v.set i.val x)[j] = if j.val = i.val then x else v[j] := by
  by_cases h : j = i
  · rw [h, vector_set_get_same, if_pos rfl]
  · rw [vector_set_get_other v x h, if_neg fun e => h (Fin.ext e)]

/-- `ifence` with every store performed (R116). -/
theorem execIfence_done (o : R0) (h : ∀ r ∈ s.reqsOf s.cur, r.pendingBytes = []) :
    exec (.ifence o) s = .next (((s.modSlot fun l => { l with prefetched := [] }).advance 4).noteIssued) := by
  have hdone : s.storesPerformed s.cur = true := List.all_eq_true.mpr fun r hr => List.isEmpty_iff.mpr (h r hr)
  exact congrArg (finish s) (if_pos hdone)

/-- `ifence` with a store still on its way waits (R116, R340). -/
theorem execIfence_waits (o : R0) (h : ∃ r ∈ s.reqsOf s.cur, r.pendingBytes ≠ []) :
    exec (.ifence o) s = .next (s.setWait { kind := 6, obj := s.slot.pc.setWidth 64, ph := 0 }) := by
  obtain ⟨r, hr, hne⟩ := h
  have hnot : ¬s.storesPerformed s.cur = true := fun hall => hne (List.isEmpty_iff.mp (List.all_eq_true.mp hall r hr))
  exact (congrArg (finish s) (if_neg hnot)).trans (finish_waitHere 6 0)

/-- The report that `halt` puts on its way (R117). -/
def State.haltReport (s : State) : State :=
  let t := s.modCore fun c => { c with halted := true }
  State.fresh { t with
    fails := t.fails ++ [{ id := t.nextId, core := s.cur.core, launch := s.core.launch,
                           halt := some (s.slot.sepc.setWidth 64, s.cur.slot.setWidth 64) }] }

/-- `halt` in supervisor mode (R117). -/
theorem execHalt_supervisor (o : R0) (h : s.slot.mode = .supervisor) :
    exec (.halt o) s = .next ((s.haltReport.advance 4).noteIssued) :=
  congrArg (finish s) (if_neg (by rw [h]; decide))

/-- The halted core stops issue (R117). -/
theorem State.halted_haltReport (s : State) : s.haltReport.core.halted = true :=
  congrArg Core.halted (s.core_modCore fun c => { c with halted := true })

/-! ### The report of a halt (R117, R342) -/

/-- A halt's failure report where nothing of its core is under way, or where the core has saved itself: the host is told (R117, R385). -/
theorem execFailureReport_halt {n : Nat} {f : FailReport} {w1 w3 : Word} (hfind : s.fails.find? (·.id = n) = some f)
    (hhalt : f.halt = some (w1, w3)) (hready : s.quiet f.core = true ∨ (s.getCore f.core).saved = true) :
    ∃ t e, exec (.failureReport n) s = .next t ∧ t.fails = s.fails.filter (·.id ≠ n) ∧ t.errors = s.errors ++ [e] ∧
      e.kind = 2 ∧ e.core = f.core ∧ e.launch = f.launch ∧ e.word1 = w1 ∧ e.word3 = w3 := by
  have hexec : exec (.failureReport n) s = execFailureReport n s := rfl
  rw [hexec]
  unfold execFailureReport
  simp only [hfind, hhalt]
  rw [if_neg (by rcases hready with h | h <;> simp [h])]
  generalize s.launcher.launches.find? _ = l
  cases l <;> exact ⟨_, _, rfl, rfl, rfl, rfl, rfl, rfl, rfl, rfl⟩

/-- Until then, while a launch runs there, the report stays (R117, log 38). -/
theorem execFailureReport_stays {n : Nat} {f : FailReport} {w1 w3 : Word} (hfind : s.fails.find? (·.id = n) = some f)
    (hhalt : f.halt = some (w1, w3)) (hquiet : s.quiet f.core = false) (hsaved : (s.getCore f.core).saved = false)
    (hlaunch : ∃ l ∈ s.launcher.launches, l.record.id = f.launch ∧ (l.stage = .running ∨ l.stage = .saving) ∧ f.core ∈ l.cores) :
    exec (.failureReport n) s = .next s := by
  obtain ⟨l, hl, hid, hstage, hcore⟩ := hlaunch
  have hexec : exec (.failureReport n) s = execFailureReport n s := rfl
  rw [hexec]
  unfold execFailureReport
  simp only [hfind, hhalt]
  rw [if_pos (by simpa [hquiet, hsaved] using ⟨l, hl, ⟨hid, hstage⟩, hcore⟩)]

/-! ### `tlbinv` and `tlbprobe` (R119, R120) -/

/-- A field of a word, as a number. -/
theorem bits_toNat (w : Word) (lo n : Nat) : bits w.toNat lo n = (w.extractLsb' lo n).toNat := by
  rw [BitVec.extractLsb'_toNat, Nat.shiftRight_eq_div_pow]
  rfl

/-- A field of four bits of 8 and above. -/
theorem eight_le_bits (w : Word) (lo : Nat) : 8 ≤ bits w.toNat lo 4 ↔ ¬(w.extractLsb' lo 4 < 8) := by
  rw [bits_toNat, BitVec.lt_def, Nat.not_lt]
  rfl

/-- The translations that `tlbinv` of `a` keeps (R119). -/
def tlbinvKeeps (a : Word) (e : TlbEntry) : Bool :=
  if a.toNat % 2 = 1 then false
  else if 8 ≤ bits a.toNat 44 4 then !(e.va ≤ bits a.toNat 0 47 && bits a.toNat 0 47 < e.va + e.size) else true

theorem tlbinvKeeps_iff (a : Word) (e : TlbEntry) : tlbinvKeeps a e = true ↔ a.getLsbD 0 = false ∧
    (a.extractLsb' 44 4 < 8 ∨ ¬(e.va ≤ (a.extractLsb' 0 47).toNat ∧ (a.extractLsb' 0 47).toNat < e.va + e.size)) := by
  have hodd : a.getLsbD 0 = decide (a.toNat % 2 = 1) := Nat.testBit_zero _
  have hpage : (!(e.va ≤ bits a.toNat 0 47 && bits a.toNat 0 47 < e.va + e.size)) = true ↔
      ¬(e.va ≤ (a.extractLsb' 0 47).toNat ∧ (a.extractLsb' 0 47).toNat < e.va + e.size) := by
    rw [bits_toNat, Bool.not_eq_true', Bool.eq_false_iff, ne_eq, Bool.and_eq_true, decide_eq_true_eq, decide_eq_true_eq]
  unfold tlbinvKeeps
  rw [hodd]
  by_cases h1 : a.toNat % 2 = 1
  · simp [h1]
  · rw [if_neg h1]
    by_cases h8 : a.extractLsb' 44 4 < 8
    · rw [if_neg (mt (eight_le_bits a 44).mp (not_not_intro h8))]
      exact iff_of_true rfl ⟨by simpa using h1, .inl h8⟩
    · rw [if_pos ((eight_le_bits a 44).mpr h8), hpage]
      exact ⟨fun h => ⟨by simpa using h1, .inr h⟩, fun h => h.2.resolve_left h8⟩

/-- `tlbinv` in supervisor mode (R119). -/
theorem execTlbinv_supervisor {o : RA} (hmode : s.slot.mode = .supervisor) (h : s.FullX [o.a]) :
    exec (.tlbinv o) s =
      .next ((s.modCore fun c => { c with tlb := c.tlb.filter (tlbinvKeeps (s.xv o.a)) }).advance 4).noteIssued :=
  (congrArg (finish s) (if_neg (by rw [hmode]; decide))).trans (finish_full (srcs := [(o.a, o.wa)]) (dsts := []) h _)

/-- `tlbprobe` in supervisor mode (R120). -/
theorem execTlbprobe_supervisor {o : R2} (hmode : s.slot.mode = .supervisor) (h : s.FullX [o.a, o.d]) :
    exec (.tlbprobe o) s = .next (s.wroteX o.d (if 8 ≤ bits (s.xv o.a).toNat 44 4 then
      ((s.core.tlbFind (bits (s.xv o.a).toNat 0 47)).map (·.leaf)).getD 0 else 0) 4) :=
  (congrArg (finish s) (if_neg (by rw [hmode]; decide))).trans (finish_full (srcs := [(o.a, o.wa)]) (dsts := [o.d]) h _)

/-! ### `time` and `ctrr` (R121, R122) -/

/-- `time` reads the timebase of its die (R121). -/
theorem execTime_reads {o : RD} (h : s.FullX [o.d]) :
    let die := DieId.compute (dieOf s.cur.core)
    ∃ now v, s.now ≤ now ∧ s.dieTime die ≤ v ∧ now ≤ v + 32 ∧ (v ≤ now + 32 ∨ v = s.dieTime die) ∧
      exec (.time o) s = .next (({ s with now := now, times := tabPut s.times die v } : State).wroteX o.d (BitVec.ofNat 64 v) 4) := by
  intro die
  refine ⟨s.now + Config.timeAdvance s.tick, max (s.dieTime die) (s.now + Config.timeAdvance s.tick + Config.timeSkew s.tick % 65 - 32),
    by omega, by omega, by omega, by omega, ?_⟩
  exact finish_full (srcs := []) (dsts := [o.d]) h _

/-- `ctrr` past its issue rule, by its selector (R122). -/
theorem exec_ctrr {o : R2} (h : s.FullX [o.a, o.d]) : exec (.ctrr o) s = finish s (match (s.xv o.a).toNat with
    | 0 => .ok (((s.modCore fun c => { c with cycles := c.cycles + Config.cycleAdvance s.tick }).putX o.d
        (s.core.cycles + Config.cycleAdvance s.tick)).advance 4)
    | 1 => .ok ((s.putX o.d s.slot.issued).advance 4)
    | 2 => .ok ((s.putX o.d s.core.issued).advance 4)
    | 3 => .ok (((s.modSlot fun l => { l with waited := l.waited + Config.cycleAdvance s.tick }).putX o.d
        (s.slot.waited + Config.cycleAdvance s.tick)).advance 4)
    | 4 => .ok (((s.modCore fun c => { c with idle := c.idle + Config.cycleAdvance s.tick }).putX o.d
        (s.core.idle + Config.cycleAdvance s.tick)).advance 4)
    | _ => trapIllegal s) :=
  finish_full (srcs := [(o.a, o.wa)]) (dsts := [o.d]) h _

end

end Sys2Proof.Machine

/-! Monitors (for O22). -/

namespace Sys2Proof.Machine

open Sys2Proof

/-! ### What a sample does to the monitors (R393, R394) -/

/-- What monitor `n` shows: its least and greatest sample, and its bins. -/
structure MonitorEq (c k : Core) (n : Fin 4) : Prop where
  least : k.monmin[n] = c.monmin[n]
  greatest : k.monmax[n] = c.monmax[n]
  bins : ∀ b : Fin 16, k.mbin[16 * n.val + b.val] = c.mbin[16 * n.val + b.val]

theorem MonitorEq.trans {c k m : Core} {n : Fin 4} (h : MonitorEq c k n) (g : MonitorEq k m n) : MonitorEq c m n :=
  ⟨g.least.trans h.least, g.greatest.trans h.greatest, fun b => (g.bins b).trans (h.bins b)⟩

/-- The bin of a sample lies among the sixteen. -/
theorem monBin_lt (v : Word) (shift : Nat) : monBin v shift < 16 := by
  unfold monBin
  dsimp only
  split <;> omega

/-- The bin that a sample's magnitude and SHIFT name: 0 below 2^SHIFT, the last for all that the others do not hold (R394). -/
theorem monBin_eq_iff (v : Word) (shift : Nat) (b : Fin 16) : monBin v shift = b.val ↔
    if b = 0 then v.toNat < 2 ^ shift
    else 2 ^ (shift + b.val - 1) ≤ v.toNat ∧ (b < 15 → v.toNat < 2 ^ (shift + b.val)) := by
  have hscale : ∀ k, 2 ^ (shift + k) ≤ v.toNat ↔ 2 ^ k ≤ v.toNat / 2 ^ shift := fun k => by
    rw [Nat.le_div_iff_mul_le (Nat.two_pow_pos shift), Nat.pow_add, Nat.mul_comm]
  have hfirst : v.toNat < 2 ^ shift ↔ v.toNat / 2 ^ shift = 0 := (Nat.div_eq_zero_iff_lt (Nat.two_pow_pos shift)).symm
  have hb := b.isLt
  unfold monBin
  dsimp only
  by_cases hq : v.toNat / 2 ^ shift = 0
  · rw [if_pos hq]
    split
    · next h0 => exact iff_of_true (congrArg Fin.val h0).symm (hfirst.mpr hq)
    · next h0 =>
      have hpos : b.val ≠ 0 := fun h => h0 (Fin.ext h)
      refine iff_of_false hpos.symm fun ⟨hle, _⟩ => ?_
      rw [Nat.add_sub_assoc (by omega), hscale, hq] at hle
      exact absurd hle (Nat.not_le.mpr (Nat.two_pow_pos _))
  · rw [if_neg hq]
    split
    · next h0 => exact iff_of_false (by rw [h0]; simp) (mt hfirst.mp hq)
    · next h0 =>
      have hpos : b.val ≠ 0 := fun h => h0 (Fin.ext h)
      have hlast : b < 15 ↔ b.val < 15 := Iff.rfl
      rw [Nat.add_sub_assoc (by omega), hscale, ← Nat.le_log2 hq, ← Nat.not_le, hscale, ← Nat.le_log2 hq, hlast]
      omega

/-- A sample applied to monitor `m` leaves every other monitor. -/
theorem Core.sampleOne_other (c : Core) {n m : Fin 4} (v : Word) (h : n ≠ m) : MonitorEq c (c.sampleOne m v) n := by
  have hval : n.val ≠ m.val := fun e => h (Fin.ext e)
  refine ⟨vector_set_get_other _ _ h, vector_set_get_other _ _ h, fun b => ?_⟩
  have hbin := monBin_lt v (c.monsel[m].toNat / 256 % 16)
  exact Vector.getElem_setIfInBounds_ne _ (by omega)

/-- A sample applied to monitor `n` (R394). -/
theorem Core.sampleOne_same (c : Core) (n : Fin 4) (v : Word) :
    let k := c.sampleOne n v
    let i := monBin v (c.monsel[n].extractLsb' 8 4).toNat
    k.monmin[n].toNat = min c.monmin[n].toNat v.toNat ∧ k.monmax[n].toNat = max c.monmax[n].toNat v.toNat ∧
      ∀ b : Fin 16, k.mbin[16 * n.val + b.val] =
        if i = b.val then BitVec.ofNat 32 (min (c.mbin[16 * n.val + b.val].toNat + 1) 0xFFFF_FFFF) else c.mbin[16 * n.val + b.val] := by
  have hshift : (c.monsel[n].extractLsb' 8 4).toNat = c.monsel[n].toNat / 256 % 16 := by
    rw [BitVec.extractLsb'_toNat, Nat.shiftRight_eq_div_pow]
  dsimp only
  rw [hshift]
  refine ⟨?_, ?_, fun b => ?_⟩
  · refine (congrArg BitVec.toNat (vector_set_get_same c.monmin _ n)).trans ?_
    split
    · next h => rw [BitVec.ult_iff_lt, BitVec.lt_def] at h; omega
    · next h => rw [BitVec.ult_iff_lt, BitVec.lt_def] at h; omega
  · refine (congrArg BitVec.toNat (vector_set_get_same c.monmax _ n)).trans ?_
    split
    · next h => rw [BitVec.ult_iff_lt, BitVec.lt_def] at h; omega
    · next h => rw [BitVec.ult_iff_lt, BitVec.lt_def] at h; omega
  · have hn := n.isLt
    have hbin := monBin_lt v (c.monsel[n].toNat / 256 % 16)
    have hidx : 16 * n.val + monBin v (c.monsel[n].toNat / 256 % 16) = 16 * n.val + b.val ↔
        monBin v (c.monsel[n].toNat / 256 % 16) = b.val := by omega
    refine (Vector.getElem_setIfInBounds (by omega)).trans ?_
    simp only [hidx]
    split
    · next h =>
      have hget : c.mbin.getD (16 * n.val + b.val) 0 = c.mbin[16 * n.val + b.val] := by
        simp [Vector.getD, show 16 * n.val + b.val < 64 by omega]
      rw [h, hget]
    · rfl

section

variable {src : Nat} {v : Word}

/-- The samples of a source at the monitors of a list that select it (R393). -/
def Core.sampleAll (c : Core) (src : Nat) (v : Word) (l : List (Fin 4)) : Core :=
  l.foldl (fun c n => if c.monsel[n].toNat % 16 = src then c.sampleOne n v else c) c

/-- They leave the selections, the slots, and every monitor outside the list. -/
theorem Core.sampleAll_frame (c : Core) (l : List (Fin 4)) :
    (c.sampleAll src v l).monsel = c.monsel ∧ (c.sampleAll src v l).slots = c.slots ∧
      ∀ n, n ∉ l → MonitorEq c (c.sampleAll src v l) n := by
  induction l generalizing c with
  | nil => exact ⟨rfl, rfl, fun n _ => ⟨rfl, rfl, fun _ => rfl⟩⟩
  | cons m l ih =>
    by_cases hsel : c.monsel[m].toNat % 16 = src
    · have hstep : c.sampleAll src v (m :: l) = (c.sampleOne m v).sampleAll src v l := congrArg (List.foldl _ · l) (if_pos hsel)
      rw [hstep]
      obtain ⟨hmonsel, hslots, hother⟩ := ih (c.sampleOne m v)
      refine ⟨hmonsel, hslots, fun n hn => ?_⟩
      rw [List.mem_cons, not_or] at hn
      exact (c.sampleOne_other v hn.1).trans (hother n hn.2)
    · have hstep : c.sampleAll src v (m :: l) = c.sampleAll src v l := congrArg (List.foldl _ · l) (if_neg hsel)
      rw [hstep]
      obtain ⟨hmonsel, hslots, hother⟩ := ih c
      exact ⟨hmonsel, hslots, fun n hn => hother n fun h => hn (List.mem_cons_of_mem _ h)⟩

/-- The monitors before and after one in a sample are others. -/
theorem Core.sample_split (c : Core) (n : Fin 4) : ∃ l₁ l₂, n ∉ l₁ ∧ n ∉ l₂ ∧ c.sample src v =
    (if (c.sampleAll src v l₁).monsel[n].toNat % 16 = src then (c.sampleAll src v l₁).sampleOne n v
      else c.sampleAll src v l₁).sampleAll src v l₂ := by
  obtain ⟨l₁, l₂, hsplit⟩ := List.append_of_mem (List.mem_finRange n)
  have hnodup : (l₁ ++ n :: l₂).Nodup := hsplit ▸ List.nodup_finRange 4
  obtain ⟨hn, -⟩ := List.nodup_cons.mp (List.nodup_middle.mp hnodup)
  rw [List.mem_append, not_or] at hn
  refine ⟨l₁, l₂, hn.1, hn.2, ?_⟩
  unfold Core.sample
  rw [hsplit, List.foldl_append, List.foldl_cons]
  rfl

/-- A monitor that does not select the source keeps what it shows (R393). -/
theorem Core.sample_unselected (c : Core) {n : Fin 4} (h : c.monsel[n].toNat % 16 ≠ src) : MonitorEq c (c.sample src v) n := by
  obtain ⟨l₁, l₂, h₁, h₂, hsample⟩ := c.sample_split (src := src) (v := v) n
  obtain ⟨hmonsel, -, hbefore⟩ := c.sampleAll_frame (src := src) (v := v) l₁
  rw [hsample, if_neg (by rw [hmonsel]; exact h)]
  exact (hbefore n h₁).trans (((c.sampleAll src v l₁).sampleAll_frame l₂).2.2 n h₂)

/-- A monitor that selects the source takes the sample (R393, R394). -/
theorem Core.sample_selected (c : Core) {n : Fin 4} (h : c.monsel[n].toNat % 16 = src) :
    ∃ k : Core, k.monsel = c.monsel ∧ MonitorEq c k n ∧ MonitorEq (k.sampleOne n v) (c.sample src v) n := by
  obtain ⟨l₁, l₂, h₁, h₂, hsample⟩ := c.sample_split (src := src) (v := v) n
  obtain ⟨hmonsel, -, hbefore⟩ := c.sampleAll_frame (src := src) (v := v) l₁
  rw [hsample, if_pos (by rw [hmonsel]; exact h)]
  exact ⟨c.sampleAll src v l₁, hmonsel, hbefore n h₁, ((c.sampleAll src v l₁).sampleOne n v).sampleAll_frame l₂ |>.2.2 n h₂⟩

end

/-- A sample changes the monitors of its source and no other (R393, R394). -/
theorem sampleResult (c : Core) (src : Nat) (v : Word) (n : Fin 4) :
    let k := c.sample src v
    let shift := (c.monsel[n].extractLsb' 8 4).toNat
    let inBin := fun b : Fin 16 =>
      if b = 0 then v.toNat < 2 ^ shift
      else 2 ^ (shift + b.val - 1) ≤ v.toNat ∧ (b < 15 → v.toNat < 2 ^ (shift + b.val))
    k.monsel = c.monsel ∧ k.slots = c.slots ∧
    ((c.monsel[n].extractLsb' 0 4).toNat ≠ src →
      k.monmin[n] = c.monmin[n] ∧ k.monmax[n] = c.monmax[n] ∧ ∀ b : Fin 16, k.mbin[16 * n.val + b.val] = c.mbin[16 * n.val + b.val]) ∧
    ((c.monsel[n].extractLsb' 0 4).toNat = src →
      k.monmin[n].toNat = min c.monmin[n].toNat v.toNat ∧ k.monmax[n].toNat = max c.monmax[n].toNat v.toNat ∧
      ∀ b : Fin 16, (inBin b → k.mbin[16 * n.val + b.val] = BitVec.ofNat 32 (min (c.mbin[16 * n.val + b.val].toNat + 1) 0xFFFF_FFFF)) ∧
        (¬inBin b → k.mbin[16 * n.val + b.val] = c.mbin[16 * n.val + b.val])) := by
  intro k shift inBin
  have hsource : (c.monsel[n].extractLsb' 0 4).toNat = c.monsel[n].toNat % 16 := BitVec.extractLsb'_toNat ..
  rw [hsource]
  obtain ⟨hmonsel, hslots, -⟩ := c.sampleAll_frame (src := src) (v := v) (List.finRange 4)
  refine ⟨hmonsel, hslots, fun h => ?_, fun h => ?_⟩
  · obtain ⟨hleast, hgreatest, hbins⟩ := c.sample_unselected (v := v) h
    exact ⟨hleast, hgreatest, hbins⟩
  · obtain ⟨m, hsel, ⟨hleast, hgreatest, hbins⟩, ⟨hleast', hgreatest', hbins'⟩⟩ := c.sample_selected (v := v) h
    obtain ⟨hmin, hmax, hbin⟩ := m.sampleOne_same n v
    rw [hsel] at hbin
    refine ⟨by rw [hleast', hmin, hleast], by rw [hgreatest', hmax, hgreatest], fun b => ?_⟩
    have hin : monBin v shift = b.val ↔ inBin b := monBin_eq_iff v shift b
    rw [hbins', hbin, hbins]
    exact ⟨fun hb => if_pos (hin.mpr hb), fun hb => if_neg (mt hin.mp hb)⟩

end Sys2Proof.Machine

/-! The issue choice of a cycle (for O22). -/

namespace Sys2Proof.Machine

open Sys2Proof

/-! ### Which candidate issues (R330) -/

/-- Candidates in the order of their slots. -/
def InSlotOrder (l : List Candidate) : Prop := l.Pairwise fun k m => k.slot < m.slot

/-- `k` goes before `m` by age: it is older, or as old and of no greater slot (R330). -/
def Candidate.OlderEq (k m : Candidate) : Prop := m.age < k.age ∨ (m.age = k.age ∧ k.slot ≤ m.slot)

/-- The choice so far of the oldest candidate. -/
def olderOf (b : Option Candidate) (k : Candidate) : Option Candidate :=
  match b with
  | none => some k
  | some m => if m.age < k.age then some k else b

/-- Going on from a candidate of a lower slot than all the others, the oldest of them all is found. -/
theorem foldl_olderOf_some {l : List Candidate} {b : Candidate} (hl : InSlotOrder (b :: l)) :
    ∃ k ∈ b :: l, l.foldl olderOf (some b) = some k ∧ ∀ m ∈ b :: l, k.OlderEq m := by
  induction l generalizing b with
  | nil => exact ⟨b, List.mem_singleton_self b, rfl, fun m hm => .inr (by rw [List.mem_singleton.mp hm]; exact ⟨rfl, Nat.le_refl _⟩)⟩
  | cons a l ih =>
    obtain ⟨hb, hrest⟩ := List.pairwise_cons.mp hl
    obtain ⟨ha, htail⟩ := List.pairwise_cons.mp hrest
    rw [List.foldl_cons]
    by_cases hage : b.age < a.age
    · obtain ⟨k, hk, hfold, hold⟩ := ih hrest
      refine ⟨k, List.mem_cons_of_mem _ hk, by rw [← hfold]; exact congrArg (List.foldl olderOf · l) (if_pos hage), fun m hm => ?_⟩
      rcases List.mem_cons.mp hm with rfl | hm
      · have := hold a List.mem_cons_self
        unfold Candidate.OlderEq at this ⊢
        omega
      · exact hold m hm
    · have hbl : InSlotOrder (b :: l) := List.pairwise_cons.mpr ⟨fun m hm => hb m (List.mem_cons_of_mem _ hm), htail⟩
      obtain ⟨k, hk, hfold, hold⟩ := ih hbl
      refine ⟨k, ?_, by rw [← hfold]; exact congrArg (List.foldl olderOf · l) (if_neg hage), fun m hm => ?_⟩
      · rcases List.mem_cons.mp hk with rfl | hk
        · exact List.mem_cons_self
        · exact List.mem_cons_of_mem _ (List.mem_cons_of_mem _ hk)
      · rcases List.mem_cons.mp hm with rfl | hm
        · exact hold _ List.mem_cons_self
        rcases List.mem_cons.mp hm with rfl | hm
        · have hkb := hold b List.mem_cons_self
          have hlt : b.slot < m.slot := hb m List.mem_cons_self
          unfold Candidate.OlderEq at hkb ⊢
          omega
        · exact hold m (List.mem_cons_of_mem _ hm)

/-- The oldest candidate, the lower slot of two as old (R330). -/
theorem oldest_spec {l : List Candidate} (hl : InSlotOrder l) (hne : l ≠ []) :
    ∃ k ∈ l, oldest l = some k ∧ ∀ m ∈ l, k.OlderEq m := by
  cases l with
  | nil => exact absurd rfl hne
  | cons b l => exact foldl_olderOf_some hl

/-- How far a slot's turn is after a slot `r` in cyclic order (R330). -/
def turnsAfter (r : SlotNo) (i : Fin 16) : Nat := (i.val + 31 - r.toNat) % 16

/-- The first candidate after a slot in cyclic order (R330). -/
theorem afterSlot_spec {l : List Candidate} (hl : InSlotOrder l) (hne : l ≠ []) (r : SlotNo) :
    ∃ k ∈ l, afterSlot l r = some k ∧ ∀ m ∈ l, turnsAfter r k.slot ≤ turnsAfter r m.slot := by
  have hr := r.isLt
  unfold afterSlot turnsAfter
  cases hfind : l.find? fun k => r.toNat < k.slot.val with
  | some k =>
    obtain ⟨hk, before, after, rfl, hbefore⟩ := List.find?_eq_some_iff_append.mp hfind
    obtain ⟨-, hrest, -⟩ := List.pairwise_append.mp hl
    obtain ⟨hafter, -⟩ := List.pairwise_cons.mp hrest
    refine ⟨k, by simp, rfl, fun m hm => ?_⟩
    have hk : r.toNat < k.slot.val := by simpa using hk
    rcases List.mem_append.mp hm with hm | hm
    · have hm : ¬r.toNat < m.slot.val := by simpa using hbefore m hm
      omega
    rcases List.mem_cons.mp hm with rfl | hm
    · exact Nat.le_refl _
    · have := hafter m hm
      omega
  | none =>
    cases l with
    | nil => exact absurd rfl hne
    | cons k l =>
      have hnone : ∀ m ∈ k :: l, ¬r.toNat < m.slot.val := by simpa using List.find?_eq_none.mp hfind
      obtain ⟨hafter, -⟩ := List.pairwise_cons.mp hl
      refine ⟨k, List.mem_cons_self, rfl, fun m hm => ?_⟩
      have hkr := hnone k List.mem_cons_self
      have hmr := hnone m hm
      rcases List.mem_cons.mp hm with rfl | hm
      · exact Nat.le_refl _
      · have := hafter m hm
        omega

/-- The greatest of the levels met so far. -/
def higherOf (v : Fin 5) (k : Candidate) : Fin 5 := if v < k.level then k.level else v

/-- The highest level of some candidates, going on from a level. -/
theorem foldl_higherOf_spec (l : List Candidate) (v : Fin 5) :
    let w := l.foldl higherOf v
    v ≤ w ∧ (∀ m ∈ l, m.level ≤ w) ∧ (w = v ∨ ∃ m ∈ l, m.level = w) := by
  induction l generalizing v with
  | nil => exact ⟨Nat.le_refl _, fun m hm => absurd hm List.not_mem_nil, .inl rfl⟩
  | cons k l ih =>
    obtain ⟨hle, hall, hex⟩ := ih (higherOf v k)
    have hstep : v ≤ higherOf v k ∧ k.level ≤ higherOf v k ∧ (higherOf v k = v ∨ higherOf v k = k.level) := by
      unfold higherOf
      split
      · next h => exact ⟨Nat.le_of_lt h, Nat.le_refl _, .inr rfl⟩
      · next h => exact ⟨Nat.le_refl _, Nat.not_lt.mp h, .inl rfl⟩
    obtain ⟨hv, hk, hcase⟩ := hstep
    refine ⟨Fin.le_trans hv hle, fun m hm => ?_, ?_⟩
    · rcases List.mem_cons.mp hm with rfl | hm
      · exact Fin.le_trans hk hle
      · exact hall m hm
    · rcases hex with hex | ⟨m, hm, hmw⟩
      · rcases hcase with hcase | hcase
        · exact .inl (hex.trans hcase)
        · exact .inr ⟨k, List.mem_cons_self, (hex.trans hcase).symm⟩
      · exact .inr ⟨m, List.mem_cons_of_mem _ hm, hmw⟩

/-- Some candidate stands at the highest level. -/
theorem highest_spec {l : List Candidate} (hne : l ≠ []) :
    let w := l.foldl higherOf 0
    (∀ m ∈ l, m.level ≤ w) ∧ ∃ m ∈ l, m.level = w := by
  obtain ⟨-, hall, hex⟩ := foldl_higherOf_spec l 0
  refine ⟨hall, hex.elim (fun h0 => ?_) id⟩
  obtain ⟨k, hk⟩ := List.exists_mem_of_ne_nil l hne
  exact ⟨k, hk, Fin.le_antisymm (hall k hk) (by rw [h0]; exact Fin.zero_le _)⟩

/-- Some slot of age 64 or more can issue: the oldest does, whoever's turn it is (R330). -/
theorem pick_aged {e : List Candidate} (he : InSlotOrder e) (rr : Vector (BitVec 4) 5) (h : ∃ m ∈ e, 64 ≤ m.age) :
    ∃ k ∈ e, pick e rr = some (k, false) ∧ ∀ m ∈ e, k.OlderEq m := by
  obtain ⟨a, ha, hage⟩ := h
  have hne : e.filter (fun k => 64 ≤ k.age) ≠ [] := List.ne_nil_of_mem (List.mem_filter.mpr ⟨ha, by simpa using hage⟩)
  obtain ⟨k, hk, hold, hall⟩ := oldest_spec (List.Pairwise.filter _ he) hne
  obtain ⟨hke, hk64⟩ := List.mem_filter.mp hk
  have hk64 : 64 ≤ k.age := by simpa using hk64
  refine ⟨k, hke, by rw [pick, hold], fun m hm => ?_⟩
  by_cases hm64 : 64 ≤ m.age
  · exact hall m (List.mem_filter.mpr ⟨hm, by simpa using hm64⟩)
  · exact .inl (by omega)

/-- None is that old: the first at the highest level after its RR does (R330). -/
theorem pick_inTurn {e : List Candidate} (he : InSlotOrder e) (rr : Vector (BitVec 4) 5) (hne : e ≠ []) (h : ∀ m ∈ e, m.age < 64) :
    ∃ k ∈ e, pick e rr = some (k, true) ∧
      ∀ m ∈ e, m.level < k.level ∨ (m.level = k.level ∧ turnsAfter rr[k.level] k.slot ≤ turnsAfter rr[k.level] m.slot) := by
  obtain ⟨hall, a, ha, hlevel⟩ := highest_spec hne
  have hnone : e.filter (fun k => 64 ≤ k.age) = [] := List.filter_eq_nil_iff.mpr fun m hm => by simpa using h m hm
  have hne' : e.filter (fun k => k.level = e.foldl higherOf 0) ≠ [] :=
    List.ne_nil_of_mem (List.mem_filter.mpr ⟨ha, by simpa using hlevel⟩)
  obtain ⟨k, hk, hafter, hfirst⟩ := afterSlot_spec (List.Pairwise.filter _ he) hne' rr[e.foldl higherOf 0]
  obtain ⟨hke, hkl⟩ := List.mem_filter.mp hk
  have hkl : k.level = e.foldl higherOf 0 := by simpa using hkl
  refine ⟨k, hke, ?_, fun m hm => ?_⟩
  · unfold pick
    rw [hnone]
    exact congrArg (Option.map fun k => (k, true)) hafter
  · simp only [hkl]
    by_cases hml : m.level = e.foldl higherOf 0
    · exact .inr ⟨hml, hfirst m (List.mem_filter.mpr ⟨hm, by simpa using hml⟩)⟩
    · exact .inl (Nat.lt_of_le_of_ne (hall m hm) fun e => hml (Fin.ext e))

/-- The slot that a cycle picks among those that can issue (R330). -/
theorem pick_choice {e : List Candidate} (he : InSlotOrder e) (rr : Vector (BitVec 4) 5) (hne : e ≠ []) :
    ∃ k ∈ e, ∃ inTurn, pick e rr = some (k, inTurn) ∧
      ((∃ m ∈ e, 64 ≤ m.age) → inTurn = false ∧ ∀ m ∈ e, k.OlderEq m) ∧
      ((∀ m ∈ e, m.age < 64) → inTurn = true ∧
        ∀ m ∈ e, m.level < k.level ∨ (m.level = k.level ∧ turnsAfter rr[k.level] k.slot ≤ turnsAfter rr[k.level] m.slot)) := by
  by_cases h : ∃ m ∈ e, 64 ≤ m.age
  · obtain ⟨k, hk, hpick, hold⟩ := pick_aged he rr h
    obtain ⟨a, ha, hage⟩ := h
    exact ⟨k, hk, false, hpick, fun _ => ⟨rfl, hold⟩, fun hyoung => absurd (hyoung a ha) (by omega)⟩
  · have hyoung : ∀ m ∈ e, m.age < 64 := fun m hm => Nat.not_le.mp fun hage => h ⟨m, hm, hage⟩
    obtain ⟨k, hk, hpick, hfirst⟩ := pick_inTurn he rr hne hyoung
    exact ⟨k, hk, true, hpick, fun hold => absurd hold h, fun _ => ⟨rfl, hfirst⟩⟩

/-! ### The candidates of a core (R330) -/

/-- The candidate that a slot of a core is, if it can act. -/
noncomputable def State.candidate (s : State) (c : CoreId) (i : Fin 16) : Candidate :=
  { slot := i, level := (s.getSlot (slotAt c i)).level, age := (s.getSlot (slotAt c i)).age, res := s.turn (slotAt c i) }

/-- Whether a slot of a core can issue: it stands where it can act, and what it does leaves it without a wait (R330). -/
def State.canIssue (s : State) (c : CoreId) (i : Fin 16) : Prop :=
  s.canTurn (slotAt c i) = true ∧ ∃ u, s.turn (slotAt c i) = .next u ∧ (u.getSlot (slotAt c i)).wait = none

/-- The slots of a core that can issue, in order. -/
noncomputable def State.issuable (s : State) (c : CoreId) : List (Fin 16) :=
  (List.finRange 16).filter fun i => (s.candidate c i).issues c && s.canTurn (slotAt c i)

theorem State.candidates_filter_issues (s : State) (c : CoreId) :
    (s.candidates c).filter (·.issues c) = (s.issuable c).map (s.candidate c) := by
  unfold State.candidates State.issuable
  rw [List.filter_map, List.filter_filter]
  rfl

theorem State.mem_issuable {s : State} {c : CoreId} {i : Fin 16} : i ∈ s.issuable c ↔ s.canIssue c i := by
  obtain ⟨u, hu⟩ := s.turn_next (slotAt c i)
  have hissues : (s.candidate c i).issues c = (u.getSlot (slotAt c i)).wait.isNone := by
    simp only [Candidate.issues, State.candidate, hu]
  have hcan : s.canIssue c i ↔ s.canTurn (slotAt c i) = true ∧ (u.getSlot (slotAt c i)).wait = none := by
    simp [State.canIssue, hu]
  rw [hcan, State.issuable, List.mem_filter, hissues, Bool.and_eq_true, Option.isNone_iff_eq_none]
  simp [and_comm]

/-- The candidates stand in the order of their slots. -/
theorem State.inSlotOrder_issuable (s : State) (c : CoreId) : InSlotOrder ((s.issuable c).map (s.candidate c)) := by
  have hsorted : (List.finRange 16).Pairwise (· < ·) := by decide
  exact List.pairwise_map.mpr (List.Pairwise.filter _ hsorted)

/-- A cycle of a core of which the slot `i` issues, in its turn or by its age (R330). -/
theorem State.cycle_of_pick {s : State} {c : CoreId} {i : Fin 16} {inTurn : Bool} {u : State}
    (hpick : pick ((s.issuable c).map (s.candidate c)) (s.getCore c).rr = some (s.candidate c i, inTurn))
    (hturn : s.turn (slotAt c i) = .next u) :
    s.cycle c = some (.next (u.tickCore s c (s.issuable c) (some (s.candidate c i, inTurn)))) := by
  have hslots : ((s.issuable c).map (s.candidate c)).map (·.slot) = s.issuable c := by
    rw [List.map_map]
    exact List.map_id _
  have hres : (s.candidate c i).res = .next u := hturn
  unfold State.cycle State.cycleOf
  dsimp only
  rw [State.candidates_filter_issues, hpick]
  dsimp only
  rw [hres, hslots]

/-- A step whose next move is a cycle of a core in which some slot issues. -/
theorem step_of_cycle {s t : State} {c : CoreId} {ms : List Move} (hagenda : s.agenda = .cycle c :: ms)
    (h : ({ s with agenda := ms, tick := s.tick + 1 } : State).cycle c = some (.next t)) : step s = .next t := by
  unfold step
  rw [hagenda]
  exact congrArg (Option.getD · (.next { s with agenda := ms, tick := s.tick + 1 })) h

/-! ### Ages and RR after a cycle (R330) -/

section

variable (s old : State) (c : CoreId) (e : List (Fin 16)) (k : Candidate) (inTurn : Bool)

/-- RR of the level that was served, if it was served in turn. -/
theorem State.rr_tickCore : ((s.tickCore old c e (some (k, inTurn))).getCore c).rr =
    if inTurn then (s.getCore c).rr.set k.level.val (BitVec.ofFin k.slot) else (s.getCore c).rr := by
  rw [State.tickCore, State.getCore_onCore]
  cases inTurn <;> rfl

/-- The slots after a cycle: the one that issued is new, the others age that could have issued or did not wait. -/
theorem State.getSlot_tickCore (j : Fin 16) : (s.tickCore old c e (some (k, inTurn))).getSlot (slotAt c j) =
    if k.slot = j then { s.getSlot (slotAt c j) with age := 0 }
    else if ((old.getSlot (slotAt c j)).st = .ready ∨ (old.getSlot (slotAt c j)).st = .held) ∧
        ((old.getSlot (slotAt c j)).wait = none ∨ j ∈ e) then
      { s.getSlot (slotAt c j) with age := (s.getSlot (slotAt c j)).age + 1 }
    else s.getSlot (slotAt c j) := by
  have hcore : ((s.tickCore old c e (some (k, inTurn))).getCore c).getSlot (BitVec.ofFin j) =
      if (some (k, inTurn)).any (·.1.slot = j) then { (s.getCore c).slots[j] with age := 0 }
      else if ((old.getCore c).slots[j].st = .ready || (old.getCore c).slots[j].st = .held) &&
          ((old.getCore c).slots[j].wait.isNone || e.contains j) then
        { (s.getCore c).slots[j] with age := (s.getCore c).slots[j].age + 1 }
      else (s.getCore c).slots[j] := by
    rw [State.tickCore, State.getCore_onCore]
    exact Vector.getElem_ofFn j.isLt
  refine hcore.trans ?_
  simp only [Option.any_some, decide_eq_true_eq, Bool.and_eq_true, Bool.or_eq_true, Option.isNone_iff_eq_none, List.contains_iff_mem]
  rfl

end

/-- The issue choice of a cycle in which some slot can issue, and the ages and RR after it (R330). -/
theorem State.cycle_choice (b : State) (c : CoreId) :
    let slot := fun i : Fin 16 => b.getSlot (slotAt c i)
    let level := fun i : Fin 16 => if (slot i).mode = .supervisor then 4 else (slot i).prio.toNat
    let rr := fun v : Nat => ((b.getCore c).rr.getD v 0).toNat
    let place := fun i : Fin 16 => (i.val + 31 - rr (level i)) % 16
    (∃ i, b.canIssue c i) →
    ∃ i u t, b.canIssue c i ∧ b.turn (slotAt c i) = .next u ∧ b.cycle c = some (.next t) ∧ t.mem = u.mem ∧ t.reqs = u.reqs ∧
      ((∃ j, b.canIssue c j ∧ 64 ≤ (slot j).age) →
        (∀ j, b.canIssue c j → (slot j).age < (slot i).age ∨ ((slot j).age = (slot i).age ∧ i ≤ j)) ∧
          (t.getCore c).rr = (u.getCore c).rr) ∧
      ((∀ j, b.canIssue c j → (slot j).age < 64) →
        (∀ j, b.canIssue c j → level j < level i ∨ (level j = level i ∧ place i ≤ place j)) ∧
        ∀ v : Fin 5, (t.getCore c).rr[v] = if v.val = level i then BitVec.ofFin i else (u.getCore c).rr[v]) ∧
      (t.getSlot (slotAt c i)) = { u.getSlot (slotAt c i) with age := 0 } ∧
      ∀ j, j ≠ i → ∃ n, t.getSlot (slotAt c j) = { u.getSlot (slotAt c j) with age := (u.getSlot (slotAt c j)).age + n } ∧
        (((slot j).st = .ready ∨ (slot j).st = .held) ∧ ((slot j).wait = none ∨ b.canIssue c j) → n = 1) ∧
        (¬(((slot j).st = .ready ∨ (slot j).st = .held) ∧ ((slot j).wait = none ∨ b.canIssue c j)) → n = 0) := by
  intro slot level rr place hex
  have hlevel : ∀ m, level m = (slot m).level.val := fun m => (Slot.level_val _).symm
  obtain ⟨j₀, hj₀⟩ := hex
  have hne : (b.issuable c).map (b.candidate c) ≠ [] := List.ne_nil_of_mem (List.mem_map_of_mem (State.mem_issuable.mpr hj₀))
  obtain ⟨k, hk, inTurn, hpick, haged, hturns⟩ := pick_choice (b.inSlotOrder_issuable c) (b.getCore c).rr hne
  obtain ⟨i, hi, rfl⟩ := List.mem_map.mp hk
  obtain ⟨u, hu⟩ := b.turn_next (slotAt c i)
  have hcan : ∀ {j}, b.canIssue c j → b.candidate c j ∈ (b.issuable c).map (b.candidate c) := fun h =>
    List.mem_map_of_mem (State.mem_issuable.mpr h)
  refine ⟨i, u, _, State.mem_issuable.mp hi, hu, State.cycle_of_pick hpick hu, rfl, rfl, fun ⟨a, ha, hage⟩ => ?_, fun hyoung => ?_, ?_,
    fun j hj => ?_⟩
  · obtain ⟨hin, hold⟩ := haged ⟨_, hcan ha, hage⟩
    exact ⟨fun j hj => hold _ (hcan hj), by rw [State.rr_tickCore, hin]; rfl⟩
  · obtain ⟨hin, hfirst⟩ := hturns fun m hm => by
      obtain ⟨j, hj, rfl⟩ := List.mem_map.mp hm
      exact hyoung j (State.mem_issuable.mp hj)
    refine ⟨fun j hj => ?_, fun v => ?_⟩
    · have hplace : ∀ m, place m = turnsAfter (b.getCore c).rr[(slot m).level] m := fun m => by
        simp [place, rr, hlevel, turnsAfter, Vector.getD]
      rw [hlevel, hlevel, hplace, hplace]
      rcases hfirst _ (hcan hj) with hlt | ⟨heq, hle⟩
      · exact .inl hlt
      · have heq : (slot j).level = (slot i).level := heq
        refine .inr ⟨congrArg Fin.val heq, ?_⟩
        simp only [heq]
        exact hle
    · rw [State.rr_tickCore, hin, if_pos rfl, hlevel]
      exact vector_set_get_ite _ _ _ v
  · rw [State.getSlot_tickCore]
    exact if_pos rfl
  · rw [State.getSlot_tickCore, if_neg (fun h => hj h.symm)]
    rw [← State.mem_issuable]
    by_cases h : ((slot j).st = .ready ∨ (slot j).st = .held) ∧ ((slot j).wait = none ∨ j ∈ b.issuable c)
    · exact ⟨1, if_pos h, fun _ => rfl, fun hn => absurd h hn⟩
    · exact ⟨0, if_neg h, fun hp => absurd hp h, fun _ => rfl⟩

end Sys2Proof.Machine

/-! The system instructions, the issue choice and the monitors together (O22). -/

namespace Sys2Proof.Machine

open Sys2Proof

section

variable {s : State}

/-- `fe` in all its outcomes (R118). -/
theorem feResult {o : RAB} (h : s.FullX [o.a, o.b]) :
    let n := (s.xv o.a).toNat
    let full := (s.xv o.b).getLsbD 0
    let stream := 44 ≤ n ∧ s.slot.sm.getLsbD (n - 44) = true
    (47 < n ∨ stream → exec (.fe o) s = .next (s.takeSup s.cur 0x0010 s.instrWord s.slot.pc)) ∧
    (n = 0 → exec (.fe o) s = .next (s.advance 4).noteIssued) ∧
    (0 < n → n ≤ 47 → ¬stream → s.returning s.cur (regOfNumber n) = true →
      exec (.fe o) s = .next (s.setWait { kind := 11, obj := s.slot.pc.setWidth 64, ph := BitVec.ofNat 64 n })) ∧
    (0 < n → n ≤ 47 → ¬stream → s.returning s.cur (regOfNumber n) = false →
      ∃ t, exec (.fe o) s = .next t ∧ t.mem = s.mem ∧ t.slot.x = s.slot.x ∧ t.slot.v = s.slot.v ∧
        t.slot.pc = s.slot.pc + 4 ∧
        (∀ i, i < 32 → t.slot.xfull.getLsbD i = if i = n then full else s.slot.xfull.getLsbD i) ∧
        (∀ i, i < 16 → t.slot.vfull.getLsbD i = if 32 + i = n then full else s.slot.vfull.getLsbD i) ∧
        ∀ i, i < 32 → t.slot.callp.getLsbD i = if i = n ∧ full = true then false else s.slot.callp.getLsbD i) := by
  dsimp only
  rw [exec_fe h]
  refine ⟨finish_feBody_illegal _, fun hn => by rw [hn]; exact finish_feBody_zero _, fun hpos hle hstream hret =>
    finish_feBody_returning _ hpos hle hstream hret, fun hpos hle hstream hret => ?_⟩
  rw [finish_feBody_marks _ hpos hle hstream hret]
  obtain ⟨hx, hv, hpc, hxfull, hvfull, hcallp⟩ := s.slot.feMark_spec ((s.xv o.b).getLsbD 0) hpos hle
  refine ⟨_, rfl, rfl, ?_⟩
  rw [State.slot_advance_noteIssued, State.slot_modSlot]
  exact ⟨hx, hv, congrArg (· + 4) hpc, hxfull, hvfull, hcallp⟩

/-- `yield`: RR of the slot's level becomes the slot (R115, R330). -/
theorem yieldResult (o : R0) : ∃ t, exec (.yield o) s = .next t ∧ t.mem = s.mem ∧
    t.slot = { s.slot with pc := s.slot.pc + 4, issued := s.slot.issued + 1 } ∧
    ∀ v : Fin 5, t.core.rr[v] = if v.val = (if s.slot.mode = .supervisor then 4 else s.slot.prio.toNat) then s.cur.slot
      else s.core.rr[v] := by
  refine ⟨((s.modCore fun c => { c with rr := c.rr.set s.slot.level.val s.cur.slot }).advance 4).noteIssued, rfl, rfl, ?_, fun v => ?_⟩
  · rw [State.slot_advance_noteIssued, State.slot_modCore]
    rfl
  · have hrr := congrArg Core.rr ((s.modCore fun c => { c with rr := c.rr.set s.slot.level.val s.cur.slot }).core_advance_noteIssued 4)
    rw [State.core_modCore] at hrr
    have hget := congrArg (fun r => r[v]) hrr
    rw [← s.slot.level_val]
    exact hget.trans (vector_set_get_ite s.core.rr s.cur.slot s.slot.level v)

/-- `halt` in supervisor mode: the core stops, and its report is on its way (R117). -/
theorem haltResult (o : R0) (h : s.slot.mode = .supervisor) :
    ∃ t, exec (.halt o) s = .next t ∧ t.core.halted = true ∧ t.errors = s.errors ∧
    ∃ f, t.fails = s.fails ++ [f] ∧ f.core = s.cur.core ∧ f.launch = s.core.launch ∧
      f.halt = some (s.slot.sepc.setWidth 64, s.cur.slot.setWidth 64) :=
  ⟨_, execHalt_supervisor o h, (congrArg Core.halted (s.haltReport.core_advance_noteIssued 4)).trans s.halted_haltReport, rfl,
    _, rfl, rfl, rfl, rfl⟩

/-- `tlbinv` in supervisor mode (R119). -/
theorem tlbinvResult {o : RA} (hmode : s.slot.mode = .supervisor) (h : s.FullX [o.a]) : ∃ t, exec (.tlbinv o) s = .next t ∧
    t.slot = { s.slot with pc := s.slot.pc + 4, issued := s.slot.issued + 1 } ∧
    ∀ e, e ∈ t.core.tlb ↔ e ∈ s.core.tlb ∧ (s.xv o.a).getLsbD 0 = false ∧
      ((s.xv o.a).extractLsb' 44 4 < 8 ∨ ¬(e.va ≤ ((s.xv o.a).extractLsb' 0 47).toNat ∧
        ((s.xv o.a).extractLsb' 0 47).toNat < e.va + e.size)) := by
  refine ⟨_, execTlbinv_supervisor hmode h, ?_, fun e => ?_⟩
  · rw [State.slot_advance_noteIssued, State.slot_modCore]
    rfl
  · have htlb := congrArg Core.tlb
      ((s.modCore fun c => { c with tlb := c.tlb.filter (tlbinvKeeps (s.xv o.a)) }).core_advance_noteIssued 4)
    rw [State.core_modCore] at htlb
    rw [← tlbinvKeeps_iff, ← List.mem_filter]
    exact iff_of_eq (congrArg (e ∈ ·) htlb)

/-- `tlbprobe` in supervisor mode: the held entry, or zero (R120). -/
theorem tlbprobeResult {o : R2} (hmode : s.slot.mode = .supervisor) (h : s.FullX [o.a, o.d]) :
    let va := ((s.xv o.a).extractLsb' 0 47).toNat
    ((s.xv o.a).extractLsb' 44 4 < 8 → exec (.tlbprobe o) s = .next (s.wroteX o.d 0 4)) ∧
    (8 ≤ (s.xv o.a).extractLsb' 44 4 → s.core.tlbFind va = none → exec (.tlbprobe o) s = .next (s.wroteX o.d 0 4)) ∧
    (∀ e, 8 ≤ (s.xv o.a).extractLsb' 44 4 → s.core.tlbFind va = some e →
      exec (.tlbprobe o) s = .next (s.wroteX o.d e.leaf 4)) := by
  dsimp only
  rw [execTlbprobe_supervisor hmode h, bits_toNat (s.xv o.a) 0 47]
  have hvirt : 8 ≤ (s.xv o.a).extractLsb' 44 4 → 8 ≤ bits (s.xv o.a).toNat 44 4 := fun h8 =>
    (eight_le_bits _ _).mpr (BitVec.not_lt.mpr h8)
  refine ⟨fun h8 => ?_, fun h8 hnone => ?_, fun e h8 hsome => ?_⟩
  · rw [if_neg (mt (eight_le_bits _ _).mp (not_not_intro h8))]
  · rw [if_pos (hvirt h8), hnone]
    rfl
  · rw [if_pos (hvirt h8), hsome]
    rfl

/-- `ctrr` by its selector (R122). -/
theorem ctrrResult {o : R2} (h : s.FullX [o.a, o.d]) :
    (s.xv o.a = 1 → exec (.ctrr o) s = .next (s.wroteX o.d s.slot.issued 4)) ∧
    (s.xv o.a = 2 → exec (.ctrr o) s = .next (s.wroteX o.d s.core.issued 4)) ∧
    (s.xv o.a = 0 → ∃ v, exec (.ctrr o) s = .next ((s.modCore fun c => { c with cycles := v }).wroteX o.d v 4)) ∧
    (s.xv o.a = 3 → ∃ v, exec (.ctrr o) s = .next ((s.modSlot fun l => { l with waited := v }).wroteX o.d v 4)) ∧
    (s.xv o.a = 4 → ∃ v, exec (.ctrr o) s = .next ((s.modCore fun c => { c with idle := v }).wroteX o.d v 4)) ∧
    (4 < (s.xv o.a).toNat → exec (.ctrr o) s = .next (s.takeSup s.cur 0x0010 s.instrWord s.slot.pc)) := by
  rw [exec_ctrr h]
  refine ⟨fun ha => ?_, fun ha => ?_, fun ha => ⟨s.core.cycles + Config.cycleAdvance s.tick, ?_⟩,
    fun ha => ⟨s.slot.waited + Config.cycleAdvance s.tick, ?_⟩,
    fun ha => ⟨s.core.idle + Config.cycleAdvance s.tick, ?_⟩, fun ha => ?_⟩
  case refine_6 =>
    obtain ⟨m, hm⟩ := Nat.exists_eq_add_of_lt ha
    rw [hm, show 4 + m + 1 = m + 5 by omega]
    rfl
  all_goals rw [ha]; rfl

end

/-- Settles O22: each instruction by its own outcomes, the cycle by the candidate that `pick` chooses, and a sample by the monitors that
select its source. -/
theorem systemResults : Obligations.SystemResults := by
  unfold Obligations.SystemResults
  refine ⟨fun o s hfull => feResult hfull, fun s => ⟨fun o => rfl, fun o => yieldResult o,
    fun o h => ⟨_, execIfence_done o h, rfl, ?_⟩, fun o h => execIfence_waits o h, fun o h => haltResult o h, fun n f w1 w3 hfind hhalt =>
      ⟨execFailureReport_halt hfind hhalt, execFailureReport_stays hfind hhalt⟩,
    fun o hmode hfull => tlbinvResult hmode hfull, fun o hmode hfull => tlbprobeResult hmode hfull, fun o hfull => execTime_reads hfull,
    fun o hfull => ctrrResult hfull⟩, fun s c ms hagenda => ?_, fun c src v n => sampleResult c src v n⟩
  · rw [State.slot_advance_noteIssued, State.slot_modSlot]
  · intro b slot can level rr place _ hex
    obtain ⟨i, u, t, hcan, hu, hcycle, hrest⟩ := b.cycle_choice c hex
    exact ⟨i, u, t, hcan, hu, step_of_cycle hagenda hcycle, hrest⟩

end Sys2Proof.Machine
